-- ==== Sys2Proof/Word.lean ====
section
/-! DEFINITION. The word types of the Hexuth H9 and the vocabulary of operands: specifiers (R9), element format
codes (R80), scopes (R82), and the structures of operands that the constructors of `Instr` carry. -/

namespace Sys2Proof

/-- The unit of memory. -/
abbrev Byte := BitVec 8

/-- One lane of a vector register, one instruction word, one system register (R76, R12). -/
abbrev Word := BitVec 64

/-- A whole vector register: 32 lanes of 64 bits, lane `l` at bit `64 * l` (R12, R40). -/
abbrev Lanes := BitVec 2048

/-- A predicate: bit `8 * l + o` belongs to lane `l`, byte offset `o` (R19). -/
abbrev PredBits := BitVec 256

/-- One cache line of 128 bytes, byte `i` at bits `[8 i + 7 : 8 i]`. -/
abbrev LineBits := BitVec 1024

/-- The 14 element formats that an FMT code can name (R80). -/
inductive Fmt
  | b64 | i32 | ui32 | i16 | ui16 | i8 | ui8 | f32 | f16 | bf16 | e4m3 | e5m2 | i4 | ui4
  deriving DecidableEq, Repr

/-- The scope codes of R82, the scopes of R184. -/
inductive Scope
  | grp | stand | core | clus | die | dev | sys
  deriving DecidableEq, Repr

/-- The specifier space of R9. An inline constant is held as its 7-bit code `k`; its value is `k - 64`. -/
inductive Spec
  | v (n : Fin 64)
  | t (n : Fin 8)
  | p (n : Fin 16)
  | m (n : Fin 8)
  | x (n : Fin 8)
  | w (n : Fin 6)
  | vlane
  | vsub
  | vz
  | ext
  | imm (k : BitVec 7)
  deriving DecidableEq, Repr

/-- What one operand field of a standard-format word holds: nothing (the field is unused and zero, R79), a specifier,
in the instructions of R82 a scope, and in CVTI, RWR, SYSRD and SYSWR a raw value. -/
inductive Opnd
  | none
  | reg (r : Spec)
  | scope (c : Scope)
  | raw (b : BitVec 8)
  deriving DecidableEq, Repr

/-- The operands of a standard-format instruction (R76) with its extension word (R77). -/
structure Ops where
  d : Opnd
  a : Opnd
  b : Opnd
  c : Opnd
  ea : Bool
  eb : Bool
  ec : Bool
  pred : Fin 16
  pn : Bool
  fmt : Fmt
  mod : BitVec 4
  ext : Option Word
  deriving DecidableEq, Repr

/-- The operands of a run head (R84): the working set as one mask over v0 to v63, and for RUNR the live-in mask. -/
structure Head where
  ws : Word
  livein : Word
  deriving DecidableEq, Repr

/-- The operands of a run trailer (R85). `d` is the linkage register of ENDCALL, `a` the target register of ENDJ and
ENDRET; `tgt` and `rcv` are the two halves of the extension word of ENDB, ENDC and ENDCALL. -/
structure Trail where
  d : Opnd
  a : Opnd
  ea : Bool
  pub : BitVec 16
  pred : Fin 16
  pn : Bool
  tgt : BitVec 32
  rcv : BitVec 32
  deriving DecidableEq, Repr

/-- The operands of XPR (R86): the standard fields, a fourth input and the operator codes in the order in which they
are applied. -/
structure XprOps where
  o : Ops
  s4 : Opnd
  e4 : Bool
  codes : List (BitVec 6)
  deriving DecidableEq, Repr

/-- A line field of a gate word (R94). -/
structure GLine where
  scratch : Bool
  idx : BitVec 9
  deriving DecidableEq, Repr

/-- The fields of a gate word (R94). -/
structure Gate where
  col : Bool
  out : GLine
  in1 : GLine
  in2 : GLine
  in3 : GLine
  ops : BitVec 19
  deriving DecidableEq, Repr

/-- What the host does through a BAR (R429): a read, a write, or an atomic, whose data are its operand, for `cas` the compare
value and then the new one. -/
inductive BarOp
  | read | write | fetchAdd | swap | cas
  deriving DecidableEq, Repr

/-- What a flit carries (R412, R432, R434). The spec gives the payload no layout, so a flit is held by what it says: a
request of another device, numbered by its sender, at an offset of this device's HBM; the answer to a request of this
device; or a member's contribution to a collective (R242). -/
inductive LinkMsg
  | load (id off : Nat)
  | store (id off : Nat) (data : LineBits) (mask : BitVec 256)
  | atomic (id off width op : Nat) (operand compare : Nat)
  | answer (id : Nat) (detail : Nat) (data : LineBits)
  | contribution (tag rank : Nat) (descriptor : Word) (members : List Nat) (elements : List Word)
  deriving DecidableEq, Repr

end Sys2Proof
end

