-- ==== Sys2Proof/Syntax.lean ====
section
/-! DEFINITION. Every row of the opcode table as one constructor of `Instr`: the instruction words of R83, the gate
words of R95, and the steps that the machine takes without a word (R258 and the rows of the table that name an event).
The fields of a step say which group, command, line or register it acts on, and what the world outside supplies. -/

namespace Sys2Proof

/-- The operations of the H9. -/
inductive Instr
  /-- RUN (R98). -/
  | run (h : Head)
  /-- RUNR (R99). -/
  | runr (h : Head)
  /-- RUN_FETCH (R88). -/
  | runFetch (gid : Nat) (slotB : Bool)
  /-- END (R101). -/
  | endFall (t : Trail)
  /-- ENDB (R101). -/
  | endb (t : Trail)
  /-- ENDC (R102). -/
  | endc (t : Trail)
  /-- ENDJ (R101). -/
  | endj (t : Trail)
  /-- ENDCALL (R101). -/
  | endcall (t : Trail)
  /-- ENDRET (R101). -/
  | endret (t : Trail)
  /-- ENDEXIT (R104). -/
  | endexit (t : Trail)
  /-- GROUP_RESOURCES_RETURN (R105). -/
  | groupResourcesReturn (gid : Nat)
  /-- SPAWN (R107). -/
  | spawn (o : Ops)
  /-- BAR (R110). -/
  | bar (o : Ops)
  /-- BARA (R109). -/
  | bara (o : Ops)
  /-- BARW (R110). -/
  | barw (o : Ops)
  /-- NOP (R111). -/
  | nop (o : Ops)
  /-- ADD (R116). -/
  | add (o : Ops)
  /-- SUB (R116). -/
  | sub (o : Ops)
  /-- ADDS (R116). -/
  | adds (o : Ops)
  /-- SUBS (R116). -/
  | subs (o : Ops)
  /-- NEG (R116). -/
  | neg (o : Ops)
  /-- ABS (R116). -/
  | abs (o : Ops)
  /-- MUL (R116). -/
  | mul (o : Ops)
  /-- MULH (R116). -/
  | mulh (o : Ops)
  /-- MAD (R116). -/
  | mad (o : Ops)
  /-- MADW (R117). -/
  | madw (o : Ops)
  /-- MIN (R116). -/
  | min (o : Ops)
  /-- MAX (R116). -/
  | max (o : Ops)
  /-- DIV (R118). -/
  | div (o : Ops)
  /-- REM (R118). -/
  | rem (o : Ops)
  /-- AND (R119). -/
  | and (o : Ops)
  /-- OR (R119). -/
  | or (o : Ops)
  /-- XOR (R119). -/
  | xor (o : Ops)
  /-- ANDN (R119). -/
  | andn (o : Ops)
  /-- NOT (R119). -/
  | not (o : Ops)
  /-- SHL (R119). -/
  | shl (o : Ops)
  /-- SHR (R119). -/
  | shr (o : Ops)
  /-- ROT (R119). -/
  | rot (o : Ops)
  /-- BFE (R120). -/
  | bfe (o : Ops)
  /-- BFI (R120). -/
  | bfi (o : Ops)
  /-- CLZ (R119). -/
  | clz (o : Ops)
  /-- CTZ (R119). -/
  | ctz (o : Ops)
  /-- POPC (R119). -/
  | popc (o : Ops)
  /-- BREV (R119). -/
  | brev (o : Ops)
  /-- CMP (R121). -/
  | cmp (o : Ops)
  /-- SEL (R122). -/
  | sel (o : Ops)
  /-- MOV (R123). -/
  | mov (o : Ops)
  /-- MOVW (R123). -/
  | movw (o : Ops)
  /-- LEA (R124). -/
  | lea (o : Ops)
  /-- IDX (R124). -/
  | idx (o : Ops)
  /-- CVTI (R125). -/
  | cvti (o : Ops)
  /-- PACK (R126). -/
  | pack (o : Ops)
  /-- UNPK (R126). -/
  | unpk (o : Ops)
  /-- PLOG (R127). -/
  | plog (o : Ops)
  /-- PMOV (R128). -/
  | pmov (o : Ops)
  /-- FADD (R131). -/
  | fadd (o : Ops)
  /-- FSUB (R131). -/
  | fsub (o : Ops)
  /-- FMUL (R131). -/
  | fmul (o : Ops)
  /-- FFMA (R131). -/
  | ffma (o : Ops)
  /-- FMIN (R131). -/
  | fmin (o : Ops)
  /-- FMAX (R131). -/
  | fmax (o : Ops)
  /-- FABS (R131). -/
  | fabs (o : Ops)
  /-- FNEG (R131). -/
  | fneg (o : Ops)
  /-- FCMP (R132). -/
  | fcmp (o : Ops)
  /-- FCLASS (R133). -/
  | fclass (o : Ops)
  /-- FRND (R131). -/
  | frnd (o : Ops)
  /-- FDIV (R134). -/
  | fdiv (o : Ops)
  /-- FRCP (R135). -/
  | frcp (o : Ops)
  /-- FRSQ (R135). -/
  | frsq (o : Ops)
  /-- FSQRT (R135). -/
  | fsqrt (o : Ops)
  /-- FEXP2 (R135). -/
  | fexp2 (o : Ops)
  /-- FLOG2 (R135). -/
  | flog2 (o : Ops)
  /-- FSIN (R135). -/
  | fsin (o : Ops)
  /-- FCOS (R135). -/
  | fcos (o : Ops)
  /-- FLUT (R138). -/
  | flut (o : Ops)
  /-- TBLLD (R139). -/
  | tblld (o : Ops)
  /-- TBLLD_ENTRIES_WRITTEN (R139). -/
  | tblldEntriesWritten (core id : Nat)
  /-- TBLSW (R140). -/
  | tblsw (o : Ops)
  /-- CVT (R142). -/
  | cvt (o : Ops)
  /-- CMUL (R145). -/
  | cmul (o : Ops)
  /-- CFMA (R145). -/
  | cfma (o : Ops)
  /-- SHFL (R146). -/
  | shfl (o : Ops)
  /-- BCST (R146). -/
  | bcst (o : Ops)
  /-- SCAN (R147). -/
  | scan (o : Ops)
  /-- RED (R147). -/
  | red (o : Ops)
  /-- VOTE (R148). -/
  | vote (o : Ops)
  /-- XPR (R151). -/
  | xpr (x : XprOps)
  /-- MLD (R155). -/
  | mld (o : Ops)
  /-- MLD_ARRIVAL (R155). -/
  | mldArrival (gid acc : Nat)
  /-- MST (R155). -/
  | mst (o : Ops)
  /-- MZERO (R156). -/
  | mzero (o : Ops)
  /-- MIDENT (R156). -/
  | mident (o : Ops)
  /-- MSETE (R156). -/
  | msete (o : Ops)
  /-- MGETE (R156). -/
  | mgete (o : Ops)
  /-- MSHAPE (R156). -/
  | mshape (o : Ops)
  /-- MADD (R157). -/
  | madd (o : Ops)
  /-- MSUB (R157). -/
  | msub (o : Ops)
  /-- MSCAL (R157). -/
  | mscal (o : Ops)
  /-- MMUL (R158). -/
  | mmul (o : Ops)
  /-- MFMA (R158). -/
  | mfma (o : Ops)
  /-- MTRN (R158). -/
  | mtrn (o : Ops)
  /-- MMV (R156). -/
  | mmv (o : Ops)
  /-- MCHOL (R160). -/
  | mchol (o : Ops)
  /-- MLUP (R161). -/
  | mlup (o : Ops)
  /-- MSOLVE (R162). -/
  | msolve (o : Ops)
  /-- MINV (R163). -/
  | minv (o : Ops)
  /-- MDET (R164). -/
  | mdet (o : Ops)
  /-- LD (R172). -/
  | ld (o : Ops)
  /-- LDS (R173). -/
  | lds (o : Ops)
  /-- LOAD_DATA_ARRIVAL (R172). -/
  | loadDataArrival (gid acc : Nat)
  /-- ST (R174). -/
  | st (o : Ops)
  /-- LTR (R175). -/
  | ltr (o : Ops)
  /-- PGREQ (R176). -/
  | pgreq (o : Ops)
  /-- PREF (R177). -/
  | pref (o : Ops)
  /-- PAGE_REQUEST_RETRY (R317). -/
  | pageRequestRetry (req : Nat)
  /-- AADD (R178). -/
  | aadd (o : Ops)
  /-- AMIN (R178). -/
  | amin (o : Ops)
  /-- AMAX (R178). -/
  | amax (o : Ops)
  /-- AAND (R178). -/
  | aand (o : Ops)
  /-- AOR (R178). -/
  | aor (o : Ops)
  /-- AXOR (R178). -/
  | axor (o : Ops)
  /-- AXCH (R178). -/
  | axch (o : Ops)
  /-- ACAS (R179). -/
  | acas (o : Ops)
  /-- AFADD (R178). -/
  | afadd (o : Ops)
  /-- SCADD (R182). -/
  | scadd (o : Ops)
  /-- ATOMIC_PERFORM (R268). -/
  | atomicPerform (id : Nat)
  /-- ATOMIC_RETURN (R179). -/
  | atomicReturn (gid acc : Nat)
  /-- FENCE (R185). -/
  | fence (o : Ops)
  /-- RFENCE (R186). -/
  | rfence (o : Ops)
  /-- RWR (R187). -/
  | rwr (o : Ops)
  /-- RWR_DELIVERY (R188). -/
  | rwrDelivery (id : Nat)
  /-- WAITC (R189). -/
  | waitc (o : Ops)
  /-- WAITC_READ (R268). -/
  | waitcRead (gid : Nat) (slotB : Bool)
  /-- CNTADD (R190). -/
  | cntadd (o : Ops)
  /-- TXB (R191). -/
  | txb (o : Ops)
  /-- TXC (R193). -/
  | txc (o : Ops)
  /-- TXA (R194). -/
  | txa (o : Ops)
  /-- CASTREG (R198). -/
  | castreg (o : Ops)
  /-- CASTDROP (R200). -/
  | castdrop (o : Ops)
  /-- CASTQ (R201). -/
  | castq (o : Ops)
  /-- CMOCLN (R203). -/
  | cmocln (o : Ops)
  /-- CMOINV (R203). -/
  | cmoinv (o : Ops)
  /-- CMOFL (R203). -/
  | cmofl (o : Ops)
  /-- RECAST (R306). -/
  | recast (rule tile : Nat)
  /-- XPLACE_PUT (R209). -/
  | xplacePut (o : Ops)
  /-- XPLACE_BIND (R209). -/
  | xplaceBind (o : Ops)
  /-- XEVICT_KEEP (R210). -/
  | xevictKeep (o : Ops)
  /-- XEVICT_SCRUB (R210). -/
  | xevictScrub (o : Ops)
  /-- XACC_ZERO (R211). -/
  | xaccZero (o : Ops)
  /-- XACC_LOAD (R211). -/
  | xaccLoad (o : Ops)
  /-- XACC_FREE (R211). -/
  | xaccFree (o : Ops)
  /-- XMMA (R214). -/
  | xmma (o : Ops)
  /-- XMMAC (R215). -/
  | xmmac (o : Ops)
  /-- XDRAIN (R216). -/
  | xdrain (o : Ops)
  /-- XDRAIN_REGISTER (R217). -/
  | xdrainRegister (o : Ops)
  /-- XSTAT (R218). -/
  | xstat (o : Ops)
  /-- POUR (R222). -/
  | pour (o : Ops)
  /-- RESERVATION_STALL (R206). -/
  | reservationStall (gid : Nat)
  /-- FIELD_PASS_GRANT (R333). -/
  | fieldPassGrant (cluster : Nat)
  /-- FIELD_COMMAND_END (R208). -/
  | fieldCommandEnd (cmd : Nat)
  /-- COMMAND_MIGRATION (R334). -/
  | commandMigration (cmd cluster : Nat)
  /-- POUR_PRESCAN (R232). -/
  | pourPrescan (cmd : Nat)
  /-- G_NOT (R227). -/
  | gNot (cmd : Nat) (g : Gate)
  /-- G_NOR2 (R227). -/
  | gNor2 (cmd : Nat) (g : Gate)
  /-- G_NOR3 (R227). -/
  | gNor3 (cmd : Nat) (g : Gate)
  /-- G_OR2 (R227). -/
  | gOr2 (cmd : Nat) (g : Gate)
  /-- G_AND2 (R227). -/
  | gAnd2 (cmd : Nat) (g : Gate)
  /-- G_NAND2 (R227). -/
  | gNand2 (cmd : Nat) (g : Gate)
  /-- G_IMP (R227). -/
  | gImp (cmd : Nat) (g : Gate)
  /-- G_SET0 (R227). -/
  | gSet0 (cmd : Nat) (g : Gate)
  /-- G_SET1 (R227). -/
  | gSet1 (cmd : Nat) (g : Gate)
  /-- G_READ (R227). -/
  | gRead (cmd : Nat) (g : Gate)
  /-- G_LOAD (R227). -/
  | gLoad (cmd : Nat) (g : Gate)
  /-- POUR_END (R224). -/
  | pourEnd (cmd : Nat)
  /-- ENDURANCE_WINDOW (R354). -/
  | enduranceWindow
  /-- PLATE_PATROL (R347). -/
  | platePatrol (field row : Nat)
  /-- CPY (R240). -/
  | cpy (o : Ops)
  /-- GATH (R240). -/
  | gath (o : Ops)
  /-- SCAT (R240). -/
  | scat (o : Ops)
  /-- COLL (R242). -/
  | coll (o : Ops)
  /-- COLL_CONTRIBUTION_ARRIVAL (R242). -/
  | collContributionArrival (cmd member : Nat)
  /-- NMX (R245). -/
  | nmx (o : Ops)
  /-- NMFENCE (R246). -/
  | nmfence (o : Ops)
  /-- NODE (R247). -/
  | node (o : Ops)
  /-- NODE_ARM (R247). -/
  | nodeArm (id : Nat)
  /-- ENGINE_OWN (R269). -/
  | engineOwn (cmd line : Nat)
  /-- ENGINE_READ (R269). -/
  | engineRead (cmd line : Nat)
  /-- ENGINE_WRITE (R269). -/
  | engineWrite (cmd line : Nat)
  /-- ENGINE_COMPLETE (R237). -/
  | engineComplete (cmd : Nat)
  /-- PHASE_QUEUE_PERFORM (R273). -/
  | phaseQueuePerform (chan : Nat)
  /-- NMX_COMPLETE (R273). -/
  | nmxComplete (cmd : Nat)
  /-- PHASE_SWITCH (R376). -/
  | phaseSwitch (chan : Nat)
  /-- SYSRD (R249). -/
  | sysrd (o : Ops)
  /-- SYSWR (R249). -/
  | syswr (o : Ops)
  /-- ENGSTAT (R251). -/
  | engstat (o : Ops)
  /-- RMSEL (R381). -/
  | rmsel (o : Ops)
  /-- RMPART (R380). -/
  | rmpart (o : Ops)
  /-- TRAP (R252). -/
  | trap (o : Ops)
  /-- BKPT (R252). -/
  | bkpt (o : Ops)
  /-- ERET (R254). -/
  | eret (o : Ops)
  /-- TIME (R256). -/
  | time (o : Ops)
  /-- TRACE (R257). -/
  | trace (o : Ops)
  /-- EMULATION_TRAP (R91). -/
  | emulationTrap (word : Word) (ext : Option Word)
  /-- STORE_ENTER (R261). -/
  | storeEnter (gid : Nat)
  /-- STORE_DRAIN (R262). -/
  | storeDrain (gid : Nat)
  /-- STORE_PROPAGATE (R263). -/
  | storePropagate (core line : Nat)
  /-- STORE_APPLY (R264). -/
  | storeApply (home : Nat)
  /-- LOAD_LINE (R265). -/
  | loadLine (gid acc line : Nat)
  /-- L1_REFRESH (R266). -/
  | l1Refresh (core line : Nat) (drop : Bool)
  /-- L1_FILL (R294). -/
  | l1Fill (core line : Nat)
  /-- L1_AGE_DROP (R294). -/
  | l1AgeDrop (core line : Nat)
  /-- RECORD_CACHE_FILL (R272). -/
  | recordCacheFill (core addr : Nat)
  /-- RECORD_CACHE_DROP (R272). -/
  | recordCacheDrop (core addr : Nat)
  /-- DELIVERY (R274). -/
  | delivery (queue : Nat)
  /-- PAGE_WALK (R313). -/
  | pageWalk (core asn : Nat) (vpage : Nat)
  /-- ARRIVAL (R318). -/
  | arrival (part : Nat) (notice : BitVec 128)
  /-- SHOOTDOWN (R321). -/
  | shootdown (part : Nat) (desc : BitVec 128)
  /-- SHOOTDOWN_COMPLETE (R321). -/
  | shootdownComplete (id : Nat)
  /-- DOORBELL (R397). -/
  | doorbell (part : Nat) (value : BitVec 128)
  /-- DISPATCH (R402). -/
  | dispatch (slot : Nat)
  /-- INDIRECT (R408). -/
  | indirect (slot : Nat)
  /-- COPY (R407). -/
  | copy (slot : Nat)
  /-- GRAPH (R407). -/
  | graph (slot : Nat)
  /-- CMO (R405). -/
  | cmo (slot : Nat)
  /-- WAITMEM (R406). -/
  | waitmem (slot : Nat)
  /-- SIGNAL (R406). -/
  | signal (slot : Nat)
  /-- STAND_PLACE (R329). -/
  | standPlace (launch core : Nat)
  /-- STAND_HANDOVER (R335). -/
  | standHandover (stand : Nat)
  /-- STAND_RESOURCE_RELEASE (R339). -/
  | standResourceRelease (stand : Nat)
  /-- LAUNCH_END (R403). -/
  | launchEnd (launch : Nat)
  /-- QUANTUM_BOUNDARY (R409). -/
  | quantumBoundary (part : Nat)
  /-- PREEMPTION_DISCARD (R336). -/
  | preemptionDiscard (gid : Nat)
  /-- PARTITION_CLEAR (R337). -/
  | partitionClear (part : Nat)
  /-- PARTITION_RESTORE (R338). -/
  | partitionRestore (part : Nat)
  /-- STAND_KILL (R340). -/
  | standKill (stand : Nat)
  /-- PARTITION_CREATE (R393). -/
  | partitionCreate (value : Word)
  /-- PARTITION_UPDATE (R393). -/
  | partitionUpdate (value : Word)
  /-- PARTITION_REMOVE (R393). -/
  | partitionRemove (value : Word)
  /-- HBM_REQUEST (R373). -/
  | hbmRequest (bank index : Nat)
  /-- BACKOFF_END (R379). -/
  | backoffEnd (bank : Nat)
  /-- ROW_IDLE_CLOSE (R373). -/
  | rowIdleClose (bank : Nat)
  /-- PERIODIC_REFRESH (R377). -/
  | periodicRefresh (bank row : Nat)
  /-- HBM_PATROL (R383). -/
  | hbmPatrol (line : Nat) (bad : Nat)
  /-- SRAM_SCRUB (R435). -/
  | sramScrub (unit : Nat) (bad : Nat)
  /-- PARITY_ERROR (R435). -/
  | parityError (core : Nat)
  /-- WORKER_WATCHDOG (R435). -/
  | workerWatchdog (worker : Nat)
  /-- LOCKSTEP_MISMATCH (R391). -/
  | lockstepMismatch
  /-- THERMAL_TRIP (R440). -/
  | thermalTrip
  /-- LINK_FLIT_RECEIVE (R412): `errors` bytes of the flit are in error. -/
  | linkFlitReceive (port : Nat) (seq ack : BitVec 12) (errors : Nat) (src dest : Nat) (hlc : Word) (msg : LinkMsg)
  /-- LINK_REPLAY (R412). -/
  | linkReplay (port : Nat) (expected : Nat)
  /-- LINK_RETRAIN (R412). -/
  | linkRetrain (port : Nat) (ok : Bool)
  /-- HOST_REQUEST_COMPLETION (R430). -/
  | hostRequestCompletion (id : Nat) (ok : Bool) (data : List Byte)
  /-- HOST_BAR_ACCESS (R405, R429). -/
  | hostBarAccess (control : Bool) (op : BarOp) (addr size : Nat) (data : List Byte)
  /-- DEVICE_RESET (R413), with the bytes in the board flash. -/
  | deviceReset (flash : List Byte)
  /-- RLGO (R431), with the value written. -/
  | rlgo (value : Word)
  /-- ATTGO (R431, R439), with the value written. -/
  | attgo (value : Word)
  /-- POWER_LOSS (R358). -/
  | powerLoss
  /-- PTP_CORRECTION (R416). -/
  | ptpCorrection (offset rate : Int)
  /-- DBG_CLAIM (R419). -/
  | dbgClaim (part : Nat) (value : Word)
  /-- DBG_RELEASE (R419). -/
  | dbgRelease (part : Nat) (value : Word)
  /-- DBG_STOP (R419). -/
  | dbgStop (part : Nat) (value : Word)
  /-- DBG_RESUME (R420). -/
  | dbgResume (part : Nat) (value : Word)
  /-- DBG_STEP (R421). -/
  | dbgStep (part : Nat) (value : Word)
  /-- DBG_DUMP (R419). -/
  | dbgDump (part : Nat) (value : Word)
  /-- DBG_LOAD (R419). -/
  | dbgLoad (part : Nat) (value : Word)
  /-- HW_BREAKPOINT (R420). -/
  | hwBreakpoint (gid : Nat) (slotB : Bool)
  /-- PC_SAMPLE (R425). -/
  | pcSample (core sched : Nat)
  /-- PRECISE_STOP (R426). -/
  | preciseStop
  /-- PM_SNAPSHOT (R427). -/
  | pmSnapshot (part : Nat)
  /-- REGISTER_WRITE (R3). -/
  | registerWrite (page offset : Nat) (value : BitVec 128)
  /-- WAITMEM_READ (R406). -/
  | waitmemRead (slot : Nat)
  /-- ANSWER_ARRIVAL (R381). -/
  | answerArrival (gid : Nat)
  /-- CMO_LINES_DONE (R203). -/
  | cmoLinesDone (gid : Nat) (slotB : Bool)
  /-- WITHHOLDING (R440). -/
  | withholding (start : Bool)
  deriving DecidableEq, Repr

end Sys2Proof
end

