-- ==== Sys2Proof/Config.lean ====
section
/-! DEFINITION. What the spec leaves to the machine: which step it takes next (R258), how much time passes (R5, R415),
and the values and choices the spec does not state. Each of these is an opaque constant, so nothing can be proved of
its value; what holds for the model holds for every value of it. -/

namespace Sys2Proof

/-- One turn of the machine: a scheduler of a core may issue one instruction of the run it chooses (R332), or one of
the machine's other steps may be taken (R258). -/
inductive Turn
  | issue (core sched : Nat)
  | event (i : Instr)
  deriving DecidableEq, Repr, Inhabited

namespace Config

/-- Which turn the machine takes next once the agenda is empty: "at every point the machine may take any step whose
condition holds, in any order" (R258). -/
opaque chosen : Nat → Turn

/-- How many ticks pass at a turn (R5, R415). -/
opaque tickStep : Nat → Nat

/-- A free number, fresh for each argument: the choice that replacement, the set index of a slice or the drain order
makes where the spec states none (R293, R298). -/
opaque freeNat : Nat → Nat

/-- The set, of the 1,024 of a slice, that a line belongs to (R298 gives no index). -/
opaque l2Set : Nat → Nat

/-- The set of a core's L1 that a line belongs to (R293 gives no index). -/
opaque l1Set : Nat → Nat

/-- The set, of the 512 of a cluster's L2 TLB, of a page of a size (R314 gives no index). -/
opaque tlbSet : Nat → Nat → Nat

/-- The offset in the control space at which system software reads the plate directory (R357 gives none). -/
opaque directoryBase : Nat

/-- The hash of the key that signs firmware images, as fused in the hub (R413). -/
opaque fusedKeyHash : BitVec 256

/-- Where an image holds the public key, the bytes that are signed, and their signature (R413 names them and not their places). -/
opaque imageKey : List Byte → List Byte
opaque imageBody : List Byte → List Byte
opaque imageSignature : List Byte → List Byte

/-- The device identity key (R439): its identifier, the secret at the start of chain `i` of leaf `q`, and the randomizers of its signatures. -/
opaque lmsId : BitVec 128
opaque lmsSecret : Nat → Nat → BitVec 256
opaque lmsRandom : Nat → BitVec 256

end Config

end Sys2Proof
end

