-- ==== Sys2Proof/WellFormed.lean ====
section
/-! DEFINITION. The form of every standard-format instruction (which operand classes, formats and modifiers it takes)
and the check `Instr.wf` that an instruction meets it. Rules R9, R10, R77 to R86 and the field tables of the
instruction chapters. Decode.lean reads the same forms. -/

namespace Sys2Proof

/-- What an operand position accepts (R10, R114 and the field tables of the instruction chapters). -/
inductive Pos
  /-- unused: the field is zero (R79) -/
  | none
  /-- a buffered destination: a working-set v register or a temporary -/
  | vd
  /-- the v register destination of a long-latency instruction (R17) -/
  | vlong
  /-- a vector source (R114) -/
  | vs
  /-- a v or t register, an inline constant or ext (R106) -/
  | scal
  /-- an inline constant or ext (R123, R142) -/
  | const
  /-- a v or t register that holds a target (R85) -/
  | vt
  /-- a predicate destination, p1 to p15 -/
  | pd
  /-- a predicate source, p0 to p15 -/
  | ps
  /-- a predicate source that excludes p0 (R169, PGREQ) -/
  | ps1
  /-- a matrix destination -/
  | md
  /-- a matrix source -/
  | ms
  /-- the destination of LTR -/
  | xd
  /-- a translation register as address base -/
  | xs
  /-- a translation register or vz (R167) -/
  | addr
  /-- a scope code (R82) -/
  | scope
  /-- a raw value -/
  | raw
  deriving DecidableEq, Repr

/-- R9: a specifier that is never a destination: read-only, or p0 (R10). -/
def Spec.readOnly : Spec → Bool
  | .w _ | .vlane | .vsub | .vz | .ext | .imm _ => true
  | .p n => n.val == 0
  | _ => false

/-- R114: the classes of a vector source. -/
def Spec.isVector : Spec → Bool
  | .v _ | .t _ | .w _ | .vlane | .vsub | .vz | .ext | .imm _ => true
  | _ => false

/-- Whether a position takes a specifier at all (and not a scope, a raw value or nothing). -/
def Pos.takesSpec : Pos → Bool
  | .none | .scope | .raw => false
  | _ => true

/-- Whether a position is a destination for R10. -/
def Pos.isDest : Pos → Bool
  | .vd | .vlong | .pd | .md | .xd => true
  | _ => false

/-- The classes that a position accepts, p0 and read-only destinations apart (subcause 11 of R87). -/
def Pos.takes : Pos → Spec → Bool
  | .vd, .v _ | .vd, .t _ => true
  | .vlong, .v _ => true
  | .vt, .v _ | .vt, .t _ => true
  | .vs, r => r.isVector
  | .scal, .v _ | .scal, .t _ | .scal, .imm _ | .scal, .ext => true
  | .const, .imm _ | .const, .ext => true
  | .pd, .p _ => true
  | .ps, .p _ => true
  | .ps1, .p n => n.val != 0
  | .md, .m _ | .ms, .m _ => true
  | .xd, .x _ | .xs, .x _ | .addr, .x _ | .addr, .vz => true
  | _, _ => false

/-- An operand is one that its position accepts. -/
def Pos.ok : Pos → Opnd → Bool
  | .none, .none => true
  | .scope, .scope _ => true
  | .raw, .raw _ => true
  | .none, _ | .scope, _ | .raw, _ => false
  | p, .reg r => p.takes r && !(p.isDest && r.readOnly)
  | _, _ => false

/-- A position that E bits may mark (R18): a register source. Raw values, scopes, destinations and unused fields carry
no empty-read mode (R79). -/
def Pos.hasMode : Pos → Bool
  | .vs | .scal | .const | .ps | .ps1 | .ms | .xs | .addr => true
  | _ => false

/-- The width in bits of an element format (R80). -/
def Fmt.width : Fmt → Nat
  | .b64 => 64
  | .i32 | .ui32 | .f32 => 32
  | .i16 | .ui16 | .f16 | .bf16 => 16
  | .i8 | .ui8 | .e4m3 | .e5m2 => 8
  | .i4 | .ui4 => 4

/-- The FMT code of a format (R80). -/
def Fmt.code : Fmt → Nat
  | .b64 => 0 | .i32 => 1 | .ui32 => 2 | .i16 => 3 | .ui16 => 4 | .i8 => 5 | .ui8 => 6
  | .f32 => 7 | .f16 => 8 | .bf16 => 9 | .e4m3 => 10 | .e5m2 => 11 | .i4 => 12 | .ui4 => 13

/-- The format of an FMT code; 14 and 15 name none (R80). -/
def Fmt.ofCode : Nat → Option Fmt
  | 0 => some .b64 | 1 => some .i32 | 2 => some .ui32 | 3 => some .i16 | 4 => some .ui16
  | 5 => some .i8 | 6 => some .ui8 | 7 => some .f32 | 8 => some .f16 | 9 => some .bf16
  | 10 => some .e4m3 | 11 => some .e5m2 | 12 => some .i4 | 13 => some .ui4
  | _ => Option.none

/-- The codes "int" of R116. -/
def Fmt.isInt : Fmt → Bool
  | .b64 | .i32 | .ui32 | .i16 | .ui16 | .i8 | .ui8 | .i4 | .ui4 => true
  | _ => false

/-- The formats f32, f16 and bf16 (R47, R131). -/
def Fmt.isFloat : Fmt → Bool
  | .f32 | .f16 | .bf16 => true
  | _ => false

/-- The signed formats; b64 is signed by MOD[3] alone (R113). -/
def Fmt.signed : Fmt → Bool
  | .i32 | .i16 | .i8 | .i4 => true
  | _ => false

/-- The form of a standard-format instruction: its four positions, the formats and the modifiers it takes, and whether
it is a closing instruction (R32). `bad5` and `bad12` are the checks that an instruction's own description adds to
subcauses 5 and 12 of R87, the latter with the field at fault. `level`: MOD[2:0] is a barrier level (R108). `noPred`: P and PN are
zero with every other field (R254). -/
structure Form where
  d : Pos := .none
  a : Pos := .none
  b : Pos := .none
  c : Pos := .none
  fmts : Fmt → Bool := fun f => f == .b64
  mods : Fmt → BitVec 4 → Bool := fun _ m => m == 0
  bad5 : Bool := false
  bad12 : Option Nat := none
  level : Bool := false
  closing : Bool := false
  noPred : Bool := false

namespace Form

/-- MOD[3] is signedness with FMT 0, every other bit is zero (R113). -/
def modS (f : Fmt) (m : BitVec 4) : Bool := m == 0 || (f == .b64 && m == 8)

/-- MOD[2:0] is a rounding mode, MOD[3] is zero (R81, R131). -/
def modRound (_ : Fmt) (m : BitVec 4) : Bool := m.toNat ≤ 4

/-- MOD is at most `k`. -/
def modUpTo (k : Nat) (_ : Fmt) (m : BitVec 4) : Bool := m.toNat ≤ k

/-- cc of CMP in MOD[2:0], signedness in MOD[3] (R121). -/
def modCmp (f : Fmt) (m : BitVec 4) : Bool := m.toNat % 8 ≤ 5 && (m.toNat < 8 || f == .b64)

/-- op of SCAN and RED in MOD[2:0] (R147). -/
def modRed (exc : Bool) (f : Fmt) (m : BitVec 4) : Bool :=
  m.toNat % 8 ≤ (if f.isFloat then 2 else 5) && (exc || m.toNat < 8)

/-- XPR: a rounding mode for a float FMT, signedness for an integer FMT (R149). -/
def modXpr (f : Fmt) (m : BitVec 4) : Bool := if f.isFloat then modRound f m else modS f m

/-- .rlx or .rel in MOD[1:0], a scope in MOD[3:2] when `withScope` (R187, R190). -/
def modRel (withScope : Bool) (_ : Fmt) (m : BitVec 4) : Bool :=
  m.toNat % 2 == 0 && (withScope || m.toNat < 4)

/-- MOD[1:0] is below 3, MOD[3:2] is a scope (R189). -/
def modWait (_ : Fmt) (m : BitVec 4) : Bool := m.toNat % 4 != 3

/-- MOD[1:0] is zero, MOD[3:2] is a scope (R182). -/
def modScadd (_ : Fmt) (m : BitVec 4) : Bool := m.toNat % 4 == 0

def unary (fmts : Fmt → Bool) : Form := { d := .vd, a := .vs, fmts := fmts }
def binary (fmts : Fmt → Bool) : Form := { d := .vd, a := .vs, b := .vs, fmts := fmts }
def ternary (fmts : Fmt → Bool) : Form := { d := .vd, a := .vs, b := .vs, c := .vs, fmts := fmts }
/-- An address in A and B and nothing else: field and engine commands (R204, R236). -/
def command : Form := { a := .addr, b := .vs, closing := true }
def matrix (d a b c : Pos) : Form := { d := d, a := a, b := b, c := c, fmts := fun f => f == .f32 }
/-- The atomics of R178. -/
def atomic (fmts : Fmt → Bool) : Form :=
  { d := .vlong, a := .addr, b := .vs, c := .vs, fmts := fmts, mods := fun _ _ => true, closing := true }

end Form

/-- FMT 0, 1 and 2 (R178). -/
def Fmt.isAtomic (f : Fmt) : Bool := f == .b64 || f == .i32 || f == .ui32
/-- "int" without b64 (R117, R126). -/
def Fmt.isNarrow (f : Fmt) : Bool := f.isInt && f != .b64
/-- FMT 0 to 6 (R121). -/
def Fmt.isCmp (f : Fmt) : Bool := f.isInt && f.width != 4
/-- The signed formats that ABS takes (R116). -/
def Fmt.isAbs (f : Fmt) : Bool := f == .b64 || f.signed
/-- The formats of SCAN, RED and XPR: every code but e4m3 and e5m2 (R147, R149). -/
def Fmt.isScan (f : Fmt) : Bool := f.isInt || f.isFloat

/-- The value that a constant operand supplies: an inline constant or the extension word (R9, R77). -/
def Opnd.const? (o : Opnd) (ext : Option Word) : Option Word :=
  match o with
  | .reg (.imm k) => some (k.setWidth 64 - 64)
  | .reg .ext => ext
  | _ => Option.none

/-- A storage format code that names a block format, BFP2 to BFP8 (16 to 22) or LNS8 (24) (R41, R144). -/
def isBlockCode (c : Nat) : Bool := (16 ≤ c && c ≤ 22) || c == 24

/-- R142 to R144: the form of CVT, which its descriptor in B decides. A register in B leaves the descriptor unknown;
it is refused by its class (subcause 11). -/
def cvtForm (o : Ops) : Form :=
  let base : Form := { d := .vd, a := .vs, b := .const, fmts := fun _ => true, mods := fun _ m => m.toNat % 8 ≤ 4 }
  match o.b.const? o.ext with
  | none => base
  | some desc =>
    let other := desc.toNat % 32
    let k := desc.toNat / 32 % 8
    let part := desc.toNat / 256 % 16
    let reserved := decide (4096 ≤ desc.toNat)
    if isBlockCode other then
      let into := decide (8 ≤ o.mod.toNat)
      { base with
        c := if into then .vd else .vs
        fmts := Fmt.isFloat
        mods := fun _ m => if other == 24 && into then m.toNat == 8 else m.toNat % 8 ≤ 4
        bad12 := if reserved || (o.fmt.width == 32 && 4 ≤ part) || (o.fmt.width == 16 && 2 ≤ part) then some 2 else none }
    else
      match Fmt.ofCode other with
      | none => { base with bad5 := true }
      | some st =>
        let ratio := max o.fmt.width st.width / min o.fmt.width st.width
        { base with
          bad5 := (o.fmt.isInt && st.isInt) || o.fmt == st
          mods := fun f m => m.toNat % 8 ≤ 4 && (m.toNat < 8 || f == .e4m3 || f == .e5m2)
          bad12 := if reserved || k != 0 || ratio ≤ part then some 2 else none }

/-- R125: the form of CVTI, whose B and C fields are raw. -/
def cvtiForm (o : Ops) : Form :=
  let base : Form := { d := .vd, a := .vs, b := .raw, c := .raw, fmts := Fmt.isInt, mods := Form.modUpTo 1 }
  match o.b, o.c with
  | .raw b, .raw c =>
    match Fmt.ofCode b.toNat with
    | some st =>
      if st.isInt then
        let ratio := max o.fmt.width st.width / min o.fmt.width st.width
        { base with bad12 := if ratio ≤ c.toNat then some 3 else none }
      else { base with bad5 := true }
    | none => { base with bad5 := true }
  | _, _ => base

/-- R249, R250: the numbers that name a system register. -/
def isSysReg (n : Nat) : Bool := n ≤ 3 || (8 ≤ n && n ≤ 0x1C) || (0xC0 ≤ n && n ≤ 0xCF)

/-- The raw value of an operand field, 0 where the field is none. -/
def Opnd.rawVal : Opnd → Nat
  | .raw b => b.toNat
  | _ => 0

/-- The numbers of the system registers whose writes have a row of their own in the opcode table: ENGSTAT (R251),
RMSEL and RMPART (R380, R381). -/
def sysEngstat : Nat := 0x19
def sysRmsel : Nat := 0xC1
def sysRmpart : Nat := 0xC6

/-- A standard-format instruction: its major, its FUNC, its form and its operands (R83 and the field tables of the
instruction chapters). `none` for the heads, the trailers, XPR, the gate words, emulated words and the steps. -/
def Instr.std? : Instr → Option (Nat × Nat × Form × Ops)
  | .spawn o => some (0x03, 0, { d := .pd, a := .scal, b := .scal, closing := true }, o)
  | .bar o => some (0x03, 1, { mods := fun _ m => 1 ≤ m.toNat && m.toNat ≤ 5, level := true }, o)
  | .bara o => some (0x03, 2, { mods := fun _ m => 1 ≤ m.toNat && m.toNat ≤ 5, level := true }, o)
  | .barw o => some (0x03, 3, { mods := fun _ m => 1 ≤ m.toNat && m.toNat ≤ 5, level := true }, o)
  | .nop o => some (0x03, 4, {}, o)
  | .add o => some (0x04, 0, Form.binary Fmt.isInt, o)
  | .sub o => some (0x04, 1, Form.binary Fmt.isInt, o)
  | .adds o => some (0x04, 2, { Form.binary Fmt.isInt with mods := Form.modS }, o)
  | .subs o => some (0x04, 3, { Form.binary Fmt.isInt with mods := Form.modS }, o)
  | .neg o => some (0x04, 4, Form.unary Fmt.isInt, o)
  | .abs o => some (0x04, 5, Form.unary Fmt.isAbs, o)
  | .mul o => some (0x04, 6, Form.binary Fmt.isInt, o)
  | .mulh o => some (0x04, 7, { Form.binary Fmt.isInt with mods := Form.modS }, o)
  | .mad o => some (0x04, 8, Form.ternary Fmt.isInt, o)
  | .madw o => some (0x04, 9, { Form.ternary Fmt.isNarrow with mods := Form.modUpTo 1 }, o)
  | .min o => some (0x04, 10, { Form.binary Fmt.isInt with mods := Form.modS }, o)
  | .max o => some (0x04, 11, { Form.binary Fmt.isInt with mods := Form.modS }, o)
  | .div o => some (0x30, 0, { Form.binary Fmt.isInt with mods := Form.modS }, o)
  | .rem o => some (0x30, 1, { Form.binary Fmt.isInt with mods := Form.modS }, o)
  | .and o => some (0x05, 0, Form.binary Fmt.isInt, o)
  | .or o => some (0x05, 1, Form.binary Fmt.isInt, o)
  | .xor o => some (0x05, 2, Form.binary Fmt.isInt, o)
  | .andn o => some (0x05, 3, Form.binary Fmt.isInt, o)
  | .not o => some (0x05, 4, Form.unary Fmt.isInt, o)
  | .shl o => some (0x05, 5, Form.binary Fmt.isInt, o)
  | .shr o => some (0x05, 6, { Form.binary Fmt.isInt with mods := Form.modS }, o)
  | .rot o => some (0x05, 7, Form.binary Fmt.isInt, o)
  | .bfe o => some (0x05, 8, { Form.ternary Fmt.isInt with mods := Form.modS }, o)
  | .bfi o => some (0x05, 9, Form.ternary Fmt.isInt, o)
  | .clz o => some (0x05, 10, Form.unary Fmt.isInt, o)
  | .ctz o => some (0x05, 11, Form.unary Fmt.isInt, o)
  | .popc o => some (0x05, 12, Form.unary Fmt.isInt, o)
  | .brev o => some (0x05, 13, Form.unary Fmt.isInt, o)
  | .cmp o => some (0x06, 0, { d := .pd, a := .vs, b := .vs, fmts := Fmt.isCmp, mods := Form.modCmp }, o)
  | .sel o => some (0x06, 1, { d := .vd, a := .vs, b := .vs, c := .ps, fmts := Fmt.isInt }, o)
  | .mov o => some (0x06, 2, Form.unary Fmt.isInt, o)
  | .movw o => some (0x06, 3, { d := .vd, a := .const }, o)
  | .lea o => some (0x06, 4, { d := .vd, a := .vs, b := .vs, c := .vs }, o)
  | .idx o => some (0x06, 5, Form.binary Fmt.isInt, o)
  | .cvti o => some (0x06, 6, cvtiForm o, o)
  | .pack o => some (0x06, 7, { Form.binary Fmt.isNarrow with mods := Form.modUpTo 1 }, o)
  | .unpk o => some (0x06, 8, { Form.unary Fmt.isNarrow with mods := Form.modUpTo 1 }, o)
  | .plog o => some (0x06, 9, { d := .pd, a := .ps, b := .ps, mods := fun _ _ => true }, o)
  | .pmov o => some (0x06, 10, if o.mod == 0 then { d := .pd, a := .vs, mods := Form.modUpTo 1 } else { d := .vd, a := .ps, mods := Form.modUpTo 1 }, o)
  | .fadd o => some (0x07, 0, { Form.binary Fmt.isFloat with mods := Form.modRound }, o)
  | .fsub o => some (0x07, 1, { Form.binary Fmt.isFloat with mods := Form.modRound }, o)
  | .fmul o => some (0x07, 2, { Form.binary Fmt.isFloat with mods := Form.modRound }, o)
  | .ffma o => some (0x07, 3, { Form.ternary Fmt.isFloat with mods := Form.modRound }, o)
  | .fmin o => some (0x07, 4, Form.binary Fmt.isFloat, o)
  | .fmax o => some (0x07, 5, Form.binary Fmt.isFloat, o)
  | .fabs o => some (0x07, 6, Form.unary Fmt.isFloat, o)
  | .fneg o => some (0x07, 7, Form.unary Fmt.isFloat, o)
  | .fcmp o => some (0x07, 8, { d := .pd, a := .vs, b := .vs, fmts := Fmt.isFloat, mods := Form.modUpTo 7 }, o)
  | .fclass o => some (0x07, 9, Form.unary Fmt.isFloat, o)
  | .frnd o => some (0x07, 10, { Form.unary Fmt.isFloat with mods := Form.modRound }, o)
  | .fdiv o => some (0x30, 2, { Form.binary Fmt.isFloat with mods := Form.modRound }, o)
  | .frcp o => some (0x08, 0, Form.unary Fmt.isFloat, o)
  | .frsq o => some (0x08, 1, Form.unary Fmt.isFloat, o)
  | .fsqrt o => some (0x08, 2, { Form.unary Fmt.isFloat with mods := Form.modRound }, o)
  | .fexp2 o => some (0x08, 3, Form.unary Fmt.isFloat, o)
  | .flog2 o => some (0x08, 4, Form.unary Fmt.isFloat, o)
  | .fsin o => some (0x08, 5, Form.unary Fmt.isFloat, o)
  | .fcos o => some (0x08, 6, Form.unary Fmt.isFloat, o)
  | .flut o => some (0x08, 7, { Form.ternary Fmt.isFloat with mods := Form.modRound }, o)
  | .tblld o => some (0x08, 8, { a := .xs, b := .vs, c := .vs, fmts := fun f => f == .f32 }, o)
  | .tblsw o => some (0x08, 9, { a := .vs, fmts := fun f => f == .f32 }, o)
  | .cvt o => some (0x09, 0, cvtForm o, o)
  | .cmul o => some (0x09, 1, { Form.binary Fmt.isFloat with mods := Form.modRound }, o)
  | .cfma o => some (0x09, 2, { Form.ternary Fmt.isFloat with mods := Form.modRound }, o)
  | .shfl o => some (0x0A, 0, { Form.binary (fun _ => true) with mods := Form.modUpTo 3 }, o)
  | .bcst o => some (0x0A, 1, Form.binary (fun _ => true), o)
  | .scan o => some (0x0A, 2, { Form.unary Fmt.isScan with mods := Form.modRed true }, o)
  | .red o => some (0x0A, 3, { Form.unary Fmt.isScan with mods := Form.modRed false }, o)
  | .vote o => some (0x0A, 4, { d := if o.mod == 3 then .vd else .pd, a := .ps, mods := Form.modUpTo 3 }, o)
  | .mld o => some (0x0C, 0, { Form.matrix .md .xs .vs .vs with fmts := Fmt.isFloat }, o)
  | .mst o => some (0x0C, 1, { Form.matrix .xs .ms .vs .vs with fmts := Fmt.isFloat, mods := Form.modRound }, o)
  | .mzero o => some (0x0C, 2, Form.matrix .md .none .none .none, o)
  | .mident o => some (0x0C, 3, Form.matrix .md .none .none .none, o)
  | .msete o => some (0x0C, 4, Form.matrix .md .vs .vs .none, o)
  | .mgete o => some (0x0C, 5, Form.matrix .vd .ms .vs .none, o)
  | .mshape o => some (0x0C, 6, Form.matrix .md .vs .vs .none, o)
  | .madd o => some (0x0C, 7, Form.matrix .md .ms .ms .none, o)
  | .msub o => some (0x0C, 8, Form.matrix .md .ms .ms .none, o)
  | .mscal o => some (0x0C, 9, Form.matrix .md .ms .vs .none, o)
  | .mmul o => some (0x0C, 10, Form.matrix .md .ms .ms .none, o)
  | .mfma o => some (0x0C, 11, Form.matrix .md .ms .ms .ms, o)
  | .mtrn o => some (0x0C, 12, Form.matrix .md .ms .none .none, o)
  | .mmv o => some (0x0C, 13, Form.matrix .md .ms .none .none, o)
  | .mchol o => some (0x0D, 0, Form.matrix .md .ms .vs .vd, o)
  | .mlup o => some (0x0D, 1, Form.matrix .md .ms .vs .vd, o)
  | .msolve o => some (0x0D, 2, { Form.matrix .md .ms .ms (if o.mod == 1 then .vs else .none) with mods := Form.modUpTo 1 }, o)
  | .minv o => some (0x0D, 3, Form.matrix .md .ms .vs .vd, o)
  | .mdet o => some (0x0D, 4, Form.matrix .vd .ms .none .none, o)
  | .ld o => some (0x0E, 0, { d := .vlong, a := .addr, b := .vs, c := .pd, fmts := fun _ => true, mods := Form.modUpTo 3 }, o)
  | .lds o => some (0x0E, 1, { d := .vlong, a := .addr, b := .vs, fmts := fun _ => true, mods := Form.modUpTo 3 }, o)
  | .st o => some (0x0E, 2, { a := .addr, b := .vs, c := .vs, fmts := fun _ => true, mods := Form.modUpTo 3 }, o)
  | .ltr o => some (0x0E, 3, { d := .xd, a := .vs }, o)
  | .pgreq o => some (0x0E, 4, { a := .addr, b := .vs, c := .ps1, fmts := fun _ => true, closing := true }, o)
  | .pref o => some (0x0E, 5, { a := .addr, b := .vs, fmts := fun _ => true, mods := Form.modUpTo 2 }, o)
  | .aadd o => some (0x0F, 0, Form.atomic Fmt.isAtomic, o)
  | .amin o => some (0x0F, 1, Form.atomic Fmt.isAtomic, o)
  | .amax o => some (0x0F, 2, Form.atomic Fmt.isAtomic, o)
  | .aand o => some (0x0F, 3, Form.atomic Fmt.isAtomic, o)
  | .aor o => some (0x0F, 4, Form.atomic Fmt.isAtomic, o)
  | .axor o => some (0x0F, 5, Form.atomic Fmt.isAtomic, o)
  | .axch o => some (0x0F, 6, Form.atomic Fmt.isAtomic, o)
  | .acas o => some (0x0F, 7, Form.atomic Fmt.isAtomic, o)
  | .afadd o => some (0x0F, 8, Form.atomic Fmt.isFloat, o)
  | .scadd o => some (0x0F, 9, { a := .addr, b := .vs, c := .vs, fmts := fun f => f.isAtomic || f.isFloat, mods := Form.modScadd, closing := true }, o)
  | .fence o => some (0x10, 0, { d := .scope, mods := Form.modUpTo 3 }, o)
  | .rfence o => some (0x10, 1, { d := .scope }, o)
  | .rwr o => some (0x10, 2, { d := .raw, a := .vs, b := .vs, mods := Form.modRel false, bad12 := if 64 ≤ o.d.rawVal then some 0 else none, closing := true }, o)
  | .waitc o => some (0x10, 3, { a := .addr, b := .vs, c := .vs, mods := Form.modWait }, o)
  | .cntadd o => some (0x10, 4, { a := .addr, b := .vs, c := .vs, mods := Form.modRel true, closing := true }, o)
  | .txb o => some (0x11, 0, { d := .pd }, o)
  | .txc o => some (0x11, 1, { closing := true }, o)
  | .txa o => some (0x11, 2, { a := .vs }, o)
  | .castreg o => some (0x12, 0, { Form.command with d := .pd }, o)
  | .castdrop o => some (0x12, 1, { Form.command with d := .pd }, o)
  | .castq o => some (0x12, 2, { d := .vd, a := .addr, b := .vs }, o)
  | .cmocln o => some (0x12, 3, { d := .scope, a := .addr, b := .vs, c := .vs }, o)
  | .cmoinv o => some (0x12, 4, { d := .scope, a := .addr, b := .vs, c := .vs }, o)
  | .cmofl o => some (0x12, 5, { d := .scope, a := .addr, b := .vs, c := .vs }, o)
  | .xplacePut o => some (0x13, 0, Form.command, o)
  | .xplaceBind o => some (0x13, 0, { Form.command with mods := fun _ m => m == 1 }, o)
  | .xevictKeep o => some (0x13, 1, Form.command, o)
  | .xevictScrub o => some (0x13, 1, { Form.command with mods := fun _ m => m == 1 }, o)
  | .xaccZero o => some (0x13, 2, { Form.command with fmts := fun f => f == .i32 || f == .f32 || (o.mod.toNat % 4 == 3 && f == .b64) }, o)
  | .xaccLoad o => some (0x13, 2, { Form.command with fmts := fun f => f == .i32 || f == .f32, mods := fun _ m => m == 1 }, o)
  | .xaccFree o => some (0x13, 2, { Form.command with mods := fun _ m => m == 2 }, o)
  | .xmma o => some (0x13, 3, { Form.command with mods := Form.modUpTo 3 }, o)
  | .xmmac o => some (0x13, 4, { Form.command with mods := Form.modUpTo 3 }, o)
  | .xdrain o => some (0x13, 5, { Form.command with mods := Form.modUpTo 1 }, o)
  | .xdrainRegister o => some (0x13, 5, { Form.command with d := .vlong, fmts := fun f => f != .b64 && f != .ui32, mods := fun _ m => m.toNat == 2 || m.toNat == 3 }, o)
  | .xstat o => some (0x13, 6, { d := .vd, a := .vs, mods := Form.modUpTo 1 }, o)
  | .pour o => some (0x13, 7, Form.command, o)
  | .cpy o => some (0x14, 0, Form.command, o)
  | .gath o => some (0x14, 1, Form.command, o)
  | .scat o => some (0x14, 2, Form.command, o)
  | .coll o => some (0x14, 3, Form.command, o)
  | .nmx o => some (0x14, 4, Form.command, o)
  | .nmfence o => some (0x14, 5, {}, o)
  | .node o => some (0x14, 6, { Form.command with d := .pd }, o)
  | .sysrd o => some (0x15, 0, { d := .vd, a := .raw, bad12 := if isSysReg o.a.rawVal then none else some 1 }, o)
  | .syswr o => some (0x15, 1, { d := .raw, a := .vs, bad12 := if isSysReg o.d.rawVal && o.d.rawVal != sysEngstat && o.d.rawVal != sysRmsel && o.d.rawVal != sysRmpart then none else some 0 }, o)
  | .engstat o => some (0x15, 1, { d := .raw, a := .vs, bad12 := if o.d.rawVal == sysEngstat then none else some 0 }, o)
  | .rmsel o => some (0x15, 1, { d := .raw, a := .vs, bad12 := if o.d.rawVal == sysRmsel then none else some 0 }, o)
  | .rmpart o => some (0x15, 1, { d := .raw, a := .vs, bad12 := if o.d.rawVal == sysRmpart then none else some 0 }, o)
  | .trap o => some (0x15, 2, { a := .vs, closing := true }, o)
  | .eret o => some (0x15, 3, { noPred := true }, o)
  | .bkpt o => some (0x15, 4, { a := .vs }, o)
  | .time o => some (0x15, 5, { d := .vd, mods := Form.modUpTo 2 }, o)
  | .trace o => some (0x15, 6, { a := .vs, mods := fun _ _ => true }, o)
  | _ => none

/-- The E bits that a form leaves unused are zero (R79). -/
def Form.modesOk (f : Form) (o : Ops) : Bool :=
  (f.a.hasMode || !o.ea) && (f.b.hasMode || !o.eb) && (f.c.hasMode || !o.ec)

/-- R77: some specifier among A, B and C names ext. -/
def Ops.namesExt (o : Ops) : Bool :=
  o.a == .reg .ext || o.b == .reg .ext || o.c == .reg .ext

/-- P = 0 with PN = 1 is illegal (R19). -/
def predOk (p : Fin 16) (pn : Bool) : Bool := p.val != 0 || !pn

/-- The operands meet the form: every check of R87 that a word alone can fail. -/
def Form.ok (f : Form) (o : Ops) : Bool :=
  f.fmts o.fmt && !f.bad5 && f.mods o.fmt o.mod &&
  f.d.ok o.d && f.a.ok o.a && f.b.ok o.b && f.c.ok o.c &&
  f.bad12 == none && f.modesOk o && predOk o.pred o.pn && (!f.noPred || o.pred.val == 0) &&
  (o.ext.isSome == o.namesExt)

/-- The number of one bits below `n`. -/
def popBelow (x : Nat) : Nat → Nat
  | 0 => 0
  | n + 1 => popBelow x n + (if x.testBit n then 1 else 0)

/-- The byte of granule `g` of a working-set mask (R84). -/
def granule (ws : Word) (g : Nat) : Nat := ws.toNat / 2 ^ (8 * g) % 256

/-- The granules that hold a working-set register, lowest first. -/
def granules (ws : Word) : List Nat := (List.range 8).filter fun g => granule ws g != 0

/-- R84: at most five granules and at most 16 registers. -/
def Head.ok (h : Head) : Bool := (granules h.ws).length ≤ 5 && popBelow h.ws.toNat 64 ≤ 16

/-- The seven trailers differ in the fields that they use (R100). -/
structure TrailForm where
  func : Nat
  wide : Bool := false
  cond : Bool := false
  link : Bool := false
  target : Bool := false
  rcv : Bool := false

def Instr.trail? : Instr → Option (TrailForm × Trail)
  | .endFall t => some ({ func := 0 }, t)
  | .endb t => some ({ func := 1, wide := true, cond := true }, t)
  | .endc t => some ({ func := 2, wide := true, cond := true, rcv := true }, t)
  | .endj t => some ({ func := 3, target := true }, t)
  | .endcall t => some ({ func := 4, wide := true, link := true }, t)
  | .endret t => some ({ func := 5, target := true }, t)
  | .endexit t => some ({ func := 6, cond := true }, t)
  | _ => none

def Opnd.isV : Opnd → Bool
  | .reg (.v _) => true
  | _ => false

def Opnd.isVT : Opnd → Bool
  | .reg (.v _) | .reg (.t _) => true
  | _ => false

/-- R100: the fields that the form leaves unused are zero. -/
def TrailForm.ok (f : TrailForm) (t : Trail) : Bool :=
  (if f.link then t.d.isV else t.d == .none) &&
  (if f.target then t.a.isVT else t.a == .none && !t.ea) &&
  (if f.cond then predOk t.pred t.pn else t.pred.val == 0 && !t.pn) &&
  (f.wide || t.tgt == 0) && (f.rcv || t.rcv == 0)

/-- R150: codes that an XPR of the format accepts. -/
def xprCodeOk (float : Bool) (c : Nat) : Bool :=
  (1 ≤ c && c ≤ 0x0A) ||
  (if float then (0x10 ≤ c && c ≤ 0x25) else (0x30 ≤ c && c ≤ 0x3C))

/-- The form of the first word of XPR (R86, R149). -/
def xprForm : Form :=
  { d := .vd, a := .vs, b := .vs, c := .vs, fmts := Fmt.isScan, mods := Form.modXpr }

/-- R86, R149: no field names ext, S4 is none unless IN3 is used, one to seven codes of the format's type. -/
def XprOps.ok (x : XprOps) : Bool :=
  xprForm.fmts x.o.fmt && xprForm.mods x.o.fmt x.o.mod &&
  xprForm.d.ok x.o.d && xprForm.a.ok x.o.a && xprForm.b.ok x.o.b && xprForm.c.ok x.o.c &&
  !x.o.namesExt && x.o.ext == none && predOk x.o.pred x.o.pn &&
  (if x.codes.contains 4 then Pos.vs.ok x.s4 && x.s4 != .reg .ext else x.s4 == .none && !x.e4) &&
  (1 ≤ x.codes.length && x.codes.length ≤ 7) && x.codes.all fun c => xprCodeOk x.o.fmt.isFloat c.toNat

/-- A line field names a physical line, or one of the 64 logical scratch lines (R96). -/
def GLine.ok (l : GLine) : Bool := !l.scratch || l.idx.toNat < 64

def GLine.zero (l : GLine) : Bool := !l.scratch && l.idx == 0

/-- The gate words that take a step (R95): the code and which of OUT, IN1, IN2, IN3 and OPS it uses. -/
def Instr.gate? : Instr → Option (Nat × (Bool × Bool × Bool × Bool × Bool) × Nat × Gate)
  | .gNot c g => some (1, (true, true, false, false, false), c, g)
  | .gNor2 c g => some (2, (true, true, true, false, false), c, g)
  | .gNor3 c g => some (3, (true, true, true, true, false), c, g)
  | .gOr2 c g => some (4, (true, true, true, false, false), c, g)
  | .gAnd2 c g => some (5, (true, true, true, false, false), c, g)
  | .gNand2 c g => some (6, (true, true, true, false, false), c, g)
  | .gImp c g => some (7, (true, true, false, false, false), c, g)
  | .gSet0 c g => some (8, (true, false, false, false, false), c, g)
  | .gSet1 c g => some (9, (true, false, false, false, false), c, g)
  | .gRead c g => some (10, (false, true, false, false, false), c, g)
  | .gLoad c g => some (11, (true, false, false, false, true), c, g)
  | _ => none

/-- R95, R96: the fields that the code uses are in range and the others are zero. -/
def gateOk (u : Bool × Bool × Bool × Bool × Bool) (g : Gate) : Bool :=
  (if u.1 then g.out.ok else g.out.zero) && (if u.2.1 then g.in1.ok else g.in1.zero) &&
  (if u.2.2.1 then g.in2.ok else g.in2.zero) && (if u.2.2.2.1 then g.in3.ok else g.in3.zero) &&
  (u.2.2.2.2 || g.ops == 0)

/-- R91: the first word of an emulated instruction has MAJOR 0x31 to 0x3E, and W says whether an extension follows. -/
def emulatedOk (w : Word) (ext : Option Word) : Bool :=
  let major := w.toNat / 2 ^ 58
  0x31 ≤ major && major ≤ 0x3E && (ext.isSome == w.getLsbD 57)

/-- An instruction that has a word meets every check of R87 that the word alone decides; a step of the machine, which
has no word, is always well formed. -/
def Instr.wf (i : Instr) : Bool :=
  match i with
  | .run h => h.ok && h.livein == 0
  | .runr h => h.ok
  | .xpr x => x.ok
  | .emulationTrap w ext => emulatedOk w ext
  | .nop o => Form.ok {} o && o.pred.val == 0
  | i =>
    match i.std? with
    | some (_, _, f, o) => f.ok o
    | none =>
      match i.trail? with
      | some (f, t) => f.ok t
      | none =>
        match i.gate? with
        | some (_, u, _, g) => gateOk u g
        | none => true

end Sys2Proof
end

