-- ==== Sys2Proof/Decode.lean ====
section
/-! DEFINITION. The decoder and the encoder of instruction words and gate words (R76 to R96). The decoder is total: a
word is an instruction, or it is refused with the subcause of R87 and the field at fault. -/

namespace Sys2Proof

/-- Bits `[lo + n - 1 : lo]` of a word. -/
def Word.field (w : Word) (lo n : Nat) : Nat := w.toNat / 2 ^ lo % 2 ^ n

/-- The specifier of a byte; `none` for a reserved one (R9). -/
def Spec.ofByte (b : Nat) : Option Spec :=
  if h : b < 0x40 then some (.v ⟨b, h⟩)
  else if b < 0x48 then some (.t (Fin.ofNat 8 (b - 0x40)))
  else if b < 0x58 then some (.p (Fin.ofNat 16 (b - 0x48)))
  else if b < 0x60 then some (.m (Fin.ofNat 8 (b - 0x58)))
  else if b < 0x68 then some (.x (Fin.ofNat 8 (b - 0x60)))
  else if b < 0x6E then some (.w (Fin.ofNat 6 (b - 0x68)))
  else if b == 0x6E then some .vlane
  else if b == 0x6F then some .vsub
  else if b == 0x70 then some .vz
  else if b == 0x7E then some .ext
  else if 0x80 ≤ b then some (.imm (BitVec.ofNat 7 (b - 0x80)))
  else none

/-- The byte of a specifier (R9). -/
def Spec.toByte : Spec → Nat
  | .v n => n.val
  | .t n => 0x40 + n.val
  | .p n => 0x48 + n.val
  | .m n => 0x58 + n.val
  | .x n => 0x60 + n.val
  | .w n => 0x68 + n.val
  | .vlane => 0x6E
  | .vsub => 0x6F
  | .vz => 0x70
  | .ext => 0x7E
  | .imm k => 0x80 + k.toNat

/-- The scope of a code (R82). -/
def Scope.ofCode : Nat → Option Scope
  | 0 => some .grp | 1 => some .stand | 2 => some .core | 3 => some .clus
  | 4 => some .die | 5 => some .dev | 6 => some .sys
  | _ => none

def Scope.code : Scope → Nat
  | .grp => 0 | .stand => 1 | .core => 2 | .clus => 3 | .die => 4 | .dev => 5 | .sys => 6

/-- The operand that a field holds, read as its position says. A byte that the position cannot hold is kept as a raw
value, which `Pos.ok` refuses. -/
def Pos.read (p : Pos) (b : Nat) : Opnd :=
  match p with
  | .none => if b == 0 then .none else .raw (BitVec.ofNat 8 b)
  | .raw => .raw (BitVec.ofNat 8 b)
  | .scope => match Scope.ofCode b with
    | some c => .scope c
    | Option.none => .raw (BitVec.ofNat 8 b)
  | _ => match Spec.ofByte b with
    | some r => .reg r
    | Option.none => .raw (BitVec.ofNat 8 b)

/-- The byte of an operand. -/
def Opnd.toByte : Opnd → Nat
  | .none => 0
  | .reg r => r.toByte
  | .scope c => c.code
  | .raw b => b.toNat

/-- The functions of major 0x03 (R83). -/
def row03 (func : Nat) : Option (Ops → Instr) :=
  match func with
  | 0 => some .spawn
  | 1 => some .bar
  | 2 => some .bara
  | 3 => some .barw
  | 4 => some .nop
  | _ => none

/-- The functions of major 0x04 (R83). -/
def row04 (func : Nat) : Option (Ops → Instr) :=
  match func with
  | 0 => some .add
  | 1 => some .sub
  | 2 => some .adds
  | 3 => some .subs
  | 4 => some .neg
  | 5 => some .abs
  | 6 => some .mul
  | 7 => some .mulh
  | 8 => some .mad
  | 9 => some .madw
  | 10 => some .min
  | 11 => some .max
  | _ => none

/-- The functions of major 0x05 (R83). -/
def row05 (func : Nat) : Option (Ops → Instr) :=
  match func with
  | 0 => some .and
  | 1 => some .or
  | 2 => some .xor
  | 3 => some .andn
  | 4 => some .not
  | 5 => some .shl
  | 6 => some .shr
  | 7 => some .rot
  | 8 => some .bfe
  | 9 => some .bfi
  | 10 => some .clz
  | 11 => some .ctz
  | 12 => some .popc
  | 13 => some .brev
  | _ => none

/-- The functions of major 0x06 (R83). -/
def row06 (func : Nat) : Option (Ops → Instr) :=
  match func with
  | 0 => some .cmp
  | 1 => some .sel
  | 2 => some .mov
  | 3 => some .movw
  | 4 => some .lea
  | 5 => some .idx
  | 6 => some .cvti
  | 7 => some .pack
  | 8 => some .unpk
  | 9 => some .plog
  | 10 => some .pmov
  | _ => none

/-- The functions of major 0x07 (R83). -/
def row07 (func : Nat) : Option (Ops → Instr) :=
  match func with
  | 0 => some .fadd
  | 1 => some .fsub
  | 2 => some .fmul
  | 3 => some .ffma
  | 4 => some .fmin
  | 5 => some .fmax
  | 6 => some .fabs
  | 7 => some .fneg
  | 8 => some .fcmp
  | 9 => some .fclass
  | 10 => some .frnd
  | _ => none

/-- The functions of major 0x08 (R83). -/
def row08 (func : Nat) : Option (Ops → Instr) :=
  match func with
  | 0 => some .frcp
  | 1 => some .frsq
  | 2 => some .fsqrt
  | 3 => some .fexp2
  | 4 => some .flog2
  | 5 => some .fsin
  | 6 => some .fcos
  | 7 => some .flut
  | 8 => some .tblld
  | 9 => some .tblsw
  | _ => none

/-- The functions of major 0x09 (R83). -/
def row09 (func : Nat) : Option (Ops → Instr) :=
  match func with
  | 0 => some .cvt
  | 1 => some .cmul
  | 2 => some .cfma
  | _ => none

/-- The functions of major 0x0A (R83). -/
def row0A (func : Nat) : Option (Ops → Instr) :=
  match func with
  | 0 => some .shfl
  | 1 => some .bcst
  | 2 => some .scan
  | 3 => some .red
  | 4 => some .vote
  | _ => none

/-- The functions of major 0x0C (R83). -/
def row0C (func : Nat) : Option (Ops → Instr) :=
  match func with
  | 0 => some .mld
  | 1 => some .mst
  | 2 => some .mzero
  | 3 => some .mident
  | 4 => some .msete
  | 5 => some .mgete
  | 6 => some .mshape
  | 7 => some .madd
  | 8 => some .msub
  | 9 => some .mscal
  | 10 => some .mmul
  | 11 => some .mfma
  | 12 => some .mtrn
  | 13 => some .mmv
  | _ => none

/-- The functions of major 0x0D (R83). -/
def row0D (func : Nat) : Option (Ops → Instr) :=
  match func with
  | 0 => some .mchol
  | 1 => some .mlup
  | 2 => some .msolve
  | 3 => some .minv
  | 4 => some .mdet
  | _ => none

/-- The functions of major 0x0E (R83). -/
def row0E (func : Nat) : Option (Ops → Instr) :=
  match func with
  | 0 => some .ld
  | 1 => some .lds
  | 2 => some .st
  | 3 => some .ltr
  | 4 => some .pgreq
  | 5 => some .pref
  | _ => none

/-- The functions of major 0x0F (R83). -/
def row0F (func : Nat) : Option (Ops → Instr) :=
  match func with
  | 0 => some .aadd
  | 1 => some .amin
  | 2 => some .amax
  | 3 => some .aand
  | 4 => some .aor
  | 5 => some .axor
  | 6 => some .axch
  | 7 => some .acas
  | 8 => some .afadd
  | 9 => some .scadd
  | _ => none

/-- The functions of major 0x10 (R83). -/
def row10 (func : Nat) : Option (Ops → Instr) :=
  match func with
  | 0 => some .fence
  | 1 => some .rfence
  | 2 => some .rwr
  | 3 => some .waitc
  | 4 => some .cntadd
  | _ => none

/-- The functions of major 0x11 (R83). -/
def row11 (func : Nat) : Option (Ops → Instr) :=
  match func with
  | 0 => some .txb
  | 1 => some .txc
  | 2 => some .txa
  | _ => none

/-- The functions of major 0x12 (R83). -/
def row12 (func : Nat) : Option (Ops → Instr) :=
  match func with
  | 0 => some .castreg
  | 1 => some .castdrop
  | 2 => some .castq
  | 3 => some .cmocln
  | 4 => some .cmoinv
  | 5 => some .cmofl
  | _ => none

/-- The functions of major 0x13 (R83). -/
def row13 (func m : Nat) : Option (Ops → Instr) :=
  match func with
  | 0 => some (if m % 2 == 1 then .xplaceBind else .xplacePut)
  | 1 => some (if m % 2 == 1 then .xevictScrub else .xevictKeep)
  | 2 => some (if m % 4 == 2 then .xaccFree else if m % 4 == 1 then .xaccLoad else .xaccZero)
  | 3 => some .xmma
  | 4 => some .xmmac
  | 5 => some (if m / 2 % 2 == 1 then .xdrainRegister else .xdrain)
  | 6 => some .xstat
  | 7 => some .pour
  | _ => none

/-- The functions of major 0x14 (R83). -/
def row14 (func : Nat) : Option (Ops → Instr) :=
  match func with
  | 0 => some .cpy
  | 1 => some .gath
  | 2 => some .scat
  | 3 => some .coll
  | 4 => some .nmx
  | 5 => some .nmfence
  | 6 => some .node
  | _ => none

/-- The functions of major 0x15 (R83). -/
def row15 (func d : Nat) : Option (Ops → Instr) :=
  match func with
  | 0 => some .sysrd
  | 1 => some (if d == sysEngstat then .engstat else if d == sysRmsel then .rmsel else if d == sysRmpart then .rmpart else .syswr)
  | 2 => some .trap
  | 3 => some .eret
  | 4 => some .bkpt
  | 5 => some .time
  | 6 => some .trace
  | _ => none

/-- The functions of major 0x30 (R83). -/
def row30 (func : Nat) : Option (Ops → Instr) :=
  match func with
  | 0 => some .div
  | 1 => some .rem
  | 2 => some .fdiv
  | _ => none

/-- The standard-format instruction of a major and FUNC (R83). Where several rows of the opcode table share one FUNC,
MOD tells them apart (R204), or for SYSWR the register number in D (R249). -/
def stdRow (major func m d : Nat) : Option (Ops → Instr) :=
  match major with
  | 0x03 => row03 func
  | 0x04 => row04 func
  | 0x05 => row05 func
  | 0x06 => row06 func
  | 0x07 => row07 func
  | 0x08 => row08 func
  | 0x09 => row09 func
  | 0x0A => row0A func
  | 0x0C => row0C func
  | 0x0D => row0D func
  | 0x0E => row0E func
  | 0x0F => row0F func
  | 0x10 => row10 func
  | 0x11 => row11 func
  | 0x12 => row12 func
  | 0x13 => row13 func m
  | 0x14 => row14 func
  | 0x15 => row15 func d
  | 0x30 => row30 func
  | _ => none

/-- What a check of R87 reports: the subcause, and for subcauses 7 to 12 the field at fault (0 D, 1 A, 2 B, 3 C, 4 S4). -/
structure Illegal where
  sub : Nat
  field : Nat := 0
  deriving DecidableEq, Repr

/-- What the checks read from the kernel header (R88): declared v and m registers and the placement level. -/
structure Declared where
  vregs : Nat
  mregs : Nat
  place : Nat
  deriving DecidableEq, Repr

/-- The largest header: no check against it fails. -/
def Declared.all : Declared := { vregs := 64, mregs := 8, place := 5 }

/-- The declared v count rounded up to a multiple of 8 (R10). -/
def Declared.vLimit (c : Declared) : Nat := (c.vregs + 7) / 8 * 8

/-- The bytes of D, A, B and C. -/
structure Fields where
  d : Nat
  a : Nat
  b : Nat
  c : Nat
  deriving DecidableEq, Repr

def Fields.of (w : Word) : Fields :=
  { d := w.field 40 8, a := w.field 32 8, b := w.field 24 8, c := w.field 16 8 }

/-- The operands of a standard-format word, its fields read by the positions of `f`. A reserved FMT is read as b64;
`checkStd` has refused it. -/
def opsOf (f : Form) (w : Word) (ext : Word) : Ops :=
  let r := Fields.of w
  { d := f.d.read r.d, a := f.a.read r.a, b := f.b.read r.b, c := f.c.read r.c
    ea := w.getLsbD 15, eb := w.getLsbD 14, ec := w.getLsbD 13
    pred := Fin.ofNat 16 (w.field 9 4), pn := w.getLsbD 8
    fmt := (Fmt.ofCode (w.field 4 4)).getD .b64
    mod := BitVec.ofNat 4 (w.field 0 4)
    ext := if w.getLsbD 57 then some ext else none }

/-- The operands read with every field raw: the form of an instruction is found from these. -/
def rawForm : Form := { d := .raw, a := .raw, b := .raw, c := .raw }

/-- The form of an instruction, and its operands. Reading is done twice, because the descriptor in B decides which
class C has in CVT (R142, R144). -/
def formAndOps (mk : Ops → Instr) (w ext : Word) : Form × Ops :=
  let form (o : Ops) : Form := match (mk o).std? with
    | some (_, _, f, _) => f
    | none => {}
  let f := form (opsOf (form (opsOf rawForm w ext)) w ext)
  (f, opsOf f w ext)

/-- The first of D, A, B, C, in that order, for which the check fails. -/
def firstField (cs : List (Nat × Bool)) : Option Nat := (cs.find? (·.2)).map (·.1)

/-- Subcauses 7 to 11 for the specifier fields, each pair a field number, its position and its byte. -/
def checkSpecs (c : Declared) (extOk : Bool) (fs : List (Nat × Pos × Nat)) : Option Illegal :=
  let specs := fs.filter fun x => x.2.1 != .raw && x.2.1 != .scope
  let on (p : Pos → Spec → Bool) : Option Nat :=
    firstField (specs.map fun x => (x.1, match Spec.ofByte x.2.2 with | some r => p x.2.1 r | none => false))
  match firstField (specs.map fun x => (x.1, (Spec.ofByte x.2.2).isNone)) with
  | some i => some ⟨7, i⟩
  | none =>
  match on (fun _ r => r == .ext && !extOk) with
  | some i => some ⟨8, i⟩
  | none =>
  match firstField (fs.map fun x => (x.1,
      if x.2.1 == .scope then (Scope.ofCode x.2.2).isNone
      else x.2.1.isDest && (match Spec.ofByte x.2.2 with | some r => r.readOnly | none => false))) with
  | some i => some ⟨9, i⟩
  | none =>
  match on (fun _ r => match r with
      | .v n => decide (c.vLimit ≤ n.val)
      | .m n => decide (c.mregs ≤ n.val)
      | _ => false) with
  | some i => some ⟨10, i⟩
  | none => (on (fun p r => p.takesSpec && !p.takes r)).map fun i => ⟨11, i⟩

/-- The checks 4 to 13 of R87 for a standard-format word, in their order. -/
def checkStd (c : Declared) (f : Form) (w ext : Word) : Option Illegal :=
  let r := Fields.of w
  let o := opsOf f w ext
  let wide := w.getLsbD 57
  let fields : List (Nat × Pos × Nat) := [(0, f.d, r.d), (1, f.a, r.a), (2, f.b, r.b), (3, f.c, r.c)]
  let named := (fields.drop 1).any fun x => x.2.1 != .raw && x.2.2 == 0x7E
  if wide && !named then some ⟨4, 0⟩
  else if (Fmt.ofCode (w.field 4 4)).isNone || !f.fmts o.fmt || f.bad5 then some ⟨5, 0⟩
  else if !f.mods o.fmt o.mod || (f.level && decide (c.place < o.mod.toNat)) then some ⟨6, 0⟩
  else match checkSpecs c wide fields with
  | some e => some e
  | none =>
  match firstField [
      (0, (f.d == .none && r.d != 0) || f.bad12 == some 0),
      (1, (f.a == .none && r.a != 0) || (o.ea && !f.a.hasMode) || f.bad12 == some 1),
      (2, (f.b == .none && r.b != 0) || (o.eb && !f.b.hasMode) || f.bad12 == some 2),
      (3, (f.c == .none && r.c != 0) || (o.ec && !f.c.hasMode) || f.bad12 == some 3)] with
  | some i => some ⟨12, i⟩
  | none =>
    if f.noPred && (o.pred.val != 0 || o.pn) then some ⟨12, 0⟩
    else if predOk o.pred o.pn then none else some ⟨13, 0⟩

/-- R111: any nonzero field of NOP fails with subcause 12, the field at fault being the first of D, A, B and C that is, or
whose empty-read mode is. -/
def checkNop (w : Word) : Option Illegal :=
  let r := Fields.of w
  if w.field 0 48 == 0 && !w.getLsbD 57 then none
  else some ⟨12, (firstField [(0, r.d != 0), (1, r.a != 0 || w.getLsbD 15), (2, r.b != 0 || w.getLsbD 14),
    (3, r.c != 0 || w.getLsbD 13)]).getD 0⟩

/-- The operator codes of an XPR extension word, NOPS of them (R86). -/
def xprCodes (ext : Word) : List (BitVec 6) :=
  (List.range (ext.field 42 3)).map fun i => BitVec.ofNat 6 (ext.field (6 * i) 6)

/-- The operands of an XPR (R86). -/
def xprOps (w ext : Word) : XprOps :=
  let codes := xprCodes ext
  { o := { opsOf xprForm w ext with ext := none }
    s4 := (if codes.contains 4 then Pos.vs else Pos.none).read (ext.field 48 8)
    e4 := ext.getLsbD 56
    codes := codes }

/-- The checks 4 to 13 of R87 for XPR (R86, R149, R150). A, B and C are inputs 0 to 2 of every XPR, so that they are no unused fields
where no code pushes them (DEDUCED). NOPS 0 is reported with subcause 12, field 0 (DESIGN CHOICE, log entry 153). -/
def checkXpr (c : Declared) (w ext : Word) : Option Illegal :=
  let r := Fields.of w
  let x := xprOps w ext
  let uses4 := x.codes.contains 4
  let s4 := ext.field 48 8
  let fields : List (Nat × Pos × Nat) :=
    [(0, .vd, r.d), (1, .vs, r.a), (2, .vs, r.b), (3, .vs, r.c), (4, if uses4 then .vs else .none, s4)]
  if !w.getLsbD 57 then some ⟨4, 0⟩
  else if (Fmt.ofCode (w.field 4 4)).isNone || !x.o.fmt.isScan then some ⟨5, 0⟩
  else if !Form.modXpr x.o.fmt x.o.mod then some ⟨6, 0⟩
  else match checkSpecs c false fields with
  | some e => some e
  | none =>
    if x.codes.isEmpty || !(x.codes.all fun k => xprCodeOk x.o.fmt.isFloat k.toNat) ||
        ext.field 57 7 != 0 || ext.field 45 3 != 0 || ext.field 0 42 / 2 ^ (6 * x.codes.length) != 0 then some ⟨12, 0⟩
    else if !uses4 && (s4 != 0 || x.e4) then some ⟨12, 4⟩
    else if predOk x.o.pred x.o.pn then none else some ⟨13, 0⟩

/-- The granules that GMASK names, lowest first (R84). -/
def gmaskGranules (w : Word) : List Nat := (List.range 8).filter fun g => w.getLsbD (40 + g)

/-- The working set that a head names: byte WSB*k* is the mask of the (k+1)-th granule of GMASK (R84). -/
def headSet (w : Word) : Word :=
  let gs := gmaskGranules w
  BitVec.ofNat 64 ((List.range gs.length).foldl
    (fun acc k => acc + w.field (8 * k) 8 * 2 ^ (8 * gs.getD k 0)) 0)

/-- The checks 4 and 16 of R87 for a head (R84, R97). -/
def checkHead (c : Declared) (w ext : Word) : Option Illegal :=
  let wide := w.getLsbD 57
  let n := (gmaskGranules w).length
  let ws := headSet w
  if wide != (w.field 48 9 == 1) then some ⟨4, 0⟩
  else if decide (5 < n) || ((List.range 5).any fun k => decide (k < n) == (w.field (8 * k) 8 == 0)) ||
      decide (16 < popBelow ws.toNat 64) || decide (2 ^ c.vLimit ≤ ws.toNat) ||
      (wide && decide (2 ^ c.vLimit ≤ ext.toNat)) then some ⟨16, 0⟩
  else none

/-- The trailer of a FUNC (R83, R85). -/
def trailRow : Nat → Option (Trail → Instr)
  | 0 => some .endFall | 1 => some .endb | 2 => some .endc | 3 => some .endj
  | 4 => some .endcall | 5 => some .endret | 6 => some .endexit
  | _ => none

/-- The operands of a trailer (R85). -/
def trailOf (f : TrailForm) (w ext : Word) : Trail :=
  { d := (if f.link then Pos.vs else Pos.none).read (w.field 40 8)
    a := (if f.target then Pos.vs else Pos.none).read (w.field 32 8)
    ea := w.getLsbD 15
    pub := BitVec.ofNat 16 (w.field 16 16)
    pred := Fin.ofNat 16 (w.field 9 4)
    pn := w.getLsbD 8
    tgt := if w.getLsbD 57 then BitVec.ofNat 32 (ext.field 0 32) else 0
    rcv := if w.getLsbD 57 then BitVec.ofNat 32 (ext.field 32 32) else 0 }

/-- The checks 4 to 13 of R87 for a trailer (R85, R100). -/
def checkTrail (c : Declared) (f : TrailForm) (w ext : Word) : Option Illegal :=
  let t := trailOf f w ext
  let d := w.field 40 8
  let a := w.field 32 8
  if w.getLsbD 57 != f.wide then some ⟨4, 0⟩
  else match checkSpecs c f.wide [(0, if f.link then .vlong else .none, d), (1, if f.target then .vt else .none, a)] with
  | some e => some e
  | none =>
    if !f.link && d != 0 then some ⟨12, 0⟩
    else if !f.target && (a != 0 || t.ea) then some ⟨12, 1⟩
    else if w.field 13 2 != 0 || w.field 0 8 != 0 || (!f.rcv && t.rcv != 0) ||
        (!f.cond && (t.pred.val != 0 || t.pn)) then some ⟨12, 0⟩
    else if predOk t.pred t.pn then none else some ⟨13, 0⟩

/-- R87, checks 1 to 13 and the masks of a head: the first failing check of a word. Words of the extension spaces are
not checked. -/
def checkWord (c : Declared) (w ext : Word) : Option Illegal :=
  let major := w.field 58 6
  let func := w.field 48 9
  if major == 0 then some ⟨1, 0⟩
  else if (0x16 ≤ major && major ≤ 0x2F) || major == 0x3F then some ⟨2, 0⟩
  else if 0x31 ≤ major then none
  else if major == 1 then (if func ≤ 1 then checkHead c w ext else some ⟨3, 0⟩)
  else if major == 2 then
    match trailRow func with
    | none => some ⟨3, 0⟩
    | some mk => match (mk (trailOf { func := func } w ext)).trail? with
      | some (f, _) => checkTrail c f w ext
      | none => some ⟨3, 0⟩
  else if major == 0x0B then (if func == 0 then checkXpr c w ext else some ⟨3, 0⟩)
  else match stdRow major func (w.field 0 4) (w.field 40 8) with
    | none => some ⟨3, 0⟩
    | some mk => if major == 3 && func == 4 then checkNop w else checkStd c (formAndOps mk w ext).1 w ext

/-- The instruction that a word and the word after it hold, before any check. -/
def readWord (w ext : Word) : Option Instr :=
  let major := w.field 58 6
  let func := w.field 48 9
  if 0x31 ≤ major then some (.emulationTrap w (if w.getLsbD 57 then some ext else none))
  else if major == 1 then
    (if func == 0 then some (.run { ws := headSet w, livein := 0 })
     else some (.runr { ws := headSet w, livein := ext }))
  else if major == 2 then
    match trailRow func with
    | none => none
    | some mk => match (mk (trailOf { func := func } w ext)).trail? with
      | some (f, _) => some (mk (trailOf f w ext))
      | none => none
  else if major == 0x0B then some (.xpr (xprOps w ext))
  else match stdRow major func (w.field 0 4) (w.field 40 8) with
    | none => none
    | some mk => some (mk (formAndOps mk w ext).2)

/-- Decoding of one instruction under a header's declared counts: the instruction, or the failing check of R87. -/
def decodeIn (c : Declared) (w ext : Word) : Except Illegal Instr :=
  match checkWord c w ext with
  | some e => .error e
  | none => match readWord w ext with
    | some i => .ok i
    | none => .error ⟨3, 0⟩

/-- How many words an instruction occupies: two when W is 1 (R76, R78). -/
def wordsOf (w : Word) : Nat := if w.getLsbD 57 then 2 else 1

/-- The little-endian value of a list of bytes (R3). -/
def leValue : List Byte → Nat
  | [] => 0
  | b :: bs => b.toNat + 256 * leValue bs

/-- The `n` little-endian bytes of a value (R3). -/
def leBytes : Nat → Nat → List Byte
  | 0, _ => []
  | n + 1, x => BitVec.ofNat 8 x :: leBytes n (x / 256)

/-- Decoding of an instruction at the head of a list of bytes, and the bytes after it. -/
def decode (bs : List Byte) : Except Illegal (Instr × List Byte) :=
  let w := BitVec.ofNat 64 (leValue (bs.take 8))
  let ext := BitVec.ofNat 64 (leValue ((bs.drop 8).take 8))
  match decodeIn Declared.all w ext with
  | .ok i => .ok (i, bs.drop (8 * wordsOf w))
  | .error e => .error e

/-- The instruction whose bits are `w`, the first word in bits 63 to 0 and the extension word above it. -/
def decodeTableWord (nbits w : Nat) : Option Instr :=
  match decode (leBytes 16 (w % 2 ^ nbits)) with
  | .ok (i, _) => some i
  | .error _ => none

/-- The words of a standard-format instruction (R76, R77). -/
def encodeStd (major func : Nat) (o : Ops) : List Word :=
  BitVec.ofNat 64 (major * 2 ^ 58 + (if o.ext.isSome then 2 ^ 57 else 0) + func * 2 ^ 48 +
    o.d.toByte * 2 ^ 40 + o.a.toByte * 2 ^ 32 + o.b.toByte * 2 ^ 24 + o.c.toByte * 2 ^ 16 +
    o.ea.toNat * 2 ^ 15 + o.eb.toNat * 2 ^ 14 + o.ec.toNat * 2 ^ 13 + o.pred.val * 2 ^ 9 +
    o.pn.toNat * 2 ^ 8 + o.fmt.code * 2 ^ 4 + o.mod.toNat) ::
  (match o.ext with | some e => [e] | none => [])

/-- The words of an XPR (R86). -/
def encodeXpr (x : XprOps) : List Word :=
  let ext := BitVec.ofNat 64 (x.e4.toNat * 2 ^ 56 + x.s4.toByte * 2 ^ 48 + x.codes.length * 2 ^ 42 +
    x.codes.foldr (fun k acc => k.toNat + 64 * acc) 0)
  match encodeStd 0x0B 0 { x.o with ext := some ext } with
  | ws => ws

/-- The first word of a head (R84). -/
def headWord (func : Nat) (h : Head) : Word :=
  let gs := granules h.ws
  BitVec.ofNat 64 (1 * 2 ^ 58 + (if func == 1 then 2 ^ 57 else 0) + func * 2 ^ 48 +
    gs.foldr (fun g acc => 2 ^ (40 + g) + acc) 0 + gs.foldr (fun g acc => granule h.ws g + 256 * acc) 0)

/-- The words of a trailer (R85). -/
def encodeTrail (f : TrailForm) (t : Trail) : List Word :=
  BitVec.ofNat 64 (2 * 2 ^ 58 + (if f.wide then 2 ^ 57 else 0) + f.func * 2 ^ 48 + t.d.toByte * 2 ^ 40 +
    t.a.toByte * 2 ^ 32 + t.pub.toNat * 2 ^ 16 + t.ea.toNat * 2 ^ 15 + t.pred.val * 2 ^ 9 + t.pn.toNat * 2 ^ 8) ::
  (if f.wide then [BitVec.ofNat 64 (t.tgt.toNat + t.rcv.toNat * 2 ^ 32)] else [])

/-- The words of an instruction; a step of the machine, which has no word, has none. -/
def encode (i : Instr) : List Word :=
  match i with
  | .run h => [headWord 0 h]
  | .runr h => [headWord 1 h, h.livein]
  | .xpr x => encodeXpr x
  | .emulationTrap w ext => w :: (match ext with | some e => [e] | none => [])
  | i =>
    match i.std? with
    | some (major, func, _, o) => encodeStd major func o
    | none =>
      match i.trail? with
      | some (f, t) => encodeTrail f t
      | none => []

/-- The value of a line field of a gate word (R94). -/
def GLine.code (l : GLine) : Nat := l.idx.toNat + (if l.scratch then 512 else 0)

def GLine.ofCode (n : Nat) : GLine := { scratch := decide (512 ≤ n % 1024), idx := BitVec.ofNat 9 n }

/-- The gate word of a gate step (R94, R95). -/
def encodeGate (i : Instr) : Option Word :=
  i.gate?.map fun (gop, _, _, g) =>
    BitVec.ofNat 64 (gop * 2 ^ 60 + g.col.toNat * 2 ^ 59 + g.out.code * 2 ^ 49 + g.in1.code * 2 ^ 39 +
      g.in2.code * 2 ^ 29 + g.in3.code * 2 ^ 19 + g.ops.toNat)

/-- The fields of a gate word (R94). -/
def gateFields (w : Word) : Gate :=
  { col := w.getLsbD 59
    out := GLine.ofCode (w.field 49 10), in1 := GLine.ofCode (w.field 39 10)
    in2 := GLine.ofCode (w.field 29 10), in3 := GLine.ofCode (w.field 19 10)
    ops := BitVec.ofNat 19 (w.field 0 19) }

/-- What a word of a schedule image is: a gate step, G.END, G.REP or G.POOL, or a schedule fault (R95, R96). -/
inductive GateWord
  | gate (mk : Nat → Instr)
  | gend
  | rep (count len : Nat)
  | pool (base allow size : Nat)
  | fault

/-- The gate steps by their code (R95). -/
def gateRow : Nat → Option (Nat → Gate → Instr)
  | 1 => some .gNot | 2 => some .gNor2 | 3 => some .gNor3 | 4 => some .gOr2 | 5 => some .gAnd2
  | 6 => some .gNand2 | 7 => some .gImp | 8 => some .gSet0 | 9 => some .gSet1 | 10 => some .gRead
  | 11 => some .gLoad
  | _ => none

/-- Decoding of a gate word (R95, R96); that G.POOL is the first word, and only the first, is checked by the
sequencer. -/
def decodeGate (w : Word) : GateWord :=
  let g := gateFields w
  match w.field 60 4 with
  | 0 => if w.field 0 59 == 0 then .gend else .fault
  | 12 =>
    let count := w.field 10 9
    let len := w.field 0 10
    if w.field 19 40 == 0 && count != 0 && len != 0 then .rep count len else .fault
  | 13 =>
    let allow := w.field 11 8
    let size := w.field 3 8
    if w.field 19 30 == 0 && w.field 0 3 == 0 && !g.out.scratch && allow != 0 && 8 ≤ size && size ≤ 192
    then .pool g.out.idx.toNat allow size else .fault
  | gop =>
    match gateRow gop with
    | none => .fault
    | some mk =>
      match (mk 0 g).gate? with
      | some (_, u, _, _) => if gateOk u g then .gate (fun c => mk c g) else .fault
      | none => .fault

end Sys2Proof
end

