-- ==== Sys2Proof/Machine/State.lean ====
section
/-! DEFINITION. The state of the H9 as plain data: the groups with their registers and runs, stands and launches, the
ordering machine of R259, the storage of the cores, slices, fields and HBM, and the hub. A finite map is a list of keys
and values, keys strictly rising, holding no default value. -/

namespace Sys2Proof.Machine

/-- A finite map from numbers, keys strictly rising, without default values. -/
abbrev Sparse (α : Type) := List (Nat × α)

/-! ### Registers of a group -/

/-- A shape tag (R14). -/
inductive Tag
  | u | a | g
  deriving DecidableEq, Repr

/-- A main-file vector register (R12, R14, R17). The lanes always hold the expanded value. -/
structure VReg where
  val : Lanes
  tag : Tag
  full : Bool
  deriving DecidableEq, Repr

/-- R37: 0, tag U, full at launch. -/
def VReg.launch : VReg := { val := 0, tag := .u, full := true }

/-- A temporary, or the operand-buffer copy of a working-set register (R13, R27). -/
structure Copy where
  val : Lanes
  tag : Tag
  deriving DecidableEq, Repr

def Copy.zero : Copy := { val := 0, tag := .u }

/-- A predicate register (R17, R19). -/
structure PReg where
  val : PredBits
  full : Bool
  deriving DecidableEq, Repr

def PReg.launch : PReg := { val := 0, full := true }

/-- A small-matrix register (R20): element position `q` of lane `l` at bit `32 * (36 * l + q)`. -/
structure MReg where
  rows : Nat
  cols : Nat
  elems : BitVec 36864
  full : Bool
  deriving DecidableEq, Repr

def MReg.launch : MReg := { rows := 6, cols := 6, elems := 0, full := true }

/-- A translation register (R21). -/
structure XReg where
  vbase : Word
  pbase : BitVec 52
  valid : Bool
  rd : Bool
  wr : Bool
  atomic : Bool
  limit : BitVec 32
  deriving DecidableEq, Repr

def XReg.launch : XReg :=
  { vbase := 0, pbase := 0, valid := false, rd := false, wr := false, atomic := false, limit := 0 }

/-! ### Slots, runs and waits -/

/-- PC, mask and live bit of a slot (R24). -/
structure SlotState where
  pc : BitVec 56
  mask : BitVec 32
  live : Bool
  deriving DecidableEq, Repr

def SlotState.dead : SlotState := { pc := 0, mask := 0, live := false }

/-- Where a byte of memory lives: at a physical address (R296), or at a byte of a core's scratchpad (R292). -/
inductive Loc
  | mem (pa : Nat)
  | pad (core off : Nat)
  deriving DecidableEq, Repr

/-- Where an access was issued, for the trap that a poisoned line raises (R382): slot, address and words. -/
structure Origin where
  slotB : Bool
  pc : Word
  inst : Word
  inst2 : Word
  deriving DecidableEq, Repr

/-- Why a slot waits at its run head (R98): for a barrier generation (R110), for the pages of a PGREQ (R176), for the
returns of an atomic and then an acquire (R180), for a word and then an acquire (R189; it has no place once a shootdown has taken its
translation, and `req` is the read in flight where it lies at the host or at a linked device), for the lines of a CMO (R203). -/
inductive Wait
  | barrier (level gen : Nat)
  | pages
  | returns (acc : Nat) (acq : Option Scope)
  | word (target : Option Loc) (cc : Nat) (c : Word) (acq : Scope) (va : Word) (origin : Origin) (req : Option Nat)
  | lines (id : Nat)
  deriving DecidableEq, Repr

/-- A run whose words have been fetched and checked (R88): its head's address and its words in order. -/
structure Fetched where
  head : BitVec 56
  words : List Word
  deriving DecidableEq, Repr

/-- A slot of a group. `since` is the tick at which it first met conditions 1, 2 and 4 of R98 at its present head
(R332), none while it has not; `via` is the ENDJ or ENDRET that led there (R90); `buffer` says that the group holds an operand buffer
of its scheduler for the run at which the slot stands (R98, condition 3). -/
structure Slot where
  st : SlotState
  waits : List Wait
  run : Option Fetched
  since : Option Nat
  via : Option Origin
  buffer : Bool
  deriving DecidableEq, Repr

def Slot.dead : Slot := { st := .dead, waits := [], run := none, since := none, via := none, buffer := false }

/-- The latest arrival of a slot at a barrier level (R109). -/
structure Arrived where
  level : Nat
  slotB : Bool
  gen : Nat
  deriving DecidableEq, Repr

/-- What a slot state that lies on the divergence stack or in the save area waits for, and its barrier arrivals (R112). -/
structure HeldSlot where
  pc : BitVec 56
  mask : BitVec 32
  waits : List Wait
  arrived : List Arrived
  deriving DecidableEq, Repr

/-- The region snapshot (R30), with the lanes that had retired by then (R104) and what the slots waited for at their heads; `held` is that
of the slot states on the divergence stack. -/
structure Snapshot where
  head : BitVec 56
  a : SlotState
  b : SlotState
  rcv : BitVec 56
  dsp : BitVec 8
  livein : Word
  exited : BitVec 32
  waitsA : List Wait
  waitsB : List Wait
  held : List HeldSlot
  deriving DecidableEq, Repr

/-- The trap context (R33). -/
structure TrapCtx where
  pc : Word
  cause : Word
  inst : Word
  inst2 : Word
  addr : Word
  txcause : BitVec 8
  arrive : BitVec 32
  deriving DecidableEq, Repr

def TrapCtx.zero : TrapCtx :=
  { pc := 0, cause := 0, inst := 0, inst2 := 0, addr := 0, txcause := 0, arrive := 0 }

/-- What a trap reports (R33). -/
structure Cause where
  code : Nat
  detail : Nat
  pc : Nat
  inst : Word
  inst2 : Word
  addr : Word
  slotB : Bool
  deriving DecidableEq, Repr

/-- One line of a store (R259): the line, its virtual address (R434), which nibbles of it are written, and with what. -/
structure Store where
  line : Loc
  va : Nat
  data : LineBits
  mask : BitVec 256
  policy : Nat
  deriving DecidableEq, Repr

/-- An entry of the core visibility point (R259): a drained line, the groups it came from, each with the number in drain order and the address
of its first store in it (R434), and whether its copy has gone to its home (R263). -/
structure CvpEntry where
  store : Store
  groups : List Nat
  firsts : List (Nat × Nat)
  sent : Bool
  deriving DecidableEq, Repr

/-- One element of a memory access: its number in the instruction, where it lies, its bytes, and for 4-bit formats
which nibble of the byte it is. -/
structure Item where
  idx : Nat
  loc : Loc
  size : Nat
  nib : Option Bool
  deriving DecidableEq, Repr

/-- What the data of an access are for: LD and LDS (destination, residency predicate, element width), MLD (destination,
element format), TBLLD (its number at the core), an atomic with return (destination, element width), the
command block of an instruction that stands in place (R206), a drain into a register (R217), and an access that returns
nothing (SCADD, CNTADD). -/
inductive Use
  | ld (d : Nat) (p : Option Nat) (width : Nat)
  | mld (m : Nat) (fmt : Fmt)
  | table (id : Nat)
  | atomic (d width : Nat)
  | block
  | drain (d : Nat)
  | none
  deriving DecidableEq, Repr

/-- An access of a group (R260): the items still to perform, lowest line first, the values found so far, the elements on non-resident pages
(R172), the elements in all, the memory requests not yet served (R373), whether its arrival has been cancelled (R29), and the element,
address and detail of the access fault that its arrival raises, that of the lowest element (R382, R430). `unread` are the elements on
non-resident pages whose lines have not been read (R183), with their addresses; `begun` says that a step of an atomic has been taken (R268).
-/
structure Access where
  id : Nat
  use : Use
  todo : List Item
  vals : List (Nat × Nat)
  absent : List Nat
  unread : List (Nat × Nat)
  begun : Bool
  policy : Nat
  reqs : List Nat
  cancelled : Bool
  origin : Origin
  poison : Option (Nat × Word)
  detail : Nat
  vas : List (Nat × Word)
  deriving DecidableEq, Repr

/-- An open transaction (R192): the read set, the held lines, and the flagged abort cause if any. -/
structure Txn where
  reads : List Nat
  writes : List Store
  flagged : Option (BitVec 8)
  deriving DecidableEq, Repr

/-- The run that a group has in issue (R27, R98, R101). `pos` is the word at which the next instruction stands, the
head being word 0; `stage` is 0, or 1 while stores of the instruction wait for room, 2 while its command block is read far
away, 3 while it waits for the answer to `query` (R201, R218, R381). `raised` is the DETAIL of a TRAP that has committed, and
where it stands: its trap follows the trailer (R252). -/
structure Run where
  slotB : Bool
  head : BitVec 56
  words : List Word
  pos : Nat
  ws : Word
  buf : Sparse Copy
  temps : Sparse Copy
  withdrawn : Word
  bank : Bool
  committed : Bool
  arrivals : List Nat
  waits : List Wait
  tblsw : Option Bool
  returning : Bool
  stores : List Store
  issuedTables : List Nat
  stage : Nat
  query : Nat
  raised : Option (BitVec 32 × Origin)
  deriving DecidableEq, Repr

/-- What a debugger holds of a group (R419 to R421): `cause` is that of its last stop, `step` the slot it steps, `skip` the heads whose
next issue no breakpoint matches, `request` a stop that is still to come. -/
structure GroupDebug where
  claimed : Bool
  stopped : Bool
  cause : Nat
  step : Option Bool
  skip : List (BitVec 56)
  request : Bool
  deriving DecidableEq, Repr

def GroupDebug.none : GroupDebug :=
  { claimed := false, stopped := false, cause := 0, step := Option.none, skip := [], request := false }

/-- A group (R8, R12 to R37). `susp` is the run that a suspending trap has left (R254), `suspSnap` the region snapshot in force then (R37),
`held` are the waits and arrivals of slot states that lie on the divergence stack or in the save area, `unborn` the parent of a group that
SPAWN has made while the parent's trailer is still to come (R107), `granules` are the main-file granules that it holds and `mats` counts its
m registers (R290), `saving` are the stores of a trap entry that are still to enter the FIFO (R253, R295), `entering` is a trap, with its
suspended run and whether it stops instead (R420), whose save area has not been translated yet (R313), `lost` the drain numbers and
addresses of stores that a remote home refused (R434), `tracing` and `sinceSync` the state of R424. -/
structure Group where
  stand : Nat
  sched : Nat
  number : Nat
  granules : List Nat
  mats : Nat
  wid : Word
  spawnid : Word
  v : Sparse VReg
  p : Sparse PReg
  m : Sparse MReg
  x : Sparse XReg
  slotA : Slot
  slotB : Slot
  rcv : BitVec 56
  dsp : BitVec 8
  snap : Snapshot
  trap : TrapCtx
  casterr : Word
  arrived : List Arrived
  fifo : List Store
  saving : List Store
  accs : List Access
  txn : Option Txn
  run : Option Run
  susp : Option Run
  suspSnap : Option Snapshot
  exited : BitVec 32
  held : List HeldSlot
  parked : Bool
  missing : Nat
  preempt : Bool
  retired : Bool
  unborn : Option Nat
  lost : List (Nat × Nat)
  entering : Option (Cause × Option Run × Bool)
  tracing : Bool
  sinceSync : Nat
  dbg : GroupDebug
  deriving DecidableEq, Repr

/-! ### Stands and launches -/

/-- A barrier scope of a stand (R109): its level and number, the open generation, the groups that take part in it, and
the groups still to arrive. -/
structure Barrier where
  level : Nat
  scope : Nat
  gen : Nat
  members : List Nat
  missing : List Nat
  deriving DecidableEq, Repr

/-- A granted lease (R330): its first plate, its plates, its span and the first cluster of the span. -/
structure Lease where
  base : Nat
  count : Nat
  span : Nat
  first : Nat
  deriving DecidableEq, Repr

/-- A placement that a stand has bound to a handle (R209): first plate of the lease, K, N, weight format code,
signedness, WKD, span, and its number in the plate directory. -/
structure Placement where
  plate : Nat
  k : Nat
  n : Nat
  fmt : Nat
  signed : Bool
  wkd : Bool
  span : Nat
  entry : Nat
  deriving DecidableEq, Repr

/-- An accumulator tile (R211): format, shape, span, the fields that hold it, the units that it takes in each as field and unit
(R356), and its elements, row by row, each 32 bits; `poison` is the state of R207. -/
structure Tile where
  float : Bool
  m : Nat
  n : Nat
  span : Nat
  home : Nat
  units : List (Nat × Nat)
  elems : Sparse (BitVec 32)
  poison : Bool
  deriving DecidableEq, Repr

/-- The status registers that XSTAT reads (R218), and those of ENGSTAT (R251): `addr` is the address of the first code 0x0B since it was
last cleared, if there has been one; it reads as 0 while there has not. -/
structure CmdStatus where
  code : BitVec 8
  func : BitVec 4
  nanin : Bool
  satd : Bool
  addr : Option Word
  deriving DecidableEq, Repr

def CmdStatus.zero : CmdStatus := { code := 0, func := 0, nanin := false, satd := false, addr := none }

/-- The progress of a pour (R223 to R232): the image's words up to G.END, the place in them, the repeats in force as first word, length,
count and turn; the pool's axis, first line, size and allowance; the physical line of each logical line and the writes of each pool line in
each plate, `tally` (R231); the read images made, each with the word that made it, and what RESULT reports, with whether it has been
written; `left` are the steps that the pass granted still has; `again` are the plates (numbered through all fields) whose compare failed in
the step that the governor holds, each with the image to write, and `tries` the attempts made (R348, R361). The other commands that write
plates keep their place, field by field, in `counts`. -/
structure Pour where
  image : List Word
  pos : Nat
  reps : List (Nat × Nat × Nat × Nat)
  axis : Bool
  base : Nat
  size : Nat
  allow : Nat
  lines : List (Nat × Nat)
  counts : List (Nat × Nat)
  tally : Sparse (Sparse Nat)
  reads : List (Nat × BitVec 512)
  left : Nat
  retries : Nat
  tries : Nat
  again : List (Nat × BitVec 512)
  faultAt : Nat
  scanned : Bool
  told : Bool
  deriving DecidableEq, Repr

def Pour.start : Pour :=
  { image := [], pos := 0, reps := [], axis := false, base := 0, size := 0, allow := 0, lines := [], counts := [], tally := [],
    reads := [], left := 0, retries := 0, tries := 0, again := [], faultAt := 0xFFFF, scanned := false, told := false }

/-- A stand (R23, R187, R292, R328 to R330, R339). `outAtRestore` are the plates of its lease, numbered through all fields, that a restore
has found out of service and that no command has reported since (R341); `scrub` is how far the scrub at its end has come: plates of the
lease done, and the progress in the next. -/
structure Stand where
  launch : Nat
  part : Nat
  core : Nat
  tag : BitVec 24
  units : List Nat
  lease : Option Lease
  placements : Sparse Placement
  tiles : Sparse Tile
  field : CmdStatus
  engine : CmdStatus
  barriers : List Barrier
  groups : List Nat
  handed : Bool
  outAtRestore : List Nat
  scrub : Option (Nat × Pour)
  ended : Bool
  killed : Bool
  status : BitVec 8
  deriving DecidableEq, Repr

/-- A launch: its header (R324), its launch values (R325) and its progress (R328, R403): the stands in all, those placed and
those whose resources are released; `unsettled` are the
places of its groups that have retired, whose stores its end waits for. `done` and `stat` are physical addresses, or 0. -/
structure Launch where
  part : Nat
  khdr : BitVec 56
  vregs : Nat
  mregs : Nat
  widths : List Nat
  place : Nat
  entries : List (BitVec 56)
  traph : BitVec 56
  scratch : Nat
  divstack : Nat
  lease : Nat
  scrub : Bool
  extents : List Nat
  kparam : Word
  asn : Nat
  prio : Nat
  start : Word
  lspan : Nat
  lfix : Option Nat
  total : Nat
  placed : Nat
  ended : Nat
  status : BitVec 8
  late : Bool
  queue : Option Nat
  unsettled : List Nat
  done : Word
  stat : Word
  seq : Nat
  deriving DecidableEq, Repr

/-! ### Translation and residency -/

/-- What a page-table leaf permits (R312). -/
structure Perms where
  rd : Bool
  wr : Bool
  atomic : Bool
  ex : Bool
  deriving DecidableEq, Repr

/-- A translation that a TLB holds (R314): `size` is 0, 1 or 2 for 64 KiB, 2 MiB and 1 GiB, `vpage` is VA[55:16] with
its low bits zero, `frame` the physical address of the page. -/
structure TlbEntry where
  part : Nat
  asn : Nat
  vpage : Nat
  size : Nat
  frame : Nat
  perms : Perms
  deriving DecidableEq, Repr

/-- An entry of the walk cache (R314): the table that a walk reaches below a level. -/
structure WalkEntry where
  part : Nat
  asn : Nat
  level : Nat
  key : Nat
  table : Nat
  deriving DecidableEq, Repr

/-- A page of 64 KiB whose miss is outstanding (R315). -/
structure Miss where
  part : Nat
  asn : Nat
  vpage : Nat
  deriving DecidableEq, Repr

/-- An entry of a core's wait table (R319). -/
structure WaitEntry where
  part : Nat
  asn : Nat
  vpage : Nat
  groups : List Nat
  deriving DecidableEq, Repr

/-- An outstanding page request of the hub's merge table (R317); `written` once its record is on the ring. -/
structure PageRequest where
  part : Nat
  asn : Nat
  vpage : Nat
  size : Nat
  kind : Nat
  written : Bool
  deriving DecidableEq, Repr

/-- A shootdown accepted and not completed (R321): the descriptor and what it waits for. -/
structure Shootdown where
  part : Nat
  asn : Nat
  vpage : Nat
  size : Nat
  count : Nat
  frame : Nat
  all : Bool
  cmds : List Nat
  accs : List (Nat × Nat)
  cmos : List Nat
  deriving DecidableEq, Repr

/-! ### The ordering machine -/

/-- An entry of a home queue (R259, R263): the core it came from, or an outside agent, the line it writes, and for a store of a
linked device its NODEID and its number there, which the acknowledgement names (R274). -/
structure HomeEntry where
  core : Option Nat
  store : Store
  reply : Option (Nat × Nat)
  deriving DecidableEq, Repr

/-- An atomic operation still to be performed at its home (R268): its kind, width, operand and compare value; where
its old value goes, or none; and the group whose order it follows, or the command that makes it. `last` says that it decreases the
completion word of an NMX, whose core then counts it no longer (R246). -/
inductive AtomOp
  | add | min (signed : Bool) | max (signed : Bool) | and | or | xor | xch | cas
  | fadd (fmt : Fmt)
  | nibble (fmt : Fmt) (hi : Bool)
  deriving DecidableEq, Repr

structure Atom where
  id : Nat
  core : Nat
  gid : Option Nat
  acc : Nat
  elem : Nat
  loc : Loc
  width : Nat
  op : AtomOp
  operand : Nat
  compare : Nat
  part : Nat
  asn : Nat
  node : Nat
  last : Bool
  deriving DecidableEq, Repr

/-- An RWR deposit in flight (R187, R188). -/
structure Deposit where
  id : Nat
  srcCore : Nat
  srcGroup : Nat
  target : Option (Nat × BitVec 24)
  reg : Nat
  mask : BitVec 32
  val : Lanes
  tag : Tag
  deriving DecidableEq, Repr

/-- A member's contribution to a collective (R242): the tag, the member's rank, the operation, reduction, format and count
that it names, the members, and the elements. -/
structure Contribution where
  tag : Nat
  rank : Nat
  descriptor : Word
  members : List Nat
  elements : List Word
  deriving DecidableEq, Repr

/-- A flit (R412, R432): its sequence number at this port, the latest number that the port had accepted when it was sent, its sender and
destination, the sender's HLC state (R256), and what it says. -/
structure Flit where
  seq : BitVec 12
  ack : BitVec 12
  src : Nat
  dest : Nat
  hlc : Word
  msg : LinkMsg
  deriving DecidableEq, Repr

/-- What a delivery queue carries to the host or to a linked device (R259, R274), a contribution with the NODEID to which it
goes; a flit that answers a request or passes through. -/
inductive Remote
  | store (core gid : Nat) (s : Store)
  | atom (a : Atom)
  | read (id : Nat) (pa : Nat)
  | contribution (dest : Nat) (c : Contribution)
  | flit (f : Flit)
  deriving DecidableEq, Repr

/-- A request to the host or to a linked device that has not been answered (R430, R434). -/
structure Outstanding where
  id : Nat
  port : Nat
  what : Remote
  deriving DecidableEq, Repr

/-- A line that an L2 slice holds (R298, R300): its bytes, whether it is dirty, whether it is to go first, the line that shares its
slot, and the number of its latest use. -/
structure L2Line where
  data : LineBits
  dirty : Bool
  early : Bool
  partner : Option Nat
  used : Nat
  deriving DecidableEq, Repr

/-- Who waits for a held read (R306): an access of a group, a command, or a read that is made again once the tile is rebuilt. -/
inductive Reader
  | load (gid acc : Nat)
  | command (id : Nat)
  | other
  deriving DecidableEq, Repr

/-- A read held at the home slice of a stale tile (R306): the rule and tile, who reads which line, and whether the tile has been rebuilt,
so that the read may be made. -/
structure HeldRead where
  rule : Nat
  tile : Nat
  reader : Reader
  line : Nat
  served : Bool
  deriving DecidableEq, Repr

/-- What a slice parks while an agent owns the line (R302): a load line of a group's access, or a store that has come in. -/
inductive Parked
  | load (gid acc line : Nat)
  | store (x : HomeEntry)
  deriving DecidableEq, Repr

/-- An L1 copy (R293): valid, with its bytes, the tick of its fill, whether it is to go first, and the number of its latest use; or
requested and not arrived. -/
inductive L1Copy
  | valid (data : LineBits) (filled : Nat) (early : Bool) (used : Nat)
  | fill (dropped : Bool) (early : Bool) (req : Option Nat)
  deriving DecidableEq, Repr

/-- A TBLLD that has not written all its entries (R139). -/
structure TableLoad where
  id : Nat
  gid : Nat
  bank : Bool
  first : Nat
  count : Nat
  limit : Nat
  deriving DecidableEq, Repr

/-- A core: function table (R137), record cache, the least recently used copy first, with the fills in flight and those that failed (R272,
R303, R430), L1 (R293) with the reads of host and linked lines that are to replace its copies (R266), CVP (R259), L1 TLB with its
outstanding misses (R314, R315), wait table (R319) and its counting registers (R250, R380, R427); `orphans` are the store-FIFO entries of
groups whose resources have been returned (R105), by group place. -/
structure Core where
  bank0 : Sparse (BitVec 32)
  bank1 : Sparse (BitVec 32)
  cur : Bool
  tables : List TableLoad
  rwrdrop : Word
  nmxout : Word
  rmsel : Word
  cvp : List CvpEntry
  orphans : Sparse (List Store)
  l1 : Sparse L1Copy
  refreshes : List (Nat × Nat)
  records : List (Nat × LineBits)
  fills : List (Nat × Nat)
  failed : Sparse Nat
  tlb : List TlbEntry
  misses : List Miss
  waiting : List WaitEntry
  pm : Sparse Word
  sampled : Sparse Nat
  deriving DecidableEq, Repr

def Core.idle : Core :=
  { bank0 := [], bank1 := [], cur := false, tables := [], rwrdrop := 0, nmxout := 0, rmsel := 0, cvp := [], orphans := [], l1 := [], refreshes := [],
    records := [], fills := [], failed := [], tlb := [], misses := [], waiting := [], pm := [], sampled := [] }

/-- A cluster: its L2 TLB and walk cache (R314), the pages in walk or waiting for a walker, in their order (R315), the writes that built-in
schedules have made on the ring of its field, which give the ring's position (R352), and the counters of its field (R427). -/
structure Cluster where
  tlb : List TlbEntry
  walk : List WalkEntry
  walks : List Miss
  ring : Nat
  pm : Sparse Word
  deriving DecidableEq, Repr

def Cluster.idle : Cluster := { tlb := [], walk := [], walks := [], ring := 0, pm := [] }

/-- One HLC state (R256). -/
structure Hlc where
  pt : BitVec 48
  c : BitVec 16
  deriving DecidableEq, Repr

/-! ### HBM -/

/-- A request at a bank (R373). -/
structure BankReq where
  id : Nat
  line : Nat
  row : Nat
  deriving DecidableEq, Repr

/-- A bank (R373, R377, R379, R380). `queue` are the requests that are not complete, in arrival order, and `serving` the one of them that is
in service. -/
structure Bank where
  opened : Option Nat
  counters : Sparse Nat
  alerts : BitVec 32
  rfms : BitVec 32
  lastrow : BitVec 14
  tick : Word
  backoff : Bool
  passed : Nat
  queue : List BankReq
  serving : Option Nat
  deriving DecidableEq, Repr

def Bank.idle : Bank :=
  { opened := none, counters := [], alerts := 0, rfms := 0, lastrow := 0, tick := 0, backoff := false, passed := 0, queue := [], serving := none }

/-- A pseudo-channel: its phase (R376), phase queue (R273) and seed store: the partition that loaded it last, the seeds then loaded, and
its bytes (R375). -/
structure Pchan where
  compute : Bool
  queue : List Nat
  seedTag : Option Nat
  seedn : Nat
  seeds : List Byte
  deriving DecidableEq, Repr

def Pchan.idle : Pchan := { compute := false, queue := [], seedTag := none, seedn := 0, seeds := [] }

/-! ### Cast tensors -/

/-- A CMO whose lines are not all done (R203): the group and slot that issued it, its function (0 clean, 1 invalidate, 2
flush), whether it reaches the slices, the lines left, and those whose dirty data it discards. -/
structure CmoOp where
  id : Nat
  gid : Nat
  part : Nat
  asn : Nat
  lo : Nat
  size : Nat
  slotB : Bool
  op : Nat
  slices : Bool
  left : List Nat
  whole : List Nat
  deriving DecidableEq, Repr

/-- A registered cast rule (R198, R201, R304): its number, the records' addresses and words, the depth of its chain, the
edges as base line, derived tile and the nibbles of the line that the tile depends on, the lines of the derived tiles with
the nibbles they hold, the edges held by each slice, the home slice of each derived tile, that of its primary edge, and the stale tiles. -/
structure Cast where
  rule : Nat
  part : Nat
  asn : Nat
  cluster : Nat
  addr : Nat
  base : Nat
  words : List Word
  baseWords : List Word
  depth : Nat
  tiles : Nat
  edges : List (Nat × Nat × BitVec 256)
  lines : List (Nat × Nat × BitVec 256)
  slices : List (Nat × Nat)
  homes : List (Nat × Nat)
  stale : List Nat
  deriving DecidableEq, Repr

/-! ### Commands of the field and the engines -/

/-- The commands of majors 0x13 and 0x14, and the copy of a COPY packet (R204, R236, R407). -/
inductive CmdKind
  | xplacePut | xplaceBind | xevictKeep | xevictScrub | xaccZero | xaccLoad | xaccFree | xmma | xmmac | xdrain
  | xdrainReg | pour | cpy | gath | scat | coll | nmx
  deriving DecidableEq, Repr

/-- A committed command, or engine agent (R206, R237, R259, R269). `fetch` is the address at which the block of a command that the graph
walker launches is still to be read; `addr` is the address of the block; `recs` are the records that the block names; `map` gives the
physical line of each virtual line that it touches, `toOwn` and `toRead` the lines still to own and to read, `lines` the input lines read,
by virtual address, `out` the lines still to write, and `asked` the reads in flight to the host or a linked device with the lines they are
for. `passes` of `total` have been made. `hold` is the window in which the governor holds it (R354). `acc` is the access by which D of a
register drain waits, `stat` the status word of a COPY packet, virtual and physical. `places` are the first address of an NMX's range and of
its outputs, each with the end of its page. `reserve` is the first plate of the streaming reserve as a streamed command was granted (R353);
`loaded` gives for each of its fields the ring write that last loaded a line, and `atWrite` is the ring write of a step that the governor
holds (R350 to R352). `wrote` are the virtual lines written, `toAdd` the additions of a scatter still to go to the host or to a linked
device (R240), `cut` says that a killed command has met its boundary (R340), and `sought` that the page of its completion word has been
looked for (R208). -/
structure Cmd where
  kind : CmdKind
  stand : Option Nat
  gid : Option Nat
  part : Nat
  asn : Nat
  core : Nat
  cluster : Nat
  mod : Nat
  fmt : Fmt
  addr : Nat
  dreg : Nat
  acc : Nat
  fetch : Option Nat
  block : List Word
  since : Nat
  prepared : Bool
  recs : List (List Word)
  map : List (Nat × Nat)
  toOwn : List Nat
  toRead : List Nat
  lines : Sparse LineBits
  out : List Store
  asked : List (Nat × Nat)
  passes : Nat
  total : Nat
  started : Bool
  computed : Bool
  code : Nat
  faultAddr : Nat
  satd : Bool
  nanin : Bool
  killed : Bool
  hold : Option Nat
  cplt : Option Loc
  stat : Option (Nat × Nat)
  result : Lanes
  pour : Pour
  contributions : List Contribution
  places : List (Nat × Nat)
  reserve : Nat
  loaded : List (Nat × Nat)
  atWrite : Option Nat
  wrote : List Nat
  toAdd : List Atom
  cut : Bool
  sought : Bool
  deriving DecidableEq, Repr

/-! ### Plates and the regions beside them -/

/-- A plate (R354, R355, R438): its wear word, whether it is out of service, and the writes per row and per column in
the present window. -/
structure Plate where
  wear : Nat
  out : Bool
  rows : Sparse Nat
  cols : Sparse Nat
  deriving DecidableEq, Repr

def Plate.fresh : Plate := { wear := 0, out := false, rows := [], cols := [] }

/-! ### Links, the graph walker, the host page and the error log -/

/-- How the latest access of the host through a BAR has completed (R405, R426, R429): with data, which for a write are 0; with poisoned
data; as an unsupported request; or as a completer abort. -/
inductive Completion
  | data (x : Nat)
  | poisoned (x : Nat)
  | unsupported
  | abort
  deriving DecidableEq, Repr

/-- What a receiver returns for a flit (R412): an acknowledgement of its number, or a NAK with the number expected. -/
inductive LinkReply
  | ack (seq : BitVec 12)
  | nak (expected : BitVec 12)
  deriving DecidableEq, Repr

/-- A port (R412): the number of the next flit to send, the next number expected, the latest reply returned to the other end, the
unacknowledged flits, the replays of the oldest of them, and whether the port is up. -/
structure LinkPort where
  next : BitVec 12
  expected : BitVec 12
  returned : Option LinkReply
  retry : List Flit
  replays : Nat
  down : Bool
  deriving DecidableEq, Repr

def LinkPort.idle : LinkPort := { next := 0, expected := 0, returned := none, retry := [], replays := 0, down := false }

/-- An armed node record (R247): its address, partition, address space, the stand that armed it, and whether it
has reached 0 while its partition was in clearing (R337). -/
structure Node where
  pa : Nat
  va : Nat
  part : Nat
  asn : Nat
  stand : Option Nat
  held : Bool
  deriving DecidableEq, Repr

/-- A NODE that has committed, its record not yet armed (R247): the group and predicate that it answers to; the record's place, once the
walker has looked for it (R316). -/
structure Arming where
  id : Nat
  gid : Nat
  d : Nat
  loc : Option Loc
  va : Nat
  part : Nat
  asn : Nat
  stand : Nat
  deriving DecidableEq, Repr

/-- An entry of the error log (R437). -/
structure LogEntry where
  tick : Word
  hlc : Word
  addr : Word
  info : Word
  deriving DecidableEq, Repr

/-- The registers of the host page (R431) and of the device debug page (R418). `pdcmd` is the partition command in progress, and `stopArmed`
says that STOPTICK was above the tick when it was written (R426); `firmware` is the SHA-256 of the firmware image that runs (R439). -/
structure HostPage where
  devst : Nat
  cause : Nat
  firmware : List Byte
  rlsize : Word
  nodeid : BitVec 16
  pwrcap : BitVec 16
  pwrnow : BitVec 16
  temp : BitVec 16
  elprod : Word
  elcons : Word
  ellost : Word
  nonce : List Byte
  attst : Nat
  attaddr : Word
  herrvec : BitVec 16
  fatalvec : BitVec 16
  pdaddr : Word
  pdst : Word
  pdcmd : Word
  stoptick : Word
  stopArmed : Bool
  stopped : Bool
  deriving DecidableEq, Repr

/-- R431, R418: the reset values. -/
def HostPage.reset : HostPage :=
  { devst := 0, cause := 0, firmware := [], rlsize := 0, nodeid := 0, pwrcap := 1500, pwrnow := 0, temp := 0, elprod := 0, elcons := 0,
    ellost := 0, nonce := [], attst := 0, attaddr := 0, herrvec := 0xFFFF, fatalvec := 0xFFFF, pdaddr := 0, pdst := 0, pdcmd := 0,
    stoptick := 0, stopArmed := false, stopped := false }

/-! ### Partitions, queues and the hub -/

/-- The context of a partition in clearing (R337, R427): the save records of its groups, each as its size and bytes (R38), and what of them
no record holds; its stands, the function tables, RWRDROP, RMSEL and counters of its cores, the counters of its fields and of the slices
that serve only it, and its scratchpad units. -/
structure Context where
  records : Sparse (Nat × Nat)
  groups : Sparse Group
  stands : Sparse Stand
  cores : Sparse Core
  clusters : Sparse Cluster
  slices : Sparse Word
  pads : List Host.Cell
  deriving DecidableEq, Repr

/-- The debug page of a partition (R418); `pending` are the writes of DBGCTL that still wait for what they read, in order. -/
structure DebugPage where
  trctl : Word
  trbase : Word
  trsize : Word
  trprod : Word
  trcons : Word
  trlost : Word
  lostSince : Word
  sampctl : Word
  dbgst : Word
  dumpaddr : Word
  bps : List Word
  pmaddr : Word
  pmtick : Word
  pmsel : Word
  pending : List Word
  deriving DecidableEq, Repr

def DebugPage.reset : DebugPage :=
  { trctl := 0, trbase := 0, trsize := 0, trprod := 0, trcons := 0, trlost := 0, lostSince := 0, sampctl := 0, dbgst := 0,
    dumpaddr := 0, bps := [0, 0, 0, 0], pmaddr := 0, pmtick := 0, pmsel := 0, pending := [] }

/-- A partition (R392 to R394): the descriptor's values, its port page, and what the control pair keeps of it. `booting` holds
while its system image is being read, whose SHA-256 is `digest` from its boot on (R413, R439). `clearing` holds from
the start of a clearing to the restore, `removed` are the field entries taken out, and `context` is there once all is saved
(R337). -/
structure Partition where
  booting : Bool
  booted : Bool
  digest : List Byte
  cgmask : BitVec 32
  quota : Nat
  rsv : Nat
  thresh : Nat
  sysarea : Nat
  asntab : Nat
  tables : Sparse Nat
  qtab : Nat
  prqbase : Nat
  prqlog2 : Nat
  imgkey : List Byte
  imgaddr : Nat
  imgsize : Nat
  ranges : List (Nat × Nat)
  prqc : Word
  prqp : Word
  sdstat : Word
  prqvec : Word
  perrvec : Word
  half : Sparse Word
  rotation : Nat
  quantum : Nat
  clearing : Bool
  removed : Sparse Cmd
  context : Option Context
  stopped : Bool
  palerts : Word
  corr : Word
  uncorr : Word
  dbg : DebugPage
  deriving DecidableEq, Repr

/-- The prologue unit of a front end (R408): its one lane, held as a group, and the runs begun. -/
structure Prologue where
  unit : Group
  runs : Nat
  deriving DecidableEq, Repr

/-- What has come of a read: the line, or the detail with which it failed (R430, R434). -/
inductive LineGot
  | line (d : LineBits)
  | failed (detail : Nat)
  deriving DecidableEq, Repr

/-- A read by the hub of a line at the host or at a linked device: for whom, the number of the request, and what has come. -/
structure HubRead where
  who : Nat
  line : Nat
  id : Nat
  got : Option LineGot
  deriving DecidableEq, Repr

/-- A hardware slot with a mapped queue (R395, R396): its partition, the QCB's address and fields, when it was mapped and whether at the
latest boundary, whether it is to be left, and for which queue (R410), the packets that the graph walker has submitted, as address space and
address (R407), whether one of them is in progress, whether a packet is the current one (R410) and waits with its release (R405, R406),
whether a WAITMEM is in progress, and how far the packet has come: `stage` counts its parts done, `lines` are those of a CMO still to do,
`made` the launches of an INDIRECT. -/
structure QueueSlot where
  part : Nat
  qcb : Nat
  rbase : Nat
  rsize : Nat
  rptr : Nat
  wptr : Nat
  qid : Nat
  asn : Nat
  bprio : Nat
  maxp : Nat
  qstate : Nat
  qerr : Nat
  qerrd : Nat
  errptr : Nat
  errw : Nat
  errvec : Nat
  age : Nat
  mapped : Nat
  latest : Bool
  leaving : Option (Option Nat)
  injected : List (Nat × Nat)
  taking : Bool
  current : Bool
  releasing : Bool
  waiting : Bool
  stage : Nat
  lines : List (Nat × Bool)
  prologue : Option Prologue
  made : Nat
  deriving DecidableEq, Repr

/-- A queue known to the scheduler though no slot holds it (R409): partition, number, and since when it is runnable. -/
structure IdleQueue where
  part : Nat
  qid : Nat
  since : Nat
  deriving DecidableEq, Repr

/-- A packet that the graph walker has submitted to a slot of a partition while no slot with that number is mapped (R407): its slot,
partition, address space and address. -/
structure Submitted where
  slot : Nat
  part : Nat
  asn : Nat
  va : Nat
  deriving DecidableEq, Repr

/-! ### The whole machine -/

/-- The machine. `poisoned` are the lines that read as poisoned at their homes; `hbmBad` are those that HBM has lost while a slice holds a
clean copy of them (R382). -/
structure State where
  agenda : List Turn
  turnNo : Nat
  freeNo : Nat
  nextId : Nat
  issuer : Option Nat
  tick : Word
  devTime : Word
  devFrac : Int
  devRate : Int
  devOffset : Int
  hlc : Sparse Hlc
  groups : Sparse Group
  stands : Sparse Stand
  launches : Sparse Launch
  cores : Sparse Core
  clusters : Sparse Cluster
  hbm : List Host.Cell
  pads : List Host.Cell
  l2 : Sparse L2Line
  uses : Nat
  owners : Sparse Nat
  recalls : Sparse (List Parked)
  heldReads : List HeldRead
  homeq : Sparse (List HomeEntry)
  delivery : Sparse (List Remote)
  outstanding : List Outstanding
  deposits : List Deposit
  atoms : List Atom
  scOrder : List (Nat × Nat)
  merge : List PageRequest
  retries : List PageRequest
  shootdowns : List Shootdown
  parts : Sparse Partition
  slots : Sparse QueueSlot
  idle : List IdleQueue
  submitted : List Submitted
  hubReads : List HubRead
  loadWindow : List Host.Cell
  answer : Option Completion
  irqs : List Nat
  banks : Sparse Bank
  pchans : Sparse Pchan
  poisoned : List Nat
  hbmBad : List Nat
  casts : List Cast
  cmos : List CmoOp
  cmds : Sparse Cmd
  cells : Sparse (BitVec 520)
  plates : Sparse Plate
  directory : Sparse (BitVec 512)
  bitmaps : Sparse (BitVec 2048)
  window : Nat
  seqNo : Nat
  signatures : Nat
  nodes : List Node
  arming : List Arming
  mailbox : List Contribution
  errorLog : Sparse LogEntry
  host : HostPage
  ports : Sparse LinkPort
  windows : Sparse Word
  routes : Sparse Byte
  inbound : Sparse (BitVec 128)
  withheld : Bool
  slicePm : Sparse Word
  deriving DecidableEq, Repr

/-! ### Faults and refusals of the model -/

/-- How a step of the model can stop. The machine of the spec never stops so: every trap, abort and error of the spec is
a next state. -/
inductive Fault
  /-- Raised by a meaning of a group's instruction called in a state in which no group is issuing. `step` never does
  so: it names the issuing group first. Safe: the machine has no such step. -/
  | noIssuer
  deriving DecidableEq, Repr

/-- Why a meaning is refused. -/
inductive Refusal
  /-- Raised by an arm of `exec` for an instruction that has no meaning yet. Safe: nothing is claimed of it. -/
  | notModelled (mnemonic : String)
  deriving DecidableEq, Repr

/-- The machine right after reset. -/
def State.reset : State :=
  { agenda := [], turnNo := 0, freeNo := 0, nextId := 0, issuer := none, tick := 0, devTime := 0, devFrac := 0, devRate := 0, devOffset := 0, hlc := [], groups := [],
    stands := [], launches := [], cores := [], clusters := [], hbm := [], pads := [], l2 := [], uses := 0, owners := [], recalls := [], heldReads := [], homeq := [],
    delivery := [], outstanding := [], deposits := [], atoms := [], scOrder := [], merge := [], retries := [], shootdowns := [],
    parts := [], slots := [], idle := [], submitted := [], hubReads := [], loadWindow := [], answer := none, irqs := [], banks := [], pchans := [], poisoned := [], hbmBad := [], casts := [], cmos := [], cmds := [], cells := [], plates := [],
    directory := [], bitmaps := [], window := 0, seqNo := 0, signatures := 0, nodes := [], arming := [], mailbox := [], errorLog := [], host := .reset,
    ports := [], windows := [], routes := [], inbound := [], withheld := false,
    slicePm := [] }

end Sys2Proof.Machine
end

