-- ==== Sys2Proof/Machine/Bits.lean ====
section
/-! DEFINITION. Fields of naturals, sign extension, narrowing and the elements of lanes (R40, R42). -/

namespace Sys2Proof.Machine

/-- Bits `[lo + n - 1 : lo]` of a number. -/
def bits (x lo n : Nat) : Nat := x / 2 ^ lo % 2 ^ n

/-- The `w` low bits of an integer, as a number (Wrap of R116). -/
def wrapTo (w : Nat) (x : Int) : Nat := (x % (2 ^ w : Nat)).toNat

/-- The signed value of the `w` low bits of a number. -/
def signedOf (w : Nat) (x : Nat) : Int :=
  let y := x % 2 ^ w
  if 2 * y < 2 ^ w then (y : Int) else (y : Int) - (2 ^ w : Nat)

/-- The value of `w` bits read as signed or unsigned (R42). -/
def valueOf (w : Nat) (signed : Bool) (x : Nat) : Int := if signed then signedOf w x else ((x % 2 ^ w : Nat) : Int)

/-- The least and greatest values of `w` bits (R42). -/
def minOf (w : Nat) (signed : Bool) : Int := if signed then -((2 ^ (w - 1) : Nat) : Int) else 0
def maxOf (w : Nat) (signed : Bool) : Int := if signed then ((2 ^ (w - 1) : Nat) : Int) - 1 else ((2 ^ w : Nat) : Int) - 1

/-- Clamping to the range of `w` bits (Sat of R116). -/
def satTo (w : Nat) (signed : Bool) (x : Int) : Int :=
  if x < minOf w signed then minOf w signed else if maxOf w signed < x then maxOf w signed else x

/-- The number with bits `[lo + n - 1 : lo]` replaced by the low bits of `y`. -/
def setBits (x lo n y : Nat) : Nat := x - bits x lo n * 2 ^ lo + (y % 2 ^ n) * 2 ^ lo

/-- The number of elements of width `w` in a vector register (R146). -/
def elemCount (w : Nat) : Nat := 2048 / w

/-- Element `e` of width `w` of a register: element index e = lane × (64 / w) + sub (R40), so it stands at bit w × e. -/
def elem (v : Lanes) (w e : Nat) : Nat := v.toNat / 2 ^ (w * e) % 2 ^ w

/-- The register with element `e` replaced. -/
def setElem (v : Lanes) (w e x : Nat) : Lanes :=
  let mask : Lanes := BitVec.ofNat 2048 (2 ^ w - 1) <<< (w * e)
  (v &&& ~~~mask) ||| ((BitVec.ofNat 2048 (x % 2 ^ w)) <<< (w * e))

/-- The register whose elements of width `w` are given by a function, elements `n` and above being zero. -/
def packElems (w : Nat) (f : Nat → Nat) : Nat → Nat
  | 0 => 0
  | n + 1 => packElems w f n + (f n % 2 ^ w) * 2 ^ (w * n)

/-- All elements of a register, computed. -/
def ofElems (w : Nat) (f : Nat → Nat) : Lanes := BitVec.ofNat 2048 (packElems w f (elemCount w))

/-- Lane `l` of a register (R12). -/
def lane (v : Lanes) (l : Nat) : Nat := elem v 64 l

/-- The lane of element `e` of width `w`, and the byte of the lane at which it starts (R19, R40). -/
def laneOf (w e : Nat) : Nat := e / (64 / w)
def byteOff (w e : Nat) : Nat := e % (64 / w) * w / 8

/-- The predicate bit of element `e`: lane × 8 + byte offset (R19), which is w × e / 8. -/
def predIndex (w e : Nat) : Nat := laneOf w e * 8 + byteOff w e

/-- A register whose lanes all hold one value. -/
def splat (x : Nat) : Lanes := ofElems 64 fun _ => x

/-- The FP32 element at position `q` of lane `l` of a matrix register (R20, R153). -/
def mElem (m : BitVec 36864) (l q : Nat) : Nat := m.toNat / 2 ^ (32 * (36 * l + q)) % 2 ^ 32

/-- The elements of a matrix register from a function of lane and position, the first `n` of 1,152. -/
def packMat (f : Nat → Nat → Nat) : Nat → Nat
  | 0 => 0
  | n + 1 => packMat f n + (f (n / 36) (n % 36) % 2 ^ 32) * 2 ^ (32 * n)

def ofMat (f : Nat → Nat → Nat) : BitVec 36864 := BitVec.ofNat 36864 (packMat f 1152)

/-- The predicate whose bits are given by a function. -/
def packPred (f : Nat → Bool) : Nat → Nat
  | 0 => 0
  | n + 1 => packPred f n + (if f n then 2 ^ n else 0)

def ofPred (f : Nat → Bool) : PredBits := BitVec.ofNat 256 (packPred f 256)

end Sys2Proof.Machine
end

