-- ==== Sys2Proof/Machine/Float.lean ====
section
/-! DEFINITION. Floating-point values and arithmetic (R43 to R50, R62): a code is read as an exact value, the exact
result is formed on integers, and rounded once. -/

namespace Sys2Proof.Machine

/-- An exact value: NaN, an infinity, or (−1)^neg × m × 2^e, where m = 0 is a signed zero. -/
inductive Val
  | nan
  | inf (neg : Bool)
  | fin (neg : Bool) (m : Nat) (e : Int)
  deriving DecidableEq, Repr

/-- Fraction bits, bias, width and codes of a floating-point format (R43). -/
structure FloatFmt where
  width : Nat
  frac : Nat
  bias : Int
  maxFinite : Nat
  inf : Option Nat
  nan : Nat
  flush : Bool
  deriving DecidableEq, Repr

/-- The format of a code (R43); integer formats have none. -/
def floatFmt : Fmt → Option FloatFmt
  | .f32 => some ⟨32, 23, 127, 0x7F7FFFFF, some 0x7F800000, 0x7FC00000, false⟩
  | .f16 => some ⟨16, 10, 15, 0x7BFF, some 0x7C00, 0x7E00, false⟩
  | .bf16 => some ⟨16, 7, 127, 0x7F7F, some 0x7F80, 0x7FC0, true⟩
  | .e4m3 => some ⟨8, 3, 7, 0x7E, none, 0x7F, false⟩
  | .e5m2 => some ⟨8, 2, 15, 0x7B, some 0x7C, 0x7E, false⟩
  | _ => none

/-- The format f32, in which several rules compute whatever FMT is. -/
def f32Fmt : FloatFmt := ⟨32, 23, 127, 0x7F7FFFFF, some 0x7F800000, 0x7FC00000, false⟩

/-- The sign bit of a code. -/
def FloatFmt.neg (f : FloatFmt) (x : Nat) : Bool := x.testBit (f.width - 1)

/-- The code without its sign. -/
def FloatFmt.mag (f : FloatFmt) (x : Nat) : Nat := x % 2 ^ (f.width - 1)

/-- Whether a code is a NaN (R44). -/
def FloatFmt.isNaN (f : FloatFmt) (x : Nat) : Bool :=
  match f.inf with
  | some i => decide (i < f.mag x)
  | none => decide (f.maxFinite < f.mag x)

/-- Whether a code is an infinity (R44). -/
def FloatFmt.isInf (f : FloatFmt) (x : Nat) : Bool := f.inf == some (f.mag x)

/-- The exponent field of a code. -/
def FloatFmt.expField (f : FloatFmt) (x : Nat) : Nat := f.mag x / 2 ^ f.frac

/-- The value of a code; a BF16 input with exponent field 0 is a zero of its sign (R43, R45). -/
def FloatFmt.val (f : FloatFmt) (x : Nat) : Val :=
  if f.isNaN x then .nan
  else if f.isInf x then .inf (f.neg x)
  else
    let e := f.expField x
    let m := x % 2 ^ f.frac
    if e == 0 then .fin (f.neg x) (if f.flush then 0 else m) (1 - f.bias - f.frac)
    else .fin (f.neg x) (2 ^ f.frac + m) (e - f.bias - f.frac)

/-- A code of the format with a sign. -/
def FloatFmt.signed (f : FloatFmt) (neg : Bool) (mag : Nat) : Nat := mag + (if neg then 2 ^ (f.width - 1) else 0)

/-- Whether rounding `n + r / 2^shift` under a mode goes up in magnitude (R48): 0 .rne, 1 .rz, 2 .rdn, 3 .rup, 4 .rna. -/
def roundsUp (rm : Nat) (neg : Bool) (n r half : Nat) : Bool :=
  match rm with
  | 0 => decide (half < r) || (r == half && n % 2 == 1)
  | 1 => false
  | 2 => neg && r != 0
  | 3 => !neg && r != 0
  | _ => decide (half ≤ r)

/-- m × 2^e rounded to a multiple of 2^q, as the multiple. -/
def roundQ (rm : Nat) (neg : Bool) (m : Nat) (e q : Int) : Nat :=
  if q ≤ e then m * 2 ^ (e - q).toNat
  else
    let s := (q - e).toNat
    let n := m / 2 ^ s
    let r := m % 2 ^ s
    if roundsUp rm neg n r (2 ^ (s - 1)) then n + 1 else n

/-- How a conversion into E4M3 or E5M2 treats overflow (R49). -/
inductive Overflow
  | ieee | sat | nan
  deriving DecidableEq, Repr

/-- The code of an overflowing result (R49). -/
def FloatFmt.overflow (f : FloatFmt) (ov : Overflow) (rm : Nat) (neg : Bool) : Nat :=
  let max := f.signed neg f.maxFinite
  match ov, f.inf with
  | .sat, _ => max
  | _, none => f.nan
  | _, some i =>
    let toInf := match rm with
      | 1 => false
      | 2 => neg
      | 3 => !neg
      | _ => true
    if toInf then f.signed neg i else max

/-- Rounding of the exact magnitude m × 2^e, m > 0, to a code (R45, R48, R49). -/
def FloatFmt.round (f : FloatFmt) (ov : Overflow) (rm : Nat) (neg : Bool) (m : Nat) (e : Int) : Nat :=
  if m == 0 then f.signed neg 0
  else
    let top : Int := Nat.log2 m + e
    let emin := 1 - f.bias
    let q := if f.flush then top - f.frac else max (top - f.frac) (emin - f.frac)
    let n := roundQ rm neg m e q
    let code : Int := (q + f.frac + f.bias - 1) * (2 ^ f.frac : Nat) + n
    if n == 0 then f.signed neg 0
    else if f.flush && decide (Nat.log2 n + q < emin) then f.signed neg 0
    else if (f.maxFinite : Int) < code then f.overflow ov rm neg
    else f.signed neg code.toNat

/-- The code of a value (R49, R50): a NaN gives the canonical NaN. -/
def FloatFmt.ofVal (f : FloatFmt) (ov : Overflow) (rm : Nat) : Val → Nat
  | .nan => f.nan
  | .inf neg => match ov, f.inf with
    | .sat, _ => f.signed neg f.maxFinite
    | _, none => f.nan
    | _, some i => f.signed neg i
  | .fin neg m e => f.round ov rm neg m e

/-- Rounding of an exact value to a format of vector arithmetic. -/
def FloatFmt.ofValue (f : FloatFmt) (rm : Nat) (v : Val) : Nat := f.ofVal .ieee rm v

def Val.neg : Val → Val
  | .nan => .nan
  | .inf n => .inf (!n)
  | .fin n m e => .fin (!n) m e

def Val.isNaN : Val → Bool
  | .nan => true
  | _ => false

def Val.isZero : Val → Bool
  | .fin _ m _ => m == 0
  | _ => false

/-- The signed integer of a finite value at the scale 2^q, where q is at most its exponent. -/
def scaled (neg : Bool) (m : Nat) (e q : Int) : Int :=
  let x : Int := (m * 2 ^ (e - q).toNat : Nat)
  if neg then -x else x

/-- The exact sum; a zero sum of opposite signs is −0 under .rdn and +0 otherwise (R44). -/
def Val.add (rm : Nat) : Val → Val → Val
  | .nan, _ | _, .nan => .nan
  | .inf a, .inf b => if a == b then .inf a else .nan
  | .inf a, _ => .inf a
  | _, .inf b => .inf b
  | .fin na ma ea, .fin nb mb eb =>
    let q := min ea eb
    let s := scaled na ma ea q + scaled nb mb eb q
    if s == 0 then
      if na == nb then .fin na 0 q else .fin (rm == 2) 0 q
    else .fin (decide (s < 0)) s.natAbs q

/-- The exact product. -/
def Val.mul : Val → Val → Val
  | .nan, _ | _, .nan => .nan
  | .inf a, .inf b => .inf (a != b)
  | .inf a, .fin n m _ => if m == 0 then .nan else .inf (a != n)
  | .fin n m _, .inf b => if m == 0 then .nan else .inf (n != b)
  | .fin na ma ea, .fin nb mb eb => .fin (na != nb) (ma * mb) (ea + eb)

/-- The quotient with a sticky bit below 64 good bits, which rounds as the exact quotient does (R134). -/
def Val.div : Val → Val → Val
  | .nan, _ | _, .nan => .nan
  | .inf _, .inf _ => .nan
  | .inf a, .fin n _ _ => .inf (a != n)
  | .fin n _ _, .inf b => .fin (n != b) 0 0
  | .fin na ma ea, .fin nb mb eb =>
    if mb == 0 then (if ma == 0 then .nan else .inf (na != nb))
    else
      let s := Nat.log2 mb + 64
      let n := ma * 2 ^ s
      .fin (na != nb) (2 * (n / mb) + (if n % mb == 0 then 0 else 1)) (ea - eb - s - 1)

/-- The integer square root, one bit a step. -/
def isqrtFrom (x : Nat) : Nat → Nat → Nat
  | 0, r => r
  | k + 1, r => isqrtFrom x k (if (r + 2 ^ k) * (r + 2 ^ k) ≤ x then r + 2 ^ k else r)

def isqrt (x : Nat) : Nat := isqrtFrom x (Nat.log2 x / 2 + 1) 0

/-- A finite value m × 2^e with an even exponent. -/
def evenExp (m : Nat) (e : Int) : Nat × Int := if e % 2 == 0 then (m, e) else (2 * m, e - 1)

/-- The square root with a sticky bit (R135, R136). -/
def Val.sqrt : Val → Val
  | .nan => .nan
  | .inf n => if n then .nan else .inf false
  | .fin n m e =>
    if m == 0 then .fin n 0 0
    else if n then .nan
    else
      let (m', e') := evenExp m e
      let x := m' * 2 ^ 128
      let r := isqrt x
      .fin false (2 * r + (if r * r == x then 0 else 1)) (e' / 2 - 65)

/-- The reciprocal square root with a sticky bit (R135, R136). -/
def Val.rsqrt : Val → Val
  | .nan => .nan
  | .inf n => if n then .nan else .fin false 0 0
  | .fin n m e =>
    if m == 0 then .inf n
    else if n then .nan
    else
      let (m', e') := evenExp m e
      let t := Nat.log2 m' + 64
      let r := isqrt (2 ^ (2 * t) / m')
      .fin false (2 * r + (if r * r * m' == 2 ^ (2 * t) then 0 else 1)) (-(e' / 2) - t - 1)

/-- A value of one. -/
def Val.one : Val := .fin false 1 0

/-- Order of two values that are no NaN: less, equal or greater; the zeros are equal. -/
def Val.cmp : Val → Val → Ordering
  | .inf a, .inf b => if a == b then .eq else if a then .lt else .gt
  | .inf a, _ => if a then .lt else .gt
  | _, .inf b => if b then .gt else .lt
  | .fin na ma ea, .fin nb mb eb =>
    let q := min ea eb
    let x := scaled na ma ea q
    let y := scaled nb mb eb q
    if x < y then .lt else if x == y then .eq else .gt
  | _, _ => .eq

def Val.negative : Val → Bool
  | .nan => false
  | .inf n => n
  | .fin n _ _ => n

/-- The smaller; a NaN gives NaN; −0 counts below +0 (R131). -/
def Val.min (a b : Val) : Val :=
  if a.isNaN || b.isNaN then .nan
  else match a.cmp b with
    | .lt => a
    | .gt => b
    | .eq => if a.negative then a else b

/-- The larger; a NaN gives NaN; +0 counts above −0 (R131). -/
def Val.max (a b : Val) : Val :=
  if a.isNaN || b.isNaN then .nan
  else match a.cmp b with
    | .gt => a
    | .lt => b
    | .eq => if a.negative then b else a

/-- The magnitude of a value (FABS of R131). -/
def Val.abs : Val → Val
  | .nan => .nan
  | .inf _ => .inf false
  | .fin _ m e => .fin false m e

/-- A finite value rounded to an integer under a mode (R48). -/
def roundToInt (rm : Nat) (neg : Bool) (m : Nat) (e : Int) : Int :=
  let n : Int := (roundQ rm neg m e 0 : Nat)
  if neg then -n else n

/-- FRND of R131: an integral value; a zero keeps the sign of the operand. -/
def Val.rnd (rm : Nat) : Val → Val
  | .fin n m e => .fin n (roundQ rm n m e 0) 0
  | v => v

/-- Conversion to an integer format: rounded, then clamped; NaN gives 0 (R50). -/
def Val.toInt (rm w : Nat) (signed : Bool) : Val → Int
  | .nan => 0
  | .inf n => if n then minOf w signed else maxOf w signed
  | .fin n m e => satTo w signed (roundToInt rm n m e)

/-- Whether a conversion to an integer format clamps (R216, R240). -/
def Val.clamps (rm w : Nat) (signed : Bool) : Val → Bool
  | .nan => false
  | .inf _ => true
  | .fin n m e => satTo w signed (roundToInt rm n m e) != roundToInt rm n m e

/-- An integer as an exact value. -/
def Val.ofInt (x : Int) : Val := .fin (decide (x < 0)) x.natAbs 0

/-- Whether an integer format is read as signed outside R113: FMT 0 is i64 (R142, R195). -/
def fmtSigned (f : Fmt) : Bool := f == .b64 || f.signed

/-- The value of an element of any format: integers under their signedness, b64 as i64 (R142). -/
def valOf (f : Fmt) (x : Nat) : Val :=
  match floatFmt f with
  | some ff => ff.val x
  | none => Val.ofInt (valueOf f.width (fmtSigned f) x)

/-- The element of any format that a value is converted to (R50): floats round under `rm` and `ov`, integers round and
clamp. -/
def ofVal (f : Fmt) (ov : Overflow) (rm : Nat) (v : Val) : Nat :=
  match floatFmt f with
  | some ff => ff.ofVal ov rm v
  | none => wrapTo f.width (v.toInt rm f.width (fmtSigned f))

/-- The overflow mode that a format takes outside CVT: .sat in E4M3 and E5M2 (R240, R441). -/
def satOverflow (f : Fmt) : Overflow := if f == .e4m3 || f == .e5m2 then .sat else .ieee

/-- A code of a format negated in its sign bit, NaN canonical (FNEG of R131). -/
def opVal (f : FloatFmt) (rm : Nat) (g : Val → Val) (x : Nat) : Nat := f.ofValue rm (g (f.val x))

def opVal2 (f : FloatFmt) (rm : Nat) (g : Val → Val → Val) (x y : Nat) : Nat := f.ofValue rm (g (f.val x) (f.val y))

/-- Sum, product and fused multiply-add on codes, one rounding each (R131). -/
def fadd (f : FloatFmt) (rm x y : Nat) : Nat := opVal2 f rm (Val.add rm) x y
def fsub (f : FloatFmt) (rm x y : Nat) : Nat := opVal2 f rm (fun a b => Val.add rm a b.neg) x y
def fmul (f : FloatFmt) (rm x y : Nat) : Nat := opVal2 f rm Val.mul x y
def fdiv (f : FloatFmt) (rm x y : Nat) : Nat := opVal2 f rm Val.div x y
def ffma (f : FloatFmt) (rm x y z : Nat) : Nat :=
  f.ofValue rm (Val.add rm (Val.mul (f.val x) (f.val y)) (f.val z))

/-- FP32 steps of the matrix instructions and the field (R152). -/
def fma32 (x y z : Nat) : Nat := ffma f32Fmt 0 x y z
def div32 (x y : Nat) : Nat := fdiv f32Fmt 0 x y
def sqrt32 (x : Nat) : Nat := opVal f32Fmt 0 Val.sqrt x
def neg32 (x : Nat) : Nat := if f32Fmt.isNaN x then f32Fmt.nan else x ^^^ 0x80000000
def mul32 (x y : Nat) : Nat := fmul f32Fmt 0 x y
def add32 (x y : Nat) : Nat := fadd f32Fmt 0 x y

/-- FCLASS of R133, on the bits unflushed: the number of the class bit. -/
def fclass (f : FloatFmt) (x : Nat) : Nat :=
  if f.isNaN x then 8
  else
    let pos := if f.isInf x then 7 else if f.expField x != 0 then 6 else if f.mag x != 0 then 5 else 4
    if f.neg x then 7 - pos else pos

/-- The condition of FCMP (R132): 0 .eq, 1 .ne, 2 .lt, 3 .le, 4 .gt, 5 .ge, 6 .uo, 7 .ord. -/
def fcmp (cc : Nat) (a b : Val) : Bool :=
  if a.isNaN || b.isNaN then cc == 1 || cc == 6
  else
    let o := a.cmp b
    match cc with
    | 0 => o == .eq
    | 1 => o != .eq
    | 2 => o == .lt
    | 3 => o != .gt
    | 4 => o == .gt
    | 5 => o != .lt
    | 6 => false
    | _ => true

end Sys2Proof.Machine
end

