-- ==== Sys2Proof/Machine/Block.lean ====
section
/-! DEFINITION. Block floating point and LNS8: the values of elements, and the conversion of 16 values into one block
(R51, R52, R55 to R57), with the storage format codes of records (R41). -/

namespace Sys2Proof.Machine

/-- A storage format (R41). -/
inductive SFmt
  | fmt (f : Fmt)
  | bfp (m : Nat)
  | lns
  deriving DecidableEq, Repr

/-- The format of a storage format code; reserved codes have none. -/
def SFmt.ofCode (c : Nat) : Option SFmt :=
  match Fmt.ofCode c with
  | some f => some (.fmt f)
  | none =>
    if 16 ≤ c ∧ c ≤ 22 then some (.bfp (c - 14))
    else if c == 24 then some .lns
    else none

/-- Whether a storage format has an exponent plane (R54). -/
def SFmt.isBlock : SFmt → Bool
  | .fmt _ => false
  | _ => true

/-- Bits of one element of the (mantissa) plane. -/
def SFmt.width : SFmt → Nat
  | .fmt f => f.width
  | .bfp m => m
  | .lns => 8

/-- The value of a BFP*m* element with mantissa `M` under exponent `E` (R51). -/
def bfpVal (m E : Nat) (M : Int) : Val :=
  if E == 255 then .nan else .fin (decide (M < 0)) M.natAbs ((E : Int) - 127 - (m - 1))

/-- R56: 2^(f/16) × 4,096, rounded. -/
def lnsTable (f : Nat) : Nat :=
  [4096, 4277, 4467, 4664, 4871, 5087, 5312, 5547, 5793, 6049, 6317, 6597, 6889, 7194, 7512, 7845].getD f 0

/-- The magnitude of a log offset `d`: T[d mod 16] × 2^(floor(d / 16) − 12), as significand and exponent (R55). -/
def lnsMag (d : Int) : Nat × Int := (lnsTable (d % 16).toNat, d / 16 - 12)

/-- The value of an LNS8 element under exponent `E` (R55). -/
def lnsVal (E code : Nat) : Val :=
  if E == 255 then .nan
  else
    let L := code % 128
    if L == 0 then .fin (code.testBit 7) 0 0
    else
      let (t, q) := lnsMag ((L : Int) - 64)
      .fin (code.testBit 7) t (q + E - 127)

/-- floor(log2 |x|) of a nonzero finite value. -/
def Val.log2 : Val → Option Int
  | .fin _ m e => if m == 0 then none else some (Nat.log2 m + e)
  | _ => none

/-- The largest of the base-2 logarithms of the nonzero values. -/
def maxLog2 : List Val → Option Int
  | [] => none
  | v :: vs => match v.log2, maxLog2 vs with
    | some a, some b => some (max a b)
    | some a, none => some a
    | none, r => r

/-- Whether a block is a NaN block: some value is a NaN or an infinity (R52). -/
def nanBlock (vs : List Val) : Bool := vs.any fun v => match v with | .fin _ _ _ => false | _ => true

/-- R52: 16 values into one BFP*m* block, as its exponent and its mantissas. -/
def bfpEncode (m rm : Nat) (vs : List Val) : Nat × List Int :=
  if nanBlock vs then (255, vs.map fun _ => 0)
  else match maxLog2 vs with
  | none => (0, vs.map fun _ => 0)
  | some l =>
    let E : Nat := (min (max (l + 128) 0) 254).toNat
    (E, vs.map fun v => match v with
      | .fin n k e => satTo m true (roundToInt rm n k (e + 127 + (m - 1) - E))
      | _ => 0)

/-- V(L) of R57 as significand and exponent. -/
def lnsV (L : Nat) : Nat × Int := lnsMag ((L : Int) - 64)

/-- Comparison of two magnitudes m × 2^e. -/
def magLt (a : Nat × Int) (b : Nat × Int) : Bool :=
  let q := min a.2 b.2
  decide (a.1 * 2 ^ (a.2 - q).toNat < b.1 * 2 ^ (b.2 - q).toNat)

def magEq (a b : Nat × Int) : Bool := !magLt a b && !magLt b a

/-- The code whose V lies nearest to x, a tie going to the even code: the number of codes L below 127 such that x lies
above the midpoint of V(L) and V(L + 1), or on it with L odd. -/
def lnsCount (x : Nat × Int) : Nat → Nat
  | 0 => 0
  | k + 1 =>
    let L := k + 1
    let a := lnsV L
    let b := lnsV (L + 1)
    let q := min a.2 b.2
    let mid : Nat × Int := (a.1 * 2 ^ (a.2 - q).toNat + b.1 * 2 ^ (b.2 - q).toNat, q - 1)
    lnsCount x k + (if magLt mid x || (magEq mid x && L % 2 == 1) then 1 else 0)

/-- The log magnitude of x′ (R57, step 3). -/
def lnsCode (x : Nat × Int) : Nat :=
  let v1 := lnsV 1
  if magLt x (v1.1, v1.2 - 1) then 0
  else if !magLt x (lnsV 127) then 127
  else 1 + lnsCount x 126

/-- R57: 16 values into one LNS8 block, as its exponent and its codes. -/
def lnsEncode (vs : List Val) : Nat × List Nat :=
  if nanBlock vs then (255, vs.map fun _ => 0)
  else match maxLog2 vs with
  | none => (0, vs.map fun _ => 0)
  | some l =>
    let E : Nat := (min (max (l + 124) 0) 254).toNat
    (E, vs.map fun v => match v with
      | .fin n k e =>
        let L := if k == 0 then 0 else lnsCode (k, e + 127 - E)
        if L == 0 then 0 else L + (if n then 128 else 0)
      | _ => 0)

/-- The value of a container or stored element of a block format; containers are read as 8 bits (R53). -/
def blockVal (s : SFmt) (E code : Nat) : Val :=
  match s with
  | .bfp m => bfpVal m E (signedOf 8 code)
  | .lns => lnsVal E code
  | .fmt f => valOf f code

/-- A block converted to a block format: its exponent and 16 container bytes (R52, R53, R57). -/
def blockEncode (s : SFmt) (rm : Nat) (vs : List Val) : Nat × List Nat :=
  match s with
  | .bfp m => let (E, ms) := bfpEncode m rm vs; (E, ms.map (wrapTo 8))
  | .lns => lnsEncode vs
  | .fmt _ => (0, [])

end Sys2Proof.Machine
end

