-- ==== Sys2Proof/Machine/Sparse.lean ====
section
/-! DEFINITION. The operations of finite maps held as lists: reading with a default, writing that keeps the canonical
form, and that form itself. Memory (Host.Cell lists) uses the same operations, its default byte being 0. -/

namespace Sys2Proof.Machine

/-- The value at a key, if the map lists one. -/
def Sparse.find? {α : Type} : Sparse α → Nat → Option α
  | [], _ => none
  | (k, x) :: m, n => if k == n then some x else Sparse.find? m n

/-- The value at a key, `d` where the map lists none. -/
def Sparse.getD {α : Type} (m : Sparse α) (n : Nat) (d : α) : α := (Sparse.find? m n).getD d

/-- The map with every entry of a key taken out. -/
def Sparse.erase {α : Type} (m : Sparse α) (n : Nat) : Sparse α := m.filter fun e => e.1 != n

/-- The map with the value at a key replaced, or put in at its place. -/
def Sparse.insert {α : Type} : Sparse α → Nat → α → Sparse α
  | [], n, x => [(n, x)]
  | (k, y) :: m, n, x =>
    if n == k then (n, x) :: m else if n < k then (n, x) :: (k, y) :: m else (k, y) :: Sparse.insert m n x

/-- Writing under a default value: the default is not listed. -/
def Sparse.set {α : Type} [DecidableEq α] (m : Sparse α) (n : Nat) (x d : α) : Sparse α :=
  if x = d then Sparse.erase m n else Sparse.insert m n x

/-- Changing the value at a key where there is one. -/
def Sparse.modify {α : Type} (m : Sparse α) (n : Nat) (f : α → α) : Sparse α :=
  m.map fun e => if e.1 == n then (e.1, f e.2) else e

/-- The keys of a list are strictly above `lo` and strictly rising, and no value is the default. -/
def Sparse.wfAbove {α : Type} [DecidableEq α] (d : α) : Option Nat → Sparse α → Bool
  | _, [] => true
  | lo, (k, x) :: m => (match lo with | none => true | some l => decide (l < k)) && decide (x ≠ d) &&
      Sparse.wfAbove d (some k) m

/-- The canonical form. -/
def Sparse.wf {α : Type} [DecidableEq α] (d : α) (m : Sparse α) : Bool := Sparse.wfAbove d none m

/-- Memory: addresses and bytes in canonical form, an unlisted address reading as 0. -/
abbrev Memory := List Host.Cell

/-- The byte that an unlisted address reads as. The spec gives no content of HBM after power-on (DESIGN CHOICE, log
entry 3). -/
def Memory.blank : Byte := 0

def Memory.wf (m : Memory) : Bool := Sparse.wf Memory.blank m

/-- The byte at an address. -/
def Memory.read (m : Memory) (a : Nat) : Byte := Sparse.getD m a Memory.blank

/-- Writing one byte. -/
def Memory.write (m : Memory) (a : Nat) (b : Byte) : Memory := Sparse.set m a b Memory.blank

/-- The little-endian value of the `n` bytes at an address (R3). -/
def Memory.readLE (m : Memory) (a : Nat) : Nat → Nat
  | 0 => 0
  | n + 1 => (Memory.read m a).toNat + 256 * Memory.readLE m (a + 1) n

/-- Writing the `n` low bytes of a value at an address, little-endian (R3). -/
def Memory.writeLE (m : Memory) (a : Nat) : Nat → Nat → Memory
  | 0, _ => m
  | n + 1, x => Memory.writeLE (Memory.write m a (BitVec.ofNat 8 x)) (a + 1) n (x / 256)

end Sys2Proof.Machine
end

