-- ==== Sys2Proof/Machine/Home.lean ====
section
/-! DEFINITION. Memory at its homes: the physical address map (R296), home slices and banks (R297, R372), the lines that
slices hold (R298 to R301), ownership (R302), staleness of cast tiles (R271, R305) and transactions' conflicts (R192). -/

namespace Sys2Proof.Machine

/-- The regions of the physical address map (R296). -/
inductive Region
  | hbm | control | host | linked | reserved
  deriving DecidableEq, Repr

def regionOf (pa : Nat) : Region :=
  if pa < 0x6000000000 then .hbm
  else if 0x10000000000 ≤ pa ∧ pa < 0x10100000000 then .control
  else if 0x1000000000000 ≤ pa ∧ pa < 0x2000000000000 then .host
  else if 0x8000000000000 ≤ pa ∧ pa < 0x10000000000000 then .linked
  else .reserved

/-- The home slice of an HBM line (R297), the argument being a byte address. -/
def sliceOf (pa : Nat) : Nat :=
  bits pa 7 7 ^^^ bits pa 14 7 ^^^ bits pa 21 7 ^^^ bits pa 28 7 ^^^ bits pa 35 4

/-- The row, bank and pseudo-channel of an HBM address (R372). -/
def rowOfPa (pa : Nat) : Nat := bits pa 25 14
def pchanOf (pa : Nat) : Nat := bits pa 16 3 * 64 + bits pa 11 5 * 2 + bits pa 10 1
def bankOf (pa : Nat) : Nat := pchanOf pa * 64 + (bits pa 19 6 ^^^ (rowOfPa pa % 64))

/-- The scratchpad bytes are held in one memory, a core's scratchpad at `core * 2^20`. -/
def padAddr (core off : Nat) : Nat := core * 2 ^ 20 + off

/-- The line that a byte lies in, and the byte's place in it. -/
def Loc.base : Loc → Loc
  | .mem pa => .mem (pa / 128 * 128)
  | .pad c o => .pad c (o / 128 * 128)

def Loc.place : Loc → Nat
  | .mem pa => pa % 128
  | .pad _ o => o % 128

/-- An order of lines: by physical address, scratchpad lines after them. -/
def Loc.key : Loc → Nat
  | .mem pa => pa
  | .pad c o => 2 ^ 60 + padAddr c o

def Loc.plus : Loc → Nat → Loc
  | .mem pa, n => .mem (pa + n)
  | .pad c o, n => .pad c (o + n)

/-- The 128 bytes of memory at an address, as a line. -/
def lineAt (m : Memory) (a : Nat) : LineBits := BitVec.ofNat 1024 (Memory.readLE m a 128)

/-- The nibble mask of bytes `[o, o + n)` of a line. -/
def byteMask (o n : Nat) : BitVec 256 := BitVec.ofNat 256 ((2 ^ (2 * n) - 1) * 2 ^ (2 * o))

/-- The bit mask of a nibble mask. -/
def spreadFrom (m : Nat) : Nat → Nat
  | 0 => 0
  | n + 1 => spreadFrom m n + (if m.testBit n then 15 * 16 ^ n else 0)

def spread (m : BitVec 256) : LineBits := BitVec.ofNat 1024 (spreadFrom m.toNat 256)

/-- A line with the nibbles of a mask replaced. -/
def mergeLine (old new : LineBits) (m : BitVec 256) : LineBits :=
  let k := spread m
  (old &&& ~~~k) ||| (new &&& k)

/-- `n` bytes of a line from byte `o`, as a number. -/
def lineBytes (d : LineBits) (o n : Nat) : Nat := bits d.toNat (8 * o) (8 * n)

/-! ### Scratchpad units and the L1 split (R291, R292) -/

/-- The units in use on a core. -/
def unitsUsed (s : State) (core : Nat) : List Nat := (s.stands.filter fun e => e.2.core == core).flatMap fun e => e.2.units

/-- The scratchpad banks of the smallest split that holds some units: 32 units a bank. -/
def splitBanks (units : List Nat) : Nat := if units.all (· < 64) then 2 else if units.all (· < 128) then 4 else 6

/-- The sets of a core's L1, of 8 lines each: the banks that are no scratchpad banks hold 128 KiB each (R291, R293). -/
def l1Sets (s : State) (core : Nat) : Nat := (12 - splitBanks (unitsUsed s core)) * 128

/-! ### Bank requests -/

def State.part? (s : State) (n : Nat) : Option Partition := Sparse.find? s.parts n
def State.bank (s : State) (b : Nat) : Bank := Sparse.getD s.banks b .idle
def State.setBank (s : State) (b : Nat) (x : Bank) : State := { s with banks := Sparse.set s.banks b x .idle }

/-- A fresh identifier. -/
def State.fresh (s : State) : Nat × State := (s.nextId, { s with nextId := s.nextId + 1 })

/-- A free number for a choice that the spec leaves to the machine. -/
def State.free (s : State) : Nat × State := (Config.freeNat s.freeNo, { s with freeNo := s.freeNo + 1 })

/-- The partition whose HBM ranges hold a physical address. -/
def partOfPa (s : State) (pa : Nat) : Option Nat :=
  (List.find? (fun (e : Nat × Partition) => e.2.ranges.any fun r => decide (r.1 ≤ pa) && decide (pa < r.2)) s.parts).map (·.1)

/-- An address of a row of a bank (R372). -/
def paOfRow (bank row : Nat) : Nat :=
  bits bank 12 3 * 2 ^ 16 + bits bank 7 5 * 2 ^ 11 + bits bank 6 1 * 2 ^ 10 + row * 2 ^ 25 + (bits bank 0 6 ^^^ (row % 64)) * 2 ^ 19

/-- The threshold of a row (R378). -/
def thresholdOf (s : State) (bank row : Nat) : Nat :=
  match (partOfPa s (paOfRow bank row)).bind s.part? with
  | some p => p.thresh
  | none => 4096

def neighbours (row : Nat) : Nat := if row == 0 || row == 12287 then 1 else 2

/-- An activation (R377), and the alert that it may raise (R379). -/
def activate (s : State) (bank row : Nat) : State :=
  let b := s.bank bank
  let n := Sparse.getD b.counters row 0 + 1
  if n < thresholdOf s bank row then s.setBank bank { b with opened := some row, counters := Sparse.insert b.counters row n }
  else
    let s := s.setBank bank { b with
      opened := none, counters := Sparse.erase b.counters row, alerts := b.alerts + 1, rfms := b.rfms + BitVec.ofNat 32 (neighbours row)
      lastrow := BitVec.ofNat 14 row, tick := s.tick, backoff := true }
    match partOfPa s (paOfRow bank row) with
    | some p => { s with parts := Sparse.modify s.parts p fun x => { x with palerts := (x.palerts + 1) &&& 0xFFFFFFFF } }
    | none => s

/-- Opening a row for an access. -/
def openRow (s : State) (bank row : Nat) : State := if (s.bank bank).opened == some row then s else activate s bank row

/-- The request that a bank must serve next, with the count of those that have passed others (R373). -/
def Bank.pick (b : Bank) : Nat × Nat :=
  match b.opened.bind fun r => b.queue.findIdx? fun q => q.row == r with
  | some i => if i != 0 && b.passed < 16 then (i, b.passed + 1) else (0, 0)
  | none => (0, 0)

def State.pchan (s : State) (n : Nat) : Pchan := Sparse.getD s.pchans n .idle
def State.setPchan (s : State) (n : Nat) (x : Pchan) : State := { s with pchans := Sparse.set s.pchans n x .idle }

/-- A bank takes up the request that is due, once none is in service: at once where it is idle, in the normal phase and outside a back-off. An
access to a closed row activates it (R373). -/
def takeUp (s : State) (bank : Nat) : State :=
  let b := s.bank bank
  let (i, passed) := b.pick
  match b.queue[i]? with
  | none => s
  | some r =>
    if b.backoff || b.serving.isSome || (s.pchan (bank / 64)).compute then s
    else openRow (s.setBank bank { b with serving := some r.id, passed := passed }) bank r.row

/-- A request of a slice to HBM for a line, queued at its bank (R373). -/
def bankRequest (s : State) (line : Nat) : Nat × State :=
  let (id, s) := s.fresh
  let b := bankOf line
  let x := s.bank b
  (id, takeUp (s.setBank b { x with queue := x.queue ++ [{ id := id, line := line, row := rowOfPa line }] }) b)

/-- Whether a request has been served. -/
def served (s : State) (reqs : List Nat) : Bool :=
  !(s.banks.any fun b => b.2.queue.any fun r => reqs.contains r.id)

/-! ### The slices' lines -/

/-- R299: the bytes that a line takes in a slot, the first encoding of the table that holds it. -/
def storedBytes (d : LineBits) : Nat :=
  let x := d.toNat
  let word (i : Nat) : Nat := bits x (64 * i) 64
  let half (i : Nat) : Nat := bits x (32 * i) 32
  let fits (w n : Nat) (y : Nat) : Bool :=
    let v := signedOf w y
    decide (-(2 ^ (n - 1) : Nat) ≤ v) && decide (v < (2 ^ (n - 1) : Nat))
  if x == 0 then 0
  else if (List.range 16).all fun i => word i == word 0 then 8
  else if (List.range 16).all fun i => fits 64 8 (word i + 2 ^ 64 - word 0) then 24
  else if (List.range 32).all fun i => fits 32 8 (half i + 2 ^ 32 - half 0) then 36
  else if (List.range 16).all fun i => fits 64 16 (word i + 2 ^ 64 - word 0) then 40
  else 128

/-- Whether two lines belong to one set of a slice (R298). -/
def sameSet (a b : Nat) : Bool := sliceOf a == sliceOf b && Config.l2Set a % 1024 == Config.l2Set b % 1024

/-- The lines of the set of a line. -/
def setLines (s : State) (line : Nat) : List (Nat × L2Line) := s.l2.filter fun e => sameSet e.1 line

/-- The slots that lines of a set fill: one each, two partners sharing one (R298). -/
def slotsOf (ls : List (Nat × L2Line)) : Nat :=
  (ls.filter fun e => e.2.partner.isNone).length + (ls.filter fun e => e.2.partner.isSome).length / 2

/-- A line that another may join in its slot: at most 64 stored bytes, and no partner (R298). -/
def L2Line.half (x : L2Line) : Bool := x.partner.isNone && decide (storedBytes x.data ≤ 64)

/-- The lowest line of the set of a line that has half its slot free; which one is chosen is open (DESIGN CHOICE). -/
def halfSlot (s : State) (line : Nat) : Option Nat :=
  (List.find? (fun (e : Nat × L2Line) => e.1 != line && e.2.half && sameSet e.1 line) s.l2).map (·.1)

/-- Giving a line a partner, or none. -/
def setPartner (s : State) (line : Nat) (p : Option Nat) : State :=
  { s with l2 := Sparse.modify s.l2 line fun x => { x with partner := p } }

/-- Two lines share a slot. -/
def pair (s : State) (a b : Nat) : State := setPartner (setPartner s a (some b)) b (some a)

/-- Writing a line back to HBM (R298). -/
def writeBack (s : State) (line : Nat) (d : LineBits) : State :=
  let s := (bankRequest s line).2
  { s with hbm := Memory.writeLE s.hbm line 128 d.toNat, hbmBad := s.hbmBad.filter (· != line) }

/-- What HBM has of a line is its value again: poisoned, if HBM has lost it (R382). -/
def exposeLine (s : State) (line : Nat) : State :=
  if s.hbmBad.contains line then
    { s with hbmBad := s.hbmBad.filter (· != line), poisoned := if s.poisoned.contains line then s.poisoned else s.poisoned ++ [line] }
  else s

/-- Taking a line out of its slice, its partner keeping the slot. -/
def dropLine (s : State) (line : Nat) : State :=
  match Sparse.find? s.l2 line with
  | none => s
  | some x =>
    let s := match x.partner with
      | some p => setPartner s p none
      | none => s
    exposeLine { s with l2 := Sparse.erase s.l2 line } line

/-- Evicting a line: it is written back if dirty (R298, R300). -/
def evict (s : State) (line : Nat) : State :=
  match Sparse.find? s.l2 line with
  | none => s
  | some x => dropLine (if x.dirty then writeBack s line x.data else s) line

/-- Evicting a slot: a line and its partner. -/
def evictSlot (s : State) (line : Nat) : State :=
  match (Sparse.find? s.l2 line).bind (·.partner) with
  | some p => evict (evict s line) p
  | none => evict s line

/-- The lines whose slots a set may give up for a line: those marked to go first, else those of every slot but the one used last
(R298: pseudo-LRU, of which no more is stated). -/
def victims (ls : List (Nat × L2Line)) (line : Nat) : List (Nat × L2Line) :=
  let others := ls.filter fun e => e.1 != line && e.2.partner != some line
  let early := others.filter fun e => e.2.early
  let latest := others.foldl (fun n e => max n e.2.used) 0
  let recent (e : Nat × L2Line) : Bool := e.2.used == latest || others.any fun y => some y.1 == e.2.partner && y.2.used == latest
  let old := others.filter fun e => !recent e
  if !early.isEmpty then early else if !old.isEmpty then old else others

/-- Replacement in the set of a line until it fits its 16 slots; which of the victims goes is free. Sixteen lines or fewer fit
whatever their sets. -/
def makeRoom (s : State) (line : Nat) : Nat → State
  | 0 => s
  | n + 1 =>
    let ls := setLines s line
    if decide (s.l2.length ≤ 16) || decide (slotsOf ls ≤ 16) then s
    else
      let pool := victims ls line
      let (k, s) := s.free
      match pool[k % pool.length]? with
      | none => s
      | some e => makeRoom (evictSlot s e.1) line n

/-- The number of a use of a copy, later uses having greater ones. -/
def State.useNo (s : State) : Nat × State := (s.uses + 1, { s with uses := s.uses + 1 })

/-- A line of a slice used under a policy: one used otherwise than under .ev does not go first any more. -/
def useLine (s : State) (line policy : Nat) (x : L2Line) : State :=
  let (n, s) := s.useNo
  { s with l2 := Sparse.insert s.l2 line { x with used := n, early := x.early && policy == 2 } }

/-- A line enters its slice: it shares the slot of a line that leaves half of it free, or takes one (R298). -/
def allocate (s : State) (line : Nat) (d : LineBits) (dirty early : Bool) : State :=
  let (n, s) := s.useNo
  let x : L2Line := { data := d, dirty := dirty, early := early, partner := none, used := n }
  let s := { s with l2 := Sparse.insert s.l2 line x }
  match (if x.half then halfSlot s line else none) with
  | some p => pair s line p
  | none => makeRoom s line 33

/-- The partner of a line that has grown (R300): it moves into a free half of a slot of the set, or to a free slot; else it is
evicted. -/
def rehouse (s : State) (line p : Nat) : State :=
  let s := setPartner (setPartner s line none) p none
  match halfSlot s p with
  | some q => pair s p q
  | none => if decide (s.l2.length ≤ 16) || decide (slotsOf (setLines s line) ≤ 16) then s else evict s p

/-- New bytes for a line that its slice holds (R300). -/
def rewriteLine (s : State) (line policy : Nat) (x : L2Line) (d : LineBits) : State :=
  let s := useLine s line policy { x with data := d, dirty := true }
  match x.partner with
  | some p => if storedBytes d ≤ 64 then s else rehouse s line p
  | none => s

/-- The current value of the line at an HBM address (R259): the slice's, or HBM's. -/
def homeLine (s : State) (line : Nat) : LineBits :=
  match Sparse.find? s.l2 line with
  | some x => x.data
  | none => lineAt s.hbm line

/-- Whether an access under a policy leaves the line in its slice (R171, R301): all but .byp, code 3. -/
def allocates (policy : Nat) : Bool := policy != 3

/-- Whether the slices serve a partition alone that is in clearing: they do not count then (R427). -/
def slicesStill (s : State) : Bool := match s.parts with
  | [(_, p)] => p.context.isSome
  | _ => false

/-- Counting an event of a slice: 0 hits, 1 misses to HBM, 2 recasts, 3 recalls (R427). -/
def countAt (s : State) (slice k : Nat) : State :=
  let n := slice * 4 + k
  if slicesStill s then s
  else { s with slicePm := Sparse.set s.slicePm n (Sparse.getD s.slicePm n 0 + 1) 0 }

def countSlice (s : State) (line k : Nat) : State := countAt s (sliceOf line) k

/-- A home read of a line: its value, and the HBM request when the slice does not hold it. -/
def homeRead (s : State) (line policy : Nat) : LineBits × List Nat × State :=
  match Sparse.find? s.l2 line with
  | some x => (x.data, [], useLine (countSlice s line 0) line policy x)
  | none =>
    let d := lineAt s.hbm line
    let (id, s) := bankRequest (countSlice s line 1) line
    (d, [id], if allocates policy then allocate s line d false (policy == 2) else s)

/-! ### Staleness of cast tiles -/

/-- The derived tiles that depend on some nibbles of a line (R264, R305). -/
def Cast.dependents (c : Cast) (x : Nat × BitVec 256) : List Nat :=
  ((c.edges.filter fun e => e.1 == x.1 && e.2.2 &&& x.2 != 0).map (·.2.1)).eraseDups

/-- The lines of a derived tile, with its nibbles. -/
def Cast.tileLines (c : Cast) (tile : Nat) : List (Nat × BitVec 256) := (c.lines.filter fun e => e.2.1 == tile).map fun e => (e.1, e.2.2)

/-- One round of marking: every tile that depends on what was written becomes stale; the lines of the tiles newly
marked are the next round's (R199, R305). -/
def markRound (cs : List Cast) (xs : List (Nat × BitVec 256)) : List Cast × List (Nat × BitVec 256) :=
  let step := cs.map fun c =>
    let new := ((xs.flatMap c.dependents).eraseDups).filter fun t => !c.stale.contains t
    ({ c with stale := c.stale ++ new }, new.flatMap c.tileLines)
  (step.map (·.1), step.flatMap (·.2))

/-- Rounds of marking until one marks nothing. -/
def markAll (cs : List Cast) : List (Nat × BitVec 256) → Nat → List Cast
  | _, 0 => cs
  | [], _ + 1 => cs
  | x :: xs, n + 1 =>
    let r := markRound cs (x :: xs)
    markAll r.1 r.2 n

/-- Marking along chains of derived records, as far as they go (R199, R305): every round but the last marks some tile. -/
def markStale (s : State) (line : Nat) (mask : BitVec 256) : State :=
  { s with casts := markAll s.casts [(line, mask)] (s.casts.foldl (fun n c => n + c.tiles) 1) }

/-- Whether a line holds a part of a stale tile (R271). -/
def staleLine (s : State) (line : Nat) : Bool :=
  s.casts.any fun c => c.lines.any fun e => e.1 == line && c.stale.contains e.2.1

/-! ### Held reads (R306) -/

/-- The home slice of a derived tile: that of its primary edge (R304). -/
def Cast.homeOf (c : Cast) (tile : Nat) : Nat := ((c.homes.find? fun e => e.1 == tile).map (·.2)).getD 0

/-- The first stale tile of which a line holds a part. -/
def staleTile (s : State) (line : Nat) : Option (Cast × Nat) :=
  s.casts.findSome? fun c => (c.lines.find? fun e => e.1 == line && c.stale.contains e.2.1).map fun e => (c, e.2.1)

/-- The home slice of the tile of a held read. -/
def HeldRead.home (h : HeldRead) (s : State) : Nat :=
  ((s.casts.find? fun c => c.rule == h.rule).map fun c => c.homeOf h.tile).getD 0

/-- The reads that a slice holds, in the order of their arrival. -/
def heldAt (s : State) (slice : Nat) : List HeldRead := s.heldReads.filter fun h => !h.served && h.home s == slice

/-- Holding a read of a tile, at most 64 a slice. -/
def holdTile (s : State) (who : Reader) (line rule tile slice : Nat) : State :=
  let h : HeldRead := { rule := rule, tile := tile, reader := who, line := line, served := false }
  if (s.heldReads.any fun x => x.reader == who && x.line == line) || 64 ≤ (heldAt s slice).length then s
  else { s with heldReads := s.heldReads ++ [h] }

/-- A read that meets a stale tile is held at the tile's home slice (R199, R306). -/
def holdRead (s : State) (who : Reader) (line : Nat) : State :=
  match staleTile s line with
  | some (c, t) => holdTile s who line c.rule t (c.homeOf t)
  | none => s

/-- Whether a rebuild lets a held read be made: it reads its line at the line's own home, stale again or not (R202, R306). -/
def heldServed (s : State) (who : Reader) (line : Nat) : Bool := s.heldReads.any fun h => h.reader == who && h.line == line && h.served

/-- A held read that has been served ends. -/
def endHeld (s : State) (who : Reader) (line : Nat) : State :=
  { s with heldReads := s.heldReads.filter fun h => !(h.reader == who && h.line == line) }

/-! ### Transactions -/

/-- A write of an agent other than the group to a line of an open transaction flags its abort (R192): cause 1 for the
read set, else 2 for the write set; the first flag stands. -/
def Txn.conflict (t : Txn) (line : Nat) (rd wr : BitVec 8) : Txn :=
  if t.flagged.isSome then t
  else if t.reads.contains line then { t with flagged := some rd }
  else if t.writes.any fun w => w.line == .mem line then { t with flagged := some wr }
  else t

/-- Flagging the transactions of every group but the writer's (R192). -/
def flagTxns (s : State) (writer : Option Nat) (line : Nat) (rd wr : BitVec 8) : State :=
  { s with groups := s.groups.map fun e =>
      if some e.1 == writer then e else (e.1, { e.2 with txn := e.2.txn.map fun t => t.conflict line rd wr }) }

/-! ### Writes at the home -/

/-- Whether a mask covers a whole line. -/
def wholeLine (m : BitVec 256) : Bool := m == BitVec.allOnes 256

/-- A write at the home of an HBM line (R264, R301): merged into the slice's line or a line of its own; under .byp a line
that the slice does not hold goes back to HBM whole. Dependent cast tiles become stale in the same step, transactions
that hold the line are flagged, and a full-line write clears poison (R382). -/
def homeWrite (s : State) (writer : Option Nat) (line : Nat) (data : LineBits) (mask : BitVec 256) (policy : Nat) : State :=
  let s := match Sparse.find? s.l2 line with
    | some x => rewriteLine s line policy x (mergeLine x.data data mask)
    | none =>
      let d := mergeLine (lineAt s.hbm line) data mask
      let s := if wholeLine mask then s else (bankRequest s line).2
      if allocates policy then allocate s line d true (policy == 2)
      else writeBack s line d
  let s := markStale s line mask
  let s := flagTxns s writer line 1 2
  if wholeLine mask then { s with poisoned := s.poisoned.filter (· != line) } else s

/-- A write of one store line to its home: an HBM line, or a scratchpad line. -/
def applyStore (s : State) (writer : Option Nat) (x : Store) : State :=
  match x.line with
  | .mem pa => homeWrite s writer pa x.data x.mask x.policy
  | .pad c o =>
    let a := padAddr c o
    { s with pads := Memory.writeLE s.pads a 128 (mergeLine (lineAt s.pads a) x.data x.mask).toNat }

/-- The current value of the line of a location: host and linked memory have none here. -/
def lineOf (s : State) : Loc → LineBits
  | .mem pa => homeLine s (pa / 128 * 128)
  | .pad c o => lineAt s.pads (padAddr c (o / 128 * 128))

/-- A read of `n` bytes at a location within one line, at the home. -/
def readHome (s : State) (l : Loc) (n : Nat) : Nat := lineBytes (lineOf s l) l.place n

/-- A write of `n` bytes at a location within one line, at the home. -/
def writeHome (s : State) (writer : Option Nat) (l : Loc) (n x : Nat) : State :=
  applyStore s writer
    { line := l.base, va := 0, data := BitVec.ofNat 1024 (x % 2 ^ (8 * n) * 2 ^ (8 * l.place)), mask := byteMask l.place n, policy := 1 }

/-- The agent that owns a line (R259). -/
def ownerOf (s : State) (l : Loc) : Option Nat :=
  match l.base with
  | .mem pa => Sparse.find? s.owners pa
  | .pad _ _ => none

/-- Whether an access of a group still reads a line. -/
def reading (s : State) (gid acc line : Nat) : Bool :=
  ((Sparse.find? s.groups gid).map fun g => g.accs.any fun a => a.id == acc && a.todo.any fun i => i.loc.base == .mem line).getD false

/-- What a slice has parked for a line (R302). -/
def parkedFor (s : State) (line : Nat) : List Parked :=
  (Sparse.getD s.recalls (sliceOf line) []).filter fun p => match p with
    | .load gid acc l => l == line && reading s gid acc line
    | .store x => x.store.line == .mem line

/-- Whether a home access to a line waits on an owner, or on what a slice has parked behind one (R264, R302). -/
def heldBack (s : State) (l : Loc) : Bool :=
  (ownerOf s l).isSome || (match l.base with | .mem pa => !(parkedFor s pa).isEmpty | .pad _ _ => false)

/-- Whether a home access to a line must wait: an agent owns it, or it lies in a stale tile (R265, R270, R271). -/
def homeBusy (s : State) (l : Loc) : Bool :=
  heldBack s l || (match l.base with | .mem pa => staleLine s pa | .pad _ _ => false)

def homePoisoned (s : State) (l : Loc) : Bool :=
  match l.base with
  | .mem pa => s.poisoned.contains pa
  | .pad _ _ => false

end Sys2Proof.Machine
end

