-- ==== Sys2Proof/Machine/Translate.lean ====
section
/-! DEFINITION. Address translation (R310 to R316) and the resolution of an element's address with the checks of R168 and
R170. -/

namespace Sys2Proof.Machine

def State.core (s : State) (c : Nat) : Core := Sparse.getD s.cores c .idle
def State.setCore (s : State) (c : Nat) (x : Core) : State := { s with cores := Sparse.set s.cores c x .idle }
def State.cluster (s : State) (c : Nat) : Cluster := Sparse.getD s.clusters c .idle
def State.setCluster (s : State) (c : Nat) (x : Cluster) : State := { s with clusters := Sparse.set s.clusters c x .idle }
def State.stand? (s : State) (n : Nat) : Option Stand := Sparse.find? s.stands n
def State.launch? (s : State) (n : Nat) : Option Launch := Sparse.find? s.launches n

/-- The partition that a core serves (R338, R393). -/
def partOfCore (s : State) (core : Nat) : Option Nat :=
  (List.find? (fun (e : Nat × Partition) => e.2.cgmask.getLsbD (core / 16) && e.2.context.isNone) s.parts).map (·.1)

/-- Counting events at a core: each of its 8 counters counts the code that PMSEL gives it (R427). -/
def countCoreBy (s : State) (core part event n : Nat) : State :=
  match s.part? part with
  | none => s
  | some p =>
    let c := s.core core
    let pm := (List.range 8).foldl (fun pm k =>
      if bits p.dbg.pmsel.toNat (8 * k) 8 == event then Sparse.set pm k (Sparse.getD pm k 0 + BitVec.ofNat 64 n) 0 else pm) c.pm
    s.setCore core { c with pm := pm }

def countCore (s : State) (core part event : Nat) : State := countCoreBy s core part event 1

/-- What an access needs of its page (R168, R90). -/
inductive Need
  | rd | wr | atomic | ex
  deriving DecidableEq, Repr

def Perms.allow (p : Perms) : Need → Bool
  | .rd => p.rd
  | .wr => p.wr
  | .atomic => p.atomic
  | .ex => p.ex

/-- The result of a walk, or of the TLB path (R313); `held` while the line of an entry may not be read (R265, R270, R271). -/
inductive Walk
  | resident (frame size : Nat) (perms : Perms)
  | absent (size : Nat) (perms : Perms)
  | invalid
  | held
  deriving DecidableEq, Repr

/-- Bytes of a page of a size code: 64 KiB, 2 MiB, 1 GiB (R314). -/
def pageBytes (size : Nat) : Nat := match size with
  | 0 => 2 ^ 16
  | 1 => 2 ^ 21
  | _ => 2 ^ 30

/-- VA[55:16] of the page that holds an address, low bits zero for larger pages (R317). -/
def vpageOf (va size : Nat) : Nat := va / pageBytes size * (pageBytes size / 2 ^ 16)

/-- Index of a table level, and the size of the table (R311). -/
def levelIndex (level va : Nat) : Nat := match level with
  | 3 => bits va 43 13
  | 2 => bits va 30 13
  | 1 => bits va 21 9
  | _ => bits va 16 5

def tableBytes (level : Nat) : Nat := match level with
  | 3 | 2 => 65536
  | 1 => 4096
  | _ => 256

/-- The address bits above the index of a level: what a walk-cache entry is tagged with. -/
def levelKey (level va : Nat) : Nat := match level with
  | 3 => bits va 43 13
  | 2 => bits va 30 26
  | _ => bits va 21 35

/-- One page-table entry read at a level (R312, R313). -/
inductive Entry
  | table (pa : Nat)
  | resident (frame : Nat) (perms : Perms)
  | absent (perms : Perms)
  | invalid
  | held
  deriving DecidableEq, Repr

/-- Decoding of an entry at a level, malformed entries being invalid (R312, R313). -/
def readEntry (level e : Nat) : Entry :=
  let kind := bits e 6 2
  let pa := bits e 8 44 * 256
  let perms : Perms := { ex := e.testBit 5, atomic := e.testBit 4, wr := e.testBit 3, rd := e.testBit 2 }
  let page := match level with
    | 2 => 2 ^ 30
    | 1 => 2 ^ 21
    | _ => 2 ^ 16
  if kind == 0 || bits e 0 2 != 0 || bits e 52 8 != 0 then .invalid
  else if kind == 1 then
    if level == 0 || pa % tableBytes (level - 1) != 0 || regionOf pa == .reserved then .invalid else .table pa
  else if level == 3 then .invalid
  else if kind == 2 then
    if pa % page != 0 || regionOf pa == .reserved then .invalid else .resident pa perms
  else .absent perms

/-- Reading the entry of an address in a table, at its home slice, as a home read: it waits on an owned line and on a stale tile
(R265). A table outside HBM has no home slice, and its entries are invalid (DEDUCED). -/
def readPte (s : State) (level va table : Nat) : Entry × State :=
  let a := table + 8 * levelIndex level va
  if regionOf a != .hbm then (.invalid, s)
  else if homeBusy s (.mem a) then (.held, holdRead s .other (a / 128 * 128))
  else
    let (d, _, s) := homeRead s (a / 128 * 128) 1
    (readEntry level (lineBytes d (a % 128) 8), s)

/-- A table entry enters the walk cache of a cluster (R314). -/
def cacheTable (s : State) (cl part asn level va table : Nat) : State :=
  let c := s.cluster cl
  let x : WalkEntry := { part := part, asn := asn, level := level, key := levelKey level va, table := table }
  let (k, s) := s.free
  let w := if 256 ≤ c.walk.length then c.walk.eraseIdx (k % 256) else c.walk
  s.setCluster cl { c with walk := w ++ [x] }

/-- A walk from a table at a level downward (R313). -/
def walkFrom (cl part asn va : Nat) : Nat → Nat → State → Walk × State
  | 0, table, s =>
    match readPte s 0 va table with
    | (.resident f p, s) => (.resident f 0 p, s)
    | (.absent p, s) => (.absent 0 p, s)
    | (.held, s) => (.held, s)
    | (_, s) => (.invalid, s)
  | l + 1, table, s =>
    match readPte s (l + 1) va table with
    | (.resident f p, s) => (.resident f (l + 1) p, s)
    | (.absent p, s) => (.absent (l + 1) p, s)
    | (.table pa, s) => walkFrom cl part asn va l pa (cacheTable s cl part asn (l + 1) va pa)
    | (.held, s) => (.held, s)
    | (.invalid, s) => (.invalid, s)

/-- The deepest table that the walk cache knows for an address: the level to read next, and the table. -/
def cachedTable (c : Cluster) (part asn va : Nat) : List Nat → Option (Nat × Nat)
  | [] => none
  | l :: ls =>
    match c.walk.find? fun e => e.part == part && e.asn == asn && e.level == l && e.key == levelKey l va with
    | some e => some (l - 1, e.table)
    | none => cachedTable c part asn va ls

/-- The ASN table of an address space: that of its partition when a launch in it was last placed, while one is (R393). A TLB names an address
space alone (R314), so launches in one share a table (DEDUCED). -/
def asnTable (s : State) (part asn : Nat) : Nat := match s.part? part with
  | none => 0
  | some p =>
    if s.launches.any fun e => e.2.part == part && e.2.asn == asn && e.2.placed != 0 then Sparse.getD p.tables asn p.asntab else p.asntab

/-- What an entry of an ASN table gives: a root table, an entry that is not valid, or a wait. -/
inductive Root
  | table (pa : Nat)
  | invalid
  | held
  deriving DecidableEq, Repr

/-- The root table of an address space (R310, R393). -/
def rootTable (s : State) (part asn : Nat) : Root × State :=
  let a := asnTable s part asn + 8 * asn
  if regionOf a != .hbm then (.invalid, s)
  else if homeBusy s (.mem a) then (.held, holdRead s .other (a / 128 * 128))
  else
    let (d, _, s) := homeRead s (a / 128 * 128) 1
    let e := lineBytes d (a % 128) 8
    (if e.testBit 0 then .table (bits e 16 36 * 65536) else .invalid, s)

/-- A walk of a cluster (R313). It reads its entries in one step, unless the line of one may not be read. -/
def walk (s : State) (cl part asn va : Nat) : Walk × State :=
  match cachedTable (s.cluster cl) part asn va [1, 2, 3] with
  | some (level, table) => walkFrom cl part asn va level table s
  | none =>
    match rootTable s part asn with
    | (.table root, s) => walkFrom cl part asn va 3 root s
    | (.held, s) => (.held, s)
    | (.invalid, s) => (.invalid, s)

/-- A TLB lookup: the indices of 64 KiB, 2 MiB and 1 GiB in turn (R314). -/
def tlbFind (t : List TlbEntry) (part asn va : Nat) : Option TlbEntry :=
  [0, 1, 2].findSome? fun z => t.find? fun e => e.size == z && e.part == part && e.asn == asn && e.vpage == vpageOf va z

/-- A fill of the L1 TLB, fully associative: a full one replaces an entry, which one is free (R314). -/
def tlbFill (t : List TlbEntry) (cap k : Nat) (e : TlbEntry) : List TlbEntry :=
  (if cap ≤ t.length then t.eraseIdx (k % cap) else t) ++ [e]

/-- Whether two translations belong to one set of the L2 TLB. -/
def TlbEntry.sameSet (a b : TlbEntry) : Bool := Config.tlbSet a.vpage a.size % 512 == Config.tlbSet b.vpage b.size % 512

/-- A fill of the L2 TLB: a set that has its 8 entries replaces one, which one is free (R314). Fewer than 8 fit whatever their sets. -/
def tlbFillSet (t : List TlbEntry) (k : Nat) (e : TlbEntry) : List TlbEntry :=
  if t.length < 8 then t ++ [e]
  else
    let mine := t.filter fun x => x.sameSet e
    (match (if 8 ≤ mine.length then mine[k % mine.length]? else none) with
      | some x => t.erase x
      | none => t) ++ [e]

def TlbEntry.toWalk (e : TlbEntry) : Walk := .resident e.frame e.size e.perms

/-- The scratchpad window of virtual addresses (R168). -/
def padWindow : Nat := 0x00FFFF0000000000
def inPadWindow (ea : Nat) : Bool := decide (padWindow ≤ ea) && decide (ea < padWindow + 0x1000000)

/-- The page about which a lookup misses. -/
def missAt (part asn va : Nat) : Miss := { part := part, asn := asn, vpage := va / 65536 }

/-- A list of outstanding misses with one of a page, or without it. -/
def noteMiss (ms : List Miss) (m : Miss) : List Miss := if ms.contains m then ms else ms ++ [m]
def State.noteWalk (s : State) (cl : Nat) (m : Miss) : State :=
  let c := s.cluster cl
  if 64 ≤ c.walks.length then s else s.setCluster cl { c with walks := noteMiss c.walks m }
def State.endWalk (s : State) (cl : Nat) (m : Miss) : State :=
  let c := s.cluster cl
  s.setCluster cl { c with walks := c.walks.filter (· != m) }

/-- Whether the 16 walkers of a cluster are taken by pages before a page's turn (R314). -/
def Cluster.walkersTaken (c : Cluster) (m : Miss) : Bool := decide (16 ≤ (c.walks.takeWhile (· != m)).length)

/-- The path through a cluster's L2 TLB and walkers (R314, R316); only resident results enter the TLB. A page whose walk cannot be made yet
is one of the 64 in walk or waiting for a walker, if those are not full, and its miss waits (R315). The scratchpad window is never
translated (R323). -/
def translateCluster (s : State) (cl part asn va : Nat) : Walk × State :=
  if inPadWindow va then (.invalid, s)
  else
  match tlbFind (s.cluster cl).tlb part asn va with
  | some e => (e.toWalk, s)
  | none =>
    let m := missAt part asn va
    if (s.cluster cl).walkersTaken m then (.held, s.noteWalk cl m)
    else
      match walk s cl part asn va with
      | (.resident f z p, s) =>
        let e : TlbEntry := { part := part, asn := asn, vpage := vpageOf va z, size := z, frame := f, perms := p }
        let (k, s) := (s.endWalk cl m).free
        let c := s.cluster cl
        (.resident f z p, s.setCluster cl { c with tlb := tlbFillSet c.tlb k e })
      | (.held, s) => (.held, s.noteWalk cl m)
      | (r, s) => (r, s.endWalk cl m)

/-- A miss of a core's L1 TLB is counted as it begins (R427), and is outstanding until it is answered (R315). -/
def countMiss (s : State) (core part : Nat) (m : Miss) : State :=
  if (s.core core).misses.contains m then s
  else
    let s := countCore s core part 8
    let c := s.core core
    s.setCore core { c with misses := noteMiss c.misses m }
def State.endMiss (s : State) (core : Nat) (m : Miss) : State :=
  let c := s.core core
  s.setCore core { c with misses := c.misses.filter (· != m) }

/-- The TLB path of a core (R314, R315). -/
def translate (s : State) (core part asn va : Nat) : Walk × State :=
  match tlbFind (s.core core).tlb part asn va with
  | some e => (e.toWalk, s)
  | none =>
    let m := missAt part asn va
    match translateCluster (countMiss s core part m) (core / 4) part asn va with
    | (.resident f z p, s) =>
      let e : TlbEntry := { part := part, asn := asn, vpage := vpageOf va z, size := z, frame := f, perms := p }
      let (k, s) := (s.endMiss core m).free
      let c := s.core core
      (.resident f z p, s.setCore core { c with tlb := tlbFill c.tlb 192 k e })
    | (.held, s) => (.held, s)
    | (r, s) => (r, s.endMiss core m)

/-- Where a group stands: its place, core, partition, address space and scratchpad units. -/
structure Seat where
  gid : Nat
  core : Nat
  part : Nat
  asn : Nat
  units : List Nat
  deriving DecidableEq, Repr

/-- What the resolution of an element finds (R168, R170). -/
inductive Res
  | ok (loc : Loc)
  | access (detail : Nat)
  | absent (vpage size : Nat)
  | held
  deriving DecidableEq, Repr

/-- An offset of the scratchpad window in a stand's allocation (R292). -/
def padLoc (u : Seat) (off : Nat) : Option Loc :=
  match u.units[off / 4096]? with
  | some n => some (.pad u.core (n * 4096 + off % 4096))
  | none => none

/-- The delivery queue that reaches an address: 0 to 15 for the Nartex Link ports, 16 for the PCIe port (R259, R433). -/
def windowDest (s : State) (pa : Nat) : Option Nat :=
  let w := Sparse.getD s.windows (bits pa 39 12) 0
  if w.getLsbD 63 then some (bits w.toNat 0 16) else none

def routePort (s : State) (dest : Nat) : Option Nat :=
  let b := Sparse.getD s.routes dest 0
  if b.getLsbD 7 then some (bits b.toNat 0 4) else none

def portOf (s : State) (pa : Nat) : Option Nat :=
  match regionOf pa with
  | .host => some 16
  | .linked => if 0x6000000000 ≤ bits pa 0 39 then none else (windowDest s pa).bind (routePort s)
  | _ => none

/-- A page found on the TLB path, checked for a need (R170): invalid pages give detail 1, missing permissions and the
control space (R296) detail 2. -/
def checkPage (va : Nat) (need : Need) : Walk → Res
  | .invalid => .access 1
  | .resident f z p =>
    let pa := f + va % pageBytes z
    if !p.allow need then .access 2
    else if regionOf pa == .control then .access 2
    else if regionOf pa == .reserved then .access 1
    else .ok (.mem pa)
  | .absent z p => if p.allow need then .absent (vpageOf va z) z else .access 2
  | .held => .held

/-- A linked address whose window is not valid, that no route reaches, or whose offset lies beyond the HBM of a device (R434). -/
def Res.reached (s : State) : Res → Res
  | .ok (.mem pa) => if regionOf pa == .linked && (portOf s pa).isNone then .access 1 else .ok (.mem pa)
  | r => r

/-- The pages that the elements of one instruction have looked up, each by its first address, bytes and result: one lookup for each
(R315). -/
abbrev Seen := List (Nat × Nat × Walk)

/-- The bytes of the page about which a result speaks. -/
def Walk.bytes : Walk → Nat
  | .resident _ z _ => pageBytes z
  | .absent z _ => pageBytes z
  | _ => pageBytes 0

/-- The TLB path for one element of an instruction. -/
def lookUp (s : State) (u : Nat × Nat × Nat) (seen : Seen) (ea : Nat) : Walk × Seen × State :=
  match seen.find? fun e => decide (e.1 ≤ ea) && decide (ea < e.1 + e.2.1) with
  | some e => (e.2.2, seen, s)
  | none =>
    let (w, s) := translate s u.1 u.2.1 u.2.2 ea
    (w, seen ++ [(ea / w.bytes * w.bytes, w.bytes, w)], s)

/-- R168: an address in the first form through a translation register with its offset, or in the second form alone. -/
def resolveSeen (s : State) (u : Seat) (x : Option XReg) (off ea : Nat) (need : Need) (seen : Seen) : Res × Seen × State :=
  if inPadWindow ea then
    (match padLoc u (ea - padWindow) with | some l => .ok l | none => .access 4, seen, s)
  else if 2 ^ 56 ≤ ea then (.access 3, seen, s)
  else
    let fast := match x with
      | some r =>
        r.valid && decide (off < r.limit.toNat) &&
          (match need with | .rd => r.rd | .wr => r.wr | .atomic => r.atomic | .ex => false)
      | none => false
    if fast then
      let pa := ((x.map (·.pbase.toNat)).getD 0 + off) % 2 ^ 52
      (match regionOf pa with
        | .control => .access 2
        | .reserved => .access 1
        | _ => Res.reached s (.ok (.mem pa)), seen, countCore s u.core u.part 9)
    else
      let (w, seen, s) := lookUp s (u.core, u.part, u.asn) seen ea
      ((checkPage ea need w).reached s, seen, s)

/-- The resolution of one address. -/
def resolve (s : State) (u : Seat) (x : Option XReg) (off ea : Nat) (need : Need) : Res × State :=
  let (r, _, s) := resolveSeen s u x off ea need []
  (r, s)

/-- One element of a memory instruction: its number, its offset and its address (R167). -/
structure Elem where
  idx : Nat
  off : Nat
  ea : Nat
  deriving DecidableEq, Repr

/-- What the three passes of R170 decide: a trap (code, detail, address), pages to wait for, or the locations; `held` while a walk
waits for a line. -/
inductive Verdict
  | held
  | misaligned (ea : Nat)
  | access (detail ea : Nat)
  | go (locs : List (Nat × Nat × Loc)) (absent : List (Nat × Nat × Nat × Nat))
  deriving DecidableEq, Repr

/-- Resolution of every element, in order. -/
def resolveFrom (s : State) (u : Seat) (x : Option XReg) (need : Need) (seen : Seen) : List Elem → List (Elem × Res) × State
  | [] => ([], s)
  | e :: es =>
    let (r, seen, s) := resolveSeen s u x e.off e.ea need seen
    let (rs, s) := resolveFrom s u x need seen es
    ((e, r) :: rs, s)

def resolveAll (s : State) (u : Seat) (x : Option XReg) (need : Need) (es : List Elem) : List (Elem × Res) × State :=
  resolveFrom s u x need [] es

/-- The locations of the elements that have one, as element number, address and place; the elements on absent pages as number, address,
page and size. -/
def found (rs : List (Elem × Res)) : List (Nat × Nat × Loc) :=
  rs.filterMap fun (e, r) => match r with | .ok l => some (e.idx, e.ea, l) | _ => none
def notResident (rs : List (Elem × Res)) : List (Nat × Nat × Nat × Nat) :=
  rs.filterMap fun (e, r) => match r with | .absent v z => some (e.idx, e.ea, v, z) | _ => none

/-- The access pass and the residency pass of R170 over what the resolution has found, `bad` being the extra refusal of R181. -/
def judge (bad : Loc → Bool) (rs : List (Elem × Res)) : Verdict :=
  if rs.any fun e => e.2 == .held then .held
  else
    let fail := rs.findSome? fun (e, r) => match r with
      | .access d => some (d, e.ea)
      | .ok l => if bad l then some (5, e.ea) else none
      | .absent _ _ | .held => none
    match fail with
    | some (d, ea) => .access d ea
    | none => .go (found rs) (notResident rs)

/-- The three passes of R170: alignment to `align` bytes, access, residency; with what the resolution has found. -/
def checkAll (s : State) (u : Seat) (x : Option XReg) (need : Need) (align : Nat) (bad : Loc → Bool) (es : List Elem) :
    Verdict × List (Elem × Res) × State :=
  match es.find? fun e => e.ea % align != 0 with
  | some e => (.misaligned e.ea, [], s)
  | none =>
    let (rs, s) := resolveAll s u x need es
    (judge bad rs, rs, s)

def check (s : State) (u : Seat) (x : Option XReg) (need : Need) (align : Nat) (bad : Loc → Bool) (es : List Elem) :
    Verdict × State :=
  let (v, _, s) := checkAll s u x need align bad es
  (v, s)

end Sys2Proof.Machine
end

