-- ==== Sys2Proof/Machine/Trace.lean ====
section
/-! DEFINITION. The clocks and stamps (R256, R415 to R417), the hub's writes and interrupts (R394, R429), the error log
(R437), the trace ring (R422 to R424) and the performance counters (R427). -/

namespace Sys2Proof.Machine

/-- The die, cluster and scheduler places of a core number, which is its CORELOC value (R250). -/
def dieOf (core : Nat) : Nat := core / 128

/-- The hub's die, beside the compute dies 0 to 3; the die of the slice that is the home of a line (R297). -/
def hubDie : Nat := 4
def homeDie (pa : Nat) : Nat := sliceOf pa / 32
def clusterOf (core : Nat) : Nat := core / 4

/-! ### Clocks and stamps -/

/-- Device time moves with the tick at the nominal rate corrected by up to 500 ppm until the offset is spent (R416). -/
def advanceTime (s : State) (n : Nat) : State :=
  let full : Int := s.devFrac + n * s.devRate
  let adj : Int := full / 1000000
  let adj := if s.devOffset < 0 then max adj s.devOffset else min adj s.devOffset
  let left := s.devOffset - adj
  { s with
    tick := s.tick + BitVec.ofNat 64 n
    devTime := s.devTime + BitVec.ofInt 64 (n + adj)
    devFrac := if left == 0 then 0 else full - adj * 1000000
    devRate := if left == 0 then 0 else s.devRate
    devOffset := left }

def State.hlcOf (s : State) (die : Nat) : Hlc := Sparse.getD s.hlc die { pt := 0, c := 0 }

/-- The next HLC state of a die (R256). -/
def nextHlc (l : Hlc) (devTime : Word) : Hlc :=
  let pt : BitVec 48 := BitVec.ofNat 48 (devTime.toNat / 1024)
  if l.pt < pt then { pt := pt, c := 0 }
  else if l.c < 0xFFFF then { l with c := l.c + 1 }
  else { pt := l.pt + 1, c := 0 }

def Hlc.word (l : Hlc) : Word := l.pt ++ l.c

/-- Forming a stamp on a die (R256, R417). -/
def newStamp (s : State) (die : Nat) : Word × State :=
  let l := nextHlc (s.hlcOf die) s.devTime
  (l.word, { s with hlc := Sparse.insert s.hlc die l })

/-- A received stamp raises a die's state (R256). -/
def receiveStamp (s : State) (die : Nat) (w : Word) : State :=
  let l := s.hlcOf die
  if l.word < w then { s with hlc := Sparse.insert s.hlc die { pt := w.extractLsb' 16 48, c := w.extractLsb' 0 16 } } else s

/-- A message from one die to another, and the two messages of a request and its answer (R256). -/
def tell (s : State) (a b : Nat) : State := if a == b then s else receiveStamp s b (s.hlcOf a).word
def exchange (s : State) (a b : Nat) : State := tell (tell s a b) b a

/-! ### Interrupts and writes of the hub -/

/-- Raising an MSI-X vector; 0xFFFF and vectors above 2,047 raise nothing (R394, R429). -/
def raiseIrq (s : State) (vec : Nat) : State := if vec ≤ 2047 then { s with irqs := s.irqs ++ [vec] } else s

def State.queueOf (s : State) (port : Nat) : List Remote := Sparse.getD s.delivery port []

def enqueue (s : State) (port : Nat) (r : Remote) : State :=
  { s with delivery := Sparse.set s.delivery port (s.queueOf port ++ [r]) [] }

/-- As `enqueue`, for what a core or an engine beside it sends: the message carries the HLC state of its die to the hub's (R256). -/
def send (s : State) (core port : Nat) (r : Remote) : State := enqueue (tell s (dieOf core) hubDie) port r

/-- The lines that `n` bytes of a value at a location touch, in ascending order, as stores. -/
def linesFrom (l : Loc) (va n x policy : Nat) : Nat → List Store
  | 0 => []
  | k + 1 =>
    let total := x % 2 ^ (8 * n) * 2 ^ (8 * l.place)
    let mask := (2 ^ (2 * n) - 1) * 2 ^ (2 * l.place)
    let count := (l.place + n + 127) / 128
    let i := count - 1 - k
    { line := (l.base).plus (128 * i), va := va / 128 * 128 + 128 * i, data := BitVec.ofNat 1024 (bits total (1024 * i) 1024),
      mask := BitVec.ofNat 256 (bits mask (256 * i) 256), policy := policy } :: linesFrom l va n x policy k

def linesOf (l : Loc) (va n x policy : Nat) : List Store := linesFrom l va n x policy ((l.place + n + 127) / 128)

/-- The store tag of the hub's writes: no group has this number. -/
def hubTag : Nat := 2 ^ 19

/-- A write of the hub at a physical address: at device scope for HBM, through the delivery queue for a host or linked
address. -/
def hubWrite (s : State) (pa n x : Nat) : State :=
  match regionOf pa with
  | .hbm => (linesOf (.mem pa) 0 n x 1).foldl (fun s x => applyStore (tell s hubDie (homeDie x.line.key)) none x) s
  | .host | .linked =>
    match portOf s pa with
    | some p => (linesOf (.mem pa) 0 n x 1).foldl (fun s x => enqueue s p (.store 0 hubTag x)) s
    | none => s
  | _ => s

/-- A read of `n` bytes by the hub at their homes: HBM through the slices. -/
def hubRead (s : State) (pa : Nat) : Nat → Nat
  | 0 => 0
  | n + 1 => readHome s (.mem pa) 1 + 256 * hubRead s (pa + 1) n

/-! ### The error log -/

/-- An entry of the error log, and the interrupt of the partition it concerns or of the host (R437). -/
def logError (s : State) (addr src sev : Nat) (part : Option Nat) (loc : Nat) : State :=
  let (stamp, s) := newStamp s hubDie
  let info := src + sev * 2 ^ 8 + (part.getD 0 % 8) * 2 ^ 10 + (loc % 2 ^ 16) * 2 ^ 16
  let e : LogEntry := { tick := s.tick, hlc := stamp, addr := BitVec.ofNat 64 (addr % 2 ^ 52), info := BitVec.ofNat 64 info }
  let h := s.host
  if h.elprod - h.elcons == 1024 then
    { s with host := { h with ellost := if h.ellost == BitVec.allOnes 64 then h.ellost else h.ellost + 1 } }
  else
    let s := { s with errorLog := Sparse.insert s.errorLog (h.elprod.toNat % 1024) e, host := { h with elprod := h.elprod + 1 } }
    match part.bind s.part? with
    | some p => raiseIrq s (bits p.perrvec.toNat 0 16)
    | none => raiseIrq s h.herrvec.toNat

/-! ### Performance counters -/

/-- Counting an event of a field: 0 gate steps, 1 retries, 2 skipped steps, 3 cycles held by the governor (R427). -/
def countField (s : State) (cluster k n : Nat) : State :=
  let c := s.cluster cluster
  s.setCluster cluster { c with pm := Sparse.set c.pm k (Sparse.getD c.pm k 0 + BitVec.ofNat 64 n) 0 }

/-! ### Trace records -/

def State.setPart (s : State) (p : Nat) (x : Partition) : State := { s with parts := Sparse.insert s.parts p x }
def Partition.setDebug (p : Partition) (d : DebugPage) : Partition := { p with dbg := d }

/-- The fields of a record that are common to all kinds (R423). -/
structure Record where
  kind : Nat
  core : Nat
  slot : Nat
  sched : Nat
  pcs : Bool
  aux : Nat
  reason : Nat
  word : Nat
  extra : List Nat
  deriving DecidableEq, Repr

def Record.info (r : Record) (aux : Nat) : Nat :=
  r.kind + (r.core % 512) * 2 ^ 8 + (r.slot % 64) * 2 ^ 17 + (r.sched % 4) * 2 ^ 23 + (if r.pcs then 2 ^ 25 else 0) +
    (if r.kind == 1 && r.reason == 0 then 2 ^ 26 else 0) + (r.reason % 32) * 2 ^ 27 + (aux % 2 ^ 32) * 2 ^ 32

/-- The ring's size in bytes, if TRSIZE names one (R418). -/
def ringBytes (d : DebugPage) : Option Nat :=
  let l := bits d.trsize.toNat 0 5
  if 16 ≤ l ∧ l ≤ 30 then some (2 ^ l) else none

/-- Bytes that may be written before the consumer offset is passed, one place staying free. -/
def ringRoom (d : DebugPage) (size : Nat) : Nat :=
  (d.trcons.toNat % size + size - d.trprod.toNat - 1) % size

/-- Writing the words of one record whole at TRPROD (R422). -/
def putRecord (s : State) (part : Nat) (words : List Nat) : State :=
  match s.part? part with
  | none => s
  | some p =>
    match ringBytes p.dbg with
    | none => s
    | some size =>
      let d := p.dbg
      let base := bits d.trbase.toNat 12 40 * 4096
      let n := 8 * words.length
      let at0 := if size < d.trprod.toNat + n then 0 else d.trprod.toNat
      let s := if at0 == 0 && d.trprod != 0 then hubWrite s (base + d.trprod.toNat) (size - d.trprod.toNat) 0 else s
      let s := (List.range words.length).foldl (fun s i => hubWrite s (base + at0 + 8 * i) 8 (words.getD i 0)) s
      s.setPart part (p.setDebug { d with trprod := BitVec.ofNat 64 ((at0 + n) % size), lostSince := 0 })

/-- Bytes a record takes at the present TRPROD, those it skips at the ring's end included. -/
def recordCost (d : DebugPage) (size n : Nat) : Nat :=
  if size < d.trprod.toNat + n then size - d.trprod.toNat + n else n

/-- Dropping a record: TRLOST counts it, and so does the LOST record that is due from then on (R422). -/
def dropRecord (s : State) (part : Nat) : State :=
  let up (x : Word) : Word := if x == BitVec.allOnes 64 then x else x + 1
  { s with parts := Sparse.modify s.parts part fun p => p.setDebug { p.dbg with trlost := up p.dbg.trlost, lostSince := up p.dbg.lostSince } }

/-- A record whole at TRPROD, with a stamp of its own, whose forming advances L (R417). -/
def stampRecord (s : State) (part : Nat) (r : Record) : State :=
  let (stamp, s) := newStamp s (dieOf r.core)
  putRecord s part ([s.tick.toNat, stamp.toNat, r.info r.aux, r.word] ++ r.extra)

/-- Bytes that a record of so many takes, with the LOST record that is due before it: that one moves TRPROD first. -/
def traceCost (d : DebugPage) (size n : Nat) : Nat :=
  if d.lostSince == 0 then recordCost d size n
  else 32 + recordCost { d with trprod := BitVec.ofNat 64 ((d.trprod.toNat + 32) % size) } size n

/-- Writing a record of a partition, with the LOST record that is due before it, or dropping it (R422). -/
def trace (s : State) (part : Nat) (r : Record) : State :=
  match s.part? part with
  | none => s
  | some p =>
    let d := p.dbg
    if !d.trctl.getLsbD 0 then s
    else
      match ringBytes d with
      | none => s
      | some size =>
        if ringRoom d size < traceCost d size (8 * (4 + r.extra.length)) then dropRecord s part
        else
          let lost : Record := { r with kind := 8, aux := min d.lostSince.toNat (2 ^ 32 - 1), reason := 0, word := 0, extra := [] }
          stampRecord (if d.lostSince == 0 then s else stampRecord s part lost) part r

/-- Whether SEL covers a group (R418). -/
def selCovers (d : DebugPage) (core slot : Nat) : Bool :=
  match bits d.trctl.toNat 4 2 with
  | 0 => true
  | 1 => bits d.trctl.toNat 16 9 == core
  | 2 => bits d.trctl.toNat 16 9 == core && bits d.trctl.toNat 25 6 == slot
  | _ => false

/-- Whether a bit of TRCTL is set with ON and SEL covers the group: 1 INSTR, 2 ENG, 3 TRAPS (R418, R424). -/
def traceOn (s : State) (part core slot bit : Nat) : Bool :=
  match s.part? part with
  | none => false
  | some p => p.dbg.trctl.getLsbD 0 && p.dbg.trctl.getLsbD bit && selCovers p.dbg core slot

/-- A record about a group. -/
def groupRecord (gid : Nat) (g : Group) (kind : Nat) (pcs : Bool) (aux word : Nat) : Record :=
  { kind := kind, core := gid / 64, slot := gid % 64, sched := g.sched, pcs := pcs, aux := aux, reason := 0, word := word,
    extra := [] }

/-- Whether the latest record of a partition has been dropped. -/
def justDropped (s : State) (part : Nat) : Bool := ((s.part? part).map fun p => p.dbg.lostSince != 0).getD false

/-- R424: at each run's issue a traced group writes a RUN record, preceded when due by a SYNC. Where that is dropped the RUN is dropped with it,
and a SYNC stays due (R428). -/
def traceRun (s : State) (part gid : Nat) (g : Group) (slotB : Bool) (head : Nat) : State × Bool × Nat :=
  if !traceOn s part (gid / 64) (gid % 64) 1 then (s, false, 256)
  else
    let due := !g.tracing || decide (256 ≤ g.sinceSync)
    let sync : Record := { groupRecord gid g 3 slotB g.slotA.st.mask.toNat g.slotA.st.pc.toNat with
      extra := [g.slotB.st.mask.toNat + (if g.slotA.st.live then 2 ^ 32 else 0) + (if g.slotB.st.live then 2 ^ 33 else 0) +
        g.dsp.toNat * 2 ^ 40, g.slotB.st.pc.toNat, g.snap.head.toNat, g.rcv.toNat] }
    let s := if due then trace s part sync else s
    if due && justDropped s part then (dropRecord s part, false, 256)
    else
    let mask := if slotB then g.slotB.st.mask else g.slotA.st.mask
    let s := trace s part (groupRecord gid g 4 slotB mask.toNat head)
    (s, true, if due then 1 else g.sinceSync + 1)

end Sys2Proof.Machine
end

