-- ==== Sys2Proof/Machine/Barrier.lean ====
section
/-! DEFINITION. Barrier scopes, arrivals and generations (R109, R110). -/

namespace Sys2Proof.Machine

/-- The part of a group's number that its fields `k` to P − 1 form: the scope of a level (R22, R23). -/
def scopeNumber (widths : List Nat) (number level : Nat) : Nat :=
  number / 2 ^ (((widths.drop 1).take (level - 1)).foldl (· + ·) 0)

/-- The scope of a group at a level: at level 1 the group alone (R109). -/
def scopeOf (widths : List Nat) (gid number level : Nat) : Nat :=
  if level ≤ 1 then gid else scopeNumber widths number level

/-- The generation of a slot's latest arrival at a level (R109). -/
def Group.arrivedAt (g : Group) (level : Nat) (slotB : Bool) : Option Nat :=
  (g.arrived.find? fun a => a.level == level && a.slotB == slotB).map (·.gen)

/-- The generation of the group's latest arrival at a level (R110), those of slot states on the divergence stack included. -/
def Group.latest (g : Group) (level : Nat) : Option Nat :=
  ((g.arrived ++ g.held.flatMap (·.arrived)).filter (·.level == level)).foldl (fun m a => some (max a.gen (m.getD 0))) none

def Group.setArrived (g : Group) (level : Nat) (slotB : Bool) (gen : Nat) : Group :=
  { g with arrived := (g.arrived.filter fun a => !(a.level == level && a.slotB == slotB)) ++
      [{ level := level, slotB := slotB, gen := gen }] }

/-- Whether every slot of a group that is live has arrived at a generation (R109). -/
def Group.allArrived (g : Group) (level gen : Nat) : Bool :=
  (!g.slotA.st.live || g.arrivedAt level false == some gen) && (!g.slotB.st.live || g.arrivedAt level true == some gen) &&
    g.latest level == some gen

/-- Whether a group is out of a barrier's count: retired, or arrived at the open generation. -/
def arrivedGroup (s : State) (b : Barrier) (gid : Nat) : Bool :=
  match Sparse.find? s.groups gid with
  | none => true
  | some g => g.retired || g.allArrived b.level b.gen

/-- Bringing a barrier up to date: members that have arrived or retired leave the missing set; an empty set completes the
generation and opens the next one with the groups of the scope that have not retired (R109). -/
def settleBarrier (s : State) (members : List Nat) (b : Barrier) : Nat → Barrier
  | 0 => b
  | n + 1 =>
    let missing := b.missing.filter fun g => !arrivedGroup s b g
    if !missing.isEmpty || b.members.isEmpty then { b with missing := missing }
    else settleBarrier s members { b with gen := b.gen + 1, members := members, missing := members } n

/-- The groups of a stand in a scope that have not retired. -/
def scopeMembers (s : State) (st : Stand) (widths : List Nat) (level scope : Nat) : List Nat :=
  st.groups.filter fun gid =>
    match Sparse.find? s.groups gid with
    | some g => !g.retired && scopeOf widths gid g.number level == scope
    | none => false

/-- Bringing every barrier of a stand up to date. -/
def settleBarriers (s : State) (stand : Nat) : State :=
  match s.stand? stand with
  | none => s
  | some st =>
    match s.launch? st.launch with
    | none => s
    | some la =>
      let bs := st.barriers.map fun b => settleBarrier s (scopeMembers s st la.widths b.level b.scope) b 2
      { s with stands := Sparse.insert s.stands stand { st with barriers := bs } }

/-- The barrier of a group at a level. -/
def barrierOf (st : Stand) (widths : List Nat) (gid : Nat) (g : Group) (level : Nat) : Option Barrier :=
  st.barriers.find? fun b => b.level == level && b.scope == scopeOf widths gid g.number level

/-- One arrival of a slot (R109): without effect while its earlier arrival's generation is open; a group outside the open
generation arrives at the next one. -/
def arriveSlot (s : State) (gid : Nat) (slotB : Bool) (level : Nat) : State :=
  match Sparse.find? s.groups gid with
  | none => s
  | some g =>
    match s.stand? g.stand with
    | none => s
    | some st =>
      match s.launch? st.launch with
      | none => s
      | some la =>
        match barrierOf st la.widths gid g level with
        | none => s
        | some b =>
          let gen := if b.members.contains gid then b.gen else b.gen + 1
          match g.arrivedAt level slotB with
          | some old =>
            if b.gen ≤ old then s
            else settleBarriers { s with groups := Sparse.insert s.groups gid (g.setArrived level slotB gen) } g.stand
          | none => settleBarriers { s with groups := Sparse.insert s.groups gid (g.setArrived level slotB gen) } g.stand

/-- Whether the generation that a wait names is still open (R110). -/
def barrierOpen (s : State) (gid : Nat) (g : Group) (level gen : Nat) : Bool :=
  match s.stand? g.stand with
  | none => false
  | some st =>
    match s.launch? st.launch with
    | none => false
    | some la =>
      match barrierOf st la.widths gid g level with
      | none => false
      | some b => decide (b.gen ≤ gen)

/-- The barriers of a group that joins a stand: at level 1 a scope of its own (R109). -/
def ownBarrier (gid : Nat) : Barrier := { level := 1, scope := gid, gen := 0, members := [gid], missing := [gid] }

end Sys2Proof.Machine
end

