-- ==== Sys2Proof/Machine/Flags.lean ====
section
/-! DEFINITION. What travels beside a value: which elements are active (R19), the elected lane (R16), the shape tag of a
result (R15, R124), and the predicate bits that a comparison writes (R121, R132). -/

namespace Sys2Proof.Machine

/-- R19: the bits of a predicate register; p0 reads as all ones. -/
def predBits (p : Fin 16) (x : PredBits) : PredBits := if p.val == 0 then BitVec.allOnes 256 else x

/-- What decides activity: the issuing slot's mask, and the governing predicate with its inversion (R19). -/
structure Guard where
  mask : BitVec 32
  pred : PredBits
  pn : Bool
  deriving DecidableEq, Repr

/-- Whether predicate bit `i`, of lane `i / 8`, is active (R127). -/
def Guard.bit (g : Guard) (i : Nat) : Bool := g.mask.getLsbD (i / 8) && (g.pred.getLsbD i != g.pn)

/-- Whether element `e` of width `w` is active (R19). -/
def Guard.active (g : Guard) (w e : Nat) : Bool := g.bit (predIndex w e)

/-- Whether a lane is active: its bit in the mask, and its byte-0 predicate bit (R148, R152). -/
def Guard.lane (g : Guard) (l : Nat) : Bool := g.bit (8 * l)

/-- The elected lane (R16): a lane is active when byte 0 of its predicate is set (DEDUCED: R19 gives an element of 64 bits that byte). -/
def Guard.elected (g : Guard) : Option Nat := (List.range 32).find? g.lane

/-- Whether every element of width `w` is active, so that no lane keeps an old value (R15, rule 1). -/
def Guard.all (g : Guard) (w : Nat) : Bool := (List.range (elemCount w)).all (g.active w)

/-- Whether every lane is active. -/
def Guard.allLanes (g : Guard) : Bool := (List.range 32).all g.lane

/-- R15, rules 1, 3 and 5: the tag of a result without a table of its own. -/
def tagOf (whole : Bool) (srcs : List Tag) : Tag :=
  if !whole then .g else if srcs.all (· == .u) then .u else .g

/-- R15, rules 1 to 5 for ADD, with FMT b64: A + U and U + A are A. -/
def tagAdd (whole b64 : Bool) (a b : Tag) : Tag :=
  if whole && b64 && ((a == .a && b == .u) || (a == .u && b == .a)) then .a else tagOf whole [a, b]

/-- R15 for SUB: A − U and U − A are A. -/
def tagSub (whole b64 : Bool) (a b : Tag) : Tag := tagAdd whole b64 a b

/-- R15 for MUL: A × U and U × A are A. -/
def tagMul (whole b64 : Bool) (a b : Tag) : Tag := tagAdd whole b64 a b

/-- R15 for SHL: A shifted by U, the amount below 64, is A. -/
def tagShl (whole b64 : Bool) (a b : Tag) (amount : Nat) : Tag :=
  if whole && b64 && a == .a && b == .u && decide (amount < 64) then .a else tagOf whole [a, b]

/-- R15, rule 2: a move gives the source's tag. -/
def tagMov (whole : Bool) (a : Tag) : Tag := if whole then a else .g

/-- Base and stride of an affine value (R14). -/
def affineBase (v : Lanes) : Nat := lane v 0
def affineStride (v : Lanes) : Nat := (lane v 1 + 2 ^ 64 - lane v 0) % 2 ^ 64

/-- R124: LEA is A when A and B are U or A and C is U; a stride of 0 makes it U. -/
def tagLea (whole : Bool) (a b c : Tag) (result : Lanes) : Tag :=
  if !whole then .g
  else if a == .u && b == .u && c == .u then .u
  else if a != .g && b != .g && c == .u then (if affineStride result == 0 then .u else .a)
  else .g

/-- R124: IDX with FMT 0, A and B both U, is A; every other IDX is G. -/
def tagIdx (whole b64 : Bool) (a b : Tag) : Tag :=
  if whole && b64 && a == .u && b == .u then .a else .g

/-- R16, R15 rule 1: an instruction said to write a U value writes tag U only when every lane is written. -/
def tagU (whole : Bool) : Tag := if whole then .u else .g

/-- The elementwise result: element `e` is `f e` where it is active and the old element otherwise (R115). -/
def mapActive (g : Guard) (w : Nat) (old : Lanes) (f : Nat → Nat) : Lanes :=
  ofElems w fun e => if g.active w e then f e else elem old w e

/-- R121: the result of each active element goes to every predicate bit of its bytes, other bits stay. -/
def mapPred (g : Guard) (w : Nat) (old : PredBits) (f : Nat → Bool) : PredBits :=
  ofPred fun i =>
    let e := 8 * i / w
    if g.active w e then f e else old.getLsbD i

/-- The condition of CMP (R121) on two values. -/
def intCmp (cc : Nat) (a b : Int) : Bool :=
  match cc with
  | 0 => decide (a = b)
  | 1 => decide (a ≠ b)
  | 2 => decide (a < b)
  | 3 => decide (a ≤ b)
  | 4 => decide (b < a)
  | _ => decide (b ≤ a)

end Sys2Proof.Machine
end

