-- ==== Sys2Proof/Machine/Operands.lean ====
section
/-! DEFINITION. Reading operands inside a run: every specifier of R9, the buffer copies of the working set (R27), the
constants of R11, empty registers (R18), and the shared operation that runs an instruction on the issuing group. -/

namespace Sys2Proof.Machine

/-- A value read, with its tag (R9, R14). -/
structure Src where
  val : Lanes
  tag : Tag
  deriving DecidableEq, Repr

/-- The main-file copies of a group's registers. -/
def Group.vreg (g : Group) (n : Nat) : VReg := Sparse.getD g.v n .launch
def Group.preg (g : Group) (n : Nat) : PReg := Sparse.getD g.p n .launch
def Group.mreg (g : Group) (n : Nat) : MReg := Sparse.getD g.m n .launch
def Group.xreg (g : Group) (n : Nat) : XReg := Sparse.getD g.x n .launch

def Group.setV (g : Group) (n : Nat) (r : VReg) : Group := { g with v := Sparse.set g.v n r .launch }
def Group.setP (g : Group) (n : Nat) (r : PReg) : Group := { g with p := Sparse.set g.p n r .launch }
def Group.setM (g : Group) (n : Nat) (r : MReg) : Group := { g with m := Sparse.set g.m n r .launch }
def Group.setX (g : Group) (n : Nat) (r : XReg) : Group := { g with x := Sparse.set g.x n r .launch }

/-- The predicate that a specifier p*n* reads (R19). -/
def Group.pred (g : Group) (n : Fin 16) : PredBits := predBits n (g.preg n.val).val

/-- A slot of a group: A, or B. -/
def Group.slot (g : Group) (b : Bool) : Slot := if b then g.slotB else g.slotA
def Group.setSlot (g : Group) (b : Bool) (s : Slot) : Group :=
  if b then { g with slotB := s } else { g with slotA := s }

/-- Whether a v register belongs to the run's working set (R27). -/
def Run.inSet (r : Run) (n : Nat) : Bool := r.ws.getLsbD n

/-- The buffer copy of a register, the temporaries (R13, R27). -/
def Run.copy (r : Run) (n : Nat) : Copy := Sparse.getD r.buf n .zero
def Run.temp (r : Run) (n : Nat) : Copy := Sparse.getD r.temps n .zero

/-- Field `k` of the work identifier (R22): fields lowest first, of the launch's widths. -/
def widField (wid : Word) (widths : List Nat) (k : Nat) : Nat :=
  bits wid.toNat ((widths.take k).foldl (· + ·) 0) (widths.getD k 0)

/-- What the group's launch fixes of its operands. -/
structure Env where
  widths : List Nat
  deriving DecidableEq, Repr

/-- The value 0 to 31 in lanes 0 to 31 (vlane and w0 of R9). -/
def laneIndex : Lanes := ofElems 64 fun l => l

/-- R11: vsub for an element width: sub-element `s` equals `s`; 0 for b64. -/
def subIndex (w : Nat) : Lanes := ofElems w fun e => if w == 64 then 0 else e % (64 / w)

/-- The 64-bit value of an inline constant (R9). -/
def immWord (k : BitVec 7) : Word := k.setWidth 64 - 64

/-- R11: the element that a 64-bit constant gives to a format: the low bits of an integer element; for a float element
the signed value rounded to nearest even and saturated to the largest finite value. -/
def constElem (f : Fmt) (x : Nat) : Nat :=
  match floatFmt f with
  | some ff =>
    let v := signedOf 64 x
    let c := ff.ofVal .ieee 0 (Val.ofInt v)
    if ff.isInf c || ff.isNaN c then ff.signed (decide (v < 0)) ff.maxFinite else c
  | none => x % 2 ^ f.width

/-- A constant read as elements of a format, or raw (R11). -/
def constLanes (asFmt : Option Fmt) (x : Nat) : Lanes :=
  match asFmt with
  | some f => ofElems f.width fun _ => constElem f x
  | none => splat x

/-- The value of a specifier. `asFmt` is the element format in which constants are read, `none` for an operand that is
read as an integer (R11); `w` is the width of the instruction's FMT, which vsub follows. -/
def readSpec (env : Env) (g : Group) (r : Run) (ext : Option Word) (w : Nat) (asFmt : Option Fmt) : Spec → Src
  | .v n => if r.inSet n.val then ⟨(r.copy n.val).val, (r.copy n.val).tag⟩ else ⟨(g.vreg n.val).val, (g.vreg n.val).tag⟩
  | .t n => ⟨(r.temp n.val).val, (r.temp n.val).tag⟩
  | .w n => if n.val == 0 then ⟨laneIndex, .a⟩ else ⟨splat (widField g.wid env.widths n.val), .u⟩
  | .vlane => ⟨laneIndex, .a⟩
  | .vsub => ⟨subIndex w, .u⟩
  | .vz => ⟨0, .u⟩
  | .ext => ⟨constLanes asFmt (ext.getD 0).toNat, .u⟩
  | .imm k => ⟨constLanes asFmt (immWord k).toNat, .u⟩
  | .p _ | .m _ | .x _ => ⟨0, .u⟩

/-- The value of an operand; an unused operand reads as zero. -/
def readOpnd (env : Env) (g : Group) (r : Run) (ext : Option Word) (w : Nat) (asFmt : Option Fmt) : Opnd → Src
  | .reg s => readSpec env g r ext w asFmt s
  | _ => ⟨0, .u⟩

/-- The register number that an operand names, whatever its class. -/
def Opnd.num : Opnd → Nat
  | .reg (.v n) => n.val
  | .reg (.t n) => n.val
  | .reg (.p n) => n.val
  | .reg (.m n) => n.val
  | .reg (.x n) => n.val
  | .raw b => b.toNat
  | _ => 0

/-- The predicate that an operand names. -/
def readPred (g : Group) : Opnd → PredBits
  | .reg (.p n) => g.pred n
  | _ => 0

/-- Whether an operand is a register that is empty (R17): a main-file v register outside the working set, a p or an m
register. -/
def isEmpty (g : Group) (r : Run) : Opnd → Bool
  | .reg (.v n) => !r.inSet n.val && !(g.vreg n.val).full
  | .reg (.p n) => n.val != 0 && !(g.preg n.val).full
  | .reg (.m n) => !(g.mreg n.val).full
  | _ => false

/-- What reading the sources finds (R18): all full, a stall in place, or the empty-read trap with a specifier. -/
inductive Ready
  | go
  | stall
  | trap (spec : Nat)
  deriving DecidableEq, Repr

/-- The first empty source, in the order A, B, C, decides (R18). -/
def readyOf (g : Group) (r : Run) : List (Opnd × Bool) → Ready
  | [] => .go
  | (o, mode) :: rest =>
    if isEmpty g r o then (if mode then .trap o.toByte else .stall) else readyOf g r rest

/-- The governing predicate of an instruction, with the issuing slot's mask (R19). -/
def guardOf (g : Group) (r : Run) (o : Ops) : Guard :=
  { mask := (g.slot r.slotB).st.mask, pred := g.pred o.pred, pn := o.pn }

/-- R18, for the governing predicate and the sources A, B and C; a governing predicate that is empty blocks (DEDUCED). -/
def readyOps (g : Group) (r : Run) (o : Ops) : Ready :=
  readyOf g r [(.reg (.p o.pred), false), (o.a, o.ea), (o.b, o.eb), (o.c, o.ec)]

/-- The current value of a buffered destination (R27): the buffer copy or the temporary. -/
def oldDest (r : Run) : Opnd → Copy
  | .reg (.v n) => r.copy n.val
  | .reg (.t n) => r.temp n.val
  | _ => .zero

/-- A write to a buffered destination: the buffer copy of a working-set register, whose publication it restores (R29),
or a temporary. -/
def writeDest (r : Run) (d : Opnd) (c : Copy) : Run :=
  match d with
  | .reg (.v n) => { r with buf := Sparse.set r.buf n.val c .zero, withdrawn := r.withdrawn &&& ~~~((1 : Word) <<< n.val) }
  | .reg (.t n) => { r with temps := Sparse.set r.temps n.val c .zero }
  | _ => r

/-- A direct predicate write: p0 is never written, the register is set full (R27, R114). -/
def writePred (g : Group) (d : Opnd) (x : PredBits) : Group :=
  match d with
  | .reg (.p n) => if n.val == 0 then g else g.setP n.val { val := x, full := true }
  | _ => g

end Sys2Proof.Machine
end

