-- ==== Sys2Proof/Machine/Ops.lean ====
section
/-! DEFINITION. The operations that the meanings share: the group in issue, its stores and the lines it reads, discards,
taking an exception and returning from one (R33 to R37, R253 to R255), stand ends and kills (R339, R340), page requests
and parking (R317 to R320), fences (R267), transaction aborts (R192) and completion words (R189). -/

namespace Sys2Proof.Machine

/-! ### The group in issue -/

/-- The issuing group with its run, stand and launch. -/
structure Ctx where
  gid : Nat
  g : Group
  r : Run
  st : Stand
  la : Launch
  deriving DecidableEq, Repr

def Ctx.core (c : Ctx) : Nat := c.gid / 64
def Ctx.place (c : Ctx) : Nat := c.gid % 64
def Ctx.env (c : Ctx) : Env := { widths := c.la.widths }
def Ctx.seat (c : Ctx) : Seat := { gid := c.gid, core := c.core, part := c.st.part, asn := c.la.asn, units := c.st.units }

/-- A group with its stand and launch, whether or not a run of it is in issue. -/
def seatOf (s : State) (gid : Nat) : Option (Group × Stand × Launch) :=
  match Sparse.find? s.groups gid with
  | none => none
  | some g =>
    match s.stand? g.stand with
    | none => none
    | some st => (s.launch? st.launch).map fun la => (g, st, la)

/-- The issuing group of a state, if a run of it is in issue. -/
def running (s : State) : Option Ctx :=
  match s.issuer with
  | none => none
  | some gid =>
    match seatOf s gid with
    | none => none
    | some (g, st, la) => g.run.map fun r => { gid := gid, g := g, r := r, st := st, la := la }

def State.putGroup (s : State) (gid : Nat) (g : Group) : State := { s with groups := Sparse.insert s.groups gid g }
def State.modGroup (s : State) (gid : Nat) (f : Group → Group) : State := { s with groups := Sparse.modify s.groups gid f }
def State.putStand (s : State) (n : Nat) (x : Stand) : State := { s with stands := Sparse.insert s.stands n x }
def State.modStand (s : State) (n : Nat) (f : Stand → Stand) : State := { s with stands := Sparse.modify s.stands n f }

/-- The words that an instruction takes (R77). -/
def opWords (o : Ops) : Nat := if o.ext.isSome then 2 else 1

/-- The state in which a run stands behind the instruction just executed. -/
def Run.after (r : Run) (n : Nat) : Run := { r with pos := r.pos + n, stage := 0 }

/-- The run, its instruction standing in place for an answer (R201, R218, R381). -/
def Run.await (r : Run) (query : Nat) : Run := { r with stage := 3, query := query }

/-- Replacing the issuing group, its run being `r`. -/
def Ctx.put (c : Ctx) (s : State) (g : Group) (r : Run) : State := s.putGroup c.gid { g with run := some r }

/-- Going on after an instruction of `n` words, with the issuing group changed. -/
def Ctx.next (c : Ctx) (s : State) (g : Group) (n : Nat) : State := c.put s g (c.r.after n)

/-- A step of the issuing group: without one the model stops. -/
def withRun (s : State) (f : Ctx → State) : Host.Outcome State Fault Refusal :=
  match running s with
  | none => .fault .noIssuer
  | some c => .next (f c)

/-! ### Stores and the lines that a group reads -/

/-- Appending stores to a group's FIFO (R261). -/
def pushFifo (s : State) (gid : Nat) (xs : List Store) : State := s.modGroup gid fun g => { g with fifo := g.fifo ++ xs }

/-- The store-queue entries of a core (R289), those of groups that have returned their places included. -/
def queueEntries (s : State) (core : Nat) : Nat :=
  (s.groups.filter fun e => e.1 / 64 == core).foldl (fun n e => n + e.2.fifo.length)
    ((s.core core).orphans.foldl (fun n e => n + e.2.length) 0)

/-- Stores that find room enter, at most 16 of a group and 256 of a core (R295); the others are left. -/
def enterStores (s : State) (gid : Nat) (xs : List Store) : List Store × State :=
  match Sparse.find? s.groups gid with
  | none => ([], s)
  | some g =>
    let room := min (16 - g.fifo.length) (256 - queueEntries s (gid / 64))
    (xs.drop room, pushFifo s gid (xs.take room))

/-- Whether lines of an access are still to be read or performed (R260). -/
def Access.pending (a : Access) : Bool := !a.todo.isEmpty || !a.unread.isEmpty

/-- Whether every earlier load of a group has been performed (R260). -/
def loadsPerformed (g : Group) : Bool := g.accs.all fun a => !a.pending

/-- The stores of a trap entry that find room enter the FIFO, after the earlier loads of the group (R253, R260, R295). -/
def enterSaving (s : State) (gid : Nat) : State :=
  match Sparse.find? s.groups gid with
  | none => s
  | some g =>
    if g.saving.isEmpty || !loadsPerformed g then s
    else
      let (rest, s) := enterStores s gid g.saving
      s.modGroup gid fun g => { g with saving := rest }

/-- The stores of a list to one line, over a line, oldest first; and the nibbles they cover. -/
def overlay (d : LineBits) (l : Loc) (xs : List Store) : LineBits :=
  xs.foldl (fun d x => if x.line == l then mergeLine d x.data x.mask else d) d

def coverage (l : Loc) (xs : List Store) : BitVec 256 :=
  xs.foldl (fun m x => if x.line == l then m ||| x.mask else m) 0

/-- The stores that a load of a group finds before any copy or home (R265), oldest first: the core's CVP, the group's
FIFO, and inside a transaction its write set (R192). -/
def pendingStores (s : State) (gid : Nat) : List Store :=
  match Sparse.find? s.groups gid with
  | none => []
  | some g =>
    ((s.core (gid / 64)).cvp.map (·.store)) ++ g.fifo ++ (match g.txn with | some t => t.writes | none => [])

/-- Whether a load under a policy may read and install L1 copies (R171): .ca and .ev. -/
def usesL1 (policy : Nat) : Bool := policy == 0 || policy == 2

/-- Whether a load of some nibbles of a line reads the home (R265); every load of an open transaction does (R192). -/
def readsHome (s : State) (gid policy : Nat) (l : Loc) (need : BitVec 256) : Bool :=
  match l with
  | .pad _ _ => false
  | .mem pa =>
    let txn := ((Sparse.find? s.groups gid).map (·.txn.isSome)).getD false
    if txn then true
    else if need &&& ~~~(coverage l (pendingStores s gid)) == 0 then false
    else if !usesL1 policy then true
    else
      match Sparse.find? (s.core (gid / 64)).l1 pa with
      | some (.valid _ _ _ _) => false
      | _ => true

/-- The valid copies of a core's L1: line, whether it is to go first, and latest use. -/
def validCopies (c : Core) : List (Nat × Bool × Nat) := c.l1.filterMap fun e => match e.2 with
  | .valid _ _ early used => some (e.1, early, used)
  | .fill _ _ _ => none

/-- Replacement in the set of a new copy until it fits its 8 ways (R293): copies that are to go first, else any but the one used last
(pseudo-LRU, of which no more is stated), which of them is free. Eight copies or fewer fit whatever their sets. -/
def l1Room (s : State) (core line : Nat) : Nat → State
  | 0 => s
  | n + 1 =>
    let c := s.core core
    let sets := l1Sets s core
    let valid := validCopies c
    let mine := if valid.length ≤ 8 then [] else valid.filter fun e => Config.l1Set e.1 % sets == Config.l1Set line % sets
    if mine.length ≤ 8 then s
    else
      let others := mine.filter fun e => e.1 != line
      let early := others.filter fun e => e.2.1
      let latest := others.foldl (fun n e => max n e.2.2) 0
      let pool := if early.isEmpty then others.filter fun e => e.2.2 != latest else early
      let (k, s) := s.free
      match pool[k % pool.length]? with
      | none => s
      | some e => l1Room (s.setCore core { c with l1 := Sparse.erase c.l1 e.1 }) core line n

/-- A copy enters a core's L1 (R293, R294): the home's bytes with the core's CVP entries. -/
def l1Install (s : State) (core line : Nat) (d : LineBits) (early : Bool) : State :=
  let (n, s) := s.useNo
  let c := s.core core
  let x := overlay d (.mem line) (c.cvp.map (·.store))
  l1Room (s.setCore core { c with l1 := Sparse.insert c.l1 line (.valid x s.tick.toNat early n) }) core line 64

/-- A valid copy of a core takes a line's value, overlaid with what the core has drained (R265, R294); one of a poisoned line goes. -/
def updateCopy (s : State) (core pa : Nat) (d : LineBits) : State :=
  let c := s.core core
  match Sparse.find? c.l1 pa with
  | some (.valid _ t e n) =>
    if s.poisoned.contains pa then s.setCore core { c with l1 := Sparse.erase c.l1 pa }
    else s.setCore core { c with l1 := Sparse.insert c.l1 pa (.valid (overlay d (.mem pa) (c.cvp.map (·.store))) t e n) }
  | _ => s

/-- A load under a policy is served from a copy: one used otherwise than under .ev does not go first any more. -/
def useCopy (s : State) (core line policy : Nat) : State :=
  match Sparse.find? (s.core core).l1 line with
  | some (.valid d t e _) =>
    let (n, s) := s.useNo
    let c := s.core core
    s.setCore core { c with l1 := Sparse.insert c.l1 line (.valid d t (e && policy == 2) n) }
  | _ => s

/-- A home read by a core: the line's value, its HBM request, and the L1 copy updated, or installed by a fill (R265,
R293). -/
def homeReadL1 (s : State) (core pa policy : Nat) (install : Bool) : LineBits × List Nat × State :=
  let s := exchange s (dieOf core) (homeDie pa)
  let (d, reqs, s) := homeRead s pa policy
  let c := s.core core
  let s := if install && usesL1 policy && (Sparse.find? c.l1 pa).isNone then
      s.setCore core { c with l1 := Sparse.insert c.l1 pa (.fill false (policy == 2) reqs.head?) }
    else s
  (d, reqs, updateCopy s core pa d)

/-- The value of a line for a load of a group (R265), the requests it makes, and the state: L1 copies, the L2 slice and a
transaction's read set change; a transaction ignores the policy (R192). -/
def loadLine (s : State) (gid policy : Nat) (l : Loc) (need : BitVec 256) : LineBits × List Nat × State :=
  let pend := pendingStores s gid
  match l with
  | .pad c o => (overlay (lineAt s.pads (padAddr c o)) l pend, [], s)
  | .mem pa =>
    let core := gid / 64
    let part := (partOfCore s core).getD 0
    if readsHome s gid policy l need then
      let txn := ((Sparse.find? s.groups gid).bind (·.txn)).isSome
      let s := if usesL1 policy && !txn then countCore s core part 7 else s
      let (d, reqs, s) := homeReadL1 s core pa (if txn then 1 else policy) (!txn)
      (overlay d l pend, reqs, s)
    else
      match Sparse.find? (s.core core).l1 pa with
      | some (.valid d _ _ _) => (overlay d l pend, [], if usesL1 policy then useCopy (countCore s core part 6) core pa policy else s)
      | _ => (overlay 0 l pend, [], s)

/-! ### The system area (R331) -/

/-- The address of a byte of a group's 16 KiB. -/
def areaAddress (s : State) (gid : Nat) (st : Stand) (off : Nat) : Nat :=
  (((s.part? st.part).map (·.sysarea)).getD 0 + (gid / 64 * 64 + gid % 64) * 16384 + off) % 2 ^ 56

/-- What looking for a place of the system area gives: it lies on a page that is resident, readable and writable; the detail of the
access fault, 1 for an invalid or non-resident page, 2 for a missing permission; or a wait. -/
inductive Area
  | ok (l : Loc)
  | error (detail : Nat)
  | held
  deriving DecidableEq, Repr

/-- The place of a byte of a group's system area. -/
def areaLoc (s : State) (gid : Nat) (st : Stand) (asn off : Nat) : Area × State :=
  let va := areaAddress s gid st off
  if inPadWindow va then
    (match padLoc { gid := gid, core := gid / 64, part := st.part, asn := asn, units := st.units } (va - padWindow) with
      | some l => .ok l
      | none => .error 4, s)
  else
  let (w, s) := translate s (gid / 64) st.part asn va
  match (if checkPage va .wr w == .access 2 then .access 2 else checkPage va .rd w) with
  | .ok l => (.ok l, s)
  | .access d => (.error d, s)
  | .absent _ _ => (.error 1, s)
  | .held => (.held, s)

/-- A transaction's read set with one more line, at most 64 (R192). -/
def readSetAdd (s : State) (gid pa : Nat) : Option State :=
  match Sparse.find? s.groups gid with
  | none => some s
  | some g =>
    match g.txn with
    | none => some s
    | some t =>
      if t.reads.contains pa then some s
      else if 64 ≤ t.reads.length then none
      else some (s.putGroup gid { g with txn := some { t with reads := t.reads ++ [pa] } })

/-- The nibbles of the line `i` of a range of `n` bytes. -/
def rangeMask (l : Loc) (n i : Nat) : BitVec 256 := BitVec.ofNat 256 (bits ((2 ^ (2 * n) - 1) * 2 ^ (2 * l.place)) (256 * i) 256)

/-- The lines of a range of `n` bytes, each with the nibbles that the range takes of it. -/
def spanLines (l : Loc) (n : Nat) : List (Loc × BitVec 256) :=
  (List.range ((l.place + n + 127) / 128)).map fun i => ((l.base).plus (128 * i), rangeMask l n i)

/-- Reading `n` bytes as a load of the group does, line by line. -/
def readBytes (s : State) (gid : Nat) (l : Loc) (n : Nat) : Nat → Nat × State
  | 0 => (0, s)
  | k + 1 =>
    let count := (l.place + n + 127) / 128
    let i := count - 1 - k
    let (d, _, s) := loadLine s gid 0 ((l.base).plus (128 * i)) (rangeMask l n i)
    let (x, s) := readBytes s gid l n k
    (d.toNat * 2 ^ (1024 * i) + x, s)

def readRange (s : State) (gid : Nat) (l : Loc) (n : Nat) : Nat × State :=
  let (x, s) := readBytes s gid l n ((l.place + n + 127) / 128)
  (bits x (8 * l.place) (8 * n), s)

/-- Whether every line of a range may be read now: none whose home a group's load would read is owned by an agent or lies in a stale tile
(R265). -/
def rangeFree (s : State) (gid : Nat) (l : Loc) (n : Nat) : Bool :=
  (spanLines l n).all fun e => !(readsHome s gid 0 e.1 e.2 && homeBusy s e.1)

/-- Whether a group's load of a range meets a poisoned line (R382). -/
def rangePoisoned (s : State) (gid : Nat) (l : Loc) (n : Nat) : Bool :=
  (spanLines l n).any fun e => readsHome s gid 0 e.1 e.2 && homePoisoned s e.1

/-- The lines of a range in the read set of an open transaction, if they find room (R192). -/
def rangeRead (s : State) (gid : Nat) (l : Loc) (n : Nat) : Option State :=
  (spanLines l n).foldl (fun r e => match e.1 with
    | .mem pa => r.bind fun s => readSetAdd s gid pa
    | .pad _ _ => r) (some s)

/-! ### Discards (R37) -/

/-- Clearing a group's bits in its core's wait table (R320). -/
def clearWaiting (s : State) (gid : Nat) : State :=
  let c := s.core (gid / 64)
  s.setCore (gid / 64) { c with
    waiting := (c.waiting.map fun e => { e with groups := e.groups.filter (· != gid) }).filter fun e => !e.groups.isEmpty }

/-- A wait that can outlive a discard: every wait but that for pages (R320). -/
def Wait.stays : Wait → Bool
  | .pages => false
  | _ => true

/-- A slot that is no longer live; its PC and mask stay as they are. -/
def Slot.off (x : Slot) : Slot := { Slot.dead with st := { x.st with live := false } }

/-- One wait, wherever its word now lies and whether or not it is being read. -/
def Wait.same : Wait → Wait → Bool
  | .word _ cc c acq va o _, .word _ cc' c' acq' va' o' _ => cc == cc' && c == c' && acq == acq' && va == va' && o == o'
  | v, w => v == w

/-- A slot as a snapshot gives it. Where the slot stands so already, what it waited for when the snapshot was taken and still waits
for stays; a wait of a run that the discard undoes does not (R112, R189). -/
def Slot.restore (x : Slot) (st : SlotState) (waits : List Wait) : Slot :=
  if x.st == st then { x with waits := x.waits.filter fun w => w.stays && waits.any w.same, since := none, buffer := false }
  else { Slot.dead with st := st }

/-- A slot state that the divergence stack holds again: its barrier waits, and of the others those that the group still makes. -/
def HeldSlot.restore (x : HeldSlot) (now : List Wait) : HeldSlot :=
  { x with waits := x.waits.filter fun w => match w with
      | .barrier _ _ => true
      | w => now.any w.same }

/-- Every wait that a group makes. -/
def Group.allWaits (g : Group) : List Wait := g.slotA.waits ++ g.slotB.waits ++ g.held.flatMap (·.waits)

/-- CODE of the trap in force, 0 for none, and whether it is suspending (R33). -/
def TrapCtx.code (t : TrapCtx) : Nat := bits t.cause.toNat 0 8
def TrapCtx.susp (t : TrapCtx) : Bool := t.cause.getLsbD 9

/-- The slots of a discarded group (R30, R37): the snapshot restored, the operand buffer and temporaries lost. A suspended run stays
while its handler runs; one whose trap has not been entered, or that a debugger has stopped after its return, is discarded with the
group. -/
def Group.restored (g : Group) : Group :=
  { g with
    slotA := g.slotA.restore g.snap.a g.snap.waitsA
    slotB := g.slotB.restore g.snap.b g.snap.waitsB
    rcv := g.snap.rcv
    dsp := g.snap.dsp
    exited := g.snap.exited
    held := g.snap.held.map fun x => x.restore g.allWaits
    run := none
    entering := g.entering.filter fun e => e.2.1.isNone
    susp := if g.trap.code == 0 then none else g.susp
    suspSnap := if g.trap.code == 0 then none else g.suspSnap
    parked := false
    missing := 0 }

/-- The address of the word after a run's trailer (R100), and of its trailer. -/
def Run.fall (r : Run) : BitVec 56 := BitVec.ofNat 56 (r.head.toNat + 8 * r.words.length)

/-- The snapshot that a group keeps when its run's trailer, or a trap between the commit of a closing instruction and the
trailer, ends the run with the issuing slot's next head at `pc` (R442). -/
def Group.retakenAt (g : Group) (r : Run) (pc : BitVec 56) : Group :=
  let here : SlotState := { (g.slot r.slotB).st with pc := pc }
  { g with snap :=
      { head := pc, a := if r.slotB then g.slotA.st else here, b := if r.slotB then here else g.slotB.st, rcv := g.rcv, dsp := g.dsp,
        livein := 0, exited := g.exited, waitsA := if r.slotB then g.slotA.waits else [], waitsB := if r.slotB then [] else g.slotB.waits, held := g.held } }

/-- Dropping an open transaction with a cause (R192). -/
def Group.dropTxn (g : Group) (cause : BitVec 8) : Group :=
  if g.txn.isSome then { g with txn := none, trap := { g.trap with txcause := cause } } else g

/-- A discard: the transaction aborts with cause 6, the snapshot is restored, the group leaves the wait table, a traced
group writes a record with the reason (R423), and a SYNC is due. A slot that is no longer live counts as arrived (R109). -/
def discardGroup (s : State) (gid reason : Nat) : State :=
  match seatOf s gid with
  | none => s
  | some (g, st, _) =>
    let s := clearWaiting s gid
    let s := if g.tracing && traceOn s st.part (gid / 64) (gid % 64) 1 then
        trace s st.part (groupRecord gid g 9 (g.run.map (·.slotB) |>.getD false) reason g.snap.head.toNat) else s
    let s := countCore s (gid / 64) st.part 4
    let s := s.putGroup gid { (g.dropTxn 6).restored with sinceSync := 256 }
    settleBarriers { s with
      issuer := if s.issuer == some gid then none else s.issuer
      groups := s.groups.map fun e => if e.2.unborn == some gid then (e.1, { e.2 with unborn := none }) else e } g.stand

/-- A transaction abort that discards the group (R192). -/
def abortTxn (s : State) (gid : Nat) (cause : BitVec 8) : State :=
  discardGroup (s.modGroup gid (·.dropTxn cause)) gid 3

/-- Aborting every transaction that a conflict has flagged. -/
def settleTxns (s : State) : State :=
  s.groups.foldl (fun s e => match e.2.txn.bind (·.flagged) with
    | some c => abortTxn s e.1 c
    | none => s) s

/-- The end of a step that writes memory: flagged transactions abort in the same step. -/
def done (s : State) : Host.Outcome State Fault Refusal := .next (settleTxns s)

/-! ### Retiring groups and ending stands -/

/-- The launch status is the first nonzero code of the launch (R326). -/
def failLaunch (s : State) (la : Nat) (code : BitVec 8) : State :=
  { s with launches := Sparse.modify s.launches la fun l => if l.status == 0 then { l with status := code } else l }

/-- A retired group: its transaction has aborted with cause 7 (R105); no slot is live; results still pending are dropped. -/
def Group.retire (g : Group) : Group :=
  { g.dropTxn 7 with
    slotA := g.slotA.off, slotB := g.slotB.off, run := none, susp := none, suspSnap := none, retired := true, parked := false, missing := 0, saving := [], entering := none,
    accs := g.accs.map fun a => { a with cancelled := true }, dbg := .none }

/-- A stand whose groups have all retired has ended (R105). -/
def settleStand (s : State) (stand : Nat) : State :=
  match s.stand? stand with
  | none => s
  | some st =>
    let live := st.groups.any fun gid => match Sparse.find? s.groups gid with
      | some g => !g.retired && g.stand == stand
      | none => false
    if live || !st.handed then s else s.putStand stand { st with ended := true }

/-- A group retires (R105); its launch ends only behind what it has stored (R403). -/
def retireGroup (s : State) (gid : Nat) : State :=
  match Sparse.find? s.groups gid with
  | none => s
  | some g =>
    let s := clearWaiting s gid
    let s := s.putGroup gid g.retire
    let launch := ((s.stand? g.stand).map (·.launch)).getD 0
    let s := { s with launches := Sparse.modify s.launches launch fun l =>
      { l with unsettled := if l.unsettled.contains gid then l.unsettled else l.unsettled ++ [gid] } }
    let s := { s with issuer := if s.issuer == some gid then none else s.issuer }
    settleStand (settleBarriers s g.stand) g.stand

/-- NMXOUT of a core counts one NMX less (R246). -/
def lessNmx (s : State) (core : Nat) : State := s.setCore core { s.core core with nmxout := (s.core core).nmxout - 1 }

/-- Taking a command away: its lines are released unchanged (R340), and no result of it is awaited any longer. -/
def takeCmd (s : State) (id : Nat) : State :=
  let s := match (Sparse.find? s.cmds id).bind fun c => c.gid.map fun gid => (gid, c.acc) with
    | some (gid, acc) => s.modGroup gid fun g => { g with accs := g.accs.filter fun a => a.id != acc }
    | none => s
  { s with cmds := Sparse.erase s.cmds id, owners := s.owners.filter fun e => e.2 != id, heldReads := s.heldReads.filter fun h => h.reader != .command id }

/-- The same, NMXOUT counting an NMX no longer (R246; of one that a kill drops DEDUCED, since clearing waits for zero). -/
def removeCmd (s : State) (id : Nat) : State :=
  takeCmd (match Sparse.find? s.cmds id with
    | some c => if c.kind == CmdKind.nmx then lessNmx s c.core else s
    | none => s) id

/-- Whether a kill lets a command go on to a boundary (R340): a command of a field or a pour that has had a pass and writes memory, a
copy that has written a line, a collective that has, and whatever still has lines to write. -/
def Cmd.midway (k : Cmd) : Bool :=
  match k.kind with
  | .cpy | .gath | .scat | .coll => k.computed && !k.wrote.isEmpty
  | .xdrain => k.started
  | .pour => k.started && !k.computed || k.computed && !k.out.isEmpty
  | _ => false

/-- R340, step 4: a command that is midway stops at its next boundary, every other one at once. -/
def killCmds (s : State) (stand : Nat) : State :=
  s.cmds.foldl (fun s e =>
    if e.2.stand != some stand then s
    else if e.2.midway then { s with cmds := Sparse.insert s.cmds e.1 { e.2 with killed := true, cplt := none } }
    else removeCmd s e.1) s

/-- A stand ends as a kill ends it, with a launch status (R340): its groups are discarded and retired, its commands stop,
nodes that would run for it fail. -/
def killStand (s : State) (stand : Nat) (code : BitVec 8) : State :=
  match s.stand? stand with
  | none => s
  | some st =>
    let s := failLaunch s st.launch code
    let s := s.putStand stand { st with killed := true, handed := true, status := if st.status == 0 then code else st.status }
    let s := st.groups.foldl (fun s gid => match Sparse.find? s.groups gid with
      | some g => if g.retired || g.stand != stand then s else retireGroup (discardGroup s gid 0) gid
      | none => s) s
    settleStand (killCmds s stand) stand

/-! ### Taking an exception (R33 to R37, R253) -/

/-- The trap context that a trap writes (R33). -/
def Cause.context (k : Cause) (susp : Bool) (old : TrapCtx) : TrapCtx :=
  { old with
    pc := BitVec.ofNat 64 k.pc
    cause := BitVec.ofNat 64 (k.code % 256 + (if k.slotB then 2 ^ 8 else 0) + (if susp then 2 ^ 9 else 0) + k.detail % 2 ^ 32 * 2 ^ 32)
    inst := k.inst
    inst2 := k.inst2
    addr := k.addr }

/-- The slot block of the save area, offsets 0x00 to 0x3F (R253). -/
def slotBlock (g : Group) (susp : Option Bool) : Nat :=
  let flags := (if g.slotA.st.live then 1 else 0) + (if g.slotB.st.live then 2 else 0) + g.dsp.toNat * 2 ^ 8 +
    (match susp with | none => 0 | some b => 2 ^ 16 + (if b then 2 ^ 17 else 0))
  let words := [g.slotA.st.pc.toNat, g.slotB.st.pc.toNat, g.slotA.st.mask.toNat + g.slotB.st.mask.toNat * 2 ^ 32, flags,
    g.rcv.toNat, g.snap.head.toNat, g.snap.livein.toNat, 0]
  packElems 64 (fun i => words.getD i 0) 8

/-- The 2-bit code of a tag (R14), and the tag of a code, 0b11 being read as G (R255). -/
def Tag.code : Tag → Nat
  | .u => 0
  | .a => 1
  | .g => 2

def Tag.ofCode : Nat → Tag
  | 0 => .u
  | 1 => .a
  | _ => .g

/-- The working-set registers in order (R253). -/
def setOrder (ws : Word) : List Nat := (List.range 64).filter fun n => ws.getLsbD n

/-- The 256 bytes of a copy as R255 reads them back: a U copy is 8 bytes and an A copy its base and, in the second 8 bytes, its stride
(DEDUCED: R39 has it so in the save record, R253 does not say); the bytes beyond are `free`, since the spec gives them no value. -/
def Copy.image (c : Copy) (free : Nat) : Nat :=
  match c.tag with
  | .u => lane c.val 0 + free % 2 ^ 1984 * 2 ^ 64
  | .a => affineBase c.val + affineStride c.val * 2 ^ 64 + free % 2 ^ 1920 * 2 ^ 128
  | .g => c.val.toNat

/-- The copies, their specifiers, the tags and the temporaries, by offset and length (R253); `free` numbers the free values of 24 copies. -/
def copyBlock (r : Run) (free : Nat → Nat) : List (Nat × Nat × Nat) :=
  let ws := setOrder r.ws
  let copies := (List.range ws.length).map fun i => (0x40 + 256 * i, 256, (r.copy (ws.getD i 0)).image (free i))
  let specs := packElems 8 (fun i => ws.getD i 0xFF) 16
  let tags := packElems 2 (fun i => match ws[i]? with | some n => (r.copy n).tag.code | none => 0) 16 +
    packElems 2 (fun i => (r.temp i).tag.code) 8 * 2 ^ 32
  let temps := packElems 2048 (fun i => (r.temp i).image (free (16 + i))) 8
  copies ++ [(0x1040, 16, specs), (0x1050, 8, tags), (0x1058, 8, 0), (0x1060, 2048, temps)]

/-- Keeping what a slot waits for and its barrier arrivals under its PC and mask, for when it stands so again (R112): the arrivals stand,
with the lanes that made them and not with what now takes their slot (DEDUCED, log entry 151). -/
def Group.hold (g : Group) (slotB : Bool) : Group :=
  let x := g.slot slotB
  let mine := g.arrived.filter fun a => a.slotB == slotB
  if x.st.live && !(x.waits.isEmpty && mine.isEmpty) then
    { g with
      arrived := g.arrived.filter fun a => a.slotB != slotB
      held := g.held ++ [{ pc := x.st.pc, mask := x.st.mask, waits := x.waits, arrived := mine }] }
  else g

/-- What is held for a slot that comes back with a PC and mask: the latest of it, which lies uppermost. -/
def Group.heldFor (g : Group) (st : SlotState) : Option HeldSlot :=
  g.held.reverse.find? fun e => e.pc == st.pc && e.mask == st.mask

/-- A slot that comes back takes up the waits held for it. -/
def Group.heldWaits (g : Group) (st : SlotState) : List Wait := ((g.heldFor st).map (·.waits)).getD []

/-- What was held for a slot state is taken out, the slot now having its arrivals. -/
def Group.dropHeld (g : Group) (slotB : Bool) (st : SlotState) : Group :=
  match g.heldFor st with
  | none => g
  | some x => { g with
      held := (g.held.reverse.erase x).reverse
      arrived := (g.arrived.filter fun a => !(a.slotB == slotB && x.arrived.any fun b => b.level == a.level)) ++
        x.arrived.map fun a => { a with slotB := slotB } }

/-- A live slot at an address with a mask, waiting for nothing. -/
def Slot.at' (pc : BitVec 56) (mask : BitVec 32) : Slot :=
  { st := { pc := pc, mask := mask, live := true }, waits := [], run := none, since := none, via := none, buffer := false }

/-- The group at the handler's entry (R253, step 4). -/
def Group.atHandler (g : Group) (h : BitVec 56) : Group :=
  let m (x : SlotState) : BitVec 32 := if x.live then x.mask else 0
  let mask := m g.slotA.st ||| m g.slotB.st
  let g := (g.hold false).hold true
  let a := Slot.at' h mask
  { g with
    slotA := a
    slotB := g.slotB.off
    run := none
    snap := { head := h, a := a.st, b := g.slotB.off.st, rcv := g.rcv, dsp := g.dsp, livein := 0, exited := g.exited, waitsA := [], waitsB := [],
              held := g.held } }

/-- Stopping a group for its debugger, with a STOP record of the stepped slot or slot A (R419, R423). -/
def stopGroup (s : State) (gid cause : Nat) : State :=
  match seatOf s gid with
  | none => s
  | some (g, st, _) =>
    let on := ((s.part? st.part).map fun p => p.dbg.trctl.getLsbD 0).getD false
    let slotB := g.dbg.step.getD false
    let x := if slotB then g.slotB else g.slotA
    let s := if on then trace s st.part (groupRecord gid g 7 slotB cause x.st.pc.toNat) else s
    let s := s.modGroup gid fun g => { g with
      sinceSync := 256
      dbg := { g.dbg with stopped := true, cause := cause, step := none } }
    let s := match s.part? st.part with
      | some p => if bits p.dbg.dbgst.toNat 8 15 == gid % 64 * 512 + gid / 64 then
          s.setPart st.part (p.setDebug { p.dbg with dbgst := BitVec.ofNat 64 (setBits p.dbg.dbgst.toNat 0 8 (2 + cause * 16)) })
          else s
      | none => s
    { s with issuer := if s.issuer == some gid then none else s.issuer }

/-- The entry shared by every trap (R253), made once its save area has been translated: the context is written, the slot block and, for a
suspending trap, the copies enter the group's FIFO as it has room (R295), and the group enters the handler. `halt` is the BKPT of a claimed
group, which stops instead of entering (R420). -/
def enterTrap (s : State) (gid : Nat) (k : Cause) (susp : Option Run) (halt : Bool) : State :=
  match seatOf s gid with
  | none => s
  | some (g, st, la) =>
    match areaLoc s gid st la.asn 8192 with
    | (.error _, s) => killStand s g.stand 0x10
    | (.held, s) => { s.putGroup gid { g with run := none, entering := some (k, susp, halt) } with
        issuer := if s.issuer == some gid then none else s.issuer }
    | (.ok l, s) =>
      let va := areaAddress s gid st 8192
      let pieces := (0, 64, slotBlock g (susp.map (·.slotB))) :: (match susp with
        | some r => copyBlock r fun i => Config.freeNat (s.freeNo + i)
        | none => [])
      let s := if susp.isSome then { s with freeNo := s.freeNo + 24 } else s
      let xs := pieces.flatMap fun (off, n, x) => linesOf (l.plus off) (va + off) n x 0
      let s := countCore s (gid / 64) st.part 0x0B
      let s := if traceOn s st.part (gid / 64) (gid % 64) 3 then
          trace s st.part (groupRecord gid g 6 k.slotB (k.code + k.detail % 2 ^ 24 * 2 ^ 8) k.pc) else s
      let g := (Sparse.find? s.groups gid).getD g
      let g := { g with entering := none, trap := k.context susp.isSome g.trap, saving := xs, susp := susp, suspSnap := susp.map fun _ => g.snap, run := none, sinceSync := 256 }
      let s := { s with issuer := if s.issuer == some gid then none else s.issuer }
      let s := settleBarriers (enterSaving (s.putGroup gid (if halt then g else g.atHandler la.traph)) gid) g.stand
      if halt then stopGroup s gid 3
      else
        if g.dbg.step.isSome then stopGroup s gid 5 else s

/-- A trap whose save area could not be translated is entered. -/
def resumeEntry (s : State) (gid : Nat) : State :=
  match (Sparse.find? s.groups gid).bind (·.entering) with
  | some (k, susp, halt) => enterTrap s gid k susp halt
  | none => s

/-- Taking an exception of a group (R34 to R36). A trap while CODE is nonzero ends the stand with TRAPNEST, a trap without
a handler ends it with NOHANDLER; a discarding trap discards the group first, a suspending one keeps the run `susp`, and
the group enters its handler. A trap between a closing instruction's commit and the trailer leaves the snapshot of R442. -/
def takeTrap (s : State) (gid : Nat) (k : Cause) (susp : Option Run) : State :=
  match seatOf s gid with
  | none => s
  | some (g, _, la) =>
    let halt := k.code == 0x0C && g.dbg.claimed
    if g.trap.code != 0 || g.entering.isSome then killStand s g.stand 0x10
    else if la.traph == 0 && !halt then killStand s g.stand 0x11
    else
      let s := if susp.isSome then s else discardGroup (s.putGroup gid (match g.run with
        | some r => if r.committed then g.retakenAt r r.fall else g
        | none => g)) gid 1
      enterTrap s gid k susp halt

/-- The trap report of the instruction at which the run stands. -/
def Ctx.cause (c : Ctx) (code detail : Nat) (addr : Word) : Cause :=
  let w := c.r.words.getD c.r.pos 0
  { code := code, detail := detail, pc := c.r.head.toNat + 8 * c.r.pos, inst := w,
    inst2 := if w.getLsbD 57 then c.r.words.getD (c.r.pos + 1) 0 else 0, addr := addr, slotB := c.r.slotB }

/-- A discarding trap of the instruction in issue. -/
def Ctx.trap (c : Ctx) (s : State) (code detail : Nat) (addr : Word) : State :=
  takeTrap s c.gid (c.cause code detail addr) none

/-! ### Returning from an exception (R254, R255) -/

/-- The slot state that words of the save area give. -/
def slotFrom (pc : Nat) (mask : Nat) (live : Bool) : SlotState :=
  { pc := BitVec.ofNat 56 pc, mask := BitVec.ofNat 32 mask, live := live }

/-- The run that continues after a suspending trap (R254, R255): the copies and temporaries with their tags from the save
area, at the word after the trapping instruction. -/
def Run.reload (r : Run) (area : Nat) : Run :=
  let ws := setOrder r.ws
  let tags := bits area (8 * 0x1050) 64
  let expand (t : Tag) (x : Nat) : Lanes := match t with
    | .u => splat (x % 2 ^ 64)
    | .a => ofElems 64 fun l => (x % 2 ^ 64 + l * bits x 64 64)
    | .g => BitVec.ofNat 2048 x
  let copy (t : Tag) (x : Nat) : Copy := { val := expand t x, tag := t }
  let buf := (List.range ws.length).foldl (fun m i =>
    Sparse.set m (ws.getD i 0) (copy (Tag.ofCode (bits tags (2 * i) 2)) (bits area (8 * (0x40 + 256 * i)) 2048)) .zero) []
  let temps := (List.range 8).foldl (fun m i =>
    Sparse.set m i (copy (Tag.ofCode (bits tags (32 + 2 * i) 2)) (bits area (8 * (0x1060 + 256 * i)) 2048)) .zero) []
  { r with buf := buf, temps := temps }

/-- The group that a return from its handler leaves, from the 64-byte slot block and the area (R254, R255): CODE is 0, the
slots, reconvergence PC, DSP, region head and live-in mask are those of the area, and the suspended run goes on if bit 16
is set and the trap in force is suspending; the rest of the region snapshot is then kept (R37). -/
def Group.returned (g : Group) (area : Nat) : Group :=
  let w (i : Nat) : Nat := bits area (64 * i) 64
  let back := g.trap.susp && (w 3).testBit 16
  let slotB := (w 3).testBit 17
  let a := slotFrom (w 0) (bits (w 2) 0 32) ((w 3).testBit 0 || (back && !slotB))
  let b := slotFrom (w 1) (bits (w 2) 32 32) ((w 3).testBit 1 || (back && slotB))
  let mk (st : SlotState) : Slot :=
    { Slot.dead with st := st, waits := if st.live then g.heldWaits st else [] }
  let rcv := BitVec.ofNat 56 (w 4)
  let dsp := BitVec.ofNat 8 (bits (w 3) 8 8)
  let held := (g.dropHeld false a).dropHeld true b
  let now : Snapshot :=
    { head := BitVec.ofNat 56 (w 5), a := a, b := b, rcv := rcv, dsp := dsp, livein := BitVec.ofNat 64 (w 6), exited := g.exited,
      waitsA := (mk a).waits, waitsB := (mk b).waits, held := held.held }
  let run := if back then g.susp.map fun r => { r.reload area with slotB := slotB, returning := false } else none
  { held with
    slotA := mk a
    slotB := mk b
    rcv := rcv
    dsp := dsp
    snap := { (if back then g.suspSnap.getD now else now) with head := now.head, livein := now.livein }
    trap := { g.trap with cause := BitVec.ofNat 64 (setBits g.trap.cause.toNat 0 8 0) }
    run := run
    susp := none
    suspSnap := none
    sinceSync := 256 }

/-- The bytes of the save area that a return reads (R255). -/
def returnBytes : Nat := 0x1860

/-- Whether a return may be made now: the handler's loads are performed (R260), the area is written (R253), resident and readable and no
line of it is held back. -/
def returnReady (s : State) (gid : Nat) : Bool :=
  match seatOf s gid with
  | none => true
  | some (g, st, la) =>
    loadsPerformed g && g.saving.isEmpty && match areaLoc s gid st la.asn 8192 with
    | (.ok l, _) => rangeFree s gid l returnBytes
    | (.error _, _) => true
    | (.held, _) => false

/-- Returning from a handler (R254): a save area that cannot be read, or that is poisoned (R382), ends the stand under R36 (R331). -/
def returnFrom (s : State) (gid : Nat) : State :=
  match seatOf s gid with
  | none => s
  | some (g, st, la) =>
    match areaLoc s gid st la.asn 8192 with
    | (.error _, s) => killStand s g.stand 0x10
    | (.held, s) => s
    | (.ok l, s) =>
      if rangePoisoned s gid l returnBytes then killStand s g.stand 0x10
      else
      let (area, s) := readRange s gid l returnBytes
      settleBarriers (s.modGroup gid fun g => g.returned area) g.stand

/-! ### Page requests and parking (R317 to R320) -/

/-- Writing a page-request record to the partition's ring, if it has room (R317, R394). -/
def ringRequest (s : State) (q : PageRequest) : Option State :=
  match s.part? q.part with
  | none => none
  | some p =>
    let size := 2 ^ p.prqlog2
    if size ≤ (p.prqp - p.prqc).toNat then none
    else
      let rec' := q.kind * 2 ^ 116 + q.size * 2 ^ 108 + q.asn * 2 ^ 96 + q.vpage * 2 ^ 56
      let s := hubWrite s (p.prqbase + 16 * (p.prqp.toNat % size)) 16 rec'
      let s := s.setPart q.part { p with prqp := p.prqp + 1 }
      some (raiseIrq s (bits p.prqvec.toNat 0 16))

/-- Bit of KIND for a need (R317). -/
def Need.kind : Need → Nat
  | .rd => 1
  | .wr => 2
  | .atomic => 4
  | .ex => 8

def PageRequest.same (q x : PageRequest) : Bool := q.part == x.part && q.asn == x.asn && q.vpage == x.vpage

/-- Raising a page request: merged with one of the same page, else entered in the merge table and written to the ring;
with the table full the core keeps it for a retry (R317). -/
def requestPage (s : State) (q : PageRequest) : State :=
  if s.merge.any q.same then
    { s with merge := s.merge.map fun x => if q.same x then { x with kind := x.kind ||| q.kind } else x }
  else if 4096 ≤ s.merge.length then
    { s with retries := if s.retries.any q.same then s.retries.map fun x => if q.same x then { x with kind := x.kind ||| q.kind } else x
                        else s.retries ++ [q] }
  else
    match ringRequest s q with
    | some s => { s with merge := s.merge ++ [{ q with written := true }] }
    | none => { s with merge := s.merge ++ [q] }

/-- Waiting on one page (R319): the group's bit is set and its count raised, and the page is walked once more. The answer
says whether the wait table had room. -/
def waitOnPage (s : State) (u : Seat) (vpage size : Nat) : Bool × State :=
  let c := s.core u.core
  let hit (e : WaitEntry) : Bool := e.part == u.part && e.asn == u.asn && e.vpage == vpage
  if !c.waiting.any hit && 256 ≤ c.waiting.length then (false, s)
  else
    let waiting := if c.waiting.any hit then
        c.waiting.map fun e => if hit e then { e with groups := e.groups ++ [u.gid] } else e
      else c.waiting ++ [{ part := u.part, asn := u.asn, vpage := vpage, groups := [u.gid] }]
    let s := (s.setCore u.core { c with waiting := waiting }).modGroup u.gid fun g => { g with missing := g.missing + 1 }
    match translate s u.core u.part u.asn (vpage * 65536) with
    | (.resident _ _ _, s) =>
      let c := s.core u.core
      let w := (c.waiting.map fun e => if hit e then { e with groups := e.groups.filter (· != u.gid) } else e).filter
        fun e => !e.groups.isEmpty
      (true, (s.setCore u.core { c with waiting := w }).modGroup u.gid fun g => { g with missing := g.missing - 1 })
    | (_, s) => (true, s)

/-- The procedure of R319 over distinct pages in ascending order. -/
def waitOnPages (s : State) (u : Seat) : List (Nat × Nat) → State
  | [] => s
  | (vpage, size) :: rest =>
    match waitOnPage s u vpage size with
    | (false, s) => s
    | (true, s) => waitOnPages s u rest

/-- Distinct pages in ascending order. -/
def insertPage (p : Nat × Nat) : List (Nat × Nat) → List (Nat × Nat)
  | [] => [p]
  | q :: qs => if p.1 == q.1 then q :: qs else if p.1 < q.1 then p :: q :: qs else q :: insertPage p qs

def distinctPages (ps : List (Nat × Nat)) : List (Nat × Nat) := ps.foldl (fun l p => insertPage p l) []

def requestPages (s : State) (u : Seat) (need : Need) (ps : List (Nat × Nat)) : State :=
  ps.foldl (fun s p => requestPage s
    { part := u.part, asn := u.asn, vpage := p.1, size := p.2, kind := need.kind, written := false }) s

/-- The residency fault (R173, R320): the group is discarded, the pages are requested and the group parks. -/
def residencyFault (s : State) (u : Seat) (need : Need) (pages : List (Nat × Nat)) : State :=
  let ps := distinctPages pages
  let s := discardGroup s u.gid 2
  let s := countCore s u.core u.part 0x0C
  let s := waitOnPages (requestPages s u need ps) u ps
  s.modGroup u.gid fun g => { g with parked := decide (0 < g.missing) }

/-! ### Fences (R184, R267) -/

/-- Whether a delivery queue or an unanswered request still carries a store, an atomic or a CNTADD of a group (R267, R274). -/
def remotePending (s : State) (core gid : Nat) : Bool :=
  let mine (r : Remote) : Bool := match r with
    | .store c g _ => c == core && g == gid
    | .atom a => a.core == core && a.gid == some gid
    | _ => false
  s.delivery.any (fun e => e.2.any mine) || s.outstanding.any fun o => mine o.what

/-- Whether the release of a group at a scope is complete. -/
def releaseDone (s : State) (gid : Nat) (sc : Scope) : Bool :=
  let core := gid / 64
  let fifo := ((Sparse.find? s.groups gid).map (·.fifo.isEmpty)).getD true
  let cvp := !((s.core core).cvp.any fun e => e.groups.contains gid)
  match sc with
  | .grp | .stand | .core => fifo
  | .clus | .die | .dev => fifo && cvp
  | .sys => fifo && cvp && !remotePending s core gid

/-- Dropping the L1 copies of a core; a fill under way is dropped on its arrival (R267, R293). -/
def dropCopies (s : State) (core : Nat) : State :=
  let c := s.core core
  s.setCore core { c with l1 := c.l1.filterMap fun e => match e.2 with
    | .valid _ _ _ _ => none
    | .fill _ e' r => some (e.1, .fill true e' r) }

/-- The acquire of a group's core at a scope (R267). -/
def acquire (s : State) (core : Nat) (sc : Scope) : State :=
  match sc with
  | .grp | .stand | .core => s
  | _ => dropCopies s core

/-- The scope instance of a .sc fence: its kind and number (R185). -/
def scopeInstance (core : Nat) : Scope → Nat
  | .grp | .stand | .core => core
  | .clus => 512 + clusterOf core
  | .die => 640 + dieOf core
  | .dev => 644
  | .sys => 645

/-- The address of the oldest of the stores that a group has lost. -/
def oldestLost (xs : List (Nat × Nat)) : Option Nat :=
  (xs.foldl (fun (m : Option (Nat × Nat)) x => match m with
    | none => some x
    | some y => if x.1 < y.1 then some x else m) none).map (·.2)

/-- The release of the instruction in issue at a scope (R185, R267): it stalls in place until the release is complete. A
release at .sys of a group that has lost a store raises the access fault with DETAIL 7 at the oldest one (R434). -/
def Ctx.release (c : Ctx) (s : State) (sc : Scope) (k : State → State) : State :=
  if !releaseDone s c.gid sc then s
  else
    match sc, oldestLost c.g.lost with
    | .sys, some va => c.trap (s.modGroup c.gid fun g => { g with lost := [] }) 0x06 7 (BitVec.ofNat 64 va)
    | _, _ => k s

/-! ### Completion words (R189, R268) -/

/-- Queueing the decrement of a completion word by an engine, performed at its home in a step of its own. -/
def queueDecrement (s : State) (core part asn : Nat) (l : Loc) : State :=
  let (id, s) := s.fresh
  let a : Atom :=
    { id := id, core := core, gid := none, acc := 0, elem := 0, loc := l, width := 64, op := .add, operand := 2 ^ 64 - 1, compare := 0, part := part, asn := asn, node := 1, last := false }
  { s with atoms := s.atoms ++ [a] }

end Sys2Proof.Machine
end

