-- ==== Sys2Proof/Machine/Issue.lean ====
section
/-! DEFINITION. How an instruction of a run executes: its sources are checked for emptiness in order (R18), its operands
are read before anything is written, its result goes to its destination with a tag, and the run stands behind it. -/

namespace Sys2Proof.Machine

/-- An instruction that computes: it stalls in place on an empty source in block mode, traps on one in trap mode (R18),
and otherwise changes the group and its run and goes on. -/
def compute (o : Ops) (s : State) (f : Ctx → Group × Run) : Host.Outcome State Fault Refusal :=
  withRun s fun c =>
    match readyOps c.g c.r o with
    | .stall => s
    | .trap n => c.trap s 0x03 0 (BitVec.ofNat 64 n)
    | .go => c.put s (f c).1 ((f c).2.after (opWords o))

/-- As `compute`, for an instruction whose effect reaches beyond its group; the effect itself moves the run on. -/
def perform (o : Ops) (s : State) (f : Ctx → State) : Host.Outcome State Fault Refusal :=
  match running s with
  | none => .fault .noIssuer
  | some c =>
    match readyOps c.g c.r o with
    | .stall => .next s
    | .trap n => .next (c.trap s 0x03 0 (BitVec.ofNat 64 n))
    | .go => done (f c)

/-- An operand read in an element format, or raw when `asFmt` is none (R11). -/
def Ctx.read (c : Ctx) (o : Ops) (asFmt : Option Fmt) (x : Opnd) : Src :=
  readOpnd c.env c.g c.r o.ext o.fmt.width asFmt x

/-- The issuing slot's mask and the governing predicate (R19). -/
def Ctx.guard (c : Ctx) (o : Ops) : Guard := guardOf c.g c.r o

/-- R16: an instruction that reads U operands has no effect when no lane is elected, whatever its sources hold; `idle` is how it then
goes on. An empty governing predicate blocks first. -/
def electing (o : Ops) (s : State) (idle : Ctx → State) (k : Host.Outcome State Fault Refusal) : Host.Outcome State Fault Refusal :=
  match running s with
  | none => .fault .noIssuer
  | some c =>
    if isEmpty c.g c.r (.reg (.p o.pred)) then .next s
    else if (c.guard o).elected.isNone then done (idle c)
    else k

/-- Going on with no effect, and committing with no other effect. -/
def Ctx.pass (c : Ctx) (s : State) (o : Ops) : State := c.next s c.g (opWords o)
def Ctx.commit (c : Ctx) (s : State) (g : Group) (n : Nat) : State := c.put s g { c.r.after n with committed := true }

/-- The value of a U operand: read from the elected lane (R16). -/
def Ctx.scalar (c : Ctx) (o : Ops) (x : Opnd) : Nat :=
  match (c.guard o).elected with
  | some l => lane (c.read o none x).val l
  | none => 0

/-- An instruction with a buffered vector destination: the new copy from the old one. -/
def vector (o : Ops) (s : State) (f : Ctx → Guard → Copy → Copy) : Host.Outcome State Fault Refusal :=
  compute o s fun c => (c.g, writeDest c.r o.d (f c (c.guard o) (oldDest c.r o.d)))

/-- An instruction with a predicate destination, written directly (R27). -/
def predicate (o : Ops) (s : State) (f : Ctx → Guard → PredBits → PredBits) : Host.Outcome State Fault Refusal :=
  compute o s fun c => (writePred c.g o.d (f c (c.guard o) (readPred c.g o.d)), c.r)

/-- One operand, elementwise (R115). -/
def unaryOp (o : Ops) (s : State) (op : Nat → Nat) (tag : Bool → Tag → Tag) : Host.Outcome State Fault Refusal :=
  vector o s fun c g old =>
    let w := o.fmt.width
    let a := c.read o (some o.fmt) o.a
    { val := mapActive g w old.val fun e => op (elem a.val w e), tag := tag (g.all w) a.tag }

/-- Two operands, elementwise. -/
def binaryOp (o : Ops) (s : State) (op : Nat → Nat → Nat) (tag : Bool → Tag → Tag → Tag) :
    Host.Outcome State Fault Refusal :=
  vector o s fun c g old =>
    let w := o.fmt.width
    let a := c.read o (some o.fmt) o.a
    let b := c.read o (some o.fmt) o.b
    { val := mapActive g w old.val fun e => op (elem a.val w e) (elem b.val w e), tag := tag (g.all w) a.tag b.tag }

/-- Three operands, elementwise. -/
def ternaryOp (o : Ops) (s : State) (op : Nat → Nat → Nat → Nat) (tag : Bool → Tag → Tag → Tag → Tag) :
    Host.Outcome State Fault Refusal :=
  vector o s fun c g old =>
    let w := o.fmt.width
    let a := c.read o (some o.fmt) o.a
    let b := c.read o (some o.fmt) o.b
    let x := c.read o (some o.fmt) o.c
    { val := mapActive g w old.val fun e => op (elem a.val w e) (elem b.val w e) (elem x.val w e),
      tag := tag (g.all w) a.tag b.tag x.tag }

/-- The tags of results without a table (R15). -/
def tag1 (whole : Bool) (a : Tag) : Tag := tagOf whole [a]
def tag2 (whole : Bool) (a b : Tag) : Tag := tagOf whole [a, b]
def tag3 (whole : Bool) (a b c : Tag) : Tag := tagOf whole [a, b, c]

/-- The signedness of an S instruction: the format's, and for b64 that of MOD[3] (R113). -/
def opSigned (o : Ops) : Bool := if o.fmt == .b64 then o.mod.getLsbD 3 else o.fmt.signed

/-- The unsigned format of a width. -/
def fmtOfWidth (w : Nat) : Fmt := match w with
  | 64 => .b64
  | 32 => .ui32
  | 16 => .ui16
  | 8 => .ui8
  | _ => .ui4

end Sys2Proof.Machine
end

