-- ==== Sys2Proof/Machine/Integer.lean ====
section
/-! DEFINITION. The meanings of majors 0x04, 0x05, 0x06 and 0x30: integer arithmetic, logic, bit fields, comparison,
selection, moves and predicate logic (R113 to R129). -/

namespace Sys2Proof.Machine

open Host (Outcome)

/-! ### Values of one element of width `w` -/

def addElem (w : Nat) (a b : Nat) : Nat := (a + b) % 2 ^ w
def subElem (w : Nat) (a b : Nat) : Nat := (a + 2 ^ w - b) % 2 ^ w
def mulElem (w : Nat) (a b : Nat) : Nat := a * b % 2 ^ w

/-- A result computed exactly on the operands' values and clamped (R116). -/
def satElem (w : Nat) (sg : Bool) (f : Int → Int → Int) (a b : Nat) : Nat :=
  wrapTo w (satTo w sg (f (valueOf w sg a) (valueOf w sg b)))

/-- Bits [2w − 1 : w] of the exact product (R116). -/
def mulhElem (w : Nat) (sg : Bool) (a b : Nat) : Nat := wrapTo w ((valueOf w sg a * valueOf w sg b) / (2 ^ w : Nat))

def absElem (w : Nat) (a : Nat) : Nat := wrapTo w ((signedOf w a).natAbs : Int)

def minElem (w : Nat) (sg : Bool) (a b : Nat) : Nat := if valueOf w sg b < valueOf w sg a then b else a
def maxElem (w : Nat) (sg : Bool) (a b : Nat) : Nat := if valueOf w sg a < valueOf w sg b then b else a

/-- The quotient, truncated toward zero, with the cases of R118. -/
def divElem (w : Nat) (sg : Bool) (a b : Nat) : Nat :=
  if b == 0 then 2 ^ w - 1 else wrapTo w (Int.tdiv (valueOf w sg a) (valueOf w sg b))

/-- The remainder, with the sign of the dividend (R118). -/
def remElem (w : Nat) (sg : Bool) (a b : Nat) : Nat :=
  if b == 0 then a else wrapTo w (Int.tmod (valueOf w sg a) (valueOf w sg b))

def notElem' (w : Nat) (a : Nat) : Nat := 2 ^ w - 1 - a % 2 ^ w

def shlElem (w : Nat) (a k : Nat) : Nat := if w ≤ k then 0 else a * 2 ^ k % 2 ^ w

/-- Filling with the sign bit when signed; an amount of the width or more leaves only sign bits or 0 (R119). -/
def shrElem (w : Nat) (sg : Bool) (a k : Nat) : Nat := wrapTo w (valueOf w sg a / (2 ^ min k w : Nat))

def rotElem (w : Nat) (a k : Nat) : Nat := (a * 2 ^ (k % w) + a / 2 ^ (w - k % w)) % 2 ^ w

/-- The length of the field at `pos`, 0 when it is empty (R120). -/
def fieldLen (w pos len : Nat) : Nat := if w ≤ pos then 0 else min len (w - pos)

def bfeElem (w : Nat) (sg : Bool) (a pos len : Nat) : Nat :=
  let n := fieldLen w pos len
  if n == 0 then 0 else wrapTo w (valueOf n sg (bits a pos n))

def bfiElem (w : Nat) (old a pos len : Nat) : Nat :=
  let n := fieldLen w pos len
  if n == 0 then old else setBits old pos n a

/-- Leading zero bits among the low `n` bits (R119). -/
def clzElem (a : Nat) : Nat → Nat
  | 0 => 0
  | n + 1 => if a.testBit n then 0 else 1 + clzElem a n

/-- Trailing zero bits, at most `n`. -/
def ctzElem (a : Nat) : Nat → Nat
  | 0 => 0
  | n + 1 => if a % 2 == 1 then 0 else 1 + ctzElem (a / 2) n

def popcElem (a : Nat) : Nat → Nat
  | 0 => 0
  | n + 1 => (if a.testBit n then 1 else 0) + popcElem a n

def brevElem (w : Nat) (a : Nat) : Nat := ofBits w fun i => a.testBit (w - 1 - i)
where
  ofBits (w : Nat) (f : Nat → Bool) : Nat := match w with
    | 0 => 0
    | n + 1 => ofBits n f + (if f n then 2 ^ n else 0)

/-! ### Major 0x04 -/

/-- ADD (R116). -/
def execAdd (o : Ops) (s : State) : Outcome State Fault Refusal :=
  binaryOp o s (addElem o.fmt.width) fun w a b => tagAdd w (o.fmt == .b64) a b

/-- SUB (R116). -/
def execSub (o : Ops) (s : State) : Outcome State Fault Refusal :=
  binaryOp o s (subElem o.fmt.width) fun w a b => tagSub w (o.fmt == .b64) a b

/-- ADDS (R116). -/
def execAdds (o : Ops) (s : State) : Outcome State Fault Refusal :=
  binaryOp o s (satElem o.fmt.width (opSigned o) (· + ·)) tag2

/-- SUBS (R116). -/
def execSubs (o : Ops) (s : State) : Outcome State Fault Refusal :=
  binaryOp o s (satElem o.fmt.width (opSigned o) (· - ·)) tag2

/-- NEG (R116). -/
def execNeg (o : Ops) (s : State) : Outcome State Fault Refusal :=
  unaryOp o s (subElem o.fmt.width 0) tag1

/-- ABS (R116). -/
def execAbs (o : Ops) (s : State) : Outcome State Fault Refusal :=
  unaryOp o s (absElem o.fmt.width) tag1

/-- MUL (R116). -/
def execMul (o : Ops) (s : State) : Outcome State Fault Refusal :=
  binaryOp o s (mulElem o.fmt.width) fun w a b => tagMul w (o.fmt == .b64) a b

/-- MULH (R116). -/
def execMulh (o : Ops) (s : State) : Outcome State Fault Refusal :=
  binaryOp o s (mulhElem o.fmt.width (opSigned o)) tag2

/-- MAD (R116). -/
def execMad (o : Ops) (s : State) : Outcome State Fault Refusal :=
  ternaryOp o s (fun a b c => (a * b + c) % 2 ^ o.fmt.width) tag3

/-- MADW (R117): destination and C of twice the width, sources of the parity MOD[0]. -/
def execMadw (o : Ops) (s : State) : Outcome State Fault Refusal :=
  vector o s fun c g old =>
    let w := o.fmt.width
    let h := if o.mod.getLsbD 0 then 1 else 0
    let a := c.read o (some o.fmt) o.a
    let b := c.read o (some o.fmt) o.b
    let x := c.read o (some (fmtOfWidth (2 * w))) o.c
    let v (y : Lanes) (e : Nat) : Int := valueOf w o.fmt.signed (elem y w (2 * e + h))
    { val := mapActive g (2 * w) old.val fun e => wrapTo (2 * w) (v a.val e * v b.val e + elem x.val (2 * w) e),
      tag := tag3 (g.all (2 * w)) a.tag b.tag x.tag }

/-- MIN (R116). -/
def execMin (o : Ops) (s : State) : Outcome State Fault Refusal :=
  binaryOp o s (minElem o.fmt.width (opSigned o)) tag2

/-- MAX (R116). -/
def execMax (o : Ops) (s : State) : Outcome State Fault Refusal :=
  binaryOp o s (maxElem o.fmt.width (opSigned o)) tag2

/-! ### Major 0x30 -/

/-- DIV (R118). -/
def execDiv (o : Ops) (s : State) : Outcome State Fault Refusal :=
  binaryOp o s (divElem o.fmt.width (opSigned o)) tag2

/-- REM (R118). -/
def execRem (o : Ops) (s : State) : Outcome State Fault Refusal :=
  binaryOp o s (remElem o.fmt.width (opSigned o)) tag2

/-! ### Major 0x05 -/

/-- AND (R119). -/
def execAnd (o : Ops) (s : State) : Outcome State Fault Refusal := binaryOp o s (fun a b => a &&& b) tag2

/-- OR (R119). -/
def execOr (o : Ops) (s : State) : Outcome State Fault Refusal := binaryOp o s (fun a b => a ||| b) tag2

/-- XOR (R119). -/
def execXor (o : Ops) (s : State) : Outcome State Fault Refusal := binaryOp o s (fun a b => a ^^^ b) tag2

/-- ANDN (R119). -/
def execAndn (o : Ops) (s : State) : Outcome State Fault Refusal :=
  binaryOp o s (fun a b => a &&& notElem' o.fmt.width b) tag2

/-- NOT (R119). -/
def execNot (o : Ops) (s : State) : Outcome State Fault Refusal := unaryOp o s (notElem' o.fmt.width) tag1

/-- SHL (R119). -/
def execShl (o : Ops) (s : State) : Outcome State Fault Refusal :=
  vector o s fun c g old =>
    let w := o.fmt.width
    let a := c.read o (some o.fmt) o.a
    let b := c.read o (some o.fmt) o.b
    { val := mapActive g w old.val fun e => shlElem w (elem a.val w e) (elem b.val w e),
      tag := tagShl (g.all w) (o.fmt == .b64) a.tag b.tag (lane b.val 0) }

/-- SHR (R119). -/
def execShr (o : Ops) (s : State) : Outcome State Fault Refusal :=
  binaryOp o s (shrElem o.fmt.width (opSigned o)) tag2

/-- ROT (R119). -/
def execRot (o : Ops) (s : State) : Outcome State Fault Refusal := binaryOp o s (rotElem o.fmt.width) tag2

/-- BFE (R120). -/
def execBfe (o : Ops) (s : State) : Outcome State Fault Refusal :=
  ternaryOp o s (bfeElem o.fmt.width (opSigned o)) tag3

/-- BFI (R120): the old value of D is a source, for its tag too. -/
def execBfi (o : Ops) (s : State) : Outcome State Fault Refusal :=
  vector o s fun c g old =>
    let w := o.fmt.width
    let a := c.read o (some o.fmt) o.a
    let b := c.read o (some o.fmt) o.b
    let x := c.read o (some o.fmt) o.c
    { val := mapActive g w old.val fun e => bfiElem w (elem old.val w e) (elem a.val w e) (elem b.val w e) (elem x.val w e),
      tag := tagOf (g.all w) [a.tag, b.tag, x.tag, old.tag] }

/-- CLZ (R119). -/
def execClz (o : Ops) (s : State) : Outcome State Fault Refusal := unaryOp o s (fun a => clzElem a o.fmt.width) tag1

/-- CTZ (R119). -/
def execCtz (o : Ops) (s : State) : Outcome State Fault Refusal := unaryOp o s (fun a => ctzElem a o.fmt.width) tag1

/-- POPC (R119). -/
def execPopc (o : Ops) (s : State) : Outcome State Fault Refusal := unaryOp o s (fun a => popcElem a o.fmt.width) tag1

/-- BREV (R119). -/
def execBrev (o : Ops) (s : State) : Outcome State Fault Refusal := unaryOp o s (brevElem o.fmt.width) tag1

/-! ### Major 0x06 -/

/-- CMP (R121). -/
def execCmp (o : Ops) (s : State) : Outcome State Fault Refusal :=
  predicate o s fun c g old =>
    let w := o.fmt.width
    let a := c.read o (some o.fmt) o.a
    let b := c.read o (some o.fmt) o.b
    let v (x : Lanes) (e : Nat) : Int := valueOf w (opSigned o) (elem x w e)
    mapPred g w old fun e => intCmp (o.mod.toNat % 8) (v a.val e) (v b.val e)

/-- SEL (R122): with C = p0 it is a move of A. -/
def execSel (o : Ops) (s : State) : Outcome State Fault Refusal :=
  vector o s fun c g old =>
    let w := o.fmt.width
    let a := c.read o (some o.fmt) o.a
    let b := c.read o (some o.fmt) o.b
    let p := readPred c.g o.c
    { val := mapActive g w old.val fun e => if p.getLsbD (predIndex w e) then elem a.val w e else elem b.val w e,
      tag := if (Opnd.num o.c) == 0 then tagMov (g.all w) a.tag else .g }

/-- MOV (R123). -/
def execMov (o : Ops) (s : State) : Outcome State Fault Refusal :=
  unaryOp o s (fun a => a) tagMov

/-- MOVW (R123). -/
def execMovw (o : Ops) (s : State) : Outcome State Fault Refusal :=
  vector o s fun c g old =>
    let a := c.read o none o.a
    { val := mapActive g 64 old.val fun e => lane a.val e, tag := tagU (g.all 64) }

/-- LEA (R124). -/
def execLea (o : Ops) (s : State) : Outcome State Fault Refusal :=
  vector o s fun c g old =>
    let a := c.read o (some o.fmt) o.a
    let b := c.read o (some o.fmt) o.b
    let x := c.read o (some o.fmt) o.c
    let val := mapActive g 64 old.val fun e => (lane a.val e + lane b.val e * 2 ^ (lane x.val e % 64)) % 2 ^ 64
    { val := val, tag := tagLea (g.all 64) a.tag b.tag x.tag val }

/-- IDX (R124). -/
def execIdx (o : Ops) (s : State) : Outcome State Fault Refusal :=
  vector o s fun c g old =>
    let w := o.fmt.width
    let a := c.read o (some o.fmt) o.a
    let b := c.read o (some o.fmt) o.b
    { val := mapActive g w old.val fun e => (elem a.val w e + e * elem b.val w e) % 2 ^ w,
      tag := tagIdx (g.all w) (o.fmt == .b64) a.tag b.tag }

/-- One element converted between integer widths (R125). -/
def convInt (ws : Nat) (ssg : Bool) (wd : Nat) (dsg sat : Bool) (x : Nat) : Nat :=
  let v := valueOf ws ssg x
  wrapTo wd (if sat then satTo wd dsg v else v)

/-- The signedness of an integer format where b64 is i64 (R125). -/
def signed64 (f : Fmt) : Bool := f == .b64 || f.signed

/-- CVTI (R125). -/
def execCvti (o : Ops) (s : State) : Outcome State Fault Refusal :=
  vector o s fun c g old =>
    let st := (Fmt.ofCode (Opnd.num o.b)).getD .b64
    let part := (Opnd.num o.c)
    let wd := o.fmt.width
    let ws := st.width
    let a := c.read o (some st) o.a
    let conv := convInt ws (signed64 st) wd (signed64 o.fmt) (o.mod.getLsbD 0)
    if ws ≤ wd then
      let nd := 64 / wd
      { val := mapActive g wd old.val fun e => conv (elem a.val ws (e / nd * (64 / ws) + part * nd + e % nd)),
        tag := tag1 (g.all wd) a.tag }
    else
      let nd := 64 / wd
      let ns := 64 / ws
      let part' (e : Nat) : Bool := decide (part * ns ≤ e % nd) && decide (e % nd < part * ns + ns)
      { val := mapActive g wd old.val fun e =>
          if part' e then conv (elem a.val ws (e / nd * ns + (e % nd - part * ns))) else elem old.val wd e,
        tag := tagOf (g.all wd) [a.tag, old.tag] }

/-- PACK (R126). In every operand that is read at a width other than that of FMT, here A and B at 2 w, a constant gives each element the
low bits of its value (DESIGN CHOICE: R11 speaks of elements of FMT and of raw integers). -/
def execPack (o : Ops) (s : State) : Outcome State Fault Refusal :=
  vector o s fun c g old =>
    let w := o.fmt.width
    let n := 64 / w
    let a := c.read o (some (fmtOfWidth (2 * w))) o.a
    let b := c.read o (some (fmtOfWidth (2 * w))) o.b
    let conv := convInt (2 * w) o.fmt.signed w o.fmt.signed (o.mod.getLsbD 0)
    { val := mapActive g w old.val fun e =>
        if e % n < n / 2 then conv (elem a.val (2 * w) (e / n * (n / 2) + e % n))
        else conv (elem b.val (2 * w) (e / n * (n / 2) + e % n - n / 2)),
      tag := tag2 (g.all w) a.tag b.tag }

/-- UNPK (R126). -/
def execUnpk (o : Ops) (s : State) : Outcome State Fault Refusal :=
  vector o s fun c g old =>
    let w := o.fmt.width
    let n := 64 / w
    let h := if o.mod.getLsbD 0 then n / 2 else 0
    let a := c.read o (some o.fmt) o.a
    { val := mapActive g (2 * w) old.val fun e =>
        wrapTo (2 * w) (valueOf w o.fmt.signed (elem a.val w (e / (n / 2) * n + e % (n / 2) + h))),
      tag := tag1 (g.all (2 * w)) a.tag }

/-- PLOG (R127). -/
def execPlog (o : Ops) (s : State) : Outcome State Fault Refusal :=
  predicate o s fun c g old =>
    let a := readPred c.g o.a
    let b := readPred c.g o.b
    ofPred fun i =>
      if g.bit i then o.mod.getLsbD ((if a.getLsbD i then 2 else 0) + (if b.getLsbD i then 1 else 0)) else old.getLsbD i

/-- PMOV (R128), from a vector to a predicate with MOD[0] = 0, from a predicate to a vector otherwise. -/
def execPmov (o : Ops) (s : State) : Outcome State Fault Refusal :=
  if o.mod.getLsbD 0 then
    vector o s fun c g old =>
      let p := readPred c.g o.a
      { val := ofElems 8 fun i => if g.bit i then (if p.getLsbD i then 0xFF else 0) else elem old.val 8 i, tag := .g }
  else
    predicate o s fun c g old =>
      let a := c.read o none o.a
      ofPred fun i => if g.bit i then elem a.val 8 i != 0 else old.getLsbD i

/-- The meanings of majors 0x04 to 0x06, by instruction: what the prologue unit may execute (R408). -/
def alu? : Instr → Option (State → Outcome State Fault Refusal)
  | .add o => some (execAdd o) | .sub o => some (execSub o) | .adds o => some (execAdds o) | .subs o => some (execSubs o)
  | .neg o => some (execNeg o) | .abs o => some (execAbs o) | .mul o => some (execMul o) | .mulh o => some (execMulh o)
  | .mad o => some (execMad o) | .madw o => some (execMadw o) | .min o => some (execMin o) | .max o => some (execMax o)
  | .and o => some (execAnd o) | .or o => some (execOr o) | .xor o => some (execXor o) | .andn o => some (execAndn o)
  | .not o => some (execNot o) | .shl o => some (execShl o) | .shr o => some (execShr o) | .rot o => some (execRot o)
  | .bfe o => some (execBfe o) | .bfi o => some (execBfi o) | .clz o => some (execClz o) | .ctz o => some (execCtz o)
  | .popc o => some (execPopc o) | .brev o => some (execBrev o) | .cmp o => some (execCmp o) | .sel o => some (execSel o)
  | .mov o => some (execMov o) | .movw o => some (execMovw o) | .lea o => some (execLea o) | .idx o => some (execIdx o)
  | .cvti o => some (execCvti o) | .pack o => some (execPack o) | .unpk o => some (execUnpk o)
  | .plog o => some (execPlog o) | .pmov o => some (execPmov o)
  | _ => none

end Sys2Proof.Machine
end

