-- ==== Sys2Proof/Machine/Transcend.lean ====
section
/-! DEFINITION. The special functions of major 0x08 (R135, R136), correctly rounded: each function is enclosed between
two integers at a fixed-point precision, and the precision rises until both ends round to one code. -/

namespace Sys2Proof.Machine

/-- Numerators at scale 2^P: `a * b` and `a / n`, truncated. -/
def fxMul (P a b : Nat) : Nat := a * b / 2 ^ P

/-- The series 2 × Σ z^(2k+1) / (2k+1), which is ln((1+z)/(1−z)), `n` terms from term `k`, `t` being z^(2k+1). -/
def lnSeries (P z2 : Nat) : Nat → Nat → Nat → Nat
  | 0, _, _ => 0
  | n + 1, k, t => t / (2 * k + 1) + lnSeries P z2 n (k + 1) (fxMul P t z2)

/-- ln(a/b) at scale 2^P for 1 ≤ a/b ≤ 2, in error by less than 2^11 units: z = (a−b)/(a+b) is at most 1/3. -/
def lnRatio (P a b : Nat) : Nat :=
  let z := (a - b) * 2 ^ P / (a + b)
  2 * lnSeries P (fxMul P z z) (P / 3 + 2) 0 z

/-- ln 2 at scale 2^P. -/
def ln2 (P : Nat) : Nat := lnRatio P 2 1

/-- Σ x^k / k! from term `k`, `t` being x^(k)/k!. -/
def expSeries (P x : Nat) : Nat → Nat → Nat → Nat
  | 0, _, _ => 0
  | n + 1, k, t => t + expSeries P x n (k + 1) (fxMul P t x / (k + 1))

/-- Σ (−1)^k x^(2k) / (2k)!-like alternating series: `t` is the magnitude of the term, `d` its last divisor. -/
def trigSeries (P x2 : Nat) : Nat → Nat → Nat → Bool → Int
  | 0, _, _, _ => 0
  | n + 1, d, t, neg => (if neg then -(t : Int) else (t : Int)) +
      trigSeries P x2 n (d + 2) (fxMul P t x2 / ((d + 1) * (d + 2))) (!neg)

/-- arctan(1/q) at scale 2^P: Σ (−1)^k / ((2k+1) q^(2k+1)). -/
def arctanInv (q2 : Nat) : Nat → Nat → Nat → Bool → Int
  | 0, _, _, _ => 0
  | n + 1, k, t, neg => (if neg then -((t / (2 * k + 1) : Nat) : Int) else ((t / (2 * k + 1) : Nat) : Int)) +
      arctanInv q2 n (k + 1) (t / q2) (!neg)

/-- π at scale 2^P, by 16 arctan(1/5) − 4 arctan(1/239), in error by less than 2^14 units. -/
def piAt (P : Nat) : Nat :=
  (16 * arctanInv 25 (P / 4 + 2) 0 (2 ^ P / 5) false - 4 * arctanInv 57121 (P / 15 + 2) 0 (2 ^ P / 239) false).toNat

/-- An enclosure: the value lies between lo × 2^q and hi × 2^q. -/
structure Enclosure where
  lo : Int
  hi : Int
  q : Int

/-- The code of an integer times 2^q, rounded under .rne. -/
def roundInt (f : FloatFmt) (x q : Int) : Nat := f.round .ieee 0 (decide (x < 0)) x.natAbs q

/-- Rounding of a function given by its enclosures at rising precision. The last precision stands if none before it
decides. -/
def roundBy (f : FloatFmt) (g : Nat → Enclosure) : List Nat → Nat
  | [] => 0
  | [P] => let e := g P; roundInt f e.lo e.q
  | P :: Ps =>
    let e := g P
    let lo := roundInt f e.lo e.q
    if lo == roundInt f e.hi e.q then lo else roundBy f g Ps

/-- The precisions tried. Below 2^−70 no sine or cosine of a finite FP32 value falls, and the other functions need less,
so the second precision already leaves more than 200 bits beyond a significand. -/
def precisions : List Nat := [192, 384, 768]

/-- The width left on each side of a computed value, above the truncation errors of its series. -/
def slack : Int := 65536

/-- floor(m × 2^e) at scale 2^P. -/
def fxOf (P : Nat) (m : Nat) (e : Int) : Nat :=
  let s := e + P
  if 0 ≤ s then m * 2 ^ s.toNat else m / 2 ^ (-s).toNat

/-- 2^x for x = (−1)^neg × m × 2^e, below 2^13 in magnitude: x = i + r with 0 ≤ r < 1, at scale 2^P the value is
exp(r ln 2) × 2^i. -/
def exp2Enclosure (neg : Bool) (m : Nat) (e : Int) (P : Nat) : Enclosure :=
  let k : Nat := (max (-e) 0).toNat
  let x : Int := scaled neg m e (-(k : Int))
  let i : Int := x / (2 ^ k : Nat)
  let r : Nat := (x % (2 ^ k : Nat)).toNat
  let y := r * ln2 P / 2 ^ k
  let v := expSeries P y (P / 4 + 8) 0 (2 ^ P)
  { lo := v - slack, hi := v + slack, q := i - P }

/-- FEXP2 (R135, R136). -/
def fexp2 (f : FloatFmt) (x : Nat) : Nat :=
  match f.val x with
  | .nan => f.nan
  | .inf n => if n then f.signed false 0 else f.ofValue 0 (.inf false)
  | .fin neg m e =>
    if m == 0 then f.ofValue 0 Val.one
    else if 12 < Nat.log2 m + e then f.round .ieee 0 false 1 (if neg then -5000 else 5000)
    else
      let n := roundToInt 1 neg m e
      if (Val.ofInt n).cmp (.fin neg m e) == .eq then f.round .ieee 0 false 1 n
      else roundBy f (exp2Enclosure neg m e) precisions

/-- log2 of m × 2^e, m not a power of two: k + ln(m / 2^b) / ln 2 with b = floor(log2 m) and k = b + e. -/
def log2Enclosure (m : Nat) (e : Int) (P : Nat) : Enclosure :=
  let b := Nat.log2 m
  let l := lnRatio P m (2 ^ b) * 2 ^ P / ln2 P
  let v : Int := (b + e) * (2 ^ P : Nat) + l
  { lo := v - slack, hi := v + slack, q := -(P : Int) }

/-- FLOG2 (R135, R136). -/
def flog2 (f : FloatFmt) (x : Nat) : Nat :=
  match f.val x with
  | .nan => f.nan
  | .inf n => if n then f.nan else f.ofValue 0 (.inf false)
  | .fin neg m e =>
    if m == 0 then f.ofValue 0 (.inf true)
    else if neg then f.nan
    else if m == 2 ^ Nat.log2 m then f.ofValue 0 (Val.ofInt (Nat.log2 m + e))
    else roundBy f (log2Enclosure m e) precisions

/-- The magnitude m × 2^e reduced by π/2 at scale 2^P: the quotient mod 4 and the remainder. π is taken with enough
bits for the integer part of the argument. -/
def reduce (m : Nat) (e : Int) (P : Nat) : Nat × Nat :=
  let G := P + (Nat.log2 m + e + 1).toNat + 8
  let half := piAt G / 2
  let x := fxOf G m e
  (x / half % 4, x % half / 2 ^ (G - P))

/-- sin or cos of a magnitude of at least 2^−13. -/
def trigEnclosure (cos : Bool) (m : Nat) (e : Int) (P : Nat) : Enclosure :=
  let (k, r) := reduce m e P
  let r2 := fxMul P r r
  let s : Int := trigSeries P r2 (P / 4 + 8) 1 r false
  let c : Int := trigSeries P r2 (P / 4 + 8) 0 (2 ^ P) false
  let v : Int := match (k + (if cos then 1 else 0)) % 4 with
    | 0 => s
    | 1 => c
    | 2 => -s
    | _ => -c
  { lo := v - slack, hi := v + slack, q := -(P : Int) }

/-- FSIN (R135, R136). Below 2^−13 the sine lies within half an ulp below its argument, so it rounds to it. -/
def fsin (f : FloatFmt) (x : Nat) : Nat :=
  match f.val x with
  | .fin neg m e =>
    if m == 0 || decide (Nat.log2 m + e < -13) then f.ofValue 0 (.fin neg m e)
    else
      let r := roundBy f (trigEnclosure false m e) precisions
      if neg then r ^^^ 2 ^ (f.width - 1) else r
  | _ => f.nan

/-- FCOS (R135, R136). Below 2^−13 the cosine lies within 2^−27 below 1, so it rounds to 1. -/
def fcos (f : FloatFmt) (x : Nat) : Nat :=
  match f.val x with
  | .fin _ m e =>
    if m == 0 || decide (Nat.log2 m + e < -13) then f.ofValue 0 Val.one
    else roundBy f (trigEnclosure true m e) precisions
  | _ => f.nan

/-- FRCP and FRSQ and FSQRT on codes (R135, R136). -/
def frcp (f : FloatFmt) (x : Nat) : Nat := opVal f 0 (Val.div Val.one) x
def frsq (f : FloatFmt) (x : Nat) : Nat := opVal f 0 Val.rsqrt x
def fsqrt (f : FloatFmt) (rm x : Nat) : Nat := opVal f rm Val.sqrt x

end Sys2Proof.Machine
end

