-- ==== Sys2Proof/Machine/Floating.lean ====
section
/-! DEFINITION. The meanings of majors 0x07, 0x08 (special functions and FLUT), 0x09 and of FDIV: floating-point
arithmetic, the function table's reads, conversions and complex arithmetic (R130 to R138, R142 to R145). -/

namespace Sys2Proof.Machine

open Host (Outcome)

/-- The float format of an instruction; every FMT that these instructions accept names one (R47). -/
def opFloat (o : Ops) : FloatFmt := (floatFmt o.fmt).getD f32Fmt

/-- The rounding mode in MOD[2:0] (R48, R81). -/
def opRound (o : Ops) : Nat := o.mod.toNat % 8

/-! ### Major 0x07 -/

/-- FADD (R131). -/
def execFadd (o : Ops) (s : State) : Outcome State Fault Refusal := binaryOp o s (fadd (opFloat o) (opRound o)) tag2

/-- FSUB (R131). -/
def execFsub (o : Ops) (s : State) : Outcome State Fault Refusal := binaryOp o s (fsub (opFloat o) (opRound o)) tag2

/-- FMUL (R131). -/
def execFmul (o : Ops) (s : State) : Outcome State Fault Refusal := binaryOp o s (fmul (opFloat o) (opRound o)) tag2

/-- FFMA (R131). -/
def execFfma (o : Ops) (s : State) : Outcome State Fault Refusal := ternaryOp o s (ffma (opFloat o) (opRound o)) tag3

/-- FMIN (R131). -/
def execFmin (o : Ops) (s : State) : Outcome State Fault Refusal := binaryOp o s (opVal2 (opFloat o) 0 Val.min) tag2

/-- FMAX (R131). -/
def execFmax (o : Ops) (s : State) : Outcome State Fault Refusal := binaryOp o s (opVal2 (opFloat o) 0 Val.max) tag2

/-- FABS (R131). -/
def execFabs (o : Ops) (s : State) : Outcome State Fault Refusal := unaryOp o s (opVal (opFloat o) 0 Val.abs) tag1

/-- FNEG (R131). -/
def execFneg (o : Ops) (s : State) : Outcome State Fault Refusal := unaryOp o s (opVal (opFloat o) 0 Val.neg) tag1

/-- FCMP (R132). -/
def execFcmp (o : Ops) (s : State) : Outcome State Fault Refusal :=
  predicate o s fun c g old =>
    let w := o.fmt.width
    let a := c.read o (some o.fmt) o.a
    let b := c.read o (some o.fmt) o.b
    mapPred g w old fun e => fcmp (o.mod.toNat % 8) ((opFloat o).val (elem a.val w e)) ((opFloat o).val (elem b.val w e))

/-- FCLASS (R133): exactly one bit of the result is set. -/
def execFclass (o : Ops) (s : State) : Outcome State Fault Refusal := unaryOp o s (fun a => 2 ^ fclass (opFloat o) a) tag1

/-- FRND (R131). -/
def execFrnd (o : Ops) (s : State) : Outcome State Fault Refusal :=
  unaryOp o s (opVal (opFloat o) (opRound o) (Val.rnd (opRound o))) tag1

/-- FDIV (R134). -/
def execFdiv (o : Ops) (s : State) : Outcome State Fault Refusal := binaryOp o s (fdiv (opFloat o) (opRound o)) tag2

/-! ### Major 0x08 -/

/-- FRCP (R135, R136). -/
def execFrcp (o : Ops) (s : State) : Outcome State Fault Refusal := unaryOp o s (frcp (opFloat o)) tag1

/-- FRSQ (R135, R136). -/
def execFrsq (o : Ops) (s : State) : Outcome State Fault Refusal := unaryOp o s (frsq (opFloat o)) tag1

/-- FSQRT (R135, R136). -/
def execFsqrt (o : Ops) (s : State) : Outcome State Fault Refusal := unaryOp o s (fsqrt (opFloat o) (opRound o)) tag1

/-- FEXP2 (R135, R136). -/
def execFexp2 (o : Ops) (s : State) : Outcome State Fault Refusal := unaryOp o s (fexp2 (opFloat o)) tag1

/-- FLOG2 (R135, R136). -/
def execFlog2 (o : Ops) (s : State) : Outcome State Fault Refusal := unaryOp o s (flog2 (opFloat o)) tag1

/-- FSIN (R135, R136). -/
def execFsin (o : Ops) (s : State) : Outcome State Fault Refusal := unaryOp o s (fsin (opFloat o)) tag1

/-- FCOS (R135, R136). -/
def execFcos (o : Ops) (s : State) : Outcome State Fault Refusal := unaryOp o s (fcos (opFloat o)) tag1

/-- An entry of a bank of the function table (R137). -/
def Core.entry (c : Core) (bank : Bool) (i : Nat) : Nat :=
  (Sparse.getD (if bank then c.bank1 else c.bank0) (i % 1024) 0).toNat

/-- The FP32 value of a small number. -/
def f32OfNat (n : Nat) : Nat := f32Fmt.ofValue 0 (Val.ofInt n)

/-- The interpolation of R138, in an element format. -/
def interpolate (tab : Nat → Nat) (f : FloatFmt) (rm a x0 : Nat) (segs base scale : Nat) : Nat :=
  let x := f.val a
  let o := f.val x0
  if x.isNaN || o.isNaN then f.nan
  else
    let u := fmul f32Fmt 0 (f32Fmt.ofValue 0 (Val.add 0 x o.neg)) scale
    if f32Fmt.isNaN u then f.nan
    else
      let v := Val.min (Val.max (f32Fmt.val u) (Val.ofInt 0)) (Val.ofInt segs)
      let i := (v.toInt 1 64 true).toNat
      let i := if i == segs && 0 < segs then segs - 1 else i
      let frac := Val.add 0 v (Val.ofInt i).neg
      let t0 := tab (base + i)
      let d := fsub f32Fmt 0 (tab (base + i + 1)) t0
      f.ofValue rm (Val.add rm (Val.mul frac (f32Fmt.val d)) (f32Fmt.val t0))

/-- Whether a TBLLD of the run itself still writes the bank to which the run is bound (R139). -/
def tablePending (s : State) (c : Ctx) : Bool :=
  (s.core c.core).tables.any fun t => c.r.issuedTables.contains t.id && t.bank == c.r.bank

/-- FLUT (R138, R139). -/
def execFlut (o : Ops) (s : State) : Outcome State Fault Refusal :=
  match running s with
  | none => .fault .noIssuer
  | some c =>
    if tablePending s c then .next s
    else
      vector o s fun c g old =>
        let w := o.fmt.width
        let a := c.read o (some o.fmt) o.a
        let b := c.read o none o.b
        let x := c.read o (some o.fmt) o.c
        let tab := (s.core c.core).entry c.r.bank
        { val := mapActive g w old.val fun e =>
            let d := lane b.val (laneOf w e)
            interpolate tab (opFloat o) (opRound o) (elem a.val w e) (elem x.val w e) (bits d 42 10) (bits d 32 10) (bits d 0 32),
          tag := tag3 (g.all w) a.tag b.tag x.tag }

/-! ### Major 0x09 -/

/-- The descriptor of CVT (R142). -/
def cvtDesc (o : Ops) : Nat := ((o.b.const? o.ext).getD 0).toNat

/-- One element converted between two FMT formats (R50, R143). -/
def convElem (st dt : Fmt) (mod : BitVec 4) (x : Nat) : Nat :=
  let rm := mod.toNat % 8
  let ov : Overflow := if dt == .e4m3 || dt == .e5m2 then (if mod.getLsbD 3 then .ieee else .sat) else .ieee
  match floatFmt dt with
  | some f => f.ofVal ov rm (valOf st x)
  | none => wrapTo dt.width ((valOf st x).toInt rm dt.width (fmtSigned dt))

/-- Conversions between FMT formats (R143). -/
def cvtFormats (o : Ops) (st : Fmt) (part : Nat) (s : State) : Outcome State Fault Refusal :=
  vector o s fun c g old =>
    let wd := o.fmt.width
    let ws := st.width
    let a := c.read o (some st) o.a
    let conv := convElem st o.fmt o.mod
    let nd := 64 / wd
    let ns := 64 / ws
    if ws ≤ wd then
      { val := mapActive g wd old.val fun e => conv (elem a.val ws (e / nd * ns + part * nd + e % nd)),
        tag := tag1 (g.all wd) a.tag }
    else
      let here (e : Nat) : Bool := decide (part * ns ≤ e % nd) && decide (e % nd < part * ns + ns)
      { val := mapActive g wd old.val fun e =>
          if here e then conv (elem a.val ws (e / nd * ns + (e % nd - part * ns))) else elem old.val wd e,
        tag := tagOf (g.all wd) [a.tag, old.tag] }

/-- Byte `k` of lane `2 b` of a scale register (R53). -/
def scaleByte (v : Lanes) (k b : Nat) : Nat := elem v 8 (16 * b + k)

/-- From blocks (R144). The result of U sources is U (R15, R130); its lanes hold what R144 gives each of them. -/
def cvtFromBlocks (o : Ops) (sf : SFmt) (part k : Nat) (s : State) : Outcome State Fault Refusal :=
  vector o s fun c g old =>
    let w := o.fmt.width
    let a := c.read o (some .ui8) o.a
    let x := c.read o none o.c
    let nf := 2048 / w
    let val := mapActive g w old.val fun e =>
      let n := part * nf + e
      (opFloat o).ofValue (opRound o) (blockVal sf (scaleByte x.val k (n / 16)) (elem a.val 8 n))
    { val := val, tag := tag2 (g.all w) a.tag x.tag }

/-- Into blocks (R144): D takes the containers and C the scale bytes of the active blocks. Where D and C name one register, C is
written last (DESIGN CHOICE). -/
def cvtIntoBlocks (o : Ops) (sf : SFmt) (part k : Nat) (s : State) : Outcome State Fault Refusal :=
  compute o s fun c =>
    let g := c.guard o
    let w := o.fmt.width
    let a := c.read o (some o.fmt) o.a
    let nf := 2048 / w
    let blocks := (List.range (nf / 16)).filter fun j => g.active 8 (16 * (part * (nf / 16) + j))
    let step (d : Lanes × Lanes) (j : Nat) : Lanes × Lanes :=
      let b := part * (nf / 16) + j
      let (e, codes) := blockEncode sf (opRound o) ((List.range 16).map fun i => (opFloat o).val (elem a.val w (16 * j + i)))
      ((List.range 16).foldl (fun v i => setElem v 8 (16 * b + i) (codes.getD i 0)) d.1, setElem d.2 8 (16 * b + k) e)
    let (d, x) := blocks.foldl step ((oldDest c.r o.d).val, (oldDest c.r o.c).val)
    (c.g, writeDest (writeDest c.r o.d { val := d, tag := .g }) o.c { val := x, tag := .g })

/-- CVT (R142 to R144). -/
def execCvt (o : Ops) (s : State) : Outcome State Fault Refusal :=
  let desc := cvtDesc o
  let other := desc % 32
  let k := bits desc 5 3
  let part := bits desc 8 4
  if isBlockCode other then
    match SFmt.ofCode other with
    | some sf => if o.mod.getLsbD 3 then cvtIntoBlocks o sf part k s else cvtFromBlocks o sf part k s
    | none => .next s
  else cvtFormats o ((Fmt.ofCode other).getD .b64) part s

/-- The four products of R61 into a pair of accumulators, one rounding each. -/
def complexMac (f : FloatFmt) (rm : Nat) (acc : Option (Nat × Nat)) (ar ai br bi : Nat) : Nat × Nat :=
  match acc with
  | some (x, y) =>
    (ffma f rm (opVal f 0 Val.neg ai) bi (ffma f rm ar br x), ffma f rm ai br (ffma f rm ar bi y))
  | none => (ffma f rm (opVal f 0 Val.neg ai) bi (fmul f rm ar br), ffma f rm ai br (fmul f rm ar bi))

/-- The complex operations: position `c` is elements 2 c and 2 c + 1, active with its even element (R145). -/
def complexOp (o : Ops) (s : State) (acc : Bool) : Outcome State Fault Refusal :=
  vector o s fun c g old =>
    let w := o.fmt.width
    let a := c.read o (some o.fmt) o.a
    let b := c.read o (some o.fmt) o.b
    let x := c.read o (some o.fmt) o.c
    let whole := (List.range (elemCount w / 2)).all fun p => g.active w (2 * p)
    { val := ofElems w fun e =>
        let p := 2 * (e / 2)
        if g.active w p then
          let start := if acc then some (elem x.val w p, elem x.val w (p + 1)) else none
          let r := complexMac (opFloat o) (opRound o) start (elem a.val w p) (elem a.val w (p + 1)) (elem b.val w p) (elem b.val w (p + 1))
          if e % 2 == 0 then r.1 else r.2
        else elem old.val w e,
      tag := tagOf whole (if acc then [a.tag, b.tag, x.tag] else [a.tag, b.tag]) }

/-- CMUL (R145). -/
def execCmul (o : Ops) (s : State) : Outcome State Fault Refusal := complexOp o s false

/-- CFMA (R145). -/
def execCfma (o : Ops) (s : State) : Outcome State Fault Refusal := complexOp o s true

end Sys2Proof.Machine
end

