-- ==== Sys2Proof/Machine/CrossLane.lean ====
section
/-! DEFINITION. The meanings of majors 0x0A and 0x0B: cross-lane instructions (R146 to R148) and the fused expression
(R149 to R151). -/

namespace Sys2Proof.Machine

open Host (Outcome)

/-- SHFL (R146): the index is read as unsigned, so a constant index is an integer in every format (R11). -/
def execShfl (o : Ops) (s : State) : Outcome State Fault Refusal :=
  vector o s fun c g old =>
    let w := o.fmt.width
    let a := c.read o (some o.fmt) o.a
    let b := c.read o (some (fmtOfWidth w)) o.b
    let from' (e : Nat) : Int :=
      let k := elem b.val w e
      match o.mod.toNat % 4 with
      | 0 => k
      | 1 => (e : Int) - k
      | 2 => (e : Int) + k
      | _ => (e ^^^ k : Nat)
    { val := mapActive g w old.val fun e =>
        let i := from' e
        if 0 ≤ i ∧ i < elemCount w then elem a.val w i.toNat else elem a.val w e,
      tag := .g }

/-- BCST (R146): with no elected lane it has no effect (R16). -/
def execBcst (o : Ops) (s : State) : Outcome State Fault Refusal :=
  electing o s (fun c => c.pass s o) <| vector o s fun c g old =>
    let w := o.fmt.width
    let a := c.read o (some o.fmt) o.a
    let i := c.scalar o o.b % elemCount w
    { val := mapActive g w old.val fun _ => elem a.val w i, tag := .g }

/-- One step of a reduction (R147): the operators of MOD[2:0] on integers and on floats. -/
def reduceOp (f : Fmt) (op : Nat) (a b : Nat) : Nat :=
  let w := f.width
  match floatFmt f with
  | some ff =>
    match op with
    | 0 => fadd ff 0 a b
    | 1 => opVal2 ff 0 Val.min a b
    | _ => opVal2 ff 0 Val.max a b
  | none =>
    match op with
    | 0 => addElem w a b
    | 1 => minElem w (signed64 f) a b
    | 2 => maxElem w (signed64 f) a b
    | 3 => a &&& b
    | 4 => a ||| b
    | _ => a ^^^ b

/-- The identity of an operator (R147). -/
def reduceUnit (f : Fmt) (op : Nat) : Nat :=
  let w := f.width
  match floatFmt f with
  | some ff =>
    match op with
    | 0 => ff.signed true 0
    | 1 => ff.signed false (ff.inf.getD 0)
    | _ => ff.signed true (ff.inf.getD 0)
  | none =>
    match op with
    | 1 => wrapTo w (maxOf w (signed64 f))
    | 2 => wrapTo w (minOf w (signed64 f))
    | 3 => 2 ^ w - 1
    | _ => 0

/-- An operand of a float operator as it is read (R44, R45): a NaN as the canonical one, a BF16 subnormal as zero. -/
def readFloat (ff : Option FloatFmt) (x : Nat) : Nat := match ff with
  | some f => opVal f 0 id x
  | none => x

/-- The scan of R147 over elements `e` to `e + n − 1`: the register's bits from element `e` upward, and the final
accumulator. -/
def scanFrom (g : Guard) (f : Fmt) (op : Nat) (exclusive : Bool) (a old : Lanes) (e : Nat) (acc : Option Nat) :
    Nat → Nat × Option Nat
  | 0 => (0, acc)
  | n + 1 =>
    let w := f.width
    let i := e
    if g.active w i then
      let x := readFloat (floatFmt f) (elem a w i)
      let next := match acc with
        | some y => reduceOp f op y x
        | none => x
      let out := if exclusive then acc.getD (reduceUnit f op) else next
      let (rest, last) := scanFrom g f op exclusive a old (e + 1) (some next) n
      (out % 2 ^ w * 2 ^ (w * i) + rest, last)
    else
      let (rest, last) := scanFrom g f op exclusive a old (e + 1) acc n
      (elem old w i * 2 ^ (w * i) + rest, last)

/-- SCAN (R147). -/
def execScan (o : Ops) (s : State) : Outcome State Fault Refusal :=
  vector o s fun c g old =>
    let a := c.read o (some o.fmt) o.a
    { val := BitVec.ofNat 2048
        (scanFrom g o.fmt (o.mod.toNat % 8) (o.mod.getLsbD 3) a.val old.val 0 none (elemCount o.fmt.width)).1,
      tag := .g }

/-- RED (R147). -/
def execRed (o : Ops) (s : State) : Outcome State Fault Refusal :=
  vector o s fun c g old =>
    let w := o.fmt.width
    let a := c.read o (some o.fmt) o.a
    let acc := (scanFrom g o.fmt (o.mod.toNat % 8) false a.val old.val 0 none (elemCount w)).2
    { val := mapActive g w old.val fun _ => acc.getD 0, tag := .g }

/-- The votes of the active lanes (R148). -/
def votes (g : Guard) (a : PredBits) : List Bool := ((List.range 32).filter g.lane).map fun l => a.getLsbD (8 * l)

/-- VOTE (R148). -/
def execVote (o : Ops) (s : State) : Outcome State Fault Refusal :=
  if o.mod.toNat % 4 == 3 then
    vector o s fun c g old =>
      let a := readPred c.g o.a
      let ballot := (List.range 32).foldl (fun n l => if g.lane l && a.getLsbD (8 * l) then n + 2 ^ l else n) 0
      { val := ofElems 64 fun l => if g.lane l then ballot else lane old.val l, tag := .g }
  else
    predicate o s fun c g old =>
      let a := readPred c.g o.a
      let vs := votes g a
      let r := match o.mod.toNat % 4 with
        | 0 => vs.any id
        | 1 => vs.all id
        | _ => vs.all id || vs.all (!·)
      ofPred fun i => if g.lane (i / 8) then r else old.getLsbD i

/-! ### Expressions -/

/-- Pops and pushes of an operator (R150). -/
def xprArity (c : Nat) : Nat × Nat :=
  match c with
  | 0x01 | 0x02 | 0x03 | 0x04 | 0x09 | 0x0A | 0x0B | 0x0C | 0x27 => (0, 1)
  | 0x05 => (1, 2)
  | 0x06 => (2, 2)
  | 0x07 => (2, 3)
  | 0x08 => (1, 0)
  | 0x13 | 0x25 | 0x3C => (3, 1)
  | 0x10 | 0x11 | 0x12 | 0x14 | 0x15 | 0x22 | 0x23 | 0x24 => (2, 1)
  | 0x26 => (2, 0)
  | 0x30 | 0x31 | 0x32 | 0x33 | 0x34 | 0x35 | 0x36 | 0x37 | 0x38 | 0x39 => (2, 1)
  | _ => (1, 1)

/-- The stack check of R151: the failing slot and its kind, 1 underflow, 2 overflow, 3 the final depth. -/
def xprDepth : List Nat → Nat → Nat → Option (Nat × Nat)
  | [], slot, depth => if depth == 1 then none else some (slot, 3)
  | c :: cs, slot, depth =>
    let (pops, pushes) := xprArity c
    if depth < pops then some (slot, 1)
    else if 4 < depth - pops + pushes then some (slot, 2)
    else xprDepth cs (slot + 1) (depth - pops + pushes)

/-- What the operators compute in: the element width, the float format if it is one, the rounding mode, the signedness,
and the function table. -/
structure XprEnv where
  w : Nat
  ff : Option FloatFmt
  rm : Nat
  sg : Bool
  tab : Nat → Nat

/-- A float operator of R150 with one or two operands, `b` the top of the stack and `a` below it. -/
def xprFloat (f : FloatFmt) (rm : Nat) (tab : Nat → Nat) (c a b : Nat) : Nat :=
  let one := f.ofValue 0 Val.one
  let test (cc : Nat) : Nat := if fcmp cc (f.val a) (f.val b) then one else 0
  match c with
  | 0x10 => fadd f rm a b
  | 0x11 => fsub f rm a b
  | 0x12 => fmul f rm a b
  | 0x14 => opVal2 f 0 Val.min a b
  | 0x15 => opVal2 f 0 Val.max a b
  | 0x16 => opVal f 0 Val.abs b
  | 0x17 => opVal f 0 Val.neg b
  | 0x18 => opVal2 f 0 Val.max b 0
  | 0x19 => opVal f rm (Val.rnd rm) b
  | 0x1A => frcp f b
  | 0x1B => frsq f b
  | 0x1C => fsqrt f rm b
  | 0x1D => fexp2 f b
  | 0x1E => flog2 f b
  | 0x1F => fsin f b
  | 0x20 => fcos f b
  | 0x21 => interpolate tab f rm b 0 1023 0 0x3F800000
  | 0x22 => test 2
  | 0x23 => test 3
  | _ => test 0

/-- An integer operator of R150. -/
def xprInt (w : Nat) (sg : Bool) (c a b : Nat) : Nat :=
  match c with
  | 0x30 => addElem w a b
  | 0x31 => subElem w a b
  | 0x32 => mulElem w a b
  | 0x33 => minElem w sg a b
  | 0x34 => maxElem w sg a b
  | 0x35 => a &&& b
  | 0x36 => a ||| b
  | 0x37 => a ^^^ b
  | 0x38 => shlElem w a b
  | 0x39 => shrElem w sg a b
  | 0x3A => subElem w 0 b
  | _ => notElem' w b

/-- One operator on a stack, top first (R150, R151); the depth has been checked. A push alone leaves NaNs and subnormals as they are
(DEDUCED, log entry 103). -/
def xprStep (v : XprEnv) (inputs : Nat → Nat) (c : Nat) (st : List Nat) : List Nat :=
  let two (f : Nat → Nat → Nat) : List Nat := match st with
    | b :: a :: r => f a b :: r
    | r => r
  let one (f : Nat → Nat) : List Nat := match st with
    | b :: r => f b :: r
    | r => r
  if 1 ≤ c ∧ c ≤ 4 then readFloat v.ff (inputs (c - 1)) :: st
  else
    match c with
    | 0x05 => match st with | a :: r => a :: a :: r | r => r
    | 0x06 => match st with | b :: a :: r => a :: b :: r | r => r
    | 0x07 => match st with | b :: a :: r => a :: b :: a :: r | r => r
    | 0x08 => st.drop 1
    | 0x09 => 0 :: st
    | 0x0A => (match v.ff with | some f => f.ofValue 0 Val.one | none => 1) :: st
    | 0x13 => match st, v.ff with | z :: b :: a :: r, some f => ffma f v.rm a b z :: r | r, _ => r
    | 0x25 => match st, v.ff with
      | b :: a :: k :: r, some f => (if (f.val k).isZero then b else a) :: r
      | r, _ => r
    | 0x3C => match st with | b :: a :: k :: r => (if k == 0 then b else a) :: r | r => r
    | _ =>
      let binary := (xprArity c).1 == 2
      match v.ff with
      | some f => if binary then two (xprFloat f v.rm v.tab c) else one fun b => xprFloat f v.rm v.tab c b b
      | none => if binary then two (xprInt v.w v.sg c) else one fun b => xprInt v.w v.sg c b b

/-- An expression evaluated on an empty stack. -/
def xprEval (v : XprEnv) (inputs : Nat → Nat) (cs : List Nat) : Nat :=
  (cs.foldl (fun st c => xprStep v inputs c st) []).headD 0

/-- The inputs that the codes name, with their modes, in the order A, B, C, S4 (R149). -/
def xprSources (x : XprOps) : List (Opnd × Bool) :=
  let uses (k : Nat) : Bool := x.codes.any fun c => c.toNat == k
  [(x.o.a, x.o.ea, 1), (x.o.b, x.o.eb, 2), (x.o.c, x.o.ec, 3), (x.s4, x.e4, 4)].filterMap fun (o, m, k) =>
    if uses k then some (o, m) else none

/-- XPR (R149 to R151). An input that no operator names is not looked at. -/
def execXpr (x : XprOps) (s : State) : Outcome State Fault Refusal :=
  withRun s fun c =>
    let o := x.o
    let codes := x.codes.map (·.toNat)
    match xprDepth codes 0 0 with
    | some (slot, kind) => c.trap s 0x0D (slot + kind * 256) 0
    | none =>
      match readyOf c.g c.r ((.reg (.p o.pred), false) :: xprSources x) with
      | .stall => s
      | .trap n => c.trap s 0x03 0 (BitVec.ofNat 64 n)
      | .go =>
        if codes.contains 0x21 && tablePending s c then s
        else
          let w := o.fmt.width
          let v : XprEnv := { w := w, ff := floatFmt o.fmt, rm := opRound o, sg := opSigned o,
                              tab := (s.core c.core).entry c.r.bank }
          let a := c.read o (some o.fmt) o.a
          let b := c.read o (some o.fmt) o.b
          let z := c.read o (some o.fmt) o.c
          let y := c.read o (some o.fmt) x.s4
          let tags := (xprSources x).map fun (op, _) => (c.read o (some o.fmt) op).tag
          let g := c.guard o
          let old := oldDest c.r o.d
          let val := mapActive g w old.val fun e => xprEval v (fun k => match k with
            | 0 => elem a.val w e
            | 1 => elem b.val w e
            | 2 => elem z.val w e
            | _ => elem y.val w e) codes
          c.put s c.g ((writeDest c.r o.d { val := val, tag := tagOf (g.all w) tags }).after 2)

end Sys2Proof.Machine
end

