-- ==== Sys2Proof/Machine/Matrix.lean ====
section
/-! DEFINITION. The meanings of majors 0x0C and 0x0D but for MLD and MST: small matrices of 32 lanes (R152 to R164). -/

namespace Sys2Proof.Machine

open Host (Outcome)

/-- One lane's matrix: 36 FP32 codes, element (r, c) at 6 r + c (R153). -/
abbrev Mat := List Nat

def Mat.at' (m : Mat) (r c : Nat) : Nat := m.getD (6 * r + c) 0
def Mat.put (m : Mat) (r c x : Nat) : Mat := m.set (6 * r + c) x
def Mat.zero : Mat := List.replicate 36 0
def Mat.build (f : Nat → Nat → Nat) : Mat := (List.range 36).map fun q => f (q / 6) (q % 6)

/-- A lane of a matrix register. -/
def MReg.lane (m : MReg) (l : Nat) : Mat := (List.range 36).map fun q => mElem m.elems l q

/-- Whether a position lies in a shape. -/
def inShape (rows cols q : Nat) : Bool := decide (q / 6 < rows) && decide (q % 6 < cols)

/-- The bits of 36 elements. -/
def Mat.bits (m : Mat) : Nat := packElems 32 (fun q => m.getD q 0) 36

/-- A matrix register written lane by lane: active lanes take new elements, inactive lanes keep theirs inside the shape,
and every position outside the shape is +0.0 (R153). -/
def MReg.write (old : MReg) (g : Guard) (rows cols : Nat) (f : Nat → Mat) : MReg :=
  let laneBits (l : Nat) : Nat :=
    let m := if g.lane l then f l else old.lane l
    (Mat.build fun r c => if inShape rows cols (6 * r + c) then m.at' r c else 0).bits
  { rows := rows, cols := cols, elems := BitVec.ofNat 36864 (packElems 1152 laneBits 32), full := true }

/-- A matrix instruction: sources block or trap in order, an empty m destination stalls (R152), a failing shape check
traps with its number and field (R153). That empty registers come before the shape check is a DESIGN CHOICE: the spec gives no order. -/
def matrixOp (o : Ops) (s : State) (dest : Bool) (check : Ctx → Option (Nat × Nat)) (f : Ctx → Guard → Group × Run) :
    Outcome State Fault Refusal :=
  withRun s fun c =>
    match readyOf c.g c.r ([(.reg (.p o.pred), false), (o.a, o.ea), (o.b, o.eb), (o.c, o.ec)] ++
        (if dest then [(o.d, false)] else [])) with
    | .stall => s
    | .trap n => c.trap s 0x03 0 (BitVec.ofNat 64 n)
    | .go =>
      match check c with
      | some (n, field) => c.trap s 0x08 (n + field * 256) 0
      | none => c.put s (f c (c.guard o)).1 ((f c (c.guard o)).2.after (opWords o))

def Ctx.mat (c : Ctx) (x : Opnd) : MReg := c.g.mreg (Opnd.num x)

/-- An instruction with an m destination. -/
def toMatrix (o : Ops) (s : State) (check : Ctx → Option (Nat × Nat)) (f : Ctx → Guard → MReg) : Outcome State Fault Refusal :=
  matrixOp o s true check fun c g => (c.g.setM (Opnd.num o.d) (f c g), c.r)

/-- The FP32 value of a vector operand in a lane (R152). -/
def Ctx.f32 (c : Ctx) (o : Ops) (x : Opnd) (l : Nat) : Nat := elem (c.read o (some .f32) x).val 32 (2 * l)

/-! ### Elements, shapes and moves -/

/-- MZERO (R156). -/
def execMzero (o : Ops) (s : State) : Outcome State Fault Refusal :=
  toMatrix o s (fun _ => none) fun c g =>
    let d := c.mat o.d
    d.write g d.rows d.cols fun _ => Mat.zero

/-- MIDENT (R156). -/
def execMident (o : Ops) (s : State) : Outcome State Fault Refusal :=
  toMatrix o s (fun _ => none) fun c g =>
    let d := c.mat o.d
    d.write g d.rows d.cols fun _ => Mat.build fun r k => if r == k then 0x3F800000 else 0

/-- A position operand outside a shape (R153, check 4). -/
def badPosition (m : MReg) (pos : Nat) : Bool := decide (35 < pos) || !inShape m.rows m.cols pos

/-- MSETE (R156). -/
def execMsete (o : Ops) (s : State) : Outcome State Fault Refusal :=
  electing o s (fun c => c.pass s o) <|
  matrixOp o s true
    (fun c => if badPosition (c.mat o.d) (c.scalar o o.b) then some (4, 2) else none)
    fun c g =>
      let d := c.mat o.d
      let pos := c.scalar o o.b
      (c.g.setM (Opnd.num o.d) (d.write g d.rows d.cols fun l => (d.lane l).set pos (c.f32 o o.a l)), c.r)

/-- MGETE (R156). -/
def execMgete (o : Ops) (s : State) : Outcome State Fault Refusal :=
  electing o s (fun c => c.pass s o) <|
  matrixOp o s false
    (fun c => if badPosition (c.mat o.a) (c.scalar o o.b) then some (4, 2) else none)
    fun c g =>
      let a := c.mat o.a
      let pos := c.scalar o o.b
      let old := (oldDest c.r o.d).val
      (c.g, writeDest c.r o.d
        { val := ofElems 64 fun l => if g.lane l then mElem a.elems l pos else lane old l, tag := .g })

/-- MSHAPE (R156). The rows are checked before the columns (DESIGN CHOICE, log entry 150). -/
def execMshape (o : Ops) (s : State) : Outcome State Fault Refusal :=
  let bad (n : Nat) : Bool := n == 0 || decide (6 < n)
  electing o s (fun c => c.pass s o) <| matrixOp o s true
    (fun c => if bad (c.scalar o o.a) then some (5, 1) else if bad (c.scalar o o.b) then some (5, 2) else none)
    fun c g =>
      let d := c.mat o.d
      (c.g.setM (Opnd.num o.d) (d.write g (c.scalar o o.a) (c.scalar o o.b) fun l => d.lane l), c.r)

/-- MMV (R156). -/
def execMmv (o : Ops) (s : State) : Outcome State Fault Refusal :=
  toMatrix o s (fun _ => none) fun c g =>
    let a := c.mat o.a
    (c.mat o.d).write g a.rows a.cols fun l => a.lane l

/-! ### Elementwise and product forms -/

/-- Two matrices of one shape, element by element (R157). -/
def elementwise (o : Ops) (s : State) (f : Nat → Nat → Nat) : Outcome State Fault Refusal :=
  toMatrix o s
    (fun c => if (c.mat o.a).rows == (c.mat o.b).rows && (c.mat o.a).cols == (c.mat o.b).cols then none else some (1, 2))
    fun c g =>
      let a := c.mat o.a
      let b := c.mat o.b
      (c.mat o.d).write g a.rows a.cols fun l => Mat.build fun r k => f (mElem a.elems l (6 * r + k)) (mElem b.elems l (6 * r + k))

/-- MADD (R157). -/
def execMadd (o : Ops) (s : State) : Outcome State Fault Refusal := elementwise o s add32

/-- MSUB (R157). -/
def execMsub (o : Ops) (s : State) : Outcome State Fault Refusal := elementwise o s (fsub f32Fmt 0)

/-- MSCAL (R157). -/
def execMscal (o : Ops) (s : State) : Outcome State Fault Refusal :=
  toMatrix o s (fun _ => none) fun c g =>
    let a := c.mat o.a
    (c.mat o.d).write g a.rows a.cols fun l =>
      let k := c.f32 o o.b l
      Mat.build fun r i => mul32 (mElem a.elems l (6 * r + i)) k

/-- The dot product of R158 from position `t` on. -/
def dotFrom (a b : Mat) (i j k t acc : Nat) : Nat :=
  (List.range (k - t)).foldl (fun acc u => fma32 (a.at' i (t + u)) (b.at' (t + u) j) acc) acc

/-- MMUL (R158). -/
def execMmul (o : Ops) (s : State) : Outcome State Fault Refusal :=
  toMatrix o s (fun c => if (c.mat o.a).cols == (c.mat o.b).rows then none else some (2, 2)) fun c g =>
    let a := c.mat o.a
    let b := c.mat o.b
    (c.mat o.d).write g a.rows b.cols fun l =>
      let x := a.lane l
      let y := b.lane l
      Mat.build fun i j =>
        if inShape a.rows b.cols (6 * i + j) then dotFrom x y i j a.cols 1 (mul32 (x.at' i 0) (y.at' 0 j)) else 0

/-- MFMA (R158). The inner dimension is checked before the shape of C (DESIGN CHOICE, log entry 150). -/
def execMfma (o : Ops) (s : State) : Outcome State Fault Refusal :=
  toMatrix o s
    (fun c =>
      let a := c.mat o.a
      let b := c.mat o.b
      let z := c.mat o.c
      if a.cols != b.rows then some (2, 2) else if z.rows == a.rows && z.cols == b.cols then none else some (2, 3))
    fun c g =>
      let a := c.mat o.a
      let b := c.mat o.b
      let z := c.mat o.c
      (c.mat o.d).write g a.rows b.cols fun l =>
        let x := a.lane l
        let y := b.lane l
        Mat.build fun i j =>
          if inShape a.rows b.cols (6 * i + j) then dotFrom x y i j a.cols 0 (mElem z.elems l (6 * i + j)) else 0

/-- MTRN (R158). -/
def execMtrn (o : Ops) (s : State) : Outcome State Fault Refusal :=
  toMatrix o s (fun _ => none) fun c g =>
    let a := c.mat o.a
    (c.mat o.d).write g a.cols a.rows fun l => Mat.build fun i j => mElem a.elems l (6 * j + i)

/-! ### Factorisations -/

/-- The status word (R159): a failing pivot, or none, and the permutation. -/
def statusWord (fail : Option Nat) (perm : List Nat) : Nat :=
  packElems 3 (fun i => perm.getD i i) 6 + (match fail with | some p => 2 ^ 63 + p % 8 * 2 ^ 32 | none => 0)

def identityPerm : List Nat := [0, 1, 2, 3, 4, 5]

/-- Whether x > y as FP32 values; false when either is a NaN. -/
def gt32 (x y : Nat) : Bool := fcmp 4 (f32Fmt.val x) (f32Fmt.val y)

/-- s − Σ a[t] b[t] over t < j, one fused step each. -/
def subDot (a b : Nat → Nat) (j s : Nat) : Nat := (List.range j).foldl (fun s t => fma32 (neg32 (a t)) (b t) s) s

/-- Column `j` of the factor, rows j + 1 to n − 1 (R160). -/
def cholColumn (a l : Mat) (n j d : Nat) : Mat :=
  (List.range (n - (j + 1))).foldl (fun l k =>
    let i := j + 1 + k
    l.put i j (div32 (subDot (fun t => l.at' i t) (fun t => l.at' j t) j (a.at' i j)) d)) l

/-- R160 from column `j` on, `k` columns left: the factor and the failing pivot. -/
def cholFrom (a : Mat) (n tol : Nat) : Nat → Nat → Mat → Mat × Option Nat
  | 0, _, l => (l, none)
  | k + 1, j, l =>
    let s := subDot (fun t => l.at' j t) (fun t => l.at' j t) j (a.at' j j)
    if !gt32 s tol then (l.put j j s, some j)
    else
      let d := sqrt32 s
      cholFrom a n tol k (j + 1) (cholColumn a (l.put j j d) n j d)

/-- A matrix as a factorisation reads it: every NaN is the canonical one (R44, R152). -/
def Mat.read (a : Mat) : Mat := a.map fun x => if f32Fmt.isNaN x then f32Fmt.nan else x

def chol (a : Mat) (n tol : Nat) : Mat × Option Nat := cholFrom a.read n tol n 0 Mat.zero

/-- Whether |x| is larger than |y| for the choice of a pivot, a NaN being larger than every number (R161). -/
def pivotAbove (x y : Nat) : Bool :=
  if f32Fmt.isNaN y then false else f32Fmt.isNaN x || decide (f32Fmt.mag y < f32Fmt.mag x)

/-- The pivot row of column `j` (R161). -/
def pivotRow (w : Mat) (n j : Nat) : Nat :=
  (List.range (n - j)).foldl (fun p k => if pivotAbove (w.at' (j + k) j) (w.at' p j) then j + k else p) j

def swapRows (w : Mat) (p j : Nat) : Mat :=
  Mat.build fun r c => w.at' (if r == p then j else if r == j then p else r) c

def swapList (l : List Nat) (p j : Nat) : List Nat := (l.set p (l.getD j 0)).set j (l.getD p 0)

/-- The elimination of column `j` (R161). -/
def eliminate (w : Mat) (n j : Nat) : Mat :=
  (List.range (n - (j + 1))).foldl (fun w k =>
    let i := j + 1 + k
    let l := div32 (w.at' i j) (w.at' j j)
    (List.range (n - (j + 1))).foldl (fun w u =>
      let c := j + 1 + u
      w.put i c (fma32 (neg32 l) (w.at' j c) (w.at' i c))) (w.put i j l)) w

/-- R161 from column `j` on: the work matrix, the permutation, the number of swaps and the failing pivot; `fails` tests a
chosen pivot. -/
def luFrom (n : Nat) (fails : Nat → Bool) : Nat → Nat → Mat → List Nat → Nat → Mat × List Nat × Nat × Option Nat
  | 0, _, w, perm, swaps => (w, perm, swaps, none)
  | k + 1, j, w, perm, swaps =>
    let p := pivotRow w n j
    if fails (w.at' p j) then (w, perm, swaps, some j)
    else
      let w := swapRows w p j
      luFrom n fails k (j + 1) (eliminate w n j) (swapList perm p j) (if p == j then swaps else swaps + 1)

/-- A pivot of R161 that is a NaN or not above the tolerance. -/
def luFails (tol x : Nat) : Bool :=
  f32Fmt.isNaN x || fcmp 3 (f32Fmt.val x).abs (f32Fmt.val tol)

def lup (a : Mat) (n tol : Nat) : Mat × List Nat × Option Nat :=
  let (w, perm, _, fail) := luFrom n (luFails tol) n 0 a.read identityPerm 0
  (w, perm, fail)

/-- One column of the solve of R162, from its right-hand side. -/
def solveColumn (chol : Bool) (a : Mat) (n : Nat) (y : List Nat) : List Nat :=
  let fwd := (List.range n).foldl (fun y i =>
    let v := subDot (fun t => a.at' i t) (fun t => y.getD t 0) i (y.getD i 0)
    y.set i (if chol then div32 v (a.at' i i) else v)) y
  (List.range n).foldl (fun y k =>
    let i := n - 1 - k
    let v := (List.range k).foldl (fun s u =>
      let t := i + 1 + u
      fma32 (neg32 (if chol then a.at' t i else a.at' i t)) (y.getD t 0) s) (y.getD i 0)
    y.set i (div32 v (a.at' i i))) fwd

/-- The solve of R162 for the columns of `b`, rows taken through a permutation. -/
def solve (chol : Bool) (a b : Mat) (n q : Nat) (perm : List Nat) : Mat :=
  (List.range q).foldl (fun d c =>
    let y := (List.range 6).map fun i => if perm.getD i 0 < n then b.at' (perm.getD i 0) c else 0
    let x := solveColumn chol a n y
    (List.range n).foldl (fun d i => d.put i c (x.getD i 0)) d) Mat.zero

/-- The permutation in a status word (R159). -/
def permOf (w : Nat) : List Nat := (List.range 6).map fun i => bits w (3 * i) 3

/-- An instruction with an m destination and a status word in C (R159). -/
def factorOp (o : Ops) (s : State) (f : Nat → Nat → Mat → Mat × Nat) : Outcome State Fault Refusal :=
  withRun s fun c =>
    match readyOf c.g c.r [(.reg (.p o.pred), false), (o.a, o.ea), (o.b, o.eb), (o.d, false)] with
    | .stall => s
    | .trap n => c.trap s 0x03 0 (BitVec.ofNat 64 n)
    | .go =>
      let a := c.mat o.a
      if a.rows != a.cols then c.trap s 0x08 (3 + 1 * 256) 0
      else
        let g := c.guard o
        let rs := (List.range 32).map fun l => if g.lane l then f a.rows (c.f32 o o.b l) (a.lane l) else (Mat.zero, 0)
        let d := (c.mat o.d).write g a.rows a.cols fun l => (rs.getD l (Mat.zero, 0)).1
        let old := (oldDest c.r o.c).val
        let st := ofElems 64 fun l => if g.lane l then (rs.getD l (Mat.zero, 0)).2 else lane old l
        c.put s (c.g.setM (Opnd.num o.d) d) ((writeDest c.r o.c { val := st, tag := .g }).after (opWords o))

/-- MCHOL (R160). -/
def execMchol (o : Ops) (s : State) : Outcome State Fault Refusal :=
  factorOp o s fun n tol a =>
    let (l, fail) := chol a n tol
    (l, statusWord fail identityPerm)

/-- MLUP (R161). -/
def execMlup (o : Ops) (s : State) : Outcome State Fault Refusal :=
  factorOp o s fun n tol a =>
    let (w, perm, fail) := lup a n tol
    (w, statusWord fail perm)

/-- MSOLVE (R162). That A is square is checked before the rows of B (DESIGN CHOICE, log entry 150). -/
def execMsolve (o : Ops) (s : State) : Outcome State Fault Refusal :=
  toMatrix o s
    (fun c =>
      let a := c.mat o.a
      if a.rows != a.cols then some (3, 1) else if (c.mat o.b).rows == a.rows then none else some (2, 2))
    fun c g =>
      let a := c.mat o.a
      let b := c.mat o.b
      let z := c.read o none o.c
      let lu := o.mod.getLsbD 0
      (c.mat o.d).write g a.rows b.cols fun l =>
        solve (!lu) (a.lane l) (b.lane l) a.rows b.cols (if lu then permOf (lane z.val l) else identityPerm)

/-- MINV (R163). -/
def execMinv (o : Ops) (s : State) : Outcome State Fault Refusal :=
  factorOp o s fun n tol a =>
    let (w, perm, fail) := lup a n tol
    let unit := Mat.build fun r c => if r == c then 0x3F800000 else 0
    (if fail.isSome then List.replicate 36 0x7FC00000 else solve false w unit n n perm, statusWord fail perm)

/-- The determinant of R164. -/
def det (a : Mat) (n : Nat) : Nat :=
  let (w, _, swaps, fail) := luFrom n (fun x => f32Fmt.isNaN x || f32Fmt.mag x == 0) n 0 a identityPerm 0
  match fail with
  | some j => if f32Fmt.isNaN (w.at' (pivotRow w n j) j) then 0x7FC00000 else 0
  | none =>
    let d0 := if swaps % 2 == 1 then neg32 (w.at' 0 0) else w.at' 0 0
    (List.range (n - 1)).foldl (fun d j => mul32 d (w.at' (j + 1) (j + 1))) d0

/-- MDET (R164). -/
def execMdet (o : Ops) (s : State) : Outcome State Fault Refusal :=
  matrixOp o s false
    (fun c => if (c.mat o.a).rows == (c.mat o.a).cols then none else some (3, 1))
    fun c g =>
      let a := c.mat o.a
      let old := (oldDest c.r o.d).val
      (c.g, writeDest c.r o.d { val := ofElems 64 fun l => if g.lane l then det (a.lane l) a.rows else lane old l, tag := .g })

end Sys2Proof.Machine
end

