-- ==== Sys2Proof/Machine/MemoryOps.lean ====
section
/-! DEFINITION. The meanings of major 0x0E, of MLD and MST, and of the function table's TBLLD and TBLSW, with the arrival
of their data (R139, R140, R155, R167 to R177). -/

namespace Sys2Proof.Machine

open Host (Outcome)

/-! ### Elements and their addresses -/

/-- The translation register that an address names, none for vz (R167). -/
def Ctx.base (c : Ctx) (a : Opnd) : Option XReg :=
  match a with
  | .reg (.x n) => some (c.g.xreg n.val)
  | _ => none

/-- VBASE of an address, 0 for vz. -/
def vbaseOf (x : Option XReg) : Nat := (x.map (·.vbase.toNat)).getD 0

/-- The active elements of an instruction with offsets and addresses (R167), in ascending order. -/
def Ctx.elems (c : Ctx) (o : Ops) : List Elem :=
  let w := o.fmt.width
  let base := vbaseOf (c.base o.a)
  let b := (c.read o none o.b).val
  ((List.range (elemCount w)).filter ((c.guard o).active w)).map fun e =>
    let k := byteOff w e
    let x := lane b (laneOf w e)
    { idx := e, off := (x + k) % 2 ^ 64, ea := (base + x + k) % 2 ^ 64 }

/-- The single address of a U operand pair, from the elected lane (R16, R236). -/
def Ctx.address (c : Ctx) (o : Ops) : Elem :=
  let x := c.scalar o o.b
  { idx := 0, off := x, ea := (vbaseOf (c.base o.a) + x) % 2 ^ 64 }

/-- Bytes that an element occupies, and its nibble for a 4-bit format (R167). -/
def elemBytes (w : Nat) : Nat := max (w / 8) 1
def nibbleOf (w e : Nat) : Option Bool := if w == 4 then some (e % 2 == 1) else none

/-- Whether a place lies in host or linked memory. -/
def isRemote : Loc → Bool
  | .mem pa => regionOf pa == .host || regionOf pa == .linked
  | .pad _ _ => false

def isPad : Loc → Bool
  | .pad _ _ => true
  | .mem _ => false

/-- The origin of an access, for a trap at its arrival (R382). -/
def Ctx.origin (c : Ctx) : Origin :=
  let k := c.cause 0 0 0
  { slotB := c.r.slotB, pc := BitVec.ofNat 64 k.pc, inst := k.inst, inst2 := k.inst2 }

/-- Appending an access to a group's accesses. -/
def addAccess (s : State) (gid : Nat) (a : Access) : State := s.modGroup gid fun g => { g with accs := g.accs ++ [a] }

/-- A v register named by a long-latency instruction: empty (R17), and withdrawn from publication (R29). -/
def Group.emptyV (g : Group) (n : Nat) : Group := g.setV n { g.vreg n with full := false }
def Run.withdraw (r : Run) (n : Nat) : Run :=
  if r.inSet n then { r with withdrawn := r.withdrawn ||| ((1 : Word) <<< n) } else r

/-- The items of an access, lowest line first (R260). -/
def insertItem (x : Item) : List Item → List Item
  | [] => [x]
  | y :: ys => if x.loc.base.key < y.loc.base.key then x :: y :: ys else y :: insertItem x ys

def orderItems (xs : List Item) : List Item := xs.foldl (fun l x => insertItem x l) []

def itemsOf (w : Nat) (locs : List (Nat × Nat × Loc)) : List Item :=
  orderItems (locs.map fun (e, _, l) => { idx := e, loc := l, size := elemBytes w, nib := nibbleOf w e })

/-- A new access. -/
def newAccess (c : Ctx) (id : Nat) (use : Use) (items : List Item) (absent : List Nat) (policy : Nat)
    (vas : List (Nat × Word)) : Access :=
  { id := id, use := use, todo := items, vals := [], absent := absent, unread := [], begun := false, policy := policy, reqs := [], cancelled := false,
    origin := c.origin, poison := none, detail := 6, vas := vas }

/-- Pages named by the elements that lie on absent pages. -/
def pagesOf (absent : List (Nat × Nat × Nat × Nat)) : List (Nat × Nat) := absent.map fun (_, _, v, z) => (v, z)

/-- An open transaction ends when the group touches host or linked memory (R192). -/
def remoteAbort (c : Ctx) (locs : List (Nat × Nat × Loc)) : Bool := c.g.txn.isSome && locs.any fun (_, _, l) => isRemote l

/-- The address operands and the governing predicate, as sources (R18). -/
def addressSources (o : Ops) : List (Opnd × Bool) := [(.reg (.p o.pred), false), (o.a, o.ea), (o.b, o.eb)]

/-- As `perform`, with the sources named. -/
def performFrom (srcs : List (Opnd × Bool)) (s : State) (f : Ctx → State) : Outcome State Fault Refusal :=
  match running s with
  | none => .fault .noIssuer
  | some c =>
    match readyOf c.g c.r srcs with
    | .stall => .next s
    | .trap n => .next (c.trap s 0x03 0 (BitVec.ofNat 64 n))
    | .go => done (f c)

/-! ### Loads -/

/-- LD and LDS (R172, R173): a load's access is made; D and for LD the residency predicate become empty. Elements of LD on pages that
are not resident are looked up again when their lines are read (R183). -/
def loadOp (o : Ops) (s : State) (strict : Bool) : Outcome State Fault Refusal :=
  performFrom (addressSources o) s fun c =>
    let w := o.fmt.width
    let (v, s) := check s c.seat (c.base o.a) .rd (elemBytes w) (fun _ => false) (c.elems o)
    match v with
    | .held => s
    | .misaligned ea => c.trap s 0x07 0 (BitVec.ofNat 64 ea)
    | .access d ea => c.trap s 0x06 d (BitVec.ofNat 64 ea)
    | .go locs absent =>
      if strict && !absent.isEmpty then residencyFault s c.seat .rd (pagesOf absent)
      else if remoteAbort c locs then abortTxn s c.gid 0x0B
      else
        let (id, s) := s.fresh
        let d := Opnd.num o.d
        let use : Use := .ld d (if strict then none else some (Opnd.num o.c)) w
        let a := { newAccess c id use (itemsOf w locs) (absent.map (·.1)) (o.mod.toNat % 4)
            ((locs.map fun (e, ea, _) => (e, BitVec.ofNat 64 ea)) ++ absent.map fun (e, ea, _, _) => (e, BitVec.ofNat 64 ea)) with
          unread := absent.map fun (e, ea, _, _) => (e, ea) }
        let g := c.g.emptyV d
        let g := if strict then g else g.setP (Opnd.num o.c) { g.preg (Opnd.num o.c) with full := false }
        c.put s { g with accs := g.accs ++ [a] } ((c.r.withdraw d).after (opWords o))

/-- LD (R172). -/
def execLd (o : Ops) (s : State) : Outcome State Fault Refusal := loadOp o s false

/-- LDS (R173). -/
def execLds (o : Ops) (s : State) : Outcome State Fault Refusal := loadOp o s true

/-- The value found for an element, 0 where its page was not resident. -/
def Access.value (a : Access) (e : Nat) : Option Nat := (a.vals.find? fun v => v.1 == e).map (·.2)

/-- Whether requests to banks, and reads at the host or a linked device, have been answered. -/
def answered (s : State) (reqs : List Nat) : Bool :=
  let hit (r : Remote) : Bool := match r with
    | .read id _ => reqs.contains id
    | .atom a => reqs.contains a.id
    | _ => false
  served s reqs && !(s.outstanding.any fun o => hit o.what) && !(s.delivery.any fun q => q.2.any hit)

/-- The destination register of an access's data. -/
def Use.target : Use → Option (Bool × Nat)
  | .ld d _ _ => some (false, d)
  | .atomic d _ => some (false, d)
  | .drain d => some (false, d)
  | .mld m _ => some (true, m)
  | _ => Option.none

/-- An access whose data may arrive: everything performed and answered, and no earlier access of the group has the same
destination (R29: the last write in program order decides). -/
def arrivalReady (s : State) (g : Group) (id : Nat) : Option Access :=
  let before := g.accs.takeWhile fun a => a.id != id
  match g.accs.find? fun a => a.id == id with
  | none => none
  | some a =>
    if !a.pending && answered s a.reqs && !(before.any fun b => b.use.target.isSome && b.use.target == a.use.target) then some a
    else none

/-- The fault of an element of an access, at its arrival; that of the lowest element stands (R170, R382). -/
def Access.fail (a : Access) (e detail : Nat) : Access :=
  let first := match a.poison with
    | some p => decide (e < p.1)
    | none => true
  if first then { a with poison := some (e, ((a.vas.find? fun v => v.1 == e).map (·.2)).getD 0), detail := detail } else a

/-- The access fault of a poisoned line at arrival (R382), or of a failed answer (R430, R434). -/
def poisonTrap (s : State) (gid : Nat) (a : Access) (p : Word) : State :=
  takeTrap s gid { code := 0x06, detail := a.detail, pc := a.origin.pc.toNat, inst := a.origin.inst, inst2 := a.origin.inst2,
                   addr := p, slotB := a.origin.slotB } none

/-- Whether another access still pending names the same destination. -/
def stillPending (g : Group) (a : Access) : Bool :=
  g.accs.any fun b => b.id != a.id && !b.cancelled && b.use.target == a.use.target

/-- Writing the data of a load (R172): active elements that were found, zero on absent pages, everything else kept. Where a later load of
the group still names the register, it stays empty until the last has arrived, while the residency predicate becomes full with the first
(DEDUCED: R17 speaks of one result that arrives). -/
def Group.arriveLoad (g : Group) (a : Access) (d : Nat) (p : Option Nat) (w : Nat) : Group :=
  let r := g.vreg d
  let val := ofElems w fun e => match a.value e with
    | some x => x
    | none => if a.absent.contains e then 0 else elem r.val w e
  let g := if a.cancelled then g
    else g.setV d { val := val, tag := .g, full := if stillPending g a then r.full else true }
  match p with
  | none => g
  | some n =>
    let q := g.preg n
    g.setP n { full := true, val := ofPred fun i =>
      let e := 8 * i / w
      let hit (e : Nat) : Option Bool := if (a.value e).isSome then some true else if a.absent.contains e then some false else none
      match hit e with
      | some b => b
      | none => if w == 4 then (hit (e + 1)).getD (q.val.getLsbD i) else q.val.getLsbD i }

/-- Removing an access, its destinations full again with the values they hold (R173). -/
def Group.dropAccess (g : Group) (a : Access) : Group :=
  let g := { g with accs := g.accs.filter fun b => b.id != a.id }
  match a.use with
  | .ld d p _ =>
    let g := if a.cancelled then g else g.setV d { g.vreg d with full := true }
    (match p with | some n => g.setP n { g.preg n with full := true } | none => g)
  | .atomic d _ => if a.cancelled then g else g.setV d { g.vreg d with full := true }
  | .mld m _ => g.setM m { g.mreg m with full := true }
  | _ => g

/-- LOAD_DATA_ARRIVAL (R172): the data of a load reach their registers; an access that has no register ends, and so does the
read of a command block whose instruction has been discarded. -/
def execLoadDataArrival (gid acc : Nat) (s : State) : Outcome State Fault Refusal :=
  match Sparse.find? s.groups gid with
  | none => .next s
  | some g =>
    match arrivalReady s g acc with
    | none => .next s
    | some a =>
      let rest := { g with accs := g.accs.filter fun b => b.id != acc }
      match a.use with
      | .ld d p w =>
        if g.retired then .next (s.putGroup gid rest)
        else
          match a.poison with
          | some x => .next (poisonTrap (s.putGroup gid (g.dropAccess a)) gid a x.2)
          | none => .next (s.putGroup gid (rest.arriveLoad a d p w))
      | .none =>
        match a.poison with
        | some x => if g.retired then .next (s.putGroup gid rest) else .next (poisonTrap (s.putGroup gid rest) gid a x.2)
        | none => .next (s.putGroup gid rest)
      | .block => if (g.run.map (·.stage)).getD 0 == 2 then .next s else .next (s.putGroup gid rest)
      | _ => .next s

/-! ### Stores -/

/-- One element to be stored: where, how many bytes, which nibble, its value and its address. -/
structure Piece where
  loc : Loc
  size : Nat
  nib : Option Bool
  val : Nat
  ea : Nat
  deriving DecidableEq, Repr

def Piece.mask (p : Piece) : BitVec 256 :=
  match p.nib with
  | none => byteMask p.loc.place p.size
  | some hi => (1 : BitVec 256) <<< (2 * p.loc.place + (if hi then 1 else 0))

def Piece.data (p : Piece) : LineBits :=
  match p.nib with
  | none => BitVec.ofNat 1024 (p.val % 2 ^ (8 * p.size) * 2 ^ (8 * p.loc.place))
  | some hi => BitVec.ofNat 1024 (p.val % 16 * 2 ^ (8 * p.loc.place + (if hi then 4 else 0)))

/-- Adding a piece to the lines of a store, ascending, a later piece standing over an earlier one (R174, R260). -/
def addPiece (policy : Nat) (p : Piece) : List Store → List Store
  | [] => [{ line := p.loc.base, va := p.ea / 128 * 128, data := p.data, mask := p.mask, policy := policy }]
  | x :: xs =>
    if x.line == p.loc.base then { x with data := mergeLine x.data p.data p.mask, mask := x.mask ||| p.mask } :: xs
    else if p.loc.base.key < x.line.key then
      { line := p.loc.base, va := p.ea / 128 * 128, data := p.data, mask := p.mask, policy := policy } :: x :: xs
    else x :: addPiece policy p xs

def storesOf (policy : Nat) (ps : List Piece) : List Store := ps.foldl (fun l p => addPiece policy p l) []

/-- The write set of a transaction with more stores (R192). -/
def mergeWrites (ws xs : List Store) : List Store :=
  xs.foldl (fun ws x =>
    if ws.any fun w => w.line == x.line then
      ws.map fun w => if w.line == x.line then { w with data := mergeLine w.data x.data x.mask, mask := w.mask ||| x.mask } else w
    else ws ++ [x]) ws

/-- The stores of an instruction (R261, R295, R192): held in an open transaction's write set, else into the FIFO as far as
there is room; an instruction whose stores have not all entered stands in place. -/
def issueStores (c : Ctx) (s : State) (xs : List Store) (n : Nat) : State :=
  match c.g.txn with
  | some t =>
    if xs.any fun x => isPad x.line then abortTxn s c.gid 0x0A
    else if xs.any fun x => isRemote x.line then abortTxn s c.gid 0x0B
    else
      let ws := mergeWrites t.writes xs
      if 32 < ws.length then abortTxn s c.gid 0x03 else c.next s { c.g with txn := some { t with writes := ws } } n
  | none =>
    let (rest, s) := enterStores s c.gid xs
    s.modGroup c.gid fun g => { g with run := some (if rest.isEmpty then c.r.after n else { c.r with stores := rest, stage := 1 }) }

/-- A store instruction that stands in place while its entries enter (R295). -/
def resumeStores (c : Ctx) (s : State) (n : Nat) : State :=
  let (rest, s) := enterStores s c.gid c.r.stores
  s.modGroup c.gid fun g => { g with
    run := some (if rest.isEmpty then { c.r.after n with stores := [] } else { c.r with stores := rest }) }

/-- ST (R174). -/
def execSt (o : Ops) (s : State) : Outcome State Fault Refusal :=
  performFrom (addressSources o ++ [(o.c, o.ec)]) s fun c =>
    if c.r.stage == 1 then resumeStores c s (opWords o)
    else if !loadsPerformed c.g then s
    else
      let w := o.fmt.width
      let (v, s) := check s c.seat (c.base o.a) .wr (elemBytes w) (fun _ => false) (c.elems o)
      match v with
      | .held => s
      | .misaligned ea => c.trap s 0x07 0 (BitVec.ofNat 64 ea)
      | .access d ea => c.trap s 0x06 d (BitVec.ofNat 64 ea)
      | .go locs absent =>
        if !absent.isEmpty then residencyFault s c.seat .wr (pagesOf absent)
        else
          let x := (c.read o (some o.fmt) o.c).val
          let ps : List Piece := locs.map fun (e, ea, l) =>
            { loc := l, size := elemBytes w, nib := nibbleOf w e, val := elem x w e, ea := ea }
          issueStores c s (storesOf (o.mod.toNat % 4) ps) (opWords o)

/-! ### Translation registers and page requests -/

/-- LTR (R175). -/
def execLtr (o : Ops) (s : State) : Outcome State Fault Refusal :=
  electing o s (fun c => c.pass s o) <| performFrom (addressSources o) s fun c =>
      let n := Opnd.num o.d
      let base := c.scalar o o.a
      let none' : XReg := { XReg.launch with vbase := BitVec.ofNat 64 base }
      if 2 ^ 56 ≤ base ∨ inPadWindow base then c.next s (c.g.setX n none') (opWords o)
      else
        match translate s c.core c.st.part c.la.asn base with
        | (.resident f z p, s) =>
          let k := base % pageBytes z
          let x : XReg :=
            { vbase := BitVec.ofNat 64 base, pbase := BitVec.ofNat 52 (f + k), valid := true, rd := p.rd, wr := p.wr,
              atomic := p.atomic, limit := BitVec.ofNat 32 (pageBytes z - k) }
          c.next s (c.g.setX n x) (opWords o)
        | (.held, s) => s
        | (_, s) => c.next s (c.g.setX n none') (opWords o)

/-- A closing instruction waits for the group's earlier loads (R260) and, but for TXC, ends an open transaction (R192);
otherwise it commits. -/
def closing (o : Ops) (srcs : List (Opnd × Bool)) (s : State) (f : Ctx → State) : Outcome State Fault Refusal :=
  performFrom srcs s fun c =>
    if !loadsPerformed c.g then s
    else if c.g.txn.isSome then abortTxn s c.gid 0x05
    else f c

/-- Whether a group waits on a page: the page is counted (R319). -/
def pageCounted (s : State) (u : Seat) (p : Nat × Nat) : Bool :=
  (s.core u.core).waiting.any fun e => e.part == u.part && e.asn == u.asn && e.vpage == p.1 && e.groups.contains u.gid

/-- PGREQ (R176): each page that it counts is requested, and it waits if it has counted a page of its own. -/
def execPgreq (o : Ops) (s : State) : Outcome State Fault Refusal :=
  closing o (addressSources o ++ [(o.c, o.ec)]) s fun c =>
    let w := o.fmt.width
    let p := readPred c.g o.c
    let es := (c.elems o).filter fun e => !p.getLsbD (predIndex w e.idx)
    let (v, s) := check s c.seat (c.base o.a) .rd (elemBytes w) (fun _ => false) es
    match v with
    | .held => s
    | .misaligned ea => c.trap s 0x07 0 (BitVec.ofNat 64 ea)
    | .access d ea => c.trap s 0x06 d (BitVec.ofNat 64 ea)
    | .go _ absent =>
      let ps := distinctPages (pagesOf absent)
      let s := waitOnPages s c.seat ps
      let s := requestPages s c.seat .rd (ps.filter (pageCounted s c.seat))
      s.modGroup c.gid fun g => { g with run := some { c.r.after (opWords o) with
        committed := true
        waits := if g.missing ≤ c.g.missing then c.r.waits else c.r.waits ++ [.pages] } }

/-- The lines that a prefetch brings in (R177): those of aligned, readable, resident elements outside the scratchpad; none while a walk
waits. -/
def prefLines (s : State) (c : Ctx) (o : Ops) : Option (List Nat) × State :=
  let es := (c.elems o).filter fun e => e.ea % elemBytes o.fmt.width == 0
  let (rs, s) := resolveAll s c.seat (c.base o.a) .rd es
  (if rs.any fun e => e.2 == .held then none
    else some (rs.filterMap fun (_, r) => match r with
      | .ok (.mem pa) => some (pa / 128 * 128)
      | _ => none).eraseDups, s)

/-- One line of a prefetch: it enters its slice, and under .ca and .ev the core's L1 once its home may be read. A line at the host or at a
linked device is asked for there. A prefetch never makes a tile current (R199). -/
def prefLine (s : State) (core policy pa : Nat) : State :=
  let wanted := usesL1 policy && (Sparse.find? (s.core core).l1 pa).isNone
  let fill (s : State) (req : Option Nat) : State :=
    let c := s.core core
    s.setCore core { c with l1 := Sparse.insert c.l1 pa (.fill false (policy == 2) req) }
  if isRemote (.mem pa) then
    match (if wanted then portOf s pa else none) with
    | some p =>
      let (id, s) := s.fresh
      send (fill s (some id)) core p (.read id pa)
    | none => s
  else if homeBusy s (.mem pa) then
    let (_, reqs, s) := homeRead (exchange s (dieOf core) (homeDie pa)) pa policy
    if wanted then fill s reqs.head? else s
  else (homeReadL1 s core pa policy true).2.2

/-- PREF (R177): it stands in place while a walk waits (R315). -/
def execPref (o : Ops) (s : State) : Outcome State Fault Refusal :=
  performFrom (addressSources o) s fun c =>
    match prefLines s c o with
    | (none, s) => s
    | (some lines, s) => c.next (lines.foldl (fun s pa => prefLine s c.core (o.mod.toNat % 4) pa) s) c.g (opWords o)

/-! ### MLD and MST -/

/-- The elements of a matrix in memory (R155), in ascending lane, row-major: number 36 l + 6 r + c. -/
def Ctx.matElems (c : Ctx) (o : Ops) (x : Opnd) (m : MReg) (rs z : Nat) : List Elem :=
  let base := vbaseOf (c.base x)
  let b := (c.read o none o.b).val
  ((List.range 32).filter (c.guard o).lane).flatMap fun l =>
    (((List.range 36).filter (inShape m.rows m.cols))).map fun q =>
      let k := q / 6 * rs + q % 6 * z
      { idx := 36 * l + q, off := (lane b l + k) % 2 ^ 64, ea := (base + lane b l + k) % 2 ^ 64 }

/-- The row stride that is no multiple of the element size traps with detail 1 at element (0, 0) of the lowest active
lane (R155). -/
def strideAddress (c : Ctx) (o : Ops) (x : Opnd) : Nat :=
  match (c.guard o).elected with
  | some l => (vbaseOf (c.base x) + lane (c.read o none o.b).val l) % 2 ^ 64
  | none => 0

/-- MLD (R155). -/
def execMld (o : Ops) (s : State) : Outcome State Fault Refusal :=
  electing o s (fun c => c.pass s o) <| performFrom (addressSources o ++ [(o.c, o.ec), (o.d, false)]) s fun c =>
    let z := o.fmt.width / 8
    let m := Opnd.num o.d
    let d := c.g.mreg m
    let rs := c.scalar o o.c
    if rs % z != 0 then c.trap s 0x07 1 (BitVec.ofNat 64 (strideAddress c o o.a))
    else
      let (v, s) := check s c.seat (c.base o.a) .rd z (fun _ => false) (c.matElems o o.a d rs z)
      match v with
      | .held => s
      | .misaligned ea => c.trap s 0x07 0 (BitVec.ofNat 64 ea)
      | .access e ea => c.trap s 0x06 e (BitVec.ofNat 64 ea)
      | .go locs absent =>
        if !absent.isEmpty then residencyFault s c.seat .rd (pagesOf absent)
        else if remoteAbort c locs then abortTxn s c.gid 0x0B
        else
          let (id, s) := s.fresh
          let items := orderItems (locs.map fun (e, _, l) => { idx := e, loc := l, size := z, nib := none })
          let a := newAccess c id (.mld m o.fmt) items [] 0 (locs.map fun (e, ea, _) => (e, BitVec.ofNat 64 ea))
          let g := c.g.setM m { d with full := false }
          c.next s { g with accs := g.accs ++ [a] } (opWords o)

/-- The data of a MLD (R155): the elements found, widened exactly; a NaN, of .f32 too, becomes the canonical one (DEDUCED: R44). -/
def Group.arriveMat (g : Group) (a : Access) (m : Nat) (f : Fmt) : Group :=
  let d := g.mreg m
  let widen (x : Nat) : Nat := f32Fmt.ofValue 0 (valOf f x)
  g.setM m { d with full := true, elems := ofMat fun l q => match a.value (36 * l + q) with
    | some x => widen x
    | none => mElem d.elems l q }

/-- MLD_ARRIVAL (R155). -/
def execMldArrival (gid acc : Nat) (s : State) : Outcome State Fault Refusal :=
  match Sparse.find? s.groups gid with
  | none => .next s
  | some g =>
    match arrivalReady s g acc with
    | none => .next s
    | some a =>
      match a.use with
      | .mld m f =>
        let rest := { g with accs := g.accs.filter fun b => b.id != acc }
        if g.retired then .next (s.putGroup gid rest)
        else
          match a.poison with
          | some x => .next (poisonTrap (s.putGroup gid (g.dropAccess a)) gid a x.2)
          | none => .next (s.putGroup gid (rest.arriveMat a m f))
      | _ => .next s

/-- MST (R155). -/
def execMst (o : Ops) (s : State) : Outcome State Fault Refusal :=
  electing o s (fun c => c.pass s o) <|
  performFrom [(.reg (.p o.pred), false), (o.a, o.ea), (o.b, o.eb), (o.c, o.ec)] s fun c =>
    if c.r.stage == 1 then resumeStores c s (opWords o)
    else if !loadsPerformed c.g then s
    else
      let z := o.fmt.width / 8
      let a := c.mat o.a
      let rs := c.scalar o o.c
      if rs % z != 0 then c.trap s 0x07 1 (BitVec.ofNat 64 (strideAddress c o o.d))
      else
        let (v, s) := check s c.seat (c.base o.d) .wr z (fun _ => false) (c.matElems o o.d a rs z)
        match v with
        | .held => s
        | .misaligned ea => c.trap s 0x07 0 (BitVec.ofNat 64 ea)
        | .access e ea => c.trap s 0x06 e (BitVec.ofNat 64 ea)
        | .go locs absent =>
          if !absent.isEmpty then residencyFault s c.seat .wr (pagesOf absent)
          else
            let f := opFloat o
            let ps : List Piece := locs.map fun (e, ea, l) =>
              { loc := l, size := z, nib := none, ea := ea,
                val := f.ofValue (opRound o) (f32Fmt.val (mElem a.elems (e / 36) (e % 36))) }
            issueStores c s (storesOf 0 ps) (opWords o)

/-! ### The function table -/

/-- Whether a run other than the one that a group is issuing is bound to a bank of its core (R137, R139): a run in issue, or one that a
suspending trap has left or is about to leave, the group's own included. -/
def bankInUse (s : State) (core gid : Nat) (bank : Bool) : Bool :=
  let on (r : Option Run) : Bool := (r.map fun r => r.bank == bank).getD false
  s.groups.any fun e => e.1 / 64 == core && ((e.1 != gid && on e.2.run) || on e.2.susp || on (e.2.entering.bind (·.2.1)))

/-- The word at which a check failed: how many words before it are loaded (R139). -/
def wordsBefore (es : List Elem) (ea : Nat) : Nat := (es.takeWhile fun e => e.ea != ea).length

/-- TBLLD (R139): the words before a faulting one are loaded all the same. -/
def execTblld (o : Ops) (s : State) : Outcome State Fault Refusal :=
  electing o s (fun c => c.pass s o) <| performFrom (addressSources o ++ [(o.c, o.ec)]) s fun c =>
      let core := s.core c.core
      let bank := !core.cur
      if bankInUse s c.core c.gid bank then s
      else
        let desc := c.scalar o o.c
        let first := bits desc 0 10
        let count := min (bits desc 10 11) 1024
        let b := c.scalar o o.b
        let base := vbaseOf (c.base o.a)
        let es : List Elem := (List.range count).map fun i =>
          { idx := i, off := (b + 4 * i) % 2 ^ 64, ea := (base + b + 4 * i) % 2 ^ 64 }
        let load (s : State) (locs : List (Nat × Nat × Loc)) (n : Nat) : Nat × State :=
          let (id, s) := s.fresh
          let items := orderItems ((locs.filter fun l => l.1 < n).map fun (e, _, l) => { idx := e, loc := l, size := 4, nib := none })
          let a := newAccess c id (.table id) items [] 0 (locs.map fun (e, ea, _) => (e, BitVec.ofNat 64 ea))
          let s := addAccess s c.gid a
          let x := s.core c.core
          (id, s.setCore c.core { x with
            tables := x.tables ++ [{ id := id, gid := c.gid, bank := bank, first := first, count := count, limit := n }] })
        let (v, rs, s) := checkAll s c.seat (c.base o.a) .rd 4 (fun _ => false) es
        match v with
        | .held => s
        | .misaligned ea => c.trap s 0x07 0 (BitVec.ofNat 64 ea)
        | .access d ea =>
          let n := wordsBefore es ea
          let s := if n == 0 then s else (load s (found (rs.take n)) n).2
          c.trap s 0x06 d (BitVec.ofNat 64 ea)
        | .go locs absent =>
          if remoteAbort c locs then abortTxn s c.gid 0x0B
          else
            match absent with
            | (i, _, _, _) :: _ =>
              let s := if i == 0 then s else (load s locs i).2
              residencyFault s c.seat .rd (pagesOf absent)
            | [] =>
              if count == 0 then c.next s c.g (opWords o)
              else
                let (id, s) := load s locs count
                s.modGroup c.gid fun g => { g with run := some { c.r.after (opWords o) with
                  issuedTables := c.r.issuedTables ++ [id] } }

/-- Writing words to entries of a bank, those alone that stand before a word found poisoned or failed; a word before a faulting one that
lies on a page that is not resident is written as 0 (DESIGN CHOICE: R139 does not say what it holds). -/
def Core.fillTable (c : Core) (t : TableLoad) (a : Access) : Core :=
  let put (b : Sparse (BitVec 32)) : Sparse (BitVec 32) := (List.range (min t.limit ((a.poison.map (·.1)).getD t.limit))).foldl (fun b i =>
    Sparse.set b ((t.first + i) % 1024) (BitVec.ofNat 32 ((a.value i).getD 0)) 0) b
  if t.bank then { c with bank1 := put c.bank1 } else { c with bank0 := put c.bank0 }

/-- TBLLD_ENTRIES_WRITTEN (R139): in the order of issue at the core for each bank. -/
def execTblldEntriesWritten (core id : Nat) (s : State) : Outcome State Fault Refusal :=
  let c := s.core core
  match c.tables.find? fun t => t.id == id with
  | none => .next s
  | some t =>
    let before := c.tables.takeWhile fun x => x.id != id
    match Sparse.find? s.groups t.gid with
    | none => .next (s.setCore core { c with tables := c.tables.filter fun x => x.id != id })
    | some g =>
      if before.any fun x => x.bank == t.bank then .next s
      else
        match arrivalReady s g id with
        | none => .next s
        | some a =>
          let g := { g with accs := g.accs.filter fun b => b.id != id }
          let c := c.fillTable t a
          let s := (s.putGroup t.gid g).setCore core { c with tables := c.tables.filter fun x => x.id != id }
          match a.poison with
          | some x => if g.retired then .next s else .next (poisonTrap s t.gid a x.2)
          | none => .next s

/-- TBLSW (R140): the bank becomes current at the run's trailer. -/
def execTblsw (o : Ops) (s : State) : Outcome State Fault Refusal :=
  electing o s (fun c => c.pass s o) <| compute o s fun c => (c.g, { c.r with tblsw := some ((c.scalar o o.a).testBit 0) })

end Sys2Proof.Machine
end

