-- ==== Sys2Proof/Machine/Atomic.lean ====
section
/-! DEFINITION. The meanings of major 0x0F: atomics and SCADD as they issue, and the return of an atomic's values
(R178 to R183). -/

namespace Sys2Proof.Machine

open Host (Outcome)

/-- The scope of MOD[3:2] (R81). -/
def modScope (m : BitVec 4) : Scope :=
  match m.toNat / 4 with
  | 0 => .core
  | 1 => .clus
  | 2 => .dev
  | _ => .sys

/-- MOD[1:0] of an atomic: .acq or .ar acquires, .rel or .ar releases (R81). -/
def acquires (m : BitVec 4) : Bool := m.getLsbD 0
def releases (m : BitVec 4) : Bool := m.getLsbD 1

/-- Host memory takes AADD, AXCH and ACAS only; every other atomic there raises the access fault with DETAIL 5 (R181). -/
def hostRefuses (hostOk : Bool) : Loc → Bool
  | .mem pa => regionOf pa == .host && !hostOk
  | .pad _ _ => false

/-- One element of an atomic that is to be performed (R268). -/
def atomOf (c : Ctx) (id acc : Nat) (e : Nat) (l : Loc) (w : Nat) (op : AtomOp) (x cmp : Nat) : Atom :=
  { id := id, core := c.core, gid := some c.gid, acc := acc, elem := e, loc := l, width := w, op := op, operand := x,
    compare := cmp, part := c.st.part, asn := c.la.asn, node := 0, last := false }

/-- Queueing atoms in order, each with an identifier of its own. -/
def queueAtoms (s : State) : List (Nat → Atom) → State
  | [] => s
  | f :: fs =>
    let (id, s) := s.fresh
    queueAtoms { s with atoms := s.atoms ++ [f id] } fs

/-- The common course of major 0x0F: the checks of R170 with AT needed, the release of .rel and .ar, and the commit. -/
def atomicOp (o : Ops) (hostOk : Bool) (s : State) (f : Ctx → State → List (Nat × Nat × Loc) → State) :
    Outcome State Fault Refusal :=
  closing o (addressSources o ++ [(o.c, o.ec)]) s fun c =>
    let w := o.fmt.width
    let (v, s) := check s c.seat (c.base o.a) .atomic (w / 8) (hostRefuses hostOk) (c.elems o)
    match v with
    | .held => s
    | .misaligned ea => c.trap s 0x07 0 (BitVec.ofNat 64 ea)
    | .access d ea => c.trap s 0x06 d (BitVec.ofNat 64 ea)
    | .go locs absent =>
      if !absent.isEmpty then residencyFault s c.seat .atomic (pagesOf absent)
      else if releases o.mod then c.release s (modScope o.mod) fun s => f c s locs
      else f c s locs

/-- An atomic with a return (R178 to R180): its elements are queued in ascending order, D becomes empty, and under .acq
and .ar the slot waits for the return at its next head. -/
def returningAtomic (o : Ops) (hostOk : Bool) (op : AtomOp) (s : State) : Outcome State Fault Refusal :=
  atomicOp o hostOk s fun c s locs =>
    let w := o.fmt.width
    let d := Opnd.num o.d
    let x := (c.read o (some o.fmt) o.c).val
    let old := (c.g.vreg d).val
    let (id, s) := s.fresh
    let items : List Item := locs.map fun (e, _, l) => { idx := e, loc := l, size := w / 8, nib := none }
    let a := newAccess c id (.atomic d w) items [] 1 (locs.map fun (e, ea, _) => (e, BitVec.ofNat 64 ea))
    let s := queueAtoms s (locs.map fun (e, _, l) n => atomOf c n id e l w op (elem x w e) (elem old w e))
    let g := c.g.emptyV d
    let r := c.r.withdraw d
    let r := if acquires o.mod then { r with waits := r.waits ++ [.returns id (some (modScope o.mod))] } else r
    { c with r := r }.commit s { g with accs := g.accs ++ [a] } (opWords o)

/-- AADD (R178). -/
def execAadd (o : Ops) (s : State) : Outcome State Fault Refusal := returningAtomic o true .add s

/-- AMIN (R178). -/
def execAmin (o : Ops) (s : State) : Outcome State Fault Refusal := returningAtomic o false (.min (opSigned o || o.fmt == .b64)) s

/-- AMAX (R178). -/
def execAmax (o : Ops) (s : State) : Outcome State Fault Refusal := returningAtomic o false (.max (opSigned o || o.fmt == .b64)) s

/-- AAND (R178). -/
def execAand (o : Ops) (s : State) : Outcome State Fault Refusal := returningAtomic o false .and s

/-- AOR (R178). -/
def execAor (o : Ops) (s : State) : Outcome State Fault Refusal := returningAtomic o false .or s

/-- AXOR (R178). -/
def execAxor (o : Ops) (s : State) : Outcome State Fault Refusal := returningAtomic o false .xor s

/-- AXCH (R178). -/
def execAxch (o : Ops) (s : State) : Outcome State Fault Refusal := returningAtomic o true .xch s

/-- ACAS (R178, R179): the compare values come from the main-file copy of D, read in block mode. -/
def execAcas (o : Ops) (s : State) : Outcome State Fault Refusal :=
  match running s with
  | none => .fault .noIssuer
  | some c => if (c.g.vreg (Opnd.num o.d)).full then returningAtomic o true .cas s else .next s

/-- AFADD (R178). -/
def execAfadd (o : Ops) (s : State) : Outcome State Fault Refusal := returningAtomic o false (.fadd o.fmt) s

/-- The combined sums of SCADD (R182): for each distinct place in order of first appearance, the element that names it
first and the sum of the elements that name it. Two virtual addresses of one place are combined (DESIGN CHOICE: R182 does not say which
address is meant). -/
def combine (add : Nat → Nat → Nat) : List (Nat × Nat × Loc) → List (Nat × Loc × Nat) → List (Nat × Loc × Nat)
  | [], acc => acc
  | (e, x, l) :: rest, acc =>
    let acc := if acc.any fun a => a.2.1 == l then acc.map fun a => if a.2.1 == l then (a.1, l, add a.2.2 x) else a
      else acc ++ [(e, l, x)]
    combine add rest acc

/-- The Add of R182. -/
def scAdd (f : Fmt) (a b : Nat) : Nat :=
  match floatFmt f with
  | some ff => fadd ff 0 a b
  | none => (a + b) % 2 ^ f.width

/-- SCADD (R182). -/
def execScadd (o : Ops) (s : State) : Outcome State Fault Refusal :=
  atomicOp o false s fun c s locs =>
    let w := o.fmt.width
    let x := (c.read o (some o.fmt) o.c).val
    let sums := combine (scAdd o.fmt) (locs.map fun (e, _, l) => (e, elem x w e, l)) []
    let (id, s) := s.fresh
    let items : List Item := sums.map fun (e, l, _) => { idx := e, loc := l, size := w / 8, nib := none }
    let a := newAccess c id .none items [] 1 (locs.map fun (e, ea, _) => (e, BitVec.ofNat 64 ea))
    let op : AtomOp := if (floatFmt o.fmt).isSome then .fadd o.fmt else .add
    let s := queueAtoms s (sums.map fun (e, l, v) n => atomOf c n id e l w op v 0)
    c.commit s { c.g with accs := c.g.accs ++ [a] } (opWords o)

/-- The values returned by an atomic reach D (R179): active elements only, tag G, full. -/
def Group.arriveAtomic (g : Group) (a : Access) (d w : Nat) : Group :=
  if a.cancelled then g
  else
    let r := g.vreg d
    g.setV d { val := ofElems w fun e => (a.value e).getD (elem r.val w e), tag := .g, full := if stillPending g a then r.full else true }

/-- ATOMIC_RETURN (R179, R180). -/
def execAtomicReturn (gid acc : Nat) (s : State) : Outcome State Fault Refusal :=
  match Sparse.find? s.groups gid with
  | none => .next s
  | some g =>
    match arrivalReady s g acc with
    | none => .next s
    | some a =>
      match a.use with
      | .atomic d w =>
        let rest := { g with accs := g.accs.filter fun b => b.id != acc }
        if g.retired then .next (s.putGroup gid rest)
        else
          match a.poison with
          | some x => .next (poisonTrap (s.putGroup gid (g.dropAccess a)) gid a x.2)
          | none => .next (s.putGroup gid (rest.arriveAtomic a d w))
      | _ => .next s

/-! ### Performing an atomic at its home -/

/-- The new value of an atomic (R178); an addition to a nibble leaves the other half of its byte (R240). -/
def AtomOp.new (op : AtomOp) (w old x cmp : Nat) : Nat :=
  match op with
  | .add => (old + x) % 2 ^ w
  | .min sg => minElem w sg old x
  | .max sg => maxElem w sg old x
  | .and => old &&& x
  | .or => old ||| x
  | .xor => old ^^^ x
  | .xch => x
  | .cas => if old == cmp then x else old
  | .fadd f => Sys2Proof.Machine.fadd ((floatFmt f).getD f32Fmt) 0 old x
  | .nibble f hi =>
    let lo := if hi then 4 else 0
    old - bits old lo 4 * 2 ^ lo + scAdd f (bits old lo 4) x * 2 ^ lo

/-- The core's copy of a line takes the home's value (R265, R268); of a line that has no home here there is none. -/
def refreshCopy (s : State) (core pa : Nat) : State := if isRemote (.mem pa) then s else updateCopy s core pa (homeLine s pa)

/-- The read and the write of one atomic at its home (R268), with the old value found and the requests made. -/
def atomHome (s : State) (a : Atom) : Nat × List Nat × State :=
  match a.loc.base with
  | .mem pa =>
    let (_, reqs, s) := homeRead (exchange s (dieOf a.core) (homeDie pa)) pa 1
    let old := readHome s a.loc (a.width / 8)
    let s := writeHome s a.gid a.loc (a.width / 8) (a.op.new a.width old a.operand a.compare)
    (old, reqs, refreshCopy s a.core pa)
  | .pad _ _ =>
    let old := readHome s a.loc (a.width / 8)
    (old, [], writeHome s a.gid a.loc (a.width / 8) (a.op.new a.width old a.operand a.compare))

/-- Recording the outcome of one atomic in its access: its old value, or the detail of its fault. -/
def settleAccess (s : State) (gid acc e : Nat) (old : Option Nat) (reqs : List Nat) (bad : Option Nat) : State :=
  s.modGroup gid fun g => { g with accs := g.accs.map fun x =>
    if x.id != acc then x
    else
      let x := { x with
        todo := x.todo.filter fun i => i.idx != e
        vals := match old with | some v => x.vals ++ [(e, v)] | none => x.vals
        reqs := x.reqs ++ reqs
        begun := true }
      match bad with
      | some d => x.fail e d
      | none => x }

/-- An atomic has left for a remote home: its element stays to be performed until the answer comes (R260). -/
def awaitAccess (s : State) (gid acc req : Nat) : State :=
  s.modGroup gid fun g => { g with accs := g.accs.map fun x =>
    if x.id != acc then x else { x with reqs := x.reqs ++ [req], begun := true } }

/-- Whether an atomic of a group has left for a remote home and has not been answered. -/
def atomAway (s : State) (gid : Nat) : Bool :=
  let hit (r : Remote) : Bool := match r with
    | .atom a => a.gid == some gid
    | _ => false
  s.outstanding.any (fun o => hit o.what) || s.delivery.any fun q => q.2.any hit

/-- Whether an atomic of a group must wait (R268): for its first step, on earlier accesses of the group, its FIFO, or any entry of the core
for a line that it names; later ones go in order. -/
def atomBehind (s : State) (a : Atom) (gid : Nat) (g : Group) : Bool :=
  let x := g.accs.find? fun x => x.id == a.acc
  let first := !(x.map (·.begun)).getD true
  (first && (!g.fifo.isEmpty || (g.accs.takeWhile fun y => y.id != a.acc).any Access.pending ||
    (s.core a.core).cvp.any fun e => x.any fun x => x.todo.any fun i => i.loc.base == e.store.line)) || atomAway s gid

/-- The same of an addition whose group has given back its place (R105): it waits for the stores that the group has left, for any entry
of the core for its line, and for the additions before it. -/
def strayBehind (s : State) (a : Atom) (gid : Nat) : Bool :=
  !(Sparse.getD (s.core a.core).orphans gid []).isEmpty || ((s.core a.core).cvp.any fun e => a.loc.base == e.store.line) ||
    ((s.atoms.takeWhile fun b => b.id != a.id).any fun b => b.gid == some gid) || atomAway s gid

/-- Whether an atomic must wait before its home (R264, R268, R271). -/
def atomBlocked (s : State) (a : Atom) : Bool :=
  (match a.gid with
    | some gid => match (Sparse.find? s.groups gid).filter fun g => g.accs.any fun x => x.id == a.acc with
      | some g => atomBehind s a gid g
      | none => strayBehind s a gid
    | none => false) || homeBusy s a.loc

end Sys2Proof.Machine
end

