-- ==== Sys2Proof/Machine/Sync.lean ====
section
/-! DEFINITION. The meanings of majors 0x10 and 0x11: fences, remote writes, completion words and transactions (R184 to
R194), and the steps by which a deposit is delivered and an awaited word is read (R188, R268). -/

namespace Sys2Proof.Machine

open Host (Outcome)

/-- Whether a scope lies above .core (R192). -/
def Scope.wide : Scope → Bool
  | .grp | .stand | .core => false
  | _ => true

/-- An instruction that only needs its governing predicate; with no elected lane it does nothing (R16). -/
def guarded (o : Ops) (srcs : List (Opnd × Bool)) (s : State) (f : Ctx → State) : Outcome State Fault Refusal :=
  electing o s (fun c => c.pass s o) <| performFrom ((.reg (.p o.pred), false) :: srcs) s f

/-- The scope that a D field names (R82). -/
def opScope (o : Ops) : Scope := match o.d with
  | .scope x => x
  | _ => .core

/-! ### Fences -/

/-- FENCE (R185, R267): MOD[1:0] is 0 .acq, 1 .rel, 2 .ar, 3 .sc. -/
def execFence (o : Ops) (s : State) : Outcome State Fault Refusal :=
  guarded o [] s fun c =>
    let sc := opScope o
    let kind := o.mod.toNat % 4
    if !loadsPerformed c.g then s
    else if c.g.txn.isSome && Scope.wide sc then abortTxn s c.gid 0x09
    else if kind == 0 then c.next (acquire s c.core sc) c.g (opWords o)
    else c.release s sc fun s =>
      let s := if kind == 3 then { s with scOrder := s.scOrder ++ [(scopeInstance c.core sc, c.gid)] } else s
      let s := if kind == 1 then s else acquire s c.core sc
      c.next s c.g (opWords o)

/-- Whether an RFENCE of a core at a scope drops the record cache copies of another core (R186). -/
def recordReach (core : Nat) (sc : Scope) (other : Nat) : Bool :=
  match sc with
  | .grp | .stand | .core => other == core
  | .clus => clusterOf other == clusterOf core
  | .die => dieOf other == dieOf core
  | .dev | .sys => true

/-- RFENCE (R186, R272): the answer to a read of a record that is still under way is not kept. -/
def execRfence (o : Ops) (s : State) : Outcome State Fault Refusal :=
  guarded o [] s fun c =>
    if !loadsPerformed c.g then s
    else if c.g.txn.isSome then abortTxn s c.gid 0x09
    else c.release s (opScope o) fun s =>
      let drop (e : Nat × Core) : Nat × Core :=
        if recordReach c.core (opScope o) e.1 then (e.1, { e.2 with records := [], fills := [] }) else e
      c.next { s with cores := (s.cores.map drop).filter fun e => decide (e.2 ≠ Core.idle) } c.g (opWords o)

/-! ### Remote writes -/

/-- RWR (R187): the deposit of the active lanes leaves the group. -/
def execRwr (o : Ops) (s : State) : Outcome State Fault Refusal :=
  electing o s (fun c => c.commit s c.g (opWords o)) <| closing o [(.reg (.p o.pred), false), (o.a, o.ea), (o.b, o.eb)] s fun c =>
    let g := c.guard o
    let leave (s : State) : State :=
      let h := c.scalar o o.b
      let a := c.read o none o.a
      let target : Option (Nat × BitVec 24) :=
        if bits h 32 32 == 0 then some ((clusterOf c.core * 4 + bits h 6 2) * 64 + bits h 0 6, BitVec.ofNat 24 (bits h 8 24)) else none
      let (id, s) := s.fresh
      let d : Deposit :=
        { id := id, srcCore := c.core, srcGroup := c.gid, target := target, reg := Opnd.num o.d,
          mask := BitVec.ofNat 32 ((List.range 32).foldl (fun m l => if g.lane l then m + 2 ^ l else m) 0), val := a.val, tag := a.tag }
      c.commit { s with deposits := s.deposits ++ [d] } c.g (opWords o)
    if releases o.mod then c.release s .clus leave else leave s

/-- The group that a deposit finds (R188). -/
def depositTarget (s : State) (d : Deposit) : Option Nat :=
  match d.target with
  | none => none
  | some (gid, tag) =>
    match seatOf s gid with
    | none => none
    | some (g, st, la) => if !g.retired && st.tag == tag && decide (d.reg < (la.vregs + 7) / 8 * 8) then some gid else none

/-- Cancelling every arrival still pending for a v register (R29). -/
def Group.cancel (g : Group) (n : Nat) : Group :=
  { g with accs := g.accs.map fun a => if a.use.target == some (false, n) then { a with cancelled := true } else a }

/-- The effect of a deposit on its group (R188). -/
def Group.deposit (g : Group) (d : Deposit) : Group :=
  let old := g.vreg d.reg
  let val := ofElems 64 fun l => if d.mask.getLsbD l then lane d.val l else lane old.val l
  let g := (g.cancel d.reg).setV d.reg { val := val, tag := if d.mask == BitVec.allOnes 32 then d.tag else .g, full := true }
  { g with trap := { g.trap with arrive := g.trap.arrive + 1 } }

/-- RWR_DELIVERY (R188): deposits of one group reach one target in issue order; a deposit without a target is dropped and
counted. -/
def execRwrDelivery (id : Nat) (s : State) : Outcome State Fault Refusal :=
  match s.deposits.find? fun d => d.id == id with
  | none => .next s
  | some d =>
    if (s.deposits.takeWhile fun x => x.id != id).any fun x => x.srcGroup == d.srcGroup && x.target == d.target then .next s
    else
      let s := { s with deposits := s.deposits.filter fun x => x.id != id }
      match depositTarget s d with
      | some gid => .next ((countCore s (gid / 64) ((partOfCore s (gid / 64)).getD 0) 0x0D).modGroup gid fun g => g.deposit d)
      | none =>
        let c := s.core d.srcCore
        .next (s.setCore d.srcCore { c with rwrdrop := c.rwrdrop + 1 })

/-! ### Completion words -/

/-- The address of a completion word, checked (R189, R190). -/
def wordOp (o : Ops) (need : Need) (c : Ctx) (s : State) (f : State → Loc → Nat → State) : State :=
  let e := c.address o
  let (v, s) := check s c.seat (c.base o.a) need 8 (fun _ => false) [e]
  match v with
  | .held => s
  | .misaligned ea => c.trap s 0x07 0 (BitVec.ofNat 64 ea)
  | .access d ea => c.trap s 0x06 d (BitVec.ofNat 64 ea)
  | .go ((_, ea, l) :: _) _ => f s l ea
  | .go [] absent => residencyFault s c.seat need (pagesOf absent)

/-- WAITC (R189): the slot will wait at its next head. -/
def execWaitc (o : Ops) (s : State) : Outcome State Fault Refusal :=
  guarded o [(o.a, o.ea), (o.b, o.eb), (o.c, o.ec)] s fun c =>
    if !loadsPerformed c.g then s
    else if c.g.txn.isSome then abortTxn s c.gid 0x09
    else wordOp o .rd c s fun s l ea =>
      let w : Wait := .word (some l) (o.mod.toNat % 4) (BitVec.ofNat 64 (c.scalar o o.c)) (modScope o.mod) (BitVec.ofNat 64 ea) c.origin none
      s.modGroup c.gid fun g => { g with run := some { c.r.after (opWords o) with waits := c.r.waits ++ [w] } }

/-- *word cc c*, signed (R189). -/
def waitHolds (cc : Nat) (x c : Nat) : Bool :=
  let a := signedOf 64 x
  let b := signedOf 64 c
  match cc with
  | 0 => decide (a = b)
  | 1 => decide (a ≤ b)
  | _ => decide (b ≤ a)

/-- The first wait of a slot for a word. -/
def Slot.wordWait (x : Slot) : Option Wait := x.waits.find? fun w => match w with
  | .word _ _ _ _ _ _ _ => true
  | _ => false

/-- Replacing one wait of a slot, or taking it out. -/
def Slot.settleWait (x : Slot) (w : Wait) (new : Option Wait) : Slot :=
  { x with waits := match new with
      | some n => x.waits.map fun y => if y == w then n else y
      | none => x.waits.filter (· != w) }

/-- What a value read for an awaited word does (R189): the wait ends with its acquire, or goes on. -/
def wordRead (s : State) (gid : Nat) (slotB : Bool) (w : Wait) (x : Nat) : State :=
  match w with
  | .word l cc c acq va org _ =>
    let hold := waitHolds cc x c.toNat
    let s := s.modGroup gid fun g => g.setSlot slotB ((g.slot slotB).settleWait w (if hold then none else some (.word l cc c acq va org none)))
    if hold then acquire s (gid / 64) acq else s
  | _ => s

/-- The access fault of a WAITC whose word cannot be read. -/
def waitFault (s : State) (gid detail : Nat) (va : Word) (org : Origin) : State :=
  takeTrap s gid { code := 0x06, detail := detail, pc := org.pc.toNat, inst := org.inst, inst2 := org.inst2, addr := va, slotB := org.slotB } none

/-- An awaited word whose translation a shootdown has taken is looked up again (R321): it is awaited at its new place, or its page or its
permissions stop it as they stop a WAITC (R189). -/
def relocateWait (s : State) (gid : Nat) (slotB : Bool) (w : Wait) : State :=
  match w, seatOf s gid with
  | .word _ cc c acq va org _, some (_, st, la) =>
    let u : Seat := { gid := gid, core := gid / 64, part := st.part, asn := la.asn, units := st.units }
    let (r, s) := resolve s u none 0 va.toNat .rd
    match r with
    | .ok l => s.modGroup gid fun g => g.setSlot slotB ((g.slot slotB).settleWait w (some (.word (some l) cc c acq va org none)))
    | .access d => waitFault s gid d va org
    | .absent v z => residencyFault s u .rd [(v, z)]
    | .held => s
  | _, _ => s

/-- WAITC_READ (R268): one read of the word at its home; at the host or at a linked device the read is sent there. -/
def execWaitcRead (gid : Nat) (slotB : Bool) (s : State) : Outcome State Fault Refusal :=
  match Sparse.find? s.groups gid with
  | none => .next s
  | some g =>
    match (g.slot slotB).wordWait with
    | some (.word none cc c acq va org req) => .next (relocateWait s gid slotB (.word none cc c acq va org req))
    | some (.word (some l) cc c acq va org req) =>
      let w : Wait := .word (some l) cc c acq va org req
      if isRemote l then
        match l, req with
        | .mem pa, none =>
          match portOf s pa with
          | none => .next (waitFault s gid 1 va org)
          | some p =>
            let (id, s) := s.fresh
            let s := send s (gid / 64) p (.read id pa)
            .next (s.modGroup gid fun g => g.setSlot slotB ((g.slot slotB).settleWait w (some (.word (some l) cc c acq va org (some id)))))
        | _, _ => .next s
      else if homeBusy s l then .next (match l.base with | .mem pa => holdRead s .other pa | .pad _ _ => s)
      else if homePoisoned s l then .next (waitFault s gid 6 va org)
      else
        let x := readHome s l 8
        let s := match l.base with
          | .mem pa => (homeReadL1 s (gid / 64) pa 1 false).2.2
          | .pad _ _ => s
        .next (wordRead s gid slotB w x)
    | _ => .next s

/-- CNTADD (R190): the addend is performed at the word's home in a step of its own. -/
def execCntadd (o : Ops) (s : State) : Outcome State Fault Refusal :=
  electing o s (fun c => c.commit s c.g (opWords o)) <|
  closing o [(.reg (.p o.pred), false), (o.a, o.ea), (o.b, o.eb), (o.c, o.ec)] s fun c =>
    wordOp o .atomic c s fun s l ea =>
      let go (s : State) : State :=
        let (id, s) := s.fresh
        let a := newAccess c id .none [{ idx := 0, loc := l, size := 8, nib := none }] [] 1 [(0, BitVec.ofNat 64 ea)]
        let s := queueAtoms s [fun n => { atomOf c n id 0 l 64 .add (c.scalar o o.c) 0 with node := 1 }]
        c.commit s { c.g with accs := c.g.accs ++ [a] } (opWords o)
      if releases o.mod then c.release s (modScope o.mod) go else go s

/-! ### Transactions -/

/-- Words of a run's head. -/
def headWords (r : Run) : Nat := if (r.words.getD 0 0).getLsbD 57 then 2 else 1

/-- TXB (R191). -/
def execTxb (o : Ops) (s : State) : Outcome State Fault Refusal :=
  guarded o [] s fun c =>
    let first := c.r.pos == headWords c.r && c.g.snap.head == c.r.head
    let set (ones : Bool) (g : Group) : Group := writePred g o.d (if ones then BitVec.allOnes 256 else 0)
    if c.g.txn.isSome then c.next s (set true c.g) (opWords o)
    else if first then c.next s (set true { c.g with txn := some { reads := [], writes := [], flagged := none } }) (opWords o)
    else c.next s (set false c.g) (opWords o)

/-- TXC (R193): locking, applying and releasing the write set are one step; it waits while a line of the set is owned. -/
def execTxc (o : Ops) (s : State) : Outcome State Fault Refusal :=
  electing o s (fun c => c.commit s c.g (opWords o)) <| performFrom [(.reg (.p o.pred), false)] s fun c =>
    if !loadsPerformed c.g then s
    else c.release s .dev fun s =>
      match c.g.txn with
      | none => c.commit (acquire s c.core .dev) c.g (opWords o)
      | some t =>
        if t.writes.any fun w => heldBack s w.line then s
        else
          let s := c.commit s { c.g with txn := none, trap := { c.g.trap with txcause := 0 } } (opWords o)
          let s := t.writes.foldl (fun s w => applyStore s (some c.gid) { w with policy := 1 }) s
          acquire s c.core .dev

/-- TXA (R194). -/
def execTxa (o : Ops) (s : State) : Outcome State Fault Refusal :=
  guarded o [(o.a, o.ea)] s fun c =>
    if c.g.txn.isSome then abortTxn s c.gid (BitVec.ofNat 8 (0x80 + c.scalar o o.a % 128))
    else c.next s c.g (opWords o)

end Sys2Proof.Machine
end

