-- ==== Sys2Proof/Machine/Record.lean ====
section
/-! DEFINITION. Tensor records (R195, R196): their fields, where their elements lie, the values of elements and blocks,
the bytes that writing them changes, and the reading of records through the record cache (R272, R303). -/

namespace Sys2Proof.Machine

/-- A tensor record (R195). -/
structure Rec where
  ndim : Nat
  code : Nat
  base : Nat
  layout : Nat
  sclbase : Nat
  dims : List Nat
  strs : List Nat
  zp : Int
  tile0 : Nat
  tile1 : Nat
  cbase : Nat
  rule : Nat
  reserved : Bool
  deriving DecidableEq, Repr

/-- The fields of a record's eight words (R195). -/
def Rec.parse (ws : List Word) : Rec :=
  let all := packElems 64 (fun i => (ws.getD i 0).toNat) 8
  let w (i : Nat) : Nat := bits all (64 * i) 64
  let half (o : Nat) : Nat := bits all (8 * o) 32
  { ndim := bits (w 0) 61 3, code := bits (w 0) 56 5, base := bits (w 0) 0 56, layout := bits (w 1) 56 3, sclbase := bits (w 1) 0 56,
    dims := (List.range 5).map fun k => half (0x10 + 4 * k), strs := (List.range 4).map fun k => half (0x24 + 4 * k),
    zp := signedOf 24 (bits (half 0x34) 8 24), tile0 := bits (half 0x34) 0 4, tile1 := bits (half 0x34) 4 4,
    cbase := bits (w 7) 6 50 * 64, rule := bits (w 7) 0 3,
    reserved := bits (w 1) 59 5 != 0 || bits (w 7) 56 8 != 0 || bits (w 7) 3 3 != 0 }

def Rec.dim (r : Rec) (k : Nat) : Nat := r.dims.getD k 1

/-- The storage format of a record, if its code is not reserved (R41). -/
def Rec.sfmt (r : Rec) : Option SFmt := SFmt.ofCode r.code
def Rec.fmt (r : Rec) : SFmt := r.sfmt.getD (.fmt .b64)
def Rec.block (r : Rec) : Bool := r.fmt.isBlock

/-- Whether a record breaks a rule of R195 or R196. -/
def Rec.malformed (r : Rec) : Bool :=
  r.reserved || r.ndim == 0 || decide (5 < r.ndim) || r.sfmt.isNone || decide (1 < r.layout) || r.dims.any (· == 0) ||
    (r.dims.drop r.ndim).any (· != 1) || (r.layout == 1 && r.strs.any (· != 0)) || decide (9 < r.tile0) || decide (9 < r.tile1) ||
    decide (4 < r.rule) || (r.rule == 0 && r.cbase != 0) || (!r.block && r.sclbase != 0) ||
    (r.block && (r.layout != 1 || r.dim 0 % 16 != 0))

/-- An element index, one number per dimension. -/
abbrev Idx := List Nat

/-- Record-order number of an element (R196). -/
def Rec.order (r : Rec) (i : Idx) : Nat := (List.range 5).foldr (fun k n => n * r.dim k + i.getD k 0) 0

/-- The element of a record-order number. -/
def Rec.unorder (r : Rec) (n : Nat) : Idx :=
  ((List.range 5).foldl (fun (acc : Idx × Nat) k => (acc.1 ++ [acc.2 % r.dim k], acc.2 / r.dim k)) ([], n)).1

/-- The bit address of an element: 8 times its virtual address, plus the bit in the byte (R196). -/
def Rec.bitAt (r : Rec) (i : Idx) : Nat :=
  let w := r.fmt.width
  if r.layout == 1 then 8 * r.base + r.order i * w
  else 8 * r.base + i.getD 0 0 * w + 8 * ((List.range 4).foldl (fun n k => n + i.getD (k + 1) 0 * r.strs.getD k 0 * 16) 0)

/-- The address of the exponent byte of an element's block (R54). -/
def Rec.expAt (r : Rec) (i : Idx) : Nat := r.sclbase + r.order i / 16

/-- The elements of a record, in record order. -/
def Rec.count (r : Rec) : Nat := r.dims.foldl (· * ·) 1

/-- The bytes `[lo, hi)` that the data take, one range for each plane. -/
def Rec.ranges (r : Rec) : List (Nat × Nat) :=
  if r.malformed then []
  else
    let last : Idx := r.dims.map (· - 1)
    let stop := (r.bitAt last + r.fmt.width + 7) / 8
    (r.base, stop) :: (if r.block then [(r.sclbase, r.expAt last + 1)] else [])

/-- The stored bits of an element, `rd` giving the byte at an address. -/
def Rec.raw (r : Rec) (rd : Nat → Nat) (i : Idx) : Nat :=
  let b := r.bitAt i
  let n := (b % 8 + r.fmt.width + 7) / 8
  bits (packElems 8 (fun k => rd (b / 8 + k)) n) (b % 8) r.fmt.width

/-- The value of an element (R45, R51, R55). -/
def Rec.val (r : Rec) (rd : Nat → Nat) (i : Idx) : Val :=
  match r.fmt with
  | .fmt f => valOf f (r.raw rd i)
  | .bfp m => bfpVal m (rd (r.expAt i)) (signedOf m (r.raw rd i))
  | .lns => lnsVal (rd (r.expAt i)) (r.raw rd i)

/-- The integer that an element's stored bits are under a signedness; b64 is i64 (R195, R205). -/
def Rec.int (r : Rec) (rd : Nat → Nat) (i : Idx) : Int :=
  match r.fmt with
  | .fmt f => valueOf f.width (fmtSigned f) (r.raw rd i)
  | _ => 0

/-- The bytes that an element takes, as first address and count; its exponent byte besides. -/
def Rec.touches (r : Rec) (i : Idx) : List (Nat × Nat) :=
  let b := r.bitAt i
  (b / 8, (b % 8 + r.fmt.width + 7) / 8) :: (if r.block then [(r.expAt i, 1)] else [])

/-- Bits to be written at a virtual address: a number of bytes, or one nibble of a byte. -/
structure Poke where
  va : Nat
  size : Nat
  nib : Option Bool
  val : Nat
  deriving DecidableEq, Repr

/-- Writing an element of a format that is no block format. -/
def Rec.poke (r : Rec) (i : Idx) (x : Nat) : Poke :=
  let b := r.bitAt i
  if r.fmt.width == 4 then { va := b / 8, size := 1, nib := some (b % 8 != 0), val := x % 16 }
  else { va := b / 8, size := r.fmt.width / 8, nib := none, val := x }

/-- Writing the block that begins at an element: its 16 mantissas or codes, and its exponent (R54). -/
def Rec.pokeBlock (r : Rec) (i : Idx) (vs : List Val) : List Poke :=
  let m := r.fmt.width
  let (e, codes) := blockEncode r.fmt 0 vs
  [{ va := r.bitAt i / 8, size := 2 * m, nib := none, val := packElems m (fun k => codes.getD k 0) 16 },
   { va := r.expAt i, size := 1, nib := none, val := e }]

/-- Places of a poke that lie within single lines: a block may cross from one line into the next. -/
def Poke.split (p : Poke) : List Poke :=
  let room := 128 - p.va % 128
  if p.size ≤ room then [p]
  else [{ p with size := room, val := p.val % 2 ^ (8 * room) },
        { p with va := p.va + room, size := p.size - room, val := p.val / 2 ^ (8 * room) }]

/-- Pokes as stores, the physical line of each virtual line being known; bytes on lines that are not known are left. -/
def pokeStores (map : List (Nat × Nat)) (ps : List Poke) : List Store :=
  storesOf 1 ((ps.flatMap Poke.split).filterMap fun p =>
    ((map.find? fun e => e.1 == p.va / 128 * 128).map (·.2)).map fun pa =>
      { loc := .mem (pa + p.va % 128), size := p.size, nib := p.nib, val := p.val, ea := p.va })

/-! ### The record cache -/

/-- What reading 64 bytes through the record cache gives: the words, a wait, or the detail of a failure (R272, R382,
R430). -/
inductive RecordRead
  | words (ws : List Word)
  | wait
  | failed (detail : Nat)
  deriving DecidableEq, Repr

def lineWords (d : LineBits) : List Word := (List.range 8).map fun i => BitVec.ofNat 64 (bits d.toNat (64 * i) 64)

/-- The copy of 64 bytes in a core's record cache. -/
def Core.recordCopy (c : Core) (pa : Nat) : Option LineBits := (c.records.find? fun e => e.1 == pa).map (·.2)

/-- Putting 64 bytes into a core's record cache, or using the copy that it holds: the copies stand in the order of their latest use, and
with all 64 entries full the least recently used one goes (R303). -/
def putRecordCopy (s : State) (core pa : Nat) (d : LineBits) : State :=
  let c := s.core core
  let others := c.records.filter fun e => e.1 != pa
  s.setCore core { c with records := others.drop (others.length - 63) ++ [(pa, d)] }

/-- Asking the host or a linked device for 64 bytes, unless they are being fetched already. -/
def askRecord (s : State) (core pa : Nat) : State :=
  let c := s.core core
  if c.fills.any fun f => f.2 == pa then s
  else
    match portOf s pa with
    | none => s.setCore core { c with failed := Sparse.insert c.failed pa 1 }
    | some p =>
      let (id, s) := s.fresh
      let c := s.core core
      send (s.setCore core { c with fills := c.fills ++ [(id, pa)] }) core p (.read id pa)

/-- Reading a record, or a command's 64 bytes, at a place (R272). -/
def readRecord (s : State) (core : Nat) (l : Loc) : RecordRead × State :=
  match l with
  | .pad c o => (.words (lineWords (BitVec.ofNat 1024 (Memory.readLE s.pads (padAddr c o) 64))), s)
  | .mem pa =>
    let c := s.core core
    match c.recordCopy pa with
    | some d => (.words (lineWords d), putRecordCopy s core pa d)
    | none =>
      if isRemote l then
        match Sparse.find? c.failed pa with
        | some d => (.failed d, s.setCore core { c with failed := Sparse.erase c.failed pa })
        | none => (.wait, askRecord s core pa)
      else if homeBusy s l then (.wait, holdRead s .other (pa / 128 * 128))
      else if homePoisoned s l then (.failed 6, s)
      else
        let (d, _, s) := homeRead (exchange s (dieOf core) (homeDie pa)) (pa / 128 * 128) 1
        let x : LineBits := BitVec.ofNat 1024 (lineBytes d (pa % 128) 64)
        (.words (lineWords x), putRecordCopy s core pa x)

end Sys2Proof.Machine
end

