-- ==== Sys2Proof/Machine/Cast.lean ====
section
/-! DEFINITION. The meanings of major 0x12: cast tensors (R197 to R202, R304 to R306, R441) and cache maintenance over a
range (R203), with the recast step and the step that does a CMO's lines. -/

namespace Sys2Proof.Machine

open Host (Outcome)

/-! ### Tiles and edges -/

/-- Tiles along a dimension. -/
def tilesAlong (dim log : Nat) : Nat := (dim + 2 ^ log - 1) / 2 ^ log

/-- The number of an element's tile (R196). -/
def Rec.tile (r : Rec) (i : Idx) : Nat :=
  let t0 := tilesAlong (r.dim 0) r.tile0
  let t1 := tilesAlong (r.dim 1) r.tile1
  i.getD 0 0 / 2 ^ r.tile0 + t0 * (i.getD 1 0 / 2 ^ r.tile1 + t1 * (i.getD 2 0 + r.dim 2 * (i.getD 3 0 + r.dim 3 * i.getD 4 0)))

def Rec.tiles (r : Rec) : Nat := tilesAlong (r.dim 0) r.tile0 * tilesAlong (r.dim 1) r.tile1 * r.dim 2 * r.dim 3 * r.dim 4

/-- The first element of an element's tile. -/
def Rec.tileHead (r : Rec) (i : Idx) : Idx :=
  [i.getD 0 0 / 2 ^ r.tile0 * 2 ^ r.tile0, i.getD 1 0 / 2 ^ r.tile1 * 2 ^ r.tile1, i.getD 2 0, i.getD 3 0, i.getD 4 0]

/-- The elements of a record, and of one tile, in record order. -/
def Rec.elems (r : Rec) : List Idx := (List.range r.count).map r.unorder
def Rec.tileElems (r : Rec) (t : Nat) : List Idx := r.elems.filter fun i => r.tile i == t

/-- The base elements from which a derived element is computed, in ascending index (R197). -/
def castSources (d b : Rec) (i : Idx) : List Idx :=
  match d.rule with
  | 1 => [[i.getD 1 0, i.getD 0 0, i.getD 2 0, i.getD 3 0, i.getD 4 0]]
  | 3 => (List.range (b.dim 0)).map fun k => [k, i.getD 1 0, i.getD 2 0, i.getD 3 0, i.getD 4 0]
  | 4 => (List.range (b.dim 1)).map fun k => [i.getD 0 0, k, i.getD 2 0, i.getD 3 0, i.getD 4 0]
  | _ => [i]

/-- The base tiles on the edges of a derived tile. -/
def baseTiles (d b : Rec) (t : Nat) : List Nat := ((d.tileElems t).flatMap fun i => (castSources d b i).map b.tile).eraseDups

/-- The base elements that a derived tile depends on: those of every base tile on its edges (R196, R199). -/
def baseElems (d b : Rec) (t : Nat) : List Idx :=
  let ts := baseTiles d b t
  b.elems.filter fun i => ts.contains (b.tile i)

/-- The nibbles that an element takes, by number from virtual address 0. -/
def Rec.nibbles (r : Rec) (i : Idx) : List Nat :=
  let b := r.bitAt i
  ((List.range ((b % 4 + r.fmt.width + 3) / 4)).map fun k => b / 4 + k) ++ (if r.block then [2 * r.expAt i, 2 * r.expAt i + 1] else [])

/-- Translating virtual lines on a cluster's path (R316); those that lie in HBM, host or linked memory and are readable or
not are all given. None while a walk waits. -/
def mapLines (s : State) (cl part asn : Nat) : List Nat → Option (List (Nat × Nat × Perms)) × State
  | [] => (some [], s)
  | va :: vas =>
    let (w, s) := if 2 ^ 56 ≤ va then (Walk.invalid, s) else translateCluster s cl part asn va
    let (rest, s) := mapLines s cl part asn vas
    match w with
    | .resident f z p => (rest.map fun r => (va, f + va % pageBytes z, p) :: r, s)
    | .held => (none, s)
    | _ => (rest, s)

/-- The lines of some elements, ascending in their first use. -/
def Rec.lineVas (r : Rec) (is : List Idx) : List Nat := ((is.flatMap r.nibbles).map fun n => n / 256 * 128).eraseDups

def lineMap (m : List (Nat × Nat × Perms)) : List (Nat × Nat) := m.map fun e => (e.1, e.2.1)

/-- Collecting a nibble under its physical line and tile. -/
def addNibble (l : List (Nat × Nat × BitVec 256)) (line tile n : Nat) : List (Nat × Nat × BitVec 256) :=
  let bit : BitVec 256 := (1 : BitVec 256) <<< n
  if l.any fun e => e.1 == line && e.2.1 == tile then
    l.map fun e => if e.1 == line && e.2.1 == tile then (line, tile, e.2.2 ||| bit) else e
  else l ++ [(line, tile, bit)]

/-- The lines, with nibbles, that some elements of a record take for a tile. -/
def tileMasks (m : List (Nat × Nat)) (r : Rec) (is : List Idx) (t : Nat) : List (Nat × Nat × BitVec 256) :=
  (is.flatMap r.nibbles).foldl (fun l n =>
    match m.find? fun e => e.1 == n / 256 * 128 with
    | some e => addNibble l e.2 t (n % 256)
    | none => l) []

/-- The addresses of the base tiles of a derived tile: those of their first elements. -/
def tileHeads (d b : Rec) (t : Nat) : List Nat := (((baseElems d b t).map b.tileHead).eraseDups).map fun i => b.bitAt i / 8

/-- The home slice of the line that holds a virtual address. -/
def sliceAt (m : List (Nat × Nat)) (va : Nat) : Option Nat := (m.find? fun e => e.1 == va / 128 * 128).map fun e => sliceOf (e.2 + va % 128)

/-- One edge for each base tile of a derived tile, counted at the home slice of the base tile's first element (R304). -/
def edgeSlices (m : List (Nat × Nat)) (d b : Rec) (t : Nat) : List Nat := (tileHeads d b t).filterMap (sliceAt m)

/-- The home slice of a derived tile: that of its edge to the base tile at the lowest address (R304). -/
def primarySlice (m : List (Nat × Nat)) (d b : Rec) (t : Nat) : Nat :=
  match tileHeads d b t with
  | [] => 0
  | x :: xs => (sliceAt m (xs.foldl min x)).getD 0

def countIn (xs : List Nat) (k : Nat) : Nat := (xs.filter (· == k)).length

/-! ### Registration -/

/-- What following the chain of bases finds (R198). -/
inductive Chain
  | ok (rs : List (Nat × List Word))
  | access (detail ea : Nat)
  | absent (vpage size : Nat)
  | wait
  deriving DecidableEq, Repr

/-- Following the chain from a record's address. A chain that comes back to an address of its own is followed no further, and is as long
as the checks of R198 look. -/
def followChain (c : Ctx) (x : Option XReg) (off ea : Nat) (acc : List (Nat × List Word)) : Nat → State → Chain × State
  | 0, s => (.ok acc, s)
  | n + 1, s =>
    match resolve s c.seat x off ea .rd with
    | (.access d, s) => (.access d ea, s)
    | (.absent v z, s) => (.absent v z, s)
    | (.held, s) => (.wait, s)
    | (.ok l, s) =>
      match readRecord s c.core l with
      | (.wait, s) => (.wait, s)
      | (.failed d, s) => (.access d ea, s)
      | (.words ws, s) =>
        let r := Rec.parse ws
        let acc' := acc ++ [(ea, ws)]
        if r.rule == 0 || acc'.any (fun e => e.1 == r.cbase) then
          (.ok (if r.rule == 0 then acc'
            else acc' ++ List.replicate 4 (r.cbase, ((acc'.find? fun e => e.1 == r.cbase).map (·.2)).getD [])), s)
        else followChain c none r.cbase r.cbase acc' n s

def overlap (a b : List (Nat × Nat)) : Bool := a.any fun x => b.any fun y => decide (x.1 < y.2) && decide (y.1 < x.2)

/-- The record itself and its data, as byte ranges. -/
def Rec.spans (r : Rec) (ea : Nat) : List (Nat × Nat) := (ea, ea + 64) :: r.ranges

/-- Whether a derived record keeps R197 and R441 against its base. -/
def castShape (d b : Rec) : Bool :=
  let same (k : Nat) : Bool := d.dim k == b.dim k
  let sum : Bool := match b.fmt with
    | .fmt f => if (floatFmt f).isSome then d.code == 7 else d.code == 1
    | _ => d.code == 7
  (match d.rule with
    | 1 => d.dim 0 == b.dim 1 && d.dim 1 == b.dim 0 && [2, 3, 4].all same && d.code == b.code
    | 2 => [0, 1, 2, 3, 4].all same && d.code != b.code
    | 3 => d.dim 0 == 1 && [1, 2, 3, 4].all same && sum
    | 4 => d.dim 1 == 1 && [0, 2, 3, 4].all same && sum
    | _ => false) && (!d.block || (decide (4 ≤ d.tile0) && d.sclbase != 0))

/-- The lowest rule number that is free (R201). -/
def freeRule (cs : List Cast) : Nat := ((List.range 4096).find? fun n => !(cs.any fun c => c.rule == n)).getD 4096

/-- The rule that a registration would make, none while a walk waits. -/
def newCast (s : State) (c : Ctx) (rs : List (Nat × List Word)) : Option Cast × State :=
  let at' (k : Nat) : Nat × List Word := rs.getD k (0, [])
  let d := Rec.parse (at' 0).2
  let b := Rec.parse (at' 1).2
  let tiles := List.range d.tiles
  let vas := (d.lineVas d.elems ++ b.lineVas (tiles.flatMap (baseElems d b))).eraseDups
  match mapLines s (clusterOf c.core) c.st.part c.la.asn vas with
  | (none, s) => (none, s)
  | (some m, s) =>
    let m := (lineMap m).filter fun e => regionOf e.2 == .hbm
    let slices := tiles.flatMap (edgeSlices m d b)
    (some { rule := freeRule s.casts, part := c.st.part, asn := c.la.asn, cluster := clusterOf c.core, addr := (at' 0).1, base := (at' 1).1,
            words := (at' 0).2, baseWords := (at' 1).2, depth := rs.length - 1, tiles := d.tiles,
            edges := tiles.flatMap fun t => tileMasks m b (baseElems d b t) t, lines := tiles.flatMap fun t => tileMasks m d (d.tileElems t) t,
            slices := slices.eraseDups.map fun k => (k, countIn slices k), homes := tiles.map fun t => (t, primarySlice m d b t),
            stale := tiles }, s)

/-- Whether new edges would exceed 2,048 in some slice. -/
def edgesFull (s : State) (c : Cast) : Bool := c.slices.any fun e =>
  decide (2048 < e.2 + s.casts.foldl (fun n x => n + ((x.slices.find? fun y => y.1 == e.1).map (·.2)).getD 0) 0)

/-- What registering a chain gives (R198): a cyclic cast, a wait, or CASTERR. -/
inductive Registered
  | cyclic
  | wait
  | done (err : Nat)
  deriving DecidableEq, Repr

/-- Registering a chain (R198). -/
def register (s : State) (c : Ctx) (rs : List (Nat × List Word)) : Registered × State :=
  let recs := rs.map fun e => (e.1, Rec.parse e.2)
  let (ea, d) := recs.getD 0 (0, Rec.parse [])
  let b := (recs.getD 1 (0, Rec.parse [])).2
  if (recs.drop 1).any fun e => overlap (d.spans ea) (e.2.spans e.1) then (.cyclic, s)
  else if d.rule == 0 || recs.any (fun e => e.2.malformed) || !castShape d b then (.done 1, s)
  else if s.casts.any fun x => x.part == c.st.part && x.asn == c.la.asn && x.addr == ea then (.done 2, s)
  else if 4 < rs.length then (.done 3, s)
  else if 4096 ≤ s.casts.length then (.done 4, s)
  else
    match newCast s c rs with
    | (none, s) => (.wait, s)
    | (some k, s) => if edgesFull s k then (.done 5, s) else (.done 0, { s with casts := s.casts ++ [k] })

/-- The address of CASTREG, CASTDROP and CASTQ, checked (R198, R170). A record that is not aligned to its 64 bytes (R195) raises the
misaligned-access trap (DESIGN CHOICE: the spec states no outcome). -/
def castAddress (o : Ops) (c : Ctx) (s : State) (f : State → Nat → Loc → State) : State :=
  let e := c.address o
  let (v, s) := check s c.seat (c.base o.a) .rd 64 (fun _ => false) [e]
  match v with
  | .held => s
  | .misaligned ea => c.trap s 0x07 0 (BitVec.ofNat 64 ea)
  | .access d ea => c.trap s 0x06 d (BitVec.ofNat 64 ea)
  | .go ((_, ea, l) :: _) _ => f s ea l
  | .go [] absent => residencyFault s c.seat .rd (pagesOf absent)

/-- Setting a predicate destination whole (R114). -/
def setAll (g : Group) (d : Opnd) (ok : Bool) : Group := writePred g d (if ok then BitVec.allOnes 256 else 0)

/-- CASTREG (R198). A residency fault of a record writes no TRAPADDR (DESIGN CHOICE, log entry 157). -/
def execCastreg (o : Ops) (s : State) : Outcome State Fault Refusal :=
  electing o s (fun c => c.commit s c.g (opWords o)) <| closing o (addressSources o) s fun c =>
    castAddress o c s fun s ea _ =>
      let e := c.address o
      match followChain c (c.base o.a) e.off ea [] 4096 s with
      | (.wait, s) => s
      | (.access d x, s) => c.trap s 0x06 d (BitVec.ofNat 64 x)
      | (.absent v z, s) => residencyFault s c.seat .rd [(v, z)]
      | (.ok rs, s) =>
        match register s c rs with
        | (.cyclic, s) => c.trap s 0x09 1 0
        | (.wait, s) => s
        | (.done err, s) => c.commit s { setAll c.g o.d (err == 0) with casterr := BitVec.ofNat 64 err } (opWords o)

/-! ### Rebuilding a tile -/

/-- The values of the elements of a tile, as pokes (R197, R441); `rd` gives the byte at a virtual address. -/
def tilePokes (d b : Rec) (rd : Nat → Nat) (t : Nat) : List Poke :=
  let elems := d.tileElems t
  let src (i : Idx) : Val := match castSources d b i with
    | x :: _ => b.val rd x
    | [] => Val.ofInt 0
  if d.block then
    (elems.filter fun i => i.getD 0 0 % 16 == 0).flatMap fun i =>
      d.pokeBlock i ((List.range 16).map fun k => src (i.set 0 (i.getD 0 0 + k)))
  else
    elems.map fun i => d.poke i (match d.rule, b.fmt, d.fmt with
      | 1, _, _ => match castSources d b i with
        | x :: _ => b.raw rd x
        | [] => 0
      | 2, _, .fmt f => ofVal f (satOverflow f) 0 (src i)
      | _, .fmt f, _ =>
        if (floatFmt f).isSome then
          match (castSources d b i).map fun x => f32Fmt.ofValue 0 (b.val rd x) with
          | y :: ys => ys.foldl add32 y
          | [] => 0
        else wrapTo 32 ((castSources d b i).foldl (fun n x => n + b.int rd x) 0)
      | _, _, _ => match castSources d b i with
        | x :: xs => xs.foldl (fun a y => f32Fmt.ofValue 0 (Val.add 0 (f32Fmt.val a) (b.val rd y))) (f32Fmt.ofValue 0 (b.val rd x))
        | [] => 0)

/-- The byte at a virtual address, by the homes of the lines that a map names; a free value elsewhere (R323). -/
def homeByte (s : State) (m : List (Nat × Nat)) (va : Nat) : Nat :=
  match m.find? fun e => e.1 == va / 128 * 128 with
  | some e => readHome s (.mem (e.2 + va % 128)) 1
  | none => Config.freeNat ((s.freeNo + 1) * 2 ^ 64 + va) % 256

/-- The stale tiles of other records on which a tile depends, each with its rule. -/
def staleBases (s : State) (p : Nat × Nat) : List (Nat × Nat) :=
  match s.casts.find? fun c => c.rule == p.1 with
  | none => []
  | some c =>
    let reads := c.edges.filter fun e => e.2.1 == p.2
    s.casts.flatMap fun x =>
      if x.rule == c.rule then []
      else (x.stale.filter fun t => x.lines.any fun l => l.2.1 == t && reads.any fun e => e.1 == l.1 && e.2.2 &&& l.2.2 != 0).map
        fun t => (x.rule, t)

/-- The tiles on which the recompute unit of a slice works: the first four for which it holds reads, in the order of arrival (R306). -/
def workedOn (s : State) (slice : Nat) : List (Nat × Nat) := (((heldAt s slice).map fun h => (h.rule, h.tile)).eraseDups).take 4

/-- Whether a tile is to be rebuilt: for a read that is held, or as a stale ancestor of such a tile (R199, R306). -/
def wanted (s : State) (p : Nat × Nat) : Bool :=
  ((List.range s.casts.length).foldl (fun xs _ => (xs ++ xs.flatMap (staleBases s)).eraseDups)
    ((List.range 128).flatMap (workedOn s))).contains p

/-- The reads held for a tile once it has been rebuilt (R306): each may be made, unless the line holds a part of another stale tile; a
read that is made again, or that nobody awaits any longer, ends. -/
def serveHeld (s : State) (rule tile : Nat) : State :=
  { s with heldReads := s.heldReads.filterMap fun h =>
      if h.rule != rule || h.tile != tile || h.served then some h
      else
        let live := match h.reader with
          | .load gid acc => reading s gid acc h.line
          | .command id => (Sparse.find? s.cmds id).isSome
          | .other => false
        if !live then none
        else
          match staleTile s h.line with
          | some (c, t) => some { h with rule := c.rule, tile := t }
          | none => some { h with served := true } }

/-- Whether a tile may be rebuilt now: no line that it reads or writes is owned, and every base tile that is itself derived
is current (R271, R306). -/
def tileReady (s : State) (c : Cast) (t : Nat) : Bool :=
  let reads := c.edges.filter fun e => e.2.1 == t
  let writes := c.lines.filter fun e => e.2.1 == t
  (reads.all fun e => (Sparse.find? s.owners e.1).isNone) && (writes.all fun e => (Sparse.find? s.owners e.1).isNone) &&
    (staleBases s (c.rule, t)).isEmpty

/-- Writing a rebuilt tile: the base lines are read, the tile is current, its lines are written, and the reads held for it are served. A
poisoned base line poisons the tile (R382). -/
def writeTile (s : State) (c : Cast) (t : Nat) (stores : List Store) : State :=
  let bases := ((c.edges.filter fun e => e.2.1 == t).map (·.1)).eraseDups
  let lines := (c.lines.filter fun e => e.2.1 == t).map (·.1)
  let bad := bases.any s.poisoned.contains
  let s := bases.foldl (fun s l => (homeRead s l 3).2.2) s
  let s := { s with freeNo := s.freeNo + 1, casts := s.casts.map fun x => if x.rule == c.rule then { x with stale := x.stale.filter (· != t) } else x }
  let s := stores.foldl (fun s x => applyStore s none x) s
  let s := if bad then { s with poisoned := s.poisoned ++ lines.filter fun l => !s.poisoned.contains l } else s
  serveHeld (countAt s (c.homeOf t) 2) c.rule t

/-- Rebuilding one tile (R306), unless a walk waits. While pages that hold its records or data have moved, what is written is free, and it is
written where the derived tensor lies now: no other memory is affected (R323). -/
def rebuild (s : State) (c : Cast) (t : Nat) : State :=
  let d := Rec.parse c.words
  let b := Rec.parse c.baseWords
  let vas := (d.lineVas (d.tileElems t) ++ b.lineVas (baseElems d b t)).eraseDups
  match mapLines s c.cluster c.part c.asn vas with
  | (none, s) => s
  | (some m, s) =>
    let m := (lineMap m).filter fun e => regionOf e.2 == .hbm
    let edges := c.edges.filter fun e => e.2.1 == t
    let lines := c.lines.filter fun e => e.2.1 == t
    let now := tileMasks m d (d.tileElems t) t
    let still := tileMasks m b (baseElems d b t) t == edges && now == lines
    let stores : List Store :=
      if still then pokeStores m (tilePokes d b (homeByte s m) t)
      else now.map fun e => { line := .mem e.1, va := 0, data := BitVec.ofNat 1024 (Config.freeNat ((s.freeNo + 1) * 2 ^ 64 + e.1)), mask := e.2.2, policy := 1 }
    writeTile s c t stores

/-- RECAST (R306): a stale tile for which a read is held, or a stale ancestor of one, is rebuilt from the home values of its base
tiles. -/
def execRecast (rule tile : Nat) (s : State) : Outcome State Fault Refusal :=
  match s.casts.find? fun c => c.rule == rule with
  | none => .next s
  | some c => if c.stale.contains tile && wanted s (rule, tile) && tileReady s c tile then done (rebuild s c tile) else .next s

/-- CASTDROP (R200): stale tiles are rebuilt first; the instruction stands in place while one of them cannot be, and asks for what it
needs as a read of the tile would. -/
def execCastdrop (o : Ops) (s : State) : Outcome State Fault Refusal :=
  electing o s (fun c => c.commit s c.g (opWords o)) <| closing o (addressSources o) s fun c =>
    castAddress o c s fun s ea _ =>
      let mine (x : Cast) : Bool := x.part == c.st.part && x.asn == c.la.asn
      match s.casts.find? fun x => mine x && x.addr == ea with
      | none => c.commit s (setAll c.g o.d false) (opWords o)
      | some k =>
        if s.casts.any fun x => mine x && x.base == ea then c.commit s (setAll c.g o.d false) (opWords o)
        else
          match k.stale with
          | [] => c.commit { s with casts := s.casts.filter fun x => x.rule != k.rule } (setAll c.g o.d true) (opWords o)
          | t :: _ =>
            if tileReady s k t then rebuild s k t
            else holdTile s .other (((k.tileLines t).head?.map (·.1)).getD 0) k.rule t (k.homeOf t)

/-- The status word of CASTQ (R201). -/
def Cast.status (k : Cast) : Nat :=
  1 + (Rec.parse k.words).rule * 2 + k.depth * 2 ^ 4 + k.stale.length % 2 ^ 20 * 2 ^ 12 + k.rule * 2 ^ 32

/-- Writing one U value into every active element of a destination (R15, R16). -/
def Ctx.spread (c : Ctx) (o : Ops) (s : State) (x : Nat) : State :=
  let g := c.guard o
  let old := oldDest c.r o.d
  s.modGroup c.gid fun grp =>
    { grp with run := some ((writeDest c.r o.d { val := mapActive g 64 old.val fun _ => x, tag := tagU (g.all 64) }).after (opWords o)) }

/-- CASTQ (R201): it stands in place until the home slices answer. -/
def execCastq (o : Ops) (s : State) : Outcome State Fault Refusal :=
  guarded o [(o.a, o.ea), (o.b, o.eb)] s fun c =>
    if c.r.stage == 3 then s else castAddress o c s fun s ea _ => c.put s c.g (c.r.await ea)

/-- The answer to a CASTQ (R201). -/
def Ctx.castAnswer (c : Ctx) (s : State) : Nat :=
  match s.casts.find? fun x => x.part == c.st.part && x.asn == c.la.asn && x.addr == c.r.query with
  | none => 0
  | some k => k.status

/-! ### Range cache maintenance -/

/-- The lines of one 4 KiB piece that a range touches, at their physical addresses, with whether the range holds them
whole. -/
def pieceLines (lo hi a pa : Nat) : List (Nat × Bool) :=
  (List.range 32).filterMap fun i =>
    let v := a + 128 * i
    if v < hi ∧ lo < v + 128 then some (pa / 4096 * 4096 + 128 * i, decide (lo ≤ v) && decide (v + 128 ≤ hi)) else none

/-- What checking the range of a CMO gives: its lines, each with whether the range holds it whole; the lowest failure with its address;
or a wait. -/
inductive Range
  | lines (ls : List (Nat × Bool))
  | fails (detail ea : Nat)
  | held
  deriving DecidableEq, Repr

/-- Checking a range piece by piece in ascending order (R203). -/
def rangeLines (c : Ctx) (x : Option XReg) (lo hi : Nat) : Nat → Nat → List (Nat × Bool) → State → Range × State
  | 0, _, acc, s => (.lines acc, s)
  | n + 1, a, acc, s =>
    if hi ≤ a then (.lines acc, s)
    else if 2 ^ 56 ≤ a then (.fails 3 (2 ^ 56), s)
    else
      let ea := max a lo
      match resolve s c.seat x ((ea + 2 ^ 64 - vbaseOf x) % 2 ^ 64) ea .rd with
      | (.access d, s) => (.fails d ea, s)
      | (.held, s) => (.held, s)
      | (.absent _ _, s) => rangeLines c x lo hi n (a + 4096) acc s
      | (.ok (.pad _ _), s) => rangeLines c x lo hi n (a + 4096) acc s
      | (.ok (.mem pa), s) => rangeLines c x lo hi n (a + 4096) (acc ++ pieceLines lo hi a pa) s

/-- CMOCLN, CMOINV and CMOFL (R203): after the release the lines are handed over, and the slot waits for them. One of
length 0 does nothing, in a transaction too (DESIGN CHOICE, log entry 156). -/
def cmoOp (o : Ops) (op : Nat) (s : State) : Outcome State Fault Refusal :=
  guarded o [(o.a, o.ea), (o.b, o.eb), (o.c, o.ec)] s fun c =>
    let len := c.scalar o o.c
    if len == 0 then c.next s c.g (opWords o)
    else if !loadsPerformed c.g then s
    else if c.g.txn.isSome then abortTxn s c.gid 0x09
    else c.release s (opScope o) fun s =>
      let lo := (c.address o).ea
      let hi := lo + len
      match rangeLines c (c.base o.a) lo hi ((hi + 4095) / 4096 - lo / 4096) (lo / 4096 * 4096) [] s with
      | (.fails d ea, s) => c.trap s 0x06 d (BitVec.ofNat 64 ea)
      | (.held, s) => s
      | (.lines ls, s) =>
        let (id, s) := s.fresh
        let w : CmoOp := { id := id, gid := c.gid, part := c.st.part, asn := c.la.asn, lo := lo, size := len, slotB := c.r.slotB, op := op, slices := Scope.wide (opScope o),
                           left := ls.map (·.1), whole := (ls.filter (·.2)).map (·.1) }
        ({ s with cmos := s.cmos ++ [w] }).modGroup c.gid fun g =>
          { g with run := some { c.r.after (opWords o) with waits := c.r.waits ++ [Wait.lines id] } }

/-- CMOCLN (R203). -/
def execCmocln (o : Ops) (s : State) : Outcome State Fault Refusal := cmoOp o 0 s

/-- CMOINV (R203). -/
def execCmoinv (o : Ops) (s : State) : Outcome State Fault Refusal := cmoOp o 1 s

/-- CMOFL (R203). -/
def execCmofl (o : Ops) (s : State) : Outcome State Fault Refusal := cmoOp o 2 s

/-- Cleaning a line of a slice: written to HBM, and kept. -/
def cleanLine (s : State) (line : Nat) : State :=
  match Sparse.find? s.l2 line with
  | some x => if x.dirty then
      let s := writeBack s line x.data
      { s with l2 := Sparse.insert s.l2 line { x with dirty := false } }
    else s
  | none => s

/-- A CMO's effect on one line of a core's L1 and of the slices (R203). -/
def cmoLine (s : State) (core op : Nat) (slices whole : Bool) (line : Nat) : State :=
  let c := s.core core
  let s := if op == 0 then s else
    match Sparse.find? c.l1 line with
    | some (.valid _ _ _ _) => s.setCore core { c with l1 := Sparse.erase c.l1 line }
    | some (.fill _ e r) => s.setCore core { c with l1 := Sparse.insert c.l1 line (.fill true e r) }
    | none => s
  if !slices then s
  else if op == 0 then cleanLine s line
  else if op == 1 && whole then dropLine s line
  else evict s line

/-- Doing the lines of a CMO that no engine owns (R203). -/
def doCmo (s : State) (w : CmoOp) : State :=
  let free (l : Nat) : Bool := !heldBack s (.mem l)
  let s' := (w.left.filter free).foldl (fun s l => cmoLine s (w.gid / 64) w.op w.slices (w.whole.contains l) l) s
  let left := w.left.filter fun l => !free l
  if left.isEmpty then { s' with cmos := s'.cmos.filter fun x => x.id != w.id }
  else { s' with cmos := s'.cmos.map fun x => if x.id == w.id then { x with left := left } else x }

/-- CMO_LINES_DONE (R203): owned lines are recalled first; the operation goes on after a discard of its group. -/
def execCmoLinesDone (gid : Nat) (slotB : Bool) (s : State) : Outcome State Fault Refusal :=
  match s.cmos.find? fun w => w.gid == gid && w.slotB == slotB with
  | none => .next s
  | some w => .next (doCmo s w)

end Sys2Proof.Machine
end

