-- ==== Sys2Proof/Machine/Control.lean ====
section
/-! DEFINITION. The meanings of majors 0x01 to 0x03: run heads, trailers with the divergence stack, SPAWN, barriers and
NOP (R97 to R112), and the return of a retired group's resources (R105). -/

namespace Sys2Proof.Machine

open Host (Outcome)

/-! ### Waits, merges and pops -/

/-- Whether what a slot waits for has come (R98, R110, R176, R180, R203); a wait for a word ends in its own step (R189). -/
def waitOver (s : State) (gid : Nat) (g : Group) : Wait → Bool
  | .barrier level gen => !barrierOpen s gid g level gen
  | .pages => g.missing == 0
  | .returns acc _ => !(g.accs.any fun a => a.id == acc)
  | .word _ _ _ _ _ _ _ => false
  | .lines id => !(s.cmos.any fun w => w.id == id)

/-- The scope of the acquire that the end of a wait makes (R180). -/
def Wait.acquires : Wait → Option Scope
  | .returns _ a => a
  | _ => none

/-- Dropping the waits of one slot that are over. -/
def wakeSlot (s : State) (gid : Nat) (slotB : Bool) : State :=
  match Sparse.find? s.groups gid with
  | none => s
  | some g =>
    let x := g.slot slotB
    let gone := x.waits.filter (waitOver s gid g)
    if gone.isEmpty then s
    else
      let s := s.putGroup gid (g.setSlot slotB { x with waits := x.waits.filter fun w => !waitOver s gid g w })
      gone.foldl (fun s w => match w.acquires with
        | some sc => acquire s (gid / 64) sc
        | none => s) s

def wakeSlots (s : State) (gid : Nat) : State := wakeSlot (wakeSlot s gid false) gid true

/-- What merging and popping finds: done, with whether slots merged; a stall; the abort of an open transaction (R192); or an access fault
at a stack entry. -/
inductive Converge
  | ok (merged : Bool) (s : State)
  | stall
  | abort (cause : BitVec 8)
  | fault (detail addr : Nat) (s : State)
  deriving DecidableEq, Repr

/-- Whether both slots wait at the reconvergence PC in force, and for nothing else (R102, R112). -/
def Group.meets (g : Group) : Bool :=
  g.slotA.st.live && g.slotB.st.live && g.run.isNone && g.slotA.st.pc == g.rcv && g.slotB.st.pc == g.rcv &&
    g.slotA.waits.isEmpty && g.slotB.waits.isEmpty

/-- The merge: slot A takes both masks, slot B is not live (R102). -/
def Group.merge (g : Group) : Group :=
  { g with slotA := Slot.at' g.rcv (g.slotA.st.mask ||| g.slotB.st.mask), slotB := g.slotB.off }

/-- A stack entry that is pushed (R25, R102): the other slot's state and the reconvergence PC in force. -/
def Group.entry (g : Group) (slotB : Bool) : Nat :=
  let x := g.slot slotB
  x.st.pc.toNat + x.st.mask.toNat * 2 ^ 64 + (if slotB then 3 else 2) * 2 ^ 96 + g.rcv.toNat * 2 ^ 128

/-- The group after a pop into a slot that is not live (R103): lanes that have retired are taken out of the mask; with none
left the slot stays not live. -/
def Group.popped (g : Group) (slotB : Bool) (x : Nat) : Group :=
  let pc := BitVec.ofNat 56 (bits x 0 56)
  let saved : BitVec 32 := BitVec.ofNat 32 (bits x 64 32)
  let mask := saved &&& ~~~g.exited
  let g := { g with dsp := g.dsp - 1, rcv := if (bits x 96 32).testBit 1 then BitVec.ofNat 56 (bits x 128 56) else g.rcv }
  let st : SlotState := { pc := pc, mask := saved, live := true }
  let waits := g.heldWaits st
  let g := g.dropHeld slotB st
  if mask == 0 then g else g.setSlot slotB { Slot.at' pc mask with waits := waits }

/-- Pops into the free slot while it stays free and DSP is above 0 (R103). A pop is a load of the group (R25): it joins the read set of an
open transaction (R192), and a poisoned entry raises the access fault (R382). -/
def popInto (gid : Nat) (st : Stand) (asn : Nat) (slotB : Bool) : Nat → State → Converge
  | 0, s => .ok false s
  | n + 1, s =>
    match Sparse.find? s.groups gid with
    | none => .ok false s
    | some g =>
      if g.dsp == 0 || (g.slot slotB).st.live then .ok false s
      else if !loadsPerformed g then .stall
      else
        let off := 32 * (g.dsp.toNat - 1)
        match areaLoc s gid st asn off with
        | (.error d, s) => .fault d (areaAddress s gid st off) s
        | (.held, _) => .stall
        | (.ok l, s) =>
          if !rangeFree s gid l 32 then .stall
          else if rangePoisoned s gid l 32 then .fault 6 (areaAddress s gid st off) s
          else
            match rangeRead s gid l 32 with
            | none => .abort 0x04
            | some s =>
              let (x, s) := readRange s gid l 32
              popInto gid st asn slotB n (s.modGroup gid fun g => g.popped slotB x)

/-- Merging while both slots meet, each merge followed by its pops (R102, R103). -/
def converge (gid : Nat) (st : Stand) (asn : Nat) : Nat → Bool → State → Converge
  | 0, m, s => .ok m s
  | n + 1, m, s =>
    match Sparse.find? s.groups gid with
    | none => .ok m s
    | some g =>
      if !g.meets then .ok m s
      else
        match popInto gid st asn true 256 (s.putGroup gid g.merge) with
        | .ok _ s => converge gid st asn n true s
        | r => r

/-- What a group's slots do between runs: waits that are over end, and slots that meet merge, which may complete a
barrier generation (R109). A stack entry whose page cannot
be read raises the access fault at the reconvergence PC (DEDUCED). -/
def wake (s : State) (gid : Nat) : State :=
  let s := wakeSlots s gid
  match seatOf s gid with
  | none => s
  | some (g, st, la) =>
    if !g.meets then s
    else
      match converge gid st la.asn 256 false s with
      | .ok _ s => settleBarriers s g.stand
      | .stall => s
      | .abort k => abortTxn s gid k
      | .fault d a s => takeTrap s gid
          { code := 0x06, detail := d, pc := g.rcv.toNat, inst := 0, inst2 := 0, addr := BitVec.ofNat 64 a, slotB := false } none

/-! ### Run heads -/

/-- A run head (R97 to R99): the working set is copied, the temporaries are zero, the run is bound to the current bank of
the function table, and a RUNR takes the region snapshot. A traced group writes its RUN record (R424). -/
def runHead (h : Head) (region : Bool) (s : State) : Outcome State Fault Refusal :=
  withRun s fun c =>
    let ws := setOrder h.ws
    if ws.any fun n => !(c.g.vreg n).full then s
    else
      let buf := ws.foldl (fun m n => Sparse.set m n { val := (c.g.vreg n).val, tag := (c.g.vreg n).tag } .zero) []
      let r := { c.r with pos := headWords c.r, ws := h.ws, buf := buf, temps := [], withdrawn := 0, bank := (s.core c.core).cur }
      let (s, tracing, since) := traceRun s c.st.part c.gid c.g c.r.slotB c.r.head.toNat
      s.modGroup c.gid fun g =>
        let here : Snapshot :=
          { head := c.r.head, a := g.slotA.st, b := g.slotB.st, rcv := g.rcv, dsp := g.dsp, livein := h.livein, exited := g.exited,
            waitsA := g.slotA.waits, waitsB := g.slotB.waits, held := g.held }
        { g with tracing := tracing, sinceSync := since, run := some r, snap := if region then here else g.snap }

/-- RUN (R98). -/
def execRun (h : Head) (s : State) : Outcome State Fault Refusal := runHead h false s

/-- RUNR (R99). -/
def execRunr (h : Head) (s : State) : Outcome State Fault Refusal := runHead h true s

/-! ### Trailers -/

/-- What step 1 of a trailer decides (R101): a stall; a trap; or the next head that R442 names, the change of the slots, the
stores of a push, and whether the issuing slot has stopped being live. -/
inductive Decision
  | stall
  | trap (code detail : Nat) (addr : Word)
  | go (next : BitVec 56) (slots : Group → Group) (push : List Store) (left : Bool)

/-- The address of the trailer, and an address some words beyond it (R100), modulo 2^56 (DESIGN CHOICE, log entry 154). -/
def Ctx.here (c : Ctx) : Nat := c.r.head.toNat + 8 * c.r.pos
def Ctx.beyond (c : Ctx) (n : BitVec 32) : BitVec 56 := BitVec.ofInt 56 (c.here + 8 * n.toInt)

/-- The lanes of the issuing slot whose condition bit is 1 (R101). -/
def Ctx.taken (c : Ctx) (t : Trail) : BitVec 32 :=
  let p := c.g.pred t.pred
  let m := (c.g.slot c.r.slotB).st.mask
  BitVec.ofNat 32 ((List.range 32).foldl (fun n l => if m.getLsbD l && (p.getLsbD (8 * l) != t.pn) then n + 2 ^ l else n) 0)

/-- The issuing slot at its next head, its waits kept. -/
def Group.move (g : Group) (slotB : Bool) (pc : BitVec 56) (mask : BitVec 32) : Group :=
  g.setSlot slotB { Slot.at' pc mask with waits := (g.slot slotB).waits }

/-- The issuing slot goes to an address. -/
def Ctx.goTo (c : Ctx) (pc : BitVec 56) : Decision :=
  .go pc (fun g => g.move c.r.slotB pc (g.slot c.r.slotB).st.mask) [] false

/-- Step 3 of a trailer after its slots have changed: a retaken snapshot (R442). -/
def Group.retaken (g : Group) (slotB merged : Bool) : Group :=
  let x := if merged then g.slotA else if (g.slot slotB).st.live then g.slot slotB else g.slot (!slotB)
  { g with snap := { head := x.st.pc, a := g.slotA.st, b := g.slotB.st, rcv := g.rcv, dsp := g.dsp, livein := 0, exited := g.exited,
                        waitsA := g.slotA.waits, waitsB := g.slotB.waits, held := g.held } }

/-- The registers that a trailer publishes (R28, R29, R85). -/
def publishSet (r : Run) (pub : BitVec 16) : List Nat :=
  let ws := setOrder r.ws
  ((List.range ws.length).filter fun i => pub.getLsbD i).map (fun i => ws.getD i 0) |>.filter fun n => !r.withdrawn.getLsbD n

/-- Publishing (R28): copied with its tag and set full; an arrival still pending is cancelled (R29). -/
def Group.publish (g : Group) (r : Run) (ns : List Nat) : Group :=
  ns.foldl (fun g n => (g.cancel n).setV n { val := (r.copy n).val, tag := (r.copy n).tag, full := true }) g

/-- The link register of ENDCALL (R101). -/
def Group.link (g : Group) (d : Opnd) (pc : BitVec 56) : Group :=
  match d with
  | .reg (.v n) => (g.cancel n.val).setV n.val { val := splat pc.toNat, tag := .u, full := true }
  | _ => g

/-- A trap of a trailer: it is discarding; where a closing instruction has committed, the snapshot is that of R442. -/
def Ctx.trailTrap (c : Ctx) (s : State) (next : BitVec 56) (code detail : Nat) (addr : Word) : State :=
  let g := if c.r.committed then { c.g.retakenAt c.r next with run := some { c.r with committed := false } } else c.g
  takeTrap (s.putGroup c.gid g) c.gid (c.cause code detail addr) none

/-- The waits that a run has asked for, as its trailer makes them: a barrier wait names the generation of the group's latest
arrival (R110). -/
def Run.waitsAt (r : Run) (g : Group) : List Wait :=
  r.waits.filterMap fun w => match w with
    | .barrier level _ => (g.latest level).map (Wait.barrier level)
    | w => some w

/-- A push enters the group's FIFO, or as a store does the write set of an open transaction, if that has room (R25, R192). -/
def Group.pushed (g : Group) (push : List Store) : Except (BitVec 8) Group :=
  if push.isEmpty then .ok g
  else
    match g.txn with
    | none => .ok { g with fifo := g.fifo ++ push, dsp := g.dsp + 1 }
    | some t =>
      let ws := mergeWrites t.writes push
      if push.any fun x => isPad x.line then .error 0x0A
      else if push.any fun x => isRemote x.line then .error 0x0B
      else if 32 < ws.length then .error 0x03
      else .ok { g with txn := some { t with writes := ws }, dsp := g.dsp + 1 }

/-- The slots of a trailer (R101 to R104): the run's barrier arrivals are made, the run ends, its slots change, its waits
begin, and slots merge and pop. -/
def Ctx.settle (c : Ctx) (s : State) (slots : Group → Group) (push : List Store) (left : Bool) : Converge :=
  match c.g.pushed push with
  | .error k => .abort k
  | .ok _ =>
  let s := c.r.arrivals.foldl (fun s l => arriveSlot s c.gid c.r.slotB l) s
  let s := s.modGroup c.gid fun g =>
    let x := g.slot c.r.slotB
    let g := g.setSlot c.r.slotB { x with waits := x.waits ++ c.r.waitsAt g }
    let g := slots { g with run := none }
    ((g.pushed push).toOption).getD g
  let s := wakeSlots s c.gid
  match (if left then popInto c.gid c.st c.la.asn c.r.slotB 256 s else .ok false s) with
  | .ok _ s => converge c.gid c.st c.la.asn 256 false s
  | r => r

/-- The bank that a run's TBLSW makes current (R140). -/
def Ctx.switchBank (c : Ctx) (s : State) : State := match c.r.tblsw with
  | some b => s.setCore c.core { s.core c.core with cur := b }
  | none => s

/-- The end of a run that a trailer completes: its registers are published, the bank of TBLSW becomes current, a committed
closing instruction retakes the snapshot, groups that it spawned become eligible, a group without a live slot retires, the trap
of a TRAP is taken, the snapshot having moved past it (R34), and a stepped group stops (R101, R105, R107, R140, R421). -/
def Ctx.close (c : Ctx) (s : State) (t : Trail) (merged : Bool) : State :=
  let s := s.modGroup c.gid fun g =>
    let g := (g.publish c.r (publishSet c.r t.pub)).link t.d c.r.fall
    if c.r.committed then g.retaken c.r.slotB merged else g
  let s := c.switchBank s
  let s := { s with
    issuer := none
    groups := s.groups.map fun e => if e.2.unborn == some c.gid then (e.1, { e.2 with unborn := none }) else e }
  let s := settleBarriers s c.g.stand
  match Sparse.find? s.groups c.gid with
  | none => s
  | some g =>
    if !g.slotA.st.live && !g.slotB.st.live then retireGroup s c.gid
    else if let some (detail, o) := c.r.raised then
      takeTrap s c.gid { code := 0x0B, detail := detail.toNat, pc := o.pc.toNat, inst := o.inst, inst2 := o.inst2, addr := 0,
                         slotB := o.slotB } none
    else if g.dbg.step.isSome then stopGroup s c.gid 4
    else s

/-- Whether the trailer would publish a register of the region's live-in set (R31). -/
def Ctx.regionWrite (c : Ctx) (t : Trail) : Bool :=
  let link := match t.d with
    | .reg (.v n) => [n.val]
    | _ => []
  (publishSet c.r t.pub ++ link).any fun n => c.g.snap.livein.getLsbD n

/-- The return that the trailer of an ERET makes (R254): what the run publishes, its arrivals, its waits (R110) and its TBLSW stand, and the
group goes on as its save area says, the issuing slot's waits holding it at its next head. A stepped group stops (R421), and a suspended run
then waits until it is resumed. -/
def Ctx.finishReturn (c : Ctx) (s : State) (t : Trail) : State :=
  let s := c.r.arrivals.foldl (fun s l => arriveSlot s c.gid c.r.slotB l) (c.switchBank s)
  let s := s.modGroup c.gid fun g => { g.publish c.r (publishSet c.r t.pub) with run := none }
  let waits := ((Sparse.find? s.groups c.gid).map c.r.waitsAt).getD []
  let s := (returnFrom { s with issuer := none } c.gid).modGroup c.gid fun g =>
    let x := g.slot c.r.slotB
    if x.st.live then g.setSlot c.r.slotB { x with waits := x.waits ++ waits } else g
  let s := wakeSlots s c.gid
  match Sparse.find? s.groups c.gid with
  | none => s
  | some g =>
    if g.retired || g.dbg.step.isNone then s
    else stopGroup (s.putGroup c.gid { g with run := none, susp := g.run, suspSnap := g.run.map fun _ => g.snap }) c.gid 4

/-- A trailer (R101): one step. A pop whose page cannot be read traps as step 1 does (R331): of what the step had done, only the
translations that were looked up stand. -/
def trailer (t : Trail) (s : State) (step1 : Ctx → State → Decision × State) : Outcome State Fault Refusal :=
  withRun s fun c =>
    match readyOf c.g c.r [(.reg (.p t.pred), false), (t.a, t.ea)] with
    | .stall => s
    | .trap n => c.trailTrap s c.r.fall 0x03 0 (BitVec.ofNat 64 n)
    | .go =>
      if c.r.tblsw.isSome && !(s.core c.core).tables.isEmpty then s
      else
        match step1 c s with
        | (.stall, _) => s
        | (.trap code d a, s) => c.trailTrap s c.r.fall code d a
        | (.go next slots push left, s1) =>
          if c.r.returning then
            if c.regionWrite t then c.trailTrap s1 next 0x04 0 0 else if returnReady s1 c.gid then c.finishReturn s1 t else s
          else
            match c.settle s1 slots push left with
            | .stall => s
            | .abort k => if c.regionWrite t then c.trailTrap s1 next 0x04 0 0 else abortTxn s1 c.gid k
            | .fault d a t => c.trailTrap { s1 with cores := t.cores, clusters := t.clusters } c.r.fall 0x06 d (BitVec.ofNat 64 a)
            | .ok merged s2 => if c.regionWrite t then c.trailTrap s1 next 0x04 0 0 else c.close s2 t merged

/-- END (R101). -/
def execEndFall (t : Trail) (s : State) : Outcome State Fault Refusal :=
  trailer t s fun c s => (c.goTo c.r.fall, s)

/-- ENDB (R101): any lane decides for the slot. -/
def execEndb (t : Trail) (s : State) : Outcome State Fault Refusal :=
  trailer t s fun c s => (c.goTo (if c.taken t == 0 then c.r.fall else c.beyond t.tgt), s)

/-- The split of ENDC (R102): the slot keeps the lanes that are not taken, the other slot receives those that are. -/
def Group.split (g : Group) (slotB : Bool) (fall target rcv : BitVec 56) (taken : BitVec 32) : Group :=
  let m := (g.slot slotB).st.mask
  let g := g.hold (!slotB)
  { (g.move slotB fall (m &&& ~~~taken)).setSlot (!slotB) (Slot.at' target taken) with rcv := rcv }

/-- ENDC (R102): with every lane taken the slot goes to TGT, though the next head that a trap records is the fall-through (R442). On a split
the other slot's state is pushed if it is live, which needs a free entry (R26), its page (R331) and room in
the group's FIFO (R25). -/
def execEndc (t : Trail) (s : State) : Outcome State Fault Refusal :=
  trailer t s fun c s =>
    let m := (c.g.slot c.r.slotB).st.mask
    let taken := c.taken t
    if taken == 0 then (c.goTo c.r.fall, s)
    else if taken == m then (.go c.r.fall (fun g => g.move c.r.slotB (c.beyond t.tgt) m) [] false, s)
    else
      let f (g : Group) : Group := g.split c.r.slotB c.r.fall (c.beyond t.tgt) (c.beyond t.rcv) taken
      if !(c.g.slot (!c.r.slotB)).st.live then (.go c.r.fall f [] false, s)
      else if c.la.divstack ≤ c.g.dsp.toNat then (.trap 0x05 0 0, s)
      else
        let off := 32 * c.g.dsp.toNat
        match areaLoc s c.gid c.st c.la.asn off with
        | (.error d, s) => (.trap 0x06 d (BitVec.ofNat 64 (areaAddress s c.gid c.st off)), s)
        | (.held, s) => (.stall, s)
        | (.ok l, s) =>
          if !loadsPerformed c.g || c.g.txn.isNone && (decide (16 ≤ c.g.fifo.length) || decide (256 ≤ queueEntries s c.core)) then (.stall, s)
          else (.go c.r.fall f (linesOf l (areaAddress s c.gid c.st off) 32 (c.g.entry (!c.r.slotB)) 0) false, s)

/-- The indirect branches (R101, R90): the elected lane's target. -/
def indirectTrailer (t : Trail) (s : State) : Outcome State Fault Refusal :=
  trailer t s fun c s =>
    let m := (c.g.slot c.r.slotB).st.mask
    let l := ((List.range 32).find? fun l => m.getLsbD l).getD 0
    let x := lane (readOpnd c.env c.g c.r none 64 none t.a).val l
    if x % 8 != 0 then (.trap 0x07 0 (BitVec.ofNat 64 x), s)
    else if 2 ^ 56 ≤ x then (.trap 0x06 3 (BitVec.ofNat 64 x), s)
    else
      let pc := BitVec.ofNat 56 x
      let via : Origin := { slotB := c.r.slotB, pc := BitVec.ofNat 64 c.here, inst := c.r.words.getD c.r.pos 0, inst2 := 0 }
      let land (g : Group) : Group :=
        let g := g.move c.r.slotB pc (g.slot c.r.slotB).st.mask
        g.setSlot c.r.slotB { g.slot c.r.slotB with via := some via }
      (.go pc land [] false, s)

/-- ENDJ (R101). -/
def execEndj (t : Trail) (s : State) : Outcome State Fault Refusal := indirectTrailer t s

/-- ENDCALL (R101). -/
def execEndcall (t : Trail) (s : State) : Outcome State Fault Refusal :=
  trailer t s fun c s => (c.goTo (c.beyond t.tgt), s)

/-- ENDRET (R101): the effect of ENDJ. -/
def execEndret (t : Trail) (s : State) : Outcome State Fault Refusal := indirectTrailer t s

/-- The exit of lanes from a slot (R104). -/
def Group.exit (g : Group) (slotB : Bool) (fall : BitVec 56) (t : BitVec 32) : Group :=
  let left := (g.slot slotB).st.mask &&& ~~~t
  let g := { g with exited := g.exited ||| t }
  if left == 0 then g.setSlot slotB ({ g.slot slotB with st := { (g.slot slotB).st with mask := 0 } } : Slot).off
  else g.move slotB fall left

/-- ENDEXIT (R104). -/
def execEndexit (t : Trail) (s : State) : Outcome State Fault Refusal :=
  trailer t s fun c s =>
    let out := if t.pred.val == 0 then (c.g.slot c.r.slotB).st.mask else c.taken t
    (.go c.r.fall (fun g => g.exit c.r.slotB c.r.fall out) [] ((c.g.slot c.r.slotB).st.mask &&& ~~~out == 0), s)

/-- A stand without a group whose place has been returned. -/
def Stand.leave (st : Stand) (gid : Nat) : Stand :=
  { st with
    groups := st.groups.filter (· != gid)
    barriers := (st.barriers.filter fun b => !(b.level == 1 && b.scope == gid)).map fun b =>
      { b with members := b.members.filter (· != gid), missing := b.missing.filter (· != gid) } }

/-- Whether a result of a group is still to arrive: of an access (R17), or the predicate of a NODE (R247). -/
def resultsDue (s : State) (gid : Nat) (g : Group) : Bool :=
  (g.accs.any fun a => a.use != .none) || s.arming.any fun a => a.gid == gid

/-- GROUP_RESOURCES_RETURN (R105): once every result still pending is in, a retired group gives back its place; its stores that have not
drained stay with the core, and its additions that return nothing are still made. -/
def execGroupResourcesReturn (gid : Nat) (s : State) : Outcome State Fault Refusal :=
  match Sparse.find? s.groups gid with
  | none => .next s
  | some g =>
    if g.retired && !resultsDue s gid g then
      let c := s.core (gid / 64)
      let s := s.setCore (gid / 64) { c with orphans := Sparse.set c.orphans gid (Sparse.getD c.orphans gid [] ++ g.fifo) [] }
      .next ({ s with groups := Sparse.erase s.groups gid }.modStand g.stand fun st => st.leave gid)
    else .next s

/-! ### SPAWN -/

/-- A group of a launch as it starts (R37), its main-file granules still to be given. -/
def newGroup (la : Launch) (stand sched number : Nat) (wid spawnid : Word) (entry : BitVec 56) : Group :=
  let a := Slot.at' entry (BitVec.allOnes 32)
  { stand := stand, sched := sched, number := number, granules := [], mats := la.mregs, wid := wid, spawnid := spawnid, v := [], p := [], m := [], x := [],
    slotA := a, slotB := .dead, rcv := 0, dsp := 0,
    snap := { head := entry, a := a.st, b := .dead, rcv := 0, dsp := 0, livein := 0, exited := 0, waitsA := [], waitsB := [], held := [] },
    trap := .zero, casterr := 0, arrived := [], fifo := [], saving := [], accs := [], txn := none, run := none, susp := none, suspSnap := none, exited := 0,
    held := [], parked := false, missing := 0, preempt := false, retired := false, unborn := none, lost := [], entering := none, tracing := false,
    sinceSync := 256, dbg := .none }

/-- The groups resident on a core, those included whose results are still pending (R105). -/
def residents (s : State) (core : Nat) : Sparse Group := s.groups.filter fun e => e.1 / 64 == core

/-- Main-file granules and matrix registers in use on a core (R289, R290). -/
def granulesUsed (s : State) (core : Nat) : Nat :=
  (residents s core).foldl (fun n e => n + e.2.granules.length) 0
def matricesUsed (s : State) (core : Nat) : Nat :=
  (residents s core).foldl (fun n e => n + e.2.mats) 0

/-- The groups resident on a scheduler. -/
def schedLoad (s : State) (core k : Nat) : Nat := ((residents s core).filter fun e => e.2.sched == k).length

/-- The scheduler with the fewest resident groups, the lowest on a tie (R107, R329). -/
def leastSched (s : State) (core : Nat) : Nat :=
  (List.range 4).foldl (fun b k => if schedLoad s core k < schedLoad s core b then k else b) 0

/-- The main-file granules that a new group of so many v registers takes (R290): the lowest free ones of the core (DESIGN CHOICE). -/
def freeGranules (s : State) (core vregs : Nat) : List Nat :=
  let used := (residents s core).flatMap fun e => e.2.granules
  ((List.range 256).filter fun n => !used.contains n).take ((vregs + 7) / 8)

/-- The lowest free group place of a core, which a new group takes (R329; of a spawned group DESIGN CHOICE:
R107 names no place). -/
def freePlace (s : State) (core : Nat) : Option Nat :=
  (List.range 64).find? fun p => (Sparse.find? s.groups (core * 64 + p)).isNone

/-- Whether a core has room for more groups of a launch (R107, R329). -/
def groupsFit (s : State) (core n vregs mregs : Nat) : Bool :=
  decide ((residents s core).length + n ≤ 64) && decide ((List.range 4).foldl (fun t k => t + (16 - schedLoad s core k)) 0 ≥ n) &&
    decide (granulesUsed s core + n * ((vregs + 7) / 8) ≤ 256) && decide (matricesUsed s core + n * mregs ≤ 32)

/-- Adding one group of so many v registers to a stand, with its granules (R290) and its level-1 barrier (R109). -/
def addGroup (s : State) (core stand vregs : Nat) (mk : Nat → Group) : State :=
  match freePlace s core with
  | none => s
  | some p =>
    let gid := core * 64 + p
    let s := s.putGroup gid { mk (leastSched s core) with granules := freeGranules s core vregs }
    s.modStand stand fun st => { st with groups := st.groups ++ [gid], barriers := st.barriers ++ [ownBarrier gid] }

/-- SPAWN (R106, R107). -/
def execSpawn (o : Ops) (s : State) : Outcome State Fault Refusal :=
  electing o s (fun c => c.commit s c.g (opWords o)) <|
    closing o [(.reg (.p o.pred), false), (o.a, o.ea), (o.b, o.eb)] s fun c =>
      let n := c.scalar o o.a
      let e := c.scalar o o.b
      let live := (c.st.groups.filter fun gid => match Sparse.find? s.groups gid with
        | some g => g.stand == c.g.stand && !g.retired
        | none => false).length
      let ok := decide (1 ≤ n) && decide (n ≤ 16) && decide (e < c.la.entries.length) && decide (live + n ≤ 64) &&
        groupsFit s c.core n c.la.vregs c.la.mregs
      if !ok then c.commit s (setAll c.g o.d false) (opWords o)
      else
        let s := c.commit s (setAll c.g o.d true) (opWords o)
        (List.range n).foldl (fun s i => addGroup s c.core c.g.stand c.la.vregs fun k =>
          { newGroup c.la c.g.stand k c.g.number c.g.wid (BitVec.ofNat 64 (i + 1)) (c.la.entries.getD e 0) with unborn := some c.gid }) s

/-! ### Barriers and NOP -/

/-- A change of the run alone, by an instruction that does nothing with no elected lane (R16, R108). -/
def runOp (o : Ops) (s : State) (f : Run → Run) : Outcome State Fault Refusal :=
  compute o s fun c => (c.g, if (c.guard o).elected.isNone then c.r else f c.r)

/-- The level of a barrier instruction (R108). -/
def barLevel (o : Ops) : Nat := o.mod.toNat % 8

/-- BAR (R109, R110): an arrival, and a wait at the next head. -/
def execBar (o : Ops) (s : State) : Outcome State Fault Refusal :=
  runOp o s fun r => { r with arrivals := r.arrivals ++ [barLevel o], waits := r.waits ++ [.barrier (barLevel o) 0] }

/-- BARA (R109). -/
def execBara (o : Ops) (s : State) : Outcome State Fault Refusal := runOp o s fun r => { r with arrivals := r.arrivals ++ [barLevel o] }

/-- BARW (R110). -/
def execBarw (o : Ops) (s : State) : Outcome State Fault Refusal := runOp o s fun r => { r with waits := r.waits ++ [.barrier (barLevel o) 0] }

/-- NOP (R111). -/
def execNop (o : Ops) (s : State) : Outcome State Fault Refusal := withRun s fun c => c.next s c.g (opWords o)

end Sys2Proof.Machine
end

