-- ==== Sys2Proof/Machine/Fetch.lean ====
section
/-! DEFINITION. Fetching and checking a run as a whole (R87 to R90). -/

namespace Sys2Proof.Machine

open Host (Outcome)

/-- What reading one instruction word gives: the word, a page to wait for, the detail of an access fault, or a wait. -/
inductive CodeWord
  | word (w : Word)
  | absent (vpage size : Nat)
  | access (detail : Nat)
  | wait
  deriving DecidableEq, Repr

/-- Reading the word at a code address (R90): translated with EX needed, read at its home; code in host or linked memory is read in pieces
of 64 bytes as records are. The scratchpad window has no EX (R168). The prologue unit of a front end fetches on the path of a cluster (R399,
R408). -/
def codeWord (s : State) (hub : Bool) (core part asn va : Nat) : CodeWord × State :=
  if 2 ^ 56 ≤ va then (.access 3, s)
  else if !hub && inPadWindow va then (.access 2, s)
  else
    let (w, s) := if hub then translateCluster s (clusterOf core) part asn va else translate s core part asn va
    match checkPage va .ex w with
    | .access d => (.access d, s)
    | .absent v z => (.absent v z, s)
    | .held => (.wait, s)
    | .ok l =>
      if isRemote l then
        match l with
        | .mem pa =>
          match readRecord s core (.mem (pa / 64 * 64)) with
          | (.words ws, s) => (.word (ws.getD (pa % 64 / 8) 0), s)
          | (.wait, s) => (.wait, s)
          | (.failed d, s) => (.access d, s)
        | .pad _ _ => (.wait, s)
      else if homeBusy s l then (.wait, match l.base with | .mem pa => holdRead s .other pa | .pad _ _ => s)
      else if homePoisoned s l then (.access 6, s)
      else
        let s := match l.base with
          | .mem line => (homeRead (exchange s (dieOf core) (homeDie line)) line 1).2.2
          | .pad _ _ => s
        (.word (BitVec.ofNat 64 (readHome s l 8)), s)

/-- What fetching a run finds: its words; a trap at a word (code, detail, the word's place in the run); or what stops a read. -/
inductive FetchEnd
  | done (words : List Word)
  | trap (code detail at' : Nat) (w ext : Word)
  | stopped (x : CodeWord)
  deriving DecidableEq, Repr

/-- Where a fetch stands: the address of the head, what the kernel header declares, and the working set. -/
structure Fetcher where
  hub : Bool
  core : Nat
  part : Nat
  asn : Nat
  head : Nat
  declared : Declared
  deriving DecidableEq, Repr

/-- Reading the words at some places of a run, in order. -/
def Fetcher.read (f : Fetcher) (s : State) : List Nat → Except CodeWord (List Word) × State
  | [] => (.ok [], s)
  | k :: ks =>
    match codeWord s f.hub f.core f.part f.asn (f.head + 8 * k) with
    | (.word w, s) =>
      (match f.read s ks with
        | (.ok ws, s) => (.ok (w :: ws), s)
        | (.error e, s) => (.error e, s))
    | (e, s) => (.error e, s)

/-- MAJOR, and whether a word is a run head (R83). -/
def majorOf (w : Word) : Nat := w.field 58 6
def isHead (w : Word) : Bool := majorOf w == 1

def Illegal.detail (i : Illegal) : Nat := i.sub + i.field * 256

/-- Whether an instruction is closing (R32), and its buffered destinations outside a working set, by field (R27). -/
def closingInstr (i : Instr) : Bool := match i.std? with
  | some (_, _, f, _) => f.closing
  | none => false

def outside (ws : Word) (i : Instr) : Option Nat :=
  let off (p : Pos) (o : Opnd) : Bool := match p, o with
    | .vd, .reg (.v n) => !ws.getLsbD n.val
    | _, _ => false
  match i with
  | .xpr x => if off .vd x.o.d then some 0 else none
  | i => match i.std? with
    | some (_, _, f, o) => if off f.d o.d then some 0 else if off f.c o.c then some 3 else none
    | none => none

def isEret (i : Instr) : Bool := match i with
  | .eret _ => true
  | _ => false

/-- The words that the targets of a trailer name, which must be run heads (R100). -/
def targetsOf (i : Instr) : List (BitVec 32) := match i with
  | .endb t => [t.tgt]
  | .endc t => [t.tgt, t.rcv]
  | .endcall t => [t.tgt]
  | _ => []

/-- Whether control passes on to the word after a trailer (R100). -/
def fallsThrough (i : Instr) : Bool := match i with
  | .endFall _ | .endb _ | .endc _ | .endcall _ => true
  | .endexit t => t.pred.val != 0
  | _ => false

def pubOf (i : Instr) : BitVec 16 := match i.trail? with
  | some (_, t) => t.pub
  | none => 0

/-- The checks of a trailer at place `k` of a run: its word (R87), its targets (subcause 15), its mask (subcause 16), and the
word after it (R89). A target beyond the 56 bits of an address wraps (DESIGN CHOICE, log entry 154). -/
def Fetcher.trailer (f : Fetcher) (ws : Word) (pre : List Word) (w ext : Word) (s : State) : FetchEnd × State :=
  let k := pre.length
  match decodeIn f.declared w ext with
  | .error e => (.trap 0x01 (Illegal.detail e) k w ext, s)
  | .ok i =>
    let n := wordsOf w
    let heads := (targetsOf i).map fun t => (BitVec.ofInt 56 (f.head + 8 * k + 8 * t.toInt)).toNat
    let base : Fetcher := { f with head := 0 }
    match base.read s (heads.map fun x => x / 8) with
    | (.error e, s) => (.stopped e, s)
    | (.ok xs, s) =>
      if xs.any fun x => !isHead x then (.trap 0x01 15 k w ext, s)
      else if decide (2 ^ (setOrder ws).length ≤ (pubOf i).toNat) then (.trap 0x01 16 k w ext, s)
      else
        let all := pre ++ (if n == 2 then [w, ext] else [w])
        if !fallsThrough i then (.done all, s)
        else
          match f.read s [k + n] with
          | (.error e, s) => (.stopped e, s)
          | (.ok xs, s) => if xs.all isHead then (.done all, s) else (.trap 0x0A 4 (k + n) (xs.getD 0 0) 0, s)

/-- The extension word at place `k + 1` where the word at `k` has one. -/
def Fetcher.withExt (f : Fetcher) (s : State) (k : Nat) (w : Word) : Except CodeWord Word × State :=
  if wordsOf w == 1 then (.ok 0, s)
  else
    match f.read s [k + 1] with
    | (.ok xs, s) => (.ok (xs.getD 0 0), s)
    | (.error e, s) => (.error e, s)

/-- The body and the trailer: `count` instructions have been checked. A run that is too short or too long is found before what is wrong with the
word there (DESIGN CHOICE, log entry 155). -/
def Fetcher.body (f : Fetcher) (ws : Word) : Nat → Nat → List Word → State → FetchEnd × State
  | 0, _, _, s => (.stopped .wait, s)
  | fuel + 1, count, pre, s =>
    let k := pre.length
    match f.read s [k] with
    | (.error e, s) => (.stopped e, s)
    | (.ok xs, s) =>
      let w := xs.getD 0 0
      match f.withExt s k w with
      | (.error e, s) => (.stopped e, s)
      | (.ok ext, s) =>
        if majorOf w == 2 then
          if count == 0 then (.trap 0x0A 1 k w ext, s) else f.trailer ws pre w ext s
        else if count == 24 then (.trap 0x0A 2 k w ext, s)
        else if isHead w then (.trap 0x0A 3 k w ext, s)
        else
          match decodeIn f.declared w ext with
          | .error e => (.trap 0x01 (Illegal.detail e) k w ext, s)
          | .ok i =>
            let n := wordsOf w
            let rest (s : State) : FetchEnd × State :=
              match outside ws i with
              | some _ => (.trap 0x01 17 k w ext, s)
              | none => f.body ws fuel (count + 1) (pre ++ (if n == 2 then [w, ext] else [w])) s
            if isEret i || closingInstr i then
              match f.read s [k + n] with
              | (.error e, s) => (.stopped e, s)
              | (.ok xs, s) =>
                let x := xs.getD 0 0
                if isEret i && !(majorOf x == 2 && x.field 48 9 == 0) then (.trap 0x01 12 k w ext, s)
                else if closingInstr i && majorOf x != 2 then (.trap 0x01 14 k w ext, s)
                else rest s
            else rest s

/-- Fetching a whole run (R88). -/
def Fetcher.run (f : Fetcher) (s : State) : FetchEnd × State :=
  match f.read s [0] with
  | (.error e, s) => (.stopped e, s)
  | (.ok xs, s) =>
    let w := xs.getD 0 0
    if !isHead w then (.trap 0x01 15 0 w 0, s)
    else
      match f.withExt s 0 w with
      | (.error e, s) => (.stopped e, s)
      | (.ok ext, s) =>
        match decodeIn f.declared w ext with
        | .error e => (.trap 0x01 (Illegal.detail e) 0 w ext, s)
        | .ok _ => f.body (headSet w) 26 0 (if wordsOf w == 2 then [w, ext] else [w]) s

/-- Whether a slot stands at a head where it does not wait (R98, conditions 1 and 2), the stores of a trap entry having entered
(R295). -/
def Group.stands (g : Group) (slotB : Bool) : Bool :=
  let x := g.slot slotB
  x.st.live && x.waits.isEmpty && g.run.isNone && !g.retired && !g.parked && g.unborn.isNone && !g.preempt && !g.dbg.stopped && g.saving.isEmpty && g.entering.isNone &&
    !((g.slot (!slotB)).st.live && x.st.pc == g.rcv)

/-- The trap of a fetch: at the head reached through ENDJ or ENDRET it names that trailer (R90). -/
def fetchCause (x : Slot) (slotB : Bool) (code detail : Nat) (w : Word) : Cause :=
  match x.via with
  | some o => { code := code, detail := detail, pc := o.pc.toNat, inst := o.inst, inst2 := o.inst2,
                addr := BitVec.ofNat 64 x.st.pc.toNat, slotB := slotB }
  | none => { code := code, detail := detail, pc := x.st.pc.toNat, inst := w, inst2 := 0,
              addr := BitVec.ofNat 64 x.st.pc.toNat, slotB := slotB }

/-- Parking on a code page that is not resident (R90, R320): the group resumes at the head being fetched. -/
def parkFetch (s : State) (u : Seat) (vpage size : Nat) : State :=
  let s := countCore s u.core u.part 0x0C
  let s := waitOnPages (requestPages s u .ex [(vpage, size)]) u [(vpage, size)]
  s.modGroup u.gid fun g => { g with parked := decide (0 < g.missing) }

/-- Whether groups of a partition execute: not while it is being cleared, or has stopped (R337, R435). -/
def Partition.issues (p : Partition) : Bool := !p.clearing && !p.stopped

/-- Whether a group may act between its runs: handed over, in a partition that issues, and neither asked to be discarded nor stopped
(R335, R336, R419). -/
def groupActs (s : State) (gid : Nat) : Bool :=
  match seatOf s gid with
  | none => false
  | some (g, st, _) => st.handed && !g.retired && !g.preempt && !g.dbg.stopped && ((s.part? st.part).map (·.issues)).getD false

/-- RUN_FETCH (R88): the run at which a slot stands is fetched and checked before its working set is acquired. -/
def execRunFetch (gid : Nat) (slotB : Bool) (s : State) : Outcome State Fault Refusal :=
  if !groupActs s gid then .next s
  else
  let s := wake s gid
  match seatOf s gid with
  | none => .next s
  | some (g, st, la) =>
    let x := g.slot slotB
    if !g.stands slotB || x.run.isSome then .next s
    else
      let u : Seat := { gid := gid, core := gid / 64, part := st.part, asn := la.asn, units := st.units }
      let f : Fetcher := { hub := false, core := u.core, part := u.part, asn := u.asn, head := x.st.pc.toNat,
                           declared := { vregs := la.vregs, mregs := la.mregs, place := la.place } }
      if x.st.pc.toNat % 8 != 0 then .next (takeTrap s gid (fetchCause x slotB 0x01 15 0) none)
      else
        match f.run s with
        | (.done ws, s) =>
          .next (s.modGroup gid fun g => g.setSlot slotB { g.slot slotB with run := some { head := x.st.pc, words := ws } })
        | (.stopped (.absent v z), s) => .next (parkFetch s u v z)
        | (.stopped (.access d), s) => .next (takeTrap s gid (fetchCause x slotB 0x06 d 0) none)
        | (.stopped _, s) => .next s
        | (.trap code detail k w ext, s) =>
          if code == 0x01 && detail == 15 && k == 0 then .next (takeTrap s gid (fetchCause x slotB code detail w) none)
          else
            .next (takeTrap s gid { code := code, detail := detail, pc := x.st.pc.toNat + 8 * k, inst := w,
                                    inst2 := if w.getLsbD 57 then ext else 0, addr := 0, slotB := slotB } none)

end Sys2Proof.Machine
end

