-- ==== Sys2Proof/Machine/Ordering.lean ====
section
/-! DEFINITION. The steps of the ordering machine at the core and at the homes (R261 to R266, R272, R293 to R295): stores
enter, drain, propagate and apply; load lines take their values; copies are refreshed, filled and dropped. -/

namespace Sys2Proof.Machine

open Host (Outcome)

/-! ### Stores -/

/-- A group's context outside its issue turn, its run in issue being given. -/
def ctxOf (s : State) (gid : Nat) : Option Ctx :=
  match seatOf s gid with
  | none => none
  | some (g, st, la) => g.run.map fun r => { gid := gid, g := g, r := r, st := st, la := la }

/-- STORE_ENTER (R261, R295): entries of a trap entry, or of a store instruction that stands in place, enter as the queue drains. -/
def execStoreEnter (gid : Nat) (s : State) : Outcome State Fault Refusal :=
  let s := resumeEntry (enterSaving s gid) gid
  match ctxOf s gid with
  | none => .next s
  | some c => if c.r.stage == 1 then .next (resumeStores c s (Sys2Proof.wordsOf (c.r.words.getD c.r.pos 0))) else .next s

/-- An entry that drains into the CVP merges with one of the same line that has not been sent (R295); `n` is its number in drain order. -/
def mergeCvp (cvp : List CvpEntry) (x : Store) (gid n : Nat) : List CvpEntry :=
  if cvp.any fun e => e.store.line == x.line && !e.sent then
    cvp.map fun e => if e.store.line == x.line && !e.sent then
      { e with
        store := { e.store with data := mergeLine e.store.data x.data x.mask, mask := e.store.mask ||| x.mask, policy := x.policy }
        groups := if e.groups.contains gid then e.groups else e.groups ++ [gid]
        firsts := if e.groups.contains gid then e.firsts else e.firsts ++ [(n, x.va)] }
      else e
  else cvp ++ [{ store := x, groups := [gid], firsts := [(n, x.va)], sent := false }]

/-- What a drain does to the core's L1 copy of its line (R262, R293): updated under .ca and .ev, dropped under .cg and .byp. -/
def drainCopy (c : Core) (x : Store) : Core :=
  match x.line with
  | .pad _ _ => c
  | .mem pa =>
    match Sparse.find? c.l1 pa with
    | none => c
    | some (.valid d t e n) =>
      { c with l1 := if usesL1 x.policy then Sparse.insert c.l1 pa (.valid (mergeLine d x.data x.mask) t e n) else Sparse.erase c.l1 pa }
    | some (.fill _ e r) => if usesL1 x.policy then c else { c with l1 := Sparse.insert c.l1 pa (.fill true e r) }

/-- The oldest entry of a group place's FIFO: those that a group of earlier residence has left come first. -/
def oldestStore (s : State) (gid : Nat) : Option (Store × State) :=
  let c := s.core (gid / 64)
  match Sparse.getD c.orphans gid [], Sparse.find? s.groups gid with
  | x :: rest, _ => some (x, s.setCore (gid / 64) { c with orphans := Sparse.set c.orphans gid rest [] })
  | [], some g => (match g.fifo with
    | x :: rest => some (x, s.putGroup gid { g with fifo := rest })
    | [] => none)
  | [], none => none

/-- STORE_DRAIN (R262): the oldest entry of a group's FIFO moves into its core's CVP, which holds 128 entries (R289). -/
def execStoreDrain (gid : Nat) (s : State) : Outcome State Fault Refusal :=
  match oldestStore s gid with
  | none => .next s
  | some (x, t) =>
    let (n, t) := t.fresh
    let c := t.core (gid / 64)
    let cvp := mergeCvp c.cvp x gid n
    if 128 < cvp.length then .next s else .next (t.setCore (gid / 64) { drainCopy c x with cvp := cvp })

/-- Stores that are not accepted, or that no port can reach, are lost to their groups (R434). -/
def loseStore (s : State) (e : CvpEntry) : State :=
  (e.groups.zip e.firsts).foldl (fun s x => s.modGroup x.1 fun g => { g with lost := g.lost ++ [x.2] }) s

/-- The partition of a store, as the error log names it. -/
def storePart (s : State) (core gid : Nat) : Option Nat := if gid == hubTag then none else partOfCore s core

/-- STORE_PROPAGATE (R263): the oldest entry of a line leaves for its home; one that no port reaches any more is logged and lost (R434). -/
def execStorePropagate (core line : Nat) (s : State) : Outcome State Fault Refusal :=
  let c := s.core core
  match c.cvp.find? fun e => e.store.line.key == line with
  | none => .next s
  | some e =>
    if e.sent then .next s
    else
      let gone := { c with cvp := c.cvp.erase e }
      let sent := { c with cvp := c.cvp.map fun x => if x == e then { e with sent := true } else x }
      match e.store.line with
      | .pad _ _ => .next (applyStore (s.setCore core gone) none e.store)
      | .mem pa =>
        if isRemote e.store.line then
          match portOf s pa with
          | some p => if (ownerOf s e.store.line).isSome then .next s else .next (send (s.setCore core sent) core p (.store core (e.groups.getD 0 0) e.store))
          | none => .next (loseStore (logError (s.setCore core gone) pa 6 1 (partOfCore s core) 0) e)
        else
          let k := sliceOf pa
          .next (tell { s.setCore core sent with
            homeq := Sparse.set s.homeq k (Sparse.getD s.homeq k [] ++ [{ core := some core, store := e.store, reply := none }]) [] }
            (dieOf core) (homeDie pa))

/-- Answering a linked device (R274, R434): a flit on the port that reaches it. -/
def answerDevice (s : State) (dest id detail : Nat) (d : LineBits) : State :=
  match routePort s dest with
  | some p => enqueue s p (.flit { seq := 0, ack := 0, src := s.host.nodeid.toNat, dest := dest, hlc := 0, msg := .answer id detail d })
  | none => s

/-- Writing an entry of a home queue at its home (R264): its CVP entry leaves; a store of a linked device is acknowledged. -/
def applyEntry (s : State) (home : Nat) (x : HomeEntry) : State :=
  match x.core with
  | none =>
    let s := applyStore s none x.store
    match x.reply with
    | some (dest, id) => answerDevice (tell s (home / 32) hubDie) dest id 0 0
    | none => s
  | some core =>
    let c := s.core core
    let mine (e : CvpEntry) : Bool := e.sent && e.store.line == x.store.line
    let groups := ((c.cvp.find? mine).map (·.groups)).getD []
    let writer := match groups with
      | [g] => some g
      | _ => none
    applyStore (s.setCore core { c with cvp := c.cvp.eraseP mine }) writer x.store

/-- A slice's recall queue (R302). -/
def State.recall (s : State) (slice : Nat) : List Parked := Sparse.getD s.recalls slice []
def State.setRecall (s : State) (slice : Nat) (ps : List Parked) : State := { s with recalls := Sparse.set s.recalls slice ps [] }

/-- Parking a load or a store at a slice, at most 64; the line of a load that is parked already stays where it is. -/
def park (s : State) (slice line : Nat) (p : Parked) : Option State :=
  let q := s.recall slice
  if q.contains p then some s
  else if 64 ≤ q.length then none
  else some (countSlice (s.setRecall slice (q ++ [p])) line 3)

/-- A parked load. -/
def Parked.isLoad : Parked → Bool
  | .load _ _ _ => true
  | .store _ => false

/-- The store of a recall queue that may be written next: the line is not owned, every load parked for it has been answered, and no
store parked for it before has still to be written (R302). -/
def nextParked (s : State) (slice : Nat) : Option HomeEntry :=
  (s.recall slice).findSome? fun p => match p with
    | .load _ _ _ => none
    | .store x =>
      match x.store.line with
      | .mem pa => if (ownerOf s x.store.line).isNone && !((parkedFor s pa).any Parked.isLoad) && (parkedFor s pa).head? == some p then some x else none
      | .pad _ _ => none

/-- STORE_APPLY (R264, R302): a store parked behind an agent that has released its line is written; else the head of the home queue is,
or is parked where an agent owns its line. A full recall queue holds it. -/
def execStoreApply (home : Nat) (s : State) : Outcome State Fault Refusal :=
  match nextParked s home with
  | some x => done (applyEntry (s.setRecall home ((s.recall home).erase (.store x))) home x)
  | none =>
    match Sparse.getD s.homeq home [] with
    | [] => .next s
    | x :: rest =>
      let left := { s with homeq := Sparse.set s.homeq home rest [] }
      if heldBack s x.store.line then .next ((park left home x.store.line.key (.store x)).getD s)
      else done (applyEntry left home x)

/-! ### Loads -/

/-- The line of an access that is to be performed next: its lowest one with items, and after those the lowest virtual line of the elements
whose pages are looked up again. -/
def Access.line (a : Access) : Option Loc := a.todo.head?.map (·.loc.base)
def Access.againAt (a : Access) : Nat := (a.unread.foldl (fun m u => min m (u.2 / 128)) (2 ^ 56)) * 128
def Access.here (a : Access) (l : Loc) : List Item := a.todo.filter fun i => i.loc.base == l

/-- The nibbles that items take of their line, and the value of one in the line. -/
def Item.mask (i : Item) : BitVec 256 := match i.nib with
  | none => byteMask i.loc.place i.size
  | some hi => (1 : BitVec 256) <<< (2 * i.loc.place + (if hi then 1 else 0))
def itemsMask (is : List Item) : BitVec 256 := is.foldl (fun m i => m ||| i.mask) 0
def Item.value (i : Item) (d : LineBits) : Nat := match i.nib with
  | none => lineBytes d i.loc.place i.size
  | some hi => bits (lineBytes d i.loc.place 1) (if hi then 4 else 0) 4

/-- Uses whose lines are performed as loads. -/
def Use.loads : Use → Bool
  | .ld _ _ _ | .mld _ _ | .table _ | .block => true
  | _ => false

/-- The items of a line given their values, with the requests made. -/
def Access.take (a : Access) (l : Loc) (d : LineBits) (reqs : List Nat) : Access :=
  { a with todo := a.todo.filter fun i => i.loc.base != l
           vals := a.vals ++ (a.here l).map fun i => (i.idx, i.value d)
           reqs := a.reqs ++ reqs }

/-- The items of a line that cannot be given values: the access raises an access fault when its data arrive. -/
def Access.spoil (a : Access) (l : Loc) (detail : Nat) : Access :=
  (a.here l).foldl (fun a i => a.fail i.idx detail) { a with todo := a.todo.filter fun i => i.loc.base != l }

def putAccess (s : State) (gid : Nat) (a : Access) : State :=
  s.modGroup gid fun g => { g with accs := g.accs.map fun x => if x.id == a.id then a else x }

/-- Whether an entry of the group for a port is still to be delivered (R274). -/
def portPending (s : State) (gid port : Nat) : Bool :=
  let goes (l : Loc) : Bool := match l with
    | .mem pa => portOf s pa == some port
    | .pad _ _ => false
  ((Sparse.find? s.groups gid).map fun g => g.fifo.any fun x => goes x.line).getD false ||
    ((s.core (gid / 64)).cvp.any fun e => e.groups.contains gid && !e.sent && goes e.store.line) ||
    (s.queueOf port).any fun r => match r with
      | .store c g _ => c == gid / 64 && g == gid
      | .atom a => a.gid == some gid
      | .read _ _ | .contribution _ _ | .flit _ => false

/-- Whether a read of a remote line for an access is on its way. -/
def asked (s : State) (a : Access) (pa : Nat) : Bool :=
  let hit (r : Remote) : Bool := match r with
    | .read id p => a.reqs.contains id && p == pa
    | _ => false
  s.outstanding.any (fun o => hit o.what) || s.delivery.any fun q => q.2.any hit

/-- The elements of a LD whose page was not resident when it issued, on one virtual line: the page is looked up again as the line is
read (R183). They stay absent, or are read now, or fail; none while a walk waits. -/
def lookAgain (s : State) (gid : Nat) (a : Access) (va : Nat) : Option Access × State :=
  let (w, s) := match seatOf s gid with
    | some (_, st, la) => translate s (gid / 64) st.part la.asn va
    | none => (.absent 0 { rd := true, wr := true, atomic := true, ex := true }, s)
  let here := a.unread.filter fun x => x.2 / 128 * 128 == va
  let width := match a.use with
    | .ld _ _ w => w
    | _ => 64
  let b := { a with unread := a.unread.filter fun x => x.2 / 128 * 128 != va }
  match checkPage va .rd w with
  | .held => (none, s)
  | .absent _ _ => (some b, s)
  | .access d => (some (here.foldl (fun b x => Access.fail b x.1 d) b), s)
  | .ok l =>
    (some { b with
      absent := b.absent.filter fun e => !(here.any fun x => x.1 == e)
      todo := here.map fun x => { idx := x.1, loc := l.plus (x.2 % 128), size := elemBytes width, nib := nibbleOf width x.1 } }, s)

/-- Asking the host or a linked device for a line of an access, which no engine of this device owns (R270); the core's L1 fills under .ca
and .ev. -/
def askLine (s : State) (gid : Nat) (a : Access) (l : Loc) (pa : Nat) : State :=
  match portOf s pa with
  | none => putAccess s gid (a.spoil l 1)
  | some p =>
    if asked s a pa || portPending s gid p || (ownerOf s l).isSome then s
    else
      let (id, s) := s.fresh
      let core := gid / 64
      let c := s.core core
      let s := if usesL1 a.policy && (Sparse.find? c.l1 pa).isNone then
          s.setCore core { c with l1 := Sparse.insert c.l1 pa (.fill false (a.policy == 2) (some id)) }
        else s
      putAccess (send s core p (.read id pa)) gid { a with reqs := a.reqs ++ [id] }

/-- The line of an access read at its home, which no agent owns: a stale tile holds the read (R306), and a transaction's read set takes the
line. -/
def readLine (s : State) (gid : Nat) (a : Access) (l : Loc) (pa : Nat) (need : BitVec 256) : State :=
  let me : Reader := .load gid a.id
  if !heldServed s me pa && staleLine s pa then holdRead s me pa
  else
    match readSetAdd s gid pa with
    | none => abortTxn s gid 0x04
    | some s =>
      let s := endHeld s me pa
      if homePoisoned s l then putAccess s gid (a.spoil l 6)
      else
        let (d, reqs, s) := loadLine s gid a.policy l need
        putAccess s gid (a.take l d reqs)

/-- A line of an access at its home (R265, R270): a load of a line that an agent owns is parked, and once the agent has released the line
reads what it has written, before any store parked for the line is applied (R302). -/
def homeLoad (s : State) (gid : Nat) (a : Access) (l : Loc) (pa : Nat) (need : BitVec 256) : State :=
  let me : Parked := .load gid a.id pa
  let slice := sliceOf pa
  if (ownerOf s l).isSome then (park s slice pa me).getD s
  else readLine (if (s.recall slice).contains me then s.setRecall slice ((s.recall slice).erase me) else s) gid a l pa need

/-- LOAD_LINE (R265, R260): the lowest line of a group's first unperformed access takes its value. A line at the host or at a
linked device is asked for there, and takes its value when the answer comes. -/
def execLoadLine (gid acc line : Nat) (s : State) : Outcome State Fault Refusal :=
  match Sparse.find? s.groups gid with
  | none => .next s
  | some g =>
    match g.accs.find? Access.pending with
    | none => .next s
    | some a =>
      if a.id != acc || !a.use.loads then .next s
      else
        match a.line with
        | none =>
          if a.againAt != line then .next s
          else
            match lookAgain s gid a line with
            | (none, s) => .next s
            | (some b, s) =>
              if g.txn.isSome && (b.line.any isRemote) then .next (abortTxn s gid 0x0B) else .next (putAccess s gid b)
        | some l =>
          if l.key != line then .next s
          else
            let need := itemsMask (a.here l)
            if !readsHome s gid a.policy l need then
              let (d, reqs, s) := loadLine s gid a.policy l need
              .next (putAccess s gid (a.take l d reqs))
            else
              match l with
              | .pad _ _ => .next s
              | .mem pa => if isRemote l then .next (askLine s gid a l pa) else .next (homeLoad s gid a l pa need)

/-! ### Copies -/

/-- A copy of a line at the host or at a linked device is to be replaced: its home is asked, whose answer is the home's current value. -/
def askRefresh (s : State) (core line : Nat) : State :=
  let c := s.core core
  match (if c.refreshes.any fun r => r.2 == line then none else portOf s line) with
  | none => s
  | some p =>
    let (id, s) := s.fresh
    let c := s.core core
    send (s.setCore core { c with refreshes := c.refreshes ++ [(id, line)] }) core p (.read id line)

/-- L1_REFRESH (R266): a copy takes its home's current value, with what its core has drained (R294), or is dropped. -/
def execL1Refresh (core line : Nat) (drop : Bool) (s : State) : Outcome State Fault Refusal :=
  let c := s.core core
  match Sparse.find? c.l1 line with
  | some (.valid _ _ _ _) => .next (if drop then s.setCore core { c with l1 := Sparse.erase c.l1 line }
      else if isRemote (.mem line) then askRefresh s core line else refreshCopy s core line)
  | some (.fill _ e r) => .next (if drop then s.setCore core { c with l1 := Sparse.insert c.l1 line (.fill true e r) } else s)
  | none => .next s

/-- L1_FILL (R293, R294): the data of a fill arrive and install the home's bytes with the core's CVP entries, once the home may be read; a
fill that has been dropped, or finds its line poisoned, leaves no copy. One from the host or a linked device comes with the answer. -/
def execL1Fill (core line : Nat) (s : State) : Outcome State Fault Refusal :=
  let c := s.core core
  match Sparse.find? c.l1 line with
  | some (.fill dropped e r) =>
    if isRemote (.mem line) || !served s r.toList || homeBusy s (.mem line) then .next s
    else if dropped || s.poisoned.contains line then .next (s.setCore core { c with l1 := Sparse.erase c.l1 line })
    else .next (l1Install s core line (homeLine s line) e)
  | _ => .next s

/-- L1_AGE_DROP (R294): a copy 1,048,576 cycles old is dropped. -/
def execL1AgeDrop (core line : Nat) (s : State) : Outcome State Fault Refusal :=
  let c := s.core core
  match Sparse.find? c.l1 line with
  | some (.valid _ t _ _) =>
    if t + 1048576 ≤ s.tick.toNat then .next (s.setCore core { c with l1 := Sparse.erase c.l1 line }) else .next s
  | _ => .next s

/-- RECORD_CACHE_FILL (R272): an absent copy is filled from the home. -/
def execRecordCacheFill (core addr : Nat) (s : State) : Outcome State Fault Refusal :=
  if decide (core < 512) && addr % 64 == 0 && regionOf addr == .hbm then .next (readRecord s core (.mem addr)).2 else .next s

/-- RECORD_CACHE_DROP (R272). -/
def execRecordCacheDrop (core addr : Nat) (s : State) : Outcome State Fault Refusal :=
  let c := s.core core
  .next (s.setCore core { c with records := c.records.filter fun e => e.1 != addr })

end Sys2Proof.Machine
end

