-- ==== Sys2Proof/Machine/Pages.lean ====
section
/-! DEFINITION. Page requests, arrival notices and walks (R313 to R320, R394). -/

namespace Sys2Proof.Machine

open Host (Outcome)

/-! ### The cores of a partition -/

/-- Whether a partition holds a cluster, or a core (R393): bit g of CGMASK is clusters 4g to 4g + 3. -/
def Partition.holds (p : Partition) (cluster : Nat) : Bool := p.cgmask.getLsbD (cluster / 4)
def Partition.clusters (p : Partition) : List Nat := (List.range 128).filter p.holds
def Partition.cores (p : Partition) : List Nat := (List.range 512).filter fun c => p.holds (c / 4)

/-- The partition that a cluster serves: one whose context has been saved has left it (R338). -/
def partOfCluster (s : State) (cluster : Nat) : Option Nat :=
  (List.find? (fun e => e.2.holds cluster && e.2.context.isNone) s.parts).map (·.1)

/-! ### Requests and arrivals -/

/-- Writing the records of requests that wait in the merge table while the ring has room (R394). -/
def flushRequests (s : State) (part : Nat) : State :=
  s.merge.foldl (fun s q =>
    if q.part != part || q.written then s
    else
      match ringRequest s q with
      | none => s
      | some s => { s with merge := s.merge.map fun x => if q.same x then { x with written := true } else x }) s

/-- PAGE_REQUEST_RETRY (R317): a request that found the merge table full is made again. -/
def execPageRequestRetry (req : Nat) (s : State) : Outcome State Fault Refusal :=
  match s.retries[req]? with
  | none => .next s
  | some q =>
    if s.merge.any q.same || decide (s.merge.length < 4096) then
      .next (requestPage { s with retries := s.retries.eraseIdx req } q)
    else .next s

/-- PAGE_WALK (R313 to R315): a walk for a core of a partition, whose result enters the TLBs. -/
def execPageWalk (core asn vpage : Nat) (s : State) : Outcome State Fault Refusal :=
  match partOfCluster s (core / 4) with
  | none => .next s
  | some p => .next (translate s core p (asn % 4096) (vpage % 2 ^ 40 * 65536)).2

/-- One core's part of an arrival notice (R319): the page's entry is freed, and every group in its map counts one page less. -/
def arriveAt (s : State) (core part asn vpage : Nat) : State :=
  let c := s.core core
  let hit (e : WaitEntry) : Bool := e.part == part && e.asn == asn && e.vpage == vpage
  let places := (c.waiting.filter hit).flatMap (·.groups)
  let s := s.setCore core { c with waiting := c.waiting.filter fun e => !hit e }
  places.foldl (fun s gid => s.modGroup gid fun g =>
    { g with missing := g.missing - 1, parked := g.parked && decide (1 < g.missing) }) s

/-- ARRIVAL (R318): the page leaves the merge table, and every core of the partition learns of it. -/
def execArrival (part : Nat) (notice : BitVec 128) (s : State) : Outcome State Fault Refusal :=
  match s.part? part with
  | none => .next s
  | some p =>
    let vpage := bits notice.toNat 88 40
    let asn := bits notice.toNat 76 12
    let same (q : PageRequest) : Bool := q.part == part && q.asn == asn && q.vpage == vpage
    let s := { s with merge := s.merge.filter fun q => !same q, retries := s.retries.filter fun q => !same q }
    .next (p.cores.foldl (fun s c => arriveAt s c part asn vpage) s)

end Sys2Proof.Machine
end

