-- ==== Sys2Proof/Machine/Command.lean ====
section
/-! DEFINITION. What the commands of majors 0x13 and 0x14 share: issue (R204 to R206, R236, R237), the graph walker's launch
of nodes (R248), the steps of an engine agent (R269) and the end of a command (R208, R237). -/

namespace Sys2Proof.Machine

open Host (Outcome)

/-! ### Command blocks -/

/-- Bits of a block: word `i`, bits from `lo`, `n` of them. -/
def blk (ws : List Word) (i lo n : Nat) : Nat := bits (ws.getD i 0).toNat lo n

def CmdKind.isField : CmdKind → Bool
  | .xplacePut | .xplaceBind | .xevictKeep | .xevictScrub | .xaccZero | .xaccLoad | .xaccFree | .xmma | .xmmac | .xdrain
  | .xdrainReg | .pour => true
  | .cpy | .gath | .scat | .coll | .nmx => false

/-- FUNC of a command, as the status registers report it (R83, R218, R251). -/
def CmdKind.func : CmdKind → Nat
  | .xplacePut | .xplaceBind => 0
  | .xevictKeep | .xevictScrub => 1
  | .xaccZero | .xaccLoad | .xaccFree => 2
  | .xmma => 3
  | .xmmac => 4
  | .xdrain | .xdrainReg => 5
  | .pour => 7
  | .cpy => 0
  | .gath => 1
  | .scat => 2
  | .coll => 3
  | .nmx => 4

/-- The queue of a cluster that a command takes an entry of, and its entries (R206, R237). -/
def CmdKind.queue : CmdKind → Nat × Nat
  | .cpy | .gath | .scat => (1, 64)
  | .coll => (2, 16)
  | .nmx => (3, 32)
  | _ => (0, 32)

def queueRoom (s : State) (cluster : Nat) (k : CmdKind) : Bool :=
  decide ((s.cmds.filter fun e => e.2.cluster == cluster && e.2.kind.queue.1 == k.queue.1).length < k.queue.2)

/-- A command as it commits. -/
def newCmd (kind : CmdKind) (stand gid : Option Nat) (part asn core : Nat) (block : List Word) (now : Nat) : Cmd :=
  { kind := kind, stand := stand, gid := gid, part := part, asn := asn, core := core, cluster := clusterOf core, mod := 0, fmt := .b64,
    addr := 0, dreg := 0, acc := 0, fetch := none, block := block, since := now, prepared := false, recs := [], map := [], toOwn := [], toRead := [],
    lines := [], out := [], asked := [], passes := 0, total := 0, started := false, computed := false, code := 0, faultAddr := 0,
    satd := false, nanin := false, killed := false, hold := none, cplt := none, stat := none, result := 0, pour := .start, contributions := [], places := [], reserve := 0,
    loaded := [], atWrite := none, wrote := [], toAdd := [], cut := false, sought := false }

def State.cmd? (s : State) (id : Nat) : Option Cmd := Sparse.find? s.cmds id
def State.putCmd (s : State) (id : Nat) (c : Cmd) : State := { s with cmds := Sparse.insert s.cmds id c }

/-- The cluster whose table a command enters: its core's, or the one to which the tile that it names has moved (R334). -/
def enterCluster (st : Stand) (kind : CmdKind) (ws : List Word) (own : Nat) : Nat :=
  match kind with
  | .xaccFree | .xmma | .xmmac | .xdrain | .xdrainReg => match Sparse.find? st.tiles (blk ws 1 60 4) with
    | some t => if t.span == 1 then t.home else own
    | none => own
  | _ => own

/-- What reading a command block finds (R206, step 2). -/
inductive BlockRead
  | words (ws : List Word)
  | wait
  | failed (detail : Nat)
  deriving DecidableEq, Repr

/-- The words of a block that has been read at the host or at a linked device. -/
def Access.words (a : Access) : List Word := (List.range 8).map fun i => BitVec.ofNat 64 ((a.value i).getD 0)

/-- Reading a block as a load of the group reads it. At the host or at a linked device the read is an access of the group,
for which the instruction stands in place. -/
def Ctx.readBlock (c : Ctx) (s : State) (l : Loc) (ea : Nat) : BlockRead × State :=
  if isRemote l then
    let mine (a : Access) : Bool := a.use == .block && a.origin == c.origin
    match c.g.accs.find? mine with
    | some a =>
      if a.pending then (.wait, s)
      else
        let s := s.modGroup c.gid fun g => { g with accs := g.accs.filter fun b => b.id != a.id }
        (match a.poison with | some _ => .failed a.detail | none => .words a.words, s)
    | none =>
      let (id, s) := s.fresh
      let items : List Item := (List.range 8).map fun i => { idx := i, loc := l.plus (8 * i), size := 8, nib := none }
      let a := newAccess c id .block items [] 1 ((List.range 8).map fun i => (i, BitVec.ofNat 64 (ea + 8 * i)))
      (.wait, s.modGroup c.gid fun g => { g with accs := g.accs ++ [a], run := some { c.r with stage := 2 } })
  else if !rangeFree s c.gid l 64 then (.wait, s)
  else if readsHome s c.gid 0 l.base (byteMask l.place 64) && homePoisoned s l then (.failed 6, s)
  else
    let (x, s) := readRange s c.gid l 64
    (.words ((List.range 8).map fun i => BitVec.ofNat 64 (bits x (64 * i) 64)), s)

/-- The block address of a command, checked (R206, step 1), and the block read (step 2). -/
def blockOp (o : Ops) (c : Ctx) (s : State) (f : State → List Word → Nat → State) : State :=
  let e := c.address o
  let (v, s) := check s c.seat (c.base o.a) .rd 64 (fun _ => false) [e]
  match v with
  | .held => s
  | .misaligned ea => c.trap s 0x07 0 (BitVec.ofNat 64 ea)
  | .access d ea => c.trap s 0x06 d (BitVec.ofNat 64 ea)
  | .go [] absent => residencyFault s c.seat .rd (pagesOf absent)
  | .go ((_, ea, l) :: _) _ =>
    match c.readBlock s l ea with
    | (.wait, s) => s
    | (.failed d, s) => c.trap s 0x06 d (BitVec.ofNat 64 ea)
    | (.words ws, s) => f s ws ea

/-- Whether every load but a block's read has been performed. -/
def loadsBefore (g : Group) : Bool := g.accs.all fun a => !a.pending || a.use == .block

/-- A command of major 0x13 or 0x14 (R206, R237): with no elected lane it does nothing, a completion word that is not aligned
or, but for NMX, is zero traps, a full table stalls it in place, and then it commits. D of a register drain becomes empty (R217), and NMX
raises NMXOUT (R246). -/
def commandOp (o : Ops) (kind : CmdKind) (s : State) : Outcome State Fault Refusal :=
  electing o s (fun c => c.commit s c.g (opWords o)) <| performFrom (addressSources o) s fun c =>
    if !loadsBefore c.g then s
    else if c.g.txn.isSome then abortTxn s c.gid 0x05
    else blockOp o c s fun s' ws ea =>
      let cplt := blk ws 0 0 56
      if cplt % 8 != 0 || (cplt == 0 && kind != .nmx) then c.trap s' 0x07 0 (BitVec.ofNat 64 cplt)
      else if !queueRoom s' (enterCluster c.st kind ws (clusterOf c.core)) kind then s
      else
        let (id, s) := (countCore s' c.core c.st.part 0x0E).fresh
        let g := (Sparse.find? s.groups c.gid).getD c.g
        let k := { newCmd kind (some c.g.stand) (some c.gid) c.st.part c.la.asn c.core ws s.tick.toNat with
          mod := o.mod.toNat, fmt := o.fmt, addr := ea, cluster := enterCluster c.st kind ws (clusterOf c.core) }
        if kind == .xdrainReg then
          let d := Opnd.num o.d
          let (acc, s) := s.fresh
          let g := g.emptyV d
          { c with r := c.r.withdraw d }.commit (s.putCmd id { k with dreg := d, acc := acc })
            { g with accs := g.accs ++ [newAccess c acc (.drain d) [] [] 1 []] } (opWords o)
        else
          let s := if kind == .nmx then
              let x := s.core c.core
              s.setCore c.core { x with nmxout := x.nmxout + 1 }
            else s
          c.commit (s.putCmd id k) g (opWords o)

/-! ### Status -/

/-- A code enters a status register (R218, R251): the first nonzero code with its FUNC, and the first address of a code 0x0B. -/
def CmdStatus.note (x : CmdStatus) (code func addr : Nat) : CmdStatus :=
  let first := x.code == 0 && code != 0
  { x with
    code := if first then BitVec.ofNat 8 code else x.code
    func := if first then BitVec.ofNat 4 func else x.func
    addr := if code == 0x0B && x.addr.isNone then some (BitVec.ofNat 64 addr) else x.addr }

/-- What the end of a command records: its code and its flags. -/
def CmdStatus.record (x : CmdStatus) (k : Cmd) : CmdStatus :=
  { x.note k.code k.kind.func k.faultAddr with nanin := x.nanin || k.nanin, satd := x.satd || k.satd }

/-- Commands of a stand that have committed and not ended. -/
def pendOf (s : State) (stand : Nat) (field : Bool) : Nat :=
  (s.cmds.filter fun e => e.2.stand == some stand && e.2.kind.isField == field).length

/-- The value of a status register (R218, R251); `free` are the free accumulator units, 0 for ENGSTAT. -/
def CmdStatus.word (x : CmdStatus) (pend free : Nat) : Nat :=
  x.code.toNat + x.func.toNat * 2 ^ 8 + (if x.nanin then 2 ^ 16 else 0) + (if x.satd then 2 ^ 17 else 0) + free % 2 ^ 16 * 2 ^ 32 +
    pend % 2 ^ 16 * 2 ^ 48

/-! ### The graph walker -/

/-- Writing STATE of a node record (R247). -/
def setNodeState (s : State) (n : Node) (x : Nat) : State :=
  writeHome s none (.mem (n.pa + 0x18)) 8 x

/-- Whether a stand has ended (R248). -/
def standEnded (s : State) (stand : Nat) : Bool := match s.stand? stand with
  | none => true
  | some st => st.ended || st.killed

/-- What the path of a cluster gives for an address: a physical one; nothing, where the page is invalid, not resident or without what is
needed; or a wait for the line of an entry. -/
inductive Reach
  | found (pa : Nat)
  | lost
  | held
  deriving DecidableEq, Repr

/-- Translation on the path of a cluster (R316). -/
def clusterAddr (s : State) (cl part asn va : Nat) (need : Need) : Reach × State :=
  if 2 ^ 56 ≤ va then (.lost, s)
  else
    let (w, s) := translateCluster s cl part asn va
    (match checkPage va need w with
      | .ok (.mem pa) => .found pa
      | .held => .held
      | _ => .lost, s)

/-- The same for a command. -/
def Cmd.reach (k : Cmd) (s : State) (va : Nat) (need : Need) : Reach × State := clusterAddr s k.cluster k.part k.asn va need

def Cmd.cpltAddr (k : Cmd) : Nat := blk k.block 0 0 56

/-- The completion word of a command found, or left out where its page cannot be written (R208); none while a walk waits. -/
def Cmd.findCplt (k : Cmd) (s : State) : Option Cmd × State :=
  let k := { k with sought := true }
  if k.cpltAddr == 0 || k.cpltAddr % 8 != 0 then (some k, s)
  else
    match k.reach s k.cpltAddr .wr with
    | (.found pa, s) => (some { k with cplt := some (.mem pa) }, s)
    | (.lost, s) => (some k, s)
    | (.held, s) => (none, s)

def lowestCluster (p : Partition) : Nat := ((List.range 128).find? fun c => p.cgmask.getLsbD (c / 4)).getD 0

/-- The place from which a node's payload runs: the core of the stand that armed it, else the lowest core of its partition. -/
def nodeCore (s : State) (n : Node) : Nat := match n.stand.bind s.stand? with
  | some st => st.core
  | none => ((s.part? n.part).map fun p => 4 * lowestCluster p).getD 0

/-- The kind of command that EFUNC of a node or of a COPY packet names. -/
def kindOfFunc : Nat → CmdKind
  | 0 => .cpy
  | 1 => .gath
  | 2 => .scat
  | 3 => .coll
  | _ => .nmx

/-- Launching a node (R248): STATE becomes 2 and the node is disarmed; a dispatch payload goes to its slot, if that is mapped to
a queue of the node's partition (R407), a command runs for the stand that armed it, unless that stand has ended. While the
partition is in clearing the launch is held (R337). The command enters its queue though that be full (DESIGN CHOICE, log entry 159). -/
def launchNode (s : State) (n : Node) : State :=
  if ((s.part? n.part).map (·.clearing)).getD false then
    { s with nodes := s.nodes.map fun m => if m.pa == n.pa then { m with held := true } else m }
  else
    let s := { s with nodes := s.nodes.filter fun m => m.pa != n.pa }
    let w := BitVec.ofNat 64 (hubRead s (n.pa + 8) 8)
    let x := hubRead s (n.pa + 0x10) 8
    let kind := bits w.toNat 60 4
    let payload := bits w.toNat 0 56
    let core := nodeCore s n
    let failed := setNodeState s n 3
    if kind == 0 then
      let q := bits x 0 6
      match Sparse.find? s.slots q with
      | none => failed
      | some slot =>
        if slot.part != n.part then failed
        else
          match clusterAddr s (clusterOf core) n.part n.asn payload .rd with
          | (.lost, s) => setNodeState s n 3
          | (.found _, s) | (.held, s) =>
            setNodeState { s with slots := Sparse.modify s.slots q fun x => { x with injected := x.injected ++ [(n.asn, payload)] } } n 2
    else if (n.stand.map (standEnded s)).getD false then failed
    else
      let s := setNodeState s n 2
      let (id, s) := s.fresh
      let k := newCmd (kindOfFunc (bits x 8 3)) n.stand none n.part n.asn core [] s.tick.toNat
      let s := if k.kind == .nmx then
          let c := s.core core
          s.setCore core { c with nmxout := c.nmxout + 1 }
        else s
      s.putCmd id { k with fetch := some payload }

/-- A counting operation has left a word at 0: the node armed on it, if there is one, is launched (R248). -/
def nodeZero (s : State) (l : Loc) : State :=
  match l with
  | .mem pa => match s.nodes.find? fun n => n.pa == pa && !n.held with
    | some n => launchNode s n
    | none => s
  | .pad _ _ => s

/-! ### Agents -/

/-- Whether another agent owns a line, or a slice has parked accesses to it that come first (R269, R302). -/
def agentOwned (s : State) (id pa : Nat) : Bool := match Sparse.find? s.owners pa with
  | some o => o != id
  | none => !(parkedFor s pa).isEmpty

/-- Whether a command must wait with a read of a line: another agent comes first, or the line lies in a stale tile, which holds the read
(R270, R271, R306). -/
def agentBlocked (s : State) (id pa : Nat) : Bool :=
  agentOwned s id pa || (!heldServed s (.command id) pa && staleLine s pa)

/-- The wait: a stale tile holds the read. -/
def agentWait (s : State) (id pa : Nat) : State := if agentOwned s id pa then s else holdRead s (.command id) pa

/-- A line as a command reads it at its home. -/
def agentRead (s : State) (id cluster pa : Nat) : LineBits × State :=
  let (d, _, s) := homeRead (endHeld (exchange s (cluster / 32) (homeDie pa)) (.command id) pa) pa 1
  (d, s)

/-- What a failure does to the tile that a command names: a plate fault or a poisoned input poisons the tile of an XMMA or
XMMAC (R208, R221), and a load that fails leaves no tile. -/
def spoilTile (s : State) (k : Cmd) (code : Nat) : State :=
  let h := blk k.block 1 60 4
  match k.stand with
  | none => s
  | some n =>
    if (k.kind == .xmma || k.kind == .xmmac) && (code == 0x0C || code == 0x0E) then
      s.modStand n fun st => { st with tiles := Sparse.modify st.tiles h fun t => { t with poison := true } }
    else if k.kind == .xaccLoad && k.prepared then s.modStand n fun st => { st with tiles := Sparse.erase st.tiles h }
    else s

/-- A pour that fails (R225): WORDIX names the G.READ whose image could not be written, if that is what failed, and no word for a page
that cannot be reached. -/
def Pour.failed (p : Pour) (block : List Word) (code addr : Nat) : Pour :=
  let rbuf := blk block 3 0 56
  let n := (max addr rbuf - rbuf) / 64
  { p with left := 0, faultAt := if code == 0x0B || p.faultAt == 0xFFFF then 0xFFFF else ((p.reads[n]?).map (·.1)).getD p.faultAt }

/-- A command that fails before its end: nothing more is written, its lines are released (R208), but for a pour's RESULT (R234). -/
def failCmd (s : State) (id : Nat) (k : Cmd) (code addr : Nat) : State :=
  let s := spoilTile s k code
  let result (pa : Nat) : Bool := k.kind == .pour && k.places.any fun p => p.1 == pa
  let s := { s with owners := s.owners.filter fun e => e.2 != id || result e.1 }
  s.putCmd id { k with code := code, faultAddr := addr, computed := true, prepared := true, toOwn := [], toRead := [], out := [], toAdd := [], asked := [],
                       pour := k.pour.failed k.block code addr }

/-- The owned lines of a slice. -/
def ownedIn (s : State) (slice : Nat) : Nat := (s.owners.filter fun e => regionOf e.1 == .hbm && sliceOf e.1 == slice).length

/-- The own step (R269, R302): every destination line at once; it waits while another agent owns one, while a slice has parked accesses
behind the agent before, or while a slice's table of 4,096 entries would be exceeded. Transactions that hold a line abort (R192). A line of
the host or of a linked device is owned against the agents and cores of this device; it is in no slice's table. -/
def ownLines (s : State) (id : Nat) (k : Cmd) : State :=
  let new := k.toOwn.filter fun pa => (Sparse.find? s.owners pa).isNone
  if k.toOwn.any (agentOwned s id) then s
  else if (List.range 128).any fun h =>
      decide (4096 < ownedIn s h + (new.filter fun pa => regionOf pa == .hbm && sliceOf pa == h).length) then s
  else
    let s := new.foldl (fun s pa => flagTxns { exchange s (k.cluster / 32) (if regionOf pa == .hbm then homeDie pa else hubDie) with
      owners := Sparse.insert s.owners pa id } none pa 8 8) s
    s.putCmd id { k with toOwn := [] }

/-- A line of input, by virtual address, as read. -/
def Cmd.took (k : Cmd) (va : Nat) (d : LineBits) : Cmd :=
  { k with lines := Sparse.insert k.lines va d, toRead := k.toRead.filter (· != va), asked := k.asked.filter fun e => e.2 != va }

/-- The byte that a command has read at a virtual address. -/
def Cmd.byte (k : Cmd) (va : Nat) : Nat := lineBytes (Sparse.getD k.lines (va / 128 * 128) 0) (va % 128) 1

/-- ENGINE_READ (R269): one line is read at its home, once its destination lines are owned. -/
def execEngineRead (cmd line : Nat) (s : State) : Outcome State Fault Refusal :=
  match s.cmd? cmd with
  | none => .next s
  | some k =>
    if !k.toOwn.isEmpty || !k.toRead.contains line then .next s
    else
      match k.map.find? fun e => e.1 == line with
      | none => .next s
      | some (_, pa) =>
        if agentOwned s cmd pa then .next s
        else if isRemote (.mem pa) then
          if k.asked.any fun e => e.2 == line then .next s
          else
            match portOf s pa with
            | none => .next (failCmd s cmd k 0x22 line)
            | some p =>
              let (id, s) := s.fresh
              .next (send (s.putCmd cmd { k with asked := k.asked ++ [(id, line)] }) (4 * k.cluster) p (.read id pa))
        else if agentBlocked s cmd pa then .next (agentWait s cmd pa)
        else if s.poisoned.contains pa then .next (failCmd s cmd k 0x0E line)
        else
          let (d, s) := agentRead s cmd k.cluster pa
          .next (s.putCmd cmd (k.took line d))

/-- The store tag of a command's writes to a remote home: no group has this number. -/
def cmdTag (id : Nat) : Nat := 2 ^ 20 + id

/-! ### The end of a command -/

/-- The decrement of a completion word at its home (R189, R268), which may launch a node; a poisoned word stays as it is. -/
def decrementAt (s : State) (l : Loc) : State :=
  if homePoisoned s l then s
  else
    let x := (readHome s l 8 + 2 ^ 64 - 1) % 2 ^ 64
    let s := writeHome s none l 8 x
    if x == 0 then nodeZero s l else s

/-- The result of a drain reaches its register (R217): full with tag G, and zero where the command has failed. -/
def Group.drained (g : Group) (k : Cmd) : Group :=
  match g.accs.find? fun a => a.id == k.acc with
  | none => g
  | some a =>
    let g := { g with accs := g.accs.filter fun b => b.id != a.id }
    if a.cancelled || g.retired then g
    else g.setV k.dreg { val := if k.code == 0 then k.result else 0, tag := .g, full := if stillPending g a then (g.vreg k.dreg).full else true }

/-- The ENGINE record at the end of a command of a group that SEL covers (R423). -/
def traceEngine (s : State) (k : Cmd) : State :=
  match k.gid with
  | none => s
  | some gid =>
    if !traceOn s k.part (gid / 64) (gid % 64) 2 then s
    else
      let sched := ((Sparse.find? s.groups gid).map (·.sched)).getD 0
      trace s k.part { kind := 0x0A, core := gid / 64, slot := gid % 64, sched := sched, pcs := false,
                       aux := k.code % 256 + k.kind.func * 2 ^ 8 + (if k.kind.isField then 0x13 else 0x14) * 2 ^ 16, reason := 0,
                       word := blk k.block 0 0 56, extra := [] }

/-- What the end of a command records: its ENGINE record, its code in the stand's status, its result in a register, and for a COPY
packet the end code in STAT (R407). -/
def recordEnd (s : State) (k : Cmd) : State :=
  let s := traceEngine s k
  let s := match k.stand with
    | some n => s.modStand n fun st =>
        if k.kind.isField then { st with field := st.field.record k } else { st with engine := st.engine.record k }
    | none => match k.stat with
      | some e => hubWrite s e.2 8 k.code
      | none => s
  match k.gid with
  | some gid => if k.kind == .xdrainReg then s.modGroup gid fun g => g.drained k else s
  | none => s

/-- Whether a command's writes are all applied. -/
def writesApplied (s : State) (id : Nat) (k : Cmd) : Bool := k.out.isEmpty && k.toAdd.isEmpty && !remotePending s k.core (cmdTag id)

/-- A command that failed before it came to the page of its completion word looks for it at its end: where that page cannot be written, its
code is 0x0B and no word falls (R208, R237). -/
def Cmd.withCplt (k : Cmd) (s : State) : Option Cmd × State :=
  if k.sought || k.cplt.isSome then (some k, s)
  else
    match k.findCplt s with
    | (none, s) => (none, s)
    | (some k, s) => (some (if k.cplt.isNone && k.cpltAddr != 0 then { k with code := 0x0B, faultAddr := k.cpltAddr } else k), s)

/-- The last of a command whose completion word has been looked for: its code is recorded, the word decreased by 1. Of an NMX whose word lies
at the host or at a linked device NMXOUT falls with the word (R246). -/
def complete (s : State) (id : Nat) (k : Cmd) : State :=
  match k.cplt with
  | none => removeCmd (recordEnd s k) id
  | some (.pad _ _) => removeCmd (recordEnd s k) id
  | some (.mem pa) =>
    if agentOwned s id (pa / 128 * 128) then s
    else if isRemote (.mem pa) then
      match portOf s pa with
      | none => removeCmd (recordEnd s { k with code := if k.code == 0 then 0x22 else k.code }) id
      | some p =>
        let (a, s) := s.fresh
        let atom : Atom := { id := a, core := k.core, gid := none, acc := 0, elem := 0, loc := .mem pa, width := 64, op := .add,
                             operand := 2 ^ 64 - 1, compare := 0, part := k.part, asn := k.asn, node := 1, last := k.kind == .nmx }
        takeCmd (recordEnd (send s (4 * k.cluster) p (.atom atom)) k) id
    else if staleLine s (pa / 128 * 128) then holdRead s .other (pa / 128 * 128)
    else decrementAt (tell (removeCmd (recordEnd s k) id) (k.cluster / 32) (homeDie pa)) (.mem pa)

/-- The end of a command (R208, R237), once its writes are applied. A killed command ends with neither code nor completion (R340). -/
def endCommand (s : State) (id : Nat) (k : Cmd) : State :=
  if !k.computed || !writesApplied s id k then s
  else if k.killed then removeCmd s id
  else
    match k.withCplt s with
    | (none, s) => s
    | (some k, s) => complete s id k

end Sys2Proof.Machine
end

