-- ==== Sys2Proof/Machine/Hash.lean ====
section
/-! DEFINITION. SHA-256, and LMS signatures with it (R1, R413, R439): the check of an image, and the signature of a report. The spec names the
algorithms and their parameters; what they compute is that of FIPS 180-4 and RFC 8554 (PRESUMED, log entry 146). -/

namespace Sys2Proof.Machine

/-! ### SHA-256 -/

/-- Bytes of a number, the most significant first, and the number of bytes. -/
def beBytes (n x : Nat) : List Byte := (List.range n).map fun i => BitVec.ofNat 8 (x / 2 ^ (8 * (n - 1 - i)))
def beNum (bs : List Byte) : Nat := bs.foldl (fun n b => 256 * n + b.toNat) 0

/-- The eight working words. -/
structure Sha where
  a : BitVec 32
  b : BitVec 32
  c : BitVec 32
  d : BitVec 32
  e : BitVec 32
  f : BitVec 32
  g : BitVec 32
  h : BitVec 32
  deriving DecidableEq, Repr

def Sha.start : Sha := ⟨0x6a09e667, 0xbb67ae85, 0x3c6ef372, 0xa54ff53a, 0x510e527f, 0x9b05688c, 0x1f83d9ab, 0x5be0cd19⟩

def Sha.bytes (x : Sha) : List Byte := [x.a, x.b, x.c, x.d, x.e, x.f, x.g, x.h].flatMap fun w => beBytes 4 w.toNat

/-- The 64 constants of the rounds. -/
def shaConstants : List (BitVec 32) :=
  [0x428a2f98, 0x71374491, 0xb5c0fbcf, 0xe9b5dba5, 0x3956c25b, 0x59f111f1, 0x923f82a4, 0xab1c5ed5] ++
  [0xd807aa98, 0x12835b01, 0x243185be, 0x550c7dc3, 0x72be5d74, 0x80deb1fe, 0x9bdc06a7, 0xc19bf174] ++
  [0xe49b69c1, 0xefbe4786, 0x0fc19dc6, 0x240ca1cc, 0x2de92c6f, 0x4a7484aa, 0x5cb0a9dc, 0x76f988da] ++
  [0x983e5152, 0xa831c66d, 0xb00327c8, 0xbf597fc7, 0xc6e00bf3, 0xd5a79147, 0x06ca6351, 0x14292967] ++
  [0x27b70a85, 0x2e1b2138, 0x4d2c6dfc, 0x53380d13, 0x650a7354, 0x766a0abb, 0x81c2c92e, 0x92722c85] ++
  [0xa2bfe8a1, 0xa81a664b, 0xc24b8b70, 0xc76c51a3, 0xd192e819, 0xd6990624, 0xf40e3585, 0x106aa070] ++
  [0x19a4c116, 0x1e376c08, 0x2748774c, 0x34b0bcb5, 0x391c0cb3, 0x4ed8aa4a, 0x5b9cca4f, 0x682e6ff3] ++
  [0x748f82ee, 0x78a5636f, 0x84c87814, 0x8cc70208, 0x90befffa, 0xa4506ceb, 0xbef9a3f7, 0xc67178f2]

/-- The next word of a message schedule, whose words stand latest first. -/
def shaNext (ws : List (BitVec 32)) : BitVec 32 :=
  let x := ws.getD 14 0
  let y := ws.getD 1 0
  ((y.rotateRight 17) ^^^ (y.rotateRight 19) ^^^ (y >>> 10)) + ws.getD 6 0 + ((x.rotateRight 7) ^^^ (x.rotateRight 18) ^^^ (x >>> 3)) + ws.getD 15 0

def shaExtend : Nat → List (BitVec 32) → List (BitVec 32)
  | 0, ws => ws
  | n + 1, ws => shaExtend n (shaNext ws :: ws)

/-- One round, with the sum of its constant and its word of the schedule. -/
def Sha.round (s : Sha) (kw : BitVec 32) : Sha :=
  let t := s.h + ((s.e.rotateRight 6) ^^^ (s.e.rotateRight 11) ^^^ (s.e.rotateRight 25)) + ((s.e &&& s.f) ^^^ (~~~s.e &&& s.g)) + kw
  let u := ((s.a.rotateRight 2) ^^^ (s.a.rotateRight 13) ^^^ (s.a.rotateRight 22)) + ((s.a &&& s.b) ^^^ (s.a &&& s.c) ^^^ (s.b &&& s.c))
  ⟨t + u, s.a, s.b, s.c, s.d + t, s.e, s.f, s.g⟩

/-- One block of 64 bytes. -/
def Sha.block (s : Sha) (bs : List Byte) : Sha :=
  let first := (List.range 16).map fun i => BitVec.ofNat 32 (beNum ((bs.drop (4 * i)).take 4))
  let r := (shaConstants.zip (shaExtend 48 first.reverse).reverse).foldl (fun s e => s.round (e.1 + e.2)) s
  ⟨s.a + r.a, s.b + r.b, s.c + r.c, s.d + r.d, s.e + r.e, s.f + r.f, s.g + r.g, s.h + r.h⟩

/-- A message with its padding: a one bit, zeros, and its length in bits. -/
def shaPadded (bs : List Byte) : List Byte :=
  bs ++ [0x80] ++ List.replicate ((119 - bs.length % 64) % 64) 0 ++ beBytes 8 (8 * bs.length)

/-- The digest of a message, 32 bytes. -/
def sha256 (bs : List Byte) : List Byte :=
  let p := shaPadded bs
  ((List.range (p.length / 64)).foldl (fun s i => s.block ((p.drop (64 * i)).take 64)) Sha.start).bytes

/-! ### One-time signatures -/

/-- Consecutive digests, `n` of them. -/
def digests (n : Nat) (bs : List Byte) : List (List Byte) := (List.range n).map fun i => (bs.drop (32 * i)).take 32

/-- A parameter set: the bits of a digit, the digits, and the shift of the checksum. -/
structure Ots where
  w : Nat
  p : Nat
  ls : Nat
  deriving DecidableEq, Repr

/-- The parameter sets with SHA-256 and 32 bytes, by typecode. -/
def Ots.of : Nat → Option Ots
  | 1 => some ⟨1, 265, 7⟩
  | 2 => some ⟨2, 133, 6⟩
  | 3 => some ⟨4, 67, 4⟩
  | 4 => some ⟨8, 34, 0⟩
  | _ => none

/-- A digit of a string of bytes. -/
def Ots.digit (o : Ots) (bs : List Byte) (i : Nat) : Nat :=
  (bs.getD (i * o.w / 8) 0).toNat / 2 ^ (8 - (o.w * (i % (8 / o.w)) + o.w)) % 2 ^ o.w

/-- The digits that are signed for a digest: its own and those of its checksum. -/
def Ots.digits (o : Ots) (d : List Byte) : List Nat :=
  let sum := (List.range (256 / o.w)).foldl (fun n i => n + (2 ^ o.w - 1 - o.digit d i)) 0
  (List.range o.p).map (o.digit (d ++ beBytes 2 (sum * 2 ^ o.ls)))

/-- So many steps of the chain of a digit, from step `j`. -/
def otsChain (id : List Byte) (q i : Nat) : Nat → Nat → List Byte → List Byte
  | 0, _, x => x
  | n + 1, j, x => otsChain id q i n (j + 1) (sha256 (id ++ beBytes 4 q ++ beBytes 2 i ++ beBytes 1 j ++ x))

/-- The digest of a message under leaf `q`, with the randomizer `c`. -/
def otsDigest (id : List Byte) (q : Nat) (c msg : List Byte) : List Byte := sha256 (id ++ beBytes 4 q ++ beBytes 2 0x8181 ++ c ++ msg)

/-- The public key of leaf `q` from the ends of its chains. -/
def otsPublic (id : List Byte) (q : Nat) (ends : List (List Byte)) : List Byte := sha256 (id ++ beBytes 4 q ++ beBytes 2 0x8080 ++ ends.flatten)

/-! ### The tree -/

def leafHash (id : List Byte) (r : Nat) (k : List Byte) : List Byte := sha256 (id ++ beBytes 4 r ++ beBytes 2 0x8282 ++ k)
def nodeHash (id : List Byte) (r : Nat) (left right : List Byte) : List Byte :=
  sha256 (id ++ beBytes 4 r ++ beBytes 2 0x8383 ++ left ++ right)

/-- The root that a leaf and its path give. -/
def climb (id : List Byte) : Nat → List (List Byte) → List Byte → List Byte
  | _, [], x => x
  | r, p :: ps, x => climb id (r / 2) ps (if r % 2 == 1 then nodeHash id (r / 2) p x else nodeHash id (r / 2) x p)

/-- The height of a tree by its typecode. -/
def treeHeight (t : Nat) : Option Nat := if 5 ≤ t ∧ t ≤ 9 then some (5 * (t - 4)) else none

/-- The root that a signature of a message gives under the parameter sets of height `h` and `o`; its leaf is `q`. -/
def signedRoot (h : Nat) (o : Ots) (id msg sig : List Byte) (q : Nat) : List Byte :=
  let c := (sig.drop 8).take 32
  let ds := o.digits (otsDigest id q c msg)
  let ends := ((digests o.p (sig.drop 40)).zip ds).zipIdx.map fun e => otsChain id q e.2 (2 ^ o.w - 1 - e.1.2) e.1.2 e.1.1
  climb id (2 ^ h + q) (digests h (sig.drop (44 + 32 * o.p))) (leafHash id (2 ^ h + q) (otsPublic id q ends))

/-- Whether a signature of a message verifies under a public key. -/
def lmsVerifies (key msg sig : List Byte) : Bool :=
  match treeHeight (beNum (key.take 4)), Ots.of (beNum ((key.drop 4).take 4)) with
  | some h, some o =>
    let q := beNum (sig.take 4)
    key.length == 56 && sig.length == 44 + 32 * o.p + 32 * h && decide (q < 2 ^ h) && (sig.drop 4).take 4 == (key.drop 4).take 4 &&
      (sig.drop (40 + 32 * o.p)).take 4 == key.take 4 &&
      signedRoot h o ((key.drop 8).take 16) msg sig q == key.drop 24
  | _, _ => false

/-- Whether an image is signed by the key with a hash (R413). -/
def imageSigned (keyHash image : List Byte) : Bool :=
  let key := Config.imageKey image
  sha256 key == keyHash && lmsVerifies key (Config.imageBody image) (Config.imageSignature image)

/-! ### The device identity key (R439) -/

/-- LMOTS_SHA256_N32_W8, and the height of LMS_SHA256_M32_H20. -/
def idOts : Ots := ⟨8, 34, 0⟩
def idHeight : Nat := 20

def lmsId : List Byte := beBytes 16 Config.lmsId.toNat

/-- The secret at the start of chain `i` of leaf `q`. -/
def lmsSecret (q i : Nat) : List Byte := beBytes 32 (Config.lmsSecret q i).toNat

/-- The public key of a leaf. -/
def leafKey (q : Nat) : List Byte := otsPublic lmsId q ((List.range 34).map fun i => otsChain lmsId q i 255 0 (lmsSecret q i))

/-- The node of the tree with number `r`, `k` levels above the leaves of a tree of height `h`. -/
def treeNode (h : Nat) : Nat → Nat → List Byte
  | 0, r => leafHash lmsId r (leafKey (r - 2 ^ h))
  | k + 1, r => nodeHash lmsId r (treeNode h k (2 * r)) (treeNode h k (2 * r + 1))

/-- The nodes beside the way from leaf `q` to the root. -/
def treePath (h q : Nat) : List (List Byte) := (List.range h).map fun k => treeNode h k ((2 ^ h + q) / 2 ^ k ^^^ 1)

/-- The signature of a message with leaf `q` and the randomizer `c` in a tree of height `h`, whose typecode is `t`. -/
def treeSignature (t h q : Nat) (c msg : List Byte) : List Byte :=
  let ys := (idOts.digits (otsDigest lmsId q c msg)).zipIdx.map fun e => otsChain lmsId q e.2 e.1 0 (lmsSecret q e.2)
  beBytes 4 q ++ beBytes 4 4 ++ c ++ ys.flatten ++ beBytes 4 t ++ (treePath h q).flatten

/-- The device's signature of a message with leaf `q`: 1,772 bytes. -/
def deviceSignature (q : Nat) (c msg : List Byte) : List Byte := treeSignature 8 idHeight q c msg

/-- The public key of a tree of height `h`, whose typecode is `t`: the device's is that of height 20 and typecode 8. -/
def treePublicKey (t h : Nat) : List Byte := beBytes 4 t ++ beBytes 4 4 ++ lmsId ++ treeNode h h 1

end Sys2Proof.Machine
end

