-- ==== Sys2Proof/Machine/Hbm.lean ====
section
/-! DEFINITION. HBM (R371 to R383): open rows and the order of requests, activation counters, alerts and back-off, refresh, the
phases of a pseudo-channel, and the patrol. -/

namespace Sys2Proof.Machine

open Host (Outcome)

/-- HBM_REQUEST (R373): the request in service at a place of a bank's queue is complete, and the bank takes up the next. -/
def execHbmRequest (bank index : Nat) (s : State) : Outcome State Fault Refusal :=
  let b := s.bank bank
  match b.queue[index]? with
  | none => .next s
  | some r =>
    if b.serving != some r.id then .next s
    else .next (takeUp (s.setBank bank { b with queue := b.queue.eraseIdx index, serving := none }) bank)

/-- BACKOFF_END (R379): the refresh-management commands are complete. -/
def execBackoffEnd (bank : Nat) (s : State) : Outcome State Fault Refusal :=
  .next (takeUp (s.setBank bank { s.bank bank with backoff := false }) bank)

/-- ROW_IDLE_CLOSE (R373): a row to which no request is waiting is closed. -/
def execRowIdleClose (bank : Nat) (s : State) : Outcome State Fault Refusal :=
  let b := s.bank bank
  if b.queue.any fun q => b.opened == some q.row then .next s else .next (s.setBank bank { b with opened := none })

/-- PERIODIC_REFRESH (R377): a refresh reaches a row, clears its counter and closes the bank's row. -/
def execPeriodicRefresh (bank row : Nat) (s : State) : Outcome State Fault Refusal :=
  let b := s.bank bank
  .next (s.setBank bank { b with opened := none, counters := Sparse.erase b.counters row })

/-- Precharging every bank of a pseudo-channel. -/
def precharge (s : State) (chan : Nat) : State :=
  { s with banks := (s.banks.map fun e => if e.1 / 64 == chan then (e.1, { e.2 with opened := none }) else e).filter fun e => e.2 != .idle }

/-- Whether a pseudo-channel has normal requests waiting. -/
def requestsWaiting (s : State) (chan : Nat) : Bool := s.banks.any fun e => e.1 / 64 == chan && !e.2.queue.isEmpty

/-- The banks of a pseudo-channel take up the requests that have waited. -/
def takeUpAll (s : State) (chan : Nat) : State := (List.range 64).foldl (fun s i => takeUp s (64 * chan + i)) s

/-- PHASE_SWITCH (R376): to the compute phase for the NMX at the head of the phase queue, once no normal request is left; back to
the normal phase when no NMX is there. Requests that arrive meanwhile wait at their banks, those beyond the queue of 128 at their home
slices, which changes no order. -/
def execPhaseSwitch (chan : Nat) (s : State) : Outcome State Fault Refusal :=
  let p := s.pchan chan
  if p.compute then
    if p.queue.isEmpty then .next (takeUpAll (precharge (s.setPchan chan { p with compute := false }) chan) chan) else .next s
  else if p.queue.isEmpty || requestsWaiting s chan then .next s
  else .next (precharge (s.setPchan chan { p with compute := true }) chan)

/-- Counting an HBM error for the partition that owns the line (R380, R382). -/
def countEcc (s : State) (line : Nat) (bad : Bool) : State :=
  match partOfPa s line with
  | some p => { s with parts := Sparse.modify s.parts p fun x =>
      if bad then { x with uncorr := (x.uncorr + 1) &&& 0xFFFFFFFF } else { x with corr := (x.corr + 1) &&& 0xFFFFFFFF } }
  | none => s

/-- HBM has lost a line (R382): it is poisoned, at once or, where a slice holds a copy, when that copy goes without being written over it. -/
def loseLine (s : State) (line : Nat) : State :=
  match Sparse.find? s.l2 line with
  | some _ => if s.hbmBad.contains line then s else { s with hbmBad := s.hbmBad ++ [line] }
  | none => if s.poisoned.contains line then s else { s with poisoned := s.poisoned ++ [line] }

/-- What the code over a line finds (R382): 0 nothing, 1 an error that is corrected, 2 and above one that is not. -/
def eccFinding (s : State) (line bad : Nat) : State :=
  if bad == 0 then s
  else
    let s := logError (countEcc s line (1 < bad)) line 2 (if bad == 1 then 0 else 1) (partOfPa s line) (pchanOf line)
    if bad == 1 then s else loseLine s line

/-- HBM_PATROL (R383): one line is read between normal requests; its read counts as an activation if it opens a row. -/
def execHbmPatrol (line : Nat) (bad : Nat) (s : State) : Outcome State Fault Refusal :=
  let bank := bankOf line
  if regionOf line != .hbm || line % 128 != 0 || (s.bank bank).backoff || (s.bank bank).serving.isSome ||
      (s.pchan (bank / 64)).compute then .next s
  else done (eccFinding (openRow s bank (rowOfPa line)) line bad)

end Sys2Proof.Machine
end

