-- ==== Sys2Proof/Machine/Plate.lean ====
section
/-! DEFINITION. The plates of a field (R346): cells, lines and check columns (R347), a gate step with its attempts (R231,
R348), the endurance governor (R354, R355), the plate directory (R357, R358) and how a plate leaves service (R438). -/

namespace Sys2Proof.Machine

open Host (Outcome)

/-! ### Cells and lines -/

/-- A plate, numbered through all fields. -/
def plateKey (cl plate : Nat) : Nat := cl * 2048 + plate

/-- A row of a plate: cells d0 to d511 at bits 0 to 511, check cells k0 to k7 above them (R346). -/
def State.cellRow (s : State) (p row : Nat) : BitVec 520 := Sparse.getD s.cells (p * 512 + row) 0
def State.setCellRow (s : State) (p row : Nat) (x : BitVec 520) : State := { s with cells := Sparse.set s.cells (p * 512 + row) x 0 }

def State.plate (s : State) (p : Nat) : Plate := Sparse.getD s.plates p .fresh
def State.setPlate (s : State) (p : Nat) (x : Plate) : State := { s with plates := Sparse.set s.plates p x .fresh }

/-- A line of a plate, bit k for position k along it: with AX = 0 a column, with AX = 1 a row (R226). -/
def State.plateLine (s : State) (p : Nat) (ax : Bool) (n : Nat) : BitVec 512 :=
  if ax then (s.cellRow p n).truncate 512
  else BitVec.ofNat 512 (packElems 1 (fun r => if (s.cellRow p r).getLsbD n then 1 else 0) 512)

/-- The bits at positions `lo` to `hi` of one image, the others of another. -/
def atPositions (old new : BitVec 512) (lo hi : Nat) : BitVec 512 :=
  let m : BitVec 512 := BitVec.ofNat 512 (2 ^ (hi + 1) - 2 ^ lo)
  (old &&& ~~~m) ||| (new &&& m)

/-- Writing a line at positions `lo` to `hi`. Check cells stay as they are. -/
def State.setPlateLine (s : State) (p : Nat) (ax : Bool) (n lo hi : Nat) (img : BitVec 512) : State :=
  if ax then
    let row := s.cellRow p n
    let cells : BitVec 512 := atPositions (row.truncate 512) img lo hi
    s.setCellRow p n (BitVec.ofNat 520 (cells.toNat + row.toNat / 2 ^ 512 * 2 ^ 512))
  else
    (List.range 512).foldl (fun s r =>
      if lo ≤ r && r ≤ hi then s.setCellRow p r (BitVec.ofNat 520 (setBits (s.cellRow p r).toNat n 1 (if img.getLsbD r then 1 else 0))) else s) s

/-! ### Check columns -/

/-- One step of a CRC of width `w`, most significant bit first. -/
def crcStep (w poly crc : Nat) (b : Bool) : Nat :=
  let top := crc.testBit (w - 1) != b
  let x := crc * 2 % 2 ^ w
  if top then x ^^^ poly else x

/-- The CRC-8 of cells d0 to d319 of a row (R347). -/
def rowCheck (row : BitVec 520) : Nat := (List.range 320).foldl (fun c i => crcStep 8 7 c (row.getLsbD i)) 0

def rowSound (row : BitVec 520) : Bool := row.toNat / 2 ^ 512 == rowCheck row

/-- A row as XPLACE.put leaves it: weights or exponents in d0 to d319, the pool columns as they were, the check cells new. -/
def placedRow (old : BitVec 520) (x : Nat) : BitVec 520 :=
  let cells := setBits (old.toNat % 2 ^ 512) 0 320 x
  BitVec.ofNat 520 (cells + rowCheck (BitVec.ofNat 520 cells) * 2 ^ 512)

/-- A row that a scrub has cleared: every cell of d0 to `n` − 1 and the check cells 0. -/
def scrubbedRow (old : BitVec 520) (n : Nat) : BitVec 520 := BitVec.ofNat 520 (setBits (old.toNat % 2 ^ 512) 0 n 0)

/-! ### The governor -/

def writeLimit : Nat := 5300000
def wornAt : Nat := 950000000000000

def Plate.worn (x : Plate) : Bool := decide (wornAt ≤ x.wear)

/-- Whether a plate takes writes (R355, R438). -/
def State.plateWritable (s : State) (p : Nat) : Bool := !(s.plate p).out && !(s.plate p).worn

def mostIn (m : Sparse Nat) : Nat := m.foldl (fun n e => max n e.2) 0

/-- Whether every plate of some takes writes. -/
def State.allWritable (s : State) (ps : List Nat) : Bool := ps.all s.plateWritable

/-- Whether the governor lets a write of a line enter (R354). -/
def Plate.allows (x : Plate) (ax : Bool) (n : Nat) : Bool :=
  let (own, other) := if ax then (x.rows, x.cols) else (x.cols, x.rows)
  decide (Sparse.getD own n 0 + 1 + mostIn other ≤ writeLimit)

/-- Counting one write of a line. -/
def Plate.count (x : Plate) (ax : Bool) (n : Nat) : Plate :=
  if ax then { x with rows := Sparse.insert x.rows n (Sparse.getD x.rows n 0 + 1) }
  else { x with cols := Sparse.insert x.cols n (Sparse.getD x.cols n 0 + 1) }

/-! ### A step -/

/-- How a step has ended: made, held by the governor with the plates still to write, or with a plate fault in some plates. -/
inductive StepEnd
  | made
  | held (tries : Nat) (left : List (Nat × BitVec 512))
  | faulty (plates : List Nat)
  deriving DecidableEq, Repr

/-- One attempt of a step in one plate. Whether the compare passes, and what a failed write leaves, are free. -/
def attemptIn (s : State) (ax : Bool) (n lo hi : Nat) (p : Nat) (img : BitVec 512) : Bool × State :=
  let s := s.setPlate p ((s.plate p).count ax n)
  let (f, s) := s.free
  if f % 2 == 0 then (true, s.setPlateLine p ax n lo hi img)
  else
    let (x, s) := s.free
    (false, s.setPlateLine p ax n lo hi (BitVec.ofNat 512 x))

/-- Whether a stand's lease holds a plate. -/
def Stand.leases (st : Stand) (cl plate : Nat) : Bool := match st.lease with
  | some l => decide (l.first ≤ cl) && decide (cl < l.first + l.span) && decide (l.base ≤ plate) && decide (plate < l.base + l.count)
  | none => false

/-- The stand whose lease holds a plate, be it one of a saved context: a lease ends only with its stand (R330, R339). -/
def leaseHolder (s : State) (cl plate : Nat) : Option Stand :=
  let saved : Sparse Stand := s.parts.flatMap fun e => (e.2.context.map (·.stands)).getD []
  (List.find? (fun (e : Nat × Stand) => e.2.leases cl plate) (s.stands ++ saved)).map (·.2)

/-- A step that a plate has made only when it was written again: the fault of the cells is logged (R437). -/
def logRetry (s : State) (p : Nat) : State :=
  logError s (p % 2048) 3 0 ((leaseHolder s (p / 2048) (p % 2048)).map (·.part)) (p / 2048)

/-- The attempts of a step (R231, R348): every plate whose compare failed is written again, up to twice. The governor is asked
before each attempt (R361). Answers the repeats made besides, and the plates written, one entry for each attempt. -/
def attempts (ax : Bool) (n lo hi : Nat) : Nat → Nat → List (Nat × BitVec 512) → State → StepEnd × Nat × List Nat × State
  | 0, _, left, s => (if left.isEmpty then .made else .faulty (left.map (·.1)), 0, [], s)
  | fuel + 1, tries, left, s =>
    if left.isEmpty then (.made, 0, [], s)
    else if left.any fun e => !(s.plate e.1).allows ax n then (.held tries left, 0, [], s)
    else
      let (bad, s) := left.foldl (fun (acc : List (Nat × BitVec 512) × State) e =>
        match attemptIn acc.2 ax n lo hi e.1 e.2 with
        | (true, s) => (acc.1, if tries == 0 then s else logRetry s e.1)
        | (false, s) => (acc.1 ++ [e], s)) ([], s)
      let (r, k, ps, s) := attempts ax n lo hi fuel (tries + 1) bad s
      (r, k + (if tries == 0 then 0 else 1), left.map (·.1) ++ ps, s)

/-- A step from its first attempt, or from those that a held step still has (`tries` made). -/
def gateStep (s : State) (ax : Bool) (n lo hi tries : Nat) (left : List (Nat × BitVec 512)) : StepEnd × Nat × List Nat × State :=
  attempts ax n lo hi (3 - tries) tries left s

/-! ### Leaving service -/

/-- A plate leaves service (R438); `src` is 3 for a cell fault, 4 for a stored one. -/
def plateLeaves (s : State) (p src : Nat) : State :=
  if (s.plate p).out then s
  else
    let s := s.setPlate p { s.plate p with out := true }
    logError s (p % 2048) src 1 ((leaseHolder s (p / 2048) (p % 2048)).map (·.part)) (p / 2048)

/-! ### The plate directory -/

/-- An entry of the plate directory (R357). -/
structure PlateEntry where
  state : Nat
  part : Nat
  span : Nat
  wkd : Bool
  wsgn : Bool
  sfmt : Nat
  pcnt : Nat
  first : Nat
  k : Nat
  n : Nat
  clbase : Nat
  seq : Nat
  deriving DecidableEq, Repr

/-- The CRC-32 of IEEE 802.3 over the low `n` bytes of a number, first byte lowest. -/
def crc32 (x n : Nat) : Nat :=
  let reflect (v : Nat) : Nat := packElems 1 (fun i => bits v (31 - i) 1) 32
  let c := (List.range (8 * n)).foldl (fun c i => crcStep 32 0x04C11DB7 c (x.testBit i)) 0xFFFFFFFF
  reflect (c ^^^ 0xFFFFFFFF)

/-- SPAN of an entry and SPANC of a block: 1, 2 or 4 fields. -/
def spanOf (code : Nat) : Nat := if code == 1 then 2 else if code == 2 then 4 else 1
def spanCode (span : Nat) : Nat := if span == 2 then 1 else if span == 4 then 2 else 0

def PlateEntry.parse (x : BitVec 512) : PlateEntry :=
  let f (lo n : Nat) : Nat := bits x.toNat lo n
  { state := f 62 2, part := f 59 3, span := spanOf (f 57 2), wkd := f 56 1 == 1, wsgn := f 55 1 == 1, sfmt := f 50 5, pcnt := f 11 8, first := f 0 11,
    k := f 64 16, n := f 80 16, clbase := f 96 7, seq := f 128 64 }

/-- The 64 bytes of an entry, with its ECRC. -/
def PlateEntry.words (e : PlateEntry) : BitVec 512 :=
  let w0 := e.first % 2 ^ 11 + e.pcnt % 2 ^ 8 * 2 ^ 11 + e.sfmt % 2 ^ 5 * 2 ^ 50 + e.wsgn.toNat * 2 ^ 55 + e.wkd.toNat * 2 ^ 56 +
    spanCode e.span * 2 ^ 57 + e.part % 8 * 2 ^ 59 + e.state % 4 * 2 ^ 62
  let w1 := e.k % 2 ^ 16 + e.n % 2 ^ 16 * 2 ^ 16 + e.clbase % 2 ^ 7 * 2 ^ 32
  let body := w0 + w1 * 2 ^ 64 + e.seq % 2 ^ 64 * 2 ^ 128
  BitVec.ofNat 512 (body + crc32 body 56 * 2 ^ 448)

def entrySound (x : BitVec 512) : Bool := bits x.toNat 448 32 == crc32 (bits x.toNat 0 448) 56

/-- The entries of a field that are not free, with their numbers. -/
def State.placed (s : State) (cl : Nat) : List (Nat × PlateEntry) :=
  ((s.directory.filter fun e => e.1 / 2048 == cl).map fun e => (e.1, PlateEntry.parse e.2)).filter fun e => e.2.state != 0

/-- Writing an entry at its number; one that is all zero is not listed. -/
def State.setEntry (s : State) (key : Nat) (x : BitVec 512) : State := { s with directory := Sparse.set s.directory key x 0 }

/-- Writing STATE of an entry; STATE 0 frees it. -/
def State.setEntryState (s : State) (key state : Nat) : State :=
  let e := PlateEntry.parse (Sparse.getD s.directory key 0)
  s.setEntry key { e with state := state }.words

/-- The lowest number of a field that holds no entry. -/
def freeEntry (s : State) (cl : Nat) : Nat :=
  cl * 2048 + ((List.range 2048).find? fun i => !(s.placed cl).any fun e => e.1 == cl * 2048 + i).getD 2047

def PlateEntry.meets (e : PlateEntry) (first count : Nat) : Bool := decide (e.first < first + count) && decide (first < e.first + e.pcnt)

/-- Entries whose plates overlap a range are removed (R358). -/
def removeEntries (s : State) (cl first count : Nat) : State :=
  (s.placed cl).foldl (fun s e => if e.2.meets first count then s.setEntryState e.1 0 else s) s

/-- A placement is damaged (R347): its entries in every field say so, and each of its plates leaves service. -/
def damage (s : State) (seq : Nat) : State :=
  (s.directory.map fun e => (e.1, PlateEntry.parse e.2)).foldl (fun s e =>
    if e.2.state == 1 && e.2.seq == seq then
      (List.range e.2.pcnt).foldl (fun s i => plateLeaves s (plateKey (e.1 / 2048) (e.2.first + i)) 4) (s.setEntryState e.1 3)
    else s) s

/-- Whether a placement is damaged. -/
def isDamaged (s : State) (seq : Nat) : Bool := s.directory.any fun e =>
  let x := PlateEntry.parse e.2
  x.state == 3 && x.seq == seq

/-- Whether every row of a placement's plates in one field is sound. -/
def rowsSound (s : State) (cl first count : Nat) : Bool :=
  (List.range count).all fun i => (List.range 512).all fun r => rowSound (s.cellRow (plateKey cl (first + i)) r)

/-! ### Window and patrol -/

/-- A new window (R354, R355): the counts begin anew, and each plate's wear word takes the window's largest line count. -/
def newWindow (s : State) : State :=
  let old := s.plates
  let s := { s with window := s.devTime.toNat / 1000000000, plates := (s.plates.map fun e =>
    (e.1, { e.2 with wear := (e.2.wear + max (mostIn e.2.rows) (mostIn e.2.cols)) % 2 ^ 64, rows := [], cols := [] })).filter fun e => e.2 != .fresh }
  old.foldl (fun s e =>
    if !e.2.worn && (s.plate e.1).worn then
      logError s (e.1 % 2048) 3 1 ((leaseHolder s (e.1 / 2048) (e.1 % 2048)).map (·.part)) (e.1 / 2048)
    else s) s

/-- ENDURANCE_WINDOW (R354): at a whole second of device time. -/
def execEnduranceWindow (s : State) : Outcome State Fault Refusal :=
  if s.devTime.toNat / 1000000000 == s.window then .next s else done (newWindow s)

/-- Whether a pass of a field is under way: a pour that still has steps of its pass. -/
def passUnderWay (s : State) (cl : Nat) : Bool := s.cmds.any fun e => e.2.cluster == cl && e.2.kind == .pour && e.2.pour.left != 0

/-- PLATE_PATROL (R347): one row number is read across every plate of a field, between passes; a placement one of whose rows
fails its check is damaged. -/
def execPlatePatrol (field row : Nat) (s : State) : Outcome State Fault Refusal :=
  if 128 ≤ field || 512 ≤ row || passUnderWay s field then .next s
  else done ((s.placed field).foldl (fun s e =>
    if e.2.state == 1 && (List.range e.2.pcnt).any fun i => !rowSound (s.cellRow (plateKey field (e.2.first + i)) row) then damage s e.2.seq
    else s) s)

end Sys2Proof.Machine
end

