-- ==== Sys2Proof/Machine/Field.lean ====
section
/-! DEFINITION. The field commands up to their first pass: the block (R205), handles and span (R207), the checks of R208, the
pages they touch, and which of them may be granted a pass (R220, R235, R333, R353). -/

namespace Sys2Proof.Machine

open Host (Outcome)

/-! ### The block -/

def Cmd.hacc (k : Cmd) : Nat := blk k.block 1 60 4
def Cmd.hplc (k : Cmd) : Nat := blk k.block 1 56 4
def Cmd.recAddr (k : Cmd) (i : Nat) : Nat := blk k.block (1 + i) 0 56
def Cmd.org (k : Cmd) (i : Nat) : Nat := blk k.block (5 + i / 2) (32 * (i % 2)) 32
def Cmd.rows (k : Cmd) : Nat := blk k.block 7 0 16
def Cmd.cols (k : Cmd) : Nat := blk k.block 7 16 16
def Cmd.len (k : Cmd) : Nat := blk k.block 7 32 16
def Cmd.wkd (k : Cmd) : Bool := blk k.block 0 60 1 == 1
def Cmd.asgn (k : Cmd) : Bool := blk k.block 0 57 1 == 1
def Cmd.wsgn (k : Cmd) : Bool := blk k.block 0 56 1 == 1
def Cmd.spanc (k : Cmd) : Nat := blk k.block 0 58 2
def Cmd.span (k : Cmd) : Nat := spanOf k.spanc

/-- A reserved bit of the block is set (R205). -/
def Cmd.reserved (k : Cmd) : Bool :=
  blk k.block 0 61 3 != 0 || ([2, 3, 4].any fun i => blk k.block i 56 8 != 0) || blk k.block 7 48 16 != 0

/-- MOD of XMMA, XMMAC and XDRAIN (R204). -/
def Cmd.sat (k : Cmd) : Bool := k.mod.testBit 0
def Cmd.multiplies (k : Cmd) : Bool := k.kind == .xmma || k.kind == .xmmac
def Cmd.resident (k : Cmd) : Bool := k.mod.testBit 1
def Cmd.streamed (k : Cmd) : Bool := k.multiplies && !k.resident
def Cmd.drains (k : Cmd) : Bool := k.kind == .xdrain || k.kind == .xdrainReg

/-- The REC fields that name a tensor record of a command, in order (R209, R211, R212, R216). -/
def Cmd.recFields (k : Cmd) : List Nat :=
  match k.kind with
  | .xplacePut | .xaccLoad => [0]
  | .xmma | .xmmac => if k.resident then [0] else [0, 1]
  | .xdrain => [0, 1, 2]
  | .xdrainReg => [1, 2]
  | _ => []

/-- Those that the command requires. -/
def Cmd.required (k : Cmd) : List Nat := if k.drains then k.recFields.filter (· == 0) else k.recFields

def Cmd.named (k : Cmd) : List Nat := k.recFields.filter fun i => k.recAddr i != 0

/-- A record that has been read. -/
def Cmd.rec? (k : Cmd) (i : Nat) : Option Rec := match k.recs.getD i [] with
  | [] => none
  | ws => some (Rec.parse ws)

/-! ### Handles, span and parts -/

/-- The accumulator and placement handles that a command names. -/
def Cmd.accHandle (k : Cmd) : Option Nat := match k.kind with
  | .xaccZero | .xaccLoad | .xaccFree | .xmma | .xmmac | .xdrain | .xdrainReg => some k.hacc
  | _ => none
def Cmd.plcHandle (k : Cmd) : Option Nat := match k.kind with
  | .xplacePut | .xplaceBind | .xevictKeep | .xevictScrub => some k.hplc
  | .xmma | .xmmac => if k.resident then some k.hplc else none
  | _ => none

def Stand.leased (st : Stand) : Lease := st.lease.getD { base := 0, count := 0, span := 1, first := 0 }
def Stand.tile? (st : Stand) (h : Nat) : Option Tile := Sparse.find? st.tiles h
def Stand.placement? (st : Stand) (h : Nat) : Option Placement := Sparse.find? st.placements h

/-- The first cluster of the aligned group on which a command runs (R207): a streamed command, which may have moved, runs where it is
entered (R334), every other one in the fields that hold its stand's plates. -/
def Cmd.group (k : Cmd) : Nat := (if k.streamed then k.cluster else clusterOf k.core) / k.span * k.span

/-- Its fields. -/
def Cmd.fields (k : Cmd) : List Nat := (List.range k.span).map (k.group + ·)

/-- The part of M and of N that one field has, and where field `j` begins (R207). -/
def partM (span m : Nat) : Nat := if span == 4 then m / 2 else m
def partN (span n : Nat) : Nat := if span == 1 then n else n / 2
def rowStart (span m j : Nat) : Nat := if span == 4 then j / 2 * (m / 2) else 0
def colStart (span n j : Nat) : Nat := if span == 1 then 0 else j % 2 * (n / 2)

def ceilDiv (a b : Nat) : Nat := (a + b - 1) / b

/-- What a storage format is in the field (R212). -/
inductive FClass
  | int | blk | lns
  deriving DecidableEq, Repr

def classOf (code : Nat) : Option FClass :=
  if code == 5 || code == 6 || code == 12 || code == 13 then some .int
  else if code == 10 || code == 11 || (16 ≤ code && code ≤ 22) then some .blk
  else if code == 24 then some .lns
  else none

/-- Formats whose record is itself in blocks: BFP and LNS8. -/
def blockCode (code : Nat) : Bool := (16 ≤ code && code ≤ 22) || code == 24

/-- The width *b* of a weight, and *a* of an activation (R209). -/
def fieldWidth (code : Nat) : Nat :=
  if code == 12 || code == 13 then 4 else if 16 ≤ code && code ≤ 22 then code - 14 else 8

/-- Plates along K, plates along N, and exponent plates of one field's part (R209). -/
def platesK (k : Nat) : Nat := ceilDiv k 512
def platesN (np code : Nat) : Nat := ceilDiv np (320 / fieldWidth code)
def platesE (k np code : Nat) : Nat := if classOf code == some .int then 0 else ceilDiv (ceilDiv k 16 * np) 20480
def plateCount (k np code : Nat) : Nat := platesK k * platesN np code + platesE k np code

def Placement.np (p : Placement) : Nat := partN p.span p.n
def Placement.weightPlates (p : Placement) : Nat := platesK p.k * platesN p.np p.fmt
def Placement.count (p : Placement) : Nat := plateCount p.k p.np p.fmt

/-- The units that a tile takes in each of its fields (R211). -/
def unitsOf (span m n : Nat) : Nat := partM span m * partN span n * 4 / 1024

/-- The units of a field's accumulator store that tiles hold, and the free ones (R211, R356). -/
def heldUnits (s : State) (cl : Nat) : List Nat :=
  s.stands.flatMap fun e => e.2.tiles.flatMap fun t => (t.2.units.filter fun u => u.1 == cl).map (·.2)
def freeUnits (s : State) (cl : Nat) : Nat := 384 - (heldUnits s cl).length

/-- The lowest free units of a field. The spec does not say which units a tile takes (DESIGN CHOICE). -/
def takeTileUnits (s : State) (cl n : Nat) : List (Nat × Nat) :=
  let held := heldUnits s cl
  (((List.range 384).filter fun u => !held.contains u).take n).map fun u => (cl, u)

/-! ### Which command may go -/

/-- The entry of a field that a bind names, damaged ones among them (R209, R357, R358). -/
def Cmd.boundEntry (k : Cmd) (s : State) (st : Stand) (cl : Nat) : Option PlateEntry :=
  ((s.placed cl).find? fun e => e.2.first == st.leased.base + k.org 0 && (e.2.state == 1 || e.2.state == 3) && e.2.part == st.part &&
    e.2.span == k.span && e.2.k == k.len && e.2.n == k.cols && e.2.wsgn == k.wsgn && e.2.clbase == k.group).map (·.2)

def codeOf (r : Option Rec) : Nat := match r with | some r => r.code | none => 31

/-- The plates of one field that a command of a stand names, as first and count (R220, R235). A put whose record has not been read yet may
take any plate from its first on. -/
def Cmd.plates (k : Cmd) (s : State) (st : Stand) : Option (Nat × Nat) :=
  let base := st.leased.base
  match k.kind with
  | .xplacePut => some (base + k.org 0, match k.rec? 0 with | some r => plateCount k.len (partN k.span k.cols) r.code | none => 2048)
  | .xplaceBind => some (base + k.org 0, match k.boundEntry s st k.group with | some e => e.pcnt | none => 1)
  | .pour => some (base + blk k.block 5 0 16, blk k.block 5 16 16)
  | _ => (k.plcHandle.bind st.placement?).map fun p => (base + p.plate, p.count)

/-- Whether two ranges, as first and count, meet. -/
def rangesMeet (a b : Option (Nat × Nat)) : Bool := match a, b with
  | some x, some y => decide (x.1 < y.1 + y.2) && decide (y.1 < x.1 + x.2)
  | _, _ => false

def sameHandle (a b : Option Nat) : Bool := a.isSome && a == b

/-- Whether an earlier command of the stand holds a command back (R220, R235). -/
def Cmd.after (k : Cmd) (s : State) (st : Stand) (e : Cmd) : Bool :=
  sameHandle k.accHandle e.accHandle || sameHandle k.plcHandle e.plcHandle || rangesMeet (k.plates s st) (e.plates s st)

/-- Whether a streamed command of another stand or of this one works in the reserve of some field of a command (R353). -/
def reserveBusy (s : State) (id : Nat) (k : Cmd) : Bool :=
  s.cmds.any fun e => e.1 != id && e.2.streamed && e.2.started && rangesMeet (some (e.2.group, e.2.span)) (some (k.group, k.span))

/-- An entry is eligible (R333, R353, R354): earlier commands on its handles or plates have ended, no other streamed command
uses the reserve of its fields, and the governor does not hold it in this window. -/
def eligible (s : State) (id : Nat) (k : Cmd) : Bool :=
  match k.stand.bind s.stand? with
  | none => false
  | some st =>
    k.hold != some s.window &&
    (s.cmds.all fun e => !(decide (e.1 < id) && e.2.kind.isField && e.2.stand == k.stand && k.after s st e.2)) &&
    (!k.streamed || !reserveBusy s id k)

/-! ### The checks of R208 -/

/-- The first code whose condition holds. -/
def firstCode : List (Bool × Nat) → Nat
  | [] => 0
  | (b, c) :: r => if b then c else firstCode r

/-- 0x01: the block, and the records that it names. -/
def Cmd.malformed (k : Cmd) : Bool :=
  k.reserved || (k.required.any fun i => k.recAddr i == 0) || (k.named.any fun i => k.recAddr i % 64 != 0) ||
    (k.named.any fun i => match k.rec? i with | some r => r.malformed | none => false) || (k.drains && k.recAddr 3 % 8 != 0)

def badK (k : Nat) : Bool := k % 64 != 0 || decide (k < 64) || decide (8192 < k)

/-- 0x02 of R209. -/
def Cmd.badPlace (k : Cmd) : Bool :=
  badK k.len || k.cols % 16 != 0 || decide (k.cols < 16) || decide (384 < partN k.span k.cols) || (k.span != 1 && k.cols % 32 != 0)

/-- 0x02 of R211: each field's part, and the multiples of 32. -/
def Cmd.badTile (k : Cmd) : Bool :=
  let m := partM k.span k.rows
  let n := partN k.span k.cols
  m % 16 != 0 || decide (m < 16) || decide (256 < m) || n % 16 != 0 || decide (n < 16) || decide (384 < n) ||
    (k.span == 4 && k.rows % 32 != 0) || (k.span != 1 && k.cols % 32 != 0)

/-- 0x03: SPANC 3, a span above the lease span, a handle of another span. -/
def Cmd.badSpan (k : Cmd) (st : Stand) (lspan : Nat) : Bool :=
  k.spanc == 3 || decide (lspan < k.span) ||
    (match k.accHandle.bind st.tile? with | some t => t.span != k.span | none => false) ||
    (match k.plcHandle.bind st.placement? with | some p => p.span != k.span | none => false)

/-- Whether plates of the lease lie outside it or meet a live placement of the stand. -/
def badPlates (st : Stand) (first count : Nat) : Bool :=
  decide (st.leased.count < first + count) ||
    st.placements.any fun e => rangesMeet (some (first, count)) (some (e.2.plate, e.2.count))

/-- A tensor's part lies outside a record: `a0 + na` along dimension 0, `a1 + nb` along dimension 1. -/
def beyond (r : Option Rec) (a0 na a1 nb : Nat) : Bool := match r with
  | some r => decide (r.dim 0 < a0 + na) || decide (r.dim 1 < a1 + nb)
  | none => false

/-- The weight record's part: K and N along its dimensions under WKD. -/
def Cmd.weightBeyond (k : Cmd) (r : Option Rec) (n : Nat) : Bool :=
  if k.wkd then beyond r (k.org 3) n (k.org 2) k.len else beyond r (k.org 2) k.len (k.org 3) n

/-- Weight columns of a command: XMMAC has one for each two columns of the tile (R215). -/
def Cmd.weightCols (k : Cmd) : Nat := if k.kind == .xmmac then k.cols / 2 else k.cols

/-- Output formats of a drain: code of the record, or FMT (R216, R217). -/
def Cmd.outCode (k : Cmd) : Nat := if k.kind == .xdrainReg then k.fmt.code else codeOf (k.rec? 0)

def floatOut (code : Nat) (sat : Bool) : Bool := code == 7 || code == 8 || code == 9 || (sat && (code == 10 || code == 11))
def quantOut (code : Nat) : Bool := [1, 3, 4, 5, 6, 12, 13].contains code

def codeWidth (code : Nat) : Nat := match SFmt.ofCode code with | some f => f.width | none => 64

/-- The block and record checks of a command, in the order of R208: 0, or the code of the first that fails. -/
def Cmd.check (k : Cmd) (s : State) (st : Stand) (lspan rsv : Nat) : Nat :=
  let r0 := k.rec? 0
  let r1 := k.rec? 1
  let c0 := codeOf r0
  let tile := k.accHandle.bind st.tile?
  let plc := k.plcHandle.bind st.placement?
  let span := (k.badSpan st lspan, 3)
  let form := (k.malformed, 1)
  match k.kind with
  | .xplacePut =>
    let code := if (classOf c0).isSome then c0 else 5
    firstCode [form, (k.badPlace, 2), span, (badPlates st (k.org 0) (plateCount k.len (partN k.span k.cols) code), 4), (plc.isSome, 5),
      ((classOf c0).isNone || (blockCode c0 && k.wkd), 8), (k.weightBeyond r0 k.cols || (blockCode c0 && k.org 2 % 16 != 0), 10)]
  | .xplaceBind =>
    let entry := k.boundEntry s st k.group
    let count := match entry with | some e => e.pcnt | none => 1
    let all := (List.range k.span).all fun j => match k.boundEntry s st (k.group + j), entry with
      | some e, some f => e.seq == f.seq
      | _, _ => false
    firstCode [form, (k.badPlace, 2), span, (badPlates st (k.org 0) count, 4), (plc.isSome || !all, 5)]
  | .xevictKeep | .xevictScrub => firstCode [form, span, (plc.isNone, 5)]
  | .xaccFree => firstCode [form, span, (tile.isNone, 6)]
  | .xaccZero | .xaccLoad =>
    let home := k.group
    let full := (List.range k.span).any fun j => decide (freeUnits s (home + j) < unitsOf k.span k.rows k.cols)
    let float := k.fmt == .f32
    firstCode ([form, (k.badTile, 2), span, (tile.isSome, 6), (full, 7)] ++
      (if k.kind == .xaccLoad then
        [(if float then !(c0 == 7 || c0 == 8 || c0 == 9) else c0 != 1, 8), (beyond r0 (k.org 1) k.cols (k.org 0) k.rows, 10)]
       else []))
  | .xmma | .xmmac =>
    let wcode := if k.resident then (match plc with | some p => p.fmt | none => 31) else codeOf r1
    let code := if (classOf wcode).isSome then wcode else 5
    let shape := match tile with | some t => t.m != k.rows || t.n != k.cols | none => true
    let float := match tile with | some t => t.float | none => true
    let wb := !k.resident && blockCode wcode
    let covered := match plc with | some p => decide (k.org 2 + k.len ≤ p.k) && decide (k.org 3 + k.weightCols ≤ p.n) | none => true
    firstCode [form, (badK k.len || k.badTile, 2), span,
      (k.streamed && decide (rsv < plateCount k.len (partN k.span k.weightCols) code), 4), (k.resident && plc.isNone, 5), (shape, 6),
      ((classOf c0).isNone || classOf c0 != classOf wcode || (classOf c0 != some .int && !float) || (wb && k.wkd), 8),
      (k.kind == .xmmac && (k.org 1 % 2 != 0 || k.org 2 % 2 != 0), 9),
      (beyond r0 (k.org 1) k.len (k.org 0) k.rows || (blockCode c0 && k.org 1 % 16 != 0) || (k.resident && !covered) ||
        (!k.resident && k.weightBeyond r1 k.weightCols) || (wb && k.org 2 % 16 != 0), 10)]
  | .xdrain | .xdrainReg =>
    let out := k.outCode
    let float := match tile with | some t => t.float | none => true
    let shape := match tile with | some t => t.m != k.rows || t.n != k.cols | none => true
    let reg := k.kind == .xdrainReg
    let ints := [1, 2].all fun i => match k.rec? i with | some r => r.code == 1 | none => true
    firstCode [form, (reg && decide (2048 / codeWidth out < k.rows * k.cols), 2), span, (shape, 6),
      (if float then (k.recAddr 1 != 0 || k.recAddr 2 != 0 || k.recAddr 3 != 0) || !floatOut out k.sat
       else !ints || !(if k.recAddr 3 == 0 then out == 1 else quantOut out), 8),
      (beyond (if reg then none else r0) (k.org 1) k.cols (k.org 0) k.rows || beyond (k.rec? 1) 0 1 0 k.rows ||
        beyond (k.rec? 2) 0 k.cols 0 1, 10)]
  | _ => 0

/-! ### The elements that a command reads and writes -/

def idx2 (a b : Nat) : Idx := [a, b, 0, 0, 0]

/-- The elements of a part: `na` from `a0` along dimension 0, `nb` from `a1` along dimension 1. -/
def part2 (a0 na a1 nb : Nat) : List Idx := (List.range nb).flatMap fun b => (List.range na).map fun a => idx2 (a0 + a) (a1 + b)

/-- The bytes that elements take, as address and count. -/
def Rec.bytesOf (r : Rec) (is : List Idx) : List (Nat × Nat) := is.flatMap r.touches

/-- The weight part of a record, under WKD. -/
def Cmd.weightPart (k : Cmd) (n : Nat) : List Idx :=
  if k.wkd then part2 (k.org 3) n (k.org 2) k.len else part2 (k.org 2) k.len (k.org 3) n

/-- The bytes that a command reads. -/
def Cmd.inputs (k : Cmd) : List (Nat × Nat) :=
  let of (i : Nat) (is : List Idx) : List (Nat × Nat) := match k.rec? i with | some r => r.bytesOf is | none => []
  match k.kind with
  | .xplacePut => of 0 (k.weightPart k.cols)
  | .xaccLoad => of 0 (part2 (k.org 1) k.cols (k.org 0) k.rows)
  | .xmma | .xmmac => of 0 (part2 (k.org 1) k.len (k.org 0) k.rows) ++ (if k.resident then [] else of 1 (k.weightPart k.weightCols))
  | .xdrain | .xdrainReg => of 1 (part2 0 1 0 k.rows) ++ of 2 (part2 0 k.cols 0 1) ++
      (if k.recAddr 3 == 0 then [] else (List.range k.cols).map fun j => (k.recAddr 3 + 8 * j, 8))
  | _ => []

/-- The bytes that a command writes in memory. -/
def Cmd.outputs (k : Cmd) : List (Nat × Nat) :=
  match k.kind, k.rec? 0 with
  | .xdrain, some r => r.bytesOf (part2 (k.org 1) k.cols (k.org 0) k.rows)
  | _, _ => []

/-- Putting a line and its lowest byte into a list kept in rising order. -/
def putLine (x : Nat × Nat) : List (Nat × Nat) → List (Nat × Nat)
  | [] => [x]
  | y :: l => if x.1 == y.1 then (x.1, min x.2 y.2) :: l else if x.1 < y.1 then x :: y :: l else y :: putLine x l

/-- The lines of byte ranges in rising order, each with the lowest byte touched in it. -/
def touchLines (rs : List (Nat × Nat)) : List (Nat × Nat) :=
  rs.foldl (fun l r =>
    let first := r.1 / 128
    (List.range ((r.1 + r.2 - 1) / 128 + 1 - first)).foldl (fun l i => putLine ((first + i) * 128, max r.1 ((first + i) * 128)) l) l) []

/-- Looking for virtual lines on a cluster's path: each with its physical line, or the first address that cannot be reached, or a wait. -/
inductive Lines
  | all (m : List (Nat × Nat))
  | lost (addr : Nat)
  | held
  deriving DecidableEq, Repr

def reachLines (cl part asn : Nat) (need : Need) : List (Nat × Nat) → State → Lines × State
  | [], s => (.all [], s)
  | (va, b) :: l, s =>
    match clusterAddr s cl part asn va need with
    | (.lost, s) => (.lost b, s)
    | (.held, s) => (.held, s)
    | (.found pa, s) =>
      match reachLines cl part asn need l s with
      | (.all m, s) => (.all ((va, pa) :: m), s)
      | r => r

/-! ### Preparing -/

/-- A command ends before it changes anything (R208): with its code, or 0x0B where its completion word cannot be reached. -/
def endEarly (s : State) (id : Nat) (k : Cmd) (code addr : Nat) : State :=
  match k.findCplt s with
  | (none, s) => s
  | (some k, s) =>
    let lost := k.cplt.isNone && k.cpltAddr != 0
    if lost && code != 0x0B then failCmd s id k 0x0B k.cpltAddr else failCmd s id k code addr

/-- What reading the records gives: their words by REC field, a wait, or a failure with its address. -/
inductive Records
  | read (recs : List (List Word))
  | wait
  | failed (code addr : Nat)
  deriving DecidableEq, Repr

/-- The pages of the named records, in order: the first that cannot be read fails. -/
def recordPages (k : Cmd) : List Nat → State → Records × State
  | [], s => (.read [], s)
  | i :: l, s =>
    match k.reach s (k.recAddr i) .rd with
    | (.lost, s) => (.failed 0x0B (k.recAddr i), s)
    | (.held, s) => (.wait, s)
    | (.found _, s) => recordPages k l s

/-- Reading the named records through the issuing core's record cache (R186, R272); one that is read already stays as it is. -/
def readRecords (k : Cmd) : List Nat → List (List Word) → State → Records × State
  | [], acc, s => (.read acc, s)
  | i :: l, acc, s =>
    let a := k.recAddr i
    if a % 64 != 0 || !(acc.getD i []).isEmpty then readRecords k l acc s
    else
      match k.reach s a .rd with
      | (.lost, s) => (.failed 0x0B a, s)
      | (.held, s) => (.wait, s)
      | (.found pa, s) =>
        match readRecord s k.core (.mem pa) with
        | (.wait, s) => (.wait, s)
        | (.failed d, s) => (.failed (if d == 6 then 0x0E else 0x22) a, s)
        | (.words ws, s) => readRecords k l (acc.set i ws) s

/-- The records of a command by REC field, none read yet. -/
def Cmd.recsOr (k : Cmd) : List (List Word) := if k.recs.isEmpty then [[], [], [], []] else k.recs

/-- The records of a command, read early so that its plates are known (R220). A record that cannot be read is left for the command's
preparation. -/
def readEarly (s : State) (id : Nat) (k : Cmd) (fields : List Nat) : State :=
  match readRecords k fields k.recsOr s with
  | (.read recs, s) => s.putCmd id { k with recs := recs }
  | (_, s) => s

/-- The plates of a command, numbered through all fields. -/
def Cmd.plateKeys (k : Cmd) (s : State) (st : Stand) : List Nat := match k.plates s st with
  | some (first, n) => k.fields.flatMap fun cl => (List.range n).map fun i => plateKey cl (first + i)
  | none => []

/-- Whether a plate of a command is out of service, or, where it writes there, worn (R355, R438). -/
def Cmd.platesOut (k : Cmd) (s : State) (st : Stand) : Bool :=
  let writes := k.kind == .xplacePut || k.kind == .xevictScrub || k.kind == .pour
  (k.plateKeys s st).any fun p => (s.plate p).out || (writes && (s.plate p).worn)

/-- The plates of a command that a restore has found out of service: it is the first command on them since (R341). -/
def Cmd.platesLost (k : Cmd) (s : State) (st : Stand) : List Nat := st.outAtRestore.filter fun p => (k.plateKeys s st).contains p

/-- Those plates have been reported. -/
def reportPlates (s : State) (k : Cmd) (lost : List Nat) : State :=
  s.modStand (k.stand.getD 0) fun x => { x with outAtRestore := x.outAtRestore.filter fun p => !lost.contains p }

/-- Whether the rows of a placement to be bound are sound in every field (R347); the damaged ones are marked. -/
def Cmd.bindRows (k : Cmd) (s : State) (st : Stand) : Bool × State :=
  match k.boundEntry s st k.group with
  | none => (false, s)
  | some e =>
    if e.state == 3 then (false, s)
    else if (List.range k.span).all fun j => rowsSound s (k.group + j) e.first e.pcnt then (true, s)
    else (false, damage s e.seq)

/-- The passes of a command (R333). -/
def Cmd.passCount (k : Cmd) (s : State) (st : Stand) : Nat :=
  match k.kind with
  | .xplacePut => plateCount k.len (partN k.span k.cols) (codeOf (k.rec? 0))
  | .xplaceBind => match k.boundEntry s st k.group with | some e => e.pcnt | none => 1
  | .xevictScrub => match k.plcHandle.bind st.placement? with | some p => p.count | none => 1
  | .xmma | .xmmac => k.len / 64
  | .xdrain | .xdrainReg => ceilDiv (partM k.span k.rows) 16
  | _ => 1

/-- A tile as XACC creates it, its units taken at once (R211). -/
def Cmd.newTile (k : Cmd) (s : State) : Tile :=
  { float := k.fmt == .f32, m := k.rows, n := k.cols, span := k.span, home := k.group,
    units := k.fields.flatMap fun cl => takeTileUnits s cl (unitsOf k.span k.rows k.cols), elems := [], poison := false }

/-- The last of a command's preparation: its plates and its tile. -/
def startField (s : State) (id : Nat) (k : Cmd) (st : Stand) (reads writes : List (Nat × Nat)) : State :=
  let lost := k.platesLost s st
  if !lost.isEmpty then failCmd (reportPlates s k lost) id k 0x04 0
  else if k.platesOut s st then failCmd s id k 0x0C 0
  else
    let (sound, s) := if k.kind == .xplaceBind then k.bindRows s st else (true, s)
    let poisoned := k.drains && (match st.tile? k.hacc with | some t => t.poison | none => false)
    if !sound then failCmd s id k 0x0C 0
    else if poisoned then failCmd s id k 0x0D 0
    else
      let t := k.newTile s
      let s := if k.kind == .xaccZero || k.kind == .xaccLoad then
          s.modStand (k.stand.getD 0) fun x => { x with tiles := Sparse.insert x.tiles k.hacc t }
        else s
      s.putCmd id { k with prepared := true, map := reads ++ writes, toOwn := (writes.map (·.2)).eraseDups, toRead := reads.map (·.1),
                           total := k.passCount s st }

/-- The checks and pages of a command before its first pass (R206, R208). It waits while a record is on its way. -/
def prepareField (s : State) (id : Nat) (k : Cmd) : State :=
  match k.stand.bind s.stand?, s.part? k.part with
  | some st, some p =>
    match recordPages k k.named s with
    | (.wait, s) => s
    | (.failed c a, s) => endEarly s id k c a
    | (.read _, s) =>
      match readRecords k k.named k.recsOr s with
      | (.wait, s) => s
      | (.failed c a, s) => endEarly s id k c a
      | (.read recs, s) =>
        let k := { k with recs := recs }
        let code := k.check s st st.leased.span p.rsv
        if code != 0 then endEarly s id k code 0
        else
          match reachLines k.cluster k.part k.asn .rd (touchLines k.inputs) s with
          | (.held, s) => s
          | (.lost a, s) => endEarly s id k 0x0B a
          | (.all reads, s) =>
            match reachLines k.cluster k.part k.asn .wr (touchLines k.outputs) s with
            | (.held, s) => s
            | (.lost a, s) => endEarly s id k 0x0B a
            | (.all writes, s) =>
              match k.findCplt s with
              | (none, s) => s
              | (some k, s) => if k.cplt.isNone then failCmd s id k 0x0B k.cpltAddr else startField s id k st reads writes
  | _, _ => s

end Sys2Proof.Machine
end

