-- ==== Sys2Proof/Machine/Pass.lean ====
section
/-! DEFINITION. The passes of the field commands (R333): laying weights into plates and taking them away (R209, R210, R349,
R358), tiles (R211), products and sums (R58 to R61, R214, R215), the built-in schedules on the ring (R350 to R352), draining
(R216, R217), the arbiter, migration (R334) and XSTAT (R218). -/

namespace Sys2Proof.Machine

open Host (Outcome)

/-! ### Operands in the field -/

/-- An element as the field holds it: the bits of its value or mantissa, and the exponent of its block. -/
structure FElem where
  raw : Nat
  exp : Nat
  deriving DecidableEq, Repr

/-- How elements of one operand are read. -/
structure FRead where
  cls : FClass
  width : Nat
  signed : Bool
  deriving DecidableEq, Repr

def FRead.of (code : Nat) (signed : Bool) : FRead := { cls := (classOf code).getD .int, width := fieldWidth code, signed := signed }

/-- Element number `kk` along K of a record, `place kk` giving its index; E4M3 and E5M2 are converted to BFP8 in blocks of 16
counted from the origin (R52, R212). -/
def recElem (rd : Nat → Nat) (r : Rec) (place : Nat → Idx) (kk : Nat) : FElem :=
  if r.code == 10 || r.code == 11 then
    let (e, ms) := bfpEncode 8 0 ((List.range 16).map fun t => r.val rd (place (kk / 16 * 16 + t)))
    { raw := wrapTo 8 (ms.getD (kk % 16) 0), exp := e }
  else { raw := r.raw rd (place kk), exp := if r.block then rd (r.expAt (place kk)) else 0 }

/-- The activation of tile row `i` at `kk` (R212). -/
def Cmd.act (k : Cmd) (i kk : Nat) : FElem := match k.rec? 0 with
  | some r => recElem k.byte r (fun t => idx2 (k.org 1 + t) (k.org 0 + i)) kk
  | none => { raw := 0, exp := 0 }

/-- The weight of column `c` at `kk` in a record, under WKD. -/
def Cmd.weight (k : Cmd) (field kk c : Nat) : FElem := match k.rec? field with
  | some r => recElem k.byte r (fun t => if k.wkd then idx2 (k.org 3 + c) (k.org 2 + t) else idx2 (k.org 2 + t) (k.org 3 + c)) kk
  | none => { raw := 0, exp := 0 }

/-! ### Weights in plates (R349) -/

/-- The layout of one field's part: its first plate, K, columns and format code. -/
structure Layout where
  first : Nat
  k : Nat
  np : Nat
  code : Nat
  deriving DecidableEq, Repr

def Layout.perPlate (l : Layout) : Nat := 320 / fieldWidth l.code
def Layout.weights (l : Layout) : Nat := platesK l.k * platesN l.np l.code
def Layout.count (l : Layout) : Nat := plateCount l.k l.np l.code

/-- Cells d0 to d319 of row `r` of plate `p` of a layout, `w kk n` giving the weights of the part. -/
def Layout.row (l : Layout) (w : Nat → Nat → FElem) (p r : Nat) : Nat :=
  let b := fieldWidth l.code
  if p < l.weights then
    let kk := 512 * (p % platesK l.k) + r
    packElems b (fun c =>
      let n := l.perPlate * (p / platesK l.k) + c
      if kk < l.k && n < l.np then (w kk n).raw else 0) l.perPlate
  else
    packElems 8 (fun c =>
      let x := 20480 * (p - l.weights) + 40 * r + c
      if x < l.k / 16 * l.np then (w (x / l.np * 16) (x % l.np)).exp else 0) 40

/-- The weight at `kk` of column `n` of a part, read back from the plates of a field. -/
def Layout.read (l : Layout) (s : State) (cl kk n : Nat) : FElem :=
  let b := fieldWidth l.code
  let p := l.first + kk / 512 + platesK l.k * (n / l.perPlate)
  let x := kk / 16 * l.np + n
  let y := x % 20480
  { raw := bits (s.cellRow (plateKey cl p) (kk % 512)).toNat (n % l.perPlate * b) b
    exp := if classOf l.code == some .int then 0
      else bits (s.cellRow (plateKey cl (l.first + l.weights + x / 20480)) (y / 40)).toNat (8 * (y % 40)) 8 }

def Placement.layout (p : Placement) (base : Nat) : Layout := { first := base + p.plate, k := p.k, np := p.np, code := p.fmt }

/-- Whether `w` columns from column `n` of a part are zero at position `kk`, all in one plate. -/
def Layout.zeroRun (l : Layout) (s : State) (cl kk n w : Nat) : Bool :=
  let b := fieldWidth l.code
  let p := l.first + kk / 512 + platesK l.k * (n / l.perPlate)
  bits (s.cellRow (plateKey cl p) (kk % 512)).toNat (n % l.perPlate * b) (w * b) == 0

/-- Whether an 8 × 8 block of K by N is all zero (R209): block `kb` along K and `nb` along the part's columns. A block of columns may lie in
two plates. -/
def Layout.zeroBlock (l : Layout) (s : State) (cl kb nb : Nat) : Bool :=
  let lo := 8 * nb
  let hi := min (lo + 8) l.np
  let mid := min hi ((lo / l.perPlate + 1) * l.perPlate)
  (List.range 8).all fun r => l.zeroRun s cl (8 * kb + r) lo (mid - lo) && (hi ≤ mid || l.zeroRun s cl (8 * kb + r) mid (hi - mid))

/-- The zero bitmap of plate `p` of a layout (R209): bit `c` for an all-zero column of cells, then a bit for each all-zero block of 8
positions along K and 8 output columns of which the plate holds a part, K fastest. -/
def zeroBitmap (s : State) (cl : Nat) (l : Layout) (p : Nat) : BitVec 2048 :=
  let q := plateKey cl (l.first + p)
  let used : Nat := (List.range 512).foldl (fun m r => m ||| (s.cellRow q r).toNat % 2 ^ 320) 0
  let pn := p / platesK l.k
  let first := l.perPlate * pn / 8
  let count := ceilDiv (min (l.perPlate * (pn + 1)) l.np) 8 - first
  BitVec.ofNat 2048 (packElems 1 (fun c => if used.testBit c then 0 else 1) 320 +
    2 ^ 320 * packElems 1 (fun i => if l.zeroBlock s cl (64 * (p % platesK l.k) + i % 64) (first + i / 64) then 1 else 0) (64 * count))

/-! ### Progress -/

/-- How far a command is in field `j`. -/
def Pour.done (p : Pour) (j : Nat) : Nat := ((p.counts.find? fun e => e.1 == j).map (·.2)).getD 0
def Pour.setDone (p : Pour) (j n : Nat) : Pour := { p with counts := (j, n) :: p.counts.filter fun e => e.1 != j }

/-- How a stretch of line writes ends. -/
inductive Stretch
  | complete
  | held
  | faulty
  deriving DecidableEq, Repr

/-- A command that the governor holds is not eligible until the next window (R354). -/
def Cmd.heldNow (k : Cmd) (s : State) : Cmd := { k with hold := some s.window }

/-- One verified step of a command in field `cl`, from where it was held if it was. A plate that faults leaves service. -/
def fieldStep (s : State) (k : Cmd) (cl : Nat) (ax : Bool) (line : Nat) (imgs : List (Nat × BitVec 512)) : Stretch × Cmd × State :=
  let left := if k.pour.tries == 0 then imgs else k.pour.again
  let (r, retries, _, s) := gateStep s ax line 0 511 k.pour.tries left
  let s := countField (if retries == 0 then s else countField s cl 1 retries) cl 0 1
  match r with
  | .made => (.complete, { k with pour := { k.pour with tries := 0, again := [] } }, s)
  | .held t l =>
    let s := countField s cl 3 1
    (.held, { k with pour := { k.pour with tries := t, again := if t == 0 then [] else l } }, s)
  | .faulty ps => (.faulty, k, ps.foldl (fun s p => plateLeaves s p 3) s)

/-! ### Laying weights (R209) -/

/-- Writing the rows of one plate in one field from where the command is under a key, the governor asked before each; `lay` puts the cells
d0 to d319 into a row. -/
def layRows (cl : Nat) (l : Layout) (key plate : Nat) (w : Nat → Nat → FElem) (lay : BitVec 520 → Nat → BitVec 520) :
    Nat → Cmd → State → Stretch × Cmd × State
  | 0, k, s => (.complete, k, s)
  | fuel + 1, k, s =>
    let r := k.pour.done key
    if 512 ≤ r then (.complete, k, s)
    else
      let p := plateKey cl (l.first + plate)
      if !(s.plate p).allows true r then (.held, k, countField s cl 3 1)
      else
        let s := s.setPlate p ((s.plate p).count true r)
        layRows cl l key plate w lay fuel { k with pour := k.pour.setDone key (r + 1) } (s.setCellRow p r (lay (s.cellRow p r) (l.row w plate r)))

/-- The rows of one plate in every field of the span; `weights j` are those of field `j`, `key j` keeps its progress. -/
def layPlate (l : Layout) (plate : Nat) (weights : Nat → Nat → Nat → FElem) (lay : BitVec 520 → Nat → BitVec 520) (key : Nat → Nat) :
    List Nat → Cmd → State → Stretch × Cmd × State
  | [], k, s => (.complete, k, s)
  | j :: js, k, s =>
    match layRows (k.group + j) l (key j) plate (weights j) lay 512 k s with
    | (.complete, k, s) => layPlate l plate weights lay key js k s
    | r => r

/-- What an end of a put or a bind leaves with the stand. -/
def bindHandle (s : State) (k : Cmd) (p : Placement) : State :=
  match k.stand with
  | some n => s.modStand n fun st => { st with placements := Sparse.insert st.placements k.hplc p }
  | none => s

/-- The end of a put: bitmaps, then the entries, then the handle (R209, R358). -/
def finishPut (s : State) (k : Cmd) (st : Stand) (code : Nat) : State :=
  let np := partN k.span k.cols
  let first := st.leased.base + k.org 0
  let seq := s.seqNo
  let s := { s with seqNo := seq + 1 }
  let fields := k.fields
  let l : Layout := { first := first, k := k.len, np := np, code := code }
  let s := fields.foldl (fun s cl => (List.range l.weights).foldl (fun s i =>
    { s with bitmaps := Sparse.set s.bitmaps (plateKey cl (first + i)) (zeroBitmap s cl l i) 0 }) s) s
  let e : PlateEntry := { state := 1, part := k.part, span := k.span, wkd := k.wkd, wsgn := k.wsgn, sfmt := code, pcnt := plateCount k.len np code,
                          first := first, k := k.len, n := k.cols, clbase := k.group, seq := seq }
  let s := fields.foldl (fun s cl => s.setEntry (freeEntry s cl) e.words) s
  bindHandle s k { plate := k.org 0, k := k.len, n := k.cols, fmt := code, signed := k.wsgn, wkd := k.wkd, span := k.span, entry := seq }

/-- A command whose passes are all made. -/
def Cmd.finish (k : Cmd) : Cmd := { k with passes := k.total, computed := true }

/-- One pass of XPLACE.put: one plate; before the first, every entry that it overlaps goes. -/
def putPass (s : State) (id : Nat) (k : Cmd) (st : Stand) : State :=
  let code := codeOf (k.rec? 0)
  let l : Layout := { first := st.leased.base + k.org 0, k := k.len, np := partN k.span k.cols, code := code }
  let s := if k.started then s else k.fields.foldl (fun s cl => removeEntries s cl l.first l.count) s
  let w (j kk n : Nat) : FElem := k.weight 0 kk (colStart k.span k.cols j + n)
  match layPlate l k.passes w placedRow (fun j => j) (List.range k.span) { k with started := true } s with
  | (.complete, k, s) =>
    let k := { k with passes := k.passes + 1, pour := { k.pour with counts := [] } }
    if k.passes < k.total then s.putCmd id k else (finishPut s k st code).putCmd id k.finish
  | (_, k, s) => s.putCmd id (k.heldNow s)

/-- XPLACE.bind: its rows have been found sound; the handle names the entry (R209). -/
def bindPass (s : State) (id : Nat) (k : Cmd) (st : Stand) : State :=
  let k := { k with passes := k.passes + 1, started := true }
  if k.passes < k.total then s.putCmd id k
  else
    match k.boundEntry s st k.group with
    | some e =>
      if e.state == 1 then
        (bindHandle s k { plate := k.org 0, k := e.k, n := e.n, fmt := e.sfmt, signed := e.wsgn, wkd := e.wkd, span := e.span, entry := e.seq }).putCmd
          id k.finish
      else failCmd s id k 0x0C 0
    | none => failCmd s id k 0x05 0

/-! ### Taking weights away (R210) -/

/-- STATE of every entry of a placement. -/
def markEntries (s : State) (seq state : Nat) : State :=
  (s.directory.map fun e => (e.1, PlateEntry.parse e.2)).foldl (fun s e =>
    if e.2.seq == seq && e.2.state != 0 then s.setEntryState e.1 state else s) s

def dropHandle (s : State) (k : Cmd) : State :=
  match k.stand with
  | some n => s.modStand n fun st => { st with placements := Sparse.erase st.placements k.hplc }
  | none => s

/-- The columns below `n` of one plate set to 0 by G.SET0, from where the command is, then its check columns. -/
def scrubColumns (cl plate n : Nat) : Nat → Cmd → State → Stretch × Cmd × State
  | 0, k, s => (.complete, k, s)
  | fuel + 1, k, s =>
    let c := k.pour.done cl
    let p := plateKey cl plate
    if n ≤ c then (.complete, k, (List.range 512).foldl (fun s r => s.setCellRow p r (scrubbedRow (s.cellRow p r) n)) s)
    else
      match fieldStep s k cl false c [(p, 0)] with
      | (.complete, k, s) => scrubColumns cl plate n fuel { k with pour := k.pour.setDone cl (c + 1) } s
      | r => r

def scrubFields (plate n : Nat) : List Nat → Cmd → State → Stretch × Cmd × State
  | [], k, s => (.complete, k, s)
  | cl :: cls, k, s =>
    match scrubColumns cl plate n (n + 1) k s with
    | (.complete, k, s) => scrubFields plate n cls k s
    | r => r

/-- One pass of XEVICT.scrub: one plate; STATE 2 first, STATE 0 last (R358). -/
def scrubPass (s : State) (id : Nat) (k : Cmd) (st : Stand) : State :=
  match st.placement? k.hplc with
  | none => s.putCmd id k.finish
  | some p =>
    let s := if k.started then s else markEntries s p.entry 2
    match scrubFields (st.leased.base + p.plate + k.passes) 320 k.fields { k with started := true } s with
    | (.complete, k, s) =>
      let k := { k with passes := k.passes + 1, pour := { k.pour with counts := [] } }
      if k.passes < k.total then s.putCmd id k else (dropHandle (markEntries s p.entry 0) k).putCmd id k.finish
    | (.held, k, s) => s.putCmd id (k.heldNow s)
    | (.faulty, k, s) => failCmd s id k 0x0C 0

/-- XEVICT.keep: STATE 0 alone. -/
def keepPass (s : State) (id : Nat) (k : Cmd) (st : Stand) : State :=
  match st.placement? k.hplc with
  | none => s.putCmd id k.finish
  | some p => (dropHandle (markEntries s p.entry 0) k).putCmd id k.finish

/-! ### Tiles (R211) -/

/-- XACC.zero and .load fill the tile that their check has made; .free returns its units. -/
def accPass (s : State) (id : Nat) (k : Cmd) : State :=
  let value (i j : Nat) : BitVec 32 := match k.rec? 0 with
    | some r =>
      let x := idx2 (k.org 1 + j) (k.org 0 + i)
      if r.code == 1 then BitVec.ofNat 32 (r.raw k.byte x) else BitVec.ofNat 32 (f32Fmt.ofValue 0 (r.val k.byte x))
    | none => 0
  let elems : Sparse (BitVec 32) :=
    if k.kind == .xaccLoad then
      ((List.range (k.rows * k.cols)).map fun n => (n, value (n / k.cols) (n % k.cols))).filter fun e => e.2 != 0
    else []
  let s := match k.stand with
    | none => s
    | some n => s.modStand n fun st =>
      if k.kind == CmdKind.xaccFree then { st with tiles := Sparse.erase st.tiles k.hacc }
      else { st with tiles := Sparse.modify st.tiles k.hacc fun t => { t with elems := elems, poison := false } }
  s.putCmd id k.finish

/-! ### Products and sums (R58 to R61) -/

/-- The exact product of an activation and a weight (R58), each with the exponent of its own block: the weights of one K block have two
where ORG2 of a .res is no multiple of 16 (DESIGN CHOICE, log entry 152). -/
def fieldProduct (a w : FRead) (x y : FElem) : Val :=
  match a.cls with
  | .int => Val.ofInt (valueOf a.width a.signed x.raw * valueOf w.width w.signed y.raw)
  | .blk => Val.mul (bfpVal a.width x.exp (signedOf a.width x.raw)) (bfpVal w.width y.exp (signedOf w.width y.raw))
  | .lns =>
    let la := x.raw % 128
    let lb := y.raw % 128
    if x.exp == 255 || y.exp == 255 then .nan
    else if la == 0 || lb == 0 then .fin false 0 0
    else
      let (t, q) := lnsMag ((la : Int) + lb - 128)
      .fin (x.raw.testBit 7 != y.raw.testBit 7) t (q + x.exp + y.exp - 254)

/-- A block sum (R58), of products each with its own weight's exponent (DESIGN CHOICE, log entry 152). -/
def blockSum (a w : FRead) (ps : List (FElem × FElem)) : Val :=
  ps.foldl (fun v p => Val.add 0 v (fieldProduct a w p.1 p.2)) (.fin false 0 0)

/-- An accumulator element with the flags it has raised. -/
structure Acc where
  code : BitVec 32
  nanin : Bool
  satd : Bool
  deriving DecidableEq, Repr

/-- The step of R59. -/
def Acc.step (float sat : Bool) (x : Acc) (v : Val) : Acc :=
  match v with
  | .fin n m e =>
    if m == 0 then x
    else if float then { x with code := BitVec.ofNat 32 (f32Fmt.ofValue 0 (Val.add 0 (f32Fmt.val x.code.toNat) v)) }
    else
      let y := x.code.toInt + roundToInt 0 n m e
      if sat then { x with code := BitVec.ofInt 32 (satTo 32 true y), satd := x.satd || satTo 32 true y != y }
      else { x with code := BitVec.ofInt 32 y }
  | _ => if float then { x with code := BitVec.ofNat 32 f32Fmt.nan } else { x with nanin := true }

/-- Element (i, j) of XMMA (R214), of XMMAC (R215, R61); `w kk c` gives the weights. -/
def mmaElem (k : Cmd) (float : Bool) (a b : FRead) (w : Nat → Nat → FElem) (i j : Nat) (x : Acc) : Acc :=
  (List.range (k.len / 16)).foldl (fun x blk =>
    if k.kind == .xmmac then
      let sum (p q : Nat) : Val := blockSum a b ((List.range 8).map fun c => (k.act i (16 * blk + 2 * c + p), w (16 * blk + 2 * c + q) (j / 2)))
      if j % 2 == 0 then (x.step float k.sat (sum 0 0)).step float k.sat (sum 1 1).neg
      else (x.step float k.sat (sum 0 1)).step float k.sat (sum 1 0)
    else x.step float k.sat (blockSum a b ((List.range 16).map fun t => (k.act i (16 * blk + t), w (16 * blk + t) j)))) x

/-- The format code of a command's weights. -/
def Cmd.weightCode (k : Cmd) (st : Stand) : Nat :=
  if k.resident then (match st.placement? k.hplc with | some p => p.fmt | none => 5) else codeOf (k.rec? 1)

/-- The weights of tile row `i`'s field: from the placement's plates, or as streamed (R212). -/
def Cmd.weightOf (k : Cmd) (s : State) (st : Stand) (i kk c : Nat) : FElem :=
  if !k.resident then k.weight 1 kk c
  else
    match st.placement? k.hplc with
    | none => { raw := 0, exp := 0 }
    | some p =>
      let col := k.org 3 + c
      let half := if k.span == 4 && k.rows / 2 ≤ i then 2 else 0
      (p.layout st.leased.base).read s (k.group + half + col / p.np) (k.org 2 + kk) (col % p.np)

/-- The whole effect of a multiplication on its tile, with its flags. -/
def multiply (k : Cmd) (s : State) (st : Stand) (t : Tile) : Tile × Bool × Bool :=
  let a := FRead.of (codeOf (k.rec? 0)) k.asgn
  let b := FRead.of (k.weightCode st) k.wsgn
  let xs : List (Nat × Acc) := (List.range (t.m * t.n)).map fun n =>
    (n, mmaElem k t.float a b (k.weightOf s st (n / t.n)) (n / t.n) (n % t.n) { code := Sparse.getD t.elems n 0, nanin := false, satd := false })
  ({ t with elems := (xs.map fun e => (e.1, e.2.code)).filter fun e => e.2 != 0 }, xs.any (·.2.nanin), xs.any (·.2.satd))

/-! ### The built-in schedule (R350 to R352) -/

/-- A step of the schedule: loading bit plane `i` of row `m` (for XMMAC of part pair `pair`), or the AND of a column. -/
inductive RingOp
  | load (m pair i : Nat)
  | and (c : Nat)
  deriving DecidableEq, Repr

/-- The line of a ring write, counted from 0: d320 to d511 in turn (R352). -/
def ringLine (write : Nat) : Nat := 320 + write % 192

/-- Cutting a list into pieces of 159. -/
def pieces (l : List Nat) : Nat → List (List Nat)
  | 0 => []
  | n + 1 => if l.isEmpty then [] else l.take 159 :: pieces (l.drop 159) n

/-- The plates that a multiplication works on in one field: first plate, K, columns, format, the origin along K, and the
columns of the part that it uses. -/
def Cmd.workLayout (k : Cmd) (st : Stand) : Layout :=
  if k.resident then
    match st.placement? k.hplc with
    | some p => p.layout st.leased.base
    | none => { first := 0, k := 0, np := 0, code := 5 }
  else
    { first := k.reserve, k := k.len, np := partN k.span k.weightCols, code := codeOf (k.rec? 1) }

/-- The bit of the loaded line at row `r` of the plate with index `pk` along K. -/
def Cmd.loadBit (k : Cmd) (row pair i pk r : Nat) : Bool :=
  let pos := 512 * pk + r
  let o := if k.resident then k.org 2 else 0
  if pos < o || o + k.len ≤ pos then false
  else
    let kk := pos - o
    if k.kind == .xmmac then
      let (p, q) := if pair == 0 then (0, 0) else if pair == 1 then (1, 1) else if pair == 2 then (0, 1) else (1, 0)
      kk % 2 == q && ((k.act row (kk / 2 * 2 + p)).raw).testBit i
    else ((k.act row kk).raw).testBit i

/-- The columns of a field's plates that hold weights of the command, and those of them that the zero bitmap does not skip. -/
def ringColumns (k : Cmd) (s : State) (l : Layout) (j : Nat) : List Nat × List Nat :=
  let cl := k.group + j
  let b := fieldWidth l.code
  let np := l.np
  let col0 := if k.span == 1 then 0 else j % 2 * np
  let lo := if k.resident then k.org 3 else 0
  let n (pn c : Nat) : Nat := l.perPlate * pn + c / b
  let uses (pn c : Nat) : Bool := decide (c / b < l.perPlate) && decide (n pn c < np) && decide (lo ≤ col0 + n pn c) && decide (col0 + n pn c < lo + k.weightCols)
  let used := (List.range 320).filter fun c => (List.range (platesN np l.code)).any fun pn => uses pn c
  let maps := (List.range l.weights).map fun p => (p / platesK l.k,
    if k.resident then Sparse.getD s.bitmaps (plateKey cl (l.first + p)) 0 else zeroBitmap s cl l p)
  let zero (c : Nat) : Bool := maps.all fun m => m.2.getLsbD c
  let empty (c : Nat) : Bool := maps.all fun m =>
    np ≤ n m.1 c || (List.range 64).all fun r => m.2.getLsbD (320 + (n m.1 c / 8 - l.perPlate * m.1 / 8) * 64 + r)
  (used, used.filter fun c => !zero c && !empty c)

/-- The steps of a multiplication in field `j`, none of them skipped, and how many are (R351): a load is skipped where its bit plane is
zero, be there ANDs left that read it or not. -/
def ringOps (k : Cmd) (s : State) (st : Stand) (j : Nat) : List RingOp × Nat :=
  let l := k.workLayout st
  let (used, cols) := ringColumns k s l j
  let row0 := rowStart k.span k.rows j
  let pairs := if k.kind == .xmmac then 4 else 1
  let width := fieldWidth (codeOf (k.rec? 0))
  let some' (m pair i : Nat) : Bool := (List.range (platesK l.k)).any fun pk => (List.range 512).any fun r => k.loadBit (row0 + m) pair i pk r
  let ops := (List.range (partM k.span k.rows)).flatMap fun m => (List.range pairs).flatMap fun pair => (List.range width).flatMap fun i =>
    if !some' m pair i || used.isEmpty then []
    else if cols.isEmpty then [.load (row0 + m) pair i]
    else (pieces cols 320).flatMap fun cs => .load (row0 + m) pair i :: cs.map .and
  let whole := partM k.span k.rows * pairs * width * (ceilDiv used.length 159 + used.length)
  (ops, whole - ops.length)

/-- The ring write that last loaded a line in field `j`. -/
def Cmd.loadedAt (k : Cmd) (j : Nat) : Nat := ((k.loaded.find? fun e => e.1 == j).map (·.2)).getD 0

/-- The images that a step writes in the plates of field `j`. -/
def ringImages (k : Cmd) (s : State) (l : Layout) (j : Nat) (op : RingOp) : List (Nat × BitVec 512) :=
  (List.range l.weights).map fun p =>
    let q := plateKey (k.group + j) (l.first + p)
    (q, match op with
      | .load m pair i => BitVec.ofNat 512 (packElems 1 (fun r => if k.loadBit m pair i (p % platesK l.k) r then 1 else 0) 512)
      | .and c => s.plateLine q false c &&& s.plateLine q false (ringLine (k.loadedAt j)))

/-- One write of the schedule in field `j` (R350, R352): to the ring line after the one last written, which every attempt at it counts as.
One that the governor holds after an attempt keeps its line (R361). -/
def ringStep (k : Cmd) (s : State) (l : Layout) (j : Nat) (op : RingOp) : Stretch × Cmd × State :=
  let cl := k.group + j
  let w := k.atWrite.getD (s.cluster cl).ring
  let moved (s : State) : State := if k.atWrite.isSome then s else s.setCluster cl { s.cluster cl with ring := w + 1 }
  match fieldStep s k cl false (ringLine w) (ringImages k s l j op) with
  | (.complete, k, s) =>
    (.complete, { k with
      atWrite := none
      loaded := match op with
        | .load .. => (j, w) :: k.loaded.filter fun e => e.1 != j
        | .and _ => k.loaded }, moved s)
  | (.held, k, s) => if k.pour.tries == 0 then (.held, k, s) else (.held, { k with atWrite := some w }, moved s)
  | (.faulty, k, s) => (.faulty, k, moved s)

/-- Steps of the schedule from where the command is in field `j`, `last` being the latest load. A line that other passes' writes on the shared
ring have left more than 159 writes behind is loaded again first (R350). -/
def ringRun (j : Nat) (l : Layout) : List RingOp → Option RingOp → Cmd → State → Stretch × Cmd × State
  | [], _, k, s => (.complete, k, s)
  | op :: ops, last, k, s =>
    let w := k.atWrite.getD (s.cluster (k.group + j)).ring
    let again : Option RingOp := match op with
      | .and _ => if 159 < w - k.loadedAt j then last else none
      | .load .. => none
    match (match again with | some x => ringStep k s l j x | none => (.complete, k, s)) with
    | (.complete, k, s) =>
      (match ringStep k s l j op with
        | (.complete, k, s) =>
          ringRun j l ops (match op with | .load .. => some op | .and _ => last) { k with pour := k.pour.setDone j (k.pour.done j + 1) } s
        | r => r)
    | r => r

/-- The last load among some steps. -/
def lastLoad (made : List RingOp) : Option RingOp := made.foldl (fun x op => match op with | .load .. => some op | .and _ => x) none

/-- The share of pass `k.passes` in every field of the span. -/
def ringPass (st : Stand) : List Nat → Cmd → State → Stretch × Cmd × State
  | [], k, s => (.complete, k, s)
  | j :: js, k, s =>
    let (ops, skipped) := ringOps k s st j
    let goal := ops.length * (k.passes + 1) / max k.total 1
    let at' := k.pour.done j
    let s := if at' == 0 && skipped != 0 && k.passes == 0 then countField s (k.group + j) 2 skipped else s
    match ringRun j (k.workLayout st) ((ops.take goal).drop at') (lastLoad (ops.take at')) k s with
    | (.complete, k, s) => ringPass st js k s
    | r => r

/-- Streamed weights are laid into the reserve before the first step (R212, R353), plate by plate; check cells stay as they are. -/
def streamWeights (l : Layout) : Nat → Cmd → State → Stretch × Cmd × State
  | 0, k, s => (.complete, { k with pour := { k.pour with scanned := true } }, s)
  | n + 1, k, s =>
    if l.count ≤ k.pour.pos then (.complete, { k with pour := { k.pour with scanned := true } }, s)
    else
      let w (j kk n : Nat) : FElem := k.weight 1 kk (colStart k.span k.weightCols j + n)
      let lay (old : BitVec 520) (x : Nat) : BitVec 520 := BitVec.ofNat 520 (setBits old.toNat 0 320 x)
      match layPlate l k.pour.pos w lay (16 + ·) (List.range k.span) k s with
      | (.complete, k, s) => streamWeights l n { k with pour := { k.pour with pos := k.pour.pos + 1, counts := [] } } s
      | r => r

/-- The plates of the reserve in the fields of a streamed command, as its first pass is granted (R353). -/
def reserveOf (s : State) (k : Cmd) : Nat := match (partOfCluster s k.group).bind s.part? with
  | some p => p.rsv
  | none => 0

/-- Whether the placement that a command multiplies by has been found damaged (R347, R361). -/
def Cmd.damaged (k : Cmd) (s : State) (st : Stand) : Bool :=
  k.multiplies && k.resident && (match st.placement? k.hplc with | some p => isDamaged s p.entry | none => false)

/-- The steps of one pass of XMMA or XMMAC: 64 positions along K (R333); the tile takes its sums with the last. -/
def multiplySteps (s : State) (id : Nat) (k : Cmd) (st : Stand) : State :=
  match ringPass st (List.range k.span) k s with
  | (.held, k, s) => s.putCmd id (k.heldNow s)
  | (.faulty, k, s) => failCmd s id k 0x0C 0
  | (.complete, k, s) =>
    let k := { k with passes := k.passes + 1 }
    if k.passes < k.total then s.putCmd id k
    else
      match st.tile? k.hacc with
      | none => s.putCmd id k.finish
      | some t =>
        let (t, nanin, satd) := multiply k s st t
        let s := s.modStand (k.stand.getD 0) fun st => { st with tiles := Sparse.insert st.tiles k.hacc t }
        s.putCmd id { k.finish with nanin := nanin, satd := satd }

/-- One pass of a streamed command: the first one fixes the reserve, whose size a change may have left too small (R353), and lays the
weights there, which ends with 0x0C where a plate takes no writes (R355). -/
def streamedPass (s : State) (id : Nat) (k : Cmd) (st : Stand) : State :=
  let rsv := reserveOf s k
  let k := if k.started then k else { k with started := true, reserve := 2048 - rsv }
  let l := k.workLayout st
  let keys := k.fields.flatMap fun cl => (List.range l.count).map fun i => plateKey cl (l.first + i)
  if 2048 < l.first + l.count then failCmd s id k 0x04 0
  else if !s.allWritable keys then failCmd s id k 0x0C 0
  else if k.pour.scanned then multiplySteps s id k st
  else
    match streamWeights l (l.count + 1) k s with
    | (.complete, k, s) => multiplySteps s id k st
    | (_, k, s) => s.putCmd id (k.heldNow s)

/-- One pass of XMMA or XMMAC. A placement found damaged ends the command (R347, R361). -/
def multiplyPass (s : State) (id : Nat) (k : Cmd) (st : Stand) : State :=
  if k.damaged s st then failCmd s id k 0x0C 0
  else if k.resident then multiplySteps s id { k with started := true } st
  else streamedPass s id k st

/-! ### Draining (R216, R217) -/

/-- An element drained: its code in the output format, and whether it was clamped. -/
def drainElem (k : Cmd) (t : Tile) (out i j : Nat) : Nat × Bool :=
  let x := Sparse.getD t.elems (i * t.n + j) 0
  let fmt := (Fmt.ofCode out).getD .i32
  if t.float then
    let v := f32Fmt.val x.toNat
    let code := ofVal fmt .sat 0 v
    let eight := out == 10 || out == 11
    (if eight then code else ofVal fmt .ieee 0 v, eight && !v.isNaN && code != ofVal fmt .ieee 0 v)
  else
    let sum (field : Nat) (ix : Idx) : Int := match k.rec? field with
      | some r => signedOf 32 (r.raw k.byte ix)
      | none => 0
    let za := signedOf 32 (k.org 2)
    let zw := signedOf 32 (k.org 3)
    let one := k.recAddr 1 != 0
    let two := k.recAddr 2 != 0
    let v : Int := x.toInt - (if one then zw * sum 1 (idx2 0 i) else 0) - (if two then za * sum 2 (idx2 j 0) else 0) +
      (if one && two then (k.len : Int) * za * zw else 0)
    if k.recAddr 3 == 0 then
      if k.sat then (wrapTo 32 (satTo 32 true v), satTo 32 true v != v) else (wrapTo 32 v, false)
    else
      let e := packElems 8 (fun b => k.byte (k.recAddr 3 + 8 * j + b)) 8
      let p := v * signedOf 32 (bits e 0 32)
      let y := roundToInt 0 (decide (p < 0)) p.natAbs (-((bits e 32 6 : Nat) : Int)) + signedOf 16 (bits e 48 16)
      let z := satTo fmt.width (fmtSigned fmt) y
      (wrapTo fmt.width z, z != y)

/-- The tile rows of a pass: 16 of each field's part. -/
def passRows (k : Cmd) (p : Nat) : List Nat :=
  let part := partM k.span k.rows
  let rows := (List.range 16).filterMap fun r => if 16 * p + r < part then some (16 * p + r) else none
  if k.span == 4 then rows ++ rows.map (· + part) else rows

/-- The lines of a drain's output that a pass touches. -/
def Cmd.drainLines (k : Cmd) (r : Rec) (n p : Nat) : List Nat :=
  (touchLines (r.bytesOf ((passRows k p).flatMap fun i => (List.range n).map fun j => idx2 (k.org 1 + j) (k.org 0 + i)))).map (·.1)

/-- The elements of the first `n` passes of a drain, as stores to some virtual lines. -/
def Cmd.drainStores (k : Cmd) (t : Tile) (r : Rec) (n : Nat) (lines : List Nat) : List Store :=
  let rows := (List.range n).flatMap (passRows k ·)
  pokeStores (k.map.filter fun e => lines.contains e.1) (rows.flatMap fun i => (List.range t.n).map fun j =>
    r.poke (idx2 (k.org 1 + j) (k.org 0 + i)) (drainElem k t k.outCode i j).1)

/-- One pass of a drain: 16 tile rows. A line is handed over for writing in the last pass that touches it. -/
def drainPass (s : State) (id : Nat) (k : Cmd) (st : Stand) : State :=
  match st.tile? k.hacc with
  | none => s.putCmd id k.finish
  | some t =>
    let out := k.outCode
    let here := (passRows k k.passes).flatMap fun i => (List.range t.n).map fun j => drainElem k t out i j
    let k := { k with started := true, satd := k.satd || here.any (·.2) }
    let last := k.total ≤ k.passes + 1
    if k.kind == .xdrainReg then
      let w := codeWidth out
      let k := if last then { k.finish with result := ofElems w fun e => if e < t.m * t.n then (drainElem k t out (e / t.n) (e % t.n)).1 else 0 } else { k with passes := k.passes + 1 }
      s.putCmd id k
    else
      match k.rec? 0 with
      | none => s.putCmd id k.finish
      | some r =>
        let later := ((List.range k.total).filter (k.passes < ·)).flatMap (k.drainLines r t.n)
        let ready := (k.drainLines r t.n k.passes).filter fun l => !later.contains l
        let k := { k with out := k.out ++ k.drainStores t r (k.passes + 1) ready }
        s.putCmd id (if last then k.finish else { k with passes := k.passes + 1 })

/-- A killed drain at its boundary (R340, R341): the rows of the passes made are still written, those of lines that later passes would have
touched too, and the lines that it owns besides are released. -/
def Cmd.cutDrain (k : Cmd) (st : Stand) : Cmd :=
  let rest : List Store := match st.tile? k.hacc, k.rec? 0 with
    | some t, some r =>
      let later := ((List.range k.total).filter (k.passes ≤ ·)).flatMap (k.drainLines r t.n)
      k.drainStores t r k.passes ((((List.range k.passes).flatMap (k.drainLines r t.n)).eraseDups).filter later.contains)
    | _, _ => []
  { k with computed := true, cut := true, out := k.out ++ (if k.computed then [] else rest) }

/-- The lines that a command owns but will not write are released (R340). -/
def releaseIdle (s : State) (id : Nat) (k : Cmd) : State :=
  { s with owners := s.owners.filter fun e => e.2 != id || k.out.any fun x => x.line.key == e.1 }

/-- FIELD_COMMAND_END (R208). A killed command meets its boundary first (R340), and a multiplication whose placement is found damaged
while it holds its entry ends with 0x0C (R361). -/
def execFieldCommandEnd (cmd : Nat) (s : State) : Outcome State Fault Refusal :=
  match s.cmd? cmd with
  | none => .next s
  | some k =>
    if !k.kind.isField || k.kind == .pour then .next s
    else
      match k.stand.bind s.stand? with
      | none => done (endCommand s cmd k)
      | some st =>
        if k.killed && !k.cut then
          let k := k.cutDrain st
          done (releaseIdle (s.putCmd cmd k) cmd k)
        else if k.computed && k.code == 0 && k.damaged s st then done (failCmd s cmd k 0x0C 0)
        else done (endCommand s cmd k)

/-! ### The arbiter (R333) -/

/-- A pass of one command. A pour takes its pass step by step. A plate that has left service meanwhile ends the command (R355, R438). -/
def fieldPass (s : State) (id : Nat) (k : Cmd) (st : Stand) : State :=
  if k.kind != .pour && k.platesOut s st then failCmd s id k 0x0C 0
  else
  match k.kind with
  | .xplacePut => putPass s id k st
  | .xplaceBind => bindPass s id k st
  | .xevictKeep => keepPass s id k st
  | .xevictScrub => scrubPass s id k st
  | .xaccZero | .xaccLoad | .xaccFree => accPass s id k
  | .xmma | .xmmac => multiplyPass s id k st
  | .xdrain | .xdrainReg => drainPass s id k st
  | .pour => s.putCmd id { k with started := true, pour := { k.pour with left := 64 } }
  | _ => s

/-- The priority of a command in effect (R332, R333). -/
def effOf (s : State) (k : Cmd) : Nat :=
  let prio := ((k.stand.bind s.stand?).bind fun st => s.launch? st.launch).map (·.prio)
  min 3 (prio.getD 0 + (s.tick.toNat - k.since) / 4096)

/-- Whether a command is one of those that the arbiter of a field chooses from: its eligible entries. -/
def grantable (s : State) (cl : Nat) (id : Nat) (k : Cmd) : Bool :=
  k.kind.isField && k.cluster == cl && !k.computed && !k.killed && eligible s id k

/-- Whether a command has all that a pass needs. -/
def Cmd.ready (k : Cmd) : Bool := k.prepared && k.toOwn.isEmpty && k.toRead.isEmpty && (k.kind != .pour || k.pour.scanned)

/-- The entry that the arbiter chooses: largest eff, then earliest commit, then lowest core. -/
def chosenEntry (s : State) (cl : Nat) : Option (Nat × Cmd) :=
  s.cmds.foldl (fun best e =>
    if !grantable s cl e.1 e.2 then best
    else match best with
      | none => some e
      | some b =>
        let x := effOf s e.2
        let y := effOf s b.2
        if y < x || (x == y && (e.2.since < b.2.since || (e.2.since == b.2.since && e.2.core < b.2.core))) then some e else best) none

/-- The command that is granted a pass: the entry chosen, once it has all that the pass needs. -/
def granted (s : State) (cl : Nat) : Option (Nat × Cmd) := (chosenEntry s cl).filter fun e => e.2.ready

/-- FIELD_PASS_GRANT (R333): between passes, and while no withholding is in force (R440). -/
def execFieldPassGrant (cluster : Nat) (s : State) : Outcome State Fault Refusal :=
  if s.withheld then .next s
  else
    match granted s cluster with
    | none => .next s
    | some (id, k) =>
      match k.stand.bind s.stand? with
      | none => .next s
      | some st =>
        if (List.range k.span).any fun j => passUnderWay s (k.cluster / k.span * k.span + j) then .next s
        else done (fieldPass s id k st)

/-- RESERVATION_STALL (R206, step 3): while the table is full the instruction stands in place, and nothing changes. -/
def execReservationStall (gid : Nat) (s : State) : Outcome State Fault Refusal :=
  match ctxOf s gid with
  | some _ => .next s
  | none => .next s

/-! ### Migration (R334) -/

/-- Whether a field takes a streamed command: no pass under way, no eligible entry, a free entry, and the tile's units. -/
def takesCommand (s : State) (cl : Nat) (units : Nat) : Bool :=
  !passUnderWay s cl && !(s.cmds.any fun e => e.2.kind.isField && e.2.cluster == cl && eligible s e.1 e.2) && queueRoom s cl .xmma &&
    decide (units ≤ freeUnits s cl)

/-- COMMAND_MIGRATION: a streamed command of span 1 without a pass for 8,192 cycles moves to the first adjacent field that takes
it, and its tile with it. -/
def execCommandMigration (cmd cluster : Nat) (s : State) : Outcome State Fault Refusal :=
  match s.cmd? cmd with
  | none => .next s
  | some k =>
    match (k.stand.bind s.stand?).bind fun st => st.tile? k.hacc with
    | none => .next s
    | some t =>
      let near := (if k.cluster % 32 == 0 then [] else [k.cluster - 1]) ++ (if k.cluster % 32 == 31 then [] else [k.cluster + 1])
      let alone := !s.cmds.any fun e => e.1 != cmd && e.2.stand == k.stand && e.2.accHandle == some k.hacc
      if k.streamed && k.spanc == 0 && t.span == 1 && !k.started && !k.computed && 8192 ≤ s.tick.toNat - k.since && alone &&
          (near.find? fun c => takesCommand s c t.units.length) == some cluster then
        let units := takeTileUnits s cluster t.units.length
        let s := s.modStand (k.stand.getD 0) fun st => { st with tiles := Sparse.modify st.tiles k.hacc fun t => { t with home := cluster, units := units } }
        .next (s.putCmd cmd { k with cluster := cluster })
      else .next s

/-! ### The instructions -/

/-- XPLACE.put (R209). -/
def execXplacePut (o : Ops) (s : State) : Outcome State Fault Refusal := commandOp o .xplacePut s

/-- XPLACE.bind (R209). -/
def execXplaceBind (o : Ops) (s : State) : Outcome State Fault Refusal := commandOp o .xplaceBind s

/-- XEVICT.keep (R210). -/
def execXevictKeep (o : Ops) (s : State) : Outcome State Fault Refusal := commandOp o .xevictKeep s

/-- XEVICT.scrub (R210). -/
def execXevictScrub (o : Ops) (s : State) : Outcome State Fault Refusal := commandOp o .xevictScrub s

/-- XACC.zero (R211). -/
def execXaccZero (o : Ops) (s : State) : Outcome State Fault Refusal := commandOp o .xaccZero s

/-- XACC.load (R211). -/
def execXaccLoad (o : Ops) (s : State) : Outcome State Fault Refusal := commandOp o .xaccLoad s

/-- XACC.free (R211). -/
def execXaccFree (o : Ops) (s : State) : Outcome State Fault Refusal := commandOp o .xaccFree s

/-- XMMA (R214). -/
def execXmma (o : Ops) (s : State) : Outcome State Fault Refusal := commandOp o .xmma s

/-- XMMAC (R215). -/
def execXmmac (o : Ops) (s : State) : Outcome State Fault Refusal := commandOp o .xmmac s

/-- XDRAIN, memory form (R216). -/
def execXdrain (o : Ops) (s : State) : Outcome State Fault Refusal := commandOp o .xdrain s

/-- XDRAIN, register form (R217). -/
def execXdrainRegister (o : Ops) (s : State) : Outcome State Fault Refusal := commandOp o .xdrainReg s

/-- POUR (R222). -/
def execPour (o : Ops) (s : State) : Outcome State Fault Refusal := commandOp o .pour s

/-- What .clr clears of a status: with sel 0 all of it, with sel 1 the address alone (R218, R251). -/
def CmdStatus.cleared (x : CmdStatus) (sel : Nat) : CmdStatus :=
  if sel == 0 then .zero else if sel == 1 then { x with addr := none } else x

/-- The value that a status read gives (R218, R251). -/
def CmdStatus.select (x : CmdStatus) (sel pend free : Nat) : Nat :=
  if sel == 0 then x.word pend free else if sel == 1 then (x.addr.getD 0).toNat else 0

/-- XSTAT (R218): it stands in place until the field answers. -/
def execXstat (o : Ops) (s : State) : Outcome State Fault Refusal :=
  electing o s (fun c => c.pass s o) <| perform o s fun c => if c.r.stage == 3 then s else c.put s c.g (c.r.await (c.scalar o o.a))

/-- The answer to an XSTAT, which .clr clears after the read (R218). -/
def Ctx.fieldAnswer (c : Ctx) (s : State) (clear : Bool) : Nat × State :=
  let sel := c.r.query
  (c.st.field.select sel (pendOf s c.g.stand true) (freeUnits s (clusterOf c.core)),
    if clear then s.modStand c.g.stand fun st => { st with field := st.field.cleared sel } else s)

end Sys2Proof.Machine
end

