-- ==== Sys2Proof/Machine/Pour.lean ====
section
/-! DEFINITION. POUR (R222 to R235): block check, prescan and buffers, the gate steps of a schedule, and the end with RESULT. -/

namespace Sys2Proof.Machine

open Host (Outcome)

/-! ### The block (R223) -/

def Cmd.sched (k : Cmd) : Nat := blk k.block 1 0 56
def Cmd.lbuf (k : Cmd) : Nat := blk k.block 2 0 56
def Cmd.rbuf (k : Cmd) : Nat := blk k.block 3 0 56
def Cmd.lbn (k : Cmd) : Nat := blk k.block 4 0 32
def Cmd.rbn (k : Cmd) : Nat := blk k.block 4 32 32
def Cmd.plt0 (k : Cmd) : Nat := blk k.block 5 0 16
def Cmd.pltn (k : Cmd) : Nat := blk k.block 5 16 16
def Cmd.resultAt (k : Cmd) : Nat := k.addr + 0x38

/-- The positions of a gate: rows with AX = 0, columns with AX = 1 (R226). -/
def Cmd.positions (k : Cmd) (ax : Bool) : Nat × Nat :=
  if ax then (blk k.block 6 32 9, blk k.block 6 48 9) else (blk k.block 6 0 9, blk k.block 6 16 9)

/-- The block check of R232: 0, or the code. -/
def Cmd.pourCheck (k : Cmd) (st : Stand) : Nat :=
  let reserved := ([0, 1, 2, 3].any fun i => blk k.block i 56 8 != 0) || blk k.block 5 32 32 != 0 ||
    ([9, 25, 41, 57].any fun b => blk k.block 6 b 7 != 0)
  let (rlo, rhi) := k.positions false
  let (clo, chi) := k.positions true
  firstCode [(reserved || k.pltn == 0 || k.sched % 8 != 0 || k.lbuf % 64 != 0 || k.rbuf % 64 != 0, 0x01),
    (decide (rhi < rlo) || decide (chi < clo), 0x19), (badPlates st k.plt0 k.pltn, 0x04)]

/-! ### The prescan (R232) -/

/-- A G.REP block: its word, its first word, its length and its count. -/
structure Rep where
  word : Nat
  len : Nat
  count : Nat
  deriving DecidableEq, Repr

def Rep.holds (r : Rep) (i : Nat) : Bool := decide (r.word < i) && decide (i ≤ r.word + r.len)

def repsOf (ws : List Word) : List Rep :=
  ((List.range ws.length).zip ws).filterMap fun e => match decodeGate e.2 with
    | .rep c l => some { word := e.1, len := l, count := c }
    | _ => none

/-- The blocks that enclose a word, outermost first. -/
def around (reps : List Rep) (i : Nat) : List Rep := reps.filter (·.holds i)
def turns (rs : List Rep) : Nat := rs.foldl (fun n r => n * r.count) 1

def isRead (w : Word) : Bool := w.field 60 4 == 10

/-- The number of the last execution of a G.READ, counting from 0 over the whole pour (R232). -/
def lastRead (ws : List Word) (reps : List Rep) (i : Nat) : Nat :=
  ((List.range ws.length).zip ws).foldl (fun n e =>
    if !isRead e.2 then n
    else
      let total := turns (around reps e.1)
      let own := turns ((around reps e.1).filter fun r => !r.holds i)
      n + (if e.1 < i then total else total - own)) 0

/-- The lines that a gate reads and the one it writes: OUT, inputs, with G.IMP reading OUT (R227). -/
def gateLines (gop : Nat) (g : Gate) : List GLine × Option GLine :=
  match gop with
  | 1 => ([g.in1], some g.out)
  | 2 | 4 | 5 | 6 => ([g.in1, g.in2], some g.out)
  | 3 => ([g.in1, g.in2, g.in3], some g.out)
  | 7 => ([g.in1, g.out], some g.out)
  | 10 => ([g.in1], none)
  | _ => ([], some g.out)

/-- A pool as G.POOL declares it (R228). -/
structure Pool where
  ax : Bool
  base : Nat
  size : Nat
  allow : Nat
  deriving DecidableEq, Repr

def poolOf (ws : List Word) : Pool :=
  let w := ws.getD 0 0
  match decodeGate w with
  | .pool b a n => { ax := w.getLsbD 59, base := b, size := n, allow := a }
  | _ => { ax := false, base := 0, size := 0, allow := 0 }

def Pool.has (p : Pool) (line : Nat) : Bool := decide (p.base ≤ line) && decide (line < p.base + p.size)

/-- The faults of one word, in the order of R232: its code or 0. `done` is the index of G.END, if it has been found, and
`written` the logical lines written by earlier words. -/
def wordFault (k : Cmd) (ws : List Word) (reps : List Rep) (gend : Option Nat) (written : List Nat) (i : Nat) (w : Word) : Nat :=
  let p := poolOf ws
  let ax := w.getLsbD 59
  match decodeGate w with
  | .fault => 0x10
  | .gend => if i == 0 || ax then 0x10 else 0
  | .pool b _ n =>
    let (lo, hi) := k.positions (!ax)
    if i != 0 then 0x10
    else if 512 < b + n || (decide (lo < b + n) && decide (b ≤ hi)) then 0x11 else 0
  | .rep _ len =>
    let late := match gend with | some e => decide (e ≤ i + len) | none => false
    if i == 0 || ax then 0x10
    else if 4 ≤ (around reps i).length || late || (around reps i).any fun r => decide (r.word + r.len < i + len) then 0x13 else 0
  | .gate _ =>
    let g := gateFields w
    let gop := w.field 60 4
    let (ins, out) := gateLines gop g
    let all := ins ++ out.toList
    let axis := all.any fun l => if l.scratch then ax != p.ax else ax == p.ax && p.has l.idx.toNat
    firstCode [(i == 0, 0x10), (axis, 0x12), (ins.any fun l => l.scratch && !written.contains l.idx.toNat, 0x14),
      (gop == 11 && (k.lbuf == 0 || decide (k.lbn ≤ g.ops.toNat + turns (around reps i) - 1)), 0x15),
      (gop == 10 && (k.rbuf == 0 || decide (k.rbn ≤ lastRead ws reps i)), 0x16)]

/-- The first word of an image that faults, with its code. -/
def firstFault (k : Cmd) (ws : List Word) (reps : List Rep) (gend : Option Nat) : List (Nat × Word) → List Nat → Option (Nat × Nat)
  | [], _ => none
  | (i, w) :: l, written =>
    let c := wordFault k ws reps gend written i w
    if c != 0 then some (c, i)
    else
      let out := match decodeGate w with
        | .gate _ => (gateLines (w.field 60 4) (gateFields w)).2
        | _ => none
      firstFault k ws reps gend l (match out with
        | some x => if x.scratch then x.idx.toNat :: written else written
        | none => written)

def prescan (k : Cmd) (ws : List Word) (gend : Option Nat) : Option (Nat × Nat) :=
  firstFault k ws (repsOf ws) gend ((List.range ws.length).zip ws) []

/-- The load entries that the steps will use. -/
def entriesUsed (ws : List Word) : List Nat :=
  let reps := repsOf ws
  (((List.range ws.length).zip ws).flatMap fun e =>
    if e.2.field 60 4 == 11 then (List.range (turns (around reps e.1))).map fun n => (gateFields e.2).ops.toNat + n else []).eraseDups

/-- The reads that the whole pour makes. -/
def readsMade (ws : List Word) : Nat :=
  let reps := repsOf ws
  ((List.range ws.length).zip ws).foldl (fun n e => if isRead e.2 then n + turns (around reps e.1) else n) 0

/-- The read images made so far, as stores to the lines of the read buffer. -/
def Cmd.readStores (k : Cmd) : List Store :=
  pokeStores k.map (((List.range k.pour.reads.length).zip k.pour.reads).map fun e =>
    { va := k.rbuf + 64 * e.1, size := 64, nib := none, val := e.2.2.toNat })

/-- A pour ends with a code and WORDIX; RESULT and the completion word follow (R224, R225). It waits while the walk to its completion word
does. -/
def finishPour (s : State) (id : Nat) (k : Cmd) (code wordix addr : Nat) : State :=
  match (if k.sought then (some k, s) else k.findCplt s) with
  | (none, s) => s
  | (some k, s) =>
    let (code, addr) := if k.cplt.isNone && code != 0x0B then (0x0B, k.cpltAddr) else (code, addr)
    s.putCmd id { k with computed := true, prepared := true, code := code, faultAddr := addr, toOwn := [], toRead := [], asked := [],
                         out := k.readStores, pour := { k.pour with left := 0, faultAt := if code == 0x0B then 0xFFFF else wordix } }

/-- Whether a word is G.END, be it one with a fault. -/
def isEnd (w : Word) : Bool := w.field 60 4 == 0

/-- The words that the lines read so far give, up to G.END or 65,536. -/
def takeWords (k : Cmd) : Nat → List Word → List Word
  | 0, ws => ws
  | n + 1, ws =>
    let a := k.sched + 8 * ws.length
    match Sparse.find? k.lines (a / 128 * 128) with
    | none => ws
    | some d =>
      let w : Word := BitVec.ofNat 64 (lineBytes d (a % 128) 8)
      if isEnd w then ws ++ [w] else takeWords k n (ws ++ [w])

/-- The checks of a pour's plates before its first step, and then what is to be owned and read. -/
def startPour (s : State) (id : Nat) (k : Cmd) (st : Stand) (loads reads result : List (Nat × Nat)) : State :=
  let lost := k.platesLost s st
  if !lost.isEmpty then finishPour (reportPlates s k lost) id k 0x04 0xFFFF 0
  else if k.platesOut s st then finishPour s id k 0x0C k.pour.pos 0
  else if isEnd (k.pour.image.getD k.pour.pos 0) then finishPour s id k 0 k.pour.pos 0
  else
    s.putCmd id { k with map := loads ++ reads ++ result ++ k.map, toRead := loads.map (·.1), toOwn := (((reads ++ result).map (·.2)).eraseDups).filter fun pa => Sparse.find? s.owners pa != some id,
                         places := result.map fun e => (e.2, 0), lines := [], pour := { k.pour with scanned := true } }

/-- The pages of the buffers' used parts, of RESULT and of the completion word (R232). -/
def pourPages (s : State) (id : Nat) (k : Cmd) (st : Stand) : State :=
  let ws := k.pour.image
  let size := 64 * k.pltn
  let loads := touchLines ((entriesUsed ws).map fun e => (k.lbuf + e * size, size))
  let reads := touchLines (if readsMade ws == 0 then [] else [(k.rbuf, readsMade ws * size)])
  match reachLines k.cluster k.part k.asn .rd loads s with
  | (.held, s) => s
  | (.lost a, s) => finishPour s id k 0x0B 0xFFFF a
  | (.all lm, s) =>
    match reachLines k.cluster k.part k.asn .wr reads s with
    | (.held, s) => s
    | (.lost a, s) => finishPour s id k 0x0B 0xFFFF a
    | (.all rm, s) =>
      match reachLines k.cluster k.part k.asn .wr (touchLines [(k.resultAt, 8)]) s with
      | (.held, s) => s
      | (.lost a, s) => finishPour s id { k with pour := { k.pour with told := true } } 0x0B 0xFFFF a
      | (.all xm, s) =>
        match k.findCplt s with
        | (none, s) => s
        | (some k, s) => if k.cplt.isNone then finishPour s id k 0x0B 0xFFFF k.cpltAddr else startPour s id k st lm rm xm

/-- The lines of the read buffer, as far as the block declares it; of one of more than 65,536 images none, whose used lines the prescan finds
(DESIGN CHOICE). -/
def Cmd.readBuffer (k : Cmd) : List Nat :=
  let n := k.pltn * k.rbn
  if k.rbuf == 0 || 65536 < n then [] else (touchLines [(k.rbuf, 64 * n)]).map (·.1)

/-- The lines among some that a pour can write, each with its physical line: one whose page cannot be written is left for the checks that
follow. It waits while a walk does. -/
def Cmd.writable (k : Cmd) : List Nat → State → Option (List (Nat × Nat)) × State
  | [], s => (some [], s)
  | va :: vas, s =>
    match k.reach s va .wr with
    | (.held, s) => (none, s)
    | (r, s) =>
      match Cmd.writable k vas s with
      | (none, s) => (none, s)
      | (some m, s) => (some (match r with | .found pa => (va, pa / 128 * 128) :: m | _ => m), s)

/-- The lines that a pour is to own in one step, from when it reaches the field: that of RESULT and those of its read buffer (R234, R269). -/
def ownResult (s : State) (id : Nat) (k : Cmd) (st : Stand) : State :=
  let result := k.resultAt / 128 * 128
  match k.writable (result :: if k.pourCheck st == 0 then k.readBuffer.filter (· != result) else []) s with
  | (none, s) => s
  | (some m, s) =>
    s.putCmd id { k with passes := 1, map := m, toOwn := (m.map (·.2)).eraseDups,
                         places := (m.filter fun e => e.1 == result).map fun e => (e.2, 0) }

/-- Leaving a block at its end, or beginning its next turn (R230). -/
def Pour.leave (p : Pour) : Option Pour := match p.reps with
  | (first, len, count, turn) :: rs =>
    if p.pos < first + len then none
    else if turn + 1 < count then some { p with pos := first, reps := (first, len, count, turn + 1) :: rs }
    else some { p with reps := rs }
  | [] => none

/-- Passing a word that takes no step: G.POOL, or G.REP, which opens its block. -/
def Pour.enter (p : Pour) : Option Pour := match decodeGate (p.image.getD p.pos 0) with
  | .pool .. => some { p with pos := p.pos + 1 }
  | .rep c l => some { p with pos := p.pos + 1, reps := (p.pos + 1, l, c, 0) :: p.reps }
  | _ => none

/-- The place moves on to a gate step or to G.END. -/
def Pour.advance : Nat → Pour → Pour
  | 0, p => p
  | n + 1, p => match p.leave with
    | some q => Pour.advance n q
    | none => match p.enter with
      | some q => Pour.advance n q
      | none => p

/-- POUR_PRESCAN (R232): the lines to be written are owned, then come the block check, then the image line by line as it is read, then its
checks and the pages. -/
def execPourPrescan (cmd : Nat) (s : State) : Outcome State Fault Refusal :=
  match s.cmd? cmd with
  | none => .next s
  | some k =>
    match k.stand.bind s.stand? with
    | none => .next s
    | some st =>
      if k.kind != .pour || k.computed || k.killed || k.pour.scanned || !k.toOwn.isEmpty || !k.toRead.isEmpty || !eligible s cmd k then .next s
      else if k.passes == 0 then .next (ownResult s cmd k st)
      else
        let code := if k.prepared then 0 else k.pourCheck st
        if code != 0 then .next (finishPour s cmd k code 0xFFFF 0)
        else
          let ws := takeWords k 65536 k.pour.image
          let ws := ws.take 65536
          let last := ws.getLast?.any isEnd
          let k := { k with prepared := true, pour := { k.pour with image := ws } }
          let found (gend : Option Nat) (f : State) : State := match prescan k ws gend with
            | some (c, i) => finishPour s cmd k c i 0
            | none => f
          if last then
            let p := poolOf ws
            let start := Pour.advance 64 { k.pour with axis := p.ax, base := p.base, size := p.size, allow := p.allow }
            .next (found (some (ws.length - 1)) (pourPages s cmd { k with pour := start } st))
          else if ws.length == 65536 then .next (found none (finishPour s cmd k 0x17 0xFFFF 0))
          else
            let a := k.sched + 8 * ws.length
            match k.reach s a .rd with
            | (.held, s') => .next s'
            | (.lost, s') => .next (match prescan k ws none with
                | some (c, i) => finishPour s' cmd k c i 0
                | none => finishPour s' cmd k 0x0B 0xFFFF a)
            | (.found pa, s') =>
              .next (s'.putCmd cmd { k with map := (a / 128 * 128, pa / 128 * 128) :: k.map, toRead := [a / 128 * 128] })

/-! ### Gate steps -/

/-- The value that a gate writes, from its inputs and OUT as it was (R227). -/
def gateValue (gop : Nat) (x y z old : BitVec 512) : BitVec 512 :=
  match gop with
  | 1 => ~~~x
  | 2 => ~~~(x ||| y)
  | 3 => ~~~(x ||| y ||| z)
  | 4 => x ||| y
  | 5 => x &&& y
  | 6 => ~~~(x &&& y)
  | 7 => ~~~x ||| old
  | 9 => BitVec.allOnes 512
  | _ => 0

/-- The physical line of a line field, through the mapping in force (R229). -/
def Pour.line (p : Pour) (l : GLine) : Nat :=
  if l.scratch then ((p.lines.find? fun e => e.1 == l.idx.toNat).map (·.2)).getD 0 else l.idx.toNat

/-- The count of a pool line: the most attempts that one plate has made on it (R231). -/
def Pour.used (p : Pour) (line : Nat) : Nat := mostIn (Sparse.getD p.tally line [])

/-- Place of R229: the line that a write takes, a logical line moving to the lowest unused pool line when its own has no
allowance left; none where the pool is exhausted. -/
def Pour.place (p : Pour) (l : GLine) : Option (Nat × Pour) :=
  if !l.scratch then some (l.idx.toNat, p)
  else
    let s := l.idx.toNat
    let fresh : Option (Nat × Pour) :=
      (((List.range p.size).map (p.base + ·)).find? fun n => (Sparse.find? p.tally n).isNone).map fun n =>
        (n, { p with lines := (s, n) :: p.lines.filter fun e => e.1 != s })
    match p.lines.find? fun e => e.1 == s with
    | some (_, n) => if p.used n + 1 ≤ p.allow then some (n, p) else fresh
    | none => fresh

/-- Counting attempts on a pool line, by the plates that made them. -/
def Pour.wrote (p : Pour) (l : GLine) (line : Nat) (plates : List Nat) : Pour :=
  if l.scratch then
    { p with tally := Sparse.insert p.tally line (plates.foldl (fun m q => Sparse.insert m q (Sparse.getD m q 0 + 1)) (Sparse.getD p.tally line [])) }
  else p

/-- The flat iteration number of the enclosing blocks (R230). -/
def Pour.iteration (p : Pour) : Nat := p.reps.foldr (fun r n => n * r.2.2.1 + r.2.2.2) 0

/-- The line image of a load entry for pour plate `q` (R226). -/
def Cmd.loadImage (k : Cmd) (entry q : Nat) : BitVec 512 :=
  BitVec.ofNat 512 (packElems 8 (fun b => k.byte (k.lbuf + (entry * k.pltn + q) * 64 + b)) 64)

/-- The step is made: its count goes down, the place moves on, and at G.END the pour ends (R224). -/
def stepMade (s : State) (id : Nat) (k : Cmd) : State :=
  let p := Pour.advance 64 { k.pour with pos := k.pour.pos + 1, left := k.pour.left - 1 }
  let k := { k with pour := p }
  if isEnd (p.image.getD p.pos 0) then finishPour s id k 0 p.pos 0 else s.putCmd id k

/-- One gate step of a pour (R227, R229, R231, R348), the plates in ascending order. One that writes a plate worn meanwhile ends the pour
(R355). -/
def pourStep (s : State) (id : Nat) (k : Cmd) (st : Stand) (gop : Nat) (g : Gate) : State :=
  let p := k.pour
  let (lo, hi) := k.positions g.col
  let plates := (List.range k.pltn).map fun q => plateKey k.cluster (st.leased.base + k.plt0 + q)
  let sense (q : Nat) (l : GLine) : BitVec 512 := s.plateLine q g.col (p.line l)
  if gop != 10 && !s.allWritable plates then finishPour s id k 0x0C p.pos 0
  else if gop == 10 then
    let imgs := plates.map fun q => (p.pos, atPositions 0 (sense q g.in1) lo hi)
    stepMade (countField s k.cluster 0 1) id { k with pour := { p with reads := p.reads ++ imgs } }
  else
    match (if p.tries == 0 then p.place g.out else some (p.line g.out, p)) with
    | none => finishPour s id k 0x18 p.pos 0
    | some (line, placed) =>
      let value (e : Nat × Nat) : BitVec 512 :=
        if gop == 11 then k.loadImage (g.ops.toNat + p.iteration) e.1
        else gateValue gop (sense e.2 g.in1) (sense e.2 g.in2) (sense e.2 g.in3) (sense e.2 g.out)
      let todo := if p.tries == 0 then ((List.range k.pltn).zip plates).map fun e => (e.2, value e) else p.again
      let (r, retries, tried, s) := gateStep s g.col line lo hi p.tries todo
      let s := countField (if retries == 0 then s else countField s k.cluster 1 retries) k.cluster 0 1
      let after : Pour := { placed with retries := min 65535 (p.retries + retries) }
      match r with
      | .held 0 _ => (countField s k.cluster 3 1).putCmd id ({ k with pour := { p with left := 0 } }.heldNow s)
      | .held t l =>
        (countField s k.cluster 3 1).putCmd id ({ k with pour := { after.wrote g.out line tried with left := 0, tries := t, again := l } }.heldNow s)
      | .faulty ps =>
        finishPour (ps.foldl (fun s q => plateLeaves s q 3) s) id { k with pour := after.wrote g.out line tried } 0x0C p.pos 0
      | .made => stepMade s id { k with pour := { after.wrote g.out line tried with tries := 0, again := [] } }

/-- A gate step named by its word: the pour has been granted a pass, and the word stands at its place. -/
def gateEvent (cmd gop : Nat) (g : Gate) (s : State) : Outcome State Fault Refusal :=
  match s.cmd? cmd with
  | none => .next s
  | some k =>
    match k.stand.bind s.stand? with
    | none => .next s
    | some st =>
      let w := k.pour.image.getD k.pour.pos 0
      if k.kind != .pour || k.computed || k.killed || k.pour.left == 0 || w.field 60 4 != gop || gateFields w != g then .next s
      else done (pourStep s cmd k st gop g)

/-- G.NOT (R227). -/
def execGNot (cmd : Nat) (g : Gate) (s : State) : Outcome State Fault Refusal := gateEvent cmd 1 g s

/-- G.NOR2 (R227). -/
def execGNor2 (cmd : Nat) (g : Gate) (s : State) : Outcome State Fault Refusal := gateEvent cmd 2 g s

/-- G.NOR3 (R227). -/
def execGNor3 (cmd : Nat) (g : Gate) (s : State) : Outcome State Fault Refusal := gateEvent cmd 3 g s

/-- G.OR2 (R227). -/
def execGOr2 (cmd : Nat) (g : Gate) (s : State) : Outcome State Fault Refusal := gateEvent cmd 4 g s

/-- G.AND2 (R227). -/
def execGAnd2 (cmd : Nat) (g : Gate) (s : State) : Outcome State Fault Refusal := gateEvent cmd 5 g s

/-- G.NAND2 (R227). -/
def execGNand2 (cmd : Nat) (g : Gate) (s : State) : Outcome State Fault Refusal := gateEvent cmd 6 g s

/-- G.IMP (R227). -/
def execGImp (cmd : Nat) (g : Gate) (s : State) : Outcome State Fault Refusal := gateEvent cmd 7 g s

/-- G.SET0 (R227). -/
def execGSet0 (cmd : Nat) (g : Gate) (s : State) : Outcome State Fault Refusal := gateEvent cmd 8 g s

/-- G.SET1 (R227). -/
def execGSet1 (cmd : Nat) (g : Gate) (s : State) : Outcome State Fault Refusal := gateEvent cmd 9 g s

/-- G.READ (R226, R227). -/
def execGRead (cmd : Nat) (g : Gate) (s : State) : Outcome State Fault Refusal := gateEvent cmd 10 g s

/-- G.LOAD (R226, R230). -/
def execGLoad (cmd : Nat) (g : Gate) (s : State) : Outcome State Fault Refusal := gateEvent cmd 11 g s

/-! ### The end (R224, R225) -/

/-- RESULT of a pour. A pour that took no step reports no retries and no line. -/
def Cmd.resultWord (k : Cmd) : Nat :=
  k.code + k.pour.faultAt % 2 ^ 16 * 2 ^ 16 + k.pour.tally.length % 2 ^ 8 * 2 ^ 32 + min k.pour.retries 65535 * 2 ^ 48

/-- Whether a store of a pour goes with RESULT: it is for the line that holds it. -/
def Cmd.withResult (k : Cmd) (x : Store) : Bool := k.kind == .pour && !k.killed && !k.pour.told && k.places.any fun p => x.line.key == p.1

/-- RESULT as a store, with the read images of its line (R269: one write for each line). -/
def Cmd.resultStore (k : Cmd) (pa : Nat) : List Store :=
  let images := k.out.filter k.withResult
  (linesOf (.mem pa) k.resultAt 8 k.resultWord 1).map fun x =>
    { x with data := mergeLine (overlay 0 x.line images) x.data x.mask, mask := x.mask ||| coverage x.line images }

/-- A killed pour at its step boundary (R235, R340, R364): the images read are still written, RESULT is not. -/
def Cmd.cutPour (k : Cmd) : Cmd :=
  { k with computed := true, cut := true, out := if k.computed then k.readStores.filter fun x => k.out.any fun y => y.line == x.line else k.readStores, pour := { k.pour with told := true } }

/-- How a pour ends that a line has failed in the prescan: the first faulting word before it decides, where there is one (R232). -/
def Cmd.endingOf (k : Cmd) : Nat × Nat × Nat := match prescan k k.pour.image none with
  | some (c, i) => (c, i, 0)
  | none => (k.code, k.pour.faultAt, k.faultAddr)

/-- Whether a pour has failed before its completion word was looked for: at a line of its image. -/
def Cmd.failedEarly (k : Cmd) : Bool := !k.sought && !k.pour.scanned && (k.code == 0x0E || k.code == 0x22)

/-- A read image that is to go with RESULT into a poisoned line, which it does not fill (R232, R382). -/
def poisonedResult (s : State) (k : Cmd) : Option Store := k.out.find? fun x => k.withResult x && !wholeLine x.mask && homePoisoned s x.line

/-- POUR_END: once every read image is written, RESULT is, and then the pour ends. -/
def execPourEnd (cmd : Nat) (s : State) : Outcome State Fault Refusal :=
  match s.cmd? cmd with
  | none => .next s
  | some k =>
    if k.kind != .pour then .next s
    else if k.killed && !k.cut then
      let k := k.cutPour
      done (releaseIdle (s.putCmd cmd k) cmd k)
    else if !k.computed then .next s
    else if k.pour.told then done (endCommand s cmd k)
    else if k.failedEarly then
      let (code, wordix, addr) := k.endingOf
      .next (finishPour s cmd k code wordix addr)
    else if !writesApplied s cmd { k with out := k.out.filter fun x => !k.withResult x } then .next s
    else
      let told (k : Cmd) : Cmd := { k with pour := { k.pour with told := true } }
      match poisonedResult s k with
      | some x => .next (failCmd s cmd k 0x0E x.va)
      | none =>
        match k.places with
        | (line, _) :: _ => .next (s.putCmd cmd (told { k with out := k.resultStore (line + k.resultAt % 128) }))
        | [] =>
          match k.reach s k.resultAt .wr with
          | (.held, s) => .next s
          | (.found pa, s) => .next (s.putCmd cmd (told { k with out := k.resultStore pa }))
          | (.lost, s) =>
            done (s.putCmd cmd (told { k with code := 0x0B, faultAddr := if k.code == 0x0B then k.faultAddr else k.resultAt }))

end Sys2Proof.Machine
end

