-- ==== Sys2Proof/Machine/Engine.lean ====
section
/-! DEFINITION. The engines of major 0x14: copies, gathers and scatters (R239, R240), collectives (R241, R242), near-memory
expressions (R243 to R246, R273, R375), nodes (R247), and the steps of their agents (R269). -/

namespace Sys2Proof.Machine

open Host (Outcome)

/-! ### CPY, GATH and SCAT -/

def Cmd.isCopy (k : Cmd) : Bool := k.kind == .cpy || k.kind == .gath || k.kind == .scat

/-- Half `h` of word `i` of a block. -/
def Cmd.half (k : Cmd) (i h : Nat) : Nat := blk k.block i (32 * h) 32

def Cmd.oi (k : Cmd) (d : Nat) : Nat := k.half 4 d
def Cmd.oo (k : Cmd) (d : Nat) : Nat := k.half 5 d
def Cmd.ext (k : Cmd) (d : Nat) : Nat := k.half 6 d
def Cmd.adds (k : Cmd) : Bool := k.kind == .scat && blk k.block 7 0 1 == 1

/-- The record fields of an engine command: input, output, and for GATH and SCAT the index (R239, R241). -/
def Cmd.engineRecs (k : Cmd) : List Nat := match k.kind with
  | .gath | .scat => [0, 1, 2]
  | .cpy | .coll => [0, 1]
  | _ => []

/-- Whether R50 defines the conversion of elements of one storage format into another. -/
def converts : SFmt → SFmt → Bool
  | .fmt _, .fmt _ => true
  | .bfp a, .bfp b => a == b
  | .lns, .lns => true
  | .bfp _, .fmt f => f == .f32 || f == .f16 || f == .bf16
  | .lns, .fmt f => f == .f32
  | .fmt f, _ => (floatFmt f).isSome
  | _, _ => false

def recOr (r : Option Rec) : Rec := r.getD (Rec.parse [])

/-- 0x01 of an engine command's records and block; `spare` says that a reserved bit is set. -/
def Cmd.badEngine (k : Cmd) (spare : Bool) : Bool :=
  spare || ([0, 1, 2, 3].any fun i => blk k.block i 56 8 != 0) || k.cpltAddr == 0 || k.cpltAddr % 8 != 0 ||
    k.engineRecs.any fun i => k.recAddr i == 0 || k.recAddr i % 64 != 0 || (match k.rec? i with | some r => r.malformed | none => true)

/-- The checks of a copy (R237, R239, R240). SADD into a block format, for which no addition is defined, gives 0x08 (DESIGN CHOICE, log
entry 160). -/
def Cmd.copyCheck (k : Cmd) : Nat :=
  let a := recOr (k.rec? 0)
  let b := recOr (k.rec? 1)
  let x := recOr (k.rec? 2)
  let indexed := k.kind != .cpy
  let spare := blk k.block 7 1 63 != 0 || (k.kind != .scat && blk k.block 7 0 1 != 0) || (k.kind == .cpy && k.recAddr 2 != 0)
  let unaligned := (a.block || b.block) && (k.oi 0 % 16 != 0 || k.oo 0 % 16 != 0 || k.ext 0 % 16 != 0)
  let rows := k.kind != .gath
  firstCode [(k.badEngine spare, 0x01), (k.ext 0 == 0 || k.ext 1 == 0, 0x02),
    (!converts a.fmt b.fmt || (k.adds && b.block) || (indexed && !(x.code == 1 || x.code == 2)), 0x08),
    (unaligned || decide (a.dim 0 < k.oi 0 + k.ext 0) || decide (b.dim 0 < k.oo 0 + k.ext 0) ||
      (rows && (decide (a.dim 1 < k.oi 1 + k.ext 1) || decide (b.dim 1 < k.oo 1 + k.ext 1))) || (indexed && decide (x.dim 0 < k.ext 1)), 0x0A)]

/-- Row `r` of a copy: the input and output rows, each none where it lies beyond its record. -/
def Cmd.copyRow (k : Cmd) (r : Nat) : Option Nat × Option Nat :=
  let a := recOr (k.rec? 0)
  let b := recOr (k.rec? 1)
  let x := recOr (k.rec? 2)
  let within (n : Int) (d : Nat) : Option Nat := if 0 ≤ n ∧ n < d then some n.toNat else none
  let index : Int := x.int k.byte (idx2 r 0)
  let din : Int := if k.kind == .gath then index else r
  let dout : Int := if k.kind == .scat then index else r
  (within (din + k.oi 1) (a.dim 1), within (dout + k.oo 1) (b.dim 1))

def Cmd.copyRows (k : Cmd) : List (Option Nat × Option Nat) := (List.range (k.ext 1)).map k.copyRow

/-- The elements of a row's part of a record. -/
def rowPart (o n row : Nat) : List Idx := (List.range n).map fun c => idx2 (o + c) row

/-- The bytes that a copy reads, and those that it writes; a scatter that adds reads those too. -/
def Cmd.copyInputs (k : Cmd) : List (Nat × Nat) :=
  let a := recOr (k.rec? 0)
  k.copyRows.flatMap fun e => match e with
    | (some i, some _) => a.bytesOf (rowPart (k.oi 0) (k.ext 0) i)
    | _ => []
/-- The bytes of one output row. -/
def Cmd.rowBytes (k : Cmd) (o : Nat) : List (Nat × Nat) := (recOr (k.rec? 1)).bytesOf (rowPart (k.oo 0) (k.ext 0) o)
def Cmd.copyOutputs (k : Cmd) : List (Nat × Nat) :=
  k.copyRows.flatMap fun e => match e with
    | (some _, some o) => k.rowBytes o
    | (none, some o) => if k.kind == .gath then k.rowBytes o else []
    | _ => []

/-- Whether 16 values clamp as they become one block: the exponent, or a mantissa (R52, R57). -/
def blockClamps (f : SFmt) (vs : List Val) : Bool :=
  if nanBlock vs then false
  else match maxLog2 vs, f with
    | some l, .bfp m =>
      let E : Int := min (max (l + 128) 0) 254
      E != l + 128 || vs.any fun v => match v with
        | .fin n k e => let y := roundToInt 0 n k (e + 127 + (m - 1) - E); satTo m true y != y
        | _ => false
    | some l, .lns => decide (l + 124 < 0) || decide (254 < l + 124)
    | _, _ => false

/-- One element converted, with whether it was clamped (R240). -/
def convertTo (f : Fmt) (v : Val) : Nat × Bool :=
  match floatFmt f with
  | some _ =>
    let eight := f == .e4m3 || f == .e5m2
    let x := ofVal f (satOverflow f) 0 v
    (x, eight && !v.isNaN && x != ofVal f .ieee 0 v)
  | none => (wrapTo f.width (v.toInt 0 f.width (fmtSigned f)), v.clamps 0 f.width (fmtSigned f))

/-- A block copied as it stands: its stored bits and its exponent. -/
def sameBlock (a b : Rec) (rd : Nat → Nat) (i o : Idx) : List Poke :=
  let m := b.fmt.width
  [{ va := b.bitAt o / 8, size := 2 * m, nib := none, val := packElems m (fun t => a.raw rd (idx2 (i.getD 0 0 + t) (i.getD 1 0))) 16 },
   { va := b.expAt o, size := 1, nib := none, val := rd (a.expAt i) }]

/-- The pokes of one row, input row `i` or zeros, to output row `o`, with whether an element was clamped. `cur` gives the value
that an output element has by then. -/
def Cmd.rowPokes (k : Cmd) (cur : Idx → Nat) (i : Option Nat) (o : Nat) : List (Idx × Poke) × Bool :=
  let a := recOr (k.rec? 0)
  let b := recOr (k.rec? 1)
  let same := a.code == b.code
  if b.block then
    let blocks := (List.range (k.ext 0 / 16)).map fun q =>
      let out := idx2 (k.oo 0 + 16 * q) o
      match i with
      | none => ((b.pokeBlock out (List.replicate 16 (.fin false 0 0))).map fun p => (out, p), false)
      | some row =>
        if same then ((sameBlock a b k.byte (idx2 (k.oi 0 + 16 * q) row) out).map fun p => (out, p), false)
        else
          let vs := (List.range 16).map fun t => a.val k.byte (idx2 (k.oi 0 + 16 * q + t) row)
          ((b.pokeBlock out vs).map fun p => (out, p), blockClamps b.fmt vs)
    (blocks.flatMap (·.1), blocks.any (·.2))
  else
    let xs := (List.range (k.ext 0)).map fun c =>
      let out := idx2 (k.oo 0 + c) o
      let (x, clamped) := match i, b.fmt with
        | some row, .fmt f =>
          let src := idx2 (k.oi 0 + c) row
          if same then (a.raw k.byte src, false) else convertTo f (a.val k.byte src)
        | _, _ => (0, false)
      let y := if k.adds then (match b.fmt with | .fmt f => scAdd f (cur out) x | _ => x) else x
      ((out, b.poke out y), clamped)
    (xs.map (·.1), xs.any (·.2))

/-- All rows in ascending order, later ones over earlier ones (R240). -/
def Cmd.copyPokes (k : Cmd) : List (Option Nat × Option Nat) → Sparse Nat → List Poke → Bool → List Poke × Bool
  | [], _, acc, sat => (acc, sat)
  | (i, some o) :: rest, now, acc, sat =>
    if i.isNone && k.kind != .gath then k.copyPokes rest now acc sat
    else
      let b := recOr (k.rec? 1)
      let cur (x : Idx) : Nat := (Sparse.find? now (b.order x)).getD (b.raw k.byte x)
      let (ps, clamped) := k.rowPokes cur i o
      let now := if k.adds then ps.foldl (fun m p => Sparse.insert m (b.order p.1) p.2.val) now else now
      k.copyPokes rest now (acc ++ ps.map (·.2)) (sat || clamped)
  | (_, none) :: rest, now, acc, sat => k.copyPokes rest now acc sat

/-- Whether the additions of a scatter to the host or to a linked device are made there, each in one step at the home (R240). -/
def Cmd.addsAway (k : Cmd) : Bool := k.adds && (match (recOr (k.rec? 1)).fmt with | .fmt _ => true | _ => false)

/-- The physical line of a virtual one, where the home is the host or a linked device. -/
def Cmd.away (k : Cmd) (va : Nat) : Option Nat :=
  ((k.map.find? fun e => e.1 == va / 128 * 128).map (·.2)).filter fun pa => isRemote (.mem pa)

/-- Those additions in order: `acc` is the row of each. -/
def Cmd.additions (k : Cmd) : List Atom :=
  if !k.addsAway then []
  else
    let a := recOr (k.rec? 0)
    let b := recOr (k.rec? 1)
    ((List.range (k.ext 1)).zip k.copyRows).flatMap fun e => match e.2, b.fmt with
      | (some row, some o), .fmt f =>
        (List.range (k.ext 0)).filterMap fun c =>
          let src := idx2 (k.oi 0 + c) row
          let x := if a.code == b.code then a.raw k.byte src else (convertTo f (a.val k.byte src)).1
          let p := b.poke (idx2 (k.oo 0 + c) o) 0
          let op : AtomOp := match p.nib with
            | some hi => .nibble f hi
            | none => if (floatFmt f).isSome then .fadd f else .add
          (k.away p.va).map fun pa =>
            { id := 0, core := k.core, gid := none, acc := e.1, elem := c, loc := .mem (pa + p.va % 128), width := max 8 f.width,
              op := op, operand := x, compare := 0, part := k.part, asn := k.asn, node := 0, last := false }
      | _, _ => []

/-- The lines that a copy writes itself. -/
def Cmd.ownMap (k : Cmd) : List (Nat × Nat) := if k.addsAway then k.map.filter fun e => !isRemote (.mem e.2) else k.map

def Cmd.copyComputed (k : Cmd) : Cmd :=
  let rows := k.copyRows
  let (ps, sat) := k.copyPokes rows [] [] false
  let outside := rows.any fun e => e.1.isNone || e.2.isNone
  { k with computed := true, out := pokeStores k.ownMap ps, toAdd := k.additions, satd := sat, code := if outside then 0x20 else k.code }

/-- Whether a copy has written a line of a row, or sent an addition of it. -/
def Cmd.rowBegun (k : Cmd) (r : Nat) (o : Option Nat) : Bool := match o with
  | some o => ((touchLines (k.rowBytes o)).any fun l => k.wrote.contains l.1) ||
      (k.addsAway && decide ((k.toAdd.filter fun a => a.acc == r).length < (k.additions.filter fun a => a.acc == r).length))
  | none => false

/-- A killed copy at its row boundary (R238, R340): of the lines that are left, only the bytes of rows begun are still written. -/
def Cmd.cutCopy (k : Cmd) : Cmd :=
  let rows := ((List.range (k.ext 1)).zip k.copyRows).filter fun e => k.rowBegun e.1 e.2.2
  let left := k.ownMap.filter fun e => k.out.any fun x => x.line.key == e.2
  { k with cut := true, out := pokeStores left (k.copyPokes (rows.map (·.2)) [] [] false).1
           toAdd := k.toAdd.filter fun a => rows.any fun e => e.1 == a.acc }

/-! ### Preparing an engine command -/

/-- The block of a command that the graph walker or a packet starts: its line is read as engines read, and the block taken
from it (R248, R407). -/
def fetchBlock (s : State) (id : Nat) (k : Cmd) (a : Nat) : State :=
  let line := a / 128 * 128
  match Sparse.find? k.lines line with
  | some d => s.putCmd id { k with fetch := none, addr := a, block := (List.range 8).map fun i => BitVec.ofNat 64 (lineBytes d (a % 128 + 8 * i) 8), lines := [], map := [] }
  | none =>
    if a % 64 != 0 then failCmd s id { k with fetch := none } 0x01 0
    else
      match k.reach s a .rd with
      | (.held, s) => s
      | (.lost, s) => failCmd s id { k with fetch := none } 0x0B a
      | (.found pa, s) => s.putCmd id { k with map := [(line, pa / 128 * 128)], toRead := [line] }

/-- The pages of a command's inputs, of what it adds to, of its outputs and its completion word, and what is to be owned and read. -/
def engineGo (s : State) (id : Nat) (k : Cmd) (ins adds outs : List (Nat × Nat)) : State :=
  match reachLines k.cluster k.part k.asn .rd (touchLines (ins ++ adds)) s with
  | (.held, s) => s
  | (.lost a, s) => endEarly s id k 0x0B a
  | (.all rm, s) =>
    match reachLines k.cluster k.part k.asn .wr (touchLines outs) s with
    | (.held, s) => s
    | (.lost a, s) => endEarly s id k 0x0B a
    | (.all wm, s) =>
      match k.findCplt s with
      | (none, s) => s
      | (some k, s) =>
        if k.cplt.isNone && k.cpltAddr != 0 then failCmd s id k 0x0B k.cpltAddr
        else
          let needed := (touchLines ins).map (·.1)
          let read (e : Nat × Nat) : Bool := (needed.contains e.1 || !(k.addsAway && isRemote (.mem e.2))) && (k.adds || (Sparse.find? k.lines e.1).isNone)
          s.putCmd id { k with prepared := true, map := rm ++ wm ++ k.map, toOwn := (wm.map (·.2)).eraseDups, toRead := (rm.filter read).map (·.1) }

/-- The records of an engine command read and its checks made; then `next` goes on with them. -/
def withRecords (s : State) (id : Nat) (k : Cmd) (check : Cmd → Nat) (next : State → Cmd → State) : State :=
  let fields := k.engineRecs.filter fun i => k.recAddr i != 0
  match recordPages k fields s with
  | (.wait, s) => s
  | (.failed c a, s) => endEarly s id k c a
  | (.read _, s) =>
    match readRecords k fields k.recsOr s with
    | (.wait, s) => s
    | (.failed c a, s) => endEarly s id k c a
    | (.read recs, s) =>
      let k := { k with recs := recs }
      let c := check k
      if c != 0 then endEarly s id k c 0 else next s k

/-- Asking for the lines of some inputs before the others are known. -/
def askLines (s : State) (id : Nat) (k : Cmd) (ins : List (Nat × Nat)) : State :=
  match reachLines k.cluster k.part k.asn .rd (touchLines ins) s with
  | (.held, s) => s
  | (.lost a, s) => endEarly s id k 0x0B a
  | (.all m, s) => s.putCmd id { k with started := true, map := m ++ k.map, toRead := m.map (·.1) }

/-- A copy: the index of a GATH or SCAT is read before the rows are known. -/
def prepareCopy (s : State) (id : Nat) (k : Cmd) : State :=
  if !k.started && k.kind != .cpy then
    withRecords s id k Cmd.copyCheck fun s k => askLines s id k ((recOr (k.rec? 2)).bytesOf ((List.range (k.ext 1)).map fun r => idx2 r 0))
  else
    let go (s : State) (k : Cmd) : State := engineGo s id k k.copyInputs (if k.adds then k.copyOutputs else []) k.copyOutputs
    if k.kind == .cpy then withRecords s id k Cmd.copyCheck go else go s k

/-! ### COLL -/

def Cmd.team (k : Cmd) : Nat := k.recAddr 2
def Cmd.collOp (k : Cmd) : Nat := blk k.block 4 32 4
def Cmd.collRop (k : Cmd) : Nat := blk k.block 4 36 2
def Cmd.root (k : Cmd) : Nat := blk k.block 4 48 16
def Cmd.tag (k : Cmd) : Nat := blk k.block 4 0 32

/-- A word of the team table, once its line has been read (R241). -/
def Cmd.teamWord (k : Cmd) (i : Nat) : Nat := packElems 8 (fun b => k.byte (k.team + 8 * i + b)) 8
def Cmd.teamSize (k : Cmd) : Nat := bits (k.teamWord 0) 0 16
def Cmd.rank (k : Cmd) : Nat := bits (k.teamWord 0) 16 16
def Cmd.members (k : Cmd) : List Nat := (List.range k.teamSize).map fun i => bits (k.teamWord (1 + i)) 0 16

/-- The checks that need no team table. -/
def Cmd.collCheck (k : Cmd) : Nat :=
  let a := recOr (k.rec? 0)
  let b := recOr (k.rec? 1)
  let spare := blk k.block 4 38 10 != 0 || [5, 6, 7].any fun i => blk k.block i 0 64 != 0
  let fmt := a.code == 1 || a.code == 7 || a.code == 8 || a.code == 9
  firstCode [(k.badEngine spare || 3 < k.collOp || k.collRop == 3 || k.team % 8 != 0 || k.team == 0, 0x01),
    (a.layout != 1 || b.layout != 1 || !fmt || a.code != b.code, 0x08)]

/-- The checks of the team table and of the element counts (R241, R242). -/
def Cmd.teamCheck (k : Cmd) (nodeId : Nat) : Nat :=
  let a := recOr (k.rec? 0)
  let b := recOr (k.rec? 1)
  let n := k.teamSize
  let c := a.count
  let need := match k.collOp with
    | 0 | 1 => c
    | 2 => n * c
    | _ => c / n
  firstCode [(decide (n ≤ k.rank) || k.members.getD k.rank 0x10000 != nodeId || (k.collOp == 0 && decide (n ≤ k.root)), 0x01),
    (b.count != need || (k.collOp == 3 && c % n != 0) || decide (2 ^ 24 < need * (a.fmt.width / 8)), 0x02)]

/-- A collective: the size of the team, then its members, then the inputs. `passes` counts these stages. -/
def prepareColl (s : State) (id : Nat) (k : Cmd) : State :=
  if k.passes == 0 then withRecords s id k Cmd.collCheck fun s k => askLines s id { k with passes := 1 } [(k.team, 8)]
  else if k.passes == 1 then
    if k.teamSize < 2 || 1024 < k.teamSize then endEarly s id k 0x01 0
    else askLines s id { k with passes := 2 } [(k.team, 8 * (k.teamSize + 1))]
  else
    let c := k.teamCheck s.host.nodeid.toNat
    if c != 0 then endEarly s id k c 0
    else
      let a := recOr (k.rec? 0)
      let b := recOr (k.rec? 1)
      engineGo s id { k with started := false } [(a.base, a.count * a.fmt.width / 8)] [] [(b.base, b.count * b.fmt.width / 8)]

/-- What a member contributes (R242). -/
def Cmd.contribution (k : Cmd) : Contribution :=
  let a := recOr (k.rec? 0)
  { tag := k.tag, rank := k.rank, descriptor := BitVec.ofNat 64 (k.collOp + k.collRop * 2 ^ 4 + a.code * 2 ^ 8 + a.count * 2 ^ 16), members := k.members
    elements := (List.range a.count).map fun n => BitVec.ofNat 64 (a.raw k.byte (a.unorder n)) }

/-- Sending the contribution to every other member; a member that no route reaches ends the command (R242). -/
def sendContribution (s : State) (id : Nat) (k : Cmd) : State :=
  let c := k.contribution
  let others := ((List.range k.teamSize).zip k.members).filter fun e => e.1 != k.rank
  let ports := others.map fun e => (e.2, routePort s e.2)
  if ports.any fun e => match e.2 with | some p => (Sparse.getD s.ports p .idle).down | none => true then failCmd s id k 0x22 0
  else
    let s := ports.foldl (fun s e => match e.2 with | some p => send s (4 * k.cluster) p (.contribution e.1 c) | none => s) s
    s.putCmd id { k with started := true, contributions := [c] }

/-- One step of a reduction (R242). -/
def reduceStep (code rop x y : Nat) : Nat :=
  match Fmt.ofCode code with
  | none => x
  | some f =>
    match floatFmt f, rop with
    | some g, 0 => fadd g 0 x y
    | some g, 1 => opVal2 g 0 Val.min x y
    | some g, _ => opVal2 g 0 Val.max x y
    | none, 0 => addElem f.width x y
    | none, 1 => minElem f.width (fmtSigned f) x y
    | none, _ => maxElem f.width (fmtSigned f) x y

/-- The elements that the member writes (R242). -/
def Cmd.collResult (k : Cmd) : List Nat :=
  let a := recOr (k.rec? 0)
  let n := k.teamSize
  let of (r : Nat) : List Word := ((k.contributions.find? fun c => c.rank == r).map (·.elements)).getD []
  let elem (r e : Nat) : Nat := ((of r).getD e 0).toNat
  let reduced (e : Nat) : Nat := ((List.range n).drop 1).foldl (fun x r => reduceStep a.code k.collRop x (elem r e)) (elem 0 e)
  match k.collOp with
  | 0 => (List.range a.count).map (elem k.root ·)
  | 1 => (List.range a.count).map reduced
  | 2 => (List.range n).flatMap fun r => (List.range a.count).map (elem r ·)
  | _ => (List.range (a.count / n)).map fun e => reduced (k.rank * (a.count / n) + e)

/-- COLL_CONTRIBUTION_ARRIVAL (R242): a contribution that has come over the links reaches its command. When all are there and
disagree, the command ends with 0x21. -/
def execCollContributionArrival (cmd member : Nat) (s : State) : Outcome State Fault Refusal :=
  match s.cmd? cmd with
  | none => .next s
  | some k =>
    if k.kind != .coll || !k.started || k.computed then .next s
    else
      match s.mailbox.find? fun c => c.tag == k.tag && c.rank == member && c.members == k.members with
      | none => .next s
      | some c =>
        if k.contributions.any fun d => d.rank == member then .next s
        else
          let k := { k with contributions := k.contributions ++ [c] }
          let s := tell { s with mailbox := s.mailbox.erase c } hubDie (k.cluster / 32)
          let whole := k.contributions.length == k.teamSize
          if whole && k.contributions.any fun d => d.descriptor != c.descriptor then .next (failCmd s cmd k 0x21 0)
          else .next (s.putCmd cmd k)

def Cmd.collComputed (k : Cmd) : Cmd :=
  let b := recOr (k.rec? 1)
  let xs := k.collResult
  { k with computed := true, out := pokeStores k.map (((List.range xs.length).zip xs).map fun e => b.poke (b.unorder e.1) e.2) }

/-! ### NMX -/

def Cmd.nmxBase (k : Cmd) : Nat := k.recAddr 0
def Cmd.nmxOut (k : Cmd) : Nat := k.recAddr 1
def Cmd.nmxSeed (k : Cmd) : Nat := k.recAddr 2
def Cmd.count (k : Cmd) : Nat := blk k.block 4 0 32
def Cmd.seglen (k : Cmd) : Nat := blk k.block 4 32 16
def Cmd.seedn (k : Cmd) : Nat := blk k.block 4 48 16
def Cmd.nops (k : Cmd) : Nat := blk k.block 5 0 5
def Cmd.fmtn (k : Cmd) : Fmt := (Fmt.ofCode (blk k.block 5 8 4)).getD .f32
def Cmd.size (k : Cmd) : Nat := k.fmtn.width / 8
def Cmd.slot (k : Cmd) (i : Nat) : Nat :=
  if i < 8 then blk k.block 5 (16 + 6 * i) 6 else if i < 18 then blk k.block 6 (6 * (i - 8)) 6 else blk k.block 7 (6 * (i - 18)) 6
def Cmd.ops (k : Cmd) : List Nat := (List.range k.nops).map k.slot
def Cmd.segments (k : Cmd) : Nat := ceilDiv k.count k.seglen

/-- The operators that bank units implement (R150). -/
def bankOperator (c : Nat) : Bool :=
  (5 ≤ c && c ≤ 0x0C) || (0x10 ≤ c && c ≤ 0x18) || c == 0x1D || (0x22 ≤ c && c ≤ 0x27)

/-- 0x01 and 0x02 of an NMX (R243, R244). -/
def Cmd.nmxCheck (k : Cmd) : Nat :=
  let f := blk k.block 5 8 4
  let spare := blk k.block 5 5 3 != 0 || blk k.block 5 12 4 != 0 || blk k.block 6 60 4 != 0 || blk k.block 7 36 28 != 0 ||
    ((List.range 24).drop k.nops).any fun i => k.slot i != 0
  let fmt := f == 7 || f == 8 || f == 9
  let low := k.nmxSeed != 0 && (decide (2048 / k.size < k.seedn))
  firstCode [(spare || !fmt || k.nops == 0 || decide (24 < k.nops) || k.cpltAddr % 8 != 0 || k.nmxBase % k.size != 0 || k.nmxOut % k.size != 0, 0x01),
    (k.count == 0 || decide (2 ^ 24 < k.count) || k.seglen == 0 || decide (4096 < k.seglen) || low ||
      (k.ops.contains 0x0B && decide (k.seedn < k.seglen)), 0x02)]

/-- A page on a cluster's path: the address and the end of its page. -/
inductive PageReach
  | found (pa stop : Nat)
  | lost
  | held
  deriving DecidableEq, Repr

def clusterPage (s : State) (cl part asn va : Nat) (needs : List Need) : PageReach × State :=
  let (w, s) := translateCluster s cl part asn va
  let all := needs.map fun n => checkPage va n w
  (match w, all.head? with
    | .held, _ => .held
    | .resident _ size _, some (.ok (.mem pa)) =>
      if all.all fun r => r == .ok (.mem pa) then .found pa (pa + (pageBytes size - va % pageBytes size)) else .lost
    | _, _ => .lost, s)

/-- The addresses of `n` elements in the lines of the first one's pseudo-channel, in rising order within a page (R244). -/
def pchanElems (pa stop size n : Nat) : List Nat :=
  let first := pa / 128 * 128
  let lines := ((List.range ((stop - first + 127) / 128)).map fun i => first + 128 * i).filter fun l => pchanOf l == pchanOf pa
  ((lines.flatMap fun l => (List.range (128 / size)).map fun e => l + size * e).filter fun a => pa ≤ a && a + size ≤ stop).take n

def Cmd.rangeElems (k : Cmd) : List Nat := match k.places with
  | (pa, stop) :: _ => pchanElems pa stop k.size k.count
  | [] => []
def Cmd.outElems (k : Cmd) : List Nat := match k.places with
  | [_, (pa, stop)] => pchanElems pa stop k.size k.segments
  | _ => k.rangeElems

def linesAt (as : List Nat) : List Nat := as.foldl (fun l a => if l.getLast? == some (a / 128 * 128) then l else l ++ [a / 128 * 128]) []

/-- The checks of R244 and R245 that need the pages: 0x23 and 0x24. -/
def Cmd.nmxRange (k : Cmd) : Nat :=
  let out := k.nmxOut != 0
  let hbm := k.places.all fun p => regionOf p.1 == .hbm
  let short := k.rangeElems.length != k.count || (out && k.outElems.length != k.segments)
  let meets := out && (linesAt k.outElems).any fun l => (linesAt k.rangeElems).contains l
  firstCode [(!hbm, 0x23), (short || meets, 0x23), (!(k.ops.all bankOperator) || (xprDepth k.ops 0 0).isSome, 0x24)]

/-- The rest of an NMX's preparation, its range's page and that of its outputs known. -/
def prepareSeed (s : State) (id : Nat) (k : Cmd) (places : List (Nat × Nat)) : State :=
  let seed := if k.nmxSeed == 0 then [] else [(k.nmxSeed, k.seedn * k.size)]
  match reachLines k.cluster k.part k.asn .rd (touchLines (seed.filter fun r => r.2 != 0)) s with
  | (.held, s) => s
  | (.lost a, s) => endEarly s id k 0x0B a
  | (.all m, s) =>
    match Cmd.findCplt { k with places := places } s with
    | (none, s) => s
    | (some k, s) =>
      if k.cplt.isNone && k.cpltAddr != 0 then failCmd s id k 0x0B k.cpltAddr
      else
        let c := k.nmxRange
        if c != 0 then endEarly s id k c 0
        else s.putCmd id { k with prepared := true, map := m, toRead := (m.filter fun e => isRemote (.mem e.2)).map (·.1) }

/-- An NMX: its pages, which need RD, and WR where it writes, and its checks (R244). A seed at the host or at a linked device is read first. -/
def prepareNmx (s : State) (id : Nat) (k : Cmd) : State :=
  let c := k.nmxCheck
  if c != 0 then endEarly s id k c 0
  else
    match clusterPage s k.cluster k.part k.asn k.nmxBase (if k.nmxOut == 0 then [.rd, .wr] else [.rd]) with
    | (.held, s) => s
    | (.lost, s) => endEarly s id k 0x0B k.nmxBase
    | (.found pa stop, s) =>
      if k.nmxOut == 0 then prepareSeed s id k [(pa, stop)]
      else
        match clusterPage s k.cluster k.part k.asn k.nmxOut [.rd, .wr] with
        | (.held, s) => s
        | (.lost, s) => endEarly s id k 0x0B k.nmxOut
        | (.found out last, s) => prepareSeed s id k [(pa, stop), (out, last)]

/-- Moving to the tail of the phase queue (R273). -/
def joinPhase (s : State) (id : Nat) (k : Cmd) : State :=
  match k.places with
  | (pa, _) :: _ =>
    let p := s.pchan (pchanOf pa)
    (s.setPchan (pchanOf pa) { p with queue := p.queue ++ [id] }).putCmd id { k with started := true }
  | [] => s

/-- An operator of an NMX on its stack and accumulator (R245). -/
def nmxStep (elem seed : Nat) (x : List Nat × Nat) (c : Nat) : List Nat × Nat :=
  let (st, acc) := x
  match c with
  | 0x0B => (seed :: st, acc)
  | 0x0C => (elem :: st, acc)
  | 0x26 => match st with
    | b :: a :: r => (r, fma32 a b acc)
    | r => (r, acc)
  | 0x27 => (acc :: st, acc)
  | _ => (xprStep { w := 32, ff := some f32Fmt, rm := 0, sg := false, tab := fun _ => 0 } (fun _ => 0) c st, acc)

/-- The value left for each element, in order (R245). -/
def nmxValues (k : Cmd) (elem seed : Nat → Nat) : List Nat :=
  ((List.range k.count).foldl (fun (x : List Nat × Nat) i =>
    let acc := if i % k.seglen == 0 then 0 else x.2
    let (st, acc) := k.ops.foldl (nmxStep (elem i) (seed (i % k.seglen))) ([], acc)
    (x.1 ++ [st.headD 0], acc)) ([], 0)).1

/-- The seed store of an NMX: loaded from its lines where SEEDA names one (R245, R375); bytes beyond them stay. -/
def seedFor (s : State) (id : Nat) (k : Cmd) (p : Pchan) : Pchan :=
  if k.nmxSeed == 0 then p
  else
    let byte (va : Nat) : Nat := match k.map.find? fun e => e.1 == va / 128 * 128 with
      | some (_, pa) => if isRemote (.mem pa) then k.byte va else lineBytes (homeLine s pa) (va % 128) 1
      | none => 0
    let n := k.seedn * k.size
    { p with seedTag := some k.part, seedn := k.seedn,
             seeds := ((List.range n).map fun b => BitVec.ofNat 8 (byte (k.nmxSeed + b))) ++ p.seeds.drop n }

/-- A seed element, +0.0 beyond the SEEDN loaded last or where another partition loaded them (R375). -/
def Pchan.seed (p : Pchan) (k : Cmd) (i : Nat) : Nat :=
  if p.seedTag != some k.part || p.seedn ≤ i then 0
  else packElems 8 (fun b => (p.seeds.getD (i * k.size + b) 0).toNat) k.size

/-- The stores of an NMX. -/
def nmxStores (k : Cmd) (vs : List Nat) : List Store :=
  let round (x : Nat) : Nat := ofVal k.fmtn .ieee 0 (f32Fmt.val x)
  let outs : List (Nat × Nat) :=
    if k.nmxOut == 0 then k.rangeElems.zip (vs.map round)
    else k.outElems.zip ((List.range k.segments).map fun g => round (vs.getD (min ((g + 1) * k.seglen) k.count - 1) 0))
  storesOf 1 (outs.map fun e => { loc := .mem e.1, size := k.size, nib := none, val := e.2, ea := 0 })

/-- The activations of the bank units (R377), line by line up to one whose bank is in back-off (R379): how many lines are done. -/
def bankActivations (s : State) : List Nat → Nat × State
  | [] => (0, s)
  | l :: ls =>
    if (s.bank (bankOf l)).backoff then (0, s)
    else
      let (n, s) := bankActivations (openRow s (bankOf l) (rowOfPa l)) ls
      (n + 1, s)

/-- The end of an NMX in the compute phase: waiting requests bring the normal phase back (R376). -/
def leavePhase (s : State) (chan : Nat) : State :=
  let p := s.pchan chan
  let s := s.setPchan chan { p with queue := p.queue.drop 1 }
  if requestsWaiting s chan then takeUpAll (precharge (s.setPchan chan { s.pchan chan with compute := false }) chan) chan else s

/-- The one step in which an NMX reads its range, computes and writes (R273). -/
def performNmx (s : State) (id : Nat) (k : Cmd) (chan : Nat) (ins seedLines : List Nat) : State :=
  let s := seedLines.foldl (fun s l => (homeRead s l 1).2.2) s
  let p := seedFor s id k (s.pchan chan)
  let get (i : Nat) : Nat := match k.rangeElems[i]? with
    | some a =>
      f32Fmt.ofValue 0 (valOf k.fmtn (lineBytes (homeLine s (a / 128 * 128)) (a % 128) k.size))
    | none => 0
  let seed (i : Nat) : Nat := f32Fmt.ofValue 0 (valOf k.fmtn (p.seed k i))
  let stores := nmxStores k (nmxValues k get seed)
  let s := (ins ++ seedLines).foldl (fun s l => endHeld s (.command id) l) s
  let s := (ins ++ seedLines ++ stores.map (·.line.key)).foldl (fun s l => exchange s (k.cluster / 32) (homeDie l)) (leavePhase (s.setPchan chan p) chan)
  stores.foldl (fun s x => applyStore s none x) (s.putCmd id { k with computed := true })

/-- PHASE_QUEUE_PERFORM (R273, R379): the bank units open the rows of the range, waiting through back-offs; then, with no line owned or
stale, the poison is looked for and the rows of the outputs are opened; then the step is made. `passes` counts the lines opened. -/
def execPhaseQueuePerform (chan : Nat) (s : State) : Outcome State Fault Refusal :=
  let p := s.pchan chan
  match p.queue with
  | [] => .next s
  | id :: _ =>
    if !p.compute then .next s
    else
      match s.cmd? id with
      | none => .next (leavePhase s chan)
      | some k =>
        let seedLines := k.map.filterMap fun e => if isRemote (.mem e.2) then none else some e.2
        let ins := linesAt k.rangeElems
        let outs := if k.nmxOut == 0 then [] else linesAt k.outElems
        if k.passes < ins.length then
          let (n, s) := bankActivations s (ins.drop k.passes)
          .next (s.putCmd id { k with passes := k.passes + n })
        else
          match (ins ++ outs ++ seedLines).filter fun l => agentBlocked s id l with
          | l :: ls => .next ((l :: ls).foldl (fun s l => agentWait s id l) s)
          | [] =>
            if (ins ++ seedLines).any fun l => s.poisoned.contains l then done (failCmd (leavePhase s chan) id k 0x0E 0)
            else if k.passes < ins.length + outs.length then
              let (n, s) := bankActivations s (outs.drop (k.passes - ins.length))
              .next (s.putCmd id { k with passes := k.passes + n })
            else done (performNmx s id k chan ins seedLines)

/-- NMX_COMPLETE (R246, R273). -/
def execNmxComplete (cmd : Nat) (s : State) : Outcome State Fault Refusal :=
  match s.cmd? cmd with
  | none => .next s
  | some k => if k.kind == .nmx then done (endCommand s cmd k) else .next s

/-- NMFENCE (R246): it stands in place until NMXOUT is 0 and then acquires at device scope. -/
def execNmfence (o : Ops) (s : State) : Outcome State Fault Refusal :=
  guarded o [] s fun c => if (s.core c.core).nmxout == 0 && loadsPerformed c.g then c.next (acquire s c.core .dev) c.g (opWords o) else s

/-! ### The agents' steps (R269) -/

/-- ENGINE_OWN: the command reaches its engine, is checked, and owns its destination lines. -/
def execEngineOwn (cmd line : Nat) (s : State) : Outcome State Fault Refusal :=
  match s.cmd? cmd with
  | none => .next s
  | some k =>
    let _ := line
    if k.computed || !k.toRead.isEmpty then .next (if k.computed then s else if k.toOwn.isEmpty then s else ownLines s cmd k)
    else if !k.toOwn.isEmpty then .next (ownLines s cmd k)
    else
      match k.fetch with
      | some a => .next (fetchBlock s cmd k a)
      | none =>
        if !k.prepared then
          if k.kind == .pour then .next s
          else if k.kind.isField then
            if eligible s cmd k then .next (prepareField s cmd k)
            else if k.kind == .xplacePut && k.recs.isEmpty then .next (readEarly s cmd k k.named)
            else .next s
          else if k.isCopy then .next (prepareCopy s cmd k)
          else if k.kind == .coll then .next (prepareColl s cmd k)
          else .next (prepareNmx s cmd k)
        else if k.kind == .coll && !k.started then .next (sendContribution s cmd k)
        else if k.kind == .nmx && !k.started then .next (joinPhase s cmd k)
        else .next s

/-- What an engine computes once it has its inputs: its stores. -/
def Cmd.engineComputed (k : Cmd) : Cmd :=
  if k.computed || !k.prepared || !k.toOwn.isEmpty || !k.toRead.isEmpty then k
  else if k.isCopy then k.copyComputed
  else if k.kind == .coll && k.started && k.contributions.length == k.teamSize then k.collComputed
  else k

/-- A line that an agent writes: one command's lines of it are all written, and its ownership is released (R269). -/
def wroteLine (s : State) (id : Nat) (k : Cmd) (x : Store) (pa : Nat) : State :=
  let rest := k.out.erase x
  let s := s.putCmd id { k with out := rest, wrote := k.wrote ++ [x.va / 128 * 128] }
  if rest.any fun y => y.line == x.line then s else { s with owners := s.owners.filter fun e => e.1 != pa || e.2 != id }

/-- Sending the additions of a scatter to one line of the host or of a linked device (R240). -/
def sendAdditions (s : State) (id : Nat) (k : Cmd) (line : Nat) : State :=
  let here := k.toAdd.filter fun a => a.loc.base.key == line
  match here with
  | [] => s
  | _ :: _ =>
    match portOf s line with
    | none => failCmd s id k 0x22 0
    | some p =>
      let lines := (k.map.filter fun e => e.2 == line).map (·.1)
      let k := { k with toAdd := k.toAdd.filter (fun a => a.loc.base.key != line), wrote := k.wrote ++ lines }
      let s := here.foldl (fun s a =>
        let (n, s) := s.fresh
        send s (4 * k.cluster) p (.atom { a with id := n, gid := some (cmdTag id) })) (s.putCmd id k)
      { s with owners := s.owners.filter fun e => e.1 != line || e.2 != id }

/-- A command as its next write finds it: computed, and cut at its boundary if it has been killed. -/
def Cmd.forWriting (k : Cmd) : Cmd :=
  let k := k.engineComputed
  if k.killed && !k.cut && k.isCopy && k.computed then k.cutCopy else k

/-- Whether a read image goes into a poisoned line of the read buffer, which a write of less than the line reads (R232, R382). -/
def poisonedImage (s : State) (k : Cmd) (x : Store) : Bool := k.kind == .pour && !k.pour.told && !wholeLine x.mask && homePoisoned s x.line

/-- ENGINE_WRITE: one destination line is written at its home and released. -/
def execEngineWrite (cmd line : Nat) (s : State) : Outcome State Fault Refusal :=
  match (s.cmd? cmd).map Cmd.forWriting with
  | none => .next s
  | some k =>
    if !k.computed && k.kind != .xdrain then .next s
    else
      match k.out.find? fun x => x.line.key == line with
      | none => .next (sendAdditions s cmd k line)
      | some x =>
        if k.withResult x || (k.kind == .pour && k.killed && !k.cut) then .next s
        else
        match x.line with
        | .pad _ _ => .next s
        | .mem pa =>
          if isRemote x.line then
            match portOf s pa with
            | none => .next (failCmd s cmd k 0x22 x.va)
            | some p => .next (send (wroteLine s cmd k x pa) (4 * k.cluster) p (.store k.core (cmdTag cmd) x))
          else if (match Sparse.find? s.owners pa with | some o => o != cmd | none => false) then .next s
          else if poisonedImage s k x then .next (failCmd s cmd k 0x0E x.va)
          else done (applyStore (tell (wroteLine s cmd k x pa) (k.cluster / 32) (homeDie pa)) none x)

/-- ENGINE_COMPLETE (R237). -/
def execEngineComplete (cmd : Nat) (s : State) : Outcome State Fault Refusal :=
  match s.cmd? cmd with
  | none => .next s
  | some k =>
    let k' := k.forWriting
    if k.kind.isField || k.kind == .nmx then .next s
    else if k'.cut && !k.cut then done (releaseIdle (s.putCmd cmd k') cmd k')
    else done (endCommand s cmd k')

/-! ### The instructions -/

/-- CPY (R236). -/
def execCpy (o : Ops) (s : State) : Outcome State Fault Refusal := commandOp o .cpy s

/-- GATH (R236). -/
def execGath (o : Ops) (s : State) : Outcome State Fault Refusal := commandOp o .gath s

/-- SCAT (R236). -/
def execScat (o : Ops) (s : State) : Outcome State Fault Refusal := commandOp o .scat s

/-- COLL (R236). -/
def execColl (o : Ops) (s : State) : Outcome State Fault Refusal := commandOp o .coll s

/-- NMX (R236, R246). -/
def execNmx (o : Ops) (s : State) : Outcome State Fault Refusal := commandOp o .nmx s

/-- NODE (R247): it commits, its predicate empty until the walker answers. The walker finds the record on the path of the cluster (R316).
A record that is not aligned traps with 0x07 (DESIGN CHOICE, log entry 161). -/
def execNode (o : Ops) (s : State) : Outcome State Fault Refusal :=
  electing o s (fun c => c.commit s c.g (opWords o)) <| closing o (addressSources o) s fun c =>
    let e := c.address o
    if e.ea % 64 != 0 then c.trap s 0x07 0 (BitVec.ofNat 64 e.ea)
    else
      let d := Opnd.num o.d
      let (id, s) := s.fresh
      let a : Arming := { id := id, gid := c.gid, d := d, loc := none, va := e.ea, part := c.st.part, asn := c.la.asn, stand := c.g.stand }
      c.commit { s with arming := s.arming ++ [a] } (c.g.setP d { c.g.preg d with full := false }) (opWords o)

/-- A node record that breaks R247. -/
def badNode (ws : List Word) : Bool :=
  let kind := blk ws 1 60 4
  let func := blk ws 2 8 3
  decide (2 < kind) || blk ws 1 56 4 != 0 || blk ws 2 6 2 != 0 || blk ws 2 11 53 != 0 || blk ws 3 2 62 != 0 ||
    ([4, 5, 6, 7].any fun i => blk ws i 0 64 != 0) || (kind == 1 && decide (2 < func)) || (kind == 2 && func != 3 && func != 4)

/-- The walker's answer to a NODE: all ones or zeros, full. -/
def answerNode (s : State) (a : Arming) (ok : Bool) : State :=
  { s with arming := s.arming.filter fun x => x.id != a.id }.modGroup a.gid fun g =>
    if g.retired || g.stand != a.stand then g else g.setP a.d { val := if ok then BitVec.allOnes 256 else 0, full := true }

/-- A NODE whose record cannot be read: its code enters the status of its stand (R237, R251, R316), FUNC being that of NODE, and the walker
refuses it. -/
def failNode (s : State) (a : Arming) (code : Nat) : State :=
  answerNode (s.modStand a.stand fun st => { st with engine := st.engine.note code 6 a.va }) a false

/-- The walker looking for a record (R316); a page that is invalid, not resident or without RD ends the NODE with code 0x0B. -/
def findNode (s : State) (a : Arming) : State :=
  match clusterAddr s (a.gid / 256) a.part a.asn a.va .rd with
  | (.held, s) => s
  | (.lost, s) => failNode s a 0x0B
  | (.found pa, s) => { s with arming := s.arming.map fun x => if x.id == a.id then { x with loc := some (.mem pa) } else x }

/-- NODE_ARM (R247): the walker reads the record and arms it, or does not; a record whose count is used up is launched at once. -/
def execNodeArm (id : Nat) (s : State) : Outcome State Fault Refusal :=
  match s.arming.find? fun a => a.id == id with
  | none => .next s
  | some a =>
    match a.loc with
    | none => .next (findNode s a)
    | some (.pad _ _) => .next (answerNode s a false)
    | some (.mem pa) =>
      if regionOf pa != .hbm then .next (answerNode s a false)
      else
        match readRecord s (a.gid / 64) (.mem pa) with
        | (.wait, s) => .next s
        | (.failed d, s) => .next (failNode s a (if d == 6 then 0x0E else 0x22))
        | (.words ws, s) =>
          let mine := s.nodes.filter fun n => n.part == a.part
          if badNode ws || (mine.any fun n => n.pa == pa) || 4096 ≤ mine.length then .next (answerNode s a false)
          else if homeBusy s (.mem pa) then .next (holdRead s .other (pa / 128 * 128))
          else
            let n : Node := { pa := pa, va := a.va, part := a.part, asn := a.asn, stand := some a.stand, held := false }
            let s := setNodeState { answerNode s a true with nodes := s.nodes ++ [n] } n 1
            done (if signedOf 64 (readHome s (.mem pa) 8) ≤ 0 then launchNode s n else s)

/-! ### Atomics at their homes -/

/-- The outcome of an atomic for the access that waits for it. -/
def Atom.settle (a : Atom) (s : State) (old : Option Nat) (reqs : List Nat) (bad : Option Nat) : State := match a.gid with
  | some g => settleAccess s g a.acc a.elem old reqs bad
  | none => s

/-- An atomic leaves for the host or a linked device; its element stays to be performed until the answer comes (R260). -/
def Atom.leave (a : Atom) (s : State) (pa : Nat) : State :=
  match portOf s pa with
  | none => a.settle s none [] (some 1)
  | some p =>
    let s := send s a.core p (.atom a)
    match a.gid with
    | some g => awaitAccess s g a.acc a.id
    | none => s

/-- An atomic performed at a home of this device (R268, R382). -/
def Atom.here (a : Atom) (s : State) : State :=
  if homePoisoned s a.loc then a.settle s none [] (some 6)
  else
    let (old, reqs, s) := atomHome s a
    let s := a.settle s (some old) reqs none
    if a.node == 1 && a.op.new a.width old a.operand a.compare == 0 then nodeZero s a.loc else s

/-- ATOMIC_PERFORM (R268): one element of an atomic, or the decrement of a completion word, is performed at its home; those of
one group go in order. A poisoned line is left as it is (R382), a remote one goes to its delivery queue. -/
def execAtomicPerform (id : Nat) (s : State) : Outcome State Fault Refusal :=
  match s.atoms.find? fun a => a.id == id with
  | none => .next s
  | some a =>
    let first := match a.gid with
      | some g => (s.atoms.find? fun b => b.gid == some g).any fun b => b.id == id
      | none => true
    if !first then .next s
    else if atomBlocked s a then .next (match a.loc.base with
      | .mem pa => if heldBack s a.loc then s else holdRead s .other pa
      | .pad _ _ => s)
    else
      let s := { s with atoms := s.atoms.filter fun b => b.id != id }
      match a.loc with
      | .mem pa => if isRemote a.loc then .next (a.leave s pa) else done (a.here s)
      | .pad _ _ => done (a.here s)

end Sys2Proof.Machine
end

