-- ==== Sys2Proof/Machine/Shootdown.lean ====
section
/-! DEFINITION. Shootdowns (R321, R322): what a shootdown drops, and what it waits for. -/

namespace Sys2Proof.Machine

open Host (Outcome)

/-- Whether a shootdown names an address of its address space: SIZE 3, and by inference every code above it, is every page. -/
def Shootdown.covers (x : Shootdown) (va : Nat) : Bool :=
  x.all || (decide (x.vpage * 65536 ≤ va) && decide (va < x.vpage * 65536 + x.count * pageBytes x.size))

/-- Whether a range of addresses touches a shootdown's. -/
def Shootdown.touches (x : Shootdown) (lo n : Nat) : Bool :=
  decide (0 < n) && (x.all || (decide (lo < x.vpage * 65536 + x.count * pageBytes x.size) && decide (x.vpage * 65536 < lo + n)))

/-- Whether a physical line lies in the old frames. -/
def Shootdown.frames (x : Shootdown) (pa : Nat) : Bool :=
  x.frame != 0 && decide (x.frame ≤ pa) && decide (pa < x.frame + x.count * pageBytes x.size)

/-- The groups of a partition in an address space. -/
def inSpace (s : State) (part asn : Nat) (g : Group) : Bool :=
  match s.stand? g.stand with
  | none => false
  | some st => st.part == part && ((s.launch? st.launch).map (·.asn)).getD 4096 == asn

/-! ### What a shootdown drops -/

/-- A wait for a word whose page the shootdown names: a waiting group holds no translation, so that the word is looked up again. -/
def Wait.forget (x : Shootdown) : Wait → Wait
  | .word l cc c acq va org r => if x.covers va.toNat then .word none cc c acq va org none else .word l cc c acq va org r
  | w => w

def HeldSlot.mapWaits (h : HeldSlot) (f : Wait → Wait) : HeldSlot := { h with waits := h.waits.map f }

def Snapshot.mapWaits (n : Snapshot) (f : Wait → Wait) : Snapshot :=
  { n with waitsA := n.waitsA.map f, waitsB := n.waitsB.map f, held := n.held.map fun h => h.mapWaits f }

/-- A change of every wait that a group holds: of its slots, its runs, its stack and its snapshots. -/
def Group.mapWaits (g : Group) (f : Wait → Wait) : Group :=
  { g with
    slotA := { g.slotA with waits := g.slotA.waits.map f }
    slotB := { g.slotB with waits := g.slotB.waits.map f }
    run := g.run.map fun r => { r with waits := r.waits.map f }
    susp := g.susp.map fun r => { r with waits := r.waits.map f }
    held := g.held.map fun h => h.mapWaits f
    snap := g.snap.mapWaits f
    suspSnap := g.suspSnap.map fun n => n.mapWaits f }

/-- What a group keeps of a range: V of its translation registers is cleared, and its waits hold no translation. -/
def Group.forget (g : Group) (x : Shootdown) : Group :=
  { g.mapWaits (Wait.forget x) with
    x := g.x.map fun r => if r.2.valid && x.touches r.2.vbase.toNat r.2.limit.toNat then (r.1, { r.2 with valid := false }) else r }

/-- Dropping what the machine holds of the range (R321): TLB entries, valid translation registers, and the L1 copies of the
old frames. -/
def dropRange (s : State) (p : Partition) (x : Shootdown) : State :=
  let keep (e : TlbEntry) : Bool := !(e.part == x.part && e.asn == x.asn && x.touches (e.vpage * 65536) (pageBytes e.size))
  let s := p.cores.foldl (fun s c =>
    let k := s.core c
    s.setCore c { k with
      tlb := k.tlb.filter keep
      l1 := k.l1.filterMap fun e =>
        if !x.frames e.1 then some e
        else match e.2 with
          | .valid _ _ _ _ => none
          | .fill _ early r => some (e.1, .fill true early r) }) s
  let s := p.clusters.foldl (fun s c =>
    let k := s.cluster c
    s.setCluster c { k with tlb := k.tlb.filter keep }) s
  { s with groups := s.groups.map fun e => if inSpace s x.part x.asn e.2 then (e.1, e.2.forget x) else e }

/-! ### What it waits for -/

/-- The accesses of groups that have passed translation to the range and are not performed. -/
def rangeAccesses (s : State) (x : Shootdown) : List (Nat × Nat) :=
  s.groups.flatMap fun e =>
    if !inSpace s x.part x.asn e.2 then []
    else (e.2.accs.filter fun a => a.todo.any fun i => a.vas.any fun v => v.1 == i.idx && x.covers v.2.toNat).map fun a => (e.1, a.id)

/-- The addresses that a command has translated, with the bytes from each: its lines, its records, its completion word, the status word of
a COPY packet, and the parts of pages that an NMX names. -/
def Cmd.translated (k : Cmd) : List (Nat × Nat) :=
  let recs := ((List.range k.recs.length).filter fun i => !(k.recs.getD i []).isEmpty).map fun i => (k.recAddr i, 64)
  let word := if k.cplt.isSome then [(k.cpltAddr, 8)] else []
  let pages := if k.kind == .nmx then
      ((List.range k.places.length).zip k.places).map fun e => (k.recAddr e.1, e.2.2 - e.2.1)
    else []
  k.map.map (fun m => (m.1, 128)) ++ recs ++ word ++ pages ++ k.stat.toList.map fun e => (e.1, 8)

/-- The commands of a partition, those that a clearing has taken out of their tables included. -/
def allCmds (s : State) (part : Nat) : Sparse Cmd := s.cmds ++ ((s.part? part).map (·.removed)).getD []

/-- The commands that have translated a page of the range. -/
def rangeCmds (s : State) (x : Shootdown) : List Nat :=
  ((allCmds s x.part).filter fun e => e.2.part == x.part && e.2.asn == x.asn && e.2.translated.any fun r => x.touches r.1 r.2).map (·.1)

/-- The cache maintenance that has translated a page of the range. -/
def rangeCmos (s : State) (x : Shootdown) : List Nat :=
  (s.cmos.filter fun w => w.part == x.part && w.asn == x.asn && x.touches w.lo w.size).map (·.id)

/-- The stores that a group holds: in its FIFO, in place, of a trap entry, and in a transaction's write set. -/
def Group.heldStores (g : Group) : List Store :=
  g.fifo ++ g.saving ++ ((g.run.map (·.stores)).getD []) ++ ((g.txn.map (·.writes)).getD [])

/-- Whether a store to the range is still on its way to its home. Those that have left their group are judged by their address alone. -/
def rangeStores (s : State) (p : Partition) (x : Shootdown) : Bool :=
  let hit (y : Store) : Bool := x.covers y.va
  (s.groups.any fun e => inSpace s x.part x.asn e.2 && e.2.heldStores.any hit) ||
    s.cores.any fun c => p.holds (c.1 / 4) && ((c.2.cvp.any fun e => hit e.store) || c.2.orphans.any fun o => o.2.any hit)

/-- SHOOTDOWN (R321): accepted, its range is dropped, and the accesses and commands it waits for are noted. -/
def execShootdown (part : Nat) (desc : BitVec 128) (s : State) : Outcome State Fault Refusal :=
  match s.part? part with
  | none => .next s
  | some p =>
    let d := desc.toNat
    let size := bits d 68 4
    let base : Shootdown :=
      { part := part, asn := bits d 76 12, vpage := bits d 88 40, size := size, count := bits d 48 16,
        frame := bits d 4 44 * 256, all := decide (3 ≤ size), cmds := [], accs := [], cmos := [] }
    let x := { base with cmds := rangeCmds s base, accs := rangeAccesses s base, cmos := rangeCmos s base }
    let s := s.setPart part { p with sdstat := p.sdstat + (1 : Word) <<< (32 : Nat) }
    let s := if d.testBit 0 then p.clusters.foldl (fun s c =>
        let k := s.cluster c
        s.setCluster c { k with walk := k.walk.filter fun e => e.part != part }) s else s
    .next (dropRange { s with shootdowns := s.shootdowns ++ [x] } p x)

/-- Whether a shootdown still waits: for a command, cache maintenance, an access, a store, a CMO packet that has translated its range, or a
node whose record is being looked at. -/
def shootdownBusy (s : State) (p : Partition) (x : Shootdown) : Bool :=
  (x.cmds.any fun c => (Sparse.find? (allCmds s x.part) c).isSome) || (s.cmos.any fun w => x.cmos.contains w.id) || rangeStores s p x ||
    (s.slots.any fun e => e.2.part == x.part && e.2.asn == x.asn && e.2.lines.any fun l => x.frame == 0 || x.frames l.1) ||
    (s.arming.any fun a => a.part == x.part && a.asn == x.asn && a.loc.isSome && x.touches a.va 64) ||
    x.accs.any fun a => ((Sparse.find? s.groups a.1).map fun g => g.accs.any fun y => y.id == a.2 && !y.todo.isEmpty).getD false

/-- SHOOTDOWN_COMPLETE (R321): the shootdown at a place of the list has nothing left to wait for; the hub reports it. -/
def execShootdownComplete (id : Nat) (s : State) : Outcome State Fault Refusal :=
  match s.shootdowns[id]? with
  | none => .next s
  | some x =>
    match s.part? x.part with
    | none => .next { s with shootdowns := s.shootdowns.eraseIdx id }
    | some p =>
      if shootdownBusy s p x then .next s
      else
        let s := s.setPart x.part { p with sdstat := BitVec.ofNat 64 (setBits p.sdstat.toNat 0 32 (bits p.sdstat.toNat 0 32 + 1)) }
        .next (dropRange { s with shootdowns := s.shootdowns.eraseIdx id } p x)

end Sys2Proof.Machine
end

