-- ==== Sys2Proof/Machine/System.lean ====
section
/-! DEFINITION. Major 0x15: system registers (R249 to R251, R380, R381), traps and the return from one (R252 to R255), the
clocks and the trace stream (R256, R257), and the emulation trap (R91). -/

namespace Sys2Proof.Machine

open Host (Outcome)

/-! ### System registers -/

/-- R93: the feature registers. -/
def feature (n : Nat) : Nat := match n with
  | 0 => 0x00010001
  | 1 => 4 * 2 ^ 40 + 16 * 2 ^ 32 + 64 * 2 ^ 24 + 8 * 2 ^ 16 + 16 * 2 ^ 8 + 24
  | 2 => 2 ^ 24 + 0x7F * 2 ^ 16 + 0x3FFF
  | _ => 0x01 * 2 ^ 32 + 0x0009 * 2 ^ 16 + 0x0FA1

/-- R14: the tags of 32 main-file registers. -/
def Group.tags (g : Group) (first : Nat) : Nat := packElems 2 (fun i => (g.vreg (first + i)).tag.code) 32

/-- R187: the handle of a group. -/
def Ctx.handle (c : Ctx) : Nat := c.st.tag.toNat * 2 ^ 8 + c.core % 4 * 2 ^ 6 + c.place

/-- The location that an RMSEL value names, if V is 1 (R380): bank and row. -/
def selected (w : Nat) : Option (Nat × Nat) := if w.testBit 63 then some (bits w 30 15, bits w 16 14) else none

/-- The registers that the stack answers for (R381): RMROW, RMBANK, RMRFM and RMTICK. -/
def stackReg (n : Nat) : Bool := decide (0xC2 ≤ n) && decide (n ≤ 0xC5)

/-- What the stack answers about a bank and a row (R380). -/
def stackAnswer (s : State) (n bank row : Nat) : Nat :=
  let b := s.bank bank
  match n with
  | 0xC2 => Sparse.getD b.counters row 0 % 2 ^ 16 + thresholdOf s bank row % 2 ^ 16 * 2 ^ 16
  | 0xC3 => b.alerts.toNat + b.lastrow.toNat * 2 ^ 32
  | 0xC4 => b.rfms.toNat
  | _ => b.tick.toNat

/-- The value of a system register that is at hand (R250, R380); ROWMGMT8 to ROWMGMT15 read as zero. -/
def Ctx.sysReg (c : Ctx) (s : State) (n : Nat) : Nat :=
  let core := s.core c.core
  let part := s.part? c.st.part
  match n with
  | 0 | 1 | 2 | 3 => feature n
  | 0x08 => c.g.tags 0
  | 0x09 => c.g.tags 32
  | 0x0A => c.g.spawnid.toNat
  | 0x0B => c.handle
  | 0x0C => c.la.kparam.toNat
  | 0x0D => s.host.nodeid.toNat
  | 0x0E => c.core
  | 0x0F => areaAddress s c.gid c.st 8192
  | 0x10 => c.g.trap.pc.toNat
  | 0x11 => c.g.trap.cause.toNat
  | 0x12 => c.g.trap.inst.toNat
  | 0x13 => c.g.trap.inst2.toNat
  | 0x14 => c.g.trap.addr.toNat
  | 0x15 => c.g.trap.txcause.toNat
  | 0x16 => c.g.trap.arrive.toNat
  | 0x17 => c.g.casterr.toNat
  | 0x18 => core.rwrdrop.toNat
  | 0x19 => c.st.engine.word (pendOf s c.g.stand false) 0
  | 0x1A => (c.st.engine.addr.getD 0).toNat
  | 0x1B => core.nmxout.toNat
  | 0x1C => c.g.dsp.toNat
  | 0xC0 => (part.map fun p => p.thresh % 2 ^ 16).getD 0
  | 0xC1 => core.rmsel.toNat
  | 0xC6 => (part.map fun p => p.palerts.toNat % 2 ^ 32).getD 0
  | 0xC7 => (part.map fun p => p.corr.toNat % 2 ^ 32 + p.uncorr.toNat % 2 ^ 32 * 2 ^ 32).getD 0
  | _ => 0

/-- SYSRD (R249). A read of a stack's register finds zero unless RMSEL names a row of the partition, and else stands in place
until the answer comes (R381). -/
def execSysrd (o : Ops) (s : State) : Outcome State Fault Refusal :=
  perform o s fun c =>
    let n := o.a.rawVal
    if c.r.stage == 3 then s
    else if stackReg n then
      let w := (s.core c.core).rmsel.toNat
      match selected w with
      | none => c.spread o s 0
      | some (bank, row) =>
        if partOfPa s (paOfRow bank row) == some c.st.part then c.put s c.g (c.r.await w) else c.spread o s 0
    else c.spread o s (c.sysReg s n)

/-- ANSWER_ARRIVAL (R381, R201, R218): the answer for which an instruction stands in place arrives and is written. -/
def execAnswerArrival (gid : Nat) (s : State) : Outcome State Fault Refusal :=
  match ctxOf s gid with
  | none => .next s
  | some c =>
    if c.r.stage != 3 then .next s
    else
      match readWord (c.r.words.getD c.r.pos 0) (c.r.words.getD (c.r.pos + 1) 0) with
      | some (.sysrd o) =>
        match selected c.r.query with
        | some (bank, row) => .next (c.spread o s (stackAnswer s o.a.rawVal bank row))
        | none => .next s
      | some (.castq o) => .next (c.spread o s (c.castAnswer s))
      | some (.xstat o) =>
        let (x, s) := c.fieldAnswer s (o.mod.getLsbD 0)
        .next (c.spread o s x)
      | _ => .next s

/-- A write of a system register, its value in hand (R249): with no elected lane it has no effect. -/
def sysWrite (o : Ops) (s : State) (f : Ctx → Nat → State) : Outcome State Fault Refusal :=
  guarded o [(o.a, o.ea)] s fun c => f c (c.scalar o o.a)

/-- SYSWR (R249, R250): ARRIVE and RWRDROP take the value; a write of a register that is only read is ignored (R3). -/
def execSyswr (o : Ops) (s : State) : Outcome State Fault Refusal :=
  sysWrite o s fun c x =>
    match o.d.rawVal with
    | 0x16 => c.next s { c.g with trap := { c.g.trap with arrive := BitVec.ofNat 32 x } } (opWords o)
    | 0x18 => c.next (s.setCore c.core { s.core c.core with rwrdrop := BitVec.ofNat 64 x }) c.g (opWords o)
    | _ => c.next s c.g (opWords o)

/-- ENGSTAT (R251): a write of any value clears bits 17 to 0 and ENGADDR. -/
def execEngstat (o : Ops) (s : State) : Outcome State Fault Refusal :=
  sysWrite o s fun c _ => c.next (s.modStand c.g.stand fun st => { st with engine := .zero }) c.g (opWords o)

/-- The bank and row of an HBM address as RMSEL holds them, with V 1 (R372, R380). -/
def rmselOf (pa : Nat) : Nat := 2 ^ 63 + bankOf pa * 2 ^ 30 + rowOfPa pa * 2 ^ 16

/-- RMSEL (R381): the address is translated with RD needed; one that is not readable in HBM writes V 0. -/
def execRmsel (o : Ops) (s : State) : Outcome State Fault Refusal :=
  sysWrite o s fun c x =>
    let (r, s) := resolve s c.seat none 0 x .rd
    if r == .held then s
    else
    let k := s.core c.core
    let w : Nat := match r with
      | .ok (.mem pa) => if regionOf pa == .hbm then rmselOf pa else setBits k.rmsel.toNat 63 1 0
      | _ => setBits k.rmsel.toNat 63 1 0
    c.next (s.setCore c.core { k with rmsel := BitVec.ofNat 64 w }) c.g (opWords o)

/-- RMPART (R380): a write of any value clears the partition's count of alerts. -/
def execRmpart (o : Ops) (s : State) : Outcome State Fault Refusal :=
  sysWrite o s fun c _ =>
    c.next { s with parts := Sparse.modify s.parts c.st.part fun p => { p with palerts := 0 } } c.g (opWords o)

/-! ### Traps -/

/-- TRAP (R252, R34): it commits, its trailer publishes and moves the snapshot past it, and then its trap is taken. -/
def execTrap (o : Ops) (s : State) : Outcome State Fault Refusal :=
  electing o s (fun c => c.commit s c.g (opWords o)) <| closing o [(.reg (.p o.pred), false), (o.a, o.ea)] s fun c =>
    let x := BitVec.ofNat 32 (c.scalar o o.a)
    { c with r := { c.r with raised := some (x, c.origin) } }.commit s c.g (opWords o)

/-- BKPT (R252): the suspending trap 0x0C; a claimed group stops (R420). -/
def execBkpt (o : Ops) (s : State) : Outcome State Fault Refusal :=
  guarded o [(o.a, o.ea)] s fun c => takeTrap s c.gid (c.cause 0x0C (c.scalar o o.a) 0) (some (c.r.after (opWords o)))

/-- ERET (R254): with a CODE in force the run's trailer returns; without one it is illegal, subcause 12. -/
def execEret (o : Ops) (s : State) : Outcome State Fault Refusal :=
  withRun s fun c =>
    if c.g.trap.code == 0 then c.trap s 0x01 12 0 else c.put s c.g ({ c.r with returning := true }.after (opWords o))

/-- EMULATION_TRAP (R91): a word of an extension space that reaches issue raises the suspending trap 0x02 with its MAJOR. -/
def execEmulationTrap (word : Word) (ext : Option Word) (s : State) : Outcome State Fault Refusal :=
  withRun s fun c =>
    takeTrap s c.gid
      { code := 0x02, detail := majorOf word, pc := c.r.head.toNat + 8 * c.r.pos, inst := word, inst2 := ext.getD 0, addr := 0,
        slotB := c.r.slotB }
      (some (c.r.after (if ext.isSome then 2 else 1)))

/-! ### TIME and TRACE -/

/-- TIME (R256): the tick, device time, or a new stamp of the core's die. -/
def execTime (o : Ops) (s : State) : Outcome State Fault Refusal :=
  perform o s fun c =>
    match o.mod.toNat with
    | 0 => c.spread o s s.tick.toNat
    | 1 => c.spread o s s.devTime.toNat
    | _ =>
      let (w, s) := newStamp s (dieOf c.core)
      c.spread o s w.toNat

/-- TRACE (R257, R423): a traced group writes its record. -/
def execTrace (o : Ops) (s : State) : Outcome State Fault Refusal :=
  guarded o [(o.a, o.ea)] s fun c =>
    let s := if c.g.tracing && traceOn s c.st.part c.core c.place 1 then
        trace s c.st.part (groupRecord c.gid c.g 5 c.r.slotB o.mod.toNat (c.scalar o o.a))
      else s
    s.modGroup c.gid fun g => { g with run := some (c.r.after (opWords o)) }

end Sys2Proof.Machine
end

