-- ==== Sys2Proof/Machine/Link.lean ====
section
/-! DEFINITION. The host port and the Nartex Links (R274, R405, R412, R429 to R434): delivery of requests, the answers to them,
requests of other devices, replay, and reads by the hub. -/

namespace Sys2Proof.Machine

open Host (Outcome)

/-! ### Answers to requests of this device -/

/-- Changing the access that awaits a request. -/
def onAccess (s : State) (id : Nat) (f : State → Nat → Access → Access) : State :=
  { s with groups := s.groups.map fun e =>
      (e.1, { e.2 with accs := e.2.accs.map fun a => if a.reqs.contains id then f s e.1 a else a }) }

/-- The cores whose groups await a request with an access, or which replace a copy by its answer (R266). -/
def askingCores (s : State) (id : Nat) : List Nat :=
  let loads := (s.groups.filter fun e => e.2.accs.any fun a => a.reqs.contains id).map fun e => e.1 / 64
  let copies := (s.cores.filter fun e => e.2.refreshes.any fun r => r.1 == id).map fun e => e.1
  (loads ++ copies).eraseDups

/-- A line from the host or a linked device reaches a core's L1 (R265, R293): it ends a fill that waits for it, which a drop or a failure
leaves without a copy, and a valid copy takes its bytes. -/
def answerCopy (s : State) (core id pa detail : Nat) (d : LineBits) : State :=
  let c := { s.core core with refreshes := (s.core core).refreshes.filter fun r => r.1 != id }
  let s := s.setCore core c
  match Sparse.find? c.l1 pa with
  | some (.fill dropped e r) =>
    if r != some id then s
    else if dropped || detail != 0 then s.setCore core { c with l1 := Sparse.erase c.l1 pa }
    else l1Install s core pa d e
  | some (.valid _ _ _ _) => if detail == 0 then updateCopy s core pa d else s
  | none => s

/-- A line read for a load of a group: it takes its value, or fails with the detail (R265, R382, R430). -/
def answerAccess (s : State) (id pa : Nat) (detail : Nat) (d : LineBits) : State :=
  let s := (askingCores s id).foldl (fun s core => answerCopy (tell s hubDie (dieOf core)) core id pa detail d) s
  onAccess s id fun s gid a =>
    if !a.use.loads then a
    else if detail == 0 then a.take (.mem pa) (overlay d (.mem pa) (pendingStores s gid)) []
    else a.spoil (.mem pa) detail

/-- The slot of a group that waits for a word by a request. -/
def Group.waitsFor (g : Group) (id : Nat) : Option (Bool × Wait) :=
  let hit (w : Wait) : Bool := match w with
    | .word _ _ _ _ _ _ r => r == some id
    | _ => false
  match g.slotA.waits.find? hit with
  | some w => some (false, w)
  | none => (g.slotB.waits.find? hit).map fun w => (true, w)

/-- The read of an awaited word has been answered (R189, R268). -/
def answerWait (s : State) (id : Nat) (detail : Nat) (d : LineBits) : State :=
  s.groups.foldl (fun s e => match e.2.waitsFor id with
    | some (slotB, .word (some (.mem pa)) cc c acq va org r) =>
      let w : Wait := .word (some (.mem pa)) cc c acq va org r
      let s := tell s hubDie (dieOf (e.1 / 64))
      if detail == 0 then wordRead s e.1 slotB w (lineBytes d (pa % 128) 8)
      else waitFault s e.1 detail va org
    | _ => s) s

/-- A record read has been answered (R272). -/
def answerRecord (s : State) (id : Nat) (detail : Nat) (d : LineBits) : State :=
  s.cores.foldl (fun s e => match e.2.fills.find? fun f => f.1 == id with
    | some (_, pa) =>
      let s := tell s hubDie (dieOf e.1)
      let s := s.setCore e.1 { s.core e.1 with fills := (s.core e.1).fills.filter fun f => f.1 != id }
      if detail == 0 then putRecordCopy s e.1 pa (BitVec.ofNat 1024 (lineBytes d (pa % 128) 64))
      else s.setCore e.1 { s.core e.1 with failed := Sparse.insert (s.core e.1).failed pa detail }
    | none => s) s

/-- An input line of a command has come, or the command fails (R237, R430). -/
def answerCmd (s : State) (id : Nat) (detail : Nat) (d : LineBits) : State :=
  s.cmds.foldl (fun s e => match e.2.asked.find? fun a => a.1 == id with
    | some (_, va) =>
      let s := tell s hubDie (e.2.cluster / 32)
      if detail == 0 then s.putCmd e.1 (e.2.took va d) else failCmd s e.1 e.2 (if detail == 6 then 0x0E else 0x22) va
    | none => s) s

/-- A read for the hub has been answered. -/
def answerHub (s : State) (id : Nat) (detail : Nat) (d : LineBits) : State :=
  { s with hubReads := s.hubReads.map fun r => if r.id == id then { r with got := some (if detail == 0 then .line d else .failed detail) } else r }

/-- The answer to a read, as the line that holds the address: detail 0, or that of the access fault. -/
def answerRead (s : State) (id pa detail : Nat) (d : LineBits) : State :=
  answerHub (answerCmd (answerRecord (answerWait (answerAccess s id (pa / 128 * 128) detail d) id detail d) id detail d) id detail d) id detail d

/-- The answer to an atomic: its old value, or a failure that its access raises, or that ends the command whose addition it was, with 0x0E for
poisoned data and 0x22 otherwise (R237, R430, R434). With the answer to the decrement of an NMX's word NMXOUT falls (R246). -/
def answerAtom (s : State) (a : Atom) (detail : Nat) (d : LineBits) : State :=
  let s := tell (if a.last then lessNmx s a.core else s) hubDie (dieOf a.core)
  match a.gid with
  | none => s
  | some g =>
    if 2 ^ 20 ≤ g then
      (match s.cmd? (g - 2 ^ 20) with
        | some k => if detail == 0 then s else failCmd s (g - 2 ^ 20) k (if detail == 6 then 0x0E else 0x22) 0
        | none => s)
    else if detail == 0 then settleAccess s g a.acc a.elem (some (lineBytes d a.loc.place (a.width / 8))) [] none
    else settleAccess s g a.acc a.elem none [] (some detail)

/-- Whether a read of a line for a group of a core is on its way. -/
def reReads (s : State) (core pa : Nat) : Bool :=
  ((s.core core).refreshes.any fun r => r.2 == pa) || ((s.groups.filter fun e => e.1 / 64 == core).any fun e => e.2.accs.any fun a => asked s a pa)

/-- A store of a core has left its CVP: while a read of the line is on its way, whose answer may be older, the core keeps no copy of it
(R266: a copy never goes backwards). -/
def guardCopy (s : State) (core : Nat) (l : Loc) : State :=
  match l with
  | .pad _ _ => s
  | .mem pa =>
    if !reReads s core pa then s
    else
      let c := s.core core
      match Sparse.find? c.l1 pa with
      | some (.valid _ _ _ _) => s.setCore core { c with l1 := Sparse.erase c.l1 pa }
      | some (.fill _ e r) => s.setCore core { c with l1 := Sparse.insert c.l1 pa (.fill true e r) }
      | none => s

/-- The acknowledgement of a store: its CVP entry leaves. An error loses it to its groups, or ends its command with 0x22 (R274,
R434). -/
def answerStore (s : State) (core gid : Nat) (x : Store) (detail port : Nat) : State :=
  let s := tell s hubDie (dieOf core)
  let c := s.core core
  let mine (e : CvpEntry) : Bool := e.sent && e.store.line == x.line && gid < 2 ^ 19
  let entry := c.cvp.find? mine
  let s := s.setCore core { c with cvp := c.cvp.eraseP mine }
  let s := if entry.isSome then guardCopy s core x.line else s
  if detail == 0 then s
  else
    let pa := match x.line with
      | .mem pa => pa
      | .pad _ _ => 0
    let s := logError s pa (if port == 16 then 7 else 6) 1 (storePart s core gid) port
    if 2 ^ 20 ≤ gid then
      match s.cmd? (gid - 2 ^ 20) with
      | some k => failCmd s (gid - 2 ^ 20) k 0x22 x.va
      | none => s
    else (entry.map (loseStore s)).getD s

/-- A contribution that could not be sent ends the collective's command with 0x22 (R242). -/
def failContribution (s : State) (c : Contribution) : State :=
  s.cmds.foldl (fun s e =>
    if e.2.kind == CmdKind.coll && e.2.started && !e.2.computed && e.2.tag == c.tag && e.2.members == c.members then failCmd s e.1 e.2 0x22 0
    else s) s

/-- What the answer to a request does: detail 0, or why it failed; the data are the line that holds the address. -/
def answerRemote (s : State) (r : Remote) (port detail : Nat) (d : LineBits) : State :=
  match r with
  | .store core gid x => answerStore s core gid x detail port
  | .atom a => answerAtom s a detail d
  | .read id pa => answerRead s id pa detail d
  | .contribution _ c => if detail == 0 then s else failContribution s c
  | .flit _ => s

/-! ### Delivery -/

/-- The kinds of an atomic as a request over a link names them; a completion word's decrement and CNTADD have one of their
own, since they count for the graph walker (R248). -/
def AtomOp.code (op : AtomOp) (counts : Bool) : Nat := match op with
  | .add => if counts then 10 else 0
  | .min true => 1
  | .min false => 2
  | .max true => 3
  | .max false => 4
  | .and => 5
  | .or => 6
  | .xor => 7
  | .xch => 8
  | .cas => 9
  | .fadd f => 16 + f.code
  | .nibble f hi => 64 + 2 * f.code + hi.toNat

def AtomOp.ofCode (n : Nat) : AtomOp := match n with
  | 1 => .min true
  | 2 => .min false
  | 3 => .max true
  | 4 => .max false
  | 5 => .and
  | 6 => .or
  | 7 => .xor
  | 8 => .xch
  | 9 => .cas
  | _ => if 64 ≤ n then .nibble ((Fmt.ofCode ((n - 64) / 2)).getD .i4) ((n - 64) % 2 == 1) else if 16 ≤ n then .fadd ((Fmt.ofCode (n - 16)).getD .f32) else .add

/-- The offset of a linked address in its device's HBM (R296), and the device that its window names. -/
def offsetOf (pa : Nat) : Nat := bits pa 0 39
def deviceOf (s : State) (pa : Nat) : Nat := (windowDest s pa).getD 0

/-- The request that a port sends for an entry, with its destination. -/
def requestFlit (s : State) (id : Nat) : Remote → Nat × LinkMsg
  | .store _ _ x => match x.line with
    | .mem pa => (deviceOf s pa, .store id (offsetOf pa) x.data x.mask)
    | .pad _ _ => (0, .store id 0 x.data x.mask)
  | .atom a => match a.loc with
    | .mem pa => (deviceOf s pa, .atomic id (offsetOf pa) a.width (a.op.code (a.node == 1)) a.operand a.compare)
    | .pad _ _ => (0, .atomic id 0 a.width 0 0 0)
  | .read _ pa => (deviceOf s pa, .load id (offsetOf pa))
  | .contribution dest c => (dest, .contribution c.tag c.rank c.descriptor c.members c.elements)
  | .flit f => (f.dest, f.msg)

def State.port (s : State) (p : Nat) : LinkPort := Sparse.getD s.ports p .idle
def State.setPort (s : State) (p : Nat) (x : LinkPort) : State := { s with ports := Sparse.set s.ports p x .idle }

/-- Sending an entry on a link: it takes the next number, carries the latest number accepted, and stays in the retry buffer until it is
acknowledged (R412, R432). -/
def sendFlit (s : State) (p : Nat) (r : Remote) : State :=
  let (id, s) := s.fresh
  let (dest, msg) := requestFlit s id r
  let src := match r with
    | .flit f => f.src
    | _ => s.host.nodeid.toNat
  let x := s.port p
  let f : Flit := { seq := x.next, ack := x.expected - 1, src := src, dest := dest, hlc := (s.hlcOf hubDie).word, msg := msg }
  let s := s.setPort p { x with next := x.next + 1, retry := x.retry ++ [f] }
  match r with
  | .contribution _ _ | .flit _ => s
  | r => { s with outstanding := s.outstanding ++ [{ id := id, port := p, what := r }] }

/-- DELIVERY (R274): the head of a delivery queue leaves for its home; at a port that is down it fails (R434). -/
def execDelivery (queue : Nat) (s : State) : Outcome State Fault Refusal :=
  match s.queueOf queue with
  | [] => .next s
  | r :: rest =>
    let popped := { s with delivery := Sparse.set s.delivery queue rest [] }
    if queue == 16 then
      let (id, s) := popped.fresh
      .next { s with outstanding := s.outstanding ++ [{ id := id, port := 16, what := r }] }
    else if (s.port queue).down then done (answerRemote popped r queue 7 0)
    else if 512 ≤ (s.port queue).retry.length then .next s
    else .next (sendFlit popped queue r)

/-! ### Requests of other devices -/

/-- Whether an entry of the inbound table grants a kind of request of a sender at an offset (R434): bit 62 loads, 61 stores, 60
atomics. -/
def inboundGrants (s : State) (src off right : Nat) : Bool :=
  (List.range 64).any fun k =>
    let e := (Sparse.getD s.inbound k (0 : BitVec 128)).toNat
    e.testBit 63 && e.testBit right && bits e 40 16 == src && decide (bits e 16 23 * 65536 ≤ off) && decide (off < bits e 80 23 * 65536)

/-- The detail that refuses a request, 0 if it is accepted. -/
def inboundCheck (s : State) (src off right : Nat) : Nat :=
  if 0x6000000000 ≤ off then 1 else if inboundGrants s src off right then 0 else 2

/-- Whether a store of a device is still on its way to its home: its later requests wait, so that entries of one queue are
applied in order (R274). -/
def inboundPending (s : State) (src : Nat) : Bool := s.homeq.any fun e => e.2.any fun x => (x.reply.map (·.1)) == some src

/-- A request of a device, accepted or refused; none where it has to wait at this device. -/
def serveRequest (s : State) (src : Nat) (m : LinkMsg) : Option State :=
  match m with
  | .load id off =>
    let c := inboundCheck s src off 62
    if c != 0 then some (answerDevice s src id c 0)
    else if inboundPending s src || homeBusy s (.mem off) then none
    else if homePoisoned s (.mem off) then some (answerDevice s src id 6 0)
    else
      let (d, _, s) := homeRead (exchange s hubDie (homeDie off)) (off / 128 * 128) 1
      some (answerDevice s src id 0 d)
  | .store id off data mask =>
    let c := inboundCheck s src off 61
    if c != 0 then some (answerDevice s src id c 0)
    else if inboundPending s src then none
    else
      let x : Store := { line := .mem (off / 128 * 128), va := 0, data := data, mask := mask, policy := 1 }
      let k := sliceOf off
      some (tell { s with homeq := Sparse.set s.homeq k (Sparse.getD s.homeq k [] ++ [{ core := none, store := x, reply := some (src, id) }]) [] }
        hubDie (homeDie off))
  | .atomic id off width op operand compare =>
    let c := inboundCheck s src off 60
    if c != 0 then some (answerDevice s src id c 0)
    else if inboundPending s src || homeBusy s (.mem off) then none
    else if homePoisoned s (.mem off) then some (answerDevice s src id 6 0)
    else
      let s := (homeRead (exchange s hubDie (homeDie off)) (off / 128 * 128) 1).2.2
      let d := homeLine s (off / 128 * 128)
      let old := lineBytes d (off % 128) (width / 8)
      let new := (AtomOp.ofCode op).new width old operand compare
      let s := writeHome s none (.mem off) (width / 8) new
      let s := if op == 10 && new == 0 then nodeZero s (.mem off) else s
      some (answerDevice s src id 0 d)
  | .answer id detail d =>
    match s.outstanding.find? fun o => o.id == id with
    | none => some s
    | some o => some (answerRemote { s with outstanding := s.outstanding.filter fun x => x.id != id } o.what o.port detail d)
  | .contribution tag rank descriptor members elements =>
    some { s with mailbox := s.mailbox ++ [{ tag := tag, rank := rank, descriptor := descriptor, members := members, elements := elements }] }

/-- The flits left after an acknowledgement of all up to a number. -/
def acked (ack : BitVec 12) (fs : List Flit) : List Flit :=
  match fs.findIdx? fun f => f.seq == ack with
  | some i => fs.drop (i + 1)
  | none => fs

/-- Taking in an acknowledgement: the oldest flit left has been replayed no times yet. -/
def takeAck (s : State) (p : Nat) (ack : BitVec 12) : State :=
  let x := s.port p
  let left := acked ack x.retry
  if left.length == x.retry.length then s else s.setPort p { x with retry := left, replays := 0 }

/-- Returning a reply to the other end of a port (R412). -/
def reply (s : State) (p : Nat) (r : LinkReply) : State := s.setPort p { s.port p with returned := some r }

/-- Whether a number is one of the 512 accepted last. -/
def LinkPort.hasAccepted (x : LinkPort) (seq : BitVec 12) : Bool := decide ((x.expected - 1 - seq).toNat < 512)

/-- LINK_FLIT_RECEIVE (R412, R432 to R434, R437): a flit in which more than 8 bytes are in error fails its CRC after FEC, is logged and draws a
NAK; up to 8 are corrected and logged. Only the next expected number is accepted; one accepted already is acknowledged and dropped. A flit for
another device is forwarded; one that no route takes on is lost. -/
def execLinkFlitReceive (port : Nat) (seq ack : BitVec 12) (errors : Nat) (src dest : Nat) (hlc : Word) (msg : LinkMsg) (s : State) :
    Outcome State Fault Refusal :=
  if 16 ≤ port || (s.port port).down then .next s
  else
    let x := s.port port
    let logged := if errors == 0 then s else logError s 0 6 0 none port
    if 8 < errors then .next (reply logged port (.nak x.expected))
    else
      let s' := takeAck logged port ack
      if x.expected != seq then .next (if x.hasAccepted seq then reply s' port (.ack (x.expected - 1)) else s')
      else
        let go (t : State) : Outcome State Fault Refusal :=
          done (t.setPort port { t.port port with expected := seq + 1, returned := some (.ack seq) })
        let h := receiveStamp s' hubDie hlc
        if dest != s.host.nodeid.toNat then
          match routePort s' dest with
          | some p => go (enqueue h p (.flit { seq := 0, ack := 0, src := src, dest := dest, hlc := 0, msg := msg }))
          | none => go (logError h 0 6 1 none port)
        else
          match serveRequest h src msg with
          | some t => go t
          | none => .next s

/-- LINK_REPLAY (R412): the sender replays from the number that a NAK carries; the flits before it have been accepted. -/
def execLinkReplay (port : Nat) (expected : Nat) (s : State) : Outcome State Fault Refusal :=
  let x := s.port port
  let e := BitVec.ofNat 12 expected
  match x.retry.findIdx? fun f => f.seq == e with
  | none => .next s
  | some i =>
    if x.down || 16 ≤ x.replays then .next s
    else .next (s.setPort port { x with retry := x.retry.drop i, replays := if i == 0 then x.replays + 1 else 1 })

/-- Collectives that still wait for the contribution of a member to which the way leads through a port (R237, R242). -/
def failWaiting (s : State) (port : Nat) : State :=
  s.cmds.foldl (fun s e =>
    let missing (m : Nat × Nat) : Bool := m.1 != e.2.rank && routePort s m.2 == some port && !e.2.contributions.any fun c => c.rank == m.1
    let here (m : Nat × Nat) : Bool := s.mailbox.any fun c => c.tag == e.2.tag && c.rank == m.1 && c.members == e.2.members
    if e.2.kind == CmdKind.coll && e.2.started && !e.2.computed &&
        ((List.range e.2.teamSize).zip e.2.members).any fun m => missing m && !here m then failCmd s e.1 e.2 0x22 0
    else s) s

/-- The end of everything that a port owes: requests fail, collectives whose contribution had not arrived, or that wait for one through
the port, end (R434, R237, R242). -/
def failPort (s : State) (port : Nat) : State :=
  let mine := s.outstanding.filter fun o => o.port == port
  let sent := (s.port port).retry
  let s := { s with outstanding := s.outstanding.filter fun o => o.port != port }
  let s := mine.foldl (fun s o => answerRemote s o.what port 7 0) s
  let s := sent.foldl (fun s f => match f.msg with
    | .contribution tag rank descriptor members elements =>
      if f.src == s.host.nodeid.toNat then
        failContribution s { tag := tag, rank := rank, descriptor := descriptor, members := members, elements := elements }
      else s
    | _ => s) s
  failWaiting s port

/-- LINK_RETRAIN (R412): after 16 replays of one flit the port retrains; if that fails the port is down. -/
def execLinkRetrain (port : Nat) (ok : Bool) (s : State) : Outcome State Fault Refusal :=
  let x := s.port port
  if x.down || x.replays < 16 then .next s
  else if ok then .next (s.setPort port { x with replays := 0 })
  else
    let s := failPort (logError s 0 6 1 none port) port
    done (s.setPort port { x with retry := [], replays := 0, down := true })

/-! ### The host port -/

/-- A line from the bytes that the host returns. -/
def lineOfBytes (bs : List Byte) : LineBits := BitVec.ofNat 1024 (leValue bs)

/-- HOST_REQUEST_COMPLETION (R430): a request to host memory is answered with the bytes of the line that holds its address, or
it fails, with bytes where the data are poisoned and without where there is no response. -/
def execHostRequestCompletion (id : Nat) (ok : Bool) (data : List Byte) (s : State) : Outcome State Fault Refusal :=
  match s.outstanding.find? fun o => o.id == id && o.port == 16 with
  | none => .next s
  | some o =>
    let s := { s with outstanding := s.outstanding.filter fun x => x.id != id }
    let detail := if ok then 0 else if data.isEmpty then 7 else 6
    let s := match o.what with
      | .store _ _ _ => s
      | _ => if ok then s else logError s 0 7 1 none 16
    done (answerRemote s o.what 16 detail (lineOfBytes data))

/-! ### Reads by the hub -/

/-- What a read of the hub finds. -/
inductive HubBytes
  | ok (x : Nat)
  | wait
  | failed (detail : Nat)
  deriving DecidableEq, Repr

/-- One line for a reader of the hub: HBM at its home, the host or a linked device by a request. -/
def hubLine (s : State) (who line : Nat) : HubBytes × State :=
  if isRemote (.mem line) then
    match s.hubReads.find? fun r => r.who == who && r.line == line with
    | some r => match r.got with
      | none => (.wait, s)
      | some (.failed detail) => (.failed detail, s)
      | some (.line d) => (.ok d.toNat, s)
    | none =>
      match portOf s line with
      | none => (.failed 1, s)
      | some p =>
        let (id, s) := s.fresh
        (.wait, enqueue { s with hubReads := s.hubReads ++ [{ who := who, line := line, id := id, got := none }] } p (.read id line))
  else if regionOf line != .hbm then (.failed 1, s)
  else if homeBusy s (.mem line) then (.wait, s)
  else if homePoisoned s (.mem line) then (.failed 6, s)
  else
    let (d, _, s) := homeRead (exchange s hubDie (homeDie line)) line 1
    (.ok d.toNat, s)

/-- Lines for a reader of the hub, as one number: the first failure or wait decides. -/
def hubLines (s : State) (who : Nat) : List Nat → HubBytes × State
  | [] => (.ok 0, s)
  | l :: ls =>
    match hubLine s who l with
    | (.ok d, s) =>
      (match hubLines s who ls with
        | (.ok x, s) => (.ok (d + 2 ^ 1024 * x), s)
        | r => r)
    | r => r

/-- `n` bytes at a physical address. -/
def hubBytes (s : State) (who pa n : Nat) : HubBytes × State :=
  match hubLines s who ((List.range ((pa % 128 + n + 127) / 128)).map fun i => pa / 128 * 128 + 128 * i) with
  | (.ok x, s) => (.ok (bits x (8 * (pa % 128)) (8 * n)), s)
  | r => r

/-- A reader of the hub has done with what it read at the host or at linked devices. -/
def dropHubReads (s : State) (who : Nat) : State := { s with hubReads := s.hubReads.filter fun r => r.who != who }

/-- Words of a number. -/
def wordsFrom (x n : Nat) : List Word := (List.range n).map fun i => BitVec.ofNat 64 (bits x (64 * i) 64)

end Sys2Proof.Machine
end

