-- ==== Sys2Proof/Machine/Launch.lean ====
section
/-! DEFINITION. The hub's addresses, launches and queues: virtual addresses of packets (R399), the kernel header and its checks
(R324 to R326), mapping and unmapping of queues, doorbells and quantum boundaries (R395 to R397, R409, R410), and the end of a
launch (R403). -/

namespace Sys2Proof.Machine

open Host (Outcome)

/-! ### Addresses of packets -/

/-- Translation for the hub on the path of a partition's first cluster (R399): the physical address, the detail of R170, or a wait for the
line of an entry. -/
def hubAddr (s : State) (part asn va : Nat) (need : Need) : HubBytes × State :=
  if 2 ^ 56 ≤ va then (.failed 3, s)
  else if inPadWindow va then (.failed 4, s)
  else
    match s.part? part with
    | none => (.failed 1, s)
    | some p =>
      let (w, s) := translateCluster s (lowestCluster p) part asn va
      match checkPage va need w with
      | .ok (.mem pa) => (.ok pa, s)
      | .access d => (.failed d, s)
      | .held => (.wait, s)
      | _ => (.failed 1, s)

/-- A range cut at the ends of its 64 KiB pages: first address and length. -/
def pagePieces (va n : Nat) : List (Nat × Nat) :=
  let first := va / 65536
  ((List.range ((va + n + 65535) / 65536 - first)).map fun i =>
    let lo := max va ((first + i) * 65536)
    (lo, min (va + n) ((first + i + 1) * 65536) - lo)).filter fun e => e.2 != 0

/-- Bytes at a virtual address for the hub, piece by piece. -/
def hubPieces (s : State) (who part asn : Nat) : List (Nat × Nat) → HubBytes × State
  | [] => (.ok 0, s)
  | (va, n) :: ps =>
    match hubAddr s part asn va .rd with
    | (.failed d, s) => (.failed d, s)
    | (.wait, s) => (.wait, s)
    | (.ok pa, s) =>
      match hubBytes s who pa n with
      | (.ok x, s) =>
        (match hubPieces s who part asn ps with
          | (.ok y, s) => (.ok (x + 2 ^ (8 * n) * y), s)
          | r => r)
      | r => r

def hubVirtual (s : State) (who part asn va n : Nat) : HubBytes × State := hubPieces s who part asn (pagePieces va n)

/-! ### The kernel header -/

/-- A kernel header (R324). -/
structure Header where
  words : List Word
  deriving DecidableEq, Repr

def Header.f (h : Header) (i lo n : Nat) : Nat := blk h.words i lo n
def Header.scratch (h : Header) : Nat := h.f 0 48 8
def Header.divstack (h : Header) : Nat := h.f 0 40 8
def Header.place (h : Header) : Nat := h.f 0 32 3
def Header.mregs (h : Header) : Nat := h.f 0 24 4
def Header.vregs (h : Header) : Nat := h.f 0 16 8
def Header.width (h : Header) (k : Nat) : Nat := h.f 1 (6 * k) 6
def Header.widths (h : Header) : List Nat := (List.range 6).map h.width
def Header.entries (h : Header) : Nat := h.f 2 32 5
def Header.lease (h : Header) : Nat := h.f 2 0 12
def Header.scrub (h : Header) : Bool := h.f 2 12 1 == 1

/-- Whether a reserved bit of the header is set. -/
def Header.reserved (h : Header) : Bool :=
  h.f 0 56 8 != 0 || h.f 0 35 5 != 0 || h.f 0 28 4 != 0 || h.f 1 36 28 != 0 || h.f 2 37 27 != 0 || h.f 2 29 3 != 0 || h.f 2 13 3 != 0 ||
    h.f 3 56 8 != 0 || h.f 4 56 8 != 0 || [5, 6, 7].any fun i => h.f i 0 64 != 0

/-- Groups of one stand (R328), and stands of a launch with the extents of fields 2 to 5. -/
def groupsPerStand (widths : List Nat) (place : Nat) : Nat := 2 ^ ((widths.take place).drop 1).foldl (· + ·) 0
def standsOf (place : Nat) (extents : List Nat) : Nat := (extents.drop (place - 2)).foldl (· * ·) 1

/-- The values of a DISPATCH body (R400), from its nine words at 0x08 to 0x48. -/
structure Body where
  words : List Word
  deriving DecidableEq, Repr

def Body.f (b : Body) (i lo n : Nat) : Nat := blk b.words i lo n
def Body.lspanCode (b : Body) : Nat := b.f 0 58 2
def Body.extent (b : Body) (k : Nat) : Nat := b.f (2 + (k - 2) / 2) (32 * (k % 2)) 32
def Body.extents (b : Body) : List Nat := [b.extent 2, b.extent 3, b.extent 4, b.extent 5]
def Body.lfix (b : Body) : Option Nat := if b.f 0 60 1 == 1 then some (b.f 7 0 11) else none

/-- Whether the layout forbids a value of the body. -/
def Body.bad (b : Body) : Bool :=
  b.f 0 61 3 != 0 || b.lspanCode == 3 || b.f 1 56 8 != 0 || b.f 5 56 8 != 0 || b.f 5 0 3 != 0 || b.f 6 56 8 != 0 || b.f 6 0 3 != 0 ||
    b.f 7 11 53 != 0 || b.f 8 0 64 != 0

/-- Whether a lease may ever take a plate of a field: in service, not worn, and outside the streaming reserve (R330, R353, R355). -/
def leasable (s : State) (p : Partition) (cl plate : Nat) : Bool := s.plateWritable (plateKey cl plate) && decide (plate < 2048 - p.rsv)

/-- Whether a directory placement names a plate of a field. -/
def namedPlate (s : State) (cl plate : Nat) : Bool := (s.placed cl).any fun e => e.2.meets plate 1

/-- The first clusters of the aligned groups of `span` clusters that a partition holds whole. -/
def spanGroups (p : Partition) (span : Nat) : List Nat :=
  (List.range (128 / span)).map (· * span) |>.filter fun f => (List.range span).all fun i => p.holds (f + i)

/-- Whether plates `base` to `base + n − 1` may be taken in every field of a span group. -/
def plateRun (span first base n : Nat) (ok : Nat → Nat → Bool) : Bool :=
  (List.range span).all fun i => (List.range n).all fun k => ok (first + i) (base + k)

/-- Whether an empty lease group of the partition provides the plates (R326). -/
def leaseExists (s : State) (p : Partition) (span n : Nat) (fix : Option Nat) : Bool :=
  n == 0 || (spanGroups p span).any fun first => match fix with
    | some base => plateRun span first base n (leasable s p)
    | none => (List.range (2049 - n)).any fun base => plateRun span first base n fun c k => leasable s p c k && !namedPlate s c k

/-- The checks of R326 after the header has been read, the first failure deciding. -/
def headerCode (s : State) (p : Partition) (h : Header) (entries : List Nat) (b : Body) (span : Nat) : Nat :=
  let g := groupsPerStand h.widths h.place
  let traph := h.f 4 0 56
  firstCode [
    (h.f 0 0 16 != 1, 0x02),
    (h.reserved, 0x03),
    (h.vregs == 0 || decide (64 < h.vregs), 0x04),
    (decide (8 < h.mregs), 0x05),
    (h.width 0 != 5 || decide (64 < h.widths.foldl (· + ·) 0) || decide (h.place < 2) || decide (5 < h.place) || decide (64 < g), 0x06),
    (decide (192 < h.scratch), 0x07),
    (decide (2048 < h.lease) || (match b.lfix with | some f => decide (2048 < f + h.lease) | none => false), 0x08),
    (h.entries == 0 || decide (16 < h.entries) || (entries.any fun e => e % 8 != 0) || traph % 8 != 0 || decide (4096 < h.f 2 16 13) || h.divstack == 0, 0x09),
    (([2, 3, 4, 5].any fun k => if k < h.place then b.extent k != 1 else b.extent k == 0 || decide (2 ^ h.width k < b.extent k)), 0x0A),
    (decide (256 < g * ((h.vregs + 7) / 8)) || decide (32 < g * h.mregs) || !leaseExists s p span h.lease b.lfix, 0x0B)]

/-- A launch whose checks have been made: with a status it places no stand. -/
def newLaunch (part asn qid prio : Nat) (h : Header) (entries : List Nat) (b : Body) (span code seq done stat : Nat) : Launch :=
  { part := part, khdr := BitVec.ofNat 56 (b.f 0 0 56), vregs := h.vregs, mregs := h.mregs, widths := h.widths, place := h.place,
    entries := entries.map fun e => BitVec.ofNat 56 e, traph := BitVec.ofNat 56 (h.f 4 0 56), scratch := h.scratch, divstack := h.divstack,
    lease := h.lease, scrub := h.scrub, extents := b.extents, kparam := BitVec.ofNat 64 (b.f 1 0 56), asn := asn, prio := prio,
    start := BitVec.ofNat 64 (b.f 4 0 64), lspan := span, lfix := b.lfix, total := if code == 0 then standsOf h.place b.extents else 0, placed := 0,
    ended := 0, status := BitVec.ofNat 8 code, late := false, queue := some qid, unsettled := [], done := BitVec.ofNat 64 done, stat := BitVec.ofNat 64 stat,
    seq := seq }

/-- What handing over launch values finds: they are handed over; a read is under way; or the queue stops. -/
inductive HandOver
  | ok
  | wait
  | stop (err detail : Nat)
  deriving DecidableEq, Repr

/-- The physical address of a word that a packet names, if it names one. -/
def optionalAddr (s : State) (part asn va : Nat) (need : Need) : HubBytes × State :=
  if va == 0 then (.ok 0, s) else hubAddr s part asn va need

/-- Handing the launch values of a DISPATCH body to the distributors, which check them (R325, R326, R402). -/
def handOver (s : State) (who : Nat) (q : QueueSlot) (b : Body) : HandOver × State :=
  if b.bad then (.stop 0x03 0, s)
  else
    match s.part? q.part with
    | none => (.stop 0x04 1, s)
    | some p =>
      match optionalAddr s q.part q.asn (b.f 5 0 56) .wr with
      | (.failed d, s) => (.stop 0x04 d, s)
      | (.wait, s) => (.wait, s)
      | (.ok _, s) =>
        match optionalAddr s q.part q.asn (b.f 6 0 56) .wr with
        | (.failed d, s) => (.stop 0x04 d, s)
        | (.wait, s) => (.wait, s)
        | (.ok _, s) =>
          let span := spanOf b.lspanCode
          let prio := min (b.f 0 56 2) q.maxp
          let put (s : State) (h : Header) (es : List Nat) (code : Nat) : HandOver × State :=
            let (id, s) := s.fresh
            (.ok, { s with launches := Sparse.insert s.launches id (newLaunch q.part q.asn q.qid prio h es b span code id (b.f 5 0 56) (b.f 6 0 56)) })
          let khdr := b.f 0 0 56
          let empty : Header := { words := [] }
          if khdr % 64 != 0 then put s empty [] 0x01
          else
            match hubVirtual s who q.part q.asn khdr 64 with
            | (.wait, s) => (.wait, s)
            | (.failed _, s) => put s empty [] 0x01
            | (.ok x, s) =>
              let h : Header := { words := wordsFrom x 8 }
              match hubVirtual s who q.part q.asn (h.f 3 0 56) (8 * h.entries) with
              | (.wait, s) => (.wait, s)
              | (.failed _, s) => put s h [] 0x01
              | (.ok y, s) =>
                let es := (List.range h.entries).map fun i => bits y (64 * i) 64
                put s h es (headerCode s p h es b span)

/-! ### Queue control blocks -/

/-- QSTATE of a queue that has not stopped (R396): runnable while its ring is not empty. -/
def ringState (rptr wptr : Nat) : Nat := if rptr == wptr then 0 else 1

/-- The word of a QCB at 0x20 (R396). -/
def QueueSlot.stateWord (q : QueueSlot) : Nat := q.qstate % 4 + q.qerr % 256 * 2 ^ 8 + q.qerrd % 256 * 2 ^ 16

/-- Writing RPTR and the state fields of a slot into its QCB. -/
def saveQcb (s : State) (q : QueueSlot) : State :=
  let s := hubWrite s (q.qcb + 0x08) 8 q.rptr
  let s := hubWrite s (q.qcb + 0x20) 8 q.stateWord
  hubWrite s (q.qcb + 0x28) 8 q.errptr

/-- Writing AGE, SLOT and PEND of a QCB. -/
def writeAge (s : State) (qcb age slot : Nat) (pend : Bool) : State :=
  hubWrite s (qcb + 0x40) 8 (age % 16 + slot % 128 * 2 ^ 8 + if pend then 2 ^ 16 else 0)

/-- The address of a queue's QCB, from the queue table (R392); 0 for no queue. -/
def qcbOf (s : State) (p : Partition) (qid : Nat) : Nat := bits (hubRead s (p.qtab + 8 * (qid % 4096)) 8) 0 52

/-- A word of a QCB. -/
def qcbWord (s : State) (qcb off : Nat) : Nat := hubRead s (qcb + off) 8

/-- A queue stops (R399). -/
def stopQueue (s : State) (n : Nat) (q : QueueSlot) (err detail : Nat) : State :=
  let q := { q with qstate := 2, qerr := err, qerrd := detail, errptr := q.rptr, taking := false, current := false, releasing := false, waiting := false, stage := 0, lines := [],
                    prologue := none, made := 0 }
  let s := dropHubReads { s with slots := Sparse.insert s.slots n q } n
  let s := saveQcb s q
  let s := if q.errw == 0 then s else hubWrite s q.errw 8 q.stateWord
  raiseIrq s q.errvec

/-- The slot of a queue, as its QCB gives it. -/
def slotFromQcb (s : State) (part qcb : Nat) (latest : Bool) : QueueSlot :=
  let w (off : Nat) : Nat := qcbWord s qcb off
  { part := part, qcb := qcb, rbase := bits (w 0) 0 56, rsize := bits (w 0) 56 5, rptr := bits (w 0x08) 0 32, wptr := bits (w 0x10) 0 32,
    qid := bits (w 0x18) 0 12, asn := bits (w 0x18) 16 12, bprio := bits (w 0x18) 28 2, maxp := bits (w 0x18) 30 2, qstate := bits (w 0x20) 0 2,
    qerr := bits (w 0x20) 8 8, qerrd := bits (w 0x20) 16 8, errptr := bits (w 0x28) 0 32, errw := bits (w 0x30) 0 56, errvec := bits (w 0x38) 0 16,
    age := bits (w 0x40) 0 4, mapped := s.devTime.toNat, latest := latest, leaving := none, injected := [], taking := false,
    current := false, releasing := false, waiting := false, stage := 0, lines := [], prologue := none, made := bits (w 0x48) 0 16 }

/-- Whether a QCB sets a reserved bit, or a ring size or base that the layout forbids (R395, R396). -/
def badQcb (s : State) (qcb : Nat) : Bool :=
  let w (off lo n : Nat) : Bool := bits (qcbWord s qcb off) lo n != 0
  let size := bits (qcbWord s qcb 0) 56 5
  w 0 61 3 || w 0x08 32 32 || w 0x10 32 32 || w 0x18 12 4 || w 0x18 32 32 || w 0x20 2 6 || w 0x20 24 40 || w 0x28 32 32 || w 0x30 56 8 ||
    w 0x38 16 48 || decide (size < 12) || decide (24 < size) || bits (qcbWord s qcb 0) 0 56 % 2 ^ size != 0

/-- The packets that wait for a slot of a partition, taken out of the list of all (R407). -/
def takeSubmitted (s : State) (part n : Nat) : List (Nat × Nat) × State :=
  let here (x : Submitted) : Bool := x.slot == n && x.part == part
  ((s.submitted.filter here).map fun x => (x.asn, x.va), { s with submitted := s.submitted.filter fun x => !here x })

/-- Mapping a queue into a slot (R409): its QCB is restored and PEND cleared, and it takes the packets submitted to the slot; a QCB that
breaks its layout stops the queue. -/
def mapQueue (s : State) (part n qid : Nat) (latest : Bool) : State :=
  match s.part? part with
  | none => s
  | some p =>
    let qcb := qcbOf s p qid
    if qcb == 0 then s
    else
      let (packets, s) := takeSubmitted s part n
      let q := { slotFromQcb s part qcb latest with qid := qid, injected := packets }
      let s := { s with idle := s.idle.filter fun e => !(e.part == part && e.qid == qid) }
      let s := writeAge { s with slots := Sparse.insert s.slots n q } qcb q.age n false
      if badQcb s qcb then stopQueue s n q 0x03 0
      else
        let q := { q with qstate := ringState q.rptr q.wptr }
        saveQcb { s with slots := Sparse.insert s.slots n q } q

/-- Whether a mapped queue has something to do (R409). -/
def QueueSlot.runnable (q : QueueSlot) : Bool := q.qstate != 2 && (q.rptr != q.wptr || !q.injected.isEmpty)

/-- Saving a queue and taking it out of its slot (R410); `since` is noted for a queue that stays runnable. Packets submitted to the slot stay
with its number (R407). -/
def unmapQueue (s : State) (n : Nat) (keep : Bool) : State :=
  match Sparse.find? s.slots n with
  | none => s
  | some q =>
    let left := { q with qstate := if q.qstate == 2 then 2 else ringState q.rptr q.wptr }
    let s := saveQcb s left
    let s := writeAge s q.qcb q.age 0x7F false
    let s := hubWrite s (q.qcb + 0x48) 8 q.made
    let s := dropHubReads { s with slots := Sparse.erase s.slots n } n
    let s := { s with submitted := s.submitted ++ q.injected.map fun x => { slot := n, part := q.part, asn := x.1, va := x.2 } }
    if keep && left.qstate == 1 then { s with idle := s.idle ++ [{ part := q.part, qid := q.qid, since := s.devTime.toNat }] } else s

/-- Leaving a slot for another queue, or for none. -/
def replaceQueue (s : State) (n : Nat) (next : Option Nat) : State :=
  match Sparse.find? s.slots n with
  | none => s
  | some q =>
    match next with
    | none => unmapQueue s n false
    | some qid => mapQueue (unmapQueue s n true) q.part n qid true

/-- Whether a slot is inside a packet that must be finished before it is left (R410). -/
def QueueSlot.busy (q : QueueSlot) : Bool := !q.waiting && q.current

/-- Whether a slot stays until its packet and submitted ones are consumed, where no other queue takes it (R337, R407). A packet that waits
for launches which the clearing has stopped is left unconsumed (DESIGN CHOICE): it could not be finished. -/
def QueueSlot.holds (q : QueueSlot) : Bool :=
  (q.busy && !(q.releasing && q.leaving == some none)) || (q.leaving == some none && q.qstate != 2 && !q.releasing && !q.injected.isEmpty)

/-- Leaving a slot that has been asked to, once its packet is consumed. -/
def finishLeave (s : State) (n : Nat) : State :=
  match Sparse.find? s.slots n with
  | none => s
  | some q => match q.leaving with
    | some next => if q.holds then s else replaceQueue s n next
    | none => s

/-! ### Doorbells -/

/-- The slots of a partition's queues, and a slot that is free while the quota has room (R392). -/
def slotsOfPart (s : State) (part : Nat) : List (Nat × QueueSlot) := s.slots.filter fun e => e.2.part == part
def freeSlot (s : State) (part : Nat) : Option Nat :=
  match s.part? part with
  | none => none
  | some p => if (slotsOfPart s part).length < p.quota then (List.range 64).find? fun n => (Sparse.find? s.slots n).isNone else none

/-- Whether the front ends of a partition work: it is not stopped, being cleared, or without an image. -/
def Partition.serves (p : Partition) : Bool := p.booted && !p.clearing && !p.stopped

/-- Whether a slot's front end works: in a clearing it finishes what it is in (R414). -/
def QueueSlot.served (q : QueueSlot) (p : Partition) : Bool := p.serves || (p.booted && !p.stopped && p.clearing && q.leaving == some none && q.holds)

/-- Whether a queue of a partition is to take a slot that another is about to leave. -/
def awaited (s : State) (part qid : Nat) : Bool := (slotsOfPart s part).any fun e => e.2.leaving == some (some qid)

/-- Writing QSTATE of an unmapped queue (R396). -/
def writeQstate (s : State) (qcb x : Nat) : State := hubWrite s (qcb + 0x20) 8 (setBits (qcbWord s qcb 0x20) 0 2 x)

/-- A write to DOORBELL (R397). Bytes of a packet that was not complete are read again (R395). -/
def ringDoorbell (s : State) (part value : Nat) : State :=
  match s.part? part with
  | none => s
  | some p =>
    let qid := bits value 0 12
    let wptr := bits value 32 32
    let qcb := qcbOf s p qid
    let at' := (slotsOfPart s part).find? fun e => e.2.qid == qid
    if qcb == 0 || bits (qcbWord s qcb 0x20) 0 2 == 2 then s
    else
      let s := hubWrite s (qcb + 0x10) 8 wptr
      match at' with
      | some (n, q) =>
        let q := { q with wptr := wptr, qstate := ringState q.rptr wptr }
        let s := if q.current then s else dropHubReads s n
        saveQcb { s with slots := Sparse.insert s.slots n q } q
      | none =>
        let s := writeAge (writeQstate s qcb 1) qcb (bits (qcbWord s qcb 0x40) 0 4) 0x7F true
        if awaited s part qid then s
        else
          match (if p.serves then freeSlot s part else none) with
          | some n => mapQueue s part n qid false
          | none =>
            if s.idle.any fun e => e.part == part && e.qid == qid then s
            else { s with idle := s.idle ++ [{ part := part, qid := qid, since := s.devTime.toNat }] }

/-- DOORBELL (R397). -/
def execDoorbell (part : Nat) (value : BitVec 128) (s : State) : Outcome State Fault Refusal :=
  done (ringDoorbell s part value.toNat)

/-! ### The quantum boundary -/

/-- EFF of a queue (R409). -/
def queueEff (bprio age : Nat) : Nat := 4 * bprio + age

/-- An unmapped queue with the QCB that it has in memory: base priority and age. -/
def idleEff (s : State) (p : Partition) (e : IdleQueue) : Nat :=
  let qcb := qcbOf s p e.qid
  queueEff (bits (qcbWord s qcb 0x18) 28 2) (bits (qcbWord s qcb 0x40) 0 4)

/-- Queues of the table that have become runnable without a doorbell: by creation with RPTR ≠ WPTR, or with PEND. -/
def discover (s : State) (part : Nat) (p : Partition) : State :=
  (List.range 4096).foldl (fun s qid =>
    let qcb := qcbOf s p qid
    let known := (s.idle.any fun e => e.part == part && e.qid == qid) || awaited s part qid || (slotsOfPart s part).any fun e => e.2.qid == qid
    if qcb == 0 || known || bits (qcbWord s qcb 0x20) 0 2 == 2 then s
    else if bits (qcbWord s qcb 0x08) 0 32 != bits (qcbWord s qcb 0x10) 0 32 || (qcbWord s qcb 0x40).testBit 16 then
      { writeQstate s qcb 1 with idle := s.idle ++ [{ part := part, qid := qid, since := s.devTime.toNat }] }
    else s) s

/-- The same for every partition, after system software has written: a queue is runnable from its creation on (R409). -/
def discoverAll (s : State) : State := s.parts.foldl (fun s e => discover s e.1 e.2) s

/-- The queues that age at a boundary: those unmapped and runnable, be they to take a slot that another still holds. -/
def ageing (s : State) (part : Nat) : List Nat :=
  (s.idle.filter fun e => e.part == part).map (·.qid) ++ (slotsOfPart s part).filterMap fun e => e.2.leaving.bind id

/-- Step 1: unmapped runnable queues age by 1 up to 12, mapped ones by −1 down to 0. -/
def ageQueues (s : State) (part : Nat) (p : Partition) : State :=
  let s := (ageing s part).foldl (fun s qid =>
    let qcb := qcbOf s p qid
    let w := qcbWord s qcb 0x40
    writeAge s qcb (min 12 (bits w 0 4 + 1)) 0x7F (w.testBit 16)) s
  (slotsOfPart s part).foldl (fun s e =>
    let aged (q : QueueSlot) : QueueSlot := { q with age := q.age - 1, latest := false }
    writeAge { s with slots := Sparse.modify s.slots e.1 aged } e.2.qcb (e.2.age - 1) e.1 false) s

/-- Step 2: queues that are not runnable leave their slots. -/
def dropIdle (s : State) (part : Nat) : State :=
  (slotsOfPart s part).foldl (fun s e => if e.2.runnable || e.2.busy then s else unmapQueue s e.1 false) s

/-- The best unmapped runnable queue of a partition: highest EFF, earliest since, lowest QID. -/
def bestIdle (s : State) (part : Nat) (p : Partition) : Option IdleQueue :=
  (s.idle.filter fun e => e.part == part).foldl (fun b e => match b with
    | none => some e
    | some x =>
      let a := idleEff s p e
      let c := idleEff s p x
      if c < a || (a == c && (e.since < x.since || (e.since == x.since && e.qid < x.qid))) then some e else b) none

/-- Step 3: free slots of the quota take the best queues. -/
def fillSlots (part : Nat) (p : Partition) : Nat → State → State
  | 0, s => s
  | k + 1, s =>
    match freeSlot s part, bestIdle s part p with
    | some n, some e => fillSlots part p k (mapQueue { s with idle := s.idle.filter (· != e) } part n e.qid true)
    | _, _ => s

/-- The worst mapped queue that was not mapped at this boundary and is not being left: lowest EFF, earliest mapped, highest QID. -/
def worstMapped (s : State) (part : Nat) : Option (Nat × QueueSlot) :=
  ((slotsOfPart s part).filter fun e => !e.2.latest && e.2.leaving.isNone).foldl (fun b e => match b with
    | none => some e
    | some x =>
      let a := queueEff e.2.bprio e.2.age
      let c := queueEff x.2.bprio x.2.age
      if a < c || (a == c && (e.2.mapped < x.2.mapped || (e.2.mapped == x.2.mapped && x.2.qid < e.2.qid))) then some e else b) none

/-- Step 4: while the best unmapped queue has EFF above the worst mapped one's, it takes that one's slot, at once or when its
packet is consumed. -/
def swapSlots (part : Nat) (p : Partition) : Nat → State → State
  | 0, s => s
  | k + 1, s =>
    match worstMapped s part, bestIdle s part p with
    | some (n, q), some e =>
      if queueEff q.bprio q.age < idleEff s p e then
        let s := { s with idle := s.idle.filter (· != e) }
        swapSlots part p k (if q.busy then
          { s with slots := Sparse.modify s.slots n fun x => { x with latest := true, leaving := some (some e.qid) } }
          else replaceQueue s n (some e.qid))
      else s
    | _, _ => s

/-- The nodes that reached 0 while their partition was in clearing are launched after its restore (R337): those whose payload is a command,
or all of them. -/
def launchHeld (s : State) (part : Nat) (all : Bool) : State :=
  let due (n : Node) : Bool := n.part == part && n.held && (all || bits (hubRead s (n.pa + 8) 8) 60 4 != 0)
  (s.nodes.filter due).foldl (fun s n => launchNode s n) s

/-- QUANTUM_BOUNDARY (R409): every 100 µs of device time. Nodes held through a clearing that dispatch are launched at it. -/
def execQuantumBoundary (part : Nat) (s : State) : Outcome State Fault Refusal :=
  match s.part? part with
  | none => .next s
  | some p =>
    let now := s.devTime.toNat / 100000
    if now ≤ p.quantum || !p.serves then .next s
    else
      let s := s.setPart part { p with quantum := now }
      let s := ageQueues (discover s part p) part p
      let s := fillSlots part p 64 (dropIdle s part)
      done (launchHeld (swapSlots part p 64 s) part true)

/-! ### The end of a launch -/

/-- The decrement of DONE, as an engine makes it (R403); it waits while the word's line is held. -/
def decrementDone (s : State) (word : Option Nat) (part asn : Nat) : Option State :=
  match word with
  | none => some s
  | some pa =>
  if isRemote (.mem pa) then
    match portOf s pa with
    | none => some (logError s pa 6 1 (some part) 0)
    | some p =>
      let (id, s) := s.fresh
      let a : Atom := { id := id, core := 0, gid := none, acc := 0, elem := 0, loc := .mem pa, width := 64, op := .add,
                        operand := 2 ^ 64 - 1, compare := 0, part := part, asn := asn, node := 1, last := false }
      some (enqueue s p (.atom a))
  else if homeBusy s (.mem pa) then none
  else some (decrementAt (tell s hubDie (homeDie pa)) (.mem pa))

/-- Whether stores or additions of a group that has retired, whether or not it has returned its place, are still on their way to their
homes. -/
def storesLeft (s : State) (gid : Nat) : Bool :=
  let c := s.core (gid / 64)
  ((Sparse.find? s.groups gid).any fun g => g.retired && !g.fifo.isEmpty) || (s.atoms.any fun a => a.gid == some gid) ||
    !(Sparse.getD c.orphans gid []).isEmpty || (c.cvp.any fun e => e.groups.contains gid) || remotePending s (gid / 64) gid

/-- A word that a launch writes at its end, translated then, since a shootdown leaves no translation behind (R321): none while the walk waits,
and no word where the packet names none, or where its page cannot be written any more (DESIGN CHOICE). -/
def endWord (s : State) (l : Launch) (va : Word) : Option (Option Nat) × State :=
  if va == 0 then (some none, s)
  else
    match hubAddr s l.part l.asn va.toNat .wr with
    | (.wait, s) => (none, s)
    | (.failed _, s) => (some none, s)
    | (.ok pa, s) => (some (some pa), s)

/-- The report of a launch (R401, R403): STAT first, then DONE; it waits while the line of DONE is held. -/
def reportLaunch (s : State) (launch : Nat) (l : Launch) (stat done : Option Nat) : State :=
  let s1 := match stat with
    | none => s
    | some pa => hubWrite s pa 8 (l.status.toNat + if l.late then 2 ^ 8 else 0)
  match decrementDone s1 done l.part l.asn with
  | none => s
  | some s => { s with launches := Sparse.erase s.launches launch }

/-- LAUNCH_END (R403): a launch whose checks have failed, or whose stands have all ended and released their resources, releases what its
groups have stored, reports its status and decreases DONE. -/
def execLaunchEnd (launch : Nat) (s : State) : Outcome State Fault Refusal :=
  match s.launch? launch with
  | none => .next s
  | some l =>
    if l.ended != l.total || l.unsettled.any (storesLeft s) || ((s.part? l.part).map (·.clearing)).getD false then .next s
    else
      match endWord s l l.stat with
      | (none, s) => .next s
      | (some stat, s) =>
        match endWord s l l.done with
        | (none, s) => .next s
        | (some word, s) => done (reportLaunch s launch l stat word)

end Sys2Proof.Machine
end

