-- ==== Sys2Proof/Machine/Front.lean ====
section
/-! DEFINITION. The front ends (R395, R398 to R402): reading packets, and what each packet does (R405 to R408), with the prologue
unit of INDIRECT. -/

namespace Sys2Proof.Machine

open Host (Outcome)

/-! ### Reading a packet -/

/-- The least length of a packet of a type, in units of 16 bytes (R400). -/
def typeUnits (t : Nat) : Nat := [0, 5, 6, 6, 2, 3, 2, 3].getD t 0

/-- One 16-byte unit of a ring: HBM beneath the slices, or host memory (R395). -/
def ringUnit (s : State) (n : Nat) (q : QueueSlot) (off : Nat) : HubBytes × State :=
  let a := q.rbase + off % 2 ^ q.rsize
  if regionOf a == .hbm then
    if s.poisoned.contains (a / 128 * 128) || s.hbmBad.contains (a / 128 * 128) then (.failed 6, s)
    else (.ok (lineBytes (lineAt s.hbm (a / 128 * 128)) (a % 128) 16), (bankRequest s (a / 128 * 128)).2)
  else
    match hubLine s n (a / 128 * 128) with
    | (.ok x, s) => (.ok (bits x (8 * (a % 128)) 128), s)
    | r => r

/-- `k` units of a ring from an offset, as one number. -/
def ringUnits (s : State) (n : Nat) (q : QueueSlot) (off : Nat) : Nat → HubBytes × State
  | 0 => (.ok 0, s)
  | k + 1 =>
    match ringUnit s n q off with
    | (.ok x, s) =>
      (match ringUnits s n q (off + 16) k with
        | (.ok y, s) => (.ok (x + 2 ^ 128 * y), s)
        | r => r)
    | r => r

/-- What reading the next packet finds. -/
inductive Packet
  | none
  | stop (err detail : Nat)
  | ready (type len : Nat) (words : List Word)
  deriving DecidableEq, Repr

/-- The checks of a header word in order (R398): the error, or none. -/
def headerError (size hdr : Nat) : Option Nat :=
  let len := bits hdr 8 20
  let type := bits hdr 0 8
  if size - 16 < len * 16 then some 0x01
  else if type == 0 || 7 < type then some 0x02
  else if len < typeUnits type then some 0x01
  else none

/-- A packet whose words have been read; a reserved bit of its header stops the queue. -/
def packetOf (hdr x : Nat) : Packet :=
  let type := bits hdr 0 8
  if bits hdr 28 4 != 0 then .stop 0x03 0 else .ready type (bits hdr 8 20) (wordsFrom x (2 * typeUnits type))

/-- The next packet of a ring. Of one that is not complete nothing is kept, so that its bytes are read again (R395, R398). -/
def ringPacket (s : State) (n : Nat) (q : QueueSlot) : Packet × State :=
  if q.rptr == q.wptr then (.none, dropHubReads s n)
  else
    match ringUnit s n q q.rptr with
    | (.wait, s) => (.none, s)
    | (.failed d, s) => (.stop 0x04 d, s)
    | (.ok x, s) =>
      let hdr := bits x 0 64
      match headerError (2 ^ q.rsize) hdr with
      | some e => (.stop e 0, s)
      | none =>
        if (q.wptr + 2 ^ q.rsize - q.rptr) % 2 ^ q.rsize < 16 * bits hdr 8 20 then (.none, dropHubReads s n)
        else
          match ringUnits s n q q.rptr (typeUnits (bits hdr 0 8)) with
          | (.ok y, s) => (packetOf hdr y, s)
          | (.wait, s) => (.none, s)
          | (.failed d, s) => (.stop 0x04 d, s)

/-- A packet that the graph walker has submitted: the 80 bytes of a DISPATCH packet (R407). -/
def walkerPacket (s : State) (n : Nat) (q : QueueSlot) (asn va : Nat) : Packet × State :=
  match hubVirtual s n q.part asn va 80 with
  | (.wait, s) => (.none, s)
  | (.failed d, s) => (.stop 0x04 d, s)
  | (.ok x, s) =>
    let hdr := bits x 0 64
    match headerError (2 ^ 24) hdr with
    | some e => (.stop e 0, s)
    | none => if bits hdr 0 8 == 1 then (packetOf hdr x, s) else (.stop 0x02 0, s)

/-- The packet that a slot is at: the one in progress, else a submitted one, else the ring's. -/
def nextPacket (s : State) (n : Nat) (q : QueueSlot) : Bool × Packet × State :=
  match q.injected with
  | (asn, va) :: _ => if q.taking || !(q.waiting || q.busy) then (true, walkerPacket s n q asn va) else (false, ringPacket s n q)
  | [] => (false, ringPacket s n q)

def State.putSlot (s : State) (n : Nat) (q : QueueSlot) : State := { s with slots := Sparse.insert s.slots n q }

/-- A step of a front end on a packet of one type, which is the current one from then on until it is consumed (R410). -/
def frontEnd (n type : Nat) (s : State) (f : QueueSlot → Nat → List Word → State → State) : Outcome State Fault Refusal :=
  match Sparse.find? s.slots n with
  | none => .next s
  | some q =>
    if !((s.part? q.part).map q.served).getD false || q.qstate == 2 then .next s
    else
      match nextPacket s n q with
      | (_, .none, s) => .next s
      | (_, .stop e d, s) => done (stopQueue s n q e d)
      | (inj, .ready t len ws, s) =>
        if t == type then
          let q := { q with taking := inj, current := true }
          done (f q len ws (s.putSlot n q))
        else .next s

/-- A packet is consumed (R402): RPTR passes it, and a slot that is to be left is left. -/
def consume (s : State) (n : Nat) (q : QueueSlot) (len : Nat) : State :=
  let after := { q with taking := false, current := false, releasing := false, waiting := false, stage := 0, lines := [], prologue := none, made := 0 }
  let s := dropHubReads s n
  if q.taking then finishLeave (s.putSlot n { after with injected := q.injected.drop 1 }) n
  else
    let rptr := (q.rptr + 16 * len) % 2 ^ q.rsize
    let after := { after with rptr := rptr, qstate := ringState rptr q.wptr }
    finishLeave (saveQcb (s.putSlot n after) after) n

/-! ### DISPATCH, COPY and GRAPH -/

/-- DISPATCH (R402): its launch values are handed over. -/
def execDispatch (slot : Nat) (s : State) : Outcome State Fault Refusal :=
  frontEnd slot 1 s fun q len ws s =>
    match handOver s slot q { words := ws.drop 1 } with
    | (.ok, s) => consume s slot q len
    | (.wait, s) => s
    | (.stop e d, s) => stopQueue s slot q e d

/-- COPY (R407): its command is queued at the copy engine of the partition's lowest cluster, for no stand. -/
def execCopy (slot : Nat) (s : State) : Outcome State Fault Refusal :=
  frontEnd slot 3 s fun q len ws s =>
    let block := (ws.drop 4).take 8
    let cplt := blk block 0 0 56
    let stat := blk ws 2 0 56
    if blk ws 1 0 2 == 3 || blk ws 1 2 62 != 0 || blk ws 2 56 8 != 0 || stat % 8 != 0 || blk ws 3 0 64 != 0 || cplt == 0 || cplt % 8 != 0 then
      stopQueue s slot q 0x03 0
    else
      match optionalAddr s q.part q.asn stat .wr with
      | (.failed d, s) => stopQueue s slot q 0x04 d
      | (.wait, s) => s
      | (.ok pa, s) =>
        let cl := ((s.part? q.part).map lowestCluster).getD 0
        if !queueRoom s cl (kindOfFunc (blk ws 1 0 2)) then s
        else
          let (id, s) := s.fresh
          let k := { newCmd (kindOfFunc (blk ws 1 0 2)) none none q.part q.asn (4 * cl) block s.tick.toNat with
                          stat := if stat == 0 then none else some (stat, pa) }
          consume (s.putCmd id k) slot q len

/-- The end of one node of a GRAPH: the next one, or the packet is consumed. -/
def graphNext (s : State) (slot : Nat) (q : QueueSlot) (len count : Nat) : State :=
  let s := dropHubReads s slot
  if q.stage + 1 < count then s.putSlot slot { q with stage := q.stage + 1 } else consume s slot q len

/-- Arming one node of a GRAPH (R407, R247): a refused record has STATE 3. -/
def graphNode (s : State) (slot : Nat) (q : QueueSlot) (len count va pa : Nat) : State :=
  match hubBytes s slot pa 64 with
  | (.wait, s) => s
  | (.failed d, s) => stopQueue s slot q 0x04 d
  | (.ok x, s) =>
    let ws := wordsFrom x 8
    let mine := s.nodes.filter fun m => m.part == q.part
    if regionOf pa != .hbm || badNode ws || (mine.any fun m => m.pa == pa) || 4096 ≤ mine.length then
      graphNext (hubWrite s (pa + 0x18) 8 3) slot q len count
    else if homeBusy s (.mem pa) then s
    else
      let m : Node := { pa := pa, va := va, part := q.part, asn := q.asn, stand := none, held := false }
      let s := setNodeState (tell { s with nodes := s.nodes ++ [m] } hubDie (homeDie pa)) m 1
      let s := if signedOf 64 (readHome s (.mem pa) 8) ≤ 0 then launchNode s m else s
      graphNext s slot ((Sparse.find? s.slots slot).getD q) len count

/-- GRAPH (R407): the listed records are armed in order. -/
def execGraph (slot : Nat) (s : State) : Outcome State Fault Refusal :=
  frontEnd slot 4 s fun q len ws s =>
    let list := blk ws 1 0 56
    let n := blk ws 2 0 13
    if blk ws 1 56 8 != 0 || list % 8 != 0 || blk ws 2 13 51 != 0 || n == 0 || 4096 < n || blk ws 3 0 64 != 0 then stopQueue s slot q 0x03 0
    else
      match hubVirtual s slot q.part q.asn (list + 8 * q.stage) 8 with
      | (.wait, s) => s
      | (.failed d, s) => stopQueue s slot q 0x04 d
      | (.ok va, s) =>
        if va % 64 != 0 then stopQueue s slot q 0x03 0
        else
          match hubAddr s q.part q.asn va .wr with
          | (.failed d, s) => stopQueue s slot q 0x04 d
          | (.wait, s) => s
          | (.ok pa, s) => graphNode s slot q len n va pa

/-! ### CMO, WAITMEM and SIGNAL -/

/-- What looking at a range gives: its lines, each with whether the range holds it whole; a wait; or the detail of its first page that
cannot be read. -/
inductive RangeLines
  | lines (ls : List (Nat × Bool))
  | wait
  | failed (detail : Nat)
  deriving DecidableEq, Repr

/-- The lines of a range of virtual addresses. -/
def rangePages (s : State) (part asn lo hi : Nat) : List (Nat × Nat) → List (Nat × Bool) → RangeLines × State
  | [], acc => (.lines acc, s)
  | (va, n) :: ps, acc =>
    match hubAddr s part asn va .rd with
    | (.failed d, s) => (.failed d, s)
    | (.wait, s) => (.wait, s)
    | (.ok pa, s) =>
      let first := va / 128 * 128
      let base := pa / 128 * 128
      let ls := (List.range ((va % 128 + n + 127) / 128)).map fun i =>
        (base + 128 * i, decide (lo ≤ first + 128 * i) && decide (first + 128 * i + 128 ≤ hi))
      rangePages s part asn lo hi ps (acc ++ ls)

/-- The effect of a CMO packet on one line: the L1 of every core of the partition, and the slices (R405). -/
def cmoPacketLine (s : State) (p : Partition) (op : Nat) (e : Nat × Bool) : State :=
  let s := p.cores.foldl (fun s c => cmoLine s c op false e.2 e.1) s
  cmoLine s (4 * lowestCluster p) op true e.2 e.1

/-- Whether the release that opens a CMO or a SIGNAL over the packets consumed before it is complete (R203, R405, R406): its queue's launches
have ended (R403), the partition's COPY commands too, and at .sys the hub's writes are acknowledged. -/
def packetsReleased (s : State) (q : QueueSlot) (sys : Bool) : Bool :=
  !(s.launches.any fun e => e.2.part == q.part && e.2.queue == some q.qid) &&
    !(s.cmds.any fun e => e.2.part == q.part && e.2.stand.isNone && e.2.gid.isNone) && !(sys && remotePending s 0 hubTag)

/-- CMO (R405): a release, then the range is checked before any line is acted on; lines that an engine owns are recalled first. -/
def execCmo (slot : Nat) (s : State) : Outcome State Fault Refusal :=
  frontEnd slot 5 s fun q len ws s =>
    let op := blk ws 1 0 2
    let scope := blk ws 1 4 3
    let addr := blk ws 2 0 56
    let size := blk ws 3 0 48
    if op == 3 || (scope != 5 && scope != 6) || blk ws 1 2 2 != 0 || blk ws 1 7 57 != 0 || blk ws 2 56 8 != 0 || blk ws 3 48 16 != 0 ||
        blk ws 4 0 64 != 0 || blk ws 5 0 64 != 0 then stopQueue s slot q 0x03 0
    else if size == 0 then consume s slot q len
    else if q.stage == 0 && !packetsReleased s q (scope == 6) then s.putSlot slot { q with releasing := true }
    else if q.stage == 0 then
      match rangePages s q.part q.asn addr (addr + size) (pagePieces addr size) [] with
      | (.failed d, s) => stopQueue s slot q 0x04 d
      | (.wait, s) => s
      | (.lines ls, s) => s.putSlot slot { q with stage := 1, releasing := false, lines := ls }
    else
      match s.part? q.part with
      | none => s
      | some p =>
        let free (e : Nat × Bool) : Bool := !heldBack s (.mem e.1)
        let s' := (q.lines.filter free).foldl (fun s e => cmoPacketLine s p op e) s
        let left := q.lines.filter fun e => !free e
        if left.isEmpty then consume s' slot q len else s'.putSlot slot { q with lines := left }

/-- Whether the layout forbids a WAITMEM packet. -/
def badWaitmem (ws : List Word) : Bool := blk ws 1 56 2 == 3 || blk ws 1 58 6 != 0 || blk ws 1 0 3 != 0 || blk ws 3 0 64 != 0

/-- WAITMEM (R406): the wait begins. -/
def execWaitmem (slot : Nat) (s : State) : Outcome State Fault Refusal :=
  frontEnd slot 6 s fun q _ ws s =>
    if q.waiting then s
    else if badWaitmem ws then stopQueue s slot q 0x03 0
    else
      match hubAddr s q.part q.asn (blk ws 1 0 56) .rd with
      | (.failed d, s) => stopQueue s slot q 0x04 d
      | (.wait, s) => s
      | (.ok _, s) => finishLeave (s.putSlot slot { q with waiting := true }) slot

/-- WAITMEM_READ (R406): one read of the word at its home; once the condition holds the packet is consumed. -/
def execWaitmemRead (slot : Nat) (s : State) : Outcome State Fault Refusal :=
  frontEnd slot 6 s fun q len ws s =>
    if !q.waiting then s
    else
      match hubVirtual s slot q.part q.asn (blk ws 1 0 56) 8 with
      | (.wait, s) => s
      | (.failed d, s) => stopQueue s slot q 0x04 d
      | (.ok x, s) => if waitHolds (blk ws 1 56 2) x (blk ws 2 0 64) then consume s slot q len else dropHubReads s slot

/-- Whether an atomic of the hub is still to be answered. -/
def hubAtomPending (s : State) : Bool :=
  let mine (r : Remote) : Bool := match r with
    | .atom a => a.gid.isNone
    | _ => false
  s.delivery.any (fun e => e.2.any mine) || s.outstanding.any fun o => mine o.what

/-- The write or addition of a SIGNAL; none where it has to wait. -/
def signalWrite (s : State) (part asn pa value : Nat) (add : Bool) : Option State :=
  if isRemote (.mem pa) then
    if !add then some (hubWrite s pa 8 value)
    else
      match portOf s pa with
      | none => some (logError s pa 6 1 (some part) 0)
      | some p =>
        let (id, s) := s.fresh
        some (enqueue s p (.atom { id := id, core := 0, gid := none, acc := 0, elem := 0, loc := .mem pa, width := 64, op := .add,
                                   operand := value, compare := 0, part := part, asn := asn, node := 0, last := false }))
  else if homeBusy s (.mem pa) then none
  else
    let old := readHome s (.mem pa) 8
    let s := if add then (homeRead s (pa / 128 * 128) 1).2.2 else s
    some (hubWrite s pa 8 (if add then (old + value) % 2 ^ 64 else value))

/-- SIGNAL (R406): a release, then the write or addition, then the interrupt behind it. -/
def execSignal (slot : Nat) (s : State) : Outcome State Fault Refusal :=
  frontEnd slot 7 s fun q len ws s =>
    let va := blk ws 1 0 56
    let add := blk ws 1 56 1 == 1
    if va % 8 != 0 || blk ws 1 58 6 != 0 || blk ws 3 16 48 != 0 || blk ws 4 0 64 != 0 || blk ws 5 0 64 != 0 then stopQueue s slot q 0x03 0
    else if q.stage == 0 then
      match hubAddr s q.part q.asn va (if add then .atomic else .wr) with
      | (.failed d, s) => stopQueue s slot q 0x04 d
      | (.wait, s) => s
      | (.ok pa, s) =>
        if !packetsReleased s q true then s.putSlot slot { q with releasing := true }
        else if homePoisoned s (.mem pa) && add then stopQueue s slot q 0x04 6
        else
          match signalWrite s q.part q.asn pa (blk ws 2 0 64) add with
          | none => s
          | some s => s.putSlot slot { q with stage := 1, releasing := false }
    else if remotePending s 0 hubTag || hubAtomPending s then s
    else consume (if blk ws 1 57 1 == 1 then raiseIrq s (blk ws 3 0 16) else s) slot q len

/-! ### INDIRECT -/

/-- A stand as it is placed. -/
def newStand (launch part core : Nat) (tag : BitVec 24) (units : List Nat) (lease : Lease) : Stand :=
  { launch := launch, part := part, core := core, tag := tag, units := units, lease := some lease, placements := [], tiles := [],
    field := .zero, engine := .zero, barriers := [], groups := [], handed := false, outAtRestore := [], scrub := none, ended := false, killed := false,
    status := 0 }

/-- The number under which the prologue unit of a slot stands while it executes one instruction; no group, stand or launch has
it. -/
def unitKey (slot : Nat) : Nat := 2 ^ 60 + slot

/-- The launch values that stand for a prologue unit: of its declared widths only lanes. -/
def unitLaunch (part asn : Nat) : Launch :=
  { newLaunch part asn 0 0 { words := [] } [] { words := [] } 1 0 0 0 0 with widths := [5, 0, 0, 0, 0, 0] }

/-- The unit of a prologue as an execution starts (R408): v1 to v9 hold the template, v10 the launches made. -/
def newUnit (slot entry made : Nat) (template : List Word) : Group :=
  let set (g : Group) (n x : Nat) : Group := g.setV n { val := splat x, tag := .u, full := true }
  let g := newGroup (unitLaunch 0 0) (unitKey slot) 0 0 0 0 (BitVec.ofNat 56 entry)
  let g := { g with slotA := Slot.at' (BitVec.ofNat 56 entry) 1 }
  let g := (List.range 9).foldl (fun g i => set g (i + 1) (template.getD i 0).toNat) g
  set g 10 made

/-- The meanings of majors 0x04 to 0x06, which the prologue unit executes. -/
def unitOp (i : Instr) (s : State) : Option (Outcome State Fault Refusal) :=
  match i with
  | .add o => some (execAdd o s)
  | .sub o => some (execSub o s)
  | .adds o => some (execAdds o s)
  | .subs o => some (execSubs o s)
  | .neg o => some (execNeg o s)
  | .abs o => some (execAbs o s)
  | .mul o => some (execMul o s)
  | .mulh o => some (execMulh o s)
  | .mad o => some (execMad o s)
  | .madw o => some (execMadw o s)
  | .min o => some (execMin o s)
  | .max o => some (execMax o s)
  | .and o => some (execAnd o s)
  | .or o => some (execOr o s)
  | .xor o => some (execXor o s)
  | .andn o => some (execAndn o s)
  | .not o => some (execNot o s)
  | .shl o => some (execShl o s)
  | .shr o => some (execShr o s)
  | .rot o => some (execRot o s)
  | .bfe o => some (execBfe o s)
  | .bfi o => some (execBfi o s)
  | .clz o => some (execClz o s)
  | .ctz o => some (execCtz o s)
  | .popc o => some (execPopc o s)
  | .brev o => some (execBrev o s)
  | .cmp o => some (execCmp o s)
  | .sel o => some (execSel o s)
  | .mov o => some (execMov o s)
  | .movw o => some (execMovw o s)
  | .lea o => some (execLea o s)
  | .idx o => some (execIdx o s)
  | .cvti o => some (execCvti o s)
  | .pack o => some (execPack o s)
  | .unpk o => some (execUnpk o s)
  | .plog o => some (execPlog o s)
  | .pmov o => some (execPmov o s)
  | _ => none

/-- Whether the prologue unit accepts a word (R408). -/
def unitAccepts (w ext : Word) : Bool :=
  match readWord w ext with
  | some (.endFall _) | some (.endb _) | some (.endexit _) => true
  | some (.ld o) | some (.lds o) => o.fmt == .b64 && o.a == .reg .vz
  | some _ => decide (4 ≤ majorOf w) && decide (majorOf w ≤ 6)
  | none => false

/-- Whether it accepts every word of a run behind the head. -/
def runAccepted : Nat → List Word → Bool
  | 0, _ => true
  | _, [] => true
  | n + 1, w :: ws => unitAccepts w (ws.getD 0 0) && runAccepted n (if Sys2Proof.wordsOf w == 2 then ws.drop 1 else ws)

/-- One instruction of the unit by the meaning that it has in a group: in a state that holds the unit in a place of its own,
from which only the unit is taken back. -/
def unitStep (s : State) (slot : Nat) (part asn : Nat) (g : Group) (i : Instr) : Option Group :=
  let k := unitKey slot
  let la := unitLaunch part asn
  let st := newStand k part 0 0 [] { base := 0, count := 0, span := 1, first := 0 }
  let t := { s with
    issuer := some k
    groups := Sparse.insert s.groups k { g with stand := k }
    stands := Sparse.insert s.stands k st
    launches := Sparse.insert s.launches k la }
  match unitOp i t with
  | some (.next t) =>
    match Sparse.find? t.groups k with
    | some h => if ((h.run.map (·.pos)).getD 0) == ((g.run.map (·.pos)).getD 0) then none else some h
    | none => none
  | _ => none

/-- What a step of the unit finds: it goes on; a read is under way; a trap code, or 0xF0 past the limit of runs; the end, with the
registers as the last run left them. -/
inductive UnitEnd
  | go (p : Prologue)
  | wait
  | error (detail : Nat)
  | done (g : Group)
  deriving DecidableEq, Repr

/-- A load of the unit: read at its home, at its step. -/
def unitLoad (s : State) (slot part asn : Nat) (c : Ctx) (o : Ops) (resident : Bool) : Except UnitEnd (Group × Run) × State :=
  if !(c.guard o).lane 0 then (.ok (c.g, c.r.after (opWords o)), s)
  else
    let ea := lane (c.read o none o.b).val 0
    if ea % 8 != 0 then (.error (.error 0x07), s)
    else
      match hubVirtual s slot part asn ea 8 with
      | (.wait, s) => (.error .wait, s)
      | (.failed _, s) => (.error (.error 0x06), s)
      | (.ok x, s) =>
        let d := Opnd.num o.d
        let g := c.g.setV d { val := splat x, tag := .u, full := true }
        let g := if resident then writePred g o.c (BitVec.allOnes 256) else g
        (.ok (g, (c.r.withdraw d).after (opWords o)), dropHubReads s slot)

/-- A trailer of the unit: END, ENDB or ENDEXIT. -/
def unitTrailer (c : Ctx) (t : Trail) (target : Option (BitVec 56)) (exit : Bool) (runs : Nat) : UnitEnd :=
  let g := c.g.publish c.r (publishSet c.r t.pub)
  if exit && (t.pred.val == 0 || c.taken t != 0) then .done g
  else
    let pc := match target with
      | some a => if c.taken t == 0 then c.r.fall else a
      | none => c.r.fall
    .go { unit := { g with slotA := Slot.at' pc 1, run := none }, runs := runs }

/-- One step of the prologue unit: a run is fetched and checked, or one instruction of it executes (R408). -/
def unitTurn (s : State) (slot : Nat) (part asn : Nat) (p : Prologue) : UnitEnd × State :=
  let g := p.unit
  match g.run with
  | none =>
    if 4096 ≤ p.runs then (.error 0xF0, s)
    else if g.slotA.st.pc.toNat % 8 != 0 then (.error 0x01, s)
    else
      let cl := ((s.part? part).map lowestCluster).getD 0
      let f : Fetcher := { hub := true, core := 4 * cl, part := part, asn := asn, head := g.slotA.st.pc.toNat,
                           declared := { vregs := 16, mregs := 0, place := 5 } }
      match f.run s with
      | (.stopped .wait, s) => (.wait, s)
      | (.stopped _, s) => (.error 0x06, s)
      | (.trap code _ _ _ _, s) => (.error code, s)
      | (.done ws, s) =>
        let head := ws.getD 0 0
        let n := Sys2Proof.wordsOf head
        if !runAccepted 32 (ws.drop n) then (.error 0x01, s)
        else
          let set := headSet head
          let buf := (setOrder set).foldl (fun m k => Sparse.set m k { val := (g.vreg k).val, tag := (g.vreg k).tag } .zero) []
          let r : Run :=
            { slotB := false, head := g.slotA.st.pc, words := ws, pos := n, ws := set, buf := buf, temps := [], withdrawn := 0, bank := false,
              committed := false, arrivals := [], waits := [], tblsw := none, returning := false, stores := [], issuedTables := [], stage := 0,
              query := 0, raised := none }
          (.go { unit := { g with run := some r }, runs := p.runs + 1 }, s)
  | some r =>
    let k := unitKey slot
    let la := unitLaunch part asn
    let c : Ctx := { gid := k, g := g, r := r, st := newStand k part 0 0 [] { base := 0, count := 0, span := 1, first := 0 }, la := la }
    match readWord (r.words.getD r.pos 0) (r.words.getD (r.pos + 1) 0) with
    | some (.endFall t) => (unitTrailer c t none false p.runs, s)
    | some (.endb t) => (unitTrailer c t (some (c.beyond t.tgt)) false p.runs, s)
    | some (.endexit t) => (unitTrailer c t none true p.runs, s)
    | some (.ld o) =>
      match unitLoad s slot part asn c o true with
      | (.ok (g, r), s) => (.go { unit := { g with run := some r }, runs := p.runs }, s)
      | (.error e, s) => (e, s)
    | some (.lds o) =>
      match unitLoad s slot part asn c o false with
      | (.ok (g, r), s) => (.go { unit := { g with run := some r }, runs := p.runs }, s)
      | (.error e, s) => (e, s)
    | some i =>
      match unitStep s slot part asn g i with
      | some g => (.go { unit := g, runs := p.runs }, s)
      | none => (.error 0x01, s)
    | none => (.error 0x01, s)

/-- What the verdict in v0 decides (R408). -/
def verdict (s : State) (slot : Nat) (q : QueueSlot) (len entry repMax : Nat) (template : List Word) (g : Group) : State :=
  let v (n : Nat) : Nat := lane (g.vreg n).val 0
  let body : Body := { words := (List.range 9).map fun i => BitVec.ofNat 64 (v (i + 1)) }
  match v 0 with
  | 1 =>
    match optionalAddr s q.part q.asn (body.f 5 0 56) .wr with
    | (.failed d, s) => stopQueue s slot q 0x04 d
    | (.wait, s) => s
    | (.ok dn, s) =>
      match optionalAddr s q.part q.asn (body.f 6 0 56) .wr with
      | (.failed d, s) => stopQueue s slot q 0x04 d
      | (.wait, s) => s
      | (.ok stat, s) =>
        match decrementDone (if body.f 6 0 56 == 0 then s else hubWrite s stat 8 0x13) (if body.f 5 0 56 == 0 then none else some dn) q.part q.asn with
        | some s => consume s slot ((Sparse.find? s.slots slot).getD q) len
        | none => s
  | 0 =>
    match handOver s slot q body with
    | (.ok, s) => consume s slot q len
    | (.wait, s) => s
    | (.stop e d, s) => stopQueue s slot q e d
  | 2 =>
    match handOver s slot q body with
    | (.ok, s) =>
      if q.made + 1 < repMax then
        let again : QueueSlot := { q with made := q.made + 1, current := false, prologue := none, stage := 0 }
        let s := finishLeave ((dropHubReads s slot).putSlot slot again) slot
        (match q.leaving with
          | some _ => s
          | none => s.putSlot slot { again with prologue := some { unit := newUnit slot entry (q.made + 1) template, runs := 0 } })
      else consume s slot q len
    | (.wait, s) => s
    | (.stop e d, s) => stopQueue s slot q e d
  | _ => stopQueue s slot q 0x05 0xF1

/-- INDIRECT (R408): one step of its prologue. -/
def execIndirect (slot : Nat) (s : State) : Outcome State Fault Refusal :=
  frontEnd slot 2 s fun q len ws s =>
    let template := (ws.drop 1).take 9
    let entry := blk ws 10 0 56
    let repMax := blk ws 11 0 16
    if blk ws 10 56 8 != 0 || blk ws 11 16 48 != 0 || repMax == 0 then stopQueue s slot q 0x03 0
    else
      match q.prologue with
      | none => s.putSlot slot { q with prologue := some { unit := newUnit slot entry q.made template, runs := 0 } }
      | some p =>
        match unitTurn s slot q.part q.asn p with
        | (.go p, s) => s.putSlot slot { q with prologue := some p }
        | (.wait, s) => s
        | (.error d, s) => stopQueue s slot q 0x05 d
        | (.done g, s) => verdict s slot q len entry repMax template g

end Sys2Proof.Machine
end

