-- ==== Sys2Proof/Machine/Save.lean ====
section
/-! DEFINITION. The save record of a group (R38, R39): its layout, a group written as a record, and one taken from a record (R327). -/

namespace Sys2Proof.Machine

/-- A translation register as 192 bits (R21). -/
def XReg.word (x : XReg) : Nat :=
  x.limit.toNat + (if x.atomic then 2 ^ 64 else 0) + (if x.wr then 2 ^ 65 else 0) + (if x.rd then 2 ^ 66 else 0) +
    (if x.valid then 2 ^ 67 else 0) + x.pbase.toNat * 2 ^ 76 + x.vbase.toNat * 2 ^ 128

/-- A translation register from its 192 bits. -/
def XReg.ofWord (x : Nat) : XReg :=
  { vbase := BitVec.ofNat 64 (bits x 128 64), pbase := BitVec.ofNat 52 (bits x 76 52), valid := x.testBit 67, rd := x.testBit 66,
    wr := x.testBit 65, atomic := x.testBit 64, limit := BitVec.ofNat 32 (bits x 0 32) }

/-- Up to the next multiple of 16. -/
def pad16 (n : Nat) : Nat := (n + 15) / 16 * 16

/-- The registers of one tag below the declared count, in ascending order. -/
def tagged (tags : List Nat) (t : Nat) : List Nat := (List.range tags.length).filter fun n => tags.getD n 3 == t

/-- Bytes of one m register of a shape, and of the m section. -/
def matrixBytes (shape : Nat × Nat) : Nat := pad16 (8 + 128 * shape.1 * shape.2)
def matrixSection (shapes : List (Nat × Nat)) : Nat := shapes.foldl (fun n x => n + matrixBytes x) 0

/-- The offsets of the U, A and G sections and the size of a record, from its shapes and the tags of its v registers. -/
structure Sections where
  u : Nat
  a : Nat
  g : Nat
  size : Nat
  deriving DecidableEq, Repr

def sectionsOf (shapes : List (Nat × Nat)) (tags : List Nat) : Sections :=
  let u := 0x340 + matrixSection shapes
  let a := u + pad16 (8 * (tagged tags 0).length)
  let g := a + 16 * (tagged tags 1).length
  { u := u, a := a, g := g, size := g + 256 * (tagged tags 2).length }

/-- One m register in a record (R39). -/
def MReg.record (m : MReg) : Nat :=
  m.rows + m.cols * 8 + packElems 32 (fun i =>
    let q := i % (m.rows * m.cols)
    mElem m.elems (i / (m.rows * m.cols)) (q / m.cols * 6 + q % m.cols)) (32 * (m.rows * m.cols)) * 2 ^ 64

/-- Flags of registers, one bit each. -/
def flagBits (f : Nat → Bool) (n : Nat) : Nat := packElems 1 (fun i => if f i then 1 else 0) n

/-- The pieces of the fixed part of a record: offset and value. -/
def Group.fixedPart (g : Group) (l : Launch) (size : Nat) : List (Nat × Nat) :=
  let live (x : Slot) : Nat := if x.st.live then 1 else 0
  [(0, size / 16 + l.vregs * 2 ^ 32 + l.mregs * 2 ^ 40), (0x008, flagBits (fun n => (g.vreg n).full) 64),
    (0x010, flagBits (fun n => (g.preg n).full) 16), (0x012, flagBits (fun n => (g.mreg n).full) 8), (0x018, g.tags 0 + g.tags 32 * 2 ^ 64),
    (0x028, g.slotA.st.pc.toNat), (0x030, g.slotA.st.mask.toNat), (0x034, g.slotB.st.mask.toNat), (0x038, g.slotB.st.pc.toNat),
    (0x040, g.rcv.toNat), (0x048, live g.slotA + live g.slotB * 2 + g.dsp.toNat * 2 ^ 8), (0x050, g.snap.head.toNat),
    (0x058, g.snap.livein.toNat), (0x060, g.wid.toNat), (0x068, g.spawnid.toNat), (0x070, g.trap.pc.toNat), (0x078, g.trap.cause.toNat),
    (0x080, g.trap.inst.toNat), (0x088, g.trap.inst2.toNat), (0x090, g.trap.addr.toNat),
    (0x098, g.trap.txcause.toNat + g.trap.arrive.toNat * 2 ^ 32), (0x0A0, packElems 192 (fun n => (g.xreg n).word) 8),
    (0x160, packElems 256 (fun n => (g.preg (n + 1)).val.toNat) 15)]

/-- The offset at which each m register of a record stands. -/
def matrixAt (shapes : List (Nat × Nat)) (n : Nat) : Nat := 0x340 + matrixSection (shapes.take n)

/-- The save record of a group: its size in bytes, and its bytes. -/
def Group.record (g : Group) (l : Launch) : Nat × Nat :=
  let shapes := (List.range l.mregs).map fun n => ((g.mreg n).rows, (g.mreg n).cols)
  let tags := (List.range l.vregs).map fun n => (g.vreg n).tag.code
  let t := sectionsOf shapes tags
  let at' (first step : Nat) (ns : List Nat) (f : VReg → Nat) : List (Nat × Nat) :=
    (List.range ns.length).map fun i => (first + step * i, f (g.vreg (ns.getD i 0)))
  let pieces := g.fixedPart l t.size ++
    ((List.range l.mregs).map fun n => (matrixAt shapes n, (g.mreg n).record)) ++
    at' t.u 8 (tagged tags 0) (fun r => affineBase r.val) ++
    at' t.a 16 (tagged tags 1) (fun r => affineBase r.val + affineStride r.val * 2 ^ 64) ++
    at' t.g 256 (tagged tags 2) (fun r => r.val.toNat)
  (t.size, pieces.foldl (fun n e => n + e.2 * 2 ^ (8 * e.1)) 0)

/-- Bits of a record: at a byte offset, from a bit, so many. -/
def recBits (x off lo n : Nat) : Nat := bits x (8 * off + lo) n

/-- The shapes and the tags that a record names for so many registers. -/
def recShapes (x : Nat) : Nat → List (Nat × Nat)
  | 0 => []
  | n + 1 =>
    let before := recShapes x n
    let w := 0x340 + matrixSection before
    before ++ [(recBits x w 0 3, recBits x w 3 3)]
def recTags (x n : Nat) : List Nat := (List.range n).map fun i => recBits x 0x018 (2 * i) 2

/-- Whether a range of bits of a record is nonzero. -/
def recUsed (x off lo n : Nat) : Bool := recBits x off lo n != 0

/-- Whether a record is refused (R419): other counts than the group's, a size that is not that of its counts, shapes and tags, the tag code
3, a reserved bit set; and, by inference, a shape that no m register has. -/
def recBad (x : Nat) (l : Launch) : Bool :=
  let shapes := recShapes x l.mregs
  let tags := recTags x l.vregs
  let t := sectionsOf shapes tags
  recBits x 0 32 8 != l.vregs || recBits x 0 40 4 != l.mregs || recUsed x 0 44 20 || recBits x 0 0 32 * 16 != t.size ||
    ((recTags x 64).any (· == 3)) || (shapes.any fun e => e.1 == 0 || 6 < e.1 || e.2 == 0 || 6 < e.2) || recUsed x 0x013 0 40 ||
    recUsed x 0x048 2 6 || recUsed x 0x048 16 48 || recUsed x 0x098 8 24 ||
    ((List.range l.mregs).any fun n =>
      let e := shapes.getD n (1, 1)
      let used := 8 + 128 * e.1 * e.2
      recUsed x (matrixAt shapes n) 6 58 || recUsed x (matrixAt shapes n + used) 0 (8 * (matrixBytes e - used))) ||
    recUsed x (t.u + 8 * (tagged tags 0).length) 0 (8 * (t.a - t.u - 8 * (tagged tags 0).length))

/-- An m register of a record. -/
def recMatrix (x w : Nat) (shape : Nat × Nat) (full : Bool) : MReg :=
  { rows := shape.1, cols := shape.2, full := full,
    elems := ofMat fun l q =>
      if q / 6 < shape.1 && q % 6 < shape.2 then
        recBits x (w + 8 + 4 * (l * (shape.1 * shape.2) + q / 6 * shape.2 + q % 6)) 0 32 else 0 }

/-- A group as a record gives it (R38, R39, R327), its translation registers with V 0. What a slot waits for stays while it stands where
the record says, and a suspended run while a trap is in force; reserved bits of TRAPCAUSE read as zero (R4). -/
def Group.reloaded (g : Group) (l : Launch) (x : Nat) : Group :=
  let shapes := recShapes x l.mregs
  let tags := recTags x l.vregs
  let t := sectionsOf shapes tags
  let place (tag n : Nat) : Nat := ((tagged tags tag).takeWhile (· != n)).length
  let vreg (n : Nat) : VReg :=
    let full := recUsed x 0x008 n 1
    match tags.getD n 0 with
    | 0 => { val := splat (recBits x (t.u + 8 * place 0 n) 0 64), tag := .u, full := full }
    | 1 =>
      let base := recBits x (t.a + 16 * place 1 n) 0 64
      let stride := recBits x (t.a + 16 * place 1 n) 64 64
      { val := ofElems 64 fun i => (base + i * stride) % 2 ^ 64, tag := .a, full := full }
    | _ => { val := BitVec.ofNat 2048 (recBits x (t.g + 256 * place 2 n) 0 2048), tag := .g, full := full }
  let g := (List.range l.vregs).foldl (fun g n => g.setV n (vreg n)) { g with v := [], p := [], m := [], x := [] }
  let g := (List.range 15).foldl (fun g n =>
    g.setP (n + 1) { val := BitVec.ofNat 256 (recBits x (0x160 + 32 * n) 0 256), full := recUsed x 0x010 (n + 1) 1 }) g
  let g := (List.range l.mregs).foldl (fun g n =>
    g.setM n (recMatrix x (matrixAt shapes n) (shapes.getD n (1, 1)) (recUsed x 0x012 n 1))) g
  let g := (List.range 8).foldl (fun g n => g.setX n { XReg.ofWord (recBits x (0x0A0 + 24 * n) 0 192) with valid := false }) g
  let a := slotFrom (recBits x 0x028 0 64) (recBits x 0x030 0 32) (recUsed x 0x048 0 1)
  let b := slotFrom (recBits x 0x038 0 64) (recBits x 0x034 0 32) (recUsed x 0x048 1 1)
  let slotA := g.slotA.restore a g.slotA.waits
  let slotB := g.slotB.restore b g.slotB.waits
  let rcv := BitVec.ofNat 56 (recBits x 0x040 0 64)
  let dsp := BitVec.ofNat 8 (recBits x 0x048 8 8)
  let word (off : Nat) : Word := BitVec.ofNat 64 (recBits x off 0 64)
  { g with
    slotA := slotA
    slotB := slotB
    rcv := rcv
    dsp := dsp
    snap := { head := BitVec.ofNat 56 (recBits x 0x050 0 64), a := a, b := b, rcv := rcv, dsp := dsp, livein := word 0x058, exited := g.exited,
              waitsA := slotA.waits, waitsB := slotB.waits, held := g.held }
    wid := word 0x060
    spawnid := word 0x068
    trap := { pc := word 0x070, cause := word 0x078 &&& 0xFFFFFFFF000003FF, inst := word 0x080, inst2 := word 0x088, addr := word 0x090,
              txcause := BitVec.ofNat 8 (recBits x 0x098 0 8), arrive := BitVec.ofNat 32 (recBits x 0x098 32 32) }
    susp := if recUsed x 0x078 0 8 then g.susp else none
    suspSnap := if recUsed x 0x078 0 8 then g.suspSnap else none
    sinceSync := 256 }

end Sys2Proof.Machine
end

