-- ==== Sys2Proof/Machine/Sched.lean ====
section
/-! DEFINITION. Stands and partitions (R328 to R341, R393): placing a stand and handing it over, the release of its resources and its
kill, pre-emption, clearing and restoring a partition, and the partition commands of the host page. -/

namespace Sys2Proof.Machine

open Host (Outcome)

/-! ### Scratchpad units and the split (R291, R292) -/

/-- The lowest free units of a core, if it has enough. The spec does not say which units a stand takes (DESIGN CHOICE). -/
def takeUnits (s : State) (core n : Nat) : Option (List Nat) :=
  let used := unitsUsed s core
  let free := (List.range 192).filter fun u => !used.contains u
  if n ≤ free.length then some (free.take n) else none

/-- Zeroing units of a core. -/
def zeroUnits (s : State) (core : Nat) (units : List Nat) : State :=
  { s with pads := s.pads.filter fun c => !(c.1 / 2 ^ 20 == core && units.contains (c.1 % 2 ^ 20 / 4096)) }

/-- The L1 copies in banks that change hands are dropped. Which copies lie in them is open. -/
def dropSome (s : State) (core : Nat) : State :=
  (s.core core).l1.foldl (fun s e =>
    let (f, s) := s.free
    if f % 2 == 0 then s
    else
      let c := s.core core
      s.setCore core { c with l1 := match e.2 with
        | .valid _ _ _ _ => Sparse.erase c.l1 e.1
        | .fill _ early r => Sparse.insert c.l1 e.1 (.fill true early r) }) s

/-- The copies that are left find their places in the sets of the new split. -/
def refitCopies (s : State) (core : Nat) : State := (validCopies (s.core core)).foldl (fun s e => l1Room s core e.1 64) s

/-- A change of the stands on a core (R291): where the split grows, the copies in the banks that change hands go. -/
def resplit (s : State) (core : Nat) (f : State → State) : State :=
  let before := splitBanks (unitsUsed s core)
  let s := f s
  let after := splitBanks (unitsUsed s core)
  if before == after then s else refitCopies (if before < after then dropSome s core else s) core

/-! ### Placing a stand (R328 to R330) -/

/-- Whether a plate is free: in service, outside the reserve, and in no live lease. -/
def plateFree (s : State) (p : Partition) (cl plate : Nat) : Bool := leasable s p cl plate && (leaseHolder s cl plate).isNone

/-- The lease that a core's cluster can grant, or none. -/
def grantLease (s : State) (p : Partition) (l : Launch) (core : Nat) : Option Lease :=
  let first := clusterOf core / l.lspan * l.lspan
  let lease (base : Nat) : Lease := { base := base, count := l.lease, span := l.lspan, first := first }
  if l.lease == 0 then some (lease 0)
  else if !(List.range l.lspan).all (fun i => p.holds (first + i)) then none
  else
    match l.lfix with
    | some base => if plateRun l.lspan first base l.lease (plateFree s p) then some (lease base) else none
    | none =>
      ((List.range (2049 - l.lease)).find? fun base =>
        plateRun l.lspan first base l.lease fun c k => plateFree s p c k && !namedPlate s c k).map lease

/-- Whether a core fits the next stand of a launch (R329). -/
def coreFits (s : State) (p : Partition) (l : Launch) (core : Nat) : Bool :=
  groupsFit s core (groupsPerStand l.widths l.place) l.vregs l.mregs && (takeUnits s core l.scratch).isSome && (grantLease s p l core).isSome

/-- The core for a stand: the fewest resident groups, then the first from the rotation pointer. -/
def chosenCore (s : State) (p : Partition) (l : Launch) : Option Nat :=
  let key (c : Nat) : Nat := (residents s c).length * 512 + (c + 512 - p.rotation) % 512
  (p.cores.filter (coreFits s p l)).foldl (fun b c => match b with
    | none => some c
    | some x => if key c < key x then some c else b) none

/-- Whether a launch is served before another: by PRIO, then by arrival. -/
def servedBefore (a b : Launch) : Bool := decide (b.prio < a.prio) || (a.prio == b.prio && decide (a.seq < b.seq))

/-- The launch whose stand the distributor places next: the first one served whose next stand fits somewhere. -/
def nextLaunch (s : State) (part : Nat) (p : Partition) : Option Nat :=
  (s.launches.foldl (fun (b : Option (Nat × Launch)) e =>
    if e.2.part != part || e.2.total ≤ e.2.placed || (chosenCore s p e.2).isNone then b
    else match b with
      | none => some e
      | some x => if servedBefore e.2 x.2 then some e else b) none).map (·.1)

/-- A value in the fields P to 5 of the work identifier: the stand's number, field P varying fastest (R328). -/
def standFields (widths extents : List Nat) : List Nat → Nat → Nat
  | [], _ => 0
  | k :: ks, n =>
    let e := max 1 (extents.getD (k - 2) 1)
    n % e * 2 ^ ((widths.take k).foldl (· + ·) 0) + standFields widths extents ks (n / e)

/-- The work identifier of a group, f0 being 0 (R22). -/
def workId (l : Launch) (stand number : Nat) : Word :=
  BitVec.ofNat 64 (number * 32 + standFields l.widths l.extents ((List.range 6).filter fun k => l.place ≤ k) stand)

/-- A stand tag that no stand resident in the cluster has (R187); which one is open. -/
def newTag (s : State) (cluster : Nat) : BitVec 24 × State :=
  let used := (s.stands.filter fun e => clusterOf e.2.core == cluster).map fun e => e.2.tag.toNat
  let (f, s) := s.free
  let tag := ((List.range (used.length + 1)).map fun i => (f + i) % 2 ^ 24).find? fun t => !used.contains t
  (BitVec.ofNat 24 (tag.getD 0), s)

/-- The barriers of a stand at levels 2 to P (R23, R109). -/
def levelBarriers (s : State) (st : Stand) (l : Launch) : List Barrier :=
  ((List.range 6).filter fun k => 2 ≤ k && k ≤ l.place).flatMap fun k =>
    let scopes := (st.groups.filterMap fun gid => (Sparse.find? s.groups gid).map fun g => scopeNumber l.widths g.number k).eraseDups
    scopes.map fun x =>
      let ms := scopeMembers s st l.widths k x
      { level := k, scope := x, gen := 0, members := ms, missing := ms }

/-- Placing the next stand of a launch on a core. With its first one the launch takes its partition's ASN table of that moment (R393). -/
def placeStand (s : State) (p : Partition) (launch : Nat) (l : Launch) (core : Nat) (units : List Nat) (lease : Lease) : State :=
  let (tag, s) := newTag (zeroUnits s core units) (clusterOf core)
  let (id, s) := s.fresh
  let s := resplit s core fun s => s.putStand id (newStand launch l.part core tag units lease)
  let s := (List.range (groupsPerStand l.widths l.place)).foldl (fun s n =>
    addGroup s core id l.vregs fun k => newGroup l id k n (workId l l.placed n) 0 (l.entries.getD 0 0)) s
  let s := match s.stand? id with
    | some st => s.putStand id { st with barriers := st.barriers ++ levelBarriers s st l }
    | none => s
  let late := l.start != 0 && decide (l.start < s.devTime)
  let s := { s with launches := Sparse.insert s.launches launch { l with placed := l.placed + 1, late := l.late || late } }
  s.setPart l.part { p with rotation := (core + 1) % 512, tables := if l.placed == 0 then Sparse.insert p.tables l.asn p.asntab else p.tables }

/-- STAND_PLACE (R328 to R330): the distributor's next stand, on the core that it chooses. -/
def execStandPlace (launch core : Nat) (s : State) : Outcome State Fault Refusal :=
  match s.launch? launch with
  | none => .next s
  | some l =>
    match s.part? l.part with
    | none => .next s
    | some p =>
      if !p.issues || nextLaunch s l.part p != some launch || chosenCore s p l != some core then .next s
      else
        match takeUnits s core l.scratch, grantLease s p l core with
        | some units, some lease => .next (placeStand s p launch l core units lease)
        | _, _ => .next s

/-- STAND_HANDOVER (R335, R404): at START the groups go to their schedulers, and the core acquires at .dev. -/
def execStandHandover (stand : Nat) (s : State) : Outcome State Fault Refusal :=
  match s.stand? stand with
  | none => .next s
  | some st =>
    let start := ((s.launch? st.launch).map (·.start)).getD 0
    if st.handed || s.devTime < start || !((s.part? st.part).map (·.issues)).getD false then .next s
    else
      let s := dropCopies (tell s hubDie (dieOf st.core)) st.core
      let s := s.setCore st.core { s.core st.core with records := [], fills := [] }
      .next (s.putStand stand { st with handed := true })

/-! ### The end of a stand (R339) -/

/-- G.SET0 steps on every column of a plate, from where the scrub is; a step with a plate fault takes the plate out of service, and the
scrub goes on with the next column (DEDUCED). -/
def clearColumns (cl plate : Nat) : Nat → Cmd → State → Stretch × Cmd × State
  | 0, k, s => (.complete, k, s)
  | fuel + 1, k, s =>
    match scrubColumns cl plate 512 513 k s with
    | (.faulty, k, s) =>
      clearColumns cl plate fuel { k with pour := { (k.pour.setDone cl (k.pour.done cl + 1)) with tries := 0, again := [] } } s
    | r => r

/-- The same in every field of a span. A plate that takes no writes is left as it is. -/
def clearPlate (plate : Nat) : List Nat → Cmd → State → Stretch × Cmd × State
  | [], k, s => (.complete, k, s)
  | cl :: cls, k, s =>
    if !s.plateWritable (plateKey cl plate) then clearPlate plate cls k s
    else
      match clearColumns cl plate 513 k s with
      | (.complete, k, s) => clearPlate plate cls k s
      | r => r

/-- Writing STATE of every entry of a field that meets some plates (R358). -/
def markRange (s : State) (cl first count state : Nat) : State :=
  (s.placed cl).foldl (fun s e => if e.2.meets first count then s.setEntryState e.1 state else s) s

/-- One step of the scrub at a stand's end (R358): STATE 2 first, then plate by plate, STATE 0 last. Whether it is complete. -/
def scrubLease (s : State) (stand : Nat) (st : Stand) (l : Lease) : Bool × State :=
  let fields := (List.range l.span).map (l.first + ·)
  let (n, pour) := st.scrub.getD (0, .start)
  let s := if st.scrub.isSome then s else fields.foldl (fun s cl => markRange s cl l.base l.count 2) s
  if l.count ≤ n then (true, fields.foldl (fun s cl => markRange s cl l.base l.count 0) s)
  else
    let k := { newCmd .xevictScrub none none st.part 0 st.core [] 0 with pour := pour }
    match clearPlate (l.base + n) fields k s with
    | (.complete, _, s) => (false, s.putStand stand { st with scrub := some (n + 1, .start) })
    | (_, k, s) => (false, s.putStand stand { st with scrub := some (n, k.pour) })

/-- Whether every committed command of a stand has ended. -/
def standIdle (s : State) (stand : Nat) : Bool :=
  pendOf s stand true == 0 && pendOf s stand false == 0 && !(s.arming.any fun a => a.stand == stand) &&
    !(s.parts.any fun p => p.2.removed.any fun e => e.2.stand == some stand)

/-- Whether a store or an addition to the units of a stand is still on its way (DEDUCED: it would reach the units of another stand, which
R292 rules out). -/
def unitStores (s : State) (st : Stand) : Bool :=
  let mine (l : Loc) : Bool := match l with
    | .pad core o => core == st.core && st.units.contains (o / 4096)
    | .mem _ => false
  let c := s.core st.core
  (c.cvp.any fun e => mine e.store.line) || (c.orphans.any fun o => o.2.any fun x => mine x.line) ||
    (s.atoms.any fun a => mine a.loc) || s.groups.any fun e => e.2.fifo.any fun x => mine x.line

/-- STAND_RESOURCE_RELEASE (R339): units, handles, tiles, barriers and lease go; with SCRUB the lease is set to 0 first, between
the passes of its fields. -/
def execStandResourceRelease (stand : Nat) (s : State) : Outcome State Fault Refusal :=
  match s.stand? stand with
  | none => .next s
  | some st =>
    if !st.ended || !standIdle s stand || unitStores s st then .next s
    else
      let release (s : State) : State :=
        { resplit s st.core fun s => { s with stands := Sparse.erase s.stands stand } with
          launches := Sparse.modify s.launches st.launch fun l => { l with ended := l.ended + 1 } }
      let scrub := ((s.launch? st.launch).map (·.scrub)).getD false
      match st.lease with
      | some l =>
        if !scrub || l.count == 0 then .next (release s)
        else if (List.range l.span).any fun i => passUnderWay s (l.first + i) then .next s
        else
          match scrubLease s stand st l with
          | (true, s) => done (release s)
          | (false, s) => done s
      | none => .next (release s)

/-- STAND_KILL (R340): by system software. -/
def execStandKill (stand : Nat) (s : State) : Outcome State Fault Refusal :=
  match s.stand? stand with
  | none => .next s
  | some st => if st.killed then .next s else .next (killStand s stand 0x12)

/-! ### Pre-emption (R336) -/

/-- PREEMPTION_DISCARD: a group that has been asked to is discarded at an instruction boundary outside the commit of a closing
instruction; a debugger's request then stops it (R419). -/
def execPreemptionDiscard (gid : Nat) (s : State) : Outcome State Fault Refusal :=
  match Sparse.find? s.groups gid with
  | none => .next s
  | some g =>
    if !g.preempt || g.retired || (g.run.map (·.committed)).getD false then .next s
    else
      let s := discardGroup (s.putGroup gid { g with preempt := false, dbg := { g.dbg with request := false } }) gid 0
      .next (if g.dbg.request then stopGroup s gid 1 else s)

/-! ### Clearing and restoring (R337, R338) -/

/-- A command taken out of its table before its first pass: what it owned is to be owned again, reads under way are made again. -/
def Cmd.takenOut (k : Cmd) (s : State) (id : Nat) : Cmd :=
  { k with toOwn := ((s.owners.filter fun e => e.2 == id).map (·.1)) ++ k.toOwn, asked := [] }

/-- Steps 1 to 3 of a clearing: placement and queues stop, every group is to be discarded, and field entries without a pass are
taken out. -/
def startClear (s : State) (part : Nat) (p : Partition) : State :=
  let mine (k : Cmd) : Bool := k.part == part && k.kind.isField && k.stand.isSome && !k.started && !k.computed
  let gone := (s.cmds.filter fun e => mine e.2).map fun e => (e.1, e.2.takenOut s e.1)
  let s := s.setPart part { p with clearing := true, removed := gone.foldl (fun m e => Sparse.insert m e.1 e.2) p.removed }
  let s := { s with
    cmds := s.cmds.filter fun e => !mine e.2
    owners := s.owners.filter fun e => !(gone.any fun x => x.1 == e.2)
    groups := s.groups.map fun e =>
      if ((s.stand? e.2.stand).map (·.part)) == some part && !e.2.retired then (e.1, { e.2 with preempt := e.2.preempt || !p.clearing || e.2.run.isSome })
      else e }
  (slotsOfPart s part).foldl (fun s e =>
    if e.2.leaving == some none then finishLeave s e.1
    else finishLeave (s.putSlot e.1 { e.2 with leaving := some none }) e.1) s

/-- The groups of a partition. -/
def groupsOfPart (s : State) (part : Nat) : Sparse Group := s.groups.filter fun e => ((s.stand? e.2.stand).map (·.part)) == some part

/-- Whether a result still on its way to a group is that of a removed register drain. -/
def drainOnly (p : Partition) (g : Group) : Bool := g.accs.all fun a => p.removed.any fun e => e.2.acc == a.id && e.2.kind == CmdKind.xdrainReg

/-- Whether a delivery queue or an unanswered request carries a store of some cores. -/
def coreStoresPending (s : State) (cores : List Nat) : Bool :=
  let mine (r : Remote) : Bool := match r with
    | .store c gid _ => gid != hubTag && cores.contains c
    | _ => false
  s.delivery.any (fun e => e.2.any mine) || s.outstanding.any fun o => mine o.what

/-- Step 4 of a clearing: every arrival is in, every deposit delivered or dropped, every other command ended, NMXOUT zero, and what
the groups have stored is at its home (by inference: the save record holds no store); a trap whose save area waits is entered first. -/
def clearReady (s : State) (part : Nat) (p : Partition) : Bool :=
  let cores := p.cores
  (groupsOfPart s part).all (fun e => e.2.run.isNone && !e.2.preempt && drainOnly p e.2 && e.2.fifo.isEmpty && e.2.saving.isEmpty && e.2.entering.isNone) &&
    (slotsOfPart s part).isEmpty && !(s.cmds.any fun e => e.2.part == part) && !(s.atoms.any fun a => a.part == part) &&
    !(s.arming.any fun a => a.part == part) && !(s.deposits.any fun d => cores.contains d.srcCore) &&
    !(s.cmos.any fun c => cores.contains (c.gid / 64)) && !coreStoresPending s cores &&
    cores.all fun c =>
      let k := s.core c
      k.nmxout == 0 && k.cvp.isEmpty && k.orphans.isEmpty && k.tables.isEmpty

/-- A wait in a save: it holds no translation, and a read under way is made again. -/
def Wait.saved : Wait → Wait
  | .word _ cc c acq va origin _ => .word none cc c acq va origin none
  | w => w

/-- What of a group its save record does not hold, and what is kept beside it (DEDUCED): what its slots wait for, the lanes that have
exited, CASTERR, and the run that a suspending trap has left. -/
def Group.bare (g : Group) : Group :=
  let g := g.mapWaits Wait.saved
  { g with
    v := []
    p := []
    m := []
    x := []
    slotA := { g.slotA with run := none, since := none }
    slotB := { g.slotB with run := none, since := none }
    tracing := false
    sinceSync := 256 }

/-- Step 5 of a clearing: the partition's state is saved, the groups in their records (R38), and its clusters are free of it. -/
def saveContext (s : State) (part : Nat) (p : Partition) : State :=
  let stands := s.stands.filter fun e => e.2.part == part
  let launchOf (g : Group) : Option Launch := ((s.stand? g.stand).bind fun st => s.launch? st.launch)
  let live := (groupsOfPart s part).filter fun e => !e.2.retired
  let records := live.filterMap fun e => (launchOf e.2).map fun l => (e.1, e.2.record l)
  let held (c : Host.Cell) : Bool := stands.any fun e => e.2.core == c.1 / 2 ^ 20 && e.2.units.contains (c.1 % 2 ^ 20 / 4096)
  let cores := p.cores.map fun c =>
    let k := s.core c
    (c, { Core.idle with bank0 := k.bank0, bank1 := k.bank1, cur := k.cur, rwrdrop := k.rwrdrop, rmsel := k.rmsel, pm := k.pm })
  let clusters := p.clusters.map fun c => (c, { Cluster.idle with pm := (s.cluster c).pm })
  let x : Context :=
    { records := records, groups := live.map fun e => (e.1, e.2.bare), stands := stands, cores := cores, clusters := clusters,
      slices := (if s.parts.length == 1 then s.slicePm else []), pads := s.pads.filter held }
  { s with
    groups := s.groups.filter fun e => ((s.stand? e.2.stand).map (·.part)) != some part
    stands := s.stands.filter fun e => e.2.part != part
    parts := Sparse.insert s.parts part { p with context := some x }
    pchans := (s.pchans.map fun e => (e.1, if e.2.seedTag == some part then { e.2 with seedTag := none } else e.2)).filter fun e => e.2 != .idle }

/-- One step of a clearing. -/
def clearStep (s : State) (part : Nat) : State :=
  match s.part? part with
  | none => s
  | some p =>
    if p.context.isSome || p.stopped then s
    else
      let s := startClear s part p
      match s.part? part with
      | some p => if clearReady s part p then saveContext s part p else s
      | none => s

/-- PARTITION_CLEAR (R337). -/
def execPartitionClear (part : Nat) (s : State) : Outcome State Fault Refusal := .next (clearStep s part)

/-- The plates of a lease that are out of service. -/
def leaseOut (s : State) (l : Lease) : List Nat :=
  ((List.range l.span).flatMap fun i => (List.range l.count).map fun k => plateKey (l.first + i) (l.base + k)).filter fun p => (s.plate p).out

/-- A saved group as its record gives it back (R38, R338), for its stand's launch. -/
def reloadGroup (s : State) (x : Context) (gid : Nat) (g : Group) : Group :=
  match Sparse.find? x.records gid, (Sparse.find? x.stands g.stand).bind fun st => s.launch? st.launch with
  | some (_, r), some l => g.reloaded l r
  | _, _ => g

/-- Whether another partition that is not itself saved serves on clusters of this one. -/
def clustersTaken (s : State) (part : Nat) (mask : BitVec 32) : Bool :=
  s.parts.any fun e => e.1 != part && e.2.context.isNone && (e.2.cgmask &&& mask) != 0

/-- The restore of a saved context (R338, R341). Held nodes whose payload is a command are launched now; one that dispatches waits for the
partition's next quantum boundary, since its queue is mapped by then or not at all. -/
def restoreContext (s : State) (part : Nat) (p : Partition) (x : Context) : State :=
  let stands : Sparse Stand := x.stands.map fun e => (e.1, { e.2 with outAtRestore := (e.2.outAtRestore ++ (e.2.lease.map (leaseOut s)).getD []).eraseDups })
  let s : State := stands.foldl (fun s e => zeroUnits (resplit s e.2.core fun s => s.putStand e.1 e.2) e.2.core e.2.units) s
  let s : State := { s with
    pads := x.pads.foldl (fun m c => Memory.write m c.1 c.2) s.pads
    groups := x.groups.foldl (fun m e => Sparse.insert m e.1 (reloadGroup s x e.1 e.2)) s.groups
    cmds := p.removed.foldl (fun m e => Sparse.insert m e.1 e.2) s.cmds
    parts := Sparse.insert s.parts part { p with clearing := false, removed := [], context := none } }
  let s : State := x.cores.foldl (fun s e =>
    s.setCore e.1 { s.core e.1 with bank0 := e.2.bank0, bank1 := e.2.bank1, cur := e.2.cur, rwrdrop := e.2.rwrdrop, rmsel := e.2.rmsel, pm := e.2.pm }) s
  let s : State := x.clusters.foldl (fun s e => s.setCluster e.1 { s.cluster e.1 with pm := e.2.pm }) s
  let s : State := if s.parts.length == 1 then { s with slicePm := x.slices } else s
  let late (n : Nat) (l : Launch) : Bool :=
    l.start != 0 && decide (l.start < s.devTime) && stands.any fun e => e.2.launch == n && !e.2.handed
  let s : State := { s with launches := s.launches.map fun e => (e.1, { e.2 with late := e.2.late || late e.1 e.2 }) }
  launchHeld s part false

/-- PARTITION_RESTORE (R338). -/
def execPartitionRestore (part : Nat) (s : State) : Outcome State Fault Refusal :=
  match s.part? part with
  | none => .next s
  | some p =>
    match p.context with
    | none => .next s
    | some x => if p.stopped || clustersTaken s part p.cgmask then .next s else done (restoreContext s part p x)

/-! ### Partition commands (R393) -/

/-- The 32 words of a partition descriptor. -/
structure Descriptor where
  words : List Word
  deriving DecidableEq, Repr

def Descriptor.f (d : Descriptor) (off lo n : Nat) : Nat := bits (d.words.getD (off / 8) 0).toNat lo n
def Descriptor.ranges (d : Descriptor) : List (Nat × Nat) :=
  ((List.range 8).map fun i => (d.f (0x80 + 16 * i) 0 23 * 65536, d.f (0x88 + 16 * i) 0 23 * 65536)).filter fun r => r.1 != r.2
def Descriptor.mask (d : Descriptor) : BitVec 32 := BitVec.ofNat 32 (d.f 0 0 32)
def Descriptor.pa (d : Descriptor) (off lo : Nat) : Nat := d.f off lo (52 - lo) * 2 ^ lo

/-- The bytes of IMGKEY. -/
def Descriptor.key (d : Descriptor) : List Byte :=
  (List.range 32).map fun i => BitVec.ofNat 8 (d.f (0x38 + i / 8 * 8) (8 * (i % 8)) 8)

/-- Cause 1: a reserved bit set, a value outside its range, or a range beyond 384 GiB. -/
def Descriptor.bad (d : Descriptor) : Bool :=
  d.f 0 39 25 != 0 || d.f 8 9 7 != 0 || d.f 8 32 32 != 0 || d.f 0x10 56 8 != 0 || d.f 0x18 0 3 != 0 || d.f 0x18 52 12 != 0 ||
    d.f 0x20 0 3 != 0 || d.f 0x20 52 12 != 0 || d.f 0x28 0 4 != 0 || d.f 0x28 52 12 != 0 || d.f 0x30 5 59 != 0 || d.f 0x58 0 3 != 0 ||
    d.f 0x58 52 12 != 0 || d.f 0x60 32 32 != 0 || d.f 0x68 0 64 != 0 || d.f 0x70 0 64 != 0 || d.f 0x78 0 64 != 0 ||
    ((List.range 16).any fun i => d.f (0x80 + 8 * i) 23 41 != 0) || d.f 0 32 7 == 0 || decide (64 < d.f 0 32 7) || decide (256 < d.f 8 0 9) ||
    decide (d.f 8 16 16 < 32) || d.f 0x10 0 56 % 16384 != 0 || decide (d.f 0x30 0 5 < 8) || decide (16 < d.f 0x30 0 5) ||
    d.ranges.any fun r => decide (r.2 < r.1) || decide (0x6000000000 < r.2)

def spansMeet (a b : Nat × Nat) : Bool := decide (a.1 < b.2) && decide (b.1 < a.2)

/-- Whether two ranges of a list meet. -/
def selfMeet : List (Nat × Nat) → Bool
  | [] => false
  | r :: rs => rs.any (spansMeet r) || selfMeet rs

/-- Cause 2: clusters or ranges that another partition holds, or ranges that overlap. The clusters of a partition whose context is
saved may serve another (R338, DEDUCED). -/
def Descriptor.clashes (d : Descriptor) (s : State) (part : Nat) : Bool :=
  clustersTaken s part d.mask || selfMeet d.ranges ||
    s.parts.any fun e => e.1 != part && e.2.ranges.any fun r => d.ranges.any (spansMeet r)

/-- Cause 3: the quotas of all partitions. -/
def Descriptor.overQuota (d : Descriptor) (s : State) (part : Nat) : Bool :=
  decide (64 < d.f 0 32 7 + (s.parts.filter fun e => e.1 != part).foldl (fun n e => n + e.2.quota) 0)

/-- The values that create and update take from a descriptor. -/
def Descriptor.apply (d : Descriptor) (p : Partition) : Partition :=
  { p with
    quota := d.f 0 32 7
    rsv := d.f 8 0 9
    thresh := d.f 8 16 16
    sysarea := d.f 0x10 0 56
    asntab := d.pa 0x18 3
    qtab := d.pa 0x20 3
    prqbase := d.pa 0x28 4
    prqlog2 := d.f 0x30 0 5
    imgkey := d.key
    imgaddr := d.pa 0x58 3
    imgsize := d.f 0x60 0 32 }

/-- A partition as it is created (R392 to R394). -/
def newPartition (s : State) (d : Descriptor) : Partition :=
  let p : Partition :=
    { booting := false, booted := false, digest := [], cgmask := d.mask, quota := 0, rsv := 160, thresh := 4096, sysarea := 0, asntab := 0, tables := [], qtab := 0, prqbase := 0, prqlog2 := 0,
      imgkey := [], imgaddr := 0, imgsize := 0, ranges := d.ranges, prqc := 0, prqp := 0, sdstat := 0, prqvec := 0xFFFF, perrvec := 0xFFFF, half := [],
      rotation := 0, quantum := s.devTime.toNat / 100000, clearing := false, removed := [], context := none, stopped := false, palerts := 0,
      corr := 0, uncorr := 0, dbg := .reset }
  { d.apply p with rotation := 4 * lowestCluster p }

/-- A core and a cluster as a partition is created on them: the function tables are 0 (R137), and counters count from here (R427). -/
def clearCores (s : State) (p : Partition) : State :=
  let s := p.cores.foldl (fun s c =>
    s.setCore c { s.core c with bank0 := [], bank1 := [], cur := false, rwrdrop := 0, pm := [], sampled := [] }) s
  let s := p.clusters.foldl (fun s c => s.setCluster c { s.cluster c with pm := [] }) s
  if s.parts.length ≤ 1 then { s with slicePm := [] } else s

/-- The end of a partition command: PDST reads done, with BOOTED, or refused, with the cause. -/
def pdDone (s : State) (booted : Bool) : State :=
  { s with host := { s.host with pdcmd := 0, pdst := if booted then 2 + 2 ^ 16 else 2 } }
def pdRefused (s : State) (cause : Nat) : State :=
  { s with host := { s.host with pdcmd := 0, pdst := BitVec.ofNat 64 (3 + cause * 2 ^ 8) } }

def pdOp (value : Word) : Nat := bits value.toNat 0 4
def pdPart (value : Word) : Nat := bits value.toNat 4 3

/-- Whether a partition command may take a step: the one in progress, or, with none in progress, one that is written now. The
hypervisor runs while DEVST is 1 (R413, R431). -/
def pdMay (s : State) (value : Word) : Bool := s.host.devst == 1 && (bits s.host.pdst.toNat 0 2 != 1 || s.host.pdcmd == value)
def pdBusy (s : State) (value : Word) : State := { s with host := { s.host with pdcmd := value, pdst := 1 } }

/-- The number under which the control pair reads: no slot has it. -/
def controlWho : Nat := 64

/-- The descriptor at PDADDR; a descriptor that cannot be read is refused with cause 1 (DEDUCED). -/
def withDescriptor (s : State) (value : Word) (f : Descriptor → State → State) : State :=
  match hubBytes s controlWho s.host.pdaddr.toNat 256 with
  | (.wait, s) => pdBusy s value
  | (.failed _, s) => pdRefused (dropHubReads s controlWho) 1
  | (.ok x, s) => f { words := wordsFrom x 32 } (dropHubReads s controlWho)

/-- The bytes of a number, the least significant first. -/
def bytesOf (x n : Nat) : List Byte := (List.range n).map fun i => BitVec.ofNat 8 (bits x (8 * i) 8)

/-- The end of a partition's boot (R413): it is booted if its image could be read and is signed by the key of its descriptor. A create that
waited for it is done. -/
def bootEnd (s : State) (part : Nat) (image : Option (List Byte)) : State :=
  match s.part? part with
  | none => s
  | some p =>
    let ok := (image.map (imageSigned p.imgkey)).getD false
    let s := discoverAll (s.setPart part { p with booting := false, booted := ok, digest := (image.map sha256).getD [] })
    if bits s.host.pdst.toNat 0 2 == 1 && pdOp s.host.pdcmd == 1 && pdPart s.host.pdcmd == part then pdDone s ok else s

/-- The reader of the partition's image. -/
def imageWho (part : Nat) : Nat := 73 + part

/-- A partition that boots reads its system image, from HBM, the host or a linked device, as far as it is at hand. -/
def bootTry (s : State) (part : Nat) : State :=
  match s.part? part with
  | none => s
  | some p =>
    if !p.booting then s
    else
      match hubBytes s (imageWho part) p.imgaddr p.imgsize with
      | (.wait, s) => s
      | (.failed _, s) => bootEnd (dropHubReads s (imageWho part)) part none
      | (.ok x, s) => bootEnd (dropHubReads s (imageWho part)) part (some (bytesOf x p.imgsize))

/-- PARTITION_CREATE (R393, R413): the partition is created, and then its image is read and checked. -/
def execPartitionCreate (value : Word) (s : State) : Outcome State Fault Refusal :=
  if pdOp value != 1 || !pdMay s value then .next s
  else
    let part := pdPart value
    if ((s.part? part).map (·.booting)).getD false then done (bootTry s part)
    else done (withDescriptor s value fun d s =>
      let cause := firstCode [(d.bad, 1), (d.clashes s part, 2), (d.overQuota s part, 3), ((s.part? part).isSome, 4)]
      if cause != 0 then pdRefused s cause
      else
        let p := { newPartition s d with booting := true }
        bootTry (pdBusy (clearCores (s.setPart part p) p) value) part)

/-- Whether a partition has a resident stand, saved ones included. -/
def hasStand (s : State) (part : Nat) (p : Partition) : Bool :=
  (s.stands.any fun e => e.2.part == part) || ((p.context.map fun x => !x.stands.isEmpty)).getD false

/-- PARTITION_UPDATE (R393). -/
def execPartitionUpdate (value : Word) (s : State) : Outcome State Fault Refusal :=
  if pdOp value != 2 || !pdMay s value then .next s
  else
    let part := pdPart value
    done (withDescriptor s value fun d s =>
      let own (f : Partition → Bool) : Bool := ((s.part? part).map f).getD false
      let cause := firstCode [(d.bad, 1),
        (d.clashes s part, 2),
        (d.overQuota s part, 3),
        ((s.part? part).isNone, 4),
        (own fun p => d.mask != p.cgmask || d.ranges != p.ranges || (d.f 0x10 0 56 != p.sysarea && hasStand s part p), 5)]
      match s.part? part with
      | none => pdRefused s cause
      | some p => if cause != 0 then pdRefused s cause else pdDone (discoverAll (s.setPart part (d.apply p))) p.booted)

/-- Taking a partition out of the machine: its saved context, launches, queues, requests and translations go. Plates, directory
entries and HBM stay. -/
def dropPartition (s : State) (part : Nat) : State :=
  let s : State := (s.cmds.filter fun e => e.2.part == part).foldl (fun s e => removeCmd s e.1) s
  { s with
    slots := s.slots.filter fun e => e.2.part != part
    arming := s.arming.filter fun a => a.part != part
    parts := Sparse.erase s.parts part
    launches := s.launches.filter fun e => e.2.part != part
    idle := s.idle.filter fun e => e.part != part
    submitted := s.submitted.filter fun x => x.part != part
    merge := s.merge.filter fun q => q.part != part
    retries := s.retries.filter fun q => q.part != part
    shootdowns := s.shootdowns.filter fun x => x.part != part
    nodes := s.nodes.filter fun n => n.part != part
    casts := s.casts.filter fun c => c.part != part
    cores := (s.cores.map fun e => (e.1, { e.2 with
      tlb := e.2.tlb.filter (fun t => t.part != part), misses := e.2.misses.filter (fun m => m.part != part),
      waiting := e.2.waiting.filter fun w => w.part != part })).filter fun e => e.2 != .idle
    clusters := (s.clusters.map fun e => (e.1, { e.2 with
      tlb := e.2.tlb.filter (fun t => t.part != part), walk := e.2.walk.filter (fun w => w.part != part),
      walks := e.2.walks.filter fun m => m.part != part })).filter fun e => e.2 != .idle }

/-- PARTITION_REMOVE (R393): the partition is cleared, which takes as long as it takes, and its context discarded. A stopped partition
goes at once, with what it holds (DEDUCED). -/
def execPartitionRemove (value : Word) (s : State) : Outcome State Fault Refusal :=
  if pdOp value != 3 || !pdMay s value then .next s
  else
    let part := pdPart value
    match s.part? part with
    | none => .next (pdRefused s 4)
    | some p =>
      let s := if p.stopped then saveContext s part p else clearStep s part
      match (s.part? part).bind (·.context) with
      | some _ => .next (pdDone (dropPartition s part) false)
      | none => .next (pdBusy s value)

end Sys2Proof.Machine
end

