-- ==== Sys2Proof/Machine/Choose.lean ====
section
/-! DEFINITION. The candidates of a scheduler and their order (R98, R332). -/

namespace Sys2Proof.Machine

open Host (Outcome)

/-- Whether the working set of a fetched run is full (R98, condition 4). -/
def setFull (g : Group) (x : Slot) : Bool := match x.run with
  | some f => (setOrder (headSet (f.words.getD 0 0))).all fun n => (g.vreg n).full
  | none => false

/-! ### Choosing a run (R332) -/

/-- Whether a slot meets conditions 1, 2 and 4 of R98: it stands at a fetched head, what it waits for has come, and its working set is
full. -/
def slotReady (s : State) (gid : Nat) (g : Group) (slotB : Bool) : Bool :=
  let x := g.slot slotB
  let woken := g.setSlot slotB { x with waits := x.waits.filter fun w => !waitOver s gid g w }
  woken.stands slotB && setFull g x

/-- A candidate of a scheduler. -/
structure Candidate where
  gid : Nat
  slotB : Bool
  eff : Nat
  since : Nat
  deriving DecidableEq, Repr

/-- A slot as a candidate, if it is one. A stepped group offers only the stepped slot (R421). -/
def candidate (s : State) (gid : Nat) (g : Group) (la : Launch) (slotB : Bool) : Option Candidate :=
  let x := g.slot slotB
  if !slotReady s gid g slotB || !(g.dbg.step.isNone || g.dbg.step == some slotB) then none
  else
    let since := x.since.getD s.tick.toNat
    some { gid := gid, slotB := slotB, eff := min 3 (la.prio + (s.tick.toNat - since) / 4096), since := since }

/-- Whether a candidate comes before another: largest eff, then earliest, then lowest place, then slot A. -/
def Candidate.before (a b : Candidate) : Bool :=
  decide (b.eff < a.eff) || (a.eff == b.eff && (decide (a.since < b.since) || (a.since == b.since &&
    (decide (a.gid < b.gid) || (a.gid == b.gid && !a.slotB && b.slotB)))))

/-- The groups of a scheduler. -/
def groupsOf (s : State) (core sched : Nat) : Sparse Group := s.groups.filter fun e => e.1 / 64 == core && e.2.sched == sched

/-- The candidates of a scheduler. -/
def candidates (s : State) (core sched : Nat) : List Candidate :=
  (groupsOf s core sched).flatMap fun e =>
    if !groupActs s e.1 then []
    else match seatOf s e.1 with
      | none => []
      | some (g, _, la) => (candidate s e.1 g la false).toList ++ (candidate s e.1 g la true).toList

def bestCandidate : List Candidate → Option Candidate
  | [] => none
  | c :: cs => match bestCandidate cs with
    | none => some c
    | some b => if b.before c then some b else some c

/-- The group of a scheduler that has a run in issue. -/
def inIssue (s : State) (core sched : Nat) : Option (Nat × Group × Run) :=
  match List.find? (fun (e : Nat × Group) => e.2.run.isSome) (groupsOf s core sched) with
  | some (gid, g) => g.run.map fun r => (gid, g, r)
  | none => none

/-- Whether a candidate's slot holds a buffer. -/
def Candidate.holds (c : Candidate) (s : State) : Bool := ((Sparse.find? s.groups c.gid).map fun g => (g.slot c.slotB).buffer).getD false

end Sys2Proof.Machine
end

