-- ==== Sys2Proof/Machine/Debug.lean ====
section
/-! DEFINITION. The debugger's commands and breakpoints (R418 to R421), PC sampling (R425), the precise
stop (R426) and counter snapshots (R427). -/

namespace Sys2Proof.Machine

open Host (Outcome)

/-! ### The debugger's commands (R418 to R421) -/

/-- The group that a value of DBGCTL names, and its OP. -/
def dbgGroup (value : Word) : Nat := bits value.toNat 0 9 * 64 + bits value.toNat 9 6
def dbgOp (value : Word) : Nat := bits value.toNat 16 4
def dbgSlot (value : Word) : Bool := value.getLsbD 20

/-- The named group of DBGST, at bits 8 and up of what the partition keeps. -/
def dbgNamed (d : DebugPage) : Nat := bits d.dbgst.toNat 8 9 * 64 + bits d.dbgst.toNat 17 6

/-- A resident group of a partition. -/
def dbgFind (s : State) (part gid : Nat) : Option (Group × Stand × Launch) :=
  match seatOf s gid with
  | some (g, st, la) => if st.part == part && !g.retired then some (g, st, la) else none
  | none => none

/-- 0 unclaimed, 1 claimed and running, 2 stopped. -/
def dbgStatus (s : State) (part gid : Nat) : Nat := match dbgFind s part gid with
  | some (g, _, _) => if !g.dbg.claimed then 0 else if g.dbg.stopped then 2 else 1
  | none => 0

/-- What DBGST reads: a claim that has ended reads 0 (R428). -/
def dbgstValue (s : State) (part : Nat) (d : DebugPage) : Nat :=
  let now := dbgStatus s part (dbgNamed d)
  let was := bits d.dbgst.toNat 0 2
  if now == 0 && was != 0 then 0 else now + bits d.dbgst.toNat 4 4 * 2 ^ 4

/-- What the partition keeps for DBGST: the named group, its status and a cause. -/
def setDbgst (s : State) (part gid cause : Nat) : State :=
  match s.part? part with
  | none => s
  | some p => s.setPart part (p.setDebug { p.dbg with
      dbgst := BitVec.ofNat 64 (dbgStatus s part gid + cause % 16 * 2 ^ 4 + gid / 64 * 2 ^ 8 + gid % 64 * 2 ^ 17) })

/-- Naming a group: the cause kept is that of the last stop or refusal. -/
def nameGroup (s : State) (part gid : Nat) : State :=
  match s.part? part with
  | none => s
  | some p =>
    let cause := if dbgNamed p.dbg == gid then bits p.dbg.dbgst.toNat 4 4 else ((dbgFind s part gid).map (·.1.dbg.cause)).getD 0
    setDbgst s part gid cause

/-- What an OP finds: it does not apply; it applies, but what it reads is not at hand yet; or it is done. -/
inductive Debugged
  | refused
  | waits (s : State)
  | made (s : State)

/-- A write of DBGCTL is over, or waits: the debug page keeps it until its OP can be performed. -/
def endDebug (s : State) (part : Nat) (value : Word) : State :=
  { dropHubReads s (65 + part) with parts := Sparse.modify s.parts part fun p => p.setDebug { p.dbg with
      pending := if p.dbg.pending.head? == some value then p.dbg.pending.tail else p.dbg.pending } }
def awaitDebug (s : State) (part : Nat) (value : Word) : State :=
  { s with parts := Sparse.modify s.parts part fun p => p.setDebug { p.dbg with
      pending := if p.dbg.pending.head? == some value then p.dbg.pending else p.dbg.pending ++ [value] } }

/-- A write of DBGCTL with one OP: the group is named, and the OP has its effect or is refused with CAUSE 6. One behind another that still waits
waits as well. -/
def debugCommand (part op : Nat) (value : Word) (s : State) (f : State → Nat → Group → Launch → Debugged) : Outcome State Fault Refusal :=
  match s.part? part with
  | none => .next s
  | some p =>
    if dbgOp value != op then .next s
    else if p.dbg.pending.head?.any (· != value) then .next (awaitDebug s part value)
    else
      let gid := dbgGroup value
      let s := nameGroup s part gid
      match (match dbgFind s part gid with
        | some (g, _, la) => f s gid g la
        | none => .refused) with
      | .made s => done (endDebug (match s.part? part with
          | some p => setDbgst s part gid (bits p.dbg.dbgst.toNat 4 4)
          | none => s) part value)
      | .waits s => .next (awaitDebug s part value)
      | .refused => .next (endDebug (setDbgst s part gid 6) part value)

/-- A write of DBGCTL with an OP that does not exist (R419). -/
def refuseDebug (part : Nat) (value : Word) (s : State) : State := setDbgst (nameGroup s part (dbgGroup value)) part (dbgGroup value) 6

/-- Groups that a partition has claimed. -/
def claimedCount (s : State) (part : Nat) : Nat := ((groupsOfPart s part).filter fun e => e.2.dbg.claimed).length

/-- DBG_CLAIM (R419). -/
def execDbgClaim (part : Nat) (value : Word) (s : State) : Outcome State Fault Refusal :=
  debugCommand part 1 value s fun s gid g _ =>
    if g.dbg.claimed || 16 ≤ claimedCount s part then .refused
    else .made (s.putGroup gid { g with dbg := { GroupDebug.none with claimed := true } })

/-- Whether a stopped group holds the run to which a stepped ERET has returned. -/
def Group.returnedRun (g : Group) : Bool := g.trap.code == 0 && g.susp.isSome

/-- A stopped group goes on: after a BKPT stop as ERET goes on, from the save area (R420); after a stepped ERET in the run to which it
returned. Heads where it stands do not match a breakpoint at their next issue. -/
def resumeGroup (s : State) (gid : Nat) (g : Group) (step : Option Bool) : State :=
  let s := if g.dbg.cause == 3 && g.trap.susp && g.trap.code != 0 && g.susp.isSome then returnFrom s gid
    else if g.returnedRun then s.modGroup gid fun g => { g with run := g.susp, susp := none, suspSnap := none }
    else s
  s.modGroup gid fun g =>
    let heads := (if g.slotA.st.live then [g.slotA.st.pc] else []) ++ (if g.slotB.st.live then [g.slotB.st.pc] else [])
    { g with sinceSync := 256, dbg := { g.dbg with stopped := false, step := step, skip := heads } }

/-- Whether a stopped group can go on now: the return of a BKPT stop waits while its save area is held. -/
def resumable (s : State) (gid : Nat) (g : Group) : Bool := g.dbg.cause != 3 || g.susp.isNone || returnReady s gid

/-- DBG_RELEASE (R419). -/
def execDbgRelease (part : Nat) (value : Word) (s : State) : Outcome State Fault Refusal :=
  debugCommand part 2 value s fun s gid g _ =>
    if !g.dbg.claimed then .refused
    else if g.dbg.stopped && !resumable s gid g then .waits s
    else
      let s := if g.dbg.stopped then resumeGroup s gid g none else s
      .made (s.modGroup gid fun g => { g with dbg := { GroupDebug.none with skip := g.dbg.skip } })

/-- DBG_STOP (R419): by pre-emption (R336). -/
def execDbgStop (part : Nat) (value : Word) (s : State) : Outcome State Fault Refusal :=
  debugCommand part 3 value s fun s gid g _ =>
    if !g.dbg.claimed || g.dbg.stopped then .refused
    else .made (s.putGroup gid { g with preempt := true, dbg := { g.dbg with request := true } })

/-- DBG_RESUME (R420). -/
def execDbgResume (part : Nat) (value : Word) (s : State) : Outcome State Fault Refusal :=
  debugCommand part 4 value s fun s gid g _ =>
    if !g.dbg.stopped then .refused else if !resumable s gid g then .waits s else .made (resumeGroup s gid g none)

/-- DBG_STEP (R421): the named slot alone becomes eligible; it is refused where that slot is not live, or the other one is suspended
inside a run by BKPT, or inside the run to which a stepped ERET has returned (DEDUCED). -/
def execDbgStep (part : Nat) (value : Word) (s : State) : Outcome State Fault Refusal :=
  debugCommand part 5 value s fun s gid g _ =>
    let b := dbgSlot value
    let other := (g.dbg.cause == 3 || g.returnedRun) && (g.susp.map (·.slotB != b)).getD false
    if !g.dbg.stopped || !(g.slot b).st.live || other then .refused
    else if !resumable s gid g then .waits s
    else .made (resumeGroup s gid g (some b))

/-- The dump buffer (R418). -/
def dumpBuffer (s : State) (part : Nat) : Nat := ((s.part? part).map fun p => bits p.dbg.dumpaddr.toNat 8 44 * 256).getD 0

/-- DBG_DUMP (R419). -/
def execDbgDump (part : Nat) (value : Word) (s : State) : Outcome State Fault Refusal :=
  debugCommand part 6 value s fun s _ g la =>
    if !g.dbg.stopped then .refused
    else
      let (n, x) := g.record la
      .made (hubWrite s (dumpBuffer s part) n x)

/-- The most bytes that a record takes. -/
def recordMax : Nat := 0x340 + 8 * 4624 + 64 * 256

/-- DBG_LOAD (R419): a record that cannot be read is refused (DEDUCED); one that lies far away is read first. -/
def execDbgLoad (part : Nat) (value : Word) (s : State) : Outcome State Fault Refusal :=
  debugCommand part 7 value s fun s gid g la =>
    if !g.dbg.stopped then .refused
    else
      let who := 65 + part
      match hubBytes s who (dumpBuffer s part) 16 with
      | (.wait, s) => .waits s
      | (.failed _, _) => .refused
      | (.ok head, s) =>
        match hubBytes s who (dumpBuffer s part) (min (bits head 0 32 * 16) recordMax) with
        | (.wait, s) => .waits s
        | (.failed _, _) => .refused
        | (.ok x, s) => if recBad x la then .refused else .made (s.modGroup gid fun g => g.reloaded la x)

/-- Whether an enabled breakpoint of a partition names a head (R418). -/
def breakpointAt (d : DebugPage) (pc : BitVec 56) : Bool := d.bps.any fun b => b.getLsbD 0 && bits b.toNat 3 53 * 8 == pc.toNat

/-- Whether a breakpoint stops a group before one of its slots issues (R420). -/
def breaks (p : Partition) (g : Group) (slotB : Bool) : Bool :=
  let pc := (g.slot slotB).st.pc
  g.dbg.claimed && breakpointAt p.dbg pc && !g.dbg.skip.contains pc

/-- HW_BREAKPOINT (R420). -/
def execHwBreakpoint (gid : Nat) (slotB : Bool) (s : State) : Outcome State Fault Refusal :=
  match seatOf s gid with
  | none => .next s
  | some (g, st, _) =>
    match s.part? st.part with
    | none => .next s
    | some p =>
      if groupActs s gid && g.stands slotB && (g.slot slotB).run.isSome && setFull g (g.slot slotB) && breaks p g slotB &&
          (g.dbg.step.isNone || g.dbg.step == some slotB) then .next (stopGroup s gid 2)
      else .next s

/-! ### PC sampling (R425) -/

/-- Whether the translation of the address in an instruction's A waits. -/
def Ctx.walks (c : Ctx) (s : State) (o : Ops) (need : Need) : Bool := (resolve s c.seat none 0 (c.scalar o o.a) need).1 == .held

/-- The command of majors 0x13 and 0x14 with a FUNC whose table or queue an instruction would enter; XSTAT, NMFENCE and NODE enter none. -/
def commandKind (major func : Nat) : Option CmdKind :=
  [.xplacePut, .xevictKeep, .xaccZero, .xmma, .xmmac, .xdrain, .pour, .cpy, .gath, .scat, .coll, .nmx].find? fun k =>
    k.func == func && k.isField == (major == 0x13)

/-- The stall code of a command whose sources are full: earlier loads, the walk to its block or the block's read are still awaited, or it
waits for an entry of its table or queue, or issues (R206, R237). -/
def commandCode (s : State) (c : Ctx) (o : Ops) (kind : CmdKind) : Nat :=
  if !loadsBefore c.g then 0x07
  else if c.g.txn.isSome then 0
  else
    match check s c.seat (c.base o.a) .rd 64 (fun _ => false) [c.address o] with
    | (.held, _) => 0x0B
    | (.go ((_, ea, l) :: _) _, s) =>
      (match c.readBlock s l ea with
        | (.wait, _) => 0x07
        | (.failed _, _) => 0
        | (.words ws, s) =>
          let cplt := blk ws 0 0 56
          let entered := cplt % 8 == 0 && (cplt != 0 || kind == .nmx)
          if entered && !queueRoom s (enterCluster c.st kind ws (clusterOf c.core)) kind then 0x0A else 0)
    | _ => 0

/-- The stall code of the instruction at which a run stands; 0 for one that issues. -/
def stallCode (s : State) (c : Ctx) : Nat :=
  let busy (o : Ops) (code : Nat) : Nat := if readyOps c.g c.r o == .stall then 6 else code
  if c.r.stage == 1 then 0x08
  else if c.r.stage == 2 then 0x07
  else if c.r.stage == 3 then 0x0C
  else
    match readWord (c.r.words.getD c.r.pos 0) (c.r.words.getD (c.r.pos + 1) 0) with
    | some (.fence o) | some (.rfence o) => if !loadsPerformed c.g then 0x07 else if releaseDone s c.gid (opScope o) then 0 else 0x09
    | some (.txc o) => if readyOps c.g c.r o == .stall then 6 else if loadsPerformed c.g && releaseDone s c.gid .dev then 0 else 0x09
    | some (.nmfence _) => if (s.core c.core).nmxout == 0 then 0 else 0x0F
    | some (.ltr o) | some (.rmsel o) => busy o (if c.walks s o .rd then 0x0B else 0)
    | some (.tblld o) => busy o (if bankInUse s c.core c.gid (!(s.core c.core).cur) then 0x0E else 0)
    | some i =>
      match i.std? with
      | some (major, func, _, o) =>
        if isEmpty c.g c.r o.d && (match o.d with | .reg (.m _) => true | _ => false) then 0x0D
        else busy o (if major == 0x13 || major == 0x14 then ((commandKind major func).map (commandCode s c o)).getD 0 else 0)
      | none => match i.trail? with
        | some (_, t) => if readyOf c.g c.r [(.reg (.p t.pred), false), (t.a, t.ea)] == .stall then 6 else 0
        | none => 0
    | none => 0

/-- Whether a slot that holds an operand buffer is the one that its scheduler issues in this cycle. -/
def issuesNow (s : State) (gid : Nat) (g : Group) (slotB : Bool) : Bool :=
  (inIssue s (gid / 64) g.sched).isNone &&
    ((bestCandidate ((candidates s (gid / 64) g.sched).filter fun c => c.holds s)).map fun c => (c.gid, c.slotB)) == some (gid, slotB)

/-- The stall code of a slot at a head. -/
def headCode (s : State) (gid : Nat) (g : Group) (slotB : Bool) : Nat :=
  let x := g.slot slotB
  if g.parked then 0x14
  else if g.run.isSome then 0x04
  else
    match x.waits with
    | .barrier _ _ :: _ => 0x10
    | .pages :: _ => 0x13
    | _ :: _ => 0x12
    | [] =>
      if (g.slot (!slotB)).st.live && x.st.pc == g.rcv then 0x11
      else match x.run with
        | none => 0x01
        | some _ => if !setFull g x then 0x02 else if !x.buffer then 0x03 else if issuesNow s gid g slotB then 0x00 else 0x05

/-- The record of a sample of one group. -/
def sampleGroup (s : State) (gid : Nat) (g : Group) (st : Stand) (la : Launch) : Record :=
  let pcs := match g.run with
    | some r => r.slotB
    | none => !g.slotA.st.live
  let x := g.slot pcs
  let (pc, code) := match g.run with
    | some r => (r.head.toNat + 8 * r.pos, stallCode s { gid := gid, g := g, r := r, st := st, la := la })
    | none => (x.st.pc.toNat, headCode s gid g pcs)
  { groupRecord gid g 1 pcs x.st.mask.toNat pc with reason := if g.dbg.stopped then 0x15 else code }

/-- The group that a scheduler samples next: the first resident one above the place last sampled, wrapping. -/
def nextSample (s : State) (core sched last : Nat) : Option Nat :=
  let mine := (s.groups.filter fun e => e.1 / 64 == core && e.2.sched == sched && !e.2.retired &&
    ((s.stand? e.2.stand).map (·.handed)).getD false).map (·.1)
  match mine.find? fun gid => last < gid % 64 + 1 with
  | some gid => some gid
  | none => mine.head?

/-- The sample period of SAMPCTL: 1 to 255 act as 256. -/
def samplePeriod (d : DebugPage) : Nat :=
  let n := bits d.sampctl.toNat 0 32
  if n == 0 then 0 else max 256 n

/-- PC_SAMPLE (R425): once in each cycle whose tick is a multiple of the period. -/
def execPcSample (core sched : Nat) (s : State) : Outcome State Fault Refusal :=
  match partOfCore s core with
  | none => .next s
  | some part =>
    match s.part? part with
    | none => .next s
    | some p =>
      let n := samplePeriod p.dbg
      let c := s.core core
      if n == 0 || 4 ≤ sched || s.tick.toNat % n != 0 || Sparse.getD c.sampled (4 + sched) 0 == s.tick.toNat + 1 then .next s
      else
        let mark (m : Sparse Nat) : Sparse Nat := Sparse.set m (4 + sched) (s.tick.toNat + 1) 0
        match nextSample s core sched (Sparse.getD c.sampled sched 0) with
        | none =>
          done (trace (s.setCore core { c with sampled := mark c.sampled }) part
            { kind := 2, core := core, slot := 0, sched := sched, pcs := false, aux := 0, reason := 0, word := 2 ^ 64 - 1, extra := [] })
        | some gid =>
          let marked := s.setCore core { c with sampled := Sparse.set (mark c.sampled) sched (gid % 64 + 1) 0 }
          match seatOf s gid with
          | none => .next marked
          | some (g, st, la) => done (trace marked part (sampleGroup s gid g st la))

/-! ### Precise stop and snapshots -/

/-- PRECISE_STOP (R426): at the tick of STOPTICK the clocks gate; the links report the device down to their peers. -/
def execPreciseStop (s : State) : Outcome State Fault Refusal :=
  if s.host.stopArmed && s.tick == s.host.stoptick then
    .next { s with host := { s.host with stopArmed := false, stopped := true } }
  else .next s

/-- What a core, a field or a slice has counted for a partition: while the partition is saved, what its context holds. -/
def coreCounter (s : State) (p : Partition) (c k : Nat) : Nat :=
  let core := match p.context with
    | some x => Sparse.getD x.cores c .idle
    | none => s.core c
  (Sparse.getD core.pm k 0).toNat
def fieldCounter (s : State) (p : Partition) (c k : Nat) : Nat :=
  let cl := match p.context with
    | some x => Sparse.getD x.clusters c .idle
    | none => s.cluster c
  (Sparse.getD cl.pm k 0).toNat

/-- The slices that serve only one partition: all, where there is no other (DEDUCED). -/
def ownSlices (s : State) : List Nat := if s.parts.length == 1 then List.range 128 else []

def sliceCounter (s : State) (p : Partition) (h k : Nat) : Nat :=
  (Sparse.getD ((p.context.map (·.slices)).getD s.slicePm) (4 * h + k) 0).toNat

/-- The words of a snapshot (R427). -/
def snapshotWords (s : State) (p : Partition) : List Nat :=
  [s.tick.toNat, p.cores.length, p.clusters.length, (ownSlices s).length, 0, 0, 0, 0] ++
    (p.cores.flatMap fun c => (List.range 8).map (coreCounter s p c)) ++
    (p.clusters.flatMap fun c => (List.range 4).map (fieldCounter s p c)) ++
    ((ownSlices s).flatMap fun h => (List.range 4).map (sliceCounter s p h))

/-- PM_SNAPSHOT (R427): at the tick of PMTICK the counters are latched and written, and PMTICK becomes 0. -/
def execPmSnapshot (part : Nat) (s : State) : Outcome State Fault Refusal :=
  match s.part? part with
  | none => .next s
  | some p =>
    if p.dbg.pmtick == 0 || p.dbg.pmtick != s.tick then .next s
    else
      let ws := snapshotWords s p
      let s := hubWrite s (bits p.dbg.pmaddr.toNat 12 40 * 4096) (8 * ws.length) (packElems 64 (fun i => ws.getD i 0) ws.length)
      done { s with parts := Sparse.modify s.parts part fun p => p.setDebug { p.dbg with pmtick := 0 } }

end Sys2Proof.Machine
end

