-- ==== Sys2Proof/Machine/Outside.lean ====
section
/-! DEFINITION. The outside of the device: the registers of the control space (R393, R394, R418, R431, R433, R437), the BARs (R405,
R429), boot and reset (R359, R413), attestation (R439), and faults and limits of the module (R391, R435, R440). -/

namespace Sys2Proof.Machine

open Host (Outcome)

/-- The state that a step which always answers leaves. -/
def after (s : State) : Outcome State Fault Refusal → State
  | .next t => t
  | _ => s

def State.modHost (s : State) (f : HostPage → HostPage) : State := { s with host := f s.host }
def word64 (x : Nat) : Word := BitVec.ofNat 64 x

/-! ### Boot (R359, R413) -/

/-- The plates of an entry. -/
def entryPlates (key : Nat) (e : PlateEntry) : List Nat := (List.range e.pcnt).map fun i => plateKey (key / 2048) (e.first + i)

/-- The scrub that completes an interrupted eviction: every weight column and the check cells, each column one write. No line of the plate has
been written since the counts began anew, so that the governor lets each enter (R354). -/
def bootScrub (s : State) (p : Nat) : State :=
  let x := (List.range 320).foldl (fun (x : Plate) c => x.count false c) (s.plate p)
  (List.range 512).foldl (fun s r => s.setCellRow p r (scrubbedRow (s.cellRow p r) 320)) (s.setPlate p x)

/-- The boot check of one directory entry (R359). -/
def bootEntry (s : State) (key : Nat) : State :=
  let x := Sparse.getD s.directory key 0
  let e := PlateEntry.parse x
  let plates := entryPlates key e
  if e.state == 0 then s
  else if !entrySound x then plates.foldl (fun s p => plateLeaves s p 4) (s.setEntryState key 3)
  else if e.state == 2 then (plates.foldl bootScrub s).setEntryState key 0
  else if e.state == 1 && !rowsSound s (key / 2048) e.first e.pcnt then damage s e.seq
  else s

/-- A partition's system image is loaded onto its worker, if it verifies. -/
def bootPartition (s : State) (n : Nat) : State := bootTry { s with parts := Sparse.modify s.parts n fun p => { p with booting := true } } n

/-- The hypervisor of an image starts: the plate directory is checked, and the partitions boot. -/
def bootUp (s : State) (image : List Byte) : State :=
  let s := { s with loadWindow := [] }.modHost fun h => { h with devst := 1, firmware := sha256 image }
  let s := (s.directory.map (·.1)).foldl bootEntry s
  (s.parts.map (·.1)).foldl bootPartition s

/-- Whether a firmware image is signed by the key whose hash is fused in the hub. -/
def firmwareSigned (image : List Byte) : Bool := imageSigned (beBytes 32 Config.fusedKeyHash.toNat) image

/-- What a loss of power leaves (R357, R358): the cells, their wear and service, the directory with its bitmaps, and the counters beside
it; a plate's counts of the window are gone. The model's own choices go on. -/
def powerOff (s : State) : State :=
  { State.reset with
    agenda := s.agenda
    turnNo := s.turnNo
    freeNo := s.freeNo
    nextId := s.nextId
    cells := s.cells
    plates := (s.plates.map fun e => (e.1, { e.2 with rows := [], cols := [] })).filter fun e => e.2 != .fresh
    directory := s.directory
    bitmaps := s.bitmaps
    seqNo := s.seqNo
    signatures := s.signatures }

/-- A partition after a device reset: the hypervisor keeps its descriptor (DEDUCED), everything else is as at its creation. -/
def Partition.afresh (p : Partition) : Partition :=
  { newPartition .reset { words := [] } with
    cgmask := p.cgmask, quota := p.quota, rsv := p.rsv, thresh := p.thresh, sysarea := p.sysarea, asntab := p.asntab, tables := p.tables, qtab := p.qtab,
    prqbase := p.prqbase, prqlog2 := p.prqlog2, imgkey := p.imgkey, imgaddr := p.imgaddr, imgsize := p.imgsize, ranges := p.ranges,
    rotation := 4 * lowestCluster p }

/-- A plate out of service is found sound by a reset, or not (R438). -/
def recheckPlates (s : State) : State :=
  (s.plates.filter fun e => e.2.out).foldl (fun s e =>
    let (f, s) := s.free
    if f % 2 == 0 then s else s.setPlate e.1 { s.plate e.1 with out := false }) s

/-- DEVICE_RESET (R413): the image in the board flash verifies and the device boots, or it waits for an image in recovery-load mode. HBM
keeps its bytes, and the lines that it has lost (DEDUCED). -/
def execDeviceReset (flash : List Byte) (s : State) : Outcome State Fault Refusal :=
  let lost := (s.poisoned.filter fun l => (Sparse.find? s.l2 l).isNone) ++ s.hbmBad
  let t := recheckPlates { powerOff s with hbm := s.hbm, poisoned := lost.eraseDups, parts := s.parts.map fun e => (e.1, e.2.afresh) }
  .next (if firmwareSigned flash then bootUp t flash else t.modHost fun h => { h with devst := 2 })

/-- POWER_LOSS (R358). -/
def execPowerLoss (s : State) : Outcome State Fault Refusal := .next (powerOff s)

/-- The image in the load window. -/
def loadedImage (s : State) : List Byte := (List.range s.host.rlsize.toNat).map (Memory.read s.loadWindow)

/-- RLGO (R413, R431): in recovery-load mode a write of 1 has the image in the load window checked; other values are ignored. -/
def execRlgo (value : Word) (s : State) : Outcome State Fault Refusal :=
  let image := loadedImage s
  if value == 1 && s.host.devst == 2 && firmwareSigned image then .next (bootUp s image) else .next s

/-! ### Attestation (R439) -/

/-- What the report says and the signature signs: the nonce, FEATURE3, the digests of the firmware and of each booted partition image, zero for
one that is not booted, and the index. -/
def reportBody (s : State) : List Byte :=
  let full (n : Nat) (bs : List Byte) : List Byte := (List.range n).map fun i => bs.getD i 0
  let digest (p : Nat) : List Byte := full 32 (((s.part? p).map fun p => if p.booted then p.digest else []).getD [])
  full 32 s.host.nonce ++ bytesOf (feature 3) 8 ++ full 32 s.host.firmware ++ (List.range 8).flatMap digest ++ bytesOf s.signatures 8

/-- The report with its signature, whose leaf is the index. -/
def report (s : State) (c : List Byte) : List Byte := reportBody s ++ deviceSignature s.signatures c (reportBody s)

/-- ATTGO (R431, R439): a write of 1 makes a report, the index being advanced before the signature is released; at 2^20 the device signs
nothing more. -/
def execAttgo (value : Word) (s : State) : Outcome State Fault Refusal :=
  if value != 1 || s.host.devst != 1 || 2 ^ 20 ≤ s.signatures then .next s
  else
    let (n, s) := s.free
    let bs := report s (beBytes 32 (Config.lmsRandom n).toNat)
    let s := { s with signatures := s.signatures + 1 }.modHost fun h => { h with attst := 2 }
    done (hubWrite s (bits s.host.attaddr.toNat 3 49 * 8) bs.length (leValue bs))

/-! ### Writing registers -/

/-- The host page (R393, R431). -/
def writeHost (s : State) (off x : Nat) : State :=
  let low (n : Nat) : Nat := x % 2 ^ n
  match off with
  | 0x008 => s.modHost fun h => { h with rlsize := word64 x }
  | 0x010 => after s (execRlgo (word64 x) s)
  | 0x018 => s.modHost fun h => { h with nodeid := BitVec.ofNat 16 x }
  | 0x020 =>
    if 300 ≤ low 16 && low 16 ≤ 1500 then
      { s with withheld := s.withheld || decide (low 16 < s.host.pwrnow.toNat) }.modHost fun h => { h with pwrcap := BitVec.ofNat 16 x }
    else s
  | 0x048 => s.modHost fun h => { h with elcons := word64 x }
  | 0x060 | 0x068 | 0x070 | 0x078 =>
    let at' := off - 0x60
    let old := s.host.nonce
    s.modHost fun h => { h with nonce := (List.range 32).map fun i =>
      if at' ≤ i && i < at' + 8 then BitVec.ofNat 8 (bits x (8 * (i - at')) 8) else old.getD i 0 }
  | 0x080 => after s (execAttgo (word64 x) s)
  | 0x090 => s.modHost fun h => { h with attaddr := word64 (bits x 3 49 * 8) }
  | 0x098 => s.modHost fun h => { h with herrvec := BitVec.ofNat 16 x }
  | 0x0A0 => s.modHost fun h => { h with fatalvec := BitVec.ofNat 16 x }
  | 0x0C0 => s.modHost fun h => { h with pdaddr := word64 (bits x 6 46 * 64) }
  | 0x0C8 =>
    if bits s.host.pdst.toNat 0 2 == 1 || s.host.devst != 1 then s
    else
      let v := word64 x
      match pdOp v with
      | 1 => after s (execPartitionCreate v s)
      | 2 => after s (execPartitionUpdate v s)
      | 3 => after s (execPartitionRemove v s)
      | _ => pdRefused s 6
  | _ => s

/-- The second half of a 16-byte port acts on both halves, if the first has been written (R394). -/
def writeHalf (s : State) (part : Nat) (p : Partition) (off x : Nat) (act : BitVec 128 → State → State) : State :=
  if off % 16 == 0 then s.setPart part { p with half := Sparse.insert p.half off (word64 x) }
  else
    match Sparse.find? p.half (off - 8) with
    | none => s
    | some low => act (BitVec.ofNat 128 (low.toNat + x % 2 ^ 64 * 2 ^ 64)) (s.setPart part { p with half := Sparse.erase p.half (off - 8) })

/-- A port page (R394). -/
def writePort (s : State) (part off x : Nat) : State :=
  match s.part? part with
  | none => s
  | some p =>
    match off with
    | 0x000 => ringDoorbell s part x
    | 0x008 => flushRequests (s.setPart part { p with prqc := word64 x }) part
    | 0x020 | 0x028 => writeHalf s part p off x fun v s => after s (execArrival part v s)
    | 0x030 | 0x038 => writeHalf s part p off x fun v s => after s (execShootdown part v s)
    | 0x048 => s.setPart part { p with prqvec := word64 (x % 2 ^ 16) }
    | 0x050 => s.setPart part { p with perrvec := word64 (x % 2 ^ 16) }
    | _ => s

/-- The OP that a value of DBGCTL names (R419). -/
def runDebug (s : State) (part : Nat) (v : Word) : State :=
  match dbgOp v with
  | 1 => after s (execDbgClaim part v s)
  | 2 => after s (execDbgRelease part v s)
  | 3 => after s (execDbgStop part v s)
  | 4 => after s (execDbgResume part v s)
  | 5 => after s (execDbgStep part v s)
  | 6 => after s (execDbgDump part v s)
  | 7 => after s (execDbgLoad part v s)
  | _ => refuseDebug part v s

/-- A write of DBGCTL: behind one that still waits it waits too. -/
def writeDbgctl (s : State) (part : Nat) (v : Word) : State :=
  let waiting := ((s.part? part).map fun p => !p.dbg.pending.isEmpty).getD false
  if waiting && decide (1 ≤ dbgOp v) && decide (dbgOp v ≤ 7) then
    { s with parts := Sparse.modify s.parts part fun p => p.setDebug { p.dbg with pending := p.dbg.pending ++ [v] } }
  else runDebug s part v

/-- The first write of DBGCTL that waits is tried again. -/
def retryDebug (s : State) (part : Nat) : State := match (s.part? part).bind fun p => p.dbg.pending.head? with
  | some v => runDebug s part v
  | none => s

/-- The bits of TRCTL that are not reserved. -/
def trctlBits (x : Nat) : Nat := bits x 0 6 + bits x 16 15 * 2 ^ 16

/-- A debug page (R418). -/
def writeDebug (s : State) (part off x : Nat) : State :=
  match s.part? part with
  | none => s
  | some p =>
    let d := p.dbg
    let put (d : DebugPage) : State := s.setPart part (p.setDebug d)
    let on := d.trctl.getLsbD 0
    match off with
    | 0x000 =>
      let d := if !on && x.testBit 0 then { d with trlost := 0 } else d
      put { d with trctl := word64 (trctlBits x) }
    | 0x008 => if on then s else put { d with trbase := word64 (bits x 12 44 * 4096) }
    | 0x010 => if on then s else put { d with trsize := word64 (bits x 0 5) }
    | 0x020 => put { d with trcons := word64 (x / 32 * 32) }
    | 0x030 => put { d with sampctl := word64 (x % 2 ^ 32) }
    | 0x040 => writeDbgctl s part (word64 x)
    | 0x050 => put { d with dumpaddr := word64 (bits x 8 48 * 256) }
    | 0x060 | 0x068 | 0x070 | 0x078 => put { d with bps := d.bps.set ((off - 0x60) / 8) (word64 (bits x 3 53 * 8 + x % 2)) }
    | 0x080 => put { d with pmaddr := word64 (bits x 12 44 * 4096) }
    | 0x088 => put { d with pmtick := word64 x }
    | 0x090 => put { d with pmsel := word64 x }
    | _ => s

/-- Eight bytes of the route table: each V and port (R433). -/
def writeRoutes (s : State) (off x : Nat) : State :=
  (List.range 8).foldl (fun s i =>
    let b := bits x (8 * i) 8
    { s with routes := Sparse.set s.routes (off + i) (BitVec.ofNat 8 (b % 16 + b / 128 * 128)) 0 }) s

/-- A half of an entry of the inbound table, without its reserved bits (R434). -/
def writeInbound (s : State) (off x : Nat) : State :=
  let k := off / 16
  if 64 ≤ k then s
  else
    let e := (Sparse.getD s.inbound k 0).toNat
    let limit := bits x 16 23 * 2 ^ 16
    let w := if off % 16 == 0 then setBits e 0 64 (limit + bits x 40 16 * 2 ^ 40 + bits x 60 4 * 2 ^ 60) else setBits e 64 64 limit
    { s with inbound := Sparse.set s.inbound k (BitVec.ofNat 128 w) 0 }

/-- A write of 8 bytes in the control space, at an offset of a 64 KiB page; a write that no register takes is ignored (R3, R4). -/
def writeRegister (s : State) (page off x : Nat) : State :=
  if page == 0 then writeHost s off x
  else if page ≤ 8 then writePort s (page - 1) off x
  else if 0x10 ≤ page && page ≤ 0x17 then writeDebug s (page - 0x10) off x
  else if page == 0x20 then
    if off == 0 then s.modHost fun h => { h with stoptick := word64 x, stopArmed := x % 2 ^ 64 != 0 && s.tick.toNat < x % 2 ^ 64 } else s
  else if page == 0x30 then
    if off < 32768 then
      { s with windows := Sparse.set s.windows (off / 8) (word64 (bits x 0 16 + bits x 63 1 * 2 ^ 63)) 0 }
    else s
  else if page == 0x32 then writeRoutes s off x
  else if page == 0x34 then writeInbound s off x
  else s

/-- REGISTER_WRITE (R3): 8 bytes, or both halves of a 16-byte port. -/
def execRegisterWrite (page offset : Nat) (value : BitVec 128) (s : State) : Outcome State Fault Refusal :=
  if s.host.stopped || 65536 ≤ offset || offset % 8 != 0 then .next s
  else
    let x := value.toNat
    let port := decide (1 ≤ page) && decide (page ≤ 8) && (offset == 0x020 || offset == 0x030)
    let s := writeRegister s page offset (x % 2 ^ 64)
    done (if port then writeRegister s page (offset + 8) (x / 2 ^ 64) else s)

/-! ### Reading registers -/

/-- The host page (R431); a register that is only written reads as zero. -/
def readHost (s : State) (off : Nat) : Nat :=
  let h := s.host
  match off with
  | 0x000 => h.devst % 4 + h.cause % 256 * 2 ^ 8
  | 0x008 => h.rlsize.toNat
  | 0x018 => h.nodeid.toNat
  | 0x020 => h.pwrcap.toNat
  | 0x028 => h.pwrnow.toNat
  | 0x030 => h.temp.toNat
  | 0x040 => h.elprod.toNat
  | 0x048 => h.elcons.toNat
  | 0x050 => h.ellost.toNat
  | 0x088 => if 2 ^ 20 ≤ s.signatures then 3 else h.attst
  | 0x090 => h.attaddr.toNat
  | 0x098 => h.herrvec.toNat
  | 0x0A0 => h.fatalvec.toNat
  | 0x0C0 => h.pdaddr.toNat
  | 0x0D0 => h.pdst.toNat
  | _ => 0

/-- A port page (R394). -/
def readPort (p : Partition) (off : Nat) : Nat :=
  match off with
  | 0x008 => p.prqc.toNat
  | 0x010 => p.prqp.toNat
  | 0x040 => p.sdstat.toNat
  | 0x048 => p.prqvec.toNat
  | 0x050 => p.perrvec.toNat
  | _ => 0

/-- A debug page (R418). -/
def readDebug (s : State) (part : Nat) (d : DebugPage) (off : Nat) : Nat :=
  match off with
  | 0x000 => d.trctl.toNat
  | 0x008 => d.trbase.toNat
  | 0x010 => d.trsize.toNat
  | 0x018 => d.trprod.toNat
  | 0x020 => d.trcons.toNat
  | 0x028 => d.trlost.toNat
  | 0x030 => d.sampctl.toNat
  | 0x048 => dbgstValue s part d
  | 0x050 => d.dumpaddr.toNat
  | 0x060 | 0x068 | 0x070 | 0x078 => (d.bps.getD ((off - 0x60) / 8) 0).toNat
  | 0x080 => d.pmaddr.toNat
  | 0x088 => d.pmtick.toNat
  | 0x090 => d.pmsel.toNat
  | _ => 0

/-- Eight bytes of the error log (R437). -/
def readLog (s : State) (off : Nat) : Nat :=
  match Sparse.find? s.errorLog (off / 32) with
  | none => 0
  | some e => match off % 32 / 8 with
    | 0 => e.tick.toNat
    | 1 => e.hlc.toNat
    | 2 => e.addr.toNat
    | _ => e.info.toNat

/-- Eight bytes of the plate directory (R357): system software reads its entries through the control space. Where they stand there the spec
does not say; the place is open. -/
def readDirectory (s : State) (a : Nat) : Nat :=
  let off := a - Config.directoryBase
  if Config.directoryBase ≤ a && off < 128 * 2048 * 64 then bits (Sparse.getD s.directory (off / 64) 0).toNat (8 * (off % 64)) 64 else 0

/-- A read of 8 bytes in the control space. -/
def readRegister (s : State) (page off : Nat) : Nat :=
  if page == 0 then readHost s off
  else if page ≤ 8 then ((s.part? (page - 1)).map fun p => readPort p off).getD 0
  else if 0x10 ≤ page && page ≤ 0x17 then ((s.part? (page - 0x10)).map fun p => readDebug s (page - 0x10) p.dbg off).getD 0
  else if page == 0x20 then (if off == 0 then s.host.stoptick.toNat else if off == 8 then s.host.stopped.toNat else 0)
  else if page == 0x30 then (if off < 32768 then (Sparse.getD s.windows (off / 8) 0).toNat else 0)
  else if page == 0x32 then packElems 8 (fun i => (Sparse.getD s.routes (off + i) 0).toNat) 8
  else if page == 0x34 then bits (Sparse.getD s.inbound (off / 16) 0).toNat (off % 16 * 8) 64
  else if page == 0x40 then readLog s off
  else readDirectory s (page * 65536 + off)

/-! ### The BARs (R405, R429) -/

/-- The 8-byte words that a range touches. -/
def wordsTouched (addr size : Nat) : List Nat := (List.range ((addr % 8 + size + 7) / 8)).map fun i => addr / 8 * 8 + 8 * i

/-- A write through BAR0: word by word, bytes that are not written as the register reads (DEDUCED). -/
def barWrite (s : State) (addr : Nat) (data : List Byte) : State :=
  (wordsTouched addr data.length).foldl (fun s a =>
    let old := readRegister s (a / 65536) (a % 65536)
    let new := packElems 8 (fun i =>
      if addr ≤ a + i && a + i < addr + data.length then (data.getD (a + i - addr) 0).toNat else bits old (8 * i) 8) 8
    writeRegister s (a / 65536) (a % 65536) new) s

/-- A read through BAR0. -/
def barRead (s : State) (addr size : Nat) : Nat :=
  let ws := wordsTouched addr size
  bits (packElems 64 (fun i => let a := ws.getD i 0; readRegister s (a / 65536) (a % 65536)) ws.length) (8 * (addr % 8)) (8 * size)

/-- The lines that a range of HBM touches. -/
def linesTouched (addr size : Nat) : List Nat := (List.range ((addr % 128 + size + 127) / 128)).map fun i => addr / 128 * 128 + 128 * i

/-- Writing bytes one after the other. -/
def writeBytes (m : Memory) (addr : Nat) : List Byte → Memory
  | [] => m
  | b :: bs => writeBytes (Memory.write m addr b) (addr + 1) bs

/-- A write through BAR2: HBM beneath the slices; a line written whole is no longer poisoned (R382). No transaction aborts for it (DESIGN
CHOICE, log entry 158). -/
def hbmWrite (s : State) (addr : Nat) (data : List Byte) : State :=
  let n := data.length
  let s := (linesTouched addr n).foldl (fun s l => (bankRequest s l).2) s
  let whole (l : Nat) : Bool := decide (addr ≤ l) && decide (l + 128 ≤ addr + n)
  { s with hbm := writeBytes s.hbm addr data, poisoned := s.poisoned.filter (fun l => !whole l), hbmBad := s.hbmBad.filter fun l => !whole l }

/-- The bytes that an atomic of the host leaves where `x` stood (R429). -/
def barAtomic (op : BarOp) (size : Nat) (data : List Byte) (x : Nat) : List Byte :=
  let operand (i : Nat) : Nat := packElems 8 (fun k => (data.getD (i * size + k) 0).toNat) size
  leBytes size (match op with
    | .fetchAdd => (x + operand 0) % 2 ^ (8 * size)
    | .swap => operand 0
    | .cas => if x == operand 0 then operand 1 else x
    | _ => x)

/-- HOST_BAR_ACCESS (R405, R429): while a precise stop is in force only the device debug page answers (R426). -/
def execHostBarAccess (control : Bool) (op : BarOp) (addr size : Nat) (data : List Byte) (s : State) : Outcome State Fault Refusal :=
  let answer (s : State) (x : Completion) : State := { s with answer := some x }
  let write := op == .write
  let atomic := op != .read && !write
  if s.host.stopped && !(control && addr / 65536 == 0x20) then .next (answer s .abort)
  else if atomic && (control || !(size == 4 || size == 8) || addr % size != 0) then .next (answer s .unsupported)
  else if control then
    if 2 ^ 32 < addr + (if write then data.length else size) then .next (answer s .unsupported)
    else if write then
      if s.host.stopped then .next (answer s (.data 0)) else done (answer (barWrite s addr data) (.data 0))
    else .next (answer s (.data (barRead s addr size)))
  else if 0x6000000000 < addr + (if write then data.length else size) then .next (answer s .unsupported)
  else if s.host.devst == 2 then
    if write then .next (answer { s with loadWindow := writeBytes s.loadWindow addr data } (.data 0))
    else if atomic then
      let x := Memory.readLE s.loadWindow addr size
      .next (answer { s with loadWindow := writeBytes s.loadWindow addr (barAtomic op size data x) } (.data x))
    else .next (answer s (.data (Memory.readLE s.loadWindow addr size)))
  else if write then .next (answer (discoverAll (hbmWrite s addr data)) (.data 0))
  else
    let x := Memory.readLE s.hbm addr size
    let bad := (linesTouched addr size).any fun l => s.poisoned.contains l || s.hbmBad.contains l
    let s := (linesTouched addr size).foldl (fun s l => (bankRequest s l).2) s
    .next (answer (if atomic && !bad then { s with hbm := writeBytes s.hbm addr (barAtomic op size data x) } else s)
      (if bad then .poisoned x else .data x))

/-! ### Faults (R391, R435, R436) -/

/-- The end of a stand by an uncorrectable error in what it holds (R436). -/
def hwerr (s : State) (stand : Nat) : State := killStand s stand 0x14

/-- What an error in a memory of the device is in (R435): the registers of a group, a unit of a scratchpad, the function tables of a core,
the copies that a core or a cluster may drop, a line of a slice, a table of a slice for a partition, a tile of a stand, the memories of a worker,
the hub's own state (R431), or what the host port has received. -/
inductive SramUnit
  | registers (gid : Nat)
  | scratchpad (core unit : Nat)
  | tables (core : Nat)
  | copies (core : Nat)
  | sliceLine (line : Nat)
  | sliceTable (slice part : Nat)
  | tile (stand handle : Nat)
  | hub
  | clusterCopies (cluster : Nat)
  | worker (part : Nat)
  | hostPort
  deriving DecidableEq, Repr

/-- The memory that a number names. -/
def SramUnit.of (n : Nat) : SramUnit :=
  let i := n / 10
  match n % 10 with
  | 0 => .registers i
  | 1 => .scratchpad (i / 192) (i % 192)
  | 2 => .tables i
  | 3 => .copies i
  | 4 => .sliceLine (128 * i)
  | 5 => .sliceTable (i / 8) (i % 8)
  | 6 => .tile (i / 16) (i % 16)
  | 7 => .clusterCopies i
  | 8 => .worker i
  | _ => if i == 0 then .hostPort else .hub

/-- The stands that an uncorrectable error in a memory ends: those that hold it. -/
def SramUnit.victims (u : SramUnit) (s : State) : List Nat :=
  let where' (f : Stand → Bool) : List Nat := (s.stands.filter fun e => f e.2).map (·.1)
  match u with
  | .registers gid => ((Sparse.find? s.groups gid).map fun g => [g.stand]).getD []
  | .scratchpad core n => where' fun st => st.core == core && st.units.contains n
  | .tables core => where' fun st => st.core == core
  | .sliceTable _ part => where' fun st => st.part == part
  | _ => []

/-- Where the error log says that a memory is, and the partition. -/
def SramUnit.place (u : SramUnit) (s : State) : Nat × Option Nat :=
  let core (c : Nat) : Nat × Option Nat := (c, partOfCore s c)
  match u with
  | .registers gid => core (gid / 64)
  | .scratchpad c _ | .tables c | .copies c => core c
  | .sliceLine l => (sliceOf l, partOfPa s l)
  | .sliceTable h part => (h, if (s.part? part).isSome then some part else none)
  | .tile n _ => match s.stand? n with
    | some st => core st.core
    | none => (0, none)
  | .clusterCopies cl => core (4 * cl)
  | .worker n => (n, if (s.part? n).isSome then some n else none)
  | .hub | .hostPort => (0, none)

/-- The source that the error log names for it (R437). -/
def SramUnit.source : SramUnit → Nat
  | .worker _ => 8
  | .hostPort => 7
  | _ => 1

/-- Whether a command reads a tile of its stand and has had a pass (R356). -/
def Cmd.readsTile (k : Cmd) (stand handle : Nat) : Bool :=
  let reads := match k.kind with
    | .xmma | .xmmac | .xdrain | .xdrainReg => true
    | _ => false
  reads && k.stand == some stand && k.hacc == handle && k.started && k.code == 0

/-- A tile is lost: it is poisoned, and the commands that read it end with 0x0C (R356). -/
def loseTile (s : State) (stand handle : Nat) : State :=
  let s := s.modStand stand fun st => { st with tiles := Sparse.modify st.tiles handle fun t => { t with poison := true } }
  s.cmds.foldl (fun s e => if e.2.readsTile stand handle then failCmd s e.1 e.2 0x0C 0 else s) s

/-- Every partition stops, and DEVST is fatal. -/
def stopDevice (s : State) (cause : Nat) : State :=
  let stop (p : Partition) : Partition := { p with stopped := true }
  let t : State := { s with parts := s.parts.map fun e => (e.1, stop e.2) }
  raiseIrq (t.modHost fun h => { h with devst := 3, cause := cause }) s.host.fatalvec.toNat

/-- A worker's partition stops, as a mismatch stops the device. -/
def stopWorker (s : State) (n : Nat) : State := { s with parts := Sparse.modify s.parts n fun p => { p with stopped := true } }

/-- What an uncorrectable error does besides ending stands: copies are dropped, a clean line is fetched again and a dirty one poisoned, a
tile is poisoned. -/
def SramUnit.lost (u : SramUnit) (s : State) : State :=
  match u with
  | .copies core =>
    let s := dropCopies s core
    s.setCore core { s.core core with records := [], tlb := [] }
  | .sliceLine l =>
    match Sparse.find? s.l2 l with
    | none => s
    | some x => if x.dirty then { s with poisoned := if s.poisoned.contains l then s.poisoned else s.poisoned ++ [l] } else dropLine s l
  | .tile n h => loseTile s n h
  | .clusterCopies cl => s.setCluster cl { s.cluster cl with tlb := [], walk := [] }
  | .worker n => stopWorker s n
  | .hub => stopDevice s 3
  | _ => s

/-- How bad an error that is not corrected is, as the log says it (R437). -/
def SramUnit.severity (u : SramUnit) (stands : List Nat) : Nat := match u with
  | .hub | .worker _ => 3
  | _ => if stands.isEmpty then 1 else 2

/-- SRAM_SCRUB (R435): what the code over a memory finds, by the scrub or at a read: 0 nothing, 1 an error that is corrected, 2 and above
one that is not. At the host port FEC or a replay corrects; what they cannot correct, R430 ends. In the hub's own state an error is fatal,
with cause 3 (R431; that every partition then stops is DEDUCED). -/
def execSramScrub (unit : Nat) (bad : Nat) (s : State) : Outcome State Fault Refusal :=
  let u := SramUnit.of unit
  let (loc, part) := u.place s
  if bad == 0 then .next s
  else if bad == 1 then .next (logError s 0 u.source 0 part loc)
  else
    let stands := u.victims s
    done (stands.foldl hwerr (u.lost (logError s 0 u.source (u.severity stands) part loc)))

/-- PARITY_ERROR (R435): the stand whose logic it struck ends; which of the core's that is, is open. -/
def execParityError (core : Nat) (s : State) : Outcome State Fault Refusal :=
  let stands := (s.stands.filter fun e => e.2.core == core).map (·.1)
  let s := logError s 0 5 (if stands.isEmpty then 1 else 2) (partOfCore s core) core
  let (f, s) := s.free
  match stands[f % stands.length]? with
  | some n => .next (hwerr s n)
  | none => .next s

/-- WORKER_WATCHDOG (R435): the worker's partition stops, as a mismatch stops the device. -/
def execWorkerWatchdog (worker : Nat) (s : State) : Outcome State Fault Refusal :=
  match s.part? worker with
  | none => .next s
  | some _ => .next (logError (stopWorker s worker) 0 8 3 (some worker) worker)

/-- LOCKSTEP_MISMATCH (R391). -/
def execLockstepMismatch (s : State) : Outcome State Fault Refusal := .next (logError (stopDevice s 1) 0 9 3 none 0)

/-! ### Power, heat and time (R416, R440) -/

/-- THERMAL_TRIP (R440): a junction at 110 °C, which TEMP counts in sixteenths. -/
def execThermalTrip (s : State) : Outcome State Fault Refusal :=
  .next (stopDevice ({ s with withheld := true }.modHost fun h => { h with temp := if h.temp.toNat < 1760 then 1760 else h.temp }) 2)

/-- WITHHOLDING (R440): the hub reads power and temperature, which are open, and starts or stops withholding issue cycles and field
grants as they are above the limits or not; a reading that calls for the other is none of this step. At 110 °C it trips. -/
def execWithholding (start : Bool) (s : State) : Outcome State Fault Refusal :=
  let (p, s) := s.free
  let (t, s) := s.free
  let tooMuch := decide (s.host.pwrcap.toNat < p % 2 ^ 16) || decide (1600 < t % 2 ^ 16)
  if tooMuch != start then .next s
  else
    let s := { s with withheld := start }.modHost fun h => { h with pwrnow := BitVec.ofNat 16 p, temp := BitVec.ofNat 16 t }
    if 1760 ≤ t % 2 ^ 16 then execThermalTrip s else .next s

/-- PTP_CORRECTION (R416): a correction of more than 1 ms forward is one step; every other one changes the rate by at most 500 ppm until
the offset is spent. -/
def execPtpCorrection (offset rate : Int) (s : State) : Outcome State Fault Refusal :=
  if 1000000 < offset then .next { s with devTime := s.devTime + BitVec.ofInt 64 offset, devOffset := 0, devRate := 0, devFrac := 0 }
  else
    let size : Int := min 500 (max 1 rate.natAbs)
    .next { s with devOffset := offset, devRate := if offset == 0 then 0 else if offset < 0 then -size else size, devFrac := 0 }

end Sys2Proof.Machine
end

