-- ==== Sys2Proof/Machine/Dispatch.lean ====
section
/-! DEFINITION. One arm per constructor of `Instr`: what each operation of the H9 does to the machine. -/

namespace Sys2Proof.Machine

def exec (i : Instr) (s : State) : Host.Outcome State Fault Refusal :=
  match i with
  | .run h => Sys2Proof.Machine.execRun h s
  | .runr h => Sys2Proof.Machine.execRunr h s
  | .runFetch gid slotB => Sys2Proof.Machine.execRunFetch gid slotB s
  | .endFall t => Sys2Proof.Machine.execEndFall t s
  | .endb t => Sys2Proof.Machine.execEndb t s
  | .endc t => Sys2Proof.Machine.execEndc t s
  | .endj t => Sys2Proof.Machine.execEndj t s
  | .endcall t => Sys2Proof.Machine.execEndcall t s
  | .endret t => Sys2Proof.Machine.execEndret t s
  | .endexit t => Sys2Proof.Machine.execEndexit t s
  | .groupResourcesReturn gid => Sys2Proof.Machine.execGroupResourcesReturn gid s
  | .spawn o => Sys2Proof.Machine.execSpawn o s
  | .bar o => Sys2Proof.Machine.execBar o s
  | .bara o => Sys2Proof.Machine.execBara o s
  | .barw o => Sys2Proof.Machine.execBarw o s
  | .nop o => Sys2Proof.Machine.execNop o s
  | .add o => Sys2Proof.Machine.execAdd o s
  | .sub o => Sys2Proof.Machine.execSub o s
  | .adds o => Sys2Proof.Machine.execAdds o s
  | .subs o => Sys2Proof.Machine.execSubs o s
  | .neg o => Sys2Proof.Machine.execNeg o s
  | .abs o => Sys2Proof.Machine.execAbs o s
  | .mul o => Sys2Proof.Machine.execMul o s
  | .mulh o => Sys2Proof.Machine.execMulh o s
  | .mad o => Sys2Proof.Machine.execMad o s
  | .madw o => Sys2Proof.Machine.execMadw o s
  | .min o => Sys2Proof.Machine.execMin o s
  | .max o => Sys2Proof.Machine.execMax o s
  | .div o => Sys2Proof.Machine.execDiv o s
  | .rem o => Sys2Proof.Machine.execRem o s
  | .and o => Sys2Proof.Machine.execAnd o s
  | .or o => Sys2Proof.Machine.execOr o s
  | .xor o => Sys2Proof.Machine.execXor o s
  | .andn o => Sys2Proof.Machine.execAndn o s
  | .not o => Sys2Proof.Machine.execNot o s
  | .shl o => Sys2Proof.Machine.execShl o s
  | .shr o => Sys2Proof.Machine.execShr o s
  | .rot o => Sys2Proof.Machine.execRot o s
  | .bfe o => Sys2Proof.Machine.execBfe o s
  | .bfi o => Sys2Proof.Machine.execBfi o s
  | .clz o => Sys2Proof.Machine.execClz o s
  | .ctz o => Sys2Proof.Machine.execCtz o s
  | .popc o => Sys2Proof.Machine.execPopc o s
  | .brev o => Sys2Proof.Machine.execBrev o s
  | .cmp o => Sys2Proof.Machine.execCmp o s
  | .sel o => Sys2Proof.Machine.execSel o s
  | .mov o => Sys2Proof.Machine.execMov o s
  | .movw o => Sys2Proof.Machine.execMovw o s
  | .lea o => Sys2Proof.Machine.execLea o s
  | .idx o => Sys2Proof.Machine.execIdx o s
  | .cvti o => Sys2Proof.Machine.execCvti o s
  | .pack o => Sys2Proof.Machine.execPack o s
  | .unpk o => Sys2Proof.Machine.execUnpk o s
  | .plog o => Sys2Proof.Machine.execPlog o s
  | .pmov o => Sys2Proof.Machine.execPmov o s
  | .fadd o => Sys2Proof.Machine.execFadd o s
  | .fsub o => Sys2Proof.Machine.execFsub o s
  | .fmul o => Sys2Proof.Machine.execFmul o s
  | .ffma o => Sys2Proof.Machine.execFfma o s
  | .fmin o => Sys2Proof.Machine.execFmin o s
  | .fmax o => Sys2Proof.Machine.execFmax o s
  | .fabs o => Sys2Proof.Machine.execFabs o s
  | .fneg o => Sys2Proof.Machine.execFneg o s
  | .fcmp o => Sys2Proof.Machine.execFcmp o s
  | .fclass o => Sys2Proof.Machine.execFclass o s
  | .frnd o => Sys2Proof.Machine.execFrnd o s
  | .fdiv o => Sys2Proof.Machine.execFdiv o s
  | .frcp o => Sys2Proof.Machine.execFrcp o s
  | .frsq o => Sys2Proof.Machine.execFrsq o s
  | .fsqrt o => Sys2Proof.Machine.execFsqrt o s
  | .fexp2 o => Sys2Proof.Machine.execFexp2 o s
  | .flog2 o => Sys2Proof.Machine.execFlog2 o s
  | .fsin o => Sys2Proof.Machine.execFsin o s
  | .fcos o => Sys2Proof.Machine.execFcos o s
  | .flut o => Sys2Proof.Machine.execFlut o s
  | .tblld o => Sys2Proof.Machine.execTblld o s
  | .tblldEntriesWritten core id => Sys2Proof.Machine.execTblldEntriesWritten core id s
  | .tblsw o => Sys2Proof.Machine.execTblsw o s
  | .cvt o => Sys2Proof.Machine.execCvt o s
  | .cmul o => Sys2Proof.Machine.execCmul o s
  | .cfma o => Sys2Proof.Machine.execCfma o s
  | .shfl o => Sys2Proof.Machine.execShfl o s
  | .bcst o => Sys2Proof.Machine.execBcst o s
  | .scan o => Sys2Proof.Machine.execScan o s
  | .red o => Sys2Proof.Machine.execRed o s
  | .vote o => Sys2Proof.Machine.execVote o s
  | .xpr x => Sys2Proof.Machine.execXpr x s
  | .mld o => Sys2Proof.Machine.execMld o s
  | .mldArrival gid acc => Sys2Proof.Machine.execMldArrival gid acc s
  | .mst o => Sys2Proof.Machine.execMst o s
  | .mzero o => Sys2Proof.Machine.execMzero o s
  | .mident o => Sys2Proof.Machine.execMident o s
  | .msete o => Sys2Proof.Machine.execMsete o s
  | .mgete o => Sys2Proof.Machine.execMgete o s
  | .mshape o => Sys2Proof.Machine.execMshape o s
  | .madd o => Sys2Proof.Machine.execMadd o s
  | .msub o => Sys2Proof.Machine.execMsub o s
  | .mscal o => Sys2Proof.Machine.execMscal o s
  | .mmul o => Sys2Proof.Machine.execMmul o s
  | .mfma o => Sys2Proof.Machine.execMfma o s
  | .mtrn o => Sys2Proof.Machine.execMtrn o s
  | .mmv o => Sys2Proof.Machine.execMmv o s
  | .mchol o => Sys2Proof.Machine.execMchol o s
  | .mlup o => Sys2Proof.Machine.execMlup o s
  | .msolve o => Sys2Proof.Machine.execMsolve o s
  | .minv o => Sys2Proof.Machine.execMinv o s
  | .mdet o => Sys2Proof.Machine.execMdet o s
  | .ld o => Sys2Proof.Machine.execLd o s
  | .lds o => Sys2Proof.Machine.execLds o s
  | .loadDataArrival gid acc => Sys2Proof.Machine.execLoadDataArrival gid acc s
  | .st o => Sys2Proof.Machine.execSt o s
  | .ltr o => Sys2Proof.Machine.execLtr o s
  | .pgreq o => Sys2Proof.Machine.execPgreq o s
  | .pref o => Sys2Proof.Machine.execPref o s
  | .pageRequestRetry req => Sys2Proof.Machine.execPageRequestRetry req s
  | .aadd o => Sys2Proof.Machine.execAadd o s
  | .amin o => Sys2Proof.Machine.execAmin o s
  | .amax o => Sys2Proof.Machine.execAmax o s
  | .aand o => Sys2Proof.Machine.execAand o s
  | .aor o => Sys2Proof.Machine.execAor o s
  | .axor o => Sys2Proof.Machine.execAxor o s
  | .axch o => Sys2Proof.Machine.execAxch o s
  | .acas o => Sys2Proof.Machine.execAcas o s
  | .afadd o => Sys2Proof.Machine.execAfadd o s
  | .scadd o => Sys2Proof.Machine.execScadd o s
  | .atomicPerform id => Sys2Proof.Machine.execAtomicPerform id s
  | .atomicReturn gid acc => Sys2Proof.Machine.execAtomicReturn gid acc s
  | .fence o => Sys2Proof.Machine.execFence o s
  | .rfence o => Sys2Proof.Machine.execRfence o s
  | .rwr o => Sys2Proof.Machine.execRwr o s
  | .rwrDelivery id => Sys2Proof.Machine.execRwrDelivery id s
  | .waitc o => Sys2Proof.Machine.execWaitc o s
  | .waitcRead gid slotB => Sys2Proof.Machine.execWaitcRead gid slotB s
  | .cntadd o => Sys2Proof.Machine.execCntadd o s
  | .txb o => Sys2Proof.Machine.execTxb o s
  | .txc o => Sys2Proof.Machine.execTxc o s
  | .txa o => Sys2Proof.Machine.execTxa o s
  | .castreg o => Sys2Proof.Machine.execCastreg o s
  | .castdrop o => Sys2Proof.Machine.execCastdrop o s
  | .castq o => Sys2Proof.Machine.execCastq o s
  | .cmocln o => Sys2Proof.Machine.execCmocln o s
  | .cmoinv o => Sys2Proof.Machine.execCmoinv o s
  | .cmofl o => Sys2Proof.Machine.execCmofl o s
  | .recast rule tile => Sys2Proof.Machine.execRecast rule tile s
  | .xplacePut o => Sys2Proof.Machine.execXplacePut o s
  | .xplaceBind o => Sys2Proof.Machine.execXplaceBind o s
  | .xevictKeep o => Sys2Proof.Machine.execXevictKeep o s
  | .xevictScrub o => Sys2Proof.Machine.execXevictScrub o s
  | .xaccZero o => Sys2Proof.Machine.execXaccZero o s
  | .xaccLoad o => Sys2Proof.Machine.execXaccLoad o s
  | .xaccFree o => Sys2Proof.Machine.execXaccFree o s
  | .xmma o => Sys2Proof.Machine.execXmma o s
  | .xmmac o => Sys2Proof.Machine.execXmmac o s
  | .xdrain o => Sys2Proof.Machine.execXdrain o s
  | .xdrainRegister o => Sys2Proof.Machine.execXdrainRegister o s
  | .xstat o => Sys2Proof.Machine.execXstat o s
  | .pour o => Sys2Proof.Machine.execPour o s
  | .reservationStall gid => Sys2Proof.Machine.execReservationStall gid s
  | .fieldPassGrant cluster => Sys2Proof.Machine.execFieldPassGrant cluster s
  | .fieldCommandEnd cmd => Sys2Proof.Machine.execFieldCommandEnd cmd s
  | .commandMigration cmd cluster => Sys2Proof.Machine.execCommandMigration cmd cluster s
  | .pourPrescan cmd => Sys2Proof.Machine.execPourPrescan cmd s
  | .gNot cmd g => Sys2Proof.Machine.execGNot cmd g s
  | .gNor2 cmd g => Sys2Proof.Machine.execGNor2 cmd g s
  | .gNor3 cmd g => Sys2Proof.Machine.execGNor3 cmd g s
  | .gOr2 cmd g => Sys2Proof.Machine.execGOr2 cmd g s
  | .gAnd2 cmd g => Sys2Proof.Machine.execGAnd2 cmd g s
  | .gNand2 cmd g => Sys2Proof.Machine.execGNand2 cmd g s
  | .gImp cmd g => Sys2Proof.Machine.execGImp cmd g s
  | .gSet0 cmd g => Sys2Proof.Machine.execGSet0 cmd g s
  | .gSet1 cmd g => Sys2Proof.Machine.execGSet1 cmd g s
  | .gRead cmd g => Sys2Proof.Machine.execGRead cmd g s
  | .gLoad cmd g => Sys2Proof.Machine.execGLoad cmd g s
  | .pourEnd cmd => Sys2Proof.Machine.execPourEnd cmd s
  | .enduranceWindow => Sys2Proof.Machine.execEnduranceWindow s
  | .platePatrol field row => Sys2Proof.Machine.execPlatePatrol field row s
  | .cpy o => Sys2Proof.Machine.execCpy o s
  | .gath o => Sys2Proof.Machine.execGath o s
  | .scat o => Sys2Proof.Machine.execScat o s
  | .coll o => Sys2Proof.Machine.execColl o s
  | .collContributionArrival cmd member => Sys2Proof.Machine.execCollContributionArrival cmd member s
  | .nmx o => Sys2Proof.Machine.execNmx o s
  | .nmfence o => Sys2Proof.Machine.execNmfence o s
  | .node o => Sys2Proof.Machine.execNode o s
  | .nodeArm id => Sys2Proof.Machine.execNodeArm id s
  | .engineOwn cmd line => Sys2Proof.Machine.execEngineOwn cmd line s
  | .engineRead cmd line => Sys2Proof.Machine.execEngineRead cmd line s
  | .engineWrite cmd line => Sys2Proof.Machine.execEngineWrite cmd line s
  | .engineComplete cmd => Sys2Proof.Machine.execEngineComplete cmd s
  | .phaseQueuePerform chan => Sys2Proof.Machine.execPhaseQueuePerform chan s
  | .nmxComplete cmd => Sys2Proof.Machine.execNmxComplete cmd s
  | .phaseSwitch chan => Sys2Proof.Machine.execPhaseSwitch chan s
  | .sysrd o => Sys2Proof.Machine.execSysrd o s
  | .syswr o => Sys2Proof.Machine.execSyswr o s
  | .engstat o => Sys2Proof.Machine.execEngstat o s
  | .rmsel o => Sys2Proof.Machine.execRmsel o s
  | .rmpart o => Sys2Proof.Machine.execRmpart o s
  | .trap o => Sys2Proof.Machine.execTrap o s
  | .bkpt o => Sys2Proof.Machine.execBkpt o s
  | .eret o => Sys2Proof.Machine.execEret o s
  | .time o => Sys2Proof.Machine.execTime o s
  | .trace o => Sys2Proof.Machine.execTrace o s
  | .emulationTrap word ext => Sys2Proof.Machine.execEmulationTrap word ext s
  | .storeEnter gid => Sys2Proof.Machine.execStoreEnter gid s
  | .storeDrain gid => Sys2Proof.Machine.execStoreDrain gid s
  | .storePropagate core line => Sys2Proof.Machine.execStorePropagate core line s
  | .storeApply home => Sys2Proof.Machine.execStoreApply home s
  | .loadLine gid acc line => Sys2Proof.Machine.execLoadLine gid acc line s
  | .l1Refresh core line drop => Sys2Proof.Machine.execL1Refresh core line drop s
  | .l1Fill core line => Sys2Proof.Machine.execL1Fill core line s
  | .l1AgeDrop core line => Sys2Proof.Machine.execL1AgeDrop core line s
  | .recordCacheFill core addr => Sys2Proof.Machine.execRecordCacheFill core addr s
  | .recordCacheDrop core addr => Sys2Proof.Machine.execRecordCacheDrop core addr s
  | .delivery queue => Sys2Proof.Machine.execDelivery queue s
  | .pageWalk core asn vpage => Sys2Proof.Machine.execPageWalk core asn vpage s
  | .arrival part notice => Sys2Proof.Machine.execArrival part notice s
  | .shootdown part desc => Sys2Proof.Machine.execShootdown part desc s
  | .shootdownComplete id => Sys2Proof.Machine.execShootdownComplete id s
  | .doorbell part value => Sys2Proof.Machine.execDoorbell part value s
  | .dispatch slot => Sys2Proof.Machine.execDispatch slot s
  | .indirect slot => Sys2Proof.Machine.execIndirect slot s
  | .copy slot => Sys2Proof.Machine.execCopy slot s
  | .graph slot => Sys2Proof.Machine.execGraph slot s
  | .cmo slot => Sys2Proof.Machine.execCmo slot s
  | .waitmem slot => Sys2Proof.Machine.execWaitmem slot s
  | .signal slot => Sys2Proof.Machine.execSignal slot s
  | .standPlace launch core => Sys2Proof.Machine.execStandPlace launch core s
  | .standHandover stand => Sys2Proof.Machine.execStandHandover stand s
  | .standResourceRelease stand => Sys2Proof.Machine.execStandResourceRelease stand s
  | .launchEnd launch => Sys2Proof.Machine.execLaunchEnd launch s
  | .quantumBoundary part => Sys2Proof.Machine.execQuantumBoundary part s
  | .preemptionDiscard gid => Sys2Proof.Machine.execPreemptionDiscard gid s
  | .partitionClear part => Sys2Proof.Machine.execPartitionClear part s
  | .partitionRestore part => Sys2Proof.Machine.execPartitionRestore part s
  | .standKill stand => Sys2Proof.Machine.execStandKill stand s
  | .partitionCreate value => Sys2Proof.Machine.execPartitionCreate value s
  | .partitionUpdate value => Sys2Proof.Machine.execPartitionUpdate value s
  | .partitionRemove value => Sys2Proof.Machine.execPartitionRemove value s
  | .hbmRequest bank index => Sys2Proof.Machine.execHbmRequest bank index s
  | .backoffEnd bank => Sys2Proof.Machine.execBackoffEnd bank s
  | .rowIdleClose bank => Sys2Proof.Machine.execRowIdleClose bank s
  | .periodicRefresh bank row => Sys2Proof.Machine.execPeriodicRefresh bank row s
  | .hbmPatrol line bad => Sys2Proof.Machine.execHbmPatrol line bad s
  | .sramScrub unit bad => Sys2Proof.Machine.execSramScrub unit bad s
  | .parityError core => Sys2Proof.Machine.execParityError core s
  | .workerWatchdog worker => Sys2Proof.Machine.execWorkerWatchdog worker s
  | .lockstepMismatch => Sys2Proof.Machine.execLockstepMismatch s
  | .thermalTrip => Sys2Proof.Machine.execThermalTrip s
  | .linkFlitReceive port seq ack errors src dest hlc msg => Sys2Proof.Machine.execLinkFlitReceive port seq ack errors src dest hlc msg s
  | .linkReplay port expected => Sys2Proof.Machine.execLinkReplay port expected s
  | .linkRetrain port ok => Sys2Proof.Machine.execLinkRetrain port ok s
  | .hostRequestCompletion id ok data => Sys2Proof.Machine.execHostRequestCompletion id ok data s
  | .hostBarAccess control op addr size data => Sys2Proof.Machine.execHostBarAccess control op addr size data s
  | .deviceReset flash => Sys2Proof.Machine.execDeviceReset flash s
  | .rlgo value => Sys2Proof.Machine.execRlgo value s
  | .attgo value => Sys2Proof.Machine.execAttgo value s
  | .powerLoss => Sys2Proof.Machine.execPowerLoss s
  | .ptpCorrection offset rate => Sys2Proof.Machine.execPtpCorrection offset rate s
  | .dbgClaim part value => Sys2Proof.Machine.execDbgClaim part value s
  | .dbgRelease part value => Sys2Proof.Machine.execDbgRelease part value s
  | .dbgStop part value => Sys2Proof.Machine.execDbgStop part value s
  | .dbgResume part value => Sys2Proof.Machine.execDbgResume part value s
  | .dbgStep part value => Sys2Proof.Machine.execDbgStep part value s
  | .dbgDump part value => Sys2Proof.Machine.execDbgDump part value s
  | .dbgLoad part value => Sys2Proof.Machine.execDbgLoad part value s
  | .hwBreakpoint gid slotB => Sys2Proof.Machine.execHwBreakpoint gid slotB s
  | .pcSample core sched => Sys2Proof.Machine.execPcSample core sched s
  | .preciseStop => Sys2Proof.Machine.execPreciseStop s
  | .pmSnapshot part => Sys2Proof.Machine.execPmSnapshot part s
  | .registerWrite page offset value => Sys2Proof.Machine.execRegisterWrite page offset value s
  | .waitmemRead slot => Sys2Proof.Machine.execWaitmemRead slot s
  | .answerArrival gid => Sys2Proof.Machine.execAnswerArrival gid s
  | .cmoLinesDone gid slotB => Sys2Proof.Machine.execCmoLinesDone gid slotB s
  | .withholding start => Sys2Proof.Machine.execWithholding start s

end Sys2Proof.Machine
end

