-- ==== Sys2Proof/Machine/Turn.lean ====
section
/-! DEFINITION. A turn of the machine: which run a scheduler chooses (R98, R332), the issue of one instruction (R27, R101), the passing
of time (R415, R426, R427), and the events. -/

namespace Sys2Proof.Machine

open Host (Outcome)

/-! ### Operand buffers (R98, condition 3) -/

/-- The slot of a candidate holds a buffer, or holds none. -/
def setBuffer (s : State) (gid : Nat) (slotB b : Bool) : State := s.modGroup gid fun g => g.setSlot slotB { g.slot slotB with buffer := b }

/-- Slots that are no candidates give their buffers back (DEDUCED). -/
def giveBack (s : State) (core sched : Nat) (cs : List Candidate) : State :=
  let keep (gid : Nat) (b : Bool) (x : Slot) : Slot := { x with buffer := x.buffer && cs.any fun c => c.gid == gid && c.slotB == b }
  { s with groups := s.groups.map fun e =>
      if e.1 / 64 == core && e.2.sched == sched then (e.1, { e.2 with slotA := keep e.1 false e.2.slotA, slotB := keep e.1 true e.2.slotB }) else e }

/-- So many free buffers go to candidates in their order. -/
def giveBuffers : Nat → List Candidate → State → State
  | 0, _, s => s
  | n + 1, cs, s =>
    match bestCandidate cs with
    | none => s
    | some c => giveBuffers n (cs.erase c) (setBuffer s c.gid c.slotB true)

/-- The buffers of a scheduler, six in all, one of which the run in issue has (R289, R332). -/
def grantBuffers (s : State) (core sched : Nat) : State :=
  let cs := candidates s core sched
  let s := giveBack s core sched cs
  let used := (cs.filter fun c => c.holds s).length + if (inIssue s core sched).isSome then 1 else 0
  giveBuffers (6 - used) (cs.filter fun c => !c.holds s) s

/-- The schedulers that have groups. -/
def schedulers (s : State) : List (Nat × Nat) := (s.groups.map fun e => (e.1 / 64, e.2.sched)).eraseDups

/-- Noting the cycle in which each slot first met conditions 1, 2 and 4 at its present head. -/
def noteReady (s : State) : State :=
  let note (gid : Nat) (g : Group) (b : Bool) (x : Slot) : Slot :=
    if x.since.isNone && slotReady s gid g b then { x with since := some s.tick.toNat } else x
  { s with groups := s.groups.map fun e =>
      if e.2.run.isSome || e.2.retired then e
      else (e.1, { e.2 with slotA := note e.1 e.2 false e.2.slotA, slotB := note e.1 e.2 true e.2.slotB }) }

/-- What each cycle does for the slots at their heads: those that have become candidates are noted, and buffers are granted. -/
def ageSlots (s : State) : State :=
  let s := noteReady s
  (schedulers s).foldl (fun s e => grantBuffers s e.1 e.2) s

/-! ### Issue -/

/-- The run that a slot issues: its head is the first instruction. The heads that no breakpoint matched once do not count again
(R420). -/
def Group.start (g : Group) (slotB : Bool) (f : Fetched) : Group :=
  let x := g.slot slotB
  let r : Run :=
    { slotB := slotB, head := f.head, words := f.words, pos := 0, ws := 0, buf := [], temps := [], withdrawn := 0, bank := false,
      committed := false, arrivals := [], waits := [], tblsw := none, returning := false, stores := [], issuedTables := [], stage := 0, query := 0,
      raised := none }
  { g.setSlot slotB { x with run := none, since := none, via := none, buffer := false } with
    run := some r
    dbg := { g.dbg with skip := g.dbg.skip.filter fun h => h != f.head } }

/-- The instruction at which a group's run stands. -/
def Run.instr (r : Run) : Option Instr := readWord (r.words.getD r.pos 0) (r.words.getD (r.pos + 1) 0)

/-- The place of a group in its run, if it has one. -/
def placeOf (s : State) (gid : Nat) : Option Nat := ((Sparse.find? s.groups gid).bind (·.run)).map (·.pos)

/-- Counting what issued (R427): 2 a body instruction that did not stall in place, 3 a run. -/
def countIssue (i : Instr) (gid : Nat) (s t : State) : State :=
  if placeOf s gid == placeOf t gid then t
  else
    let part := (partOfCore s (gid / 64)).getD 0
    match i with
    | .run _ | .runr _ => countCore t (gid / 64) part 3
    | i => if i.trail?.isSome then t else countCore t (gid / 64) part 2

/-- One instruction of a group's run: its meaning, in the state that names the group as the issuing one. -/
def runInstr (gid : Nat) (s : State) : Outcome State Fault Refusal :=
  match ((Sparse.find? s.groups gid).bind (·.run)).bind (·.instr) with
  | none => .next s
  | some i =>
    match exec i { s with issuer := some gid } with
    | .next t => .next (countIssue i gid s t)
    | o => o

/-- Whether a core's partition has stopped (R391, R435). -/
def coreStopped (s : State) (core : Nat) : Bool := match (partOfCore s core).bind s.part? with
  | some p => p.stopped
  | none => false

/-- A turn of a scheduler (R332): the run in issue goes on by one instruction, or is discarded where that has been asked for (R336); with
none in issue the head of the first candidate that holds a buffer issues, unless a breakpoint stops its group (R420). While cycles are
withheld nothing issues (R440). -/
def issueTurn (core sched : Nat) (s : State) : Outcome State Fault Refusal :=
  if s.withheld || coreStopped s core then .next s
  else
    match inIssue s core sched with
    | some (gid, g, r) => if g.preempt && !r.committed then execPreemptionDiscard gid s else runInstr gid s
    | none =>
      let s := (groupsOf s core sched).foldl (fun s e => if groupActs s e.1 then wake s e.1 else s) s
      let s := grantBuffers s core sched
      match bestCandidate ((candidates s core sched).filter fun c => c.holds s) with
      | none => .next s
      | some c =>
        match seatOf s c.gid with
        | none => .next s
        | some (g, st, _) =>
          if ((s.part? st.part).map fun p => breaks p g c.slotB).getD false then .next (stopGroup s c.gid 2)
          else
            match (g.slot c.slotB).run with
            | none => .next s
            | some f => runInstr c.gid (s.putGroup c.gid (g.start c.slotB f))

/-! ### Events and time -/

/-- An operation that is no instruction word is a step that the machine takes by itself, or that its outside takes (R258). -/
def isEvent (i : Instr) : Bool := (encode i).isEmpty

/-- What still happens in a precise stop (R426): refresh, the host's accesses, a reset, and a loss of power. -/
def inStop : Instr → Bool
  | .periodicRefresh _ _ | .hostBarAccess _ _ _ _ _ | .deviceReset _ | .powerLoss => true
  | _ => false

/-- An event. -/
def eventTurn (i : Instr) (s : State) : Outcome State Fault Refusal :=
  if !isEvent i || (s.host.stopped && !inStop i) then .next s else exec i { s with issuer := none }

/-- Whether the tick of a precise stop has come (R426). -/
def stopDue (s : State) : Bool := !s.host.stopped && s.host.stopArmed && s.tick == s.host.stoptick

/-- How many of `n` ticks pass before a tick that calls for a stop, a snapshot or samples. -/
def ticksTo (s : State) (n : Nat) : Nat :=
  let upTo (n : Nat) (t : Word) : Nat := if s.tick < t then min n (t - s.tick).toNat else n
  let n := if s.host.stopArmed then upTo n s.host.stoptick else n
  s.parts.foldl (fun n (e : Nat × Partition) =>
    let n := if e.2.dbg.pmtick == 0 then n else upTo n e.2.dbg.pmtick
    let period := samplePeriod e.2.dbg
    if period == 0 then n else min n (period - s.tick.toNat % period)) n

/-- What the cycle of a tick does besides the turns: each scheduler of a partition that samples takes its sample (R425), the snapshots of the
tick are taken (R427), the writes of DBGCTL that wait are tried again,
and partitions that boot read on. A stop gates first (R428). -/
def cycleWork (s : State) : State :=
  if s.host.stopped || stopDue s then s
  else
    let sampling (e : Nat × Partition) : Bool := samplePeriod e.2.dbg != 0 && s.tick.toNat % samplePeriod e.2.dbg == 0
    let s := (s.parts.filter sampling).foldl (fun s e =>
      (e.2.cores.flatMap fun c => (List.range 4).map fun k => (c, k)).foldl (fun s x => after s (execPcSample x.1 x.2 s)) s) s
    let s := (s.parts.filter fun e => e.2.dbg.pmtick != 0 && e.2.dbg.pmtick == s.tick).foldl (fun s e => after s (execPmSnapshot e.1 s)) s
    let s := (s.parts.filter fun e => !e.2.dbg.pending.isEmpty).foldl (fun s e => retryDebug s e.1) s
    (s.parts.filter fun e => e.2.booting).foldl (fun s e => bootTry s e.1) s

/-- The slots of a group that are candidates without a buffer. -/
def Group.unbuffered (g : Group) : Nat := ([g.slotA, g.slotB].filter fun x => x.since.isSome && !x.buffer).length

/-- Counting the cycles of the schedulers (R427): 1 with a run in issue, 5 for each candidate without a buffer, 10 with the store queue
full. -/
def countCycles (s : State) (n : Nat) : State :=
  s.groups.foldl (fun s e => match e.2.run with
    | none =>
      let core := e.1 / 64
      countCoreBy s core ((partOfCore s core).getD 0) 0x05 (n * e.2.unbuffered)
    | some r =>
      let core := e.1 / 64
      let part := (partOfCore s core).getD 0
      let s := countCoreBy s core part 1 n
      if r.stage == 1 then countCoreBy s core part 0x0A n else s) s

/-- Dropping the L1 copies that are 1,048,576 cycles old (R294). -/
def dropOld (s : State) : State :=
  let young (e : Nat × L1Copy) : Bool := match e.2 with
    | .valid _ t _ _ => decide (s.tick.toNat < t + 1048576)
    | .fill _ _ _ => true
  { s with cores := (s.cores.map fun e => (e.1, { e.2 with l1 := e.2.l1.filter young })).filter fun e => e.2 != .idle }

/-- The passing of time, from what is left of one cycle's work to that of the cycle reached: old copies go, and a new second of device time
begins a new window of the plates (R354). -/
def passTime (s : State) (n : Nat) : State :=
  let s := cycleWork s
  let n := ticksTo s n
  let s := dropOld (advanceTime (countCycles s n) n)
  cycleWork (if s.devTime.toNat / 1000000000 == s.window then s else newWindow s)

/-- The turn that comes next, and the state in which it is taken: that of the agenda, or the machine's choice after some time (R258). -/
def takeTurn (s : State) : Turn × State :=
  match s.agenda with
  | t :: rest => (t, ageSlots (cycleWork { s with agenda := rest }))
  | [] =>
    let k := s.turnNo
    let s := { s with turnNo := k + 1 }
    (Config.chosen k, if s.host.stopped then s else ageSlots (passTime s (Config.tickStep k)))

/-- A turn ends with the aborts of the transactions that a write of it has flagged (R192). -/
def settled : Outcome State Fault Refusal → Outcome State Fault Refusal
  | .next t => done t
  | o => o

/-- What a turn does. -/
def turnOf (t : Turn) (s : State) : Outcome State Fault Refusal :=
  if stopDue s then execPreciseStop { s with issuer := none }
  else
    match t with
    | .issue core sched => if s.host.stopped then .next s else issueTurn core sched s
    | .event i => eventTurn i s

/-- A turn. -/
def turn (t : Turn) (s : State) : Outcome State Fault Refusal := settled (turnOf t s)

/-! ### A program in place of a load (withFetchWord) -/

/-- The partition, launch and stand under which a placed instruction runs. -/
def placedPart : Partition :=
  let p := Partition.afresh (newPartition .reset ⟨[]⟩)
  { p with booted := true, cgmask := 1, quota := 1, prqlog2 := 8 }
def placedLaunch : Launch :=
  let la := newLaunch 0 0 0 0 ⟨[]⟩ [] ⟨[]⟩ 1 0 0 0 0
  { la with
    vregs := 64, mregs := 8, widths := [5, 0, 0, 0, 0, 0], place := 2, entries := [0x1000], divstack := 64, total := 1, placed := 1 }
def placedStand : Stand :=
  let st := newStand 0 0 0 0 [] ⟨0, 0, 1, 0⟩
  { st with groups := [0], handed := true, barriers := [ownBarrier 0] }

/-- The group, with the instruction next in its run in issue. -/
def placedGroup (words : List Word) : Group :=
  let r : Run :=
    { slotB := false, head := 0x1000, words := words, pos := 0, ws := 0xFFFF, buf := [], temps := [], withdrawn := 0, bank := false,
      committed := false, arrivals := [], waits := [], tblsw := none, returning := false, stores := [], issuedTables := [], stage := 0,
      query := 0, raised := none }
  let g := newGroup placedLaunch 0 0 0 0 0 0x1000
  { g with run := some r }

/-- The words of a placed instruction. -/
def placedWords (nbits w : Nat) : List Word :=
  let x := w % 2 ^ nbits
  let first : Word := BitVec.ofNat 64 x
  if Sys2Proof.wordsOf first == 2 then [first, BitVec.ofNat 64 (x / 2 ^ 64)] else [first]

/-- The state with an instruction next in the run in issue of scheduler 0 of core 0, whose turn comes next. -/
def placeWord (s : State) (nbits w : Nat) : State :=
  { s with
    agenda := [.issue 0 0]
    withheld := false
    parts := Sparse.insert s.parts 0 placedPart
    launches := Sparse.insert s.launches 0 placedLaunch
    stands := Sparse.insert s.stands 0 placedStand
    groups := Sparse.insert (s.groups.filter fun e => e.1 / 64 != 0) 0 (placedGroup (placedWords nbits w)) }

end Sys2Proof.Machine
end

