-- ==== Sys2Proof/Machine/Step.lean ====
section
/-! DEFINITION. One step of the machine (R258), and the state that stands for a loaded program. -/

namespace Sys2Proof.Machine

/-- One step: the turn that comes next is taken. -/
def step (s : State) : Host.Outcome State Fault Refusal :=
  let (t, s) := takeTurn s
  turn t s

/-- The state in which the very next step runs an instruction: it is next in the run in issue of scheduler 0 of core 0. -/
def State.withFetchWord (s : State) (nbits w : Nat) : State := placeWord s nbits w

end Sys2Proof.Machine
end

