-- ==== Sys2Proof/Safety.lean ====
section
/-! DEFINITION. What counts as a safe run, and the terms in which claims speak of one instruction of a run: its sources are full, it
completes, and this is all that it changes. -/

namespace Sys2Proof

/-- The width of the format. -/
def Ops.w (o : Ops) : Nat := o.fmt.width

end Sys2Proof

namespace Sys2Proof.Machine

/-! ### Safe runs -/

/-- Every memory is in canonical form, so that equal memories are equal data. -/
def Canonical (s : State) : Prop :=
  Memory.wf s.hbm = true ∧ Memory.wf s.pads = true ∧ Memory.wf s.loadWindow = true

/-- The states that a run of `n` steps passes through. -/
def runs : Nat → State → Host.Outcome State Fault Refusal
  | 0, s => .next s
  | n + 1, s => match step s with
    | .next t => runs n t
    | o => o

/-- A run is safe when no step of it stops and it ends with canonical memories. -/
def SafeRun (n : Nat) (s : State) : Prop := ∃ t, runs n s = .next t ∧ Canonical t

/-! ### Fair runs (R276) -/

/-- What chooses the turns: which turn is the n-th, and how many ticks pass before it. -/
structure Schedule where
  turn : Nat → Turn
  ticks : Nat → Nat

/-- The state in which the n-th turn is taken, as `takeTurn` forms it. -/
def Schedule.before (c : Schedule) (n : Nat) (s : State) : State := if s.host.stopped then s else ageSlots (passTime s (c.ticks n))

/-- The turns that the machine owes: the steps of its groups, of their stores, loads, atomics and copies, of its engines and of its queues.
What its outside and its firmware do, and what it may do unasked, it does not owe (log entry 90). -/
def owed : Turn → Bool
  | .issue _ _ => true
  | .event i => match i with
    | .runFetch _ _ | .storeEnter _ | .storeDrain _ | .storePropagate _ _ | .storeApply _ | .loadLine _ _ _ | .loadDataArrival _ _
    | .mldArrival _ _ | .l1Refresh _ _ false | .l1Fill _ _ | .recordCacheDrop _ _ | .atomicPerform _ | .atomicReturn _ _
    | .rwrDelivery _ | .waitcRead _ _ | .recast _ _ | .delivery _ | .hbmRequest _ _ | .phaseQueuePerform _ | .phaseSwitch _
    | .engineOwn _ _ | .engineRead _ _ | .engineWrite _ _ | .engineComplete _ | .nmxComplete _ | .pourEnd _ | .backoffEnd _
    | .fieldPassGrant _ | .fieldCommandEnd _ | .commandMigration _ _ | .pourPrescan _ | .gNot _ _ | .gNor2 _ _ | .gNor3 _ _ | .gOr2 _ _
    | .gAnd2 _ _ | .gNand2 _ _ | .gImp _ _ | .gSet0 _ _ | .gSet1 _ _ | .gRead _ _ | .gLoad _ _ | .tblldEntriesWritten _ _ | .nodeArm _
    | .cmoLinesDone _ _ | .answerArrival _ | .collContributionArrival _ _ | .groupResourcesReturn _ | .waitmemRead _
    | .shootdownComplete _ => true
    | _ => false

/-- A turn that would change the state, in a machine that is not stopped and that no tick stops. -/
def Enabled (t : Turn) (s : State) : Prop := s.host.stopped = false ∧ stopDue s = false ∧ turn t s ≠ .next s

/-- A run without end in which a turn that the machine owes and that stays enabled is eventually taken. -/
structure FairRun (c : Schedule) (r : Nat → State) : Prop where
  runs : ∀ n, turn (c.turn n) (c.before n (r n)) = .next (r (n + 1))
  fair : ∀ t, owed t = true → ∀ n, (∀ m, n ≤ m → Enabled t (c.before m (r m))) → ∃ m, n ≤ m ∧ c.turn m = t

/-- From the n-th turn on something holds, after each turn and before the next; and no turn is kept from being taken. -/
def Stays (c : Schedule) (r : Nat → State) (n : Nat) (p : State → Prop) : Prop :=
  ∀ m, n ≤ m → p (r m) ∧ p (c.before m (r m)) ∧ (c.before m (r m)).host.stopped = false ∧ stopDue (c.before m (r m)) = false

/-- An L1 copy of a line of this device that does not hold what its home holds, with what its core has drained (R266). -/
def OlderCopy (core line : Nat) (s : State) : Prop :=
  ∃ d t e n, Sparse.find? (s.core core).l1 line = some (.valid d t e n) ∧ isRemote (.mem line) = false ∧
    d ≠ overlay (homeLine s line) (.mem line) ((s.core core).cvp.map (·.store))

/-- A record copy that does not hold what its home holds (R272). -/
def OlderRecord (core addr : Nat) (s : State) : Prop :=
  ∃ d : LineBits, (s.core core).recordCopy addr = some d ∧ d.toNat % 2 ^ 512 ≠ readHome s (.mem addr) 64

/-- The entries of a group place's FIFO, those first that an earlier group has left. -/
def State.fifoAt (s : State) (gid : Nat) : List Store :=
  Sparse.getD (s.core (gid / 64)).orphans gid [] ++ ((Sparse.find? s.groups gid).map (·.fifo)).getD []

/-! ### One instruction of a run -/

/-- Every source of an instruction, its governing predicate first, is full (R17, R18). -/
def Full (c : Ctx) (o : Ops) : Prop := ∀ x ∈ [Opnd.reg (.p o.pred), o.a, o.b, o.c], isEmpty c.g c.r x = false

/-- An instruction whose turn it is in the run of the issuing group, with its sources full. -/
structure Issues (s : State) (c : Ctx) (o : Ops) : Prop where
  running : running s = some c
  full : Full c o

/-- The state that differs only by a new copy of the destination, the run standing behind the instruction (R27). -/
def wrote (s : State) (c : Ctx) (o : Ops) (x : Copy) : State := c.put s c.g ((writeDest c.r o.d x).after (opWords o))

/-- The state that differs only by a new value of the predicate destination, the run standing behind the instruction (R27). -/
def wrotePred (s : State) (c : Ctx) (o : Ops) (x : PredBits) : State := c.put s (writePred c.g o.d x) (c.r.after (opWords o))

/-- The state that differs only by a new value of a matrix register, the run standing behind the instruction. -/
def wroteMat (s : State) (c : Ctx) (o : Ops) (x : MReg) : State := c.put s (c.g.setM (Opnd.num o.d) x) (c.r.after (opWords o))

/-- The state in which the run stands behind the instruction, and nothing else differs. -/
def passed (s : State) (c : Ctx) (o : Ops) : State := c.put s c.g (c.r.after (opWords o))

/-- Element `e` of a source in the instruction's format. -/
def Ctx.el (c : Ctx) (o : Ops) (x : Opnd) (e : Nat) : Nat := elem (c.read o (some o.fmt) x).val o.fmt.width e

/-- The same as a float operator reads it: a NaN as the canonical one, a BF16 subnormal as zero (R44, R45). -/
def Ctx.readEl (c : Ctx) (o : Ops) (x : Opnd) (e : Nat) : Nat := readFloat (floatFmt o.fmt) (c.el o x e)

/-- Element `e` of a source as an integer, signed or unsigned (R42, R113). -/
def Ctx.int (c : Ctx) (o : Ops) (x : Opnd) (e : Nat) : Int := valueOf o.fmt.width (opSigned o) (c.el o x e)

/-- The float value of element `e` of a source (R45). -/
def Ctx.flt (c : Ctx) (o : Ops) (f : FloatFmt) (x : Opnd) (e : Nat) : Val := f.val (c.el o x e)

/-- The tags of the three sources. -/
def Ctx.tagA (c : Ctx) (o : Ops) : Tag := (c.read o (some o.fmt) o.a).tag
def Ctx.tagB (c : Ctx) (o : Ops) : Tag := (c.read o (some o.fmt) o.b).tag
def Ctx.tagC (c : Ctx) (o : Ops) : Tag := (c.read o (some o.fmt) o.c).tag

/-- Whether every element of a width is active (R15, rule 1). -/
def Ctx.whole (c : Ctx) (o : Ops) (w : Nat) : Bool := (c.guard o).all w

/-- What an elementwise instruction does: it completes; `is` holds between an active element of the destination and its new value, and
every other element keeps its value; the tag is the one given; nothing else changes but the run's place. -/
def Elementwise (i : Ops → Instr) (w : Ops → Nat) (is : Ctx → Ops → Nat → Nat → Prop) (tag : Ctx → Ops → Lanes → Tag) : Prop :=
  ∀ s c o, Issues s c o → ∃ x, exec (i o) s = .next (wrote s c o x) ∧ x.tag = tag c o x.val ∧
    ∀ e, e < elemCount (w o) →
      if (c.guard o).active (w o) e then is c o e (elem x.val (w o) e) else elem x.val (w o) e = elem (oldDest c.r o.d).val (w o) e

/-- The tag of one, two or three sources without a rule of their own (R15). -/
def tagsA (c : Ctx) (o : Ops) (_ : Lanes) : Tag := tagOf (c.whole o o.w) [c.tagA o]
def tagsAB (c : Ctx) (o : Ops) (_ : Lanes) : Tag := tagOf (c.whole o o.w) [c.tagA o, c.tagB o]
def tagsABC (c : Ctx) (o : Ops) (_ : Lanes) : Tag := tagOf (c.whole o o.w) [c.tagA o, c.tagB o, c.tagC o]

/-- As `Elementwise`, for a float format of the instruction: active elements take the code that is given. -/
def FloatElementwise (i : Ops → Instr) (is : Ctx → Ops → FloatFmt → Nat → Nat) (tag : Ctx → Ops → Lanes → Tag) : Prop :=
  Elementwise i Ops.w (fun c o e r => ∀ f, floatFmt o.fmt = some f → r = is c o f e) tag

/-- The number that a value narrowed to `w` bits holds: clamped, or wrapped (R116). -/
def Narrowed (w : Nat) (signed clamp : Bool) (v : Int) (r : Nat) : Prop :=
  if clamp then valueOf w signed r = max (minOf w signed) (min (maxOf w signed) v) else (r : Int) = v % 2 ^ w

/-- The real number that a finite value is. -/
def Val.real : Val → Option Rat
  | .fin n m e => some ((if n then -(m : Rat) else m) * 2 ^ e)
  | _ => none

/-- The results of the active elements below `n`, combined in ascending order (R147). -/
def combined (g : Guard) (w : Nat) (op : Nat → Nat → Nat) (a : Nat → Nat) (n : Nat) : Option Nat :=
  ((List.range n).filter (g.active w)).foldl (fun acc e => some (match acc with | some y => op y (a e) | none => a e)) none

/-- The element that SHFL reads for element `e` under an index `k` (R146). -/
def shflFrom (mode e k : Nat) : Int :=
  match mode with
  | 0 => k
  | 1 => e - k
  | 2 => e + k
  | _ => (e ^^^ k : Nat)

/-- What an instruction with a predicate destination does, bit by bit. -/
def Bitwise (i : Ops → Instr) (active : Ctx → Ops → Nat → Bool) (val : Ctx → Ops → Nat → Bool) : Prop :=
  ∀ s c o, Issues s c o → ∃ x, exec (i o) s = .next (wrotePred s c o x) ∧
    ∀ b, b < 256 → x.getLsbD b = if active c o b then val c o b else (readPred c.g o.d).getLsbD b

/-! ### Memory instructions -/

/-- An instruction whose turn it is, with the sources named full. -/
structure IssuesFrom (s : State) (c : Ctx) (xs : List Opnd) : Prop where
  running : running s = some c
  full : ∀ x ∈ xs, isEmpty c.g c.r x = false

/-- The governing predicate and the address operands. -/
def addressOperands (o : Ops) : List Opnd := [.reg (.p o.pred), o.a, o.b]

/-- The three passes of R170 over elements that an instruction names. -/
def Ctx.checks (c : Ctx) (s : State) (x : Opnd) (need : Need) (size : Nat) (es : List Elem) : Verdict × State :=
  check s c.seat (c.base x) need size (fun _ => false) es

/-- What a new access of a group is. -/
def IsAccess (a : Access) (s : State) (use : Use) (todo : List Item) (absent : List Nat) (policy : Nat) : Prop :=
  a.id = s.nextId ∧ a.use = use ∧ a.todo = todo ∧ a.absent = absent ∧ a.policy = policy ∧ a.vals = [] ∧ a.cancelled = false ∧ a.poison = none

/-- The group with one more access. -/
def Group.with (g : Group) (a : Access) : Group := { g with accs := g.accs ++ [a] }

/-- Every line that a slice holds begins at a multiple of 128, and one that is not dirty holds what HBM holds (R298). -/
def SlicesCoherent (s : State) : Prop := ∀ e ∈ s.l2, e.1 % 128 = 0 ∧ (e.2.dirty = false → e.2.data = lineAt s.hbm e.1)

/-- Whether a group has room in its FIFO and its core's store queue for some stores (R295). -/
def roomFor (s : State) (gid : Nat) (g : Group) (n : Nat) : Prop := g.fifo.length + n ≤ 16 ∧ queueEntries s (gid / 64) + n ≤ 256

/-- The pieces of a store of the elements of an operand. -/
def Ctx.pieces (c : Ctx) (o : Ops) (locs : List (Nat × Nat × Loc)) : List Piece :=
  locs.map fun (e, ea, l) => { loc := l, size := elemBytes o.w, nib := nibbleOf o.w e, val := c.el o o.c e, ea := ea }

/-- Whether the release of a group at a scope completes without the fault of a lost store (R267, R434). -/
def mayRelease (s : State) (c : Ctx) (sc : Scope) : Prop := releaseDone s c.gid sc = true ∧ (sc = .sys → c.g.lost = [])

/-- The checks of an atomic (R181). -/
def Ctx.atomicChecks (c : Ctx) (s : State) (o : Ops) (hostOk : Bool) : Verdict × State :=
  check s c.seat (c.base o.a) .atomic (o.w / 8) (hostRefuses hostOk) (c.elems o)

/-- The run behind a closing instruction that has committed (R32). -/
def Run.committedAfter (r : Run) (n : Nat) : Run := { r.after n with committed := true }

/-- The state that stays when a closing instruction commits and nothing else happens. -/
def committed (s : State) (c : Ctx) (o : Ops) : State := c.put s c.g (c.r.committedAfter (opWords o))

/-- The address of a completion word, checked (R189, R190). -/
def Ctx.wordChecks (c : Ctx) (s : State) (o : Ops) (need : Need) : Verdict × State :=
  check s c.seat (c.base o.a) need 8 (fun _ => false) [c.address o]

/-- The pieces of MST: the elements of the register, rounded to the format (R155). -/
def Ctx.matPieces (c : Ctx) (o : Ops) (f : FloatFmt) (locs : List (Nat × Nat × Loc)) : List Piece :=
  locs.map fun (e, ea, l) => { loc := l, size := o.w / 8, nib := none, ea := ea, val := f.ofValue (opRound o) (f32Fmt.val (mElem (c.mat o.a).elems (e / 36) (e % 36))) }

/-- The items of MLD, and of the first `n` words of TBLLD. -/
def matItems (o : Ops) (locs : List (Nat × Nat × Loc)) : List Item :=
  orderItems (locs.map fun (e, _, l) => { idx := e, loc := l, size := o.w / 8, nib := none })
def tableItems (n : Nat) (locs : List (Nat × Nat × Loc)) : List Item :=
  orderItems ((locs.filter fun l => l.1 < n).map fun (e, _, l) => { idx := e, loc := l, size := 4, nib := none })

/-- The words that TBLLD reads (R139). -/
def Ctx.tableElems (c : Ctx) (o : Ops) (n : Nat) : List Elem :=
  (List.range n).map fun i => { idx := i, off := (c.scalar o o.b + 4 * i) % 2 ^ 64, ea := (vbaseOf (c.base o.a) + c.scalar o o.b + 4 * i) % 2 ^ 64 }

/-! ### Small matrices -/

/-- As `Issues`, the m destination being full too (R152). -/
def IssuesMat (s : State) (c : Ctx) (o : Ops) : Prop := Issues s c o ∧ isEmpty c.g c.r o.d = false

/-- A matrix register written with a shape: inside it active lanes hold the given elements and the others keep theirs, outside it
every lane holds +0.0 (R153). -/
def Written (old new : MReg) (g : Guard) (rows cols : Nat) (f : Nat → Nat → Nat → Nat) : Prop :=
  new.rows = rows ∧ new.cols = cols ∧ new.full = true ∧ ∀ l i j, l < 32 → i < 6 → j < 6 → (new.lane l).at' i j =
    if i < rows ∧ j < cols then (if g.lane l then f l i j else (old.lane l).at' i j) else 0

/-- What an instruction with an m destination does: a failing shape check traps with its number and field, and otherwise the
instruction writes the register. -/
def MatrixDoes (i : Ops → Instr) (check : Ctx → Ops → Option (Nat × Nat)) (shape : Ctx → Ops → Nat × Nat)
    (f : Ctx → Ops → Nat → Nat → Nat → Nat) : Prop :=
  ∀ s c o, IssuesMat s c o → match check c o with
    | some (n, field) => exec (i o) s = .next (c.trap s 0x08 (n + field * 256) 0)
    | none => ∃ m, exec (i o) s = .next (wroteMat s c o m) ∧ Written (c.mat o.d) m (c.guard o) (shape c o).1 (shape c o).2 (f c o)

/-- Check 1 of R153. -/
def sameShape (c : Ctx) (o : Ops) : Option (Nat × Nat) :=
  if (c.mat o.a).rows = (c.mat o.b).rows ∧ (c.mat o.a).cols = (c.mat o.b).cols then none else some (1, 2)

/-! ### Runs -/

/-- A trailer whose turn it is and which executes normally (R101): its sources are full, a bank that its run makes current has no fill
under way, nothing that its run has done ends it otherwise (ERET, TRAP, a debugger's step), it publishes no register of the region's
live-in set, and its other slot, where that is live, does not wait at the reconvergence PC, so that no merge follows. -/
structure TrailerIssues (s : State) (c : Ctx) (t : Trail) : Prop where
  issues : IssuesFrom s c [.reg (.p t.pred), t.a]
  bank : c.r.tblsw = none ∨ (s.core c.core).tables = []
  plain : c.r.returning = false ∧ c.r.raised = none ∧ c.g.dbg.step = none
  free : c.regionWrite t = false
  live : (c.g.slot c.r.slotB).st.live = true
  apart : (c.g.slot (!c.r.slotB)).st.live = true → (c.g.slot (!c.r.slotB)).st.pc ≠ c.g.rcv

/-- The value of an indirect trailer's operand in the elected lane of its slot (R101). -/
def Ctx.landing (c : Ctx) (t : Trail) : Nat :=
  lane (readOpnd c.env c.g c.r none 64 none t.a).val (((List.range 32).find? fun l => (c.g.slot c.r.slotB).st.mask.getLsbD l).getD 0)

/-- A trailer whose turn it is, its sources full, in a run that has asked for no wait, in a group whose other slot is not live; whether a
closing instruction has committed, and what TRAP has left to be raised. -/
structure Ends (s : State) (c : Ctx) (t : Trail) (committed : Bool) (raised : Option (BitVec 32 × Origin)) : Prop where
  issues : IssuesFrom s c [.reg (.p t.pred), t.a]
  live : (c.g.slot c.r.slotB).st.live = true
  alone : (c.g.slot (!c.r.slotB)).st.live = false ∧ (c.g.slot (!c.r.slotB)).waits = []
  plain : c.r.tblsw = none ∧ c.r.returning = false ∧ c.r.committed = committed ∧ c.r.arrivals = [] ∧ c.r.waits = [] ∧ c.r.raised = raised
  free : c.regionWrite t = false ∧ c.g.dbg.step = none ∧ c.g.retired = false ∧ c.g.dsp = 0

/-- The link register of a trailer. -/
def linkOf (t : Trail) : Option Nat := match t.d with
  | .reg (.v n) => some n.val
  | _ => none

/-- What a trailer leaves of its group: the run has ended, the registers of the mask are published, the link register holds the address of
the word after the trailer, and every other register keeps its value (R28, R101). -/
structure Ended (s : State) (c : Ctx) (t : Trail) (u : State) (g : Group) : Prop where
  finished : u.issuer = none ∧ g.run = none ∧ Sparse.find? u.groups c.gid = some g
  published : ∀ n ∈ publishSet c.r t.pub, linkOf t ≠ some n → g.vreg n = { val := (c.r.copy n).val, tag := (c.r.copy n).tag, full := true }
  linked : ∀ n, linkOf t = some n → g.vreg n = { val := splat c.r.fall.toNat, tag := .u, full := true }
  kept : ∀ n, n ∉ publishSet c.r t.pub → linkOf t ≠ some n → g.vreg n = c.g.vreg n
  frame : g.p = c.g.p ∧ g.m = c.g.m ∧ g.x = c.g.x ∧ g.fifo = c.g.fifo ∧ g.trap = c.g.trap ∧ u.hbm = s.hbm ∧
    u.pads = s.pads ∧ ∀ gid, gid ≠ c.gid → (Sparse.find? u.groups gid).map (fun x => { x with unborn := none }) =
      (Sparse.find? s.groups gid).map (fun x => { x with unborn := none })

/-- A trailer that goes to an address: the slot keeps its lanes, and the other slot, the reconvergence PC and DSP stay. -/
structure Goes (s : State) (c : Ctx) (t : Trail) (pc : BitVec 56) (u : State) (g : Group) : Prop where
  ended : Ended s c t u g
  slot : (g.slot c.r.slotB).st = { (c.g.slot c.r.slotB).st with pc := pc }
  others : (g.slot (!c.r.slotB)).st = (c.g.slot (!c.r.slotB)).st ∧ g.rcv = c.g.rcv ∧ g.dsp = c.g.dsp

/-! ### Commands, system registers and exceptions -/

/-- A command of major 0x13 or 0x14 whose block address passes its checks and whose block has been read (R206, steps 1 and 2). -/
structure ReadsBlock (s : State) (c : Ctx) (o : Ops) (ea : Nat) (ws : List Word) (s' : State) : Prop where
  issues : IssuesFrom s c (addressOperands o)
  settled : loadsBefore c.g = true ∧ c.g.txn = none ∧ (c.guard o).elected.isSome = true
  block : ∃ l s1, check s c.seat (c.base o.a) .rd 64 (fun _ => false) [c.address o] = (.go [(0, ea, l)] [], s1) ∧
    c.readBlock s1 l ea = (.words ws, s')

/-- A copy whose lanes are those that its tag stands for (R14). -/
def Copy.shaped (c : Copy) : Prop :=
  match c.tag with
  | .u => ∀ l, l < 32 → lane c.val l = lane c.val 0
  | .a => ∀ l, l < 32 → lane c.val l = (lane c.val 0 + l * affineStride c.val) % 2 ^ 64
  | .g => True

/-- The mask of a slot, 0 when it is not live. -/
def Slot.lanes (x : Slot) : BitVec 32 := if x.st.live then x.st.mask else 0
def SlotState.lanes (x : SlotState) : BitVec 32 := if x.live then x.mask else 0

/-- What the entry of a trap leaves of a group (R33, R253): the context, slot A at the handler with the lanes of both slots, slot B not
live, and the region snapshot taken there; every register stays. -/
structure Entered (old new : Group) (k : Cause) (susp : Bool) (handler : BitVec 56) (lanes : BitVec 32) : Prop where
  context : new.trap.pc = BitVec.ofNat 64 k.pc ∧ new.trap.inst = k.inst ∧ new.trap.inst2 = k.inst2 ∧ new.trap.addr = k.addr ∧
    bits new.trap.cause.toNat 0 8 = k.code % 256 ∧ bits new.trap.cause.toNat 8 1 = (if k.slotB then 1 else 0) ∧
    bits new.trap.cause.toNat 9 1 = (if susp then 1 else 0) ∧ bits new.trap.cause.toNat 10 22 = 0 ∧
    bits new.trap.cause.toNat 32 32 = k.detail % 2 ^ 32
  slots : new.slotA.st = ⟨handler, lanes, true⟩ ∧ new.slotA.waits = [] ∧ new.slotB.st.live = false ∧ new.run = none
  snapshot : new.snap.head = handler ∧ new.snap.a = new.slotA.st ∧ new.snap.b.live = false ∧ new.snap.livein = 0
  kept : new.v = old.v ∧ new.p = old.p ∧ new.m = old.m ∧ new.x = old.x ∧ new.trap.arrive = old.trap.arrive

/-! ### Queues, commands and the debugger -/

/-- A front end whose slot is at a packet of a type: the words read and its length; the slot, the packet being its current one; and the
state with it. -/
structure AtPacket (s : State) (n : Nat) (q : QueueSlot) (type len : Nat) (ws : List Word) (s' : State) : Prop where
  slot : ∃ q0 inj s1, Sparse.find? s.slots n = some q0 ∧ nextPacket s n q0 = (inj, .ready type len ws, s1) ∧
    q = { q0 with taking := inj, current := true } ∧ s' = s1.putSlot n q ∧ ((s.part? q0.part).map q0.served).getD false = true ∧ q0.qstate ≠ 2

/-- A command that has done its work and whose completion word, in HBM and above 1, is free to be decreased. -/
structure MayEnd (s : State) (id : Nat) (k : Cmd) (pa : Nat) : Prop where
  command : s.cmd? id = some k
  finished : k.computed = true ∧ k.killed = false ∧ writesApplied s id k = true ∧ k.stand.isSome = true
  word : k.cplt = some (.mem pa) ∧ regionOf pa = .hbm ∧ pa % 8 = 0 ∧ readHome s (.mem pa) 8 ≠ 1
  free : agentOwned s id (pa / 128 * 128) = false ∧ staleLine s (pa / 128 * 128) = false ∧ homePoisoned s (.mem pa) = false
  untraced : ∀ gid, k.gid = some gid → traceOn s k.part (gid / 64) (gid % 64) 2 = false

/-- What the end of a command leaves: the command is gone, its word is 1 less, its stand's status has its code. -/
structure HasEnded (s : State) (id : Nat) (k : Cmd) (pa : Nat) (t : State) : Prop where
  gone : t.cmd? id = none
  word : readHome t (.mem pa) 8 = (readHome s (.mem pa) 8 + 2 ^ 64 - 1) % 2 ^ 64
  status : ∀ n st, k.stand = some n → s.stand? n = some st → t.stand? n =
    some (if k.kind.isField then { st with field := st.field.record k } else { st with engine := st.engine.record k })

/-- A value of DBGCTL with an OP for a resident group of a partition, no other one still waiting before it. -/
structure Commands (s : State) (part op : Nat) (value : Word) (g : Group) (la : Launch) : Prop where
  present : (s.part? part).isSome = true
  op : dbgOp value = op
  resident : ∃ st, dbgFind s part (dbgGroup value) = some (g, st, la)
  first : ∀ p, s.part? part = some p → ∀ v ∈ p.dbg.pending.head?, v = value

/-- A pour that has reached the field and is before its prescan, with nothing to own or to read first. -/
structure AtPrescan (s : State) (id : Nat) (k : Cmd) (st : Stand) : Prop where
  command : s.cmd? id = some k ∧ k.kind = .pour ∧ k.computed = false ∧ k.killed = false ∧ k.pour.scanned = false
  ready : k.toOwn = [] ∧ k.toRead = [] ∧ eligible s id k = true ∧ k.stand.bind s.stand? = some st

/-- A pour at a gate step in a pass. -/
structure AtGate (s : State) (id gop : Nat) (g : Gate) (k : Cmd) (st : Stand) : Prop where
  command : s.cmd? id = some k ∧ k.kind = .pour ∧ k.computed = false ∧ k.killed = false ∧ k.pour.left ≠ 0 ∧ k.stand.bind s.stand? = some st
  word : Word.field (k.pour.image.getD k.pour.pos 0) 60 4 = gop ∧ gateFields (k.pour.image.getD k.pour.pos 0) = g

end Sys2Proof.Machine
end

