-- ==== Sys2Proof/Certificates/Slice0/Obligations.lean ====
section
/-! DEFINITION. The statements for the provers. -/

open Sys2Proof Sys2Proof.Machine

/-! ### Majors 0x04, 0x05, 0x06 and 0x30 -/

/-- R116: ADD, SUB, NEG, MUL and MAD keep the low w bits of the exact result; ABS of the absolute value, read signed. -/
def Obligations.ArithmeticWraps : Prop :=
  Elementwise .add Ops.w (fun c o e r => (r : Int) = ((c.el o o.a e : Int) + c.el o o.b e) % 2 ^ o.w)
    (fun c o _ => tagAdd (c.whole o o.w) (o.fmt == .b64) (c.tagA o) (c.tagB o)) ∧
  Elementwise .sub Ops.w (fun c o e r => (r : Int) = ((c.el o o.a e : Int) - c.el o o.b e) % 2 ^ o.w)
    (fun c o _ => tagSub (c.whole o o.w) (o.fmt == .b64) (c.tagA o) (c.tagB o)) ∧
  Elementwise .neg Ops.w (fun c o e r => (r : Int) = (-(c.el o o.a e : Int)) % 2 ^ o.w) tagsA ∧
  Elementwise .abs Ops.w (fun c o e r => (r : Int) = ((signedOf o.w (c.el o o.a e)).natAbs : Int) % 2 ^ o.w) tagsA ∧
  Elementwise .mul Ops.w (fun c o e r => (r : Int) = ((c.el o o.a e : Int) * c.el o o.b e) % 2 ^ o.w)
    (fun c o _ => tagMul (c.whole o o.w) (o.fmt == .b64) (c.tagA o) (c.tagB o)) ∧
  Elementwise .mad Ops.w (fun c o e r => (r : Int) = ((c.el o o.a e : Int) * c.el o o.b e + c.el o o.c e) % 2 ^ o.w) tagsABC

/-- R116, R117: ADDS and SUBS clamp, MULH gives the high half of the exact product, MIN and MAX choose, and MADW multiplies the elements of
one parity into elements of twice the width. R118: the quotient is truncated toward zero and the remainder is a − q × b; a division by 0
gives all ones and leaves a; the minimum divided by −1 is the minimum with remainder 0; none of them traps.
Readings of the model: log entry 94. -/
def Obligations.ArithmeticExact : Prop :=
  (Elementwise .adds Ops.w (fun c o e r => valueOf o.w (opSigned o) r =
     max (minOf o.w (opSigned o)) (min (maxOf o.w (opSigned o)) (c.int o o.a e + c.int o o.b e))) tagsAB ∧
   Elementwise .subs Ops.w (fun c o e r => valueOf o.w (opSigned o) r =
     max (minOf o.w (opSigned o)) (min (maxOf o.w (opSigned o)) (c.int o o.a e - c.int o o.b e))) tagsAB ∧
   Elementwise .mulh Ops.w (fun c o e r => (r : Int) = (c.int o o.a e * c.int o o.b e) % 2 ^ (2 * o.w) / 2 ^ o.w) tagsAB ∧
   Elementwise .min Ops.w (fun c o e r => valueOf o.w (opSigned o) r = min (c.int o o.a e) (c.int o o.b e)) tagsAB ∧
   Elementwise .max Ops.w (fun c o e r => valueOf o.w (opSigned o) r = max (c.int o o.a e) (c.int o o.b e)) tagsAB ∧
   Elementwise .madw (fun o => 2 * o.w) (fun c o e r =>
       let h := if o.mod.getLsbD 0 then 1 else 0
       let v (x : Opnd) : Int := valueOf o.w o.fmt.signed (c.el o x (2 * e + h))
       (r : Int) = (v o.a * v o.b + elem (c.read o (some (fmtOfWidth (2 * o.w))) o.c).val (2 * o.w) e) % 2 ^ (2 * o.w))
     (fun c o _ => tagOf (c.whole o (2 * o.w)) [c.tagA o, c.tagB o, (c.read o (some (fmtOfWidth (2 * o.w))) o.c).tag])) ∧
  (Elementwise .div Ops.w (fun c o e r =>
     if c.el o o.b e = 0 then r = 2 ^ o.w - 1
     else if opSigned o = true ∧ c.int o o.a e = minOf o.w true ∧ c.int o o.b e = -1 then r = c.el o o.a e
     else valueOf o.w (opSigned o) r = Int.tdiv (c.int o o.a e) (c.int o o.b e)) tagsAB ∧
   Elementwise .rem Ops.w (fun c o e r =>
     if c.el o o.b e = 0 then r = c.el o o.a e
     else valueOf o.w (opSigned o) r = c.int o o.a e - Int.tdiv (c.int o o.a e) (c.int o o.b e) * c.int o o.b e) tagsAB)

/-- R119: the logic instructions bit by bit, and the shifts by an unsigned amount k. -/
def Obligations.LogicAndShifts : Prop :=
  Elementwise .and Ops.w (fun c o e r => ∀ i, i < o.w → r.testBit i = ((c.el o o.a e).testBit i && (c.el o o.b e).testBit i)) tagsAB ∧
  Elementwise .or Ops.w (fun c o e r => ∀ i, i < o.w → r.testBit i = ((c.el o o.a e).testBit i || (c.el o o.b e).testBit i)) tagsAB ∧
  Elementwise .xor Ops.w (fun c o e r => ∀ i, i < o.w → r.testBit i = ((c.el o o.a e).testBit i != (c.el o o.b e).testBit i)) tagsAB ∧
  Elementwise .andn Ops.w (fun c o e r => ∀ i, i < o.w → r.testBit i = ((c.el o o.a e).testBit i && !(c.el o o.b e).testBit i)) tagsAB ∧
  Elementwise .not Ops.w (fun c o e r => ∀ i, i < o.w → r.testBit i = !(c.el o o.a e).testBit i) tagsA ∧
  Elementwise .shl Ops.w (fun c o e r => ∀ i, i < o.w →
      r.testBit i = (decide (c.el o o.b e ≤ i) && (c.el o o.a e).testBit (i - c.el o o.b e)))
    (fun c o _ => tagShl (c.whole o o.w) (o.fmt == .b64) (c.tagA o) (c.tagB o) (c.el o o.b 0)) ∧
  Elementwise .shr Ops.w (fun c o e r => valueOf o.w (opSigned o) r = c.int o o.a e / 2 ^ c.el o o.b e) tagsAB ∧
  Elementwise .rot Ops.w (fun c o e r => ∀ i, i < o.w →
    r.testBit ((i + c.el o o.b e) % o.w) = (c.el o o.a e).testBit i) tagsAB

/-- R119, R120: leading and trailing zeros, the count of ones, the reversal, and the bit fields at pos = b of length len = c. -/
def Obligations.BitFields : Prop :=
  Elementwise .clz Ops.w (fun c o e r => r ≤ o.w ∧ (∀ i, o.w ≤ i + r → i < o.w → (c.el o o.a e).testBit i = false) ∧
    (r < o.w → (c.el o o.a e).testBit (o.w - 1 - r) = true)) tagsA ∧
  Elementwise .ctz Ops.w (fun c o e r => r ≤ o.w ∧ (∀ i, i < r → (c.el o o.a e).testBit i = false) ∧
    (r < o.w → (c.el o o.a e).testBit r = true)) tagsA ∧
  Elementwise .popc Ops.w (fun c o e r => r = ((List.range o.w).filter (c.el o o.a e).testBit).length) tagsA ∧
  Elementwise .brev Ops.w (fun c o e r => ∀ i, i < o.w → r.testBit i = (c.el o o.a e).testBit (o.w - 1 - i)) tagsA ∧
  Elementwise .bfe Ops.w (fun c o e r =>
    let pos := c.el o o.b e
    let len := min (c.el o o.c e) (o.w - pos)
    if len = 0 then r = 0 else ∀ i, i < o.w → r.testBit i =
      if i < len then (c.el o o.a e).testBit (pos + i) else opSigned o && (c.el o o.a e).testBit (pos + len - 1)) tagsABC ∧
  Elementwise .bfi Ops.w (fun c o e r =>
      let pos := c.el o o.b e
      let len := min (c.el o o.c e) (o.w - pos)
      ∀ i, i < o.w → r.testBit i =
        if pos ≤ i ∧ i < pos + len then (c.el o o.a e).testBit (i - pos) else (elem (oldDest c.r o.d).val o.w e).testBit i)
    (fun c o _ => tagOf (c.whole o o.w) [c.tagA o, c.tagB o, c.tagC o, (oldDest c.r o.d).tag])

/-- R121 to R124: CMP writes every predicate bit of an active element's bytes, SEL chooses by a predicate, MOV and MOVW copy, LEA and IDX
compute addresses and indices. R127, R128: PLOG looks each active bit up in the truth table MOD, and PMOV moves between the bits of a
predicate and the bytes of a register. -/
def Obligations.CompareAndSelect : Prop :=
  (Bitwise .cmp (fun c o b => (c.guard o).active o.w (8 * b / o.w)) (fun c o b =>
     let x := c.int o o.a (8 * b / o.w)
     let y := c.int o o.b (8 * b / o.w)
     match o.mod.toNat % 8 with
     | 0 => decide (x = y) | 1 => decide (x ≠ y) | 2 => decide (x < y) | 3 => decide (x ≤ y) | 4 => decide (x > y) | _ => decide (x ≥ y)) ∧
   Elementwise .sel Ops.w (fun c o e r => r = if (readPred c.g o.c).getLsbD (o.w * e / 8) then c.el o o.a e else c.el o o.b e)
     (fun c o _ => if (c.whole o o.w && Opnd.num o.c == 0) = true then c.tagA o else .g) ∧
   Elementwise .mov Ops.w (fun c o e r => r = c.el o o.a e) (fun c o _ => if c.whole o o.w then c.tagA o else .g) ∧
   Elementwise .movw (fun _ => 64) (fun c o e r => r = lane (c.read o none o.a).val e)
     (fun c o _ => if c.whole o 64 then .u else .g) ∧
   Elementwise .lea (fun _ => 64) (fun c o e r =>
       let v (x : Opnd) : Nat := lane (c.read o (some o.fmt) x).val e
       r = (v o.a + v o.b * 2 ^ (v o.c % 64)) % 2 ^ 64)
     (fun c o x => tagLea (c.whole o 64) (c.tagA o) (c.tagB o) (c.tagC o) x) ∧
   Elementwise .idx Ops.w (fun c o e r => r = (c.el o o.a e + e * c.el o o.b e) % 2 ^ o.w)
     (fun c o _ => tagIdx (c.whole o o.w) (o.fmt == .b64) (c.tagA o) (c.tagB o))) ∧
  (Bitwise .plog (fun c o b => (c.guard o).bit b) (fun c o b =>
     o.mod.getLsbD (2 * ((readPred c.g o.a).getLsbD b).toNat + ((readPred c.g o.b).getLsbD b).toNat)) ∧
   (∀ s c o, Issues s c o → o.mod.getLsbD 0 = false → ∃ x, exec (.pmov o) s = .next (wrotePred s c o x) ∧
     ∀ b, b < 256 → x.getLsbD b =
       if (c.guard o).bit b then elem (c.read o none o.a).val 8 b != 0 else (readPred c.g o.d).getLsbD b) ∧
   (∀ s c o, Issues s c o → o.mod.getLsbD 0 = true → ∃ x, exec (.pmov o) s = .next (wrote s c o x) ∧ x.tag = .g ∧
     ∀ b, b < 256 → elem x.val 8 b =
       if (c.guard o).bit b then (if (readPred c.g o.a).getLsbD b then 0xFF else 0) else elem (oldDest c.r o.d).val 8 b))

/-- R125, R126: CVTI, PACK and UNPK convert between integer widths, a part of a lane's sub-elements at a time.
Readings of the model: log entry 94. -/
def Obligations.IntegerConversions : Prop :=
  Elementwise .cvti Ops.w (fun c o e r =>
      let st := (Fmt.ofCode (Opnd.num o.b)).getD .b64
      let part := Opnd.num o.c
      let nd := 64 / o.w
      let ns := 64 / st.width
      let x (i : Nat) : Int := valueOf st.width (signed64 st) (elem (c.read o (some st) o.a).val st.width i)
      if st.width ≤ o.w then Narrowed o.w (signed64 o.fmt) (o.mod.getLsbD 0) (x (e / nd * ns + part * nd + e % nd)) r
      else if part * ns ≤ e % nd ∧ e % nd < part * ns + ns then
        Narrowed o.w (signed64 o.fmt) (o.mod.getLsbD 0) (x (e / nd * ns + (e % nd - part * ns))) r
      else r = elem (oldDest c.r o.d).val o.w e)
    (fun c o _ =>
      let st := (Fmt.ofCode (Opnd.num o.b)).getD .b64
      let a := (c.read o (some st) o.a).tag
      tagOf (c.whole o o.w) (if st.width ≤ o.w then [a] else [a, (oldDest c.r o.d).tag])) ∧
  Elementwise .pack Ops.w (fun c o e r =>
      let n := 64 / o.w
      let x (y : Opnd) (i : Nat) : Int := valueOf (2 * o.w) o.fmt.signed (elem (c.read o (some (fmtOfWidth (2 * o.w))) y).val (2 * o.w) i)
      Narrowed o.w o.fmt.signed (o.mod.getLsbD 0)
        (if e % n < n / 2 then x o.a (e / n * (n / 2) + e % n) else x o.b (e / n * (n / 2) + e % n - n / 2)) r)
    (fun c o _ => tagOf (c.whole o o.w)
      [(c.read o (some (fmtOfWidth (2 * o.w))) o.a).tag, (c.read o (some (fmtOfWidth (2 * o.w))) o.b).tag]) ∧
  Elementwise .unpk (fun o => 2 * o.w) (fun c o e r =>
      let n := 64 / o.w
      (r : Int) = valueOf o.w o.fmt.signed (c.el o o.a (e / (n / 2) * n + e % (n / 2) + (if o.mod.getLsbD 0 then n / 2 else 0))) %
        2 ^ (2 * o.w))
    (fun c o _ => tagOf (c.whole o (2 * o.w)) [c.tagA o])

/-! ### Majors 0x07 to 0x0B -/

/-- R131, R134: each instruction forms the exact result and rounds it once under MOD[2:0]. R132, R133: FCMP writes the condition of an
active element to every predicate bit of its bytes, an unordered pair giving 1 under .ne and .uo alone; FCLASS sets exactly one of nine
bits. -/
def Obligations.FloatArithmetic : Prop :=
  (FloatElementwise .fadd (fun c o f e => f.ofValue (opRound o) (Val.add (opRound o) (c.flt o f o.a e) (c.flt o f o.b e))) tagsAB ∧
   FloatElementwise .fsub (fun c o f e => f.ofValue (opRound o) (Val.add (opRound o) (c.flt o f o.a e) (c.flt o f o.b e).neg)) tagsAB ∧
   FloatElementwise .fmul (fun c o f e => f.ofValue (opRound o) (Val.mul (c.flt o f o.a e) (c.flt o f o.b e))) tagsAB ∧
   FloatElementwise .ffma (fun c o f e => f.ofValue (opRound o)
     (Val.add (opRound o) (Val.mul (c.flt o f o.a e) (c.flt o f o.b e)) (c.flt o f o.c e))) tagsABC ∧
   FloatElementwise .fmin (fun c o f e => f.ofValue 0 (Val.min (c.flt o f o.a e) (c.flt o f o.b e))) tagsAB ∧
   FloatElementwise .fmax (fun c o f e => f.ofValue 0 (Val.max (c.flt o f o.a e) (c.flt o f o.b e))) tagsAB ∧
   FloatElementwise .fabs (fun c o f e => f.ofValue 0 (c.flt o f o.a e).abs) tagsA ∧
   FloatElementwise .fneg (fun c o f e => f.ofValue 0 (c.flt o f o.a e).neg) tagsA ∧
   FloatElementwise .frnd (fun c o f e => f.ofValue (opRound o) ((c.flt o f o.a e).rnd (opRound o))) tagsA ∧
   FloatElementwise .fdiv (fun c o f e => f.ofValue (opRound o) (Val.div (c.flt o f o.a e) (c.flt o f o.b e))) tagsAB) ∧
  (Bitwise .fcmp (fun c o b => (c.guard o).active o.w (8 * b / o.w)) (fun c o b =>
     let x := c.flt o (opFloat o) o.a (8 * b / o.w)
     let y := c.flt o (opFloat o) o.b (8 * b / o.w)
     let cc := o.mod.toNat % 8
     if x = .nan ∨ y = .nan then cc = 1 ∨ cc = 6
     else match cc with
       | 0 => x.cmp y = .eq | 1 => x.cmp y ≠ .eq | 2 => x.cmp y = .lt | 3 => x.cmp y ≠ .gt | 4 => x.cmp y = .gt | 5 => x.cmp y ≠ .lt
       | 6 => false | _ => true) ∧
   FloatElementwise .fclass (fun c o f e =>
     let x := c.el o o.a e
     let n (neg pos : Nat) : Nat := 2 ^ (if f.neg x then neg else pos)
     if f.isNaN x then 2 ^ 8
     else if f.isInf x then n 0 7
     else if f.expField x ≠ 0 then n 1 6
     else if f.mag x ≠ 0 then n 2 5
     else n 3 4) tagsA)

/-- The meaning of the exact values: sums, products and comparisons of finite values are those of the real numbers that they are, NaN
and the infinities follow R44 and R131, and the smaller and larger of two values are one of them (R44, R131, R132). R45, R48: a result
that does not overflow is a code nearest to the exact value under .rne, and under .rz, .rdn and .rup the nearest code toward zero, below
or above. -/
def Obligations.FloatValuesExact : Prop :=
  (∀ rm a b x y, a.real = some x → b.real = some y →
    (Val.add rm a b).real = some (x + y) ∧ (Val.mul a b).real = some (x * y) ∧ a.neg.real = some (-x) ∧
    (a.cmp b = .lt ↔ x < y) ∧ (a.cmp b = .eq ↔ x = y) ∧ (a.cmp b = .gt ↔ y < x)) ∧
  (∀ rm a, Val.add rm .nan a = .nan ∧ Val.add rm a .nan = .nan ∧ Val.mul .nan a = .nan ∧ Val.mul a .nan = .nan ∧
    Val.min .nan a = .nan ∧ Val.min a .nan = .nan ∧ Val.max .nan a = .nan ∧ Val.max a .nan = .nan) ∧
  (∀ rm n, Val.add rm (.inf n) (.inf !n) = .nan ∧ Val.add rm (.inf n) (.inf n) = .inf n) ∧
  (∀ n k e, Val.mul (.inf n) (.fin k 0 e) = .nan ∧ Val.mul (.fin k 0 e) (.inf n) = .nan) ∧
  (∀ a b, a ≠ .nan → b ≠ .nan →
    (Val.min a b = a ∨ Val.min a b = b) ∧ (Val.max a b = a ∨ Val.max a b = b) ∧
    (Val.min a b).cmp (Val.max a b) ≠ .gt) ∧
  (∀ fmt f, (fmt = .f32 ∨ fmt = .f16) → floatFmt fmt = some f → ∀ rm v x, v.real = some x →
    ∀ y, (f.val (f.ofValue rm v)).real = some y → ∀ d z, d < 2 ^ f.width → (f.val d).real = some z →
      (rm = 0 → (if y ≤ x then x - y else y - x) ≤ (if z ≤ x then x - z else z - x)) ∧
      (rm = 1 → (0 ≤ x → y ≤ x ∧ (z ≤ x → z ≤ y)) ∧ (x ≤ 0 → x ≤ y ∧ (x ≤ z → y ≤ z))) ∧
      (rm = 2 → y ≤ x ∧ (z ≤ x → z ≤ y)) ∧
      (rm = 3 → x ≤ y ∧ (x ≤ z → y ≤ z)))

/-- R135, R136: the special functions run on every operand, the reciprocal as FDIV of 1 under .rne and the roots from the exact value;
the special cases hold in every format. R61, R145: the complex product and the complex multiply-accumulate, one rounding an addition; a
position is active with its even element. -/
def Obligations.SpecialFunctions : Prop :=
  FloatElementwise .frcp (fun c o f e => f.ofValue 0 (Val.div Val.one (c.flt o f o.a e))) tagsA ∧
  FloatElementwise .frsq (fun c o f e => f.ofValue 0 (c.flt o f o.a e).rsqrt) tagsA ∧
  FloatElementwise .fsqrt (fun c o f e => f.ofValue (opRound o) (c.flt o f o.a e).sqrt) tagsA ∧
  FloatElementwise .fexp2 (fun c o f e => fexp2 f (c.el o o.a e)) tagsA ∧
  FloatElementwise .flog2 (fun c o f e => flog2 f (c.el o o.a e)) tagsA ∧
  FloatElementwise .fsin (fun c o f e => fsin f (c.el o o.a e)) tagsA ∧
  FloatElementwise .fcos (fun c o f e => fcos f (c.el o o.a e)) tagsA ∧
  (∀ fmt f, (fmt = .f32 ∨ fmt = .f16 ∨ fmt = .bf16) → floatFmt fmt = some f → ∀ x rm,
    let zero (n : Bool) : Nat := f.signed n 0
    let inf (n : Bool) : Nat := f.signed n (f.inf.getD 0)
    let one := f.ofValue 0 Val.one
    match f.val x with
    | .nan => frcp f x = f.nan ∧ frsq f x = f.nan ∧ fsqrt f rm x = f.nan ∧ fexp2 f x = f.nan ∧ flog2 f x = f.nan ∧ fsin f x = f.nan ∧
        fcos f x = f.nan
    | .inf n => frcp f x = zero n ∧ frsq f x = (if n then f.nan else zero false) ∧ fsqrt f rm x = (if n then f.nan else inf false) ∧
        fexp2 f x = (if n then zero false else inf false) ∧ flog2 f x = (if n then f.nan else inf false) ∧ fsin f x = f.nan ∧
        fcos f x = f.nan
    | .fin n m e => (m = 0 → frcp f x = inf n ∧ frsq f x = inf n ∧ fsqrt f rm x = zero n ∧ fexp2 f x = one ∧ flog2 f x = inf true ∧
          fsin f x = zero n ∧ fcos f x = one) ∧
        (m ≠ 0 → n = true → frsq f x = f.nan ∧ fsqrt f rm x = f.nan ∧ flog2 f x = f.nan) ∧
        (∀ k : Nat, m = 2 ^ k → n = false → flog2 f x = f.ofValue 0 (Val.ofInt (k + e)))) ∧
  (let does (i : Ops → Instr) (start : Ctx → Ops → Nat → Option (Nat × Nat)) (tags : Ctx → Ops → List Tag) : Prop :=
     ∀ s c o f, Issues s c o → floatFmt o.fmt = some f → ∃ x, exec (i o) s = .next (wrote s c o x) ∧
       x.tag = tagOf ((List.range (elemCount o.w / 2)).all fun p => (c.guard o).active o.w (2 * p)) (tags c o) ∧
       ∀ p, p < elemCount o.w / 2 →
         let re (y : Opnd) : Nat := c.el o y (2 * p)
         let im (y : Opnd) : Nat := c.el o y (2 * p + 1)
         (elem x.val o.w (2 * p), elem x.val o.w (2 * p + 1)) =
           if (c.guard o).active o.w (2 * p) then complexMac f (opRound o) (start c o p) (re o.a) (im o.a) (re o.b) (im o.b)
           else (elem (oldDest c.r o.d).val o.w (2 * p), elem (oldDest c.r o.d).val o.w (2 * p + 1))
   does .cmul (fun _ _ _ => none) (fun c o => [c.tagA o, c.tagB o]) ∧
   does .cfma (fun c o p => some (c.el o o.c (2 * p), c.el o o.c (2 * p + 1))) (fun c o => [c.tagA o, c.tagB o, c.tagC o]))

/-- R142 to R144: CVT between two formats, from blocks and into blocks.
Readings of the model: log entries 57, 65, 96. -/
def Obligations.FloatConversions : Prop :=
  (∀ s c o, Issues s c o → isBlockCode (cvtDesc o % 32) = false → ∃ x, exec (.cvt o) s = .next (wrote s c o x) ∧
    (let st := (Fmt.ofCode (cvtDesc o % 32)).getD .b64
     let a := (c.read o (some st) o.a).tag
     x.tag = tagOf (c.whole o o.w) (if st.width ≤ o.w then [a] else [a, (oldDest c.r o.d).tag])) ∧
    ∀ e, e < elemCount o.w → elem x.val o.w e =
      let st := (Fmt.ofCode (cvtDesc o % 32)).getD .b64
      let part := bits (cvtDesc o) 8 4
      let nd := 64 / o.w
      let ns := 64 / st.width
      let y (i : Nat) : Nat := convElem st o.fmt o.mod (elem (c.read o (some st) o.a).val st.width i)
      if !(c.guard o).active o.w e then elem (oldDest c.r o.d).val o.w e
      else if st.width ≤ o.w then y (e / nd * ns + part * nd + e % nd)
      else if part * ns ≤ e % nd ∧ e % nd < part * ns + ns then y (e / nd * ns + (e % nd - part * ns))
      else elem (oldDest c.r o.d).val o.w e) ∧
  (∀ s c o sf f, Issues s c o → isBlockCode (cvtDesc o % 32) = true → SFmt.ofCode (cvtDesc o % 32) = some sf → o.mod.getLsbD 3 = false →
    floatFmt o.fmt = some f → ∃ x, exec (.cvt o) s = .next (wrote s c o x) ∧
    x.tag = tagOf (c.whole o o.w) [(c.read o (some .ui8) o.a).tag, (c.read o none o.c).tag] ∧ ∀ e, e < elemCount o.w → elem x.val o.w e =
      let n := bits (cvtDesc o) 8 4 * elemCount o.w + e
      if (c.guard o).active o.w e then
        f.ofValue (opRound o) (blockVal sf (scaleByte (c.read o none o.c).val (bits (cvtDesc o) 5 3) (n / 16))
          (elem (c.read o (some .ui8) o.a).val 8 n))
      else elem (oldDest c.r o.d).val o.w e) ∧
  (∀ s c o sf, Issues s c o → isBlockCode (cvtDesc o % 32) = true → SFmt.ofCode (cvtDesc o % 32) = some sf → o.mod.getLsbD 3 = true →
    ∃ x y, exec (.cvt o) s = .next (c.put s c.g ((writeDest (writeDest c.r o.d x) o.c y).after (opWords o))) ∧ x.tag = .g ∧ y.tag = .g ∧
      let per := elemCount o.w / 16
      let first := bits (cvtDesc o) 8 4 * per
      let block (b : Nat) : Bool := decide (first ≤ b) && decide (b < first + per) && (c.guard o).active 8 (16 * b)
      let made (b : Nat) : Nat × List Nat := blockEncode sf (opRound o)
        ((List.range 16).map fun i => (opFloat o).val (elem (c.read o (some o.fmt) o.a).val o.w (16 * (b - first) + i)))
      ∀ i, i < 256 →
        (elem x.val 8 i = if block (i / 16) then (made (i / 16)).2.getD (i % 16) 0 else elem (oldDest c.r o.d).val 8 i) ∧
        (elem y.val 8 i = if block (i / 16) && i % 16 == bits (cvtDesc o) 5 3 then (made (i / 16)).1 else elem (oldDest c.r o.c).val 8 i))

/-- R44, R45, R146 to R148: the cross-lane instructions; their results take tag G, SCAN and RED read the elements of a float format as
every float operator reads them, and BCST without an elected lane does nothing (R16).
Readings of the model: log entry 58. -/
def Obligations.CrossLane : Prop :=
  Elementwise .shfl Ops.w (fun c o e r =>
    let i := shflFrom (o.mod.toNat % 4) e (elem (c.read o (some (fmtOfWidth o.w)) o.b).val o.w e)
    r = if 0 ≤ i ∧ i < elemCount o.w then c.el o o.a i.toNat else c.el o o.a e) (fun _ _ _ => .g) ∧
  (∀ s c o, Issues s c o → (c.guard o).elected = none → exec (.bcst o) s = .next (settleTxns (passed s c o))) ∧
  (∀ s c o l, Issues s c o → (c.guard o).elected = some l → ∃ x, exec (.bcst o) s = .next (wrote s c o x) ∧ x.tag = .g ∧
    ∀ e, e < elemCount o.w → elem x.val o.w e =
      if (c.guard o).active o.w e then c.el o o.a (c.scalar o o.b % elemCount o.w) else elem (oldDest c.r o.d).val o.w e) ∧
  Elementwise .scan Ops.w (fun c o e r =>
    let acc := combined (c.guard o) o.w (reduceOp o.fmt (o.mod.toNat % 8)) (c.readEl o o.a)
    r = if o.mod.getLsbD 3 then (acc e).getD (reduceUnit o.fmt (o.mod.toNat % 8)) else (acc (e + 1)).getD 0) (fun _ _ _ => .g) ∧
  Elementwise .red Ops.w (fun c o e r =>
    r = (combined (c.guard o) o.w (reduceOp o.fmt (o.mod.toNat % 8)) (c.readEl o o.a) (elemCount o.w)).getD 0) (fun _ _ _ => .g) ∧
  (∀ s c o, Issues s c o → o.mod.toNat % 4 ≠ 3 → ∃ x, exec (.vote o) s = .next (wrotePred s c o x) ∧ ∀ b, b < 256 → x.getLsbD b =
    if (c.guard o).lane (b / 8) then
      let vote (v : Bool) : Bool := (List.range 32).any fun l => (c.guard o).lane l && (readPred c.g o.a).getLsbD (8 * l) == v
      match o.mod.toNat % 4 with | 0 => vote true | 1 => !vote false | _ => !(vote true && vote false)
    else (readPred c.g o.d).getLsbD b) ∧
  (∀ s c o, Issues s c o → o.mod.toNat % 4 = 3 → ∃ x, exec (.vote o) s = .next (wrote s c o x) ∧ x.tag = .g ∧ ∀ l, l < 32 →
    if (c.guard o).lane l then ∀ i, i < 64 → (lane x.val l).testBit i =
      (decide (i < 32) && (c.guard o).lane i && (readPred c.g o.a).getLsbD (8 * i))
    else lane x.val l = lane (oldDest c.r o.d).val l)

/-- R149 to R151: an expression whose stack does not fit traps with the failing slot and its kind before anything is computed; any
other is evaluated for each active element, once the sources that it names are full.
Readings of the model: log entries 97, 103. -/
def Obligations.Expressions : Prop :=
  (∀ s c x slot kind, running s = some c → xprDepth (x.codes.map (·.toNat)) 0 0 = some (slot, kind) →
    exec (.xpr x) s = .next (c.trap s 0x0D (slot + kind * 256) 0)) ∧
  (∀ s c x, running s = some c → xprDepth (x.codes.map (·.toNat)) 0 0 = none →
    (∀ y ∈ (Opnd.reg (.p x.o.pred), false) :: xprSources x, isEmpty c.g c.r y.1 = false) →
    ((x.codes.map (·.toNat)).contains 0x21 && tablePending s c) = false →
    ∃ r, exec (.xpr x) s = .next (c.put s c.g ((writeDest c.r x.o.d r).after 2)) ∧
      r.tag = tagOf (c.whole x.o x.o.w) ((xprSources x).map fun y => (c.read x.o (some x.o.fmt) y.1).tag) ∧
      ∀ e, e < elemCount x.o.w → elem r.val x.o.w e =
        if (c.guard x.o).active x.o.w e then
          xprEval { w := x.o.w, ff := floatFmt x.o.fmt, rm := opRound x.o, sg := opSigned x.o, tab := (s.core c.core).entry c.r.bank }
            (fun k => c.el x.o (match k with | 0 => x.o.a | 1 => x.o.b | 2 => x.o.c | _ => x.s4) e) (x.codes.map (·.toNat)) % 2 ^ x.o.w
        else elem (oldDest c.r x.o.d).val x.o.w e)

/-! ### Majors 0x0C and 0x0D -/

/-- R152, R156 to R158: the instructions with an m destination whose elements need no factorisation. R16, R153, R156: MSETE, MGETE and
MSHAPE read their U operands from the elected lane; without one they do nothing, and a position or a count outside its range traps.
Readings of the model: log entry 65. -/
def Obligations.MatrixElements : Prop :=
  (MatrixDoes .mzero (fun _ _ => none) (fun c o => ((c.mat o.d).rows, (c.mat o.d).cols)) (fun _ _ _ _ _ => 0) ∧
   MatrixDoes .mident (fun _ _ => none) (fun c o => ((c.mat o.d).rows, (c.mat o.d).cols))
     (fun _ _ _ i j => if i = j then 0x3F800000 else 0) ∧
   MatrixDoes .mmv (fun _ _ => none) (fun c o => ((c.mat o.a).rows, (c.mat o.a).cols)) (fun c o l i j => ((c.mat o.a).lane l).at' i j) ∧
   MatrixDoes .mtrn (fun _ _ => none) (fun c o => ((c.mat o.a).cols, (c.mat o.a).rows)) (fun c o l i j => ((c.mat o.a).lane l).at' j i) ∧
   MatrixDoes .madd sameShape (fun c o => ((c.mat o.a).rows, (c.mat o.a).cols))
     (fun c o l i j => add32 (((c.mat o.a).lane l).at' i j) (((c.mat o.b).lane l).at' i j)) ∧
   MatrixDoes .msub sameShape (fun c o => ((c.mat o.a).rows, (c.mat o.a).cols))
     (fun c o l i j => fsub f32Fmt 0 (((c.mat o.a).lane l).at' i j) (((c.mat o.b).lane l).at' i j)) ∧
   MatrixDoes .mscal (fun _ _ => none) (fun c o => ((c.mat o.a).rows, (c.mat o.a).cols))
     (fun c o l i j => mul32 (((c.mat o.a).lane l).at' i j) (c.f32 o o.b l)) ∧
   MatrixDoes .mmul (fun c o => if (c.mat o.a).cols = (c.mat o.b).rows then none else some (2, 2))
     (fun c o => ((c.mat o.a).rows, (c.mat o.b).cols))
     (fun c o l i j =>
       let a := (c.mat o.a).lane l
       let b := (c.mat o.b).lane l
       ((List.range (c.mat o.a).cols).drop 1).foldl (fun s t => fma32 (a.at' i t) (b.at' t j) s) (mul32 (a.at' i 0) (b.at' 0 j))) ∧
   MatrixDoes .mfma
     (fun c o =>
       if (c.mat o.a).cols ≠ (c.mat o.b).rows then some (2, 2)
       else if (c.mat o.c).rows = (c.mat o.a).rows ∧ (c.mat o.c).cols = (c.mat o.b).cols then none else some (2, 3))
     (fun c o => ((c.mat o.a).rows, (c.mat o.b).cols))
     (fun c o l i j =>
       let a := (c.mat o.a).lane l
       let b := (c.mat o.b).lane l
       (List.range (c.mat o.a).cols).foldl (fun s t => fma32 (a.at' i t) (b.at' t j) s) (((c.mat o.c).lane l).at' i j))) ∧
  ((∀ s c o, IssuesMat s c o → (c.guard o).elected = none →
     ∀ i ∈ [Instr.msete, .mgete, .mshape], exec (i o) s = .next (settleTxns (passed s c o))) ∧
   (∀ s c o l, IssuesMat s c o → (c.guard o).elected = some l →
     let pos := c.scalar o o.b
     let inside (m : MReg) : Prop := pos ≤ 35 ∧ pos / 6 < m.rows ∧ pos % 6 < m.cols
     (¬ inside (c.mat o.d) → exec (.msete o) s = .next (c.trap s 0x08 0x0204 0)) ∧
     (inside (c.mat o.d) → ∃ m, exec (.msete o) s = .next (wroteMat s c o m) ∧
       Written (c.mat o.d) m (c.guard o) (c.mat o.d).rows (c.mat o.d).cols fun l i j =>
         if 6 * i + j = pos then c.f32 o o.a l else ((c.mat o.d).lane l).at' i j) ∧
     (¬ inside (c.mat o.a) → exec (.mgete o) s = .next (c.trap s 0x08 0x0204 0)) ∧
     (inside (c.mat o.a) → ∃ x, exec (.mgete o) s = .next (wrote s c o x) ∧ x.tag = .g ∧
       ∀ l, l < 32 → lane x.val l = if (c.guard o).lane l then mElem (c.mat o.a).elems l pos else lane (oldDest c.r o.d).val l) ∧
     (let rows := c.scalar o o.a
      let cols := c.scalar o o.b
      (rows < 1 ∨ 6 < rows → exec (.mshape o) s = .next (c.trap s 0x08 0x0105 0)) ∧
      (1 ≤ rows ∧ rows ≤ 6 → cols < 1 ∨ 6 < cols → exec (.mshape o) s = .next (c.trap s 0x08 0x0205 0)) ∧
      (1 ≤ rows ∧ rows ≤ 6 → 1 ≤ cols ∧ cols ≤ 6 → ∃ m, exec (.mshape o) s = .next (wroteMat s c o m) ∧
       Written (c.mat o.d) m (c.guard o) rows cols fun l i j => ((c.mat o.d).lane l).at' i j))))

/-- R159 to R164: a factorisation of a matrix that is not square traps; MCHOL, MLUP and MINV write their matrix to D and their status
word to C for the active lanes, MSOLVE takes its permutation from C, MDET writes the determinant. -/
def Obligations.Factorisations : Prop :=
  let factors (i : Ops → Instr) (f : Nat → Nat → Mat → Mat × Nat) : Prop :=
    ∀ s c o, IssuesMat s c { o with c := .none } →
      ((c.mat o.a).rows ≠ (c.mat o.a).cols → exec (i o) s = .next (c.trap s 0x08 0x0103 0)) ∧
      ((c.mat o.a).rows = (c.mat o.a).cols → ∃ m x,
        exec (i o) s = .next (c.put s (c.g.setM (Opnd.num o.d) m) ((writeDest c.r o.c x).after (opWords o))) ∧ x.tag = .g ∧
        let r (l : Nat) : Mat × Nat := f (c.mat o.a).rows (c.f32 o o.b l) ((c.mat o.a).lane l)
        Written (c.mat o.d) m (c.guard o) (c.mat o.a).rows (c.mat o.a).cols (fun l i j => (r l).1.at' i j % 2 ^ 32) ∧
        ∀ l, l < 32 → lane x.val l = if (c.guard o).lane l then (r l).2 else lane (oldDest c.r o.c).val l)
  let ones : Mat := Mat.build fun i j => if i = j then 0x3F800000 else 0
  factors .mchol (fun n tol a => ((chol a n tol).1, statusWord (chol a n tol).2 identityPerm)) ∧
  factors .mlup (fun n tol a => ((lup a n tol).1, statusWord (lup a n tol).2.2 (lup a n tol).2.1)) ∧
  factors .minv (fun n tol a =>
    (if (lup a n tol).2.2 = none then solve false (lup a n tol).1 ones n n (lup a n tol).2.1 else List.replicate 36 0x7FC00000,
      statusWord (lup a n tol).2.2 (lup a n tol).2.1)) ∧
  MatrixDoes .msolve
    (fun c o =>
      if (c.mat o.a).rows ≠ (c.mat o.a).cols then some (3, 1)
      else if (c.mat o.b).rows = (c.mat o.a).rows then none else some (2, 2))
    (fun c o => ((c.mat o.a).rows, (c.mat o.b).cols))
    (fun c o l i j => (solve (!o.mod.getLsbD 0) ((c.mat o.a).lane l) ((c.mat o.b).lane l) (c.mat o.a).rows (c.mat o.b).cols
      (if o.mod.getLsbD 0 then permOf (lane (c.read o none o.c).val l) else identityPerm)).at' i j % 2 ^ 32) ∧
  (∀ s c o, Issues s c o →
    ((c.mat o.a).rows ≠ (c.mat o.a).cols → exec (.mdet o) s = .next (c.trap s 0x08 0x0103 0)) ∧
    ((c.mat o.a).rows = (c.mat o.a).cols → ∃ x, exec (.mdet o) s = .next (wrote s c o x) ∧ x.tag = .g ∧ ∀ l, l < 32 →
      lane x.val l = if (c.guard o).lane l then det ((c.mat o.a).lane l) (c.mat o.a).rows % 2 ^ 64 else lane (oldDest c.r o.d).val l))

/-- R160: the factor and the failing pivot of MCHOL, column by column. R161: a factor of MLUP in which no pivot fails: its rows are those of
A through the permutation, the multipliers stand below the diagonal, and no pivot is a NaN or at most the tolerance. R162: each column of a
solution satisfies the forward and the backward recurrence. -/
def Obligations.FactorsExact : Prop :=
  (∀ a n tol, n ≤ 6 →
     let l := (chol a n tol).1
     let fail := (chol a n tol).2
     let good := fail.getD n
     let s (j : Nat) : Nat := subDot (l.at' j) (l.at' j) j (a.read.at' j j)
     good ≤ n ∧
     (∀ j, j < good → gt32 (s j) tol = true ∧ l.at' j j = sqrt32 (s j) ∧
       ∀ i, j < i → i < n → l.at' i j = div32 (subDot (l.at' i) (l.at' j) j (a.read.at' i j)) (l.at' j j)) ∧
     (∀ p, fail = some p → p < n ∧ gt32 (s p) tol = false ∧ l.at' p p = s p) ∧
     (∀ i j, i < 6 → j < 6 → (i < j ∨ good < j ∨ n ≤ i ∨ (good = j ∧ i ≠ j)) → l.at' i j = 0)) ∧
  (∀ a n tol, a.length = 36 → n ≤ 6 → (lup a n tol).2.2 = none →
     let w := (lup a n tol).1
     let perm := (lup a n tol).2.1
     perm.length = 6 ∧ (∀ r, r < 6 → r ∈ perm) ∧
     (∀ j, j < n → luFails tol (w.at' j j) = false) ∧
     (∀ i j, i < n → j < n → w.at' i j =
       let u := subDot (w.at' i) (fun t => w.at' t j) (min i j) (a.read.at' (perm.getD i 0) j)
       if j < i then div32 u (w.at' j j) else u)) ∧
  (∀ chol a b n q perm, n ≤ 6 → q ≤ 6 → ∀ k, k < q → ∃ y : Nat → Nat,
     (∀ i, i < n → y i =
       let v := subDot (a.at' i) y i (if perm.getD i 0 < n then b.at' (perm.getD i 0) k else 0)
       if chol then div32 v (a.at' i i) else v) ∧
     (∀ i, i < n → (solve chol a b n q perm).at' i k =
       div32 ((List.range (n - 1 - i)).foldl (fun s u =>
         fma32 (neg32 (if chol then a.at' (i + 1 + u) i else a.at' i (i + 1 + u))) ((solve chol a b n q perm).at' (i + 1 + u) k) s) (y i))
         (a.at' i i)))

/-! ### Major 0x0E, MLD and MST, and the function table -/

/-- R155, R172, R173: LD, LDS and MLD whose elements pass the checks of R170 make one access for the elements found and set their
destinations empty; they go on, and nothing else changes but what the translation has changed.
Readings of the model: log entries 6, 11. -/
def Obligations.LoadsIssue : Prop :=
  (∀ s s' c o locs absent, IssuesFrom s c (addressOperands o) →
    c.checks s o.a .rd (elemBytes o.w) (c.elems o) = (.go locs absent, s') → remoteAbort c locs = false → ∃ a,
      IsAccess a s' (.ld (Opnd.num o.d) (some (Opnd.num o.c)) o.w) (itemsOf o.w locs) (absent.map (·.1)) (o.mod.toNat % 4) ∧
      a.unread = absent.map (fun x => (x.1, x.2.1)) ∧
      exec (.ld o) s = .next (settleTxns (c.put s'.fresh.2
        (((c.g.emptyV (Opnd.num o.d)).setP (Opnd.num o.c) { c.g.preg (Opnd.num o.c) with full := false }).with a)
        ((c.r.withdraw (Opnd.num o.d)).after (opWords o))))) ∧
  (∀ s s' c o locs, IssuesFrom s c (addressOperands o) →
    c.checks s o.a .rd (elemBytes o.w) (c.elems o) = (.go locs [], s') → remoteAbort c locs = false → ∃ a,
      IsAccess a s' (.ld (Opnd.num o.d) none o.w) (itemsOf o.w locs) [] (o.mod.toNat % 4) ∧
      exec (.lds o) s = .next (settleTxns (c.put s'.fresh.2 ((c.g.emptyV (Opnd.num o.d)).with a)
        ((c.r.withdraw (Opnd.num o.d)).after (opWords o))))) ∧
  (∀ s s' c o l locs, IssuesFrom s c (addressOperands o ++ [o.c, o.d]) → (c.guard o).elected = some l →
    c.scalar o o.c % (o.w / 8) = 0 →
    c.checks s o.a .rd (o.w / 8) (c.matElems o o.a (c.mat o.d) (c.scalar o o.c) (o.w / 8)) = (.go locs [], s') →
    remoteAbort c locs = false → ∃ a,
      IsAccess a s' (.mld (Opnd.num o.d) o.fmt)
        (matItems o locs) [] 0 ∧
      exec (.mld o) s = .next (settleTxns (c.put s'.fresh.2
        ((c.g.setM (Opnd.num o.d) { c.mat o.d with full := false }).with a) (c.r.after (opWords o)))))

/-- R155, R170, R173, R174: an element that fails the alignment pass traps with DETAIL 0 and one that fails the access pass with its
detail, both with the element's address; a stride that is no multiple of the element's size traps with DETAIL 1; and an absent page
discards the group, which waits for its pages, but for LD, which goes on with the absent elements named in its access. R181, R192: so do
atomics, ACAS once its D is full; one other than AADD, AXCH and ACAS on host memory raises the access fault with DETAIL 5, and an atomic
inside a transaction aborts it with cause 5.
Readings of the model: log entry 11. -/
def Obligations.AccessTraps : Prop :=
  let traps (i : Ops → Instr) (srcs : Ops → List Opnd) (x : Ops → Opnd) (need : Need) (size : Ops → Nat) (es : Ctx → Ops → List Elem)
      (may : Ctx → Ops → Prop) : Prop :=
    ∀ s s' c o, IssuesFrom s c (srcs o) → c.r.stage = 0 → loadsPerformed c.g = true → may c o →
      (∀ ea, c.checks s (x o) need (size o) (es c o) = (.misaligned ea, s') →
        exec (i o) s = .next (settleTxns (c.trap s' 0x07 0 (BitVec.ofNat 64 ea)))) ∧
      (∀ d ea, c.checks s (x o) need (size o) (es c o) = (.access d ea, s') →
        exec (i o) s = .next (settleTxns (c.trap s' 0x06 d (BitVec.ofNat 64 ea)))) ∧
      (∀ locs p ps, (∀ y, i o ≠ .ld y) → c.checks s (x o) need (size o) (es c o) = (.go locs (p :: ps), s') →
        exec (i o) s = .next (settleTxns (residencyFault s' c.seat need (pagesOf (p :: ps)))))
  traps .ld addressOperands (·.a) .rd (fun o => elemBytes o.w) (fun c o => c.elems o) (fun _ _ => True) ∧
  (∀ s s' c o locs p ps, IssuesFrom s c (addressOperands o) →
    c.checks s o.a .rd (elemBytes o.w) (c.elems o) = (.go locs (p :: ps), s') → remoteAbort c locs = false → ∃ t g a,
      exec (.ld o) s = .next (settleTxns t) ∧ Sparse.find? t.groups c.gid = some g ∧ a ∈ g.accs ∧
      a.use = .ld (Opnd.num o.d) (some (Opnd.num o.c)) o.w ∧ a.absent = p.1 :: ps.map (·.1) ∧
      g.run = some ((c.r.withdraw (Opnd.num o.d)).after (opWords o)) ∧ g.missing = c.g.missing ∧ g.trap = c.g.trap ∧
      (g.vreg (Opnd.num o.d)).full = false ∧ (g.preg (Opnd.num o.c)).full = false) ∧
  traps .lds addressOperands (·.a) .rd (fun o => elemBytes o.w) (fun c o => c.elems o) (fun _ _ => True) ∧
  traps .st (fun o => addressOperands o ++ [o.c]) (·.a) .wr (fun o => elemBytes o.w) (fun c o => c.elems o) (fun _ _ => True) ∧
  traps .mld (fun o => addressOperands o ++ [o.c, o.d]) (·.a) .rd (fun o => o.w / 8)
    (fun c o => c.matElems o o.a (c.mat o.d) (c.scalar o o.c) (o.w / 8))
    (fun c o => (c.guard o).elected ≠ none ∧ c.scalar o o.c % (o.w / 8) = 0) ∧
  traps .mst (fun o => addressOperands o ++ [o.c]) (·.d) .wr (fun o => o.w / 8)
    (fun c o => c.matElems o o.d (c.mat o.a) (c.scalar o o.c) (o.w / 8))
    (fun c o => (c.guard o).elected ≠ none ∧ c.scalar o o.c % (o.w / 8) = 0) ∧
  (∀ s c o l, IssuesFrom s c (addressOperands o ++ [o.c, o.d]) → (c.guard o).elected = some l → c.scalar o o.c % (o.w / 8) ≠ 0 →
    exec (.mld o) s = .next (settleTxns (c.trap s 0x07 1
      (BitVec.ofNat 64 ((vbaseOf (c.base o.a) + lane (c.read o none o.b).val l) % 2 ^ 64))))) ∧
  ((∀ i ∈ [(Instr.aadd, true), (.axch, true), (.acas, true), (.amin, false), (.amax, false), (.aand, false), (.aor, false), (.axor, false),
       (.afadd, false), (.scadd, false)], ∀ s s' c o, IssuesFrom s c (addressOperands o ++ [o.c]) → loadsPerformed c.g = true →
     ((c.g.vreg (Opnd.num o.d)).full = true ∨ i.1 o ≠ .acas o) →
     (c.g.txn ≠ none → exec (i.1 o) s = .next (settleTxns (abortTxn s c.gid 5))) ∧
     (c.g.txn = none →
       (∀ ea, c.atomicChecks s o i.2 = (.misaligned ea, s') → exec (i.1 o) s = .next (settleTxns (c.trap s' 0x07 0 (BitVec.ofNat 64 ea)))) ∧
       (∀ d ea, c.atomicChecks s o i.2 = (.access d ea, s') → exec (i.1 o) s = .next (settleTxns (c.trap s' 0x06 d (BitVec.ofNat 64 ea)))) ∧
       (∀ locs p ps, c.atomicChecks s o i.2 = (.go locs (p :: ps), s') →
         exec (i.1 o) s = .next (settleTxns (residencyFault s' c.seat .atomic (pagesOf (p :: ps))))))) ∧
   (∀ pa, hostRefuses true (.mem pa) = false ∧ (hostRefuses false (.mem pa) = true ↔ 2 ^ 48 ≤ pa ∧ pa < 2 ^ 49)) ∧
   (∀ s u x need align bad e l, e.ea % align = 0 → (resolve s u x e.off e.ea need).1 = .ok l → bad l = true →
     (check s u x need align bad [e]).1 = .access 5 e.ea))

/-- R155, R172: the data of a load arrive: an element found takes its value, one on an absent page 0 and a clear predicate bit, every
other element keeps its value, and the destinations are full.
Readings of the model: log entries 7, 91, 99. -/
def Obligations.LoadsArrive : Prop :=
  (∀ s gid g acc a d p w, Sparse.find? s.groups gid = some g → arrivalReady s g acc = some a → a.use = .ld d p w → g.retired = false →
    a.poison = none → a.cancelled = false → stillPending { g with accs := g.accs.filter fun b => b.id != acc } a = false →
    (w = 4 ∨ w = 8 ∨ w = 16 ∨ w = 32 ∨ w = 64) → ∃ g', exec (.loadDataArrival gid acc) s = .next (s.putGroup gid g') ∧
      g'.accs = g.accs.filter (fun b => b.id != acc) ∧ (g'.vreg d).full = true ∧ (g'.vreg d).tag = .g ∧
      (∀ e, e < elemCount w → elem (g'.vreg d).val w e = match a.value e with
        | some x => x % 2 ^ w
        | none => if a.absent.contains e then 0 else elem (g.vreg d).val w e) ∧
      (∀ n, n ≠ d → g'.vreg n = g.vreg n) ∧ g'.m = g.m ∧ g'.x = g.x ∧ g'.fifo = g.fifo ∧ g'.run = g.run ∧
      (p = none → g'.p = g.p) ∧
      (∀ n, p = some n → (g'.preg n).full = true ∧ (∀ k, k ≠ n → g'.preg k = g.preg k) ∧ (w ≠ 4 → ∀ i, i < 256 →
        (g'.preg n).val.getLsbD i =
          if (a.value (8 * i / w)).isSome then true
          else if a.absent.contains (8 * i / w) then false else (g.preg n).val.getLsbD i))) ∧
  (∀ s gid g acc a m f, Sparse.find? s.groups gid = some g → arrivalReady s g acc = some a → a.use = .mld m f → g.retired = false →
    a.poison = none → ∃ g', exec (.mldArrival gid acc) s = .next (s.putGroup gid g') ∧
      g'.accs = g.accs.filter (fun b => b.id != acc) ∧ (g'.mreg m).full = true ∧ (g'.mreg m).rows = (g.mreg m).rows ∧
      (g'.mreg m).cols = (g.mreg m).cols ∧ (∀ l q, l < 32 → q < 36 → mElem (g'.mreg m).elems l q = match a.value (36 * l + q) with
        | some x => f32Fmt.ofValue 0 (valOf f x)
        | none => mElem (g.mreg m).elems l q) ∧
      (∀ n, n ≠ m → g'.mreg n = g.mreg n) ∧ g'.v = g.v ∧ g'.p = g.p ∧ g'.x = g.x)

/-- R155, R174, R261, R295: ST and MST that pass the checks append their lines to the group's FIFO and go on when there is room for them;
inside a transaction ST adds them to the write set, and every memory and every other register stays. R174, R260: the lines of a store
hold, over whatever they are laid, the value of the last piece that covers a place; places that no piece covers keep what they held, and
the lines stand in ascending order.
Readings of the model: log entries 11, 99. -/
def Obligations.StoresIssue : Prop :=
  ((∀ s s' c o locs, IssuesFrom s c (addressOperands o ++ [o.c]) → c.r.stage = 0 → loadsPerformed c.g = true → c.g.txn = none →
     c.checks s o.a .wr (elemBytes o.w) (c.elems o) = (.go locs [], s') →
     roomFor s' c.gid c.g (storesOf (o.mod.toNat % 4) (c.pieces o locs)).length →
     exec (.st o) s = .next (settleTxns (s'.modGroup c.gid fun g =>
       { g with fifo := g.fifo ++ storesOf (o.mod.toNat % 4) (c.pieces o locs), run := some (c.r.after (opWords o)) })) ∧
       s'.groups = s.groups ∧ s'.pads = s.pads ∧ (SlicesCoherent s → ∀ l, homeLine s' (128 * l) = homeLine s (128 * l))) ∧
   (∀ s s' c o t locs, IssuesFrom s c (addressOperands o ++ [o.c]) → c.r.stage = 0 → loadsPerformed c.g = true → c.g.txn = some t →
     c.checks s o.a .wr (elemBytes o.w) (c.elems o) = (.go locs [], s') →
     let xs := storesOf (o.mod.toNat % 4) (c.pieces o locs)
     (∀ x ∈ xs, isPad x.line = false ∧ isRemote x.line = false) → (mergeWrites t.writes xs).length ≤ 32 →
     exec (.st o) s = .next (settleTxns (c.put s' { c.g with txn := some { t with writes := mergeWrites t.writes xs } }
       (c.r.after (opWords o))))) ∧
   (∀ s s' c o l f locs, IssuesFrom s c (addressOperands o ++ [o.c]) → c.r.stage = 0 → loadsPerformed c.g = true → c.g.txn = none →
     (c.guard o).elected = some l → c.scalar o o.c % (o.w / 8) = 0 → floatFmt o.fmt = some f →
     c.checks s o.d .wr (o.w / 8) (c.matElems o o.d (c.mat o.a) (c.scalar o o.c) (o.w / 8)) = (.go locs [], s') →
     let ps := c.matPieces o f locs
     roomFor s' c.gid c.g (storesOf 0 ps).length →
     exec (.mst o) s = .next (settleTxns (s'.modGroup c.gid fun g =>
       { g with fifo := g.fifo ++ storesOf 0 ps, run := some (c.r.after (opWords o)) })))) ∧
  ((∀ policy ps p qs d, p.nib = none → p.loc.place + p.size ≤ 128 →
     (∀ q ∈ qs, q.loc.base ≠ p.loc.base ∨ q.mask &&& p.mask = 0) →
     lineBytes (overlay d p.loc.base (storesOf policy (ps ++ p :: qs))) p.loc.place p.size = p.val % 2 ^ (8 * p.size)) ∧
   (∀ policy ps l d k n, k + n ≤ 128 → (∀ q ∈ ps, q.loc.base = l → q.mask &&& byteMask k n = 0) →
     lineBytes (overlay d l (storesOf policy ps)) k n = lineBytes d k n) ∧
   (∀ policy ps, (storesOf policy ps).Pairwise fun x y => x.line ≠ y.line ∧ x.line.key ≤ y.line.key))

/-- R175, R176, R177: LTR caches the translation of a resident address with its permissions and the bytes left on the page, and makes the
register invalid, its VBASE the address, for every other address; PGREQ commits and waits for the pages that are absent; PREF changes no
memory and no register. R315: each stands in place while a walk waits. R317: PAGE_REQUEST_RETRY raises a request kept for a retry once
the merge table has room. -/
def Obligations.TranslationAndPages : Prop :=
  (∀ s s' c o l f z p, IssuesFrom s c (addressOperands o) → (c.guard o).elected = some l →
    let base := c.scalar o o.a
    base < 2 ^ 56 → inPadWindow base = false → translate s c.core c.st.part c.la.asn base = (.resident f z p, s') →
    exec (.ltr o) s = .next (settleTxns (c.put s' (c.g.setX (Opnd.num o.d)
      { vbase := BitVec.ofNat 64 base, pbase := BitVec.ofNat 52 (f + base % pageBytes z), valid := true, rd := p.rd, wr := p.wr,
        atomic := p.atomic, limit := BitVec.ofNat 32 (pageBytes z - base % pageBytes z) }) (c.r.after (opWords o))))) ∧
  (∀ s c o l, IssuesFrom s c (addressOperands o) → (c.guard o).elected = some l →
    let base := c.scalar o o.a
    let left (s : State) : State :=
      c.put s (c.g.setX (Opnd.num o.d) { XReg.launch with vbase := BitVec.ofNat 64 base }) (c.r.after (opWords o))
    (2 ^ 56 ≤ base ∨ inPadWindow base = true → exec (.ltr o) s = .next (settleTxns (left s))) ∧
    (base < 2 ^ 56 → inPadWindow base = false → ∀ r s', translate s c.core c.st.part c.la.asn base = (r, s') →
      (r = .held → exec (.ltr o) s = .next (settleTxns s')) ∧
      (r ≠ .held → (∀ f z p, r ≠ .resident f z p) → exec (.ltr o) s = .next (settleTxns (left s'))))) ∧
  (∀ s c o, IssuesFrom s c [.reg (.p o.pred)] → (c.guard o).elected = none → exec (.ltr o) s = .next (settleTxns (passed s c o))) ∧
  (∀ s s' c o locs absent, IssuesFrom s c (addressOperands o ++ [o.c]) → loadsPerformed c.g = true → c.g.txn = none →
    c.checks s o.a .rd (elemBytes o.w) ((c.elems o).filter fun e => !(readPred c.g o.c).getLsbD (predIndex o.w e.idx)) =
      (.go locs absent, s') →
    let ps := distinctPages (pagesOf absent)
    let t := waitOnPages s' c.seat ps
    exec (.pgreq o) s = .next (settleTxns ((requestPages t c.seat .rd (ps.filter (pageCounted t c.seat))).modGroup c.gid fun g =>
      { g with run := some { c.r.after (opWords o) with
        committed := true, waits := if g.missing ≤ c.g.missing then c.r.waits else c.r.waits ++ [.pages] } }))) ∧
  (∀ s s' c o lines, IssuesFrom s c (addressOperands o) → prefLines s c o = (lines, s') →
    (lines = none → exec (.pref o) s = .next (settleTxns s')) ∧
    (lines ≠ none → ∃ t, exec (.pref o) s = .next (settleTxns (c.put t c.g (c.r.after (opWords o)))) ∧
      t.groups = s.groups ∧ t.pads = s.pads ∧ (SlicesCoherent s → ∀ l, homeLine t (128 * l) = homeLine s (128 * l)))) ∧
  (∀ s k q, s.retries[k]? = some q → s.merge.length < 4096 →
    exec (.pageRequestRetry k) s = .next (requestPage { s with retries := s.retries.eraseIdx k } q))

/-- R137 to R140: FLUT interpolates in the bank to which its run is bound, a NaN giving NaN; TBLSW names the bank
that is current after the run; TBLLD loads the bank that is not current, unless another run is bound to it, and its words enter the bank.
Readings of the model: log entries 14, 95. -/
def Obligations.FunctionTable : Prop :=
  (∀ s c o f, Issues s c o → tablePending s c = false → floatFmt o.fmt = some f → ∃ x, exec (.flut o) s = .next (wrote s c o x) ∧
    x.tag = tagOf (c.whole o o.w) [c.tagA o, (c.read o none o.b).tag, c.tagC o] ∧ ∀ e, e < elemCount o.w → elem x.val o.w e =
      if (c.guard o).active o.w e then
        let d := lane (c.read o none o.b).val (laneOf o.w e)
        interpolate ((s.core c.core).entry c.r.bank) f (opRound o) (c.el o o.a e) (c.el o o.c e) (bits d 42 10) (bits d 32 10) (bits d 0 32)
      else elem (oldDest c.r o.d).val o.w e) ∧
  (∀ tab f rm a x0 segs base scale, f.val a = .nan ∨ f.val x0 = .nan → interpolate tab f rm a x0 segs base scale = f.nan) ∧
  (∀ s c o l, Issues s c o → (c.guard o).elected = some l →
    exec (.tblsw o) s = .next (c.put s c.g ({ c.r with tblsw := some ((c.scalar o o.a).testBit 0) }.after (opWords o)))) ∧
  (∀ s c o l, IssuesFrom s c (addressOperands o ++ [o.c]) → (c.guard o).elected = some l →
    bankInUse s c.core c.gid (!(s.core c.core).cur) = true → exec (.tblld o) s = .next (settleTxns s)) ∧
  (∀ s s' c o l locs, IssuesFrom s c (addressOperands o ++ [o.c]) → (c.guard o).elected = some l →
    bankInUse s c.core c.gid (!(s.core c.core).cur) = false →
    let desc := c.scalar o o.c
    let n := min (bits desc 10 11) 1024
    n ≠ 0 → c.checks s o.a .rd 4 (c.tableElems o n) = (.go locs [], s') → remoteAbort c locs = false → ∃ a,
      IsAccess a s' (.table s'.nextId) (tableItems n locs) [] 0 ∧
      exec (.tblld o) s = .next (settleTxns (((s'.fresh.2.modGroup c.gid (·.with a)).setCore c.core
        { s'.core c.core with tables := (s'.core c.core).tables ++ [TableLoad.mk s'.nextId c.gid (!(s.core c.core).cur) (bits desc 0 10) n n] }).modGroup
          c.gid fun g => { g with run := some { c.r.after (opWords o) with issuedTables := c.r.issuedTables ++ [s'.nextId] } }))) ∧
  (∀ s core id t g a, (s.core core).tables.find? (fun x => x.id == id) = some t → Sparse.find? s.groups t.gid = some g →
    (∀ x ∈ (s.core core).tables.takeWhile fun x => x.id != id, x.bank ≠ t.bank) → arrivalReady s g id = some a → a.poison = none →
    t.limit ≤ 1024 → ∃ c', exec (.tblldEntriesWritten core id) s =
        .next ((s.putGroup t.gid { g with accs := g.accs.filter fun b => b.id != id }).setCore core c') ∧
      c'.tables = (s.core core).tables.filter (fun x => x.id != id) ∧ c'.cur = (s.core core).cur ∧
      (∀ i, c'.entry (!t.bank) i = (s.core core).entry (!t.bank) i) ∧
      (∀ i, i < 1024 → c'.entry t.bank ((t.first + i) % 1024) =
        if i < t.limit then (a.value i).getD 0 % 2 ^ 32 else (s.core core).entry t.bank ((t.first + i) % 1024)))

/-! ### Majors 0x0F to 0x11 -/

/-- R178 to R182: an atomic that passes its checks and, under .rel and .ar, whose release is complete, commits: each element is queued
for its home with the old value of D to compare, D becomes empty, and under .acq and .ar the slot waits for the return. SCADD queues one
sum for each place and returns nothing.
Readings of the model: log entry 101. -/
def Obligations.AtomicsIssue : Prop :=
  let returns (i : Ops → Instr) (hostOk : Bool) (op : Ops → AtomOp) (may : Ctx → Ops → Prop) : Prop :=
    ∀ s s' c o locs, IssuesFrom s c (addressOperands o ++ [o.c]) → loadsPerformed c.g = true → c.g.txn = none → may c o →
      c.atomicChecks s o hostOk = (.go locs [], s') → (releases o.mod = true → mayRelease s' c (modScope o.mod)) → ∃ a,
        IsAccess a s' (.atomic (Opnd.num o.d) o.w)
          (locs.map fun (e, _, l) => { idx := e, loc := l, size := o.w / 8, nib := none }) [] 1 ∧
        exec (i o) s = .next (settleTxns (c.put
          (queueAtoms s'.fresh.2 (locs.map fun (e, _, l) n =>
            atomOf c n s'.nextId e l o.w (op o) (c.el o o.c e) (elem (c.g.vreg (Opnd.num o.d)).val o.w e)))
          ((c.g.emptyV (Opnd.num o.d)).with a)
          { (c.r.withdraw (Opnd.num o.d)).committedAfter (opWords o) with
            waits := if acquires o.mod then c.r.waits ++ [.returns s'.nextId (some (modScope o.mod))] else c.r.waits }))
  let any : Ctx → Ops → Prop := fun _ _ => True
  returns .aadd true (fun _ => .add) any ∧ returns .axch true (fun _ => .xch) any ∧
  returns .acas true (fun _ => .cas) (fun c o => (c.g.vreg (Opnd.num o.d)).full = true) ∧
  returns .amin false (fun o => .min (opSigned o || o.fmt == .b64)) any ∧ returns .amax false (fun o => .max (opSigned o || o.fmt == .b64)) any ∧
  returns .aand false (fun _ => .and) any ∧ returns .aor false (fun _ => .or) any ∧ returns .axor false (fun _ => .xor) any ∧
  returns .afadd false (fun o => .fadd o.fmt) any ∧
  (∀ s s' c o locs, IssuesFrom s c (addressOperands o ++ [o.c]) → loadsPerformed c.g = true → c.g.txn = none →
    c.atomicChecks s o false = (.go locs [], s') → (releases o.mod = true → mayRelease s' c (modScope o.mod)) →
    let sums := combine (scAdd o.fmt) (locs.map fun (e, _, l) => (e, c.el o o.c e, l)) []
    ∃ a, IsAccess a s' .none (sums.map fun (e, l, _) => { idx := e, loc := l, size := o.w / 8, nib := none }) [] 1 ∧
      exec (.scadd o) s = .next (settleTxns (c.put
        (queueAtoms s'.fresh.2 (sums.map fun (e, l, v) n =>
          atomOf c n s'.nextId e l o.w (if (floatFmt o.fmt).isSome then .fadd o.fmt else .add) v 0))
        (c.g.with a) (c.r.committedAfter (opWords o)))))

/-- R178, R179, R268: an atomic at its home reads the old value and writes the new one in one step, nothing else in memory changes, and
the old value goes to its access; the values returned reach the active elements of D.
Readings of the model: log entry 71. -/
def Obligations.AtomicsPerform : Prop :=
  (∀ s id a pa, s.atoms.find? (fun b => b.id == id) = some a →
    (∀ g, a.gid = some g → (s.atoms.find? fun b => b.gid == some g) = some a) → atomBlocked s a = false → a.loc = .mem pa →
    regionOf pa = .hbm → homePoisoned s a.loc = false → a.node ≠ 1 → SlicesCoherent s → pa % 128 + a.width / 8 ≤ 128 → ∃ t,
      exec (.atomicPerform id) s = .next (settleTxns t) ∧ t.atoms = s.atoms.filter (fun b => b.id != id) ∧ t.pads = s.pads ∧
      readHome t a.loc (a.width / 8) =
        a.op.new a.width (readHome s a.loc (a.width / 8)) a.operand a.compare % 2 ^ (8 * (a.width / 8)) ∧
      (∀ l, l ≠ pa / 128 → homeLine t (128 * l) = homeLine s (128 * l)) ∧
      (∀ k, k < 128 → k < pa % 128 ∨ pa % 128 + a.width / 8 ≤ k →
        lineBytes (lineOf t a.loc) k 1 = lineBytes (lineOf s a.loc) k 1) ∧
      (∀ gid g, a.gid = some gid → Sparse.find? t.groups gid = some g → ∀ x ∈ g.accs, x.id = a.acc →
        (a.elem, readHome s a.loc (a.width / 8)) ∈ x.vals)) ∧
  (∀ w old x cmp, 0 < w → old < 2 ^ w → x < 2 ^ w →
    AtomOp.new .add w old x cmp = (old + x) % 2 ^ w ∧ AtomOp.new .xch w old x cmp = x ∧
    AtomOp.new .cas w old x cmp = (if old = cmp then x else old) ∧
    (∀ sg, valueOf w sg (AtomOp.new (.min sg) w old x cmp) = min (valueOf w sg old) (valueOf w sg x) ∧
      valueOf w sg (AtomOp.new (.max sg) w old x cmp) = max (valueOf w sg old) (valueOf w sg x)) ∧
    (∀ i, (AtomOp.new .and w old x cmp).testBit i = (old.testBit i && x.testBit i) ∧
      (AtomOp.new .or w old x cmp).testBit i = (old.testBit i || x.testBit i) ∧
      (AtomOp.new .xor w old x cmp).testBit i = (old.testBit i != x.testBit i))) ∧
  (∀ s gid g acc a d w, Sparse.find? s.groups gid = some g → arrivalReady s g acc = some a → a.use = .atomic d w → g.retired = false →
    a.poison = none → a.cancelled = false → stillPending { g with accs := g.accs.filter fun b => b.id != acc } a = false →
    w = 32 ∨ w = 64 → ∃ g', exec (.atomicReturn gid acc) s = .next (s.putGroup gid g') ∧
      g'.accs = g.accs.filter (fun b => b.id != acc) ∧ (g'.vreg d).full = true ∧ (g'.vreg d).tag = .g ∧
      (∀ e, e < elemCount w → elem (g'.vreg d).val w e = match a.value e with | some x => x % 2 ^ w | none => elem (g.vreg d).val w e) ∧
      (∀ n, n ≠ d → g'.vreg n = g.vreg n) ∧ g'.p = g.p ∧ g'.m = g.m ∧ g'.x = g.x ∧ g'.run = g.run)

/-- R16, R185, R186, R267: a fence waits for the group's loads and, unless it is .acq, for its release; .acq, .ar and .sc end with the
acquire of the scope, and .sc enters the order of its scope. RFENCE drops the record copies of the cores that its scope reaches.
Readings of the model: log entries 69, 140. -/
def Obligations.Fences : Prop :=
  (∀ s c o, IssuesFrom s c [.reg (.p o.pred)] → (c.guard o).elected = none →
    exec (.fence o) s = .next (settleTxns (passed s c o)) ∧ exec (.rfence o) s = .next (settleTxns (passed s c o))) ∧
  (∀ s c o l, IssuesFrom s c [.reg (.p o.pred)] → (c.guard o).elected = some l →
    (loadsPerformed c.g = false → exec (.fence o) s = .next (settleTxns s) ∧ exec (.rfence o) s = .next (settleTxns s)) ∧
    (loadsPerformed c.g = true →
      (c.g.txn ≠ none → Scope.wide (opScope o) = true → exec (.fence o) s = .next (settleTxns (abortTxn s c.gid 9))) ∧
      (c.g.txn = none ∨ Scope.wide (opScope o) = false →
        (o.mod.toNat % 4 = 0 → exec (.fence o) s = .next (settleTxns (passed (acquire s c.core (opScope o)) c o))) ∧
        (o.mod.toNat % 4 ≠ 0 → releaseDone s c.gid (opScope o) = false → exec (.fence o) s = .next (settleTxns s)) ∧
        (mayRelease s c (opScope o) →
          (o.mod.toNat % 4 = 1 → exec (.fence o) s = .next (settleTxns (passed s c o))) ∧
          (o.mod.toNat % 4 = 2 → exec (.fence o) s = .next (settleTxns (passed (acquire s c.core (opScope o)) c o))) ∧
          (o.mod.toNat % 4 = 3 → exec (.fence o) s = .next (settleTxns (passed (acquire
            { s with scOrder := s.scOrder ++ [(scopeInstance c.core (opScope o), c.gid)] } c.core (opScope o)) c o))))) ∧
      (c.g.txn = none → mayRelease s c (opScope o) → ∃ t, exec (.rfence o) s = .next (settleTxns (passed t c o)) ∧
        t.groups = s.groups ∧ t.hbm = s.hbm ∧ t.pads = s.pads ∧
        ((s.cores.Pairwise fun x y => x.1 < y.1) → ∀ k,
          (t.core k).records = (if recordReach c.core (opScope o) k then [] else (s.core k).records) ∧
          (t.core k).fills = if recordReach c.core (opScope o) k then [] else (s.core k).fills)))) ∧
  (∀ s core sc, sc = .clus ∨ sc = .die ∨ sc = .dev ∨ sc = .sys → ∀ line d t e n,
    Sparse.find? ((acquire s core sc).core core).l1 line ≠ some (.valid d t e n))

/-- R187, R188: RWR sends the active lanes of its source to the group that the handle names; a deposit that finds its group writes its
lanes of the register, sets it full and counts it, and one that finds none is dropped and counted.
Readings of the model: log entry 7. -/
def Obligations.RemoteWrites : Prop :=
  (∀ s c o l, IssuesFrom s c (addressOperands o) → loadsPerformed c.g = true → c.g.txn = none → (c.guard o).elected = some l →
    (releases o.mod = true → releaseDone s c.gid .clus = true) → ∃ d : Deposit,
      exec (.rwr o) s = .next (settleTxns (committed { s with nextId := s.nextId + 1, deposits := s.deposits ++ [d] } c o)) ∧
      d.id = s.nextId ∧ d.srcCore = c.core ∧ d.srcGroup = c.gid ∧ d.reg = Opnd.num o.d ∧ d.val = (c.read o none o.a).val ∧
      d.tag = (c.read o none o.a).tag ∧ (∀ k, k < 32 → d.mask.getLsbD k = (c.guard o).lane k) ∧
      (let h := c.scalar o o.b
       d.target = if bits h 32 32 = 0 then
         some ((clusterOf c.core * 4 + bits h 6 2) * 64 + bits h 0 6, BitVec.ofNat 24 (bits h 8 24)) else none)) ∧
  (∀ s id d gid, s.deposits.find? (fun x => x.id == id) = some d →
    (∀ x ∈ s.deposits.takeWhile fun x => x.id != id, x.srcGroup ≠ d.srcGroup ∨ x.target ≠ d.target) →
    depositTarget { s with deposits := s.deposits.filter fun x => x.id != id } d = some gid → ∃ t g g',
      exec (.rwrDelivery id) s = .next t ∧ Sparse.find? s.groups gid = some g ∧ Sparse.find? t.groups gid = some g' ∧
      t.deposits = s.deposits.filter (fun x => x.id != id) ∧ (g'.vreg d.reg).full = true ∧
      (g'.vreg d.reg).tag = (if d.mask = BitVec.allOnes 32 then d.tag else .g) ∧
      (∀ l, l < 32 → lane (g'.vreg d.reg).val l = if d.mask.getLsbD l then lane d.val l else lane (g.vreg d.reg).val l) ∧
      g'.trap.arrive = g.trap.arrive + 1 ∧ (∀ n, n ≠ d.reg → g'.vreg n = g.vreg n) ∧ g'.p = g.p ∧ g'.m = g.m ∧ g'.x = g.x ∧
      t.hbm = s.hbm ∧ t.pads = s.pads) ∧
  (∀ s id d, s.deposits.find? (fun x => x.id == id) = some d →
    (∀ x ∈ s.deposits.takeWhile fun x => x.id != id, x.srcGroup ≠ d.srcGroup ∨ x.target ≠ d.target) →
    depositTarget { s with deposits := s.deposits.filter fun x => x.id != id } d = none → ∃ t,
      exec (.rwrDelivery id) s = .next t ∧ (t.core d.srcCore).rwrdrop = (s.core d.srcCore).rwrdrop + 1 ∧ t.groups = s.groups)

/-- R189, R190: WAITC, its word resident, lets the slot wait at its next head; a read of the word at its home ends the wait with the
acquire when the comparison, signed, holds, and leaves it otherwise; a word at the host or a linked device is read by a message; CNTADD
commits, its release first under .rel, and its addend goes to the word's home.
Readings of the model: log entry 70. -/
def Obligations.WordsComplete : Prop :=
  (∀ s s' c o l loc ea, IssuesFrom s c (addressOperands o ++ [o.c]) → loadsPerformed c.g = true → c.g.txn = none →
    (c.guard o).elected = some l → c.wordChecks s o .rd = (.go [(0, ea, loc)] [], s') →
    exec (.waitc o) s = .next (settleTxns (s'.modGroup c.gid fun g => { g with run := some { c.r.after (opWords o) with
      waits := c.r.waits ++ [.word (some loc) (o.mod.toNat % 4) (BitVec.ofNat 64 (c.scalar o o.c)) (modScope o.mod) (BitVec.ofNat 64 ea)
        c.origin none] } }))) ∧
  (∀ s s' c o l loc ea, IssuesFrom s c (addressOperands o ++ [o.c]) → loadsPerformed c.g = true → c.g.txn = none →
    (c.guard o).elected = some l → c.wordChecks s o .atomic = (.go [(0, ea, loc)] [], s') →
    (releases o.mod = true → mayRelease s' c (modScope o.mod)) →
    exec (.cntadd o) s = .next (settleTxns (c.put
      (queueAtoms s'.fresh.2 [fun n => { atomOf c n s'.nextId 0 loc 64 .add (c.scalar o o.c) 0 with node := 1 }])
      (c.g.with (newAccess c s'.nextId .none [{ idx := 0, loc := loc, size := 8, nib := none }] [] 1 [(0, BitVec.ofNat 64 ea)]))
      (c.r.committedAfter (opWords o))))) ∧
  (∀ s gid g slotB l cc c acq va org req, Sparse.find? s.groups gid = some g →
    (g.slot slotB).wordWait = some (.word (some l) cc c acq va org req) → isRemote l = false → homeBusy s l = false → homePoisoned s l = false →
    ∃ t g', exec (.waitcRead gid slotB) s = .next t ∧ Sparse.find? t.groups gid = some g' ∧
      (waitHolds cc (readHome s l 8) c.toNat = true → (Wait.word (some l) cc c acq va org req) ∉ (g'.slot slotB).waits) ∧
      (waitHolds cc (readHome s l 8) c.toNat = false → (Wait.word (some l) cc c acq va org none) ∈ (g'.slot slotB).waits) ∧
      g'.slot (!slotB) = g.slot (!slotB) ∧ g'.v = g.v ∧ g'.p = g.p ∧ g'.m = g.m) ∧
  (∀ s gid g slotB pa cc c acq va org p, Sparse.find? s.groups gid = some g →
    (g.slot slotB).wordWait = some (.word (some (.mem pa)) cc c acq va org none) → isRemote (.mem pa) = true → portOf s pa = some p →
    ∃ t g', exec (.waitcRead gid slotB) s = .next t ∧ Sparse.find? t.groups gid = some g' ∧
      (Wait.word (some (.mem pa)) cc c acq va org (some s.nextId)) ∈ (g'.slot slotB).waits ∧
      g'.slot (!slotB) = g.slot (!slotB) ∧ g'.v = g.v ∧ g'.p = g.p ∧ g'.m = g.m)

/-- R189, R190: the comparison of WAITC is signed; without an elected lane WAITC only goes on and CNTADD only commits; in a transaction
each aborts it; a misaligned word and one without access trap, and a page that is not resident raises the residency fault of R173.
Readings of the model: log entry 70. -/
def Obligations.CompletionWords : Prop :=
  (∀ cc x y, waitHolds cc x y = match cc with
    | 0 => decide (signedOf 64 x = signedOf 64 y) | 1 => decide (signedOf 64 x ≤ signedOf 64 y) | _ => decide (signedOf 64 y ≤ signedOf 64 x)) ∧
  (∀ s c o, IssuesFrom s c [.reg (.p o.pred)] → (c.guard o).elected = none →
    exec (.waitc o) s = .next (settleTxns (passed s c o)) ∧ exec (.cntadd o) s = .next (settleTxns (committed s c o))) ∧
  (∀ s c o l, IssuesFrom s c (addressOperands o ++ [o.c]) → loadsPerformed c.g = true → c.g.txn ≠ none → (c.guard o).elected = some l →
    exec (.waitc o) s = .next (settleTxns (abortTxn s c.gid 0x09)) ∧ exec (.cntadd o) s = .next (settleTxns (abortTxn s c.gid 0x05))) ∧
  (∀ i ∈ [(Instr.waitc, Need.rd), (.cntadd, .atomic)], ∀ s s' c o l, IssuesFrom s c (addressOperands o ++ [o.c]) → loadsPerformed c.g = true →
    c.g.txn = none → (c.guard o).elected = some l →
    (∀ ea, c.wordChecks s o i.2 = (.misaligned ea, s') →
      exec (i.1 o) s = .next (settleTxns (c.trap s' 0x07 0 (BitVec.ofNat 64 ea)))) ∧
    (∀ d ea, c.wordChecks s o i.2 = (.access d ea, s') →
      exec (i.1 o) s = .next (settleTxns (c.trap s' 0x06 d (BitVec.ofNat 64 ea)))) ∧
    (∀ absent, c.wordChecks s o i.2 = (.go [] absent, s') →
      exec (i.1 o) s = .next (settleTxns (residencyFault s' c.seat i.2 (pagesOf absent)))))

/-- R191 to R194: TXB opens a transaction only as the first instruction of the region head; TXC applies the write set to the homes in
one step and clears the cause; TXA aborts with its code, and an abort drops the write set and discards the group.
Readings of the model: log entries 15, 69. -/
def Obligations.Transactions : Prop :=
  (∀ s c o l, IssuesFrom s c [.reg (.p o.pred)] → (c.guard o).elected = some l →
    let first : Prop := c.r.pos = headWords c.r ∧ c.g.snap.head = c.r.head
    let ones : Group := writePred c.g o.d (BitVec.allOnes 256)
    (c.g.txn ≠ none → exec (.txb o) s = .next (settleTxns (c.put s ones (c.r.after (opWords o))))) ∧
    (c.g.txn = none → ¬ first → exec (.txb o) s = .next (settleTxns (c.put s (writePred c.g o.d 0) (c.r.after (opWords o))))) ∧
    (c.g.txn = none → first → exec (.txb o) s =
      .next (settleTxns (c.put s { ones with txn := some { reads := [], writes := [], flagged := none } } (c.r.after (opWords o)))))) ∧
  (∀ s c o l, IssuesFrom s c [.reg (.p o.pred)] → (c.guard o).elected = some l → loadsPerformed c.g = true → releaseDone s c.gid .dev = true →
    (c.g.txn = none → exec (.txc o) s = .next (settleTxns (committed (acquire s c.core .dev) c o))) ∧
    (∀ t, c.g.txn = some t → (∀ w ∈ t.writes, heldBack s w.line = false) →
      exec (.txc o) s = .next (settleTxns (acquire (t.writes.foldl (fun s w => applyStore s (some c.gid) { w with policy := 1 })
        (c.put s { c.g with txn := none, trap := { c.g.trap with txcause := 0 } } (c.r.committedAfter (opWords o)))) c.core .dev)))) ∧
  (∀ s c o l, IssuesFrom s c [.reg (.p o.pred), o.a] → (c.guard o).elected = some l →
    (c.g.txn = none → exec (.txa o) s = .next (settleTxns (passed s c o))) ∧
    (c.g.txn ≠ none → exec (.txa o) s = .next (settleTxns (abortTxn s c.gid (BitVec.ofNat 8 (0x80 + c.scalar o o.a % 128)))))) ∧
  (∀ s c code, running s = some c → c.g.txn ≠ none → ∃ g, Sparse.find? (abortTxn s c.gid code).groups c.gid = some g ∧ g.txn = none ∧
    g.trap.txcause = code ∧ g.run = none ∧ g.v = c.g.v ∧ g.fifo = c.g.fifo)

/-! ### Majors 0x01 to 0x03 -/

/-- R98, R99: a run head waits until its working set is full, copies it to the buffer, clears the temporaries and binds the current bank;
only RUNR takes the region snapshot.
Readings of the model: log entries 56, 67, 106. -/
def Obligations.RunHeads : Prop :=
  (∀ i ∈ [Instr.run, .runr], ∀ s c h n, running s = some c → n ∈ setOrder h.ws → (c.g.vreg n).full = false → exec (i h) s = .next s) ∧
  (∀ i ∈ [(Instr.run, false), (.runr, true)], ∀ s c h, running s = some c → (∀ n ∈ setOrder h.ws, (c.g.vreg n).full = true) →
    ∃ t g r, exec (i.1 h) s = .next t ∧ Sparse.find? t.groups c.gid = some g ∧ g.run = some r ∧ r.ws = h.ws ∧ r.pos = headWords c.r ∧
      r.words = c.r.words ∧ r.head = c.r.head ∧ r.slotB = c.r.slotB ∧ r.bank = (s.core c.core).cur ∧ r.withdrawn = 0 ∧
      (∀ n ∈ setOrder h.ws, r.copy n = { val := (c.g.vreg n).val, tag := (c.g.vreg n).tag }) ∧ (∀ k, r.temp k = .zero) ∧
      g.v = c.g.v ∧ g.p = c.g.p ∧ g.m = c.g.m ∧ g.x = c.g.x ∧ g.slotA = c.g.slotA ∧ g.slotB = c.g.slotB ∧
      g.snap = if i.2 then ⟨c.r.head, c.g.slotA.st, c.g.slotB.st, c.g.rcv, c.g.dsp, h.livein, c.g.exited, c.g.slotA.waits, c.g.slotB.waits,
        c.g.held⟩ else c.g.snap)

/-- R87 to R90: a slot that stands at a head receives its run when every word of it passes the checks; a word that fails one raises its
trap before anything of the run executes, and a code page that is not resident parks the group.
Readings of the model: log entries 61, 62, 77. -/
def Obligations.RunFetch : Prop :=
  (∀ s gid slotB g st la, groupActs s gid = true → seatOf (wake s gid) gid = some (g, st, la) → g.stands slotB = true →
    (g.slot slotB).run = none → (g.slot slotB).st.pc.toNat % 8 = 0 →
    let pc := (g.slot slotB).st.pc
    let u : Seat := { gid := gid, core := gid / 64, part := st.part, asn := la.asn, units := st.units }
    let f : Fetcher := ⟨false, u.core, u.part, u.asn, pc.toNat, ⟨la.vregs, la.mregs, la.place⟩⟩
    (∀ ws s', f.run (wake s gid) = (.done ws, s') → exec (.runFetch gid slotB) s =
      .next (s'.modGroup gid fun g => g.setSlot slotB { g.slot slotB with run := some { head := pc, words := ws } })) ∧
    (∀ v z s', f.run (wake s gid) = (.stopped (.absent v z), s') → exec (.runFetch gid slotB) s = .next (parkFetch s' u v z)) ∧
    (∀ d s', f.run (wake s gid) = (.stopped (.access d), s') →
      exec (.runFetch gid slotB) s = .next (takeTrap s' gid (fetchCause (g.slot slotB) slotB 0x06 d 0) none)) ∧
    (∀ code detail k w ext s', f.run (wake s gid) = (.trap code detail k w ext, s') → ¬ (code = 1 ∧ detail = 15 ∧ k = 0) →
      exec (.runFetch gid slotB) s =
        .next (takeTrap s' gid ⟨code, detail, pc.toNat + 8 * k, w, if w.getLsbD 57 then ext else 0, 0, slotB⟩ none))) ∧
  (∀ f s ws s', Fetcher.run f s = (.done ws, s') → isHead (ws.getD 0 0) = true ∧ 3 ≤ ws.length ∧ ws.length ≤ 52) ∧
  (∀ f s code detail k w ext s', Fetcher.run f s = (.trap code detail k w ext, s') → code = 0x01 ∨ code = 0x0A)

/-- R28, R101, R102, R104: every trailer that executes normally completes. END, and ENDB and ENDC with no lane taken, go on at the word
after it; ENDB with a lane taken, ENDC with every lane taken and ENDCALL at their target; ENDJ and ENDRET at the value of the elected
lane. ENDC of which some lanes are taken keeps the others at the word after it and gives the taken ones, at the target, to the other slot,
the state of which it pushes to the divergence stack where it is live: a store of the group, which in an open transaction joins the write
set (R25, R192). ENDEXIT takes the lanes that leave out of the slot, and a group
without a live slot retires.
Readings of the model: log entries 7, 78. -/
def Obligations.TrailersComplete : Prop :=
  (∀ s c t, TrailerIssues s c t → ∃ u g, exec (.endFall t) s = .next u ∧ Goes s c t c.r.fall u g) ∧
  (∀ s c t, TrailerIssues s c t → ∃ u g, exec (.endb t) s = .next u ∧
    Goes s c t (if c.taken t = 0 then c.r.fall else c.beyond t.tgt) u g) ∧
  (∀ s c t, TrailerIssues s c t → ∃ u g, exec (.endcall t) s = .next u ∧ Goes s c t (c.beyond t.tgt) u g) ∧
  (∀ s c t, TrailerIssues s c t → c.landing t % 8 = 0 → c.landing t < 2 ^ 56 →
    (∃ u g, exec (.endj t) s = .next u ∧ Goes s c t (BitVec.ofNat 56 (c.landing t)) u g) ∧
    (∃ u g, exec (.endret t) s = .next u ∧ Goes s c t (BitVec.ofNat 56 (c.landing t)) u g)) ∧
  (∀ s c t, TrailerIssues s c t → c.taken t = 0 → ∃ u g, exec (.endc t) s = .next u ∧ Goes s c t c.r.fall u g) ∧
  (∀ s c t, TrailerIssues s c t → c.taken t ≠ 0 → c.taken t = (c.g.slot c.r.slotB).st.mask → ∃ u g, exec (.endc t) s = .next u ∧
    Goes s c t (c.beyond t.tgt) u g) ∧
  (∀ s c t, TrailerIssues s c t → c.taken t ≠ 0 → c.taken t ≠ (c.g.slot c.r.slotB).st.mask →
    ¬ (c.r.fall = c.beyond t.rcv ∧ c.beyond t.tgt = c.beyond t.rcv) → (c.g.slot (!c.r.slotB)).st.live = false →
    ∃ u g, exec (.endc t) s = .next u ∧ Ended s c t u g ∧ g.rcv = c.beyond t.rcv ∧ g.dsp = c.g.dsp ∧
      (g.slot c.r.slotB).st = ⟨c.r.fall, (c.g.slot c.r.slotB).st.mask &&& ~~~c.taken t, true⟩ ∧
      (g.slot (!c.r.slotB)).st = ⟨c.beyond t.tgt, c.taken t, true⟩) ∧
  (∀ s s' c t l, TrailerIssues s c t → c.taken t ≠ 0 → c.taken t ≠ (c.g.slot c.r.slotB).st.mask →
    ¬ (c.r.fall = c.beyond t.rcv ∧ c.beyond t.tgt = c.beyond t.rcv) → (c.g.slot (!c.r.slotB)).st.live = true →
    c.g.dsp.toNat < c.la.divstack → areaLoc s c.gid c.st c.la.asn (32 * c.g.dsp.toNat) = (.ok l, s') → loadsPerformed c.g = true →
    let push := linesOf l (areaAddress s' c.gid c.st (32 * c.g.dsp.toNat)) 32 (c.g.entry (!c.r.slotB)) 0
    (c.g.txn = none ∧ c.g.fifo.length < 16 ∧ queueEntries s' c.core < 256 ∨
      ∃ x, c.g.txn = some x ∧ (∀ y ∈ push, isPad y.line = false ∧ isRemote y.line = false) ∧ (mergeWrites x.writes push).length ≤ 32) →
    ∃ u g, exec (.endc t) s = .next u ∧ Sparse.find? u.groups c.gid = some g ∧ u.issuer = none ∧ g.run = none ∧
      g.rcv = c.beyond t.rcv ∧ g.dsp = c.g.dsp + 1 ∧
      g.fifo = c.g.fifo ++ (if c.g.txn = none then push else []) ∧
      g.txn = c.g.txn.map (fun x => { x with writes := mergeWrites x.writes push }) ∧
      (g.slot c.r.slotB).st = ⟨c.r.fall, (c.g.slot c.r.slotB).st.mask &&& ~~~c.taken t, true⟩ ∧
      (g.slot (!c.r.slotB)).st = ⟨c.beyond t.tgt, c.taken t, true⟩) ∧
  (∀ s c t, TrailerIssues s c t →
    let out : BitVec 32 := if t.pred.val = 0 then (c.g.slot c.r.slotB).st.mask else c.taken t
    let left : BitVec 32 := (c.g.slot c.r.slotB).st.mask &&& ~~~out
    (left ≠ 0 → ∃ u g, exec (.endexit t) s = .next u ∧ Ended s c t u g ∧ g.exited = c.g.exited ||| out ∧
      (g.slot c.r.slotB).st = ⟨c.r.fall, left, true⟩ ∧ (g.slot (!c.r.slotB)).st = (c.g.slot (!c.r.slotB)).st) ∧
    (left = 0 → c.g.dsp = 0 → (c.g.slot (!c.r.slotB)).st.live = true → ∃ u g, exec (.endexit t) s = .next u ∧ Ended s c t u g ∧
      g.exited = c.g.exited ||| out ∧ (g.slot c.r.slotB).st.live = false ∧
      (g.slot (!c.r.slotB)).st = (c.g.slot (!c.r.slotB)).st) ∧
    (left = 0 → c.g.dsp = 0 → (c.g.slot (!c.r.slotB)).st.live = false → ∃ u g, exec (.endexit t) s = .next u ∧
      Sparse.find? u.groups c.gid = some g ∧ u.issuer = none ∧ g.retired = true ∧ g.run = none ∧
      g.slotA.st.live = false ∧ g.slotB.st.live = false))

/-- R25, R26, R102, R103: the divergence stack. ENDC traps on a full stack; an entry holds the other slot's state and the reconvergence PC
in force; slots that wait at the reconvergence PC merge into slot A; a pop gives the entry's PC and those of its lanes that have not
retired to the free slot, and the entry's reconvergence PC comes back into force. A trailer that would publish a live-in register of its
region traps (R31).
Readings of the model: log entries 7, 78, 81. -/
def Obligations.Trailers : Prop :=
  (∀ s c t, IssuesFrom s c [.reg (.p t.pred), t.a] → c.r.tblsw = none → c.taken t ≠ 0 →
    c.taken t ≠ (c.g.slot c.r.slotB).st.mask → (c.g.slot (!c.r.slotB)).st.live = true → c.la.divstack ≤ c.g.dsp.toNat →
    exec (.endc t) s = .next (c.trailTrap s c.r.fall 0x05 0 0)) ∧
  (let mask (c : Ctx) : BitVec 32 := (c.g.slot c.r.slotB).st.mask
   let indirect (c : Ctx) (t : Trail) : Prop := c.landing t % 8 = 0 ∧ c.landing t < 2 ^ 56
   let parts (c : Ctx) (t : Trail) : Prop := c.taken t ≠ 0 ∧ c.taken t ≠ mask c
   let apart (c : Ctx) (t : Trail) : Prop := ¬ (c.r.fall = c.beyond t.rcv ∧ c.beyond t.tgt = c.beyond t.rcv)
   let forms : List ((Trail → Instr) × (Ctx → Trail → BitVec 56) × (Ctx → Trail → Prop)) :=
     [(.endFall, fun c _ => c.r.fall, fun _ _ => True),
      (.endb, fun c t => if c.taken t = 0 then c.r.fall else c.beyond t.tgt, fun _ _ => True),
      (.endc, fun c _ => c.r.fall, fun c t => parts c t → apart c t ∧ (c.g.slot (!c.r.slotB)).st.live = false),
      (.endj, fun c t => BitVec.ofNat 56 (c.landing t), indirect),
      (.endcall, fun c t => c.beyond t.tgt, fun _ _ => True),
      (.endret, fun c t => BitVec.ofNat 56 (c.landing t), indirect),
      (.endexit, fun c _ => c.r.fall, fun c t => mask c &&& ~~~(if t.pred.val = 0 then mask c else c.taken t) = 0 → c.g.dsp = 0)]
   (∀ i ∈ forms, ∀ s c t, IssuesFrom s c [.reg (.p t.pred), t.a] → c.r.tblsw = none → c.r.returning = false →
      (c.g.slot c.r.slotB).st.live = true → ((c.g.slot (!c.r.slotB)).st.live = true → (c.g.slot (!c.r.slotB)).st.pc ≠ c.g.rcv) →
      i.2.2 c t → c.regionWrite t = true → exec (i.1 t) s = .next (c.trailTrap s (i.2.1 c t) 0x04 0 0)) ∧
   (∀ s s' c t l, IssuesFrom s c [.reg (.p t.pred), t.a] → c.r.tblsw = none → c.r.returning = false →
      (c.g.slot c.r.slotB).st.live = true → (c.g.slot (!c.r.slotB)).st.live = true → parts c t → apart c t → c.g.dsp.toNat < c.la.divstack →
      areaLoc s c.gid c.st c.la.asn (32 * c.g.dsp.toNat) = (.ok l, s') → loadsPerformed c.g = true →
      (c.g.txn = none → c.g.fifo.length < 16 ∧ queueEntries s' c.core < 256) → c.regionWrite t = true →
      exec (.endc t) s = .next (c.trailTrap s' c.r.fall 0x04 0 0))) ∧
  (∀ (g : Group) (slotB : Bool), let x := g.entry slotB
    bits x 0 56 = (g.slot slotB).st.pc.toNat ∧ bits x 64 32 = (g.slot slotB).st.mask.toNat ∧ bits x 96 1 = (if slotB then 1 else 0) ∧
    bits x 97 1 = 1 ∧ bits x 128 56 = g.rcv.toNat) ∧
  (∀ g : Group, g.meets = true → g.merge.slotA.st = ⟨g.rcv, g.slotA.st.mask ||| g.slotB.st.mask, true⟩ ∧ g.merge.slotB.st.live = false) ∧
  (∀ (g : Group) (slotB : Bool) (x : Nat),
    let mask : BitVec 32 := BitVec.ofNat 32 (bits x 64 32) &&& ~~~g.exited
    (g.popped slotB x).dsp = g.dsp - 1 ∧
    (bits x 97 1 = 1 → (g.popped slotB x).rcv = BitVec.ofNat 56 (bits x 128 56)) ∧
    (mask ≠ 0 → ((g.popped slotB x).slot slotB).st = ⟨BitVec.ofNat 56 (bits x 0 56), mask, true⟩) ∧
    (mask = 0 → (g.popped slotB x).slot slotB = g.slot slotB) ∧ (g.popped slotB x).slot (!slotB) = g.slot (!slotB))

/-- R16, R105 to R111: the barrier instructions add their arrival and their wait to the run, NOP only goes on, SPAWN makes n groups and
answers ones or makes none and answers zeros, and a retired group whose results are in gives back its place.
Readings of the model: log entries 60, 69. -/
def Obligations.BarriersAndGroups : Prop :=
  (∀ s c o, running s = some c → exec (.nop o) s = .next (passed s c o)) ∧
  (∀ s c o, Issues s c o → (c.guard o).elected = none →
    exec (.bar o) s = .next (passed s c o) ∧ exec (.bara o) s = .next (passed s c o) ∧ exec (.barw o) s = .next (passed s c o)) ∧
  (∀ s c o l, Issues s c o → (c.guard o).elected = some l →
    let arrive : List Nat := c.r.arrivals ++ [o.mod.toNat % 8]
    let wait : List Wait := c.r.waits ++ [.barrier (o.mod.toNat % 8) 0]
    exec (.bar o) s = .next (c.put s c.g { c.r.after (opWords o) with arrivals := arrive, waits := wait }) ∧
    exec (.bara o) s = .next (c.put s c.g { c.r.after (opWords o) with arrivals := arrive }) ∧
    exec (.barw o) s = .next (c.put s c.g { c.r.after (opWords o) with waits := wait })) ∧
  (∀ s c o l, IssuesFrom s c (addressOperands o) → loadsPerformed c.g = true → c.g.txn = none → (c.guard o).elected = some l →
    (s.groups.Pairwise fun x y => x.1 < y.1) →
    let n := c.scalar o o.a
    let live := (c.st.groups.filter fun gid => match Sparse.find? s.groups gid with
      | some g => g.stand == c.g.stand && !g.retired
      | none => false).length
    let fits : Prop := 1 ≤ n ∧ n ≤ 16 ∧ c.scalar o o.b < c.la.entries.length ∧ live + n ≤ 64 ∧
      groupsFit s c.core n c.la.vregs c.la.mregs = true
    let born (s : State) : Sparse Group := s.groups.filter fun e => e.2.unborn == some c.gid && e.2.stand == c.g.stand
    (¬ fits → exec (.spawn o) s = .next (settleTxns (c.put s (setAll c.g o.d false) (c.r.committedAfter (opWords o))))) ∧
    (fits → ∃ t, exec (.spawn o) s = .next (settleTxns t) ∧ (born t).length = (born s).length + n ∧
      Sparse.find? t.groups c.gid = some { setAll c.g o.d true with run := some (c.r.committedAfter (opWords o)) } ∧
      (∀ gid g, gid ≠ c.gid → Sparse.find? s.groups gid = some g → Sparse.find? t.groups gid = some g) ∧
      (∀ gid g, Sparse.find? s.groups gid = none → Sparse.find? t.groups gid = some g →
        g.slotA.st = ⟨c.la.entries.getD (c.scalar o o.b) 0, BitVec.allOnes 32, true⟩ ∧ g.slotB.st.live = false ∧ g.v = [] ∧ g.p = [] ∧
        g.m = [] ∧ g.x = [] ∧ g.wid = c.g.wid ∧ 1 ≤ g.spawnid.toNat ∧ g.spawnid.toNat ≤ n ∧ gid / 64 = c.core))) ∧
  (∀ s gid g, Sparse.find? s.groups gid = some g → g.retired = true → resultsDue s gid g = false → (s.groups.Pairwise fun x y => x.1 < y.1) → ∃ t,
    exec (.groupResourcesReturn gid) s = .next t ∧ Sparse.find? t.groups gid = none ∧
      (∀ k, k ≠ gid → Sparse.find? t.groups k = Sparse.find? s.groups k) ∧ t.hbm = s.hbm ∧ t.pads = s.pads)

/-! ### Major 0x12 -/

/-- R198 to R202, R271, R306: CASTREG commits with the error code in CASTERR and D telling whether it is 0, a new rule having all of its
tiles stale; a cyclic chain traps; CASTDROP removes a rule that no other depends on; CASTQ waits for its answer; RECAST makes a tile
current.
Readings of the model: log entries 63, 68, 72. -/
def Obligations.CastTensors : Prop :=
  (∀ s c o, IssuesFrom s c (addressOperands o) → loadsPerformed c.g = true → c.g.txn = none → (c.guard o).elected = none →
    exec (.castreg o) s = .next (settleTxns (committed s c o)) ∧ exec (.castdrop o) s = .next (settleTxns (committed s c o))) ∧
  (∀ s s' s'' c o l ea loc rs, IssuesFrom s c (addressOperands o) → loadsPerformed c.g = true → c.g.txn = none →
    (c.guard o).elected = some l →
    check s c.seat (c.base o.a) .rd 64 (fun _ => false) [c.address o] = (.go [(0, ea, loc)] [], s') →
    followChain c (c.base o.a) (c.address o).off ea [] 4096 s' = (.ok rs, s'') →
    (∀ u, register s'' c rs = (.cyclic, u) → exec (.castreg o) s = .next (settleTxns (c.trap u 0x09 1 0))) ∧
    (∀ err u, register s'' c rs = (.done err, u) → exec (.castreg o) s = .next (settleTxns (c.put u
      { setAll c.g o.d (err == 0) with casterr := BitVec.ofNat 64 err } (c.r.committedAfter (opWords o))))) ∧
    (∀ u, register s'' c rs = (.done 0, u) → ∃ k, u.casts = s''.casts ++ [k] ∧ k.stale = List.range k.tiles ∧ k.part = c.st.part ∧
      k.asn = c.la.asn ∧ k.addr = (rs.getD 0 (0, [])).1 ∧ ∀ x ∈ s''.casts, s''.casts.length < 4096 → x.rule ≠ k.rule) ∧
    (∀ err u, register s'' c rs = (.done err, u) → err ≠ 0 → err ≤ 5 ∧ u.casts = s''.casts)) ∧
  (∀ s s' c o l ea loc, IssuesFrom s c (addressOperands o) → loadsPerformed c.g = true → c.g.txn = none →
    (c.guard o).elected = some l →
    check s c.seat (c.base o.a) .rd 64 (fun _ => false) [c.address o] = (.go [(0, ea, loc)] [], s') →
    let mine (x : Cast) : Bool := x.part == c.st.part && x.asn == c.la.asn
    ((∀ x ∈ s'.casts, mine x = true → x.addr ≠ ea) →
      exec (.castdrop o) s = .next (settleTxns (c.put s' (setAll c.g o.d false) (c.r.committedAfter (opWords o))))) ∧
    (∀ k, s'.casts.find? (fun x => mine x && x.addr == ea) = some k →
      ((∃ x ∈ s'.casts, mine x = true ∧ x.base = ea) →
        exec (.castdrop o) s = .next (settleTxns (c.put s' (setAll c.g o.d false) (c.r.committedAfter (opWords o))))) ∧
      ((∀ x ∈ s'.casts, mine x = true → x.base ≠ ea) → k.stale = [] →
        exec (.castdrop o) s = .next (settleTxns (c.put { s' with casts := s'.casts.filter fun x => x.rule != k.rule }
          (setAll c.g o.d true) (c.r.committedAfter (opWords o))))))) ∧
  (∀ s s' c o l ea loc, IssuesFrom s c (addressOperands o) → (c.guard o).elected = some l → c.r.stage ≠ 3 →
    check s c.seat (c.base o.a) .rd 64 (fun _ => false) [c.address o] = (.go [(0, ea, loc)] [], s') →
    exec (.castq o) s = .next (settleTxns (c.put s' c.g (c.r.await ea)))) ∧
  (∀ s rule tile k, s.casts.find? (fun x => x.rule == rule) = some k → k.stale.contains tile = true → wanted s (rule, tile) = true →
    tileReady s k tile = true →
    exec (.recast rule tile) s = .next (settleTxns (rebuild s k tile)))

/-- R203: a CMO hands the lines of its range over after its release and its slot waits for them; cleaning and flushing keep what memory
reads, CMOINV alone drops the dirty data of the lines that it covers whole, and the operation ends when no line is left.
Readings of the model: log entry 74. -/
def Obligations.CacheMaintenance : Prop :=
  (∀ i ∈ [(Instr.cmocln, 0), (.cmoinv, 1), (.cmofl, 2)], ∀ s c o l, IssuesFrom s c (addressOperands o ++ [o.c]) →
    (c.guard o).elected = some l →
    (c.scalar o o.c = 0 → exec (i.1 o) s = .next (settleTxns (passed s c o))) ∧
    (c.scalar o o.c ≠ 0 → loadsPerformed c.g = true → c.g.txn = none → mayRelease s c (opScope o) →
      let lo := (c.address o).ea
      let hi := lo + c.scalar o o.c
      (∀ d ea s', rangeLines c (c.base o.a) lo hi ((hi + 4095) / 4096 - lo / 4096) (lo / 4096 * 4096) [] s = (.fails d ea, s') →
        exec (i.1 o) s = .next (settleTxns (c.trap s' 0x06 d (BitVec.ofNat 64 ea)))) ∧
      (∀ ls s', rangeLines c (c.base o.a) lo hi ((hi + 4095) / 4096 - lo / 4096) (lo / 4096 * 4096) [] s = (.lines ls, s') → ∃ w : CmoOp,
        w = ⟨s'.nextId, c.gid, c.st.part, c.la.asn, lo, c.scalar o o.c, c.r.slotB, i.2, Scope.wide (opScope o), ls.map (·.1), (ls.filter (·.2)).map (·.1)⟩ ∧
        exec (i.1 o) s = .next (settleTxns ({ s'.fresh.2 with cmos := s'.cmos ++ [w] }.modGroup c.gid fun g =>
          { g with run := some { c.r.after (opWords o) with waits := c.r.waits ++ [Wait.lines s'.nextId] } }))))) ∧
  (∀ s gid slotB w, s.cmos.find? (fun w => w.gid == gid && w.slotB == slotB) = some w →
    (∀ l ∈ w.left, heldBack s (.mem l) = false ∧ l % 128 = 0) → SlicesCoherent s → ∃ t,
      exec (.cmoLinesDone gid slotB) s = .next t ∧ t.cmos = s.cmos.filter (fun x => x.id != w.id) ∧ t.groups = s.groups ∧
      (w.op ≠ 1 ∨ w.slices = false → ∀ l, homeLine t (128 * l) = homeLine s (128 * l)) ∧
      (w.op = 1 → w.slices = true → ∀ l, (128 * l ∉ w.left ∨ w.whole.contains (128 * l) = false → homeLine t (128 * l) = homeLine s (128 * l)) ∧
        (128 * l ∈ w.left → w.whole.contains (128 * l) = true → homeLine t (128 * l) = lineAt s.hbm (128 * l))) ∧
      (w.slices = true → ∀ l ∈ w.left, w.op = 0 ∨ Sparse.find? t.l2 l = none))

/-! ### Majors 0x13 and 0x14 -/

/-- R206, R217, R236, R237, R246: a command commits with its block, and D of a register drain becomes empty and NMX raises NMXOUT; a
completion word that is misaligned, or zero where one is needed, traps; a full table stalls the command, and a transaction aborts.
Readings of the model: log entry 16. -/
def Obligations.CommandsIssue : Prop :=
  let plain : List ((Ops → Instr) × CmdKind) :=
    [(.xplacePut, .xplacePut), (.xplaceBind, .xplaceBind), (.xevictKeep, .xevictKeep), (.xevictScrub, .xevictScrub),
     (.xaccZero, .xaccZero), (.xaccLoad, .xaccLoad), (.xaccFree, .xaccFree), (.xmma, .xmma), (.xmmac, .xmmac), (.xdrain, .xdrain),
     (.pour, .pour), (.cpy, .cpy), (.gath, .gath), (.scat, .scat), (.coll, .coll), (.nmx, .nmx)]
  let is (s' : State) (c : Ctx) (o : Ops) (kind : CmdKind) (ws : List Word) (ea : Nat) (k : Cmd) : Prop :=
    k.kind = kind ∧ k.stand = some c.g.stand ∧ k.gid = some c.gid ∧ k.part = c.st.part ∧ k.asn = c.la.asn ∧ k.core = c.core ∧
      k.block = ws ∧ k.mod = o.mod.toNat ∧ k.fmt = o.fmt ∧ k.addr = ea ∧ k.since = s'.tick.toNat ∧
      k.cluster = enterCluster c.st kind ws (clusterOf c.core) ∧ k.started = false ∧ k.computed = false ∧ k.code = 0
  (∀ i ∈ plain ++ [(.xdrainRegister, .xdrainReg)], ∀ s c o l, IssuesFrom s c (addressOperands o) → loadsBefore c.g = true →
    ((c.guard o).elected = some l → c.g.txn ≠ none → exec (i.1 o) s = .next (settleTxns (abortTxn s c.gid 5))) ∧
    ((c.guard o).elected = none → exec (i.1 o) s = .next (settleTxns (committed s c o))) ∧
    (∀ ea ws s', (c.guard o).elected = some l → ReadsBlock s c o ea ws s' →
      (blk ws 0 0 56 % 8 ≠ 0 ∨ (blk ws 0 0 56 = 0 ∧ i.2 ≠ .nmx) →
        exec (i.1 o) s = .next (settleTxns (c.trap s' 0x07 0 (BitVec.ofNat 64 (blk ws 0 0 56))))) ∧
      (blk ws 0 0 56 % 8 = 0 → (blk ws 0 0 56 ≠ 0 ∨ i.2 = .nmx) →
        queueRoom s' (enterCluster c.st i.2 ws (clusterOf c.core)) i.2 = false → exec (i.1 o) s = .next (settleTxns s)))) ∧
  (∀ i ∈ plain, ∀ s s' c o ea ws, ReadsBlock s c o ea ws s' → blk ws 0 0 56 % 8 = 0 → (blk ws 0 0 56 ≠ 0 ∨ i.2 = .nmx) →
    queueRoom s' (enterCluster c.st i.2 ws (clusterOf c.core)) i.2 = true → ∃ t k, exec (i.1 o) s = .next (settleTxns t) ∧
      Sparse.find? t.cmds s'.nextId = some k ∧ is s' c o i.2 ws ea k ∧
      (∀ n, n ≠ s'.nextId → Sparse.find? t.cmds n = Sparse.find? s'.cmds n) ∧
      (Sparse.find? t.groups c.gid).map (·.run) = some (some (c.r.committedAfter (opWords o))) ∧
      (∀ n, (t.core n).nmxout = (s'.core n).nmxout + (if i.2 = .nmx ∧ n = c.core then 1 else 0)) ∧ t.hbm = s'.hbm ∧ t.pads = s'.pads) ∧
  (∀ s s' c o ea ws, ReadsBlock s c o ea ws s' → blk ws 0 0 56 % 8 = 0 → blk ws 0 0 56 ≠ 0 →
    queueRoom s' (enterCluster c.st .xdrainReg ws (clusterOf c.core)) .xdrainReg = true → ∃ t k g,
      exec (.xdrainRegister o) s = .next (settleTxns t) ∧ Sparse.find? t.cmds s'.nextId = some k ∧ is s' c o .xdrainReg ws ea k ∧
      k.dreg = Opnd.num o.d ∧ Sparse.find? t.groups c.gid = some g ∧ (g.vreg (Opnd.num o.d)).full = false ∧
      (∃ a ∈ g.accs, a.id = k.acc ∧ a.use = .drain (Opnd.num o.d)) ∧
      g.run = some ((c.r.withdraw (Opnd.num o.d)).committedAfter (opWords o)))

/-- R218, R246, R247: XSTAT stands in place for the answer of the field, NMFENCE waits until NMXOUT is 0 and acquires at device scope, and
NODE commits with its predicate empty until the walker answers.
Readings of the model: log entry 161. -/
def Obligations.CommandStatus : Prop :=
  (∀ s c o, Issues s c o → c.r.stage ≠ 3 →
    ((c.guard o).elected = none → exec (.xstat o) s = .next (settleTxns (passed s c o))) ∧
    (∀ l, (c.guard o).elected = some l → exec (.xstat o) s = .next (settleTxns (c.put s c.g (c.r.await (c.scalar o o.a)))))) ∧
  (∀ s c o l, IssuesFrom s c [.reg (.p o.pred)] → (c.guard o).elected = some l →
    ((s.core c.core).nmxout ≠ 0 ∨ loadsPerformed c.g = false → exec (.nmfence o) s = .next (settleTxns s)) ∧
    ((s.core c.core).nmxout = 0 → loadsPerformed c.g = true →
      exec (.nmfence o) s = .next (settleTxns (passed (acquire s c.core .dev) c o)))) ∧
  (∀ s c o l, IssuesFrom s c (addressOperands o) → loadsPerformed c.g = true → c.g.txn = none → (c.guard o).elected = some l →
    ((c.address o).ea % 64 ≠ 0 → exec (.node o) s = .next (settleTxns (c.trap s 0x07 0 (BitVec.ofNat 64 (c.address o).ea)))) ∧
    ((c.address o).ea % 64 = 0 → exec (.node o) s = .next (settleTxns (c.put
      { s.fresh.2 with arming := s.arming ++ [⟨s.nextId, c.gid, Opnd.num o.d, none, (c.address o).ea, c.st.part, c.la.asn, c.g.stand⟩] }
      (c.g.setP (Opnd.num o.d) { c.g.preg (Opnd.num o.d) with full := false }) (c.r.committedAfter (opWords o)))))) ∧
  (∀ x : Machine.CmdStatus, ∀ k, (x.record k).code = (if x.code = 0 ∧ k.code ≠ 0 then BitVec.ofNat 8 k.code else x.code) ∧
    (x.record k).nanin = (x.nanin || k.nanin) ∧ (x.record k).satd = (x.satd || k.satd) ∧
    (x.record k).addr = if k.code = 0x0B ∧ x.addr = none then some (BitVec.ofNat 64 k.faultAddr) else x.addr)

/-! ### Major 0x15 and exceptions -/

/-- R249 to R251, R256, R257, R380, R381: SYSRD and TIME write one U value to the active elements, SYSRD of the registers of a stack stands
in place until the answer comes unless RMSEL names no row of the partition, SYSWR, ENGSTAT, RMSEL and RMPART write their registers, a
write of a register that is only read has no effect, and TRACE changes no register.
Readings of the model: log entry 31. -/
def Obligations.SystemRegisters : Prop :=
  (∀ s c o x, running s = some c → ∃ y, c.spread o s x = s.modGroup c.gid (fun g => { g with run := some ((writeDest c.r o.d y).after (opWords o)) }) ∧
    y.tag = (if c.whole o 64 then .u else .g) ∧
    ∀ e, e < 32 → lane y.val e = if (c.guard o).active 64 e then x % 2 ^ 64 else lane (oldDest c.r o.d).val e) ∧
  (∀ s c o, Issues s c o → c.r.stage ≠ 3 →
    (stackReg o.a.rawVal = false → exec (.sysrd o) s = .next (settleTxns (c.spread o s (c.sysReg s o.a.rawVal)))) ∧
    (stackReg o.a.rawVal = true → selected (s.core c.core).rmsel.toNat = none → exec (.sysrd o) s = .next (settleTxns (c.spread o s 0))) ∧
    (∀ bank row, stackReg o.a.rawVal = true → selected (s.core c.core).rmsel.toNat = some (bank, row) →
      (partOfPa s (paOfRow bank row) = some c.st.part →
        exec (.sysrd o) s = .next (settleTxns (c.put s c.g (c.r.await (s.core c.core).rmsel.toNat)))) ∧
      (partOfPa s (paOfRow bank row) ≠ some c.st.part → exec (.sysrd o) s = .next (settleTxns (c.spread o s 0))))) ∧
  (∀ s (c : Ctx), c.sysReg s 0x00 = 0x00010001 ∧ c.sysReg s 0x0A = c.g.spawnid.toNat ∧ c.sysReg s 0x0C = c.la.kparam.toNat ∧
    c.sysReg s 0x0E = c.core ∧ c.sysReg s 0x10 = c.g.trap.pc.toNat ∧ c.sysReg s 0x11 = c.g.trap.cause.toNat ∧
    c.sysReg s 0x12 = c.g.trap.inst.toNat ∧ c.sysReg s 0x13 = c.g.trap.inst2.toNat ∧ c.sysReg s 0x14 = c.g.trap.addr.toNat ∧
    c.sysReg s 0x15 = c.g.trap.txcause.toNat ∧ c.sysReg s 0x16 = c.g.trap.arrive.toNat ∧ c.sysReg s 0x17 = c.g.casterr.toNat ∧
    c.sysReg s 0x1C = c.g.dsp.toNat ∧
    (∀ n, n < 32 → bits (c.sysReg s 0x08) (2 * n) 2 = (c.g.vreg n).tag.code ∧ bits (c.sysReg s 0x09) (2 * n) 2 = (c.g.vreg (32 + n)).tag.code)) ∧
  (∀ s c o, Issues s c o → exec (.time o) s = .next (settleTxns (match o.mod.toNat with
    | 0 => c.spread o s s.tick.toNat
    | 1 => c.spread o s s.devTime.toNat
    | _ => c.spread o (newStamp s (dieOf c.core)).2 (newStamp s (dieOf c.core)).1.toNat))) ∧
  (∀ s c o l, IssuesFrom s c [.reg (.p o.pred), o.a] → (c.guard o).elected = some l →
    exec (.syswr o) s = .next (settleTxns (
      if o.d.rawVal = 0x16 then c.put s { c.g with trap := { c.g.trap with arrive := BitVec.ofNat 32 (c.scalar o o.a) } } (c.r.after (opWords o))
      else if o.d.rawVal = 0x18 then passed (s.setCore c.core { s.core c.core with rwrdrop := BitVec.ofNat 64 (c.scalar o o.a) }) c o
      else passed s c o)) ∧
    exec (.engstat o) s = .next (settleTxns (passed (s.modStand c.g.stand fun st => { st with engine := .zero }) c o)) ∧
    exec (.rmpart o) s =
      .next (settleTxns (passed { s with parts := Sparse.modify s.parts c.st.part fun p => { p with palerts := 0 } } c o)) ∧
    (∀ s' pa, resolve s c.seat none 0 (c.scalar o o.a) .rd = (.ok (.mem pa), s') → regionOf pa = .hbm →
      exec (.rmsel o) s = .next (settleTxns (passed (s'.setCore c.core { s'.core c.core with rmsel := BitVec.ofNat 64 (rmselOf pa) }) c o))) ∧
    (∀ s' d, resolve s c.seat none 0 (c.scalar o o.a) .rd = (.access d, s') → ∃ w : Word, w.getLsbD 63 = false ∧
      exec (.rmsel o) s = .next (settleTxns (passed (s'.setCore c.core { s'.core c.core with rmsel := w }) c o))) ∧
    (∃ t g, exec (.trace o) s = .next (settleTxns t) ∧ Sparse.find? t.groups c.gid = some g ∧ g.run = some (c.r.after (opWords o)) ∧
      g.v = c.g.v ∧ g.p = c.g.p ∧ g.m = c.g.m ∧ g.x = c.g.x ∧ g.fifo = c.g.fifo ∧ g.trap = c.g.trap ∧ t.pads = s.pads)) ∧
  (∀ s c o gid, ctxOf s gid = some c → c.r.stage = 3 →
    (readWord (c.r.words.getD c.r.pos 0) (c.r.words.getD (c.r.pos + 1) 0) = some (.sysrd o) → ∀ bank row,
      selected c.r.query = some (bank, row) → exec (.answerArrival gid) s = .next (c.spread o s (stackAnswer s o.a.rawVal bank row))) ∧
    (readWord (c.r.words.getD c.r.pos 0) (c.r.words.getD (c.r.pos + 1) 0) = some (.castq o) →
      exec (.answerArrival gid) s = .next (c.spread o s (c.castAnswer s))) ∧
    (readWord (c.r.words.getD c.r.pos 0) (c.r.words.getD (c.r.pos + 1) 0) = some (.xstat o) →
      exec (.answerArrival gid) s =
        .next (c.spread o (c.fieldAnswer s (o.mod.getLsbD 0)).2 (c.fieldAnswer s (o.mod.getLsbD 0)).1)))

/-- R33 to R36, R72, R253: taking an exception. A discarding trap restores the snapshot, aborts an open transaction with cause 6 and enters
the handler; a suspending one keeps its run and its transaction; a trap while CODE is nonzero ends the stand with TRAPNEST and one
without a handler with NOHANDLER.
Readings of the model: log entries 67, 75. -/
def Obligations.TakingExceptions : Prop :=
  (∀ s gid k susp g st la, seatOf s gid = some (g, st, la) → g.trap.code ≠ 0 → takeTrap s gid k susp = killStand s g.stand 0x10) ∧
  (∀ s gid k susp g st la, seatOf s gid = some (g, st, la) → g.entering = none → g.trap.code = 0 → la.traph = 0 → k.code ≠ 0x0C →
    takeTrap s gid k susp = killStand s g.stand 0x11) ∧
  (∀ s gid k g st la l, seatOf s gid = some (g, st, la) → g.entering = none → g.trap.code = 0 → la.traph ≠ 0 → k.code ≠ 0x0C → g.dbg.step = none →
    g.retired = false → (∀ r, g.run = some r → r.committed = false) →
    (areaLoc (discardGroup (s.putGroup gid g) gid 1) gid st la.asn 8192).1 = .ok l →
    ∃ g', Sparse.find? (takeTrap s gid k none).groups gid = some g' ∧
      Entered g g' k false la.traph (g.snap.a.lanes ||| g.snap.b.lanes) ∧ g'.rcv = g.snap.rcv ∧ g'.dsp = g.snap.dsp ∧
      g'.exited = g.snap.exited ∧ g'.txn = none ∧ (g.txn ≠ none → g'.trap.txcause = 6) ∧ (∃ xs, g'.fifo = g.fifo ++ xs)) ∧
  (∀ s gid k r g st la l, seatOf s gid = some (g, st, la) → g.entering = none → g.trap.code = 0 → la.traph ≠ 0 → g.dbg.claimed = false →
    g.dbg.step = none → (areaLoc s gid st la.asn 8192).1 = .ok l →
    ∃ g', Sparse.find? (takeTrap s gid k (some r)).groups gid = some g' ∧
      Entered g g' k true la.traph (g.slotA.lanes ||| g.slotB.lanes) ∧ g'.rcv = g.rcv ∧ g'.dsp = g.dsp ∧ g'.txn.isSome = g.txn.isSome ∧
      g'.susp = some r ∧ g'.suspSnap = some g.snap ∧ (∃ xs, g'.fifo = g.fifo ++ xs)) ∧
  (∀ s (c : Ctx) code detail addr, c.trap s code detail addr = takeTrap s c.gid (c.cause code detail addr) none ∧
    (c.cause code detail addr).pc = c.r.head.toNat + 8 * c.r.pos ∧ (c.cause code detail addr).inst = c.r.words.getD c.r.pos 0)

/-- R91, R252, R254: TRAP commits and its trap follows its trailer, BKPT and a word of an extension space suspend their run behind the
instruction, ERET without a CODE in force is illegal, and with one the trailer of its run returns.
Readings of the model: log entry 66. -/
def Obligations.TrapInstructions : Prop :=
  (∀ s c o l, IssuesFrom s c [.reg (.p o.pred), o.a] → loadsPerformed c.g = true → c.g.txn = none → (c.guard o).elected = some l →
    exec (.trap o) s = .next (settleTxns (c.put s c.g
      { c.r.committedAfter (opWords o) with raised := some (BitVec.ofNat 32 (c.scalar o o.a), c.origin) }))) ∧
  (∀ s c t detail org, Ends s c t true (some (detail, org)) → ∃ u g,
    exec (.endFall t) s = .next (takeTrap u c.gid ⟨0x0B, detail.toNat, org.pc.toNat, org.inst, org.inst2, 0, org.slotB⟩ none) ∧
    Ended s c t u g ∧ (g.slot c.r.slotB).st = { (c.g.slot c.r.slotB).st with pc := c.r.fall } ∧ g.snap.head = c.r.fall) ∧
  (∀ s c o l, IssuesFrom s c [.reg (.p o.pred), o.a] → (c.guard o).elected = some l → exec (.bkpt o) s =
    .next (settleTxns (takeTrap s c.gid (c.cause 0x0C (c.scalar o o.a) 0) (some (c.r.after (opWords o)))))) ∧
  (∀ s c word ext, running s = some c → exec (.emulationTrap word ext) s = .next (takeTrap s c.gid
    ⟨0x02, majorOf word, c.r.head.toNat + 8 * c.r.pos, word, ext.getD 0, 0, c.r.slotB⟩
    (some (c.r.after (if ext.isSome then 2 else 1))))) ∧
  (∀ s c o, running s = some c → (c.g.trap.code = 0 → exec (.eret o) s = .next (c.trap s 0x01 12 0)) ∧
    (c.g.trap.code ≠ 0 → exec (.eret o) s = .next (c.put s c.g { c.r.after (opWords o) with returning := true }))) ∧
  (∀ s c t, IssuesFrom s c [.reg (.p t.pred), t.a] → c.r.tblsw = none → c.r.returning = true → c.regionWrite t = false →
    returnReady s c.gid = true → exec (.endFall t) s = .next (c.finishReturn s t))

/-- R253 to R255: a return takes up what the entry of the trap saved. The slots, the reconvergence PC, DSP, the region head and the live-in
mask come back, CODE becomes 0, the rest of the context and every register stay, the suspended run goes on only after a suspending trap
with bit 16 set, and its copies and temporaries come back with their tags.
Readings of the model: log entries 13, 64. -/
def Obligations.ExceptionReturn : Prop :=
  (∀ (g : Group) (area : Nat), let g' := g.returned area
    g'.trap.code = 0 ∧ g'.trap.pc = g.trap.pc ∧ g'.trap.addr = g.trap.addr ∧ g'.trap.arrive = g.trap.arrive ∧
    bits g'.trap.cause.toNat 8 56 = bits g.trap.cause.toNat 8 56 ∧ g'.v = g.v ∧ g'.p = g.p ∧ g'.m = g.m ∧ g'.x = g.x ∧
    g'.fifo = g.fifo ∧ (g.trap.susp = false ∨ area.testBit 208 = false → g'.run = none) ∧ g'.rcv = BitVec.ofNat 56 (bits area 256 64) ∧
    g'.snap.head = BitVec.ofNat 56 (bits area 320 64) ∧ g'.snap.livein = BitVec.ofNat 64 (bits area 384 64)) ∧
  (∀ (g h : Group) (area : Nat), area % 2 ^ 512 = slotBlock h none →
    let g' := g.returned area
    g'.slotA.st = h.slotA.st ∧ g'.slotB.st = h.slotB.st ∧ g'.rcv = h.rcv ∧ g'.dsp = h.dsp ∧ g'.snap.head = h.snap.head ∧
      g'.snap.livein = h.snap.livein ∧ g'.run = none) ∧
  (∀ (g h : Group) (r : Run) (area : Nat), area % 2 ^ 512 = slotBlock h (some r.slotB) → g.trap.susp = true → g.susp = some r →
    (h.slot r.slotB).st.live = true →
    let g' := g.returned area
    g'.slotA.st = h.slotA.st ∧ g'.slotB.st = h.slotB.st ∧ g'.rcv = h.rcv ∧ g'.dsp = h.dsp ∧
      ∃ r', g'.run = some r' ∧ r'.slotB = r.slotB ∧ r'.head = r.head ∧ r'.words = r.words ∧ r'.pos = r.pos ∧ r'.ws = r.ws) ∧
  (∀ (r : Run) (area : Nat) (free : Nat → Nat), (setOrder r.ws).length ≤ 16 →
    (∀ x ∈ copyBlock r free, bits area (8 * x.1) (8 * x.2.1) = x.2.2) →
    (∀ n ∈ setOrder r.ws, (r.copy n).shaped → (r.reload area).copy n = r.copy n) ∧
    (∀ k, k < 8 → (r.temp k).shaped → (r.reload area).temp k = r.temp k))

/-! ### Ordering at the cores and at the homes -/

/-- R261 to R264, R293, R295: a store instruction's entries enter while there is room, the oldest entry of a FIFO drains into the CVP, merging
with an unsent entry of its line and bringing the core's copy up to date or dropping it, an entry is applied to a scratchpad or sent to its
home, or is logged and lost where no route leads there, and a home merges the masked bytes into its line, leaves every other line, and makes the
cast tiles that depend on them stale.
Readings of the model: log entries 30, 80, 117, 170. -/
def Obligations.StoresReachHomes : Prop :=
  (∀ s gid c, ctxOf s gid = some c → c.r.stage = 1 → c.g.saving = [] → c.g.entering = none →
    let room := min (16 - c.g.fifo.length) (256 - queueEntries s (gid / 64))
    exec (.storeEnter gid) s = .next (s.modGroup gid fun g => { g with
      fifo := g.fifo ++ c.r.stores.take room
      run := some (if c.r.stores.length ≤ room then { c.r.after (Sys2Proof.wordsOf (c.r.words.getD c.r.pos 0)) with stores := [] }
        else { c.r with stores := c.r.stores.drop room }) })) ∧
  (∀ s gid g x rest, Sparse.find? s.groups gid = some g → g.fifo = x :: rest →
    Sparse.getD (s.core (gid / 64)).orphans gid [] = [] → (mergeCvp (s.core (gid / 64)).cvp x gid s.nextId).length ≤ 128 → ∃ t,
    exec (.storeDrain gid) s = .next t ∧ Sparse.find? t.groups gid = some { g with fifo := rest } ∧
    (∀ n, n ≠ gid → Sparse.find? t.groups n = Sparse.find? s.groups n) ∧ t.hbm = s.hbm ∧ t.pads = s.pads ∧ t.l2 = s.l2 ∧
    ((∀ e ∈ (s.core (gid / 64)).cvp, e.store.line = x.line → e.sent = true) →
      (t.core (gid / 64)).cvp = (s.core (gid / 64)).cvp ++ [⟨x, [gid], [(s.nextId, x.va)], false⟩]) ∧
    (∀ as e bs, (s.core (gid / 64)).cvp = as ++ e :: bs → e.store.line = x.line → e.sent = false →
      (∀ y ∈ as ++ bs, y.store.line = x.line → y.sent = true) → ∃ e',
      (t.core (gid / 64)).cvp = as ++ e' :: bs ∧ e'.store.line = x.line ∧ e'.sent = false ∧ e'.store.mask = e.store.mask ||| x.mask ∧
      e'.store.data = mergeLine e.store.data x.data x.mask ∧ gid ∈ e'.groups ∧ ∀ k ∈ e.groups, k ∈ e'.groups) ∧
    (∀ pa d f e n, x.line = .mem pa → Sparse.find? (s.core (gid / 64)).l1 pa = some (.valid d f e n) →
      Sparse.find? (t.core (gid / 64)).l1 pa =
        if x.policy = 0 ∨ x.policy = 2 then some (.valid (mergeLine d x.data x.mask) f e n) else none)) ∧
  (∀ s core line e, (s.core core).cvp.find? (fun e => e.store.line.key == line) = some e → e.sent = false →
    let sent : List CvpEntry := (s.core core).cvp.map fun x => if x == e then { e with sent := true } else x
    (∀ k o, e.store.line = .pad k o → ∃ t, exec (.storePropagate core line) s = .next t ∧ (t.core core).cvp = (s.core core).cvp.erase e ∧
      t.groups = s.groups ∧ t.hbm = s.hbm ∧ t.l2 = s.l2 ∧
      lineAt t.pads (padAddr k o) = mergeLine (lineAt s.pads (padAddr k o)) e.store.data e.store.mask ∧
      ∀ a, a < padAddr k o ∨ padAddr k o + 128 ≤ a → Memory.read t.pads a = Memory.read s.pads a) ∧
    (∀ pa, e.store.line = .mem pa → isRemote (.mem pa) = false → ∃ t, exec (.storePropagate core line) s = .next t ∧
      (t.core core).cvp = sent ∧ t.groups = s.groups ∧ t.hbm = s.hbm ∧ t.pads = s.pads ∧ t.l2 = s.l2 ∧
      Sparse.getD t.homeq (sliceOf pa) [] = Sparse.getD s.homeq (sliceOf pa) [] ++ [⟨some core, e.store, none⟩]) ∧
    (∀ pa p, e.store.line = .mem pa → isRemote (.mem pa) = true → portOf s pa = some p → ownerOf s e.store.line = none → ∃ t,
      exec (.storePropagate core line) s = .next t ∧ (t.core core).cvp = sent ∧
      t.queueOf p = s.queueOf p ++ [.store core (e.groups.getD 0 0) e.store]) ∧
    (∀ pa, e.store.line = .mem pa → isRemote (.mem pa) = true → portOf s pa = none →
      exec (.storePropagate core line) s = .next (loseStore (logError
        (s.setCore core { s.core core with cvp := (s.core core).cvp.erase e }) pa 6 1 (partOfCore s core) 0) e))) ∧
  (∀ s home x rest core pa, Sparse.getD s.homeq home [] = x :: rest → x.core = some core → x.store.line = .mem pa → pa % 128 = 0 →
    nextParked s home = none → heldBack s (.mem pa) = false → SlicesCoherent s → ∃ t, exec (.storeApply home) s = .next (settleTxns t) ∧
      Sparse.getD t.homeq home [] = rest ∧ homeLine t pa = mergeLine (homeLine s pa) x.store.data x.store.mask ∧
      (∀ l, 128 * l ≠ pa → homeLine t (128 * l) = homeLine s (128 * l)) ∧ t.pads = s.pads ∧
      (t.core core).cvp = (s.core core).cvp.eraseP (fun e => e.sent && e.store.line == x.store.line) ∧
      (∀ (n : Nat) (c : Cast), s.casts[n]? = some c → ∃ c' : Cast, t.casts[n]? = some c' ∧ (∀ i ∈ c.stale, i ∈ c'.stale) ∧
        ∀ i ∈ c.dependents (pa, x.store.mask), i ∈ c'.stale)) ∧
  (∀ s home x rest, Sparse.getD s.homeq home [] = x :: rest → nextParked s home = none → heldBack s x.store.line = true →
    .store x ∉ s.recall home →
    (64 ≤ (s.recall home).length → exec (.storeApply home) s = .next s) ∧
    ((s.recall home).length < 64 → ∃ t, exec (.storeApply home) s = .next t ∧ Sparse.getD t.homeq home [] = rest ∧
      t.recall home = s.recall home ++ [.store x] ∧ t.l2 = s.l2 ∧ t.hbm = s.hbm ∧ t.groups = s.groups)) ∧
  (∀ s home x, nextParked s home = some x → exec (.storeApply home) s =
    .next (settleTxns (applyEntry (s.setRecall home ((s.recall home).erase (.store x))) home x)))

/-- R276: with an empty agenda a step takes the turn that the machine's choice names. In a run that takes in the end every turn that the
machine owes and that stays enabled, no L1 copy and no record copy stays older than its home for ever, and no FIFO that may drain, no CVP
entry of this device and no home queue the head of which may be written stays as it is for ever.
Readings of the model: log entry 90. -/
def Obligations.FairRunsProgress : Prop :=
  (∀ s, s.agenda = [] → s.host.stopped = false →
    step s = turn (Config.chosen s.turnNo) (ageSlots (passTime { s with turnNo := s.turnNo + 1 } (Config.tickStep s.turnNo)))) ∧
  (∀ c r, FairRun c r → (∀ m, ∀ e ∈ (c.before m (r m)).groups, e.2.txn.bind (·.flagged) = none) → ∀ n,
    (∀ core line, ¬ Stays c r n (OlderCopy core line)) ∧
    (∀ core addr, ¬ Stays c r n (OlderRecord core addr)) ∧
    (∀ gid x rest, ¬ Stays c r n fun s => s.fifoAt gid = x :: rest ∧ (mergeCvp (s.core (gid / 64)).cvp x gid s.nextId).length ≤ 128) ∧
    (∀ core q e pa, ¬ Stays c r n fun s => (s.core core).cvp = q ∧ q.find? (fun e => e.store.line.key == pa) = some e ∧
      e.sent = false ∧ e.store.line = .mem pa ∧ isRemote (.mem pa) = false) ∧
    (∀ home x rest, ¬ Stays c r n fun s => Sparse.getD s.homeq home [] = x :: rest ∧ nextParked s home = none ∧
      heldBack s x.store.line = false ∧ ∀ e ∈ s.groups, e.2.txn = none))

/-- R260, R265, R266, R272, R293, R294: a load's lowest line takes its value from the stores that the group finds first, over the core's copy
or the home; copies are filled from the home under what the core has drained, refreshed, and dropped; records are cached and dropped.
Readings of the model: log entries 5, 9. -/
def Obligations.LoadsAndCopies : Prop :=
  (∀ s gid g a l, Sparse.find? s.groups gid = some g → g.accs.find? Access.pending = some a → a.line = some l → a.use.loads = true →
    let pend := pendingStores s gid
    (readsHome s gid a.policy l (itemsMask (a.here l)) = false → ∃ t, t.groups = s.groups ∧ t.hbm = s.hbm ∧ t.l2 = s.l2 ∧ t.pads = s.pads ∧
      exec (.loadLine gid a.id l.key) s = .next (putAccess t gid (a.take l (overlay (match l with
        | .pad k o => lineAt s.pads (padAddr k o)
        | .mem pa => match Sparse.find? (s.core (gid / 64)).l1 pa with
          | some (.valid d _ _ _) => d
          | _ => 0) l pend) []))) ∧
    (∀ pa, l = .mem pa → readsHome s gid a.policy l (itemsMask (a.here l)) = true → isRemote l = false → ownerOf s l = none →
      (heldServed s (.load gid a.id) pa = true ∨ staleLine s pa = false) → homePoisoned s l = false → g.txn = none → ∃ t reqs, t.groups = s.groups ∧ t.pads = s.pads ∧
        (SlicesCoherent s → ∀ n, homeLine t (128 * n) = homeLine s (128 * n)) ∧
        exec (.loadLine gid a.id l.key) s = .next (putAccess t gid (a.take l (overlay (homeLine s pa) l pend) reqs))) ∧
    (∀ pa, l = .mem pa → readsHome s gid a.policy l (itemsMask (a.here l)) = true → isRemote l = false → heldBack s l = false →
      heldServed s (.load gid a.id) pa = false → staleLine s pa = true →
      exec (.loadLine gid a.id l.key) s = .next (holdRead s (.load gid a.id) pa)) ∧
    (∀ pa x, l = .mem pa → readsHome s gid a.policy l (itemsMask (a.here l)) = true → isRemote l = false → homeBusy s l = false →
      g.txn = some x → pa ∉ x.reads → 64 ≤ x.reads.length → exec (.loadLine gid a.id l.key) s = .next (abortTxn s gid 0x04)) ∧
    (∀ pa p, l = .mem pa → readsHome s gid a.policy l (itemsMask (a.here l)) = true → isRemote l = true → portOf s pa = some p →
      asked s a pa = false → portPending s gid p = false → ownerOf s l = none → ∃ t, exec (.loadLine gid a.id l.key) s = .next t ∧
        t.queueOf p = s.queueOf p ++ [.read s.nextId pa])) ∧
  (∀ s core line d f e n, Sparse.find? (s.core core).l1 line = some (.valid d f e n) →
    (isRemote (.mem line) = false → line ∉ s.poisoned →
      ∃ t, exec (.l1Refresh core line false) s = .next t ∧ t.hbm = s.hbm ∧ t.l2 = s.l2 ∧ t.groups = s.groups ∧
      Sparse.find? (t.core core).l1 line =
        some (.valid (overlay (homeLine s line) (.mem line) ((s.core core).cvp.map (·.store))) f e n) ∧
      ∀ l, l ≠ line → Sparse.find? (t.core core).l1 l = Sparse.find? (s.core core).l1 l) ∧
    (∃ t, exec (.l1Refresh core line true) s = .next t ∧ Sparse.find? (t.core core).l1 line = none ∧
      ∀ l, l ≠ line → Sparse.find? (t.core core).l1 l = Sparse.find? (s.core core).l1 l) ∧
    (∀ p, isRemote (.mem line) = true → portOf s line = some p → (∀ r ∈ (s.core core).refreshes, r.2 ≠ line) → ∃ t,
      exec (.l1Refresh core line false) s = .next t ∧ t.queueOf p = s.queueOf p ++ [.read s.nextId line] ∧
      (t.core core).refreshes = (s.core core).refreshes ++ [(s.nextId, line)] ∧ (t.core core).l1 = (s.core core).l1) ∧
    (f + 1048576 ≤ s.tick.toNat → ∃ t, exec (.l1AgeDrop core line) s = .next t ∧ Sparse.find? (t.core core).l1 line = none ∧
      t.hbm = s.hbm ∧ t.groups = s.groups) ∧
    (s.tick.toNat < f + 1048576 → exec (.l1AgeDrop core line) s = .next s)) ∧
  (∀ s core line dropped e r, Sparse.find? (s.core core).l1 line = some (.fill dropped e r) → isRemote (.mem line) = false →
    served s r.toList = true → homeBusy s (.mem line) = false → ∃ t,
    exec (.l1Fill core line) s = .next t ∧ t.hbm = s.hbm ∧ t.groups = s.groups ∧ Sparse.find? (t.core core).l1 line =
      if dropped = true ∨ line ∈ s.poisoned then none else
        some (.valid (overlay (homeLine s line) (.mem line) ((s.core core).cvp.map (·.store))) s.tick.toNat e (s.uses + 1))) ∧
  (∀ s core addr, core < 512 → addr % 64 = 0 → regionOf addr = .hbm → (s.core core).recordCopy addr = none →
    homeBusy s (.mem addr) = false → homePoisoned s (.mem addr) = false → ∃ t, exec (.recordCacheFill core addr) s = .next t ∧
      (t.core core).recordCopy addr =
        some (BitVec.ofNat 1024 (lineBytes (homeLine s (addr / 128 * 128)) (addr % 128) 64)) ∧ t.groups = s.groups ∧
      (SlicesCoherent s → ∀ n, homeLine t (128 * n) = homeLine s (128 * n))) ∧
  (∀ s core addr, ∃ t, exec (.recordCacheDrop core addr) s = .next t ∧ (t.core core).recordCopy addr = none ∧
    (∀ a, a ≠ addr → (t.core core).recordCopy a = (s.core core).recordCopy a) ∧ t.groups = s.groups ∧ t.hbm = s.hbm)

/-! ### The links, the host and the outside -/

/-- R274, R412, R430, R433, R434: the head of a delivery queue leaves as a numbered flit that stays in the retry buffer, or fails at a port
that is down; a flit with more than 8 bytes in error is logged and draws a NAK, only one with the expected number is served or forwarded and
acknowledged, and one accepted already is acknowledged again; another device's request is refused unless an entry of the inbound table grants
it; a NAK replays, sixteen replays retrain, and the host answers a request.
Readings of the model: log entries 30, 89, 170, 174. -/
def Obligations.RemoteDelivery : Prop :=
  (∀ s q r rest, s.queueOf q = r :: rest →
    let popped := { s with delivery := Sparse.set s.delivery q rest [] }
    (q = 16 → exec (.delivery q) s =
      .next { popped with nextId := s.nextId + 1, outstanding := s.outstanding ++ [⟨s.nextId, 16, r⟩] }) ∧
    (q ≠ 16 → (s.port q).down = true → exec (.delivery q) s = .next (settleTxns (answerRemote popped r q 7 0))) ∧
    (q ≠ 16 → (s.port q).down = false → (s.port q).retry.length < 512 → ∃ t f, exec (.delivery q) s = .next t ∧ t.queueOf q = rest ∧
      (t.port q).retry = (s.port q).retry ++ [f] ∧ f.seq = (s.port q).next ∧ f.ack = (s.port q).expected - 1 ∧ (t.port q).next = (s.port q).next + 1 ∧
      (f.dest, f.msg) = requestFlit s s.nextId r ∧ t.hbm = s.hbm ∧ t.groups = s.groups)) ∧
  (∀ s port seq ack errors src dest hlc msg, port < 16 → (s.port port).down = false →
    let x := s.port port
    let logged := if errors = 0 then s else logError s 0 6 0 none port
    let s1 := takeAck logged port ack
    let h := receiveStamp s1 hubDie hlc
    let receive := exec (.linkFlitReceive port seq ack errors src dest hlc msg) s
    (8 < errors → receive = .next (reply logged port (.nak x.expected))) ∧
    (errors ≤ 8 → x.expected ≠ seq → receive = .next (if x.hasAccepted seq = true then reply s1 port (.ack (x.expected - 1)) else s1)) ∧
    (errors ≤ 8 → x.expected = seq → dest = s.host.nodeid.toNat →
      (∀ t, serveRequest h src msg = some t → receive =
        .next (settleTxns (t.setPort port { t.port port with expected := seq + 1, returned := some (.ack seq) }))) ∧
      (serveRequest h src msg = none → receive = .next s)) ∧
    (errors ≤ 8 → x.expected = seq → dest ≠ s.host.nodeid.toNat →
      (∀ p, routePort s1 dest = some p → ∃ t, receive = .next (settleTxns t) ∧ (t.port port).expected = seq + 1 ∧
        (t.port port).returned = some (.ack seq) ∧ t.queueOf p = h.queueOf p ++ [.flit ⟨0, 0, src, dest, 0, msg⟩]) ∧
      (routePort s1 dest = none → receive = .next (settleTxns ((logError h 0 6 1 none port).setPort port
        { (logError h 0 6 1 none port).port port with expected := seq + 1, returned := some (.ack seq) })))) ∧
    (reply s1 port (.ack seq)).port port = { s1.port port with returned := some (.ack seq) }) ∧
  (∀ s src off right,
    let grants : Prop := ∃ k, k < 64 ∧ ∃ e : Nat, e = (Sparse.getD s.inbound k 0).toNat ∧ e.testBit 63 = true ∧
      e.testBit right = true ∧ bits e 40 16 = src ∧ bits e 16 23 * 65536 ≤ off ∧ off < bits e 80 23 * 65536
    (0x6000000000 ≤ off → inboundCheck s src off right = 1) ∧ (off < 0x6000000000 → grants → inboundCheck s src off right = 0) ∧
    (off < 0x6000000000 → ¬ grants → inboundCheck s src off right = 2)) ∧
  (∀ s src id off, (inboundCheck s src off 62 ≠ 0 →
      serveRequest s src (.load id off) = some (answerDevice s src id (inboundCheck s src off 62) 0)) ∧
    (inboundCheck s src off 62 = 0 → inboundPending s src = false → homeBusy s (.mem off) = false → homePoisoned s (.mem off) = false →
      ∃ t, serveRequest s src (.load id off) = some (answerDevice t src id 0 (homeLine s (off / 128 * 128))) ∧ t.groups = s.groups)) ∧
  (∀ s port expected i, (s.port port).retry.findIdx? (fun f => f.seq == BitVec.ofNat 12 expected) = some i → (s.port port).down = false →
    (s.port port).replays < 16 → exec (.linkReplay port expected) s = .next (s.setPort port { s.port port with
      retry := (s.port port).retry.drop i, replays := if i = 0 then (s.port port).replays + 1 else 1 })) ∧
  (∀ s port, (s.port port).down = false → 16 ≤ (s.port port).replays →
    exec (.linkRetrain port true) s = .next (s.setPort port { s.port port with replays := 0 }) ∧
    ∃ t, exec (.linkRetrain port false) s = .next (settleTxns t) ∧ (t.port port).down = true ∧ (t.port port).retry = []) ∧
  (∀ s id data o, s.outstanding.find? (fun o => o.id == id && o.port == 16) = some o →
    let left := { s with outstanding := s.outstanding.filter fun x => x.id != id }
    exec (.hostRequestCompletion id true data) s = .next (settleTxns (answerRemote left o.what 16 0 (lineOfBytes data))) ∧
    ∃ t, exec (.hostRequestCompletion id false data) s =
        .next (settleTxns (answerRemote t o.what 16 (if data = [] then 7 else 6) (lineOfBytes data))) ∧ t.groups = s.groups) ∧
  (∀ s id pa d gid g a, Sparse.find? s.groups gid = some g → a ∈ g.accs → id ∈ a.reqs → a.use.loads = true → ∃ g',
    Sparse.find? (answerAccess s id pa 0 d).groups gid = some g' ∧ a.take (.mem pa) (overlay d (.mem pa) (pendingStores s gid)) [] ∈ g'.accs)

/-- R358, R393, R405, R413, R416, R429, R431, R439, R440: what the outside of the device may do. A BAR reads and writes registers or HBM
beneath the slices; a reset, a loss of power and RLGO leave what they leave; the report takes the next index; time is corrected; a write of a
register changes it; and the hub withholds by the sensors it reads.
Readings of the model: log entries 40, 42, 46, 51, 52, 55, 89, 146, 172. -/
def Obligations.HostAndReset : Prop :=
  (∀ s addr size data, s.host.stopped = false →
    (addr + size ≤ 2 ^ 32 → exec (.hostBarAccess true .read addr size data) s = .next { s with answer := some (.data (barRead s addr size)) }) ∧
    (2 ^ 32 < addr + size → exec (.hostBarAccess true .read addr size data) s = .next { s with answer := some .unsupported }) ∧
    (addr + data.length ≤ 2 ^ 32 → exec (.hostBarAccess true .write addr size data) s =
      .next (settleTxns { barWrite s addr data with answer := some (.data 0) })) ∧
    (addr + data.length ≤ 0x6000000000 → s.host.devst ≠ 2 → ∃ t,
      exec (.hostBarAccess false .write addr size data) s = .next { discoverAll t with answer := some (.data 0) } ∧
      t.l2 = s.l2 ∧ t.groups = s.groups ∧ (∀ i, i < data.length → Memory.read t.hbm (addr + i) = data.getD i 0) ∧
      (∀ a, a < addr ∨ addr + data.length ≤ a → Memory.read t.hbm a = Memory.read s.hbm a) ∧
      ∀ l, l ∈ t.poisoned ↔ l ∈ s.poisoned ∧ ¬ (addr ≤ l ∧ l + 128 ≤ addr + data.length)) ∧
    (addr + size ≤ 0x6000000000 → s.host.devst ≠ 2 → (∀ l ∈ linesTouched addr size, l ∉ s.poisoned ∧ l ∉ s.hbmBad) → ∃ t,
      exec (.hostBarAccess false .read addr size data) s = .next t ∧ t.answer = some (.data (Memory.readLE s.hbm addr size)) ∧
      t.hbm = s.hbm ∧ t.l2 = s.l2) ∧
    (size = 4 ∨ size = 8 → addr % size = 0 → addr + size ≤ 0x6000000000 → s.host.devst ≠ 2 → (∀ l ∈ linesTouched addr size, l ∉ s.poisoned ∧ l ∉ s.hbmBad) →
      let old := Memory.readLE s.hbm addr size
      let operand (i : Nat) : Nat := packElems 8 (fun k => (data.getD (i * size + k) 0).toNat) size
      let does (op : BarOp) (new : Nat) : Prop := ∃ t, exec (.hostBarAccess false op addr size data) s = .next t ∧
        t.answer = some (.data old) ∧ t.l2 = s.l2 ∧ Memory.readLE t.hbm addr size = new ∧
        ∀ a, a < addr ∨ addr + size ≤ a → Memory.read t.hbm a = Memory.read s.hbm a
      does .fetchAdd ((old + operand 0) % 2 ^ (8 * size)) ∧ does .swap (operand 0) ∧
        does .cas (if old = operand 0 then operand 1 else old))) ∧
  (∀ s flash,
    ∃ t, exec (.deviceReset flash) s = .next t ∧ t.groups = [] ∧ t.stands = [] ∧ t.launches = [] ∧ t.signatures = s.signatures ∧
      if firmwareSigned flash = true then t.host.devst = 1 ∧ t.host.firmware = sha256 flash
      else t.host.devst = 2 ∧ t.hbm = s.hbm ∧ t.l2 = [] ∧ t.cells = s.cells ∧ t.directory = s.directory) ∧
  (∀ s value, (∃ t, exec (.rlgo value) s = .next t ∧ if value = 1 ∧ s.host.devst = 2 ∧ firmwareSigned (loadedImage s) = true then t.host.devst = 1 else t = s) ∧
    (∃ t, exec .powerLoss s = .next t ∧ t.hbm = [] ∧ t.parts = [] ∧ t.groups = [] ∧ t.cells = s.cells ∧ t.directory = s.directory ∧
      t.seqNo = s.seqNo ∧ t.signatures = s.signatures)) ∧
  (∀ s, s.host.devst = 1 →
    (∀ value, value ≠ 1 → exec (.attgo value) s = .next s) ∧
    (s.signatures < 2 ^ 20 → ∃ t, exec (.attgo 1) s = .next (settleTxns t) ∧ t.signatures = s.signatures + 1 ∧ t.host.attst = 2) ∧
    (2 ^ 20 ≤ s.signatures → exec (.attgo 1) s = .next s ∧ readHost s 0x088 = 3)) ∧
  (∀ s (offset rate : Int), (1000000 < offset → ∃ t, exec (.ptpCorrection offset rate) s = .next t ∧
      t.devTime = s.devTime + BitVec.ofInt 64 offset ∧ t.devOffset = 0 ∧ t.tick = s.tick) ∧
    (offset ≤ 1000000 → ∃ t, exec (.ptpCorrection offset rate) s = .next t ∧ t.devTime = s.devTime ∧ t.devOffset = offset ∧
      t.devRate.natAbs ≤ 500 ∧ (0 < offset → 0 < t.devRate) ∧ (offset < 0 → t.devRate < 0))) ∧
  (∀ s (x : BitVec 128), s.host.stopped = false →
    exec (.registerWrite 0 0x018 x) s = .next (settleTxns { s with host := { s.host with nodeid := x.truncate 16 } }) ∧
    exec (.registerWrite 0 0x020 x) s = .next (settleTxns (if 300 ≤ (x.truncate 16).toNat ∧ (x.truncate 16).toNat ≤ 1500 then
      { s with withheld := s.withheld || decide ((x.truncate 16).toNat < s.host.pwrnow.toNat), host := { s.host with pwrcap := x.truncate 16 } }
      else s)) ∧
    (∀ p part, part < 8 → s.part? part = some p → ∃ t, exec (.registerWrite (1 + part) 0x048 x) s = .next (settleTxns t) ∧
      (t.part? part).map (·.prqvec.toNat) = some (x.toNat % 2 ^ 16))) ∧
  (∀ s start, ∃ t, exec (.withholding start) s = .next t ∧ t.groups = s.groups ∧ t.hbm = s.hbm ∧
    ((t.withheld = s.withheld ∧ t.host = s.host) ∨
      (t.withheld = start ∧ ((s.host.pwrcap.toNat < t.host.pwrnow.toNat ∨ 1600 < t.host.temp.toNat) ↔ start = true) ∧
        (1760 ≤ t.host.temp.toNat → t.host.devst = 3))))

/-! ### Pages, queues and launches -/

/-- R313, R314, R317 to R319, R321, R394: a walk's resident result is held in the core's TLB; an arrival takes the page out of the merge
table and out of every core's wait table, each waiting group counting one page less; a shootdown drops the range and is accepted; it
completes when nothing that it waits for is left.
Readings of the model: log entries 10, 79. -/
def Obligations.PagesAndShootdowns : Prop :=
  (∀ s core asn vpage p, partOfCluster s (core / 4) = some p →
    let a := asn % 4096
    let va := vpage % 2 ^ 40 * 65536
    ∃ t, exec (.pageWalk core asn vpage) s = .next t ∧ t = (translate s core p a va).2 ∧ t.groups = s.groups ∧ t.pads = s.pads ∧
      (SlicesCoherent s → ∀ n, homeLine t (128 * n) = homeLine s (128 * n)) ∧
      ∀ f z q, (translate s core p a va).1 = .resident f z q → ∃ e, tlbFind (t.core core).tlb p a va = some e ∧ e.toWalk = .resident f z q) ∧
  (∀ s part (notice : BitVec 128) p, s.part? part = some p →
    let vpage := bits notice.toNat 88 40
    let asn := bits notice.toNat 76 12
    let hit (e : WaitEntry) : Bool := e.part == part && e.asn == asn && e.vpage == vpage
    let same (q : PageRequest) : Bool := q.part == part && q.asn == asn && q.vpage == vpage
    ∃ t, exec (.arrival part notice) s = .next t ∧ t.merge = s.merge.filter (fun q => !same q) ∧
      t.retries = s.retries.filter (fun q => !same q) ∧
      (∀ c ∈ p.cores, (t.core c).waiting = (s.core c).waiting.filter fun e => !hit e) ∧
      ∀ gid g, Sparse.find? s.groups gid = some g →
        let n := (p.cores.flatMap fun c => ((s.core c).waiting.filter hit).flatMap (·.groups)).count gid
        Sparse.find? t.groups gid =
          some { g with missing := g.missing - n, parked := g.parked && (decide (n = 0) || decide (n < g.missing)) }) ∧
  (∀ s part (desc : BitVec 128) p, s.part? part = some p →
    ∃ t x, exec (.shootdown part desc) s = .next t ∧ t.shootdowns = s.shootdowns ++ [x] ∧ x.part = part ∧ x.asn = bits desc.toNat 76 12 ∧
      x.vpage = bits desc.toNat 88 40 ∧ x.size = bits desc.toNat 68 4 ∧ x.count = bits desc.toNat 48 16 ∧
      (t.part? part).map (·.sdstat) = some (p.sdstat + 0x100000000) ∧
      (∀ c ∈ p.cores, ∀ e ∈ (t.core c).tlb, ¬ (e.part = part ∧ e.asn = x.asn ∧ x.touches (e.vpage * 65536) (pageBytes e.size) = true)) ∧
      (∀ c ∈ p.clusters, ∀ e ∈ (t.cluster c).tlb, ¬ (e.part = part ∧ e.asn = x.asn ∧ x.touches (e.vpage * 65536) (pageBytes e.size) = true)) ∧
      (desc.getLsbD 0 = true → ∀ c ∈ p.clusters, ∀ e ∈ (t.cluster c).walk, e.part ≠ part) ∧
      (∀ gid g, Sparse.find? t.groups gid = some g → inSpace s part x.asn g = true → ∀ r ∈ g.x, r.2.valid = true →
        x.touches r.2.vbase.toNat r.2.limit.toNat = false)) ∧
  (∀ s id x p, s.shootdowns[id]? = some x → s.part? x.part = some p →
    let busy : Prop := (∃ c ∈ x.cmds, (Sparse.find? (allCmds s x.part) c).isSome = true) ∨ (∃ w ∈ s.cmos, w.id ∈ x.cmos) ∨
      rangeStores s p x = true ∨
      (∃ e ∈ s.slots, e.2.part = x.part ∧ e.2.asn = x.asn ∧ ∃ l ∈ e.2.lines, x.frame = 0 ∨ x.frames l.1 = true) ∨
      (∃ a ∈ s.arming, a.part = x.part ∧ a.asn = x.asn ∧ a.loc.isSome = true ∧ x.touches a.va 64 = true) ∨
      ∃ a ∈ x.accs, ∃ g, Sparse.find? s.groups a.1 = some g ∧ ∃ y ∈ g.accs, y.id = a.2 ∧ y.todo ≠ []
    (busy → exec (.shootdownComplete id) s = .next s) ∧
    (¬ busy → ∃ t, exec (.shootdownComplete id) s = .next t ∧ t.shootdowns = s.shootdowns.eraseIdx id ∧
      ∃ p', t.part? x.part = some p' ∧ bits p'.sdstat.toNat 0 32 = (bits p.sdstat.toNat 0 32 + 1) % 2 ^ 32 ∧
        bits p'.sdstat.toNat 32 32 = bits p.sdstat.toNat 32 32))

/-- R397, R400, R402, R403, R405 to R409: a doorbell gives its queue the write pointer, in its slot, in a free one, or in the QCB of a queue
that waits; DISPATCH hands its launch values over, COPY queues its command, GRAPH arms its records, CMO acts on its lines, WAITMEM waits for
its word, SIGNAL writes or adds, CMO and SIGNAL behind the release that opens them, INDIRECT runs its prologue and does what its verdict
says; each packet is consumed by the advance of RPTR; and a launch that is over decreases DONE.
Readings of the model: log entries 27, 28, 29. -/
def Obligations.CommandQueues : Prop :=
  (∀ s part (value : BitVec 128) p, s.part? part = some p →
    let qid := bits value.toNat 0 12
    let wptr := bits value.toNat 32 32
    let qcb := qcbOf s p qid
    let at' := (slotsOfPart s part).find? fun e => e.2.qid == qid
    qcb ≠ 0 →
    (bits (qcbWord s qcb 0x20) 0 2 = 2 → exec (.doorbell part value) s = .next (settleTxns s)) ∧
    (bits (qcbWord s qcb 0x20) 0 2 ≠ 2 →
      (∀ n q, at' = some (n, q) → ∃ t, exec (.doorbell part value) s = .next (settleTxns t) ∧
        Sparse.find? t.slots n = some { q with wptr := wptr, qstate := if q.rptr = wptr then 0 else 1 }) ∧
      (at' = none → awaited s part qid = false → p.serves = false ∨ freeSlot s part = none → ∃ t,
        exec (.doorbell part value) s = .next (settleTxns t) ∧ t.slots = s.slots ∧ (∃ e ∈ t.idle, e.part = part ∧ e.qid = qid) ∧
        (regionOf qcb = .hbm → qcb % 128 = 0 → SlicesCoherent s →
          qcbWord t qcb 0x10 = wptr ∧ bits (qcbWord t qcb 0x20) 0 2 = 1 ∧ (qcbWord t qcb 0x40).testBit 16 = true)) ∧
      (∀ n, at' = none → awaited s part qid = false → p.serves = true → freeSlot s part = some n → ∃ u,
        exec (.doorbell part value) s = .next (settleTxns (mapQueue u part n qid false)) ∧ u.slots = s.slots ∧
        (regionOf qcb = .hbm → qcb % 128 = 0 → SlicesCoherent s → qcbWord u qcb 0x10 = wptr)))) ∧
  (∀ s part p n qid latest, s.part? part = some p → qcbOf s p qid ≠ 0 → ∃ q,
    Sparse.find? (mapQueue s part n qid latest).slots n = some q ∧ q.part = part ∧ q.qid = qid ∧ q.qcb = qcbOf s p qid ∧ q.leaving = none ∧
    q.rptr = bits (qcbWord s q.qcb 0x08) 0 32 ∧ q.wptr = bits (qcbWord s q.qcb 0x10) 0 32 ∧ q.current = false ∧ q.prologue = none ∧
    ∀ e ∈ (mapQueue s part n qid latest).idle, ¬ (e.part = part ∧ e.qid = qid)) ∧
  (∀ s n q len ws s', AtPacket s n q 1 len ws s' → ∀ u, handOver s' n q ⟨ws.drop 1⟩ = (.ok, u) →
    exec (.dispatch n) s = .next (settleTxns (consume u n q len))) ∧
  (∀ s who q b u, handOver s who q b = (.ok, u) → ∃ id l, Sparse.find? u.launches id = some l ∧ l.part = q.part ∧ l.asn = q.asn ∧
    l.queue = some q.qid ∧ l.prio = min (b.f 0 56 2) q.maxp ∧ l.start = BitVec.ofNat 64 (b.f 4 0 64) ∧ l.placed = 0 ∧ l.ended = 0 ∧
    l.total = (if l.status = 0 then standsOf l.place l.extents else 0) ∧ u.groups = s.groups) ∧
  (∀ s n q len, q.taking = false → q.leaving = none → Sparse.find? (consume s n q len).slots n = some { q with
    current := false, releasing := false, waiting := false, stage := 0, lines := [], prologue := none, made := 0, rptr := (q.rptr + 16 * len) % 2 ^ q.rsize,
    qstate := if (q.rptr + 16 * len) % 2 ^ q.rsize = q.wptr then 0 else 1 }) ∧
  (∀ s n q len ws s' u pa, AtPacket s n q 3 len ws s' →
    let block := (ws.drop 4).take 8
    let cl := ((u.part? q.part).map lowestCluster).getD 0
    blk ws 1 0 2 ≠ 3 → blk ws 1 2 62 = 0 → blk ws 2 56 8 = 0 → blk ws 2 0 56 % 8 = 0 → blk ws 3 0 64 = 0 → blk block 0 0 56 ≠ 0 →
    blk block 0 0 56 % 8 = 0 → optionalAddr s' q.part q.asn (blk ws 2 0 56) .wr = (.ok pa, u) →
    queueRoom u cl (kindOfFunc (blk ws 1 0 2)) = true → ∃ t k, exec (.copy n) s = .next (settleTxns t) ∧ t.cmd? u.nextId = some k ∧
      k.kind = kindOfFunc (blk ws 1 0 2) ∧ k.block = block ∧ k.part = q.part ∧ k.asn = q.asn ∧ k.cluster = cl ∧ k.stand = none ∧
      k.stat = if blk ws 2 0 56 = 0 then none else some (blk ws 2 0 56, pa)) ∧
  (∀ s n q len ws s' s1 s2 s3 va pa x, AtPacket s n q 4 len ws s' → q.leaving = none →
    let list := blk ws 1 0 56
    let count := blk ws 2 0 13
    let m : Node := ⟨pa, va, q.part, q.asn, none, false⟩
    let u := setNodeState (tell { s3 with nodes := s3.nodes ++ [m] } hubDie (homeDie pa)) m 1
    blk ws 1 56 8 = 0 → list % 8 = 0 → blk ws 2 13 51 = 0 → 1 ≤ count → count ≤ 4096 → blk ws 3 0 64 = 0 →
    hubVirtual s' n q.part q.asn (list + 8 * q.stage) 8 = (.ok va, s1) → va % 64 = 0 → hubAddr s1 q.part q.asn va .wr = (.ok pa, s2) →
    hubBytes s2 n pa 64 = (.ok x, s3) → regionOf pa = .hbm → badNode (wordsFrom x 8) = false →
    (∀ y ∈ s3.nodes, y.part = q.part → y.pa ≠ pa) → (s3.nodes.filter fun y => y.part == q.part).length < 4096 → homeBusy s3 (.mem pa) = false →
    0 < signedOf 64 (readHome u (.mem pa) 8) → ∃ t, exec (.graph n) s = .next (settleTxns t) ∧ t.nodes = s3.nodes ++ [m]) ∧
  (∀ s n q len ws s', AtPacket s n q 5 len ws s' →
    let addr := blk ws 2 0 56
    let size := blk ws 3 0 48
    blk ws 1 0 2 ≠ 3 → (blk ws 1 4 3 = 5 ∨ blk ws 1 4 3 = 6) → blk ws 1 2 2 = 0 → blk ws 1 7 57 = 0 → blk ws 2 56 8 = 0 → blk ws 3 48 16 = 0 → blk ws 4 0 64 = 0 →
    blk ws 5 0 64 = 0 →
    (size = 0 → exec (.cmo n) s = .next (settleTxns (consume s' n q len))) ∧
    (size ≠ 0 → q.stage = 0 → packetsReleased s' q (blk ws 1 4 3 == 6) = false →
      exec (.cmo n) s = .next (settleTxns (s'.putSlot n { q with releasing := true }))) ∧
    (size ≠ 0 → q.stage = 0 → packetsReleased s' q (blk ws 1 4 3 == 6) = true → ∀ ls u, rangePages s' q.part q.asn addr (addr + size) (pagePieces addr size) [] = (.lines ls, u) →
      exec (.cmo n) s = .next (settleTxns (u.putSlot n { q with stage := 1, releasing := false, lines := ls }))) ∧
    (size ≠ 0 → q.stage ≠ 0 → ∀ p, s'.part? q.part = some p → (∀ e ∈ q.lines, heldBack s' (.mem e.1) = false) →
      exec (.cmo n) s = .next (settleTxns (consume (q.lines.foldl (fun s e => cmoPacketLine s p (blk ws 1 0 2) e) s') n q len)))) ∧
  (∀ s p op e c, op ≠ 0 → c ∈ p.cores → ∀ d f y n, Sparse.find? ((cmoPacketLine s p op e).core c).l1 e.1 ≠ some (.valid d f y n)) ∧
  (∀ s n q len ws s', AtPacket s n q 6 len ws s' →
    (∀ pa u, q.waiting = false → q.leaving = none → badWaitmem ws = false → hubAddr s' q.part q.asn (blk ws 1 0 56) .rd = (.ok pa, u) →
      exec (.waitmem n) s = .next (settleTxns (u.putSlot n { q with waiting := true }))) ∧
    (∀ x u, q.waiting = true → hubVirtual s' n q.part q.asn (blk ws 1 0 56) 8 = (.ok x, u) → exec (.waitmemRead n) s = .next (settleTxns
      (if waitHolds (blk ws 1 56 2) x (blk ws 2 0 64) then consume u n q len else dropHubReads u n)))) ∧
  (∀ s n q len ws s', AtPacket s n q 7 len ws s' →
    let va := blk ws 1 0 56
    let add := blk ws 1 56 1 == 1
    va % 8 = 0 → blk ws 1 58 6 = 0 → blk ws 3 16 48 = 0 → blk ws 4 0 64 = 0 → blk ws 5 0 64 = 0 →
    (∀ pa u w, q.stage = 0 → hubAddr s' q.part q.asn va (if add then .atomic else .wr) = (.ok pa, u) → packetsReleased u q true = true →
      (add = true → homePoisoned u (.mem pa) = false) → signalWrite u q.part q.asn pa (blk ws 2 0 64) add = some w →
      exec (.signal n) s = .next (settleTxns (w.putSlot n { q with stage := 1, releasing := false }))) ∧
    (∀ pa u, q.stage = 0 → hubAddr s' q.part q.asn va (if add then .atomic else .wr) = (.ok pa, u) → packetsReleased u q true = false →
      exec (.signal n) s = .next (settleTxns (u.putSlot n { q with releasing := true }))) ∧
    (q.stage ≠ 0 → remotePending s' 0 hubTag = false → hubAtomPending s' = false →
      exec (.signal n) s = .next (settleTxns (consume (if blk ws 1 57 1 = 1 then raiseIrq s' (blk ws 3 0 16) else s') n q len)))) ∧
  (∀ s part asn pa value add, regionOf pa = .hbm → pa % 8 = 0 → homeBusy s (.mem pa) = false → value < 2 ^ 64 → SlicesCoherent s → ∃ w,
    signalWrite s part asn pa value add = some w ∧
    readHome w (.mem pa) 8 = (if add then (readHome s (.mem pa) 8 + value) % 2 ^ 64 else value) ∧
    ∀ l, l ≠ pa / 128 → homeLine w (128 * l) = homeLine s (128 * l)) ∧
  (∀ s n q len ws s', AtPacket s n q 2 len ws s' → blk ws 10 56 8 = 0 → blk ws 11 16 48 = 0 → blk ws 11 0 16 ≠ 0 →
    let template := (ws.drop 1).take 9
    let made (g : Group) : Body := ⟨(List.range 9).map fun i => BitVec.ofNat 64 (lane (g.vreg (i + 1)).val 0)⟩
    (q.prologue = none → exec (.indirect n) s = .next (settleTxns (s'.putSlot n { q with
      prologue := some ⟨newUnit n (blk ws 10 0 56) q.made template, 0⟩ }))) ∧
    (∀ p p' u, q.prologue = some p → unitTurn s' n q.part q.asn p = (.go p', u) →
      exec (.indirect n) s = .next (settleTxns (u.putSlot n { q with prologue := some p' }))) ∧
    (∀ p d u, q.prologue = some p → unitTurn s' n q.part q.asn p = (.error d, u) →
      exec (.indirect n) s = .next (settleTxns (stopQueue u n q 0x05 d))) ∧
    (∀ p g u w, q.prologue = some p → unitTurn s' n q.part q.asn p = (.done g, u) → lane (g.vreg 0).val 0 = 0 →
      handOver u n q (made g) = (.ok, w) → exec (.indirect n) s = .next (settleTxns (consume w n q len))) ∧
    (∀ p g u u1 u2 done stat w, q.prologue = some p → unitTurn s' n q.part q.asn p = (.done g, u) → lane (g.vreg 0).val 0 = 1 →
      optionalAddr u q.part q.asn ((made g).f 5 0 56) .wr = (.ok done, u1) → optionalAddr u1 q.part q.asn ((made g).f 6 0 56) .wr = (.ok stat, u2) →
      decrementDone (if (made g).f 6 0 56 = 0 then u2 else hubWrite u2 stat 8 0x13) (if (made g).f 5 0 56 = 0 then none else some done) q.part q.asn =
        some w →
      exec (.indirect n) s = .next (settleTxns (consume w n ((Sparse.find? w.slots n).getD q) len))) ∧
    (∀ p g u w, q.prologue = some p → unitTurn s' n q.part q.asn p = (.done g, u) → lane (g.vreg 0).val 0 = 2 →
      handOver u n q (made g) = (.ok, w) →
      (blk ws 11 0 16 ≤ q.made + 1 → exec (.indirect n) s = .next (settleTxns (consume w n q len))) ∧
      (q.made + 1 < blk ws 11 0 16 → q.leaving = none → ∃ t, exec (.indirect n) s = .next (settleTxns t) ∧ t.launches = w.launches ∧
        Sparse.find? t.slots n = some { q with
          made := q.made + 1, current := false, stage := 0, prologue := some ⟨newUnit n (blk ws 10 0 56) (q.made + 1) template, 0⟩ }))) ∧
  (∀ s id l, s.launch? id = some l →
    (l.ended ≠ l.total ∨ (∃ g ∈ l.unsettled, storesLeft s g = true) → exec (.launchEnd id) s = .next s) ∧
    (l.ended = l.total → (∀ g ∈ l.unsettled, storesLeft s g = false) → (∀ p, s.part? l.part = some p → p.clearing = false) →
      ∀ stat s1 word s2, endWord s l l.stat = (some stat, s1) → endWord s1 l l.done = (some word, s2) →
      let u := match stat with
        | none => s2
        | some pa => hubWrite s2 pa 8 (l.status.toNat + if l.late then 2 ^ 8 else 0)
      ∀ w, decrementDone u word l.part l.asn = some w →
        exec (.launchEnd id) s = .next (settleTxns { w with launches := Sparse.erase w.launches id }))) ∧
  (∀ s pa part asn, regionOf pa = .hbm → pa % 8 = 0 → homeBusy s (.mem pa) = false → homePoisoned s (.mem pa) = false →
    readHome s (.mem pa) 8 ≠ 1 → ∃ w, decrementDone s (some pa) part asn = some w ∧
      readHome w (.mem pa) 8 = (readHome s (.mem pa) 8 + 2 ^ 64 - 1) % 2 ^ 64)

/-- R328 to R330, R335 to R340, R393, R404, R409: a stand is placed on the core that the distributor chooses, its units reading as zero;
it is handed over at START with an acquire; its end and its kill release what it held; pre-emption discards a group at its region head; a
clearing saves and a restore gives back; partition commands create, boot, update and remove partitions; and at a quantum boundary the queues
age and the best of those that wait take the slots.
Readings of the model: log entries 32, 34, 35, 36, 38, 39, 41, 140. -/
def Obligations.StandsAndPartitions : Prop :=
  (∀ s launch core l p units lease, s.launch? launch = some l → s.part? l.part = some p → p.issues = true →
    nextLaunch s l.part p = some launch → chosenCore s p l = some core → takeUnits s core l.scratch = some units →
    grantLease s p l core = some lease → ∃ t st, exec (.standPlace launch core) s = .next t ∧ t.stand? s.nextId = some st ∧ st.core = core ∧
      st.launch = launch ∧ st.part = l.part ∧ st.units = units ∧ st.lease = some lease ∧ st.handed = false ∧
      (t.launch? launch).map (·.placed) = some (l.placed + 1) ∧ (t.part? l.part).map (·.rotation) = some ((core + 1) % 512) ∧
      (t.part? l.part).map (·.tables) = some (if l.placed = 0 then Sparse.insert p.tables l.asn p.asntab else p.tables) ∧
      (∀ n ∈ units, ∀ i, i < 4096 → Memory.read t.pads (padAddr core (4096 * n + i)) = 0) ∧ t.hbm = s.hbm) ∧
  (∀ s stand st l p, s.stand? stand = some st → s.launch? st.launch = some l → s.part? st.part = some p → st.handed = false → p.issues = true →
    (s.devTime < l.start → exec (.standHandover stand) s = .next s) ∧
    (l.start ≤ s.devTime → ∃ t, exec (.standHandover stand) s = .next t ∧ t.stand? stand = some { st with handed := true } ∧
      (t.core st.core).records = [] ∧ (t.core st.core).fills = [] ∧ (∀ a d f e n, Sparse.find? (t.core st.core).l1 a ≠ some (.valid d f e n)) ∧ t.groups = s.groups)) ∧
  (∀ s stand st, s.stand? stand = some st →
    (st.ended = true → standIdle s stand = true → unitStores s st = false →
      (∀ l, st.lease = some l → l.count ≠ 0 → ((s.launch? st.launch).map (·.scrub)).getD false = false) → ∃ t,
      exec (.standResourceRelease stand) s = .next t ∧ t.stands = Sparse.erase s.stands stand ∧
      t.launches = Sparse.modify s.launches st.launch (fun l => { l with ended := l.ended + 1 }) ∧ t.groups = s.groups ∧ t.hbm = s.hbm ∧
      t.pads = s.pads ∧ ∀ c, c ≠ st.core → t.core c = s.core c) ∧
    (st.killed = false → ∃ t st', exec (.standKill stand) s = .next t ∧ t.stand? stand = some st' ∧ st'.killed = true ∧
      st'.status = (if st.status = 0 then 0x12 else st.status) ∧
      ∀ gid ∈ st.groups, ∀ g, Sparse.find? t.groups gid = some g → g.stand = stand → g.retired = true)) ∧
  (∀ s gid g st la, seatOf s gid = some (g, st, la) → g.preempt = true → g.retired = false → (∀ r, g.run = some r → r.committed = false) →
    g.dbg.request = false → ∃ t g', exec (.preemptionDiscard gid) s = .next t ∧ Sparse.find? t.groups gid = some g' ∧ g'.preempt = false ∧
      g'.run = none ∧ g'.slotA.st = g.snap.a ∧ g'.slotB.st = g.snap.b ∧ g'.rcv = g.snap.rcv ∧ g'.dsp = g.snap.dsp ∧ g'.txn = none ∧ g'.v = g.v ∧
      g'.p = g.p ∧ g'.m = g.m ∧ g'.x = g.x ∧ g'.fifo = g.fifo) ∧
  (∀ s part p, s.part? part = some p → p.context = none → p.stopped = false → ∃ t p', exec (.partitionClear part) s = .next t ∧
    t.part? part = some p' ∧ p'.clearing = true ∧ (∀ q, (startClear s part p).part? part = some q →
      (p'.context.isSome = clearReady (startClear s part p) part q) ∧ (p'.context.isSome = true → ∀ e ∈ t.stands, e.2.part ≠ part))) ∧
  (∀ s part p x, s.part? part = some p → p.context = some x → p.stopped = false → clustersTaken s part p.cgmask = false →
    (∀ n ∈ s.nodes, ¬ (n.part = part ∧ n.held = true)) → (x.groups.Pairwise fun a b => a.1 < b.1) → ∃ t p',
      exec (.partitionRestore part) s = .next (settleTxns t) ∧ t.part? part = some p' ∧ p'.clearing = false ∧ p'.context = none ∧
      p'.removed = [] ∧ (∀ gid g, Sparse.find? x.groups gid = some g → Sparse.find? t.groups gid = some (reloadGroup s x gid g)) ∧
      (∀ gid, Sparse.find? x.groups gid = none → Sparse.find? t.groups gid = Sparse.find? s.groups gid)) ∧
  (∀ s (value : Word) y u, pdMay s value = true → hubBytes s controlWho s.host.pdaddr.toNat 256 = (.ok y, u) →
    let d : Descriptor := ⟨wordsFrom y 32⟩
    let w := dropHubReads u controlWho
    let part := pdPart value
    (pdOp value = 1 → s.part? part = none → d.bad = false → d.clashes w part = false → d.overQuota w part = false → w.part? part = none → ∃ t p,
      exec (.partitionCreate value) s = .next (settleTxns (bootTry t part)) ∧ t.part? part = some p ∧ p.booting = true ∧ p.cgmask = d.mask ∧
      p.ranges = d.ranges ∧ p.quota = d.f 0 32 7 ∧ p.prqvec = 0xFFFF ∧ p.context = none ∧ t.host.pdst = 1 ∧ t.host.pdcmd = value) ∧
    (pdOp value = 1 → s.part? part = none → d.bad = true → exec (.partitionCreate value) s = .next (settleTxns (pdRefused w 1))) ∧
    (∀ p, pdOp value = 2 → d.bad = false → d.clashes w part = false → d.overQuota w part = false → w.part? part = some p →
      d.mask = p.cgmask → d.ranges = p.ranges → (d.f 0x10 0 56 = p.sysarea ∨ hasStand w part p = false) →
      exec (.partitionUpdate value) s = .next (settleTxns (pdDone (discoverAll (w.setPart part (d.apply p))) p.booted)))) ∧
  (∀ s (value : Word) p, pdMay s value = true → pdOp value = 1 → s.part? (pdPart value) = some p → p.booting = true →
    exec (.partitionCreate value) s = .next (settleTxns (bootTry s (pdPart value)))) ∧
  (∀ s part p x u, s.part? part = some p → p.booting = true → hubBytes s (imageWho part) p.imgaddr p.imgsize = (.ok x, u) → ∃ p',
    (bootTry s part).part? part = some p' ∧ p'.booting = false ∧ p'.booted = imageSigned p.imgkey (bytesOf x p.imgsize) ∧
      p'.digest = sha256 (bytesOf x p.imgsize) ∧ p'.cgmask = p.cgmask ∧
      (bits s.host.pdst.toNat 0 2 = 1 → pdOp s.host.pdcmd = 1 → pdPart s.host.pdcmd = part →
        (bootTry s part).host.pdst = if p'.booted = true then 0x10002 else 2)) ∧
  (∀ s (value : Word) p x, pdMay s value = true → pdOp value = 3 → s.part? (pdPart value) = some p → p.context = some x → p.stopped = false →
    ∃ t, exec (.partitionRemove value) s = .next t ∧ t.part? (pdPart value) = none ∧ bits t.host.pdst.toNat 0 2 = 2 ∧ t.hbm = s.hbm ∧
      t.cells = s.cells) ∧
  (∀ s part p, s.part? part = some p → p.quantum < s.devTime.toNat / 100000 → p.serves = true →
    let u := ageQueues (discover (s.setPart part { p with quantum := s.devTime.toNat / 100000 }) part p) part p
    let t := launchHeld (swapSlots part p 64 (fillSlots part p 64 (dropIdle u part))) part true
    exec (.quantumBoundary part) s = .next (settleTxns t) ∧ (t.part? part).map (·.quantum) = some (s.devTime.toNat / 100000) ∧
    ((slotsOfPart s part).length ≤ p.quota → (slotsOfPart t part).length ≤ p.quota)) ∧
  (∀ s part p, (s.slots.Pairwise fun a b => a.1 < b.1) →
    (∀ n q, Sparse.find? s.slots n = some q → q.part = part →
      Sparse.find? (ageQueues s part p).slots n = some { q with age := q.age - 1, latest := false }) ∧
    (∀ e, slotsOfPart s part = [] → s.idle.filter (fun e => e.part == part) = [e] → regionOf (qcbOf s p e.qid) = .hbm →
      qcbOf s p e.qid % 128 = 0 → SlicesCoherent s →
      bits (qcbWord (ageQueues s part p) (qcbOf s p e.qid) 0x40) 0 4 = min 12 (bits (qcbWord s (qcbOf s p e.qid) 0x40) 0 4 + 1))) ∧
  (∀ s part p e, bestIdle s part p = some e → e ∈ s.idle ∧ e.part = part ∧ ∀ x ∈ s.idle, x.part = part →
    idleEff s p x < idleEff s p e ∨ (idleEff s p x = idleEff s p e ∧ (e.since < x.since ∨ (e.since = x.since ∧ e.qid ≤ x.qid)))) ∧
  (∀ s part n q, worstMapped s part = some (n, q) → (n, q) ∈ slotsOfPart s part ∧ q.latest = false ∧ q.leaving = none ∧
    ∀ x ∈ slotsOfPart s part, x.2.latest = false → x.2.leaving = none → queueEff q.bprio q.age < queueEff x.2.bprio x.2.age ∨
      (queueEff q.bprio q.age = queueEff x.2.bprio x.2.age ∧ (q.mapped < x.2.mapped ∨ (q.mapped = x.2.mapped ∧ x.2.qid ≤ q.qid)))) ∧
  (∀ s part p k n q e, worstMapped s part = some (n, q) → bestIdle s part p = some e →
    let left := { s with idle := s.idle.filter (· != e) }
    (idleEff s p e ≤ queueEff q.bprio q.age → swapSlots part p (k + 1) s = s) ∧
    (queueEff q.bprio q.age < idleEff s p e → q.busy = false →
      swapSlots part p (k + 1) s = swapSlots part p k (replaceQueue left n (some e.qid))) ∧
    (queueEff q.bprio q.age < idleEff s p e → q.busy = true → ∃ t, swapSlots part p (k + 1) s = swapSlots part p k t ∧ t.idle = left.idle ∧
      Sparse.find? t.slots n = (Sparse.find? s.slots n).map fun x => { x with latest := true, leaving := some (some e.qid) })) ∧
  (∀ s part p, s.part? part = some p → s.devTime.toNat / 100000 ≤ p.quantum → exec (.quantumBoundary part) s = .next s)

/-! ### HBM, plates and failures -/

/-- R373, R376, R377, R379, R380, R382, R383: a bank takes up the request that is due, the oldest one to the open row passing at most 16 times,
which opens its row; an activation counts for its row, and at the threshold it raises an alert, clears the counter and backs off; a refresh
clears a counter, an idle row closes, a patrol reads one line between requests, and a pseudo-channel changes its phase.
Readings of the model: log entries 25, 127. -/
def Obligations.BanksAndPhases : Prop :=
  (∀ (b : Bank),
    (∀ i q, b.queue[i]? = some q → b.opened = some q.row → (∀ j q', j < i → b.queue[j]? = some q' → b.opened ≠ some q'.row) → 0 < i →
      b.passed < 16 → b.pick = (i, b.passed + 1)) ∧
    ((∀ q ∈ b.queue, b.opened ≠ some q.row) ∨ 16 ≤ b.passed ∨ (∃ q, b.queue[0]? = some q ∧ b.opened = some q.row) → b.pick = (0, 0))) ∧
  (∀ s bank i passed r, (s.bank bank).pick = (i, passed) → (s.bank bank).queue[i]? = some r → (s.bank bank).backoff = false →
    (s.bank bank).serving = none → (s.pchan (bank / 64)).compute = false →
      let t := takeUp s bank
      t.groups = s.groups ∧ t.hbm = s.hbm ∧ t.l2 = s.l2 ∧ (t.bank bank).queue = (s.bank bank).queue ∧ (t.bank bank).passed = passed ∧
      (t.bank bank).serving = some r.id ∧
      let n := Sparse.getD (s.bank bank).counters r.row 0 + 1
      (∀ q, q ≠ r.row → Sparse.getD (t.bank bank).counters q 0 = Sparse.getD (s.bank bank).counters q 0) ∧
      if (s.bank bank).opened = some r.row then (t.bank bank).opened = some r.row ∧ (t.bank bank).counters = (s.bank bank).counters
      else if n < thresholdOf s bank r.row then
        (t.bank bank).opened = some r.row ∧ Sparse.getD (t.bank bank).counters r.row 0 = n ∧ (t.bank bank).backoff = false ∧
          (t.bank bank).alerts = (s.bank bank).alerts
      else
        (t.bank bank).opened = none ∧ Sparse.getD (t.bank bank).counters r.row 0 = 0 ∧ (t.bank bank).backoff = true ∧
          (t.bank bank).alerts = (s.bank bank).alerts + 1 ∧ (t.bank bank).lastrow = BitVec.ofNat 14 r.row ∧ (t.bank bank).tick = s.tick ∧
          (t.bank bank).rfms = (s.bank bank).rfms + BitVec.ofNat 32 (if r.row = 0 ∨ r.row = 12287 then 1 else 2)) ∧
  (∀ s bank, ((s.bank bank).backoff = true ∨ (s.bank bank).serving ≠ none ∨ (s.pchan (bank / 64)).compute = true ∨ (s.bank bank).queue = []) →
    takeUp s bank = s) ∧
  (∀ s line, let b := bankOf line
    (s.bank b).queue = [] → (s.bank b).backoff = false → (s.bank b).serving = none → (s.pchan (b / 64)).compute = false →
      (bankRequest s line).1 = s.nextId ∧ ((bankRequest s line).2.bank b).queue = [⟨s.nextId, line, rowOfPa line⟩] ∧
      ((bankRequest s line).2.bank b).serving = some s.nextId) ∧
  (∀ s bank i r, (s.bank bank).queue[i]? = some r →
    ((s.bank bank).serving = some r.id → exec (.hbmRequest bank i) s = .next
      (takeUp (s.setBank bank { s.bank bank with queue := (s.bank bank).queue.eraseIdx i, serving := none }) bank)) ∧
    ((s.bank bank).serving ≠ some r.id → exec (.hbmRequest bank i) s = .next s)) ∧
  (∀ s bank, exec (.backoffEnd bank) s = .next (takeUp (s.setBank bank { s.bank bank with backoff := false }) bank)) ∧
  (∀ s bank, (∃ q ∈ (s.bank bank).queue, (s.bank bank).opened = some q.row) → exec (.rowIdleClose bank) s = .next s) ∧
  (∀ s bank, (∀ q ∈ (s.bank bank).queue, (s.bank bank).opened ≠ some q.row) → ∃ t, exec (.rowIdleClose bank) s = .next t ∧
    t.bank bank = { s.bank bank with opened := none } ∧ ∀ b, b ≠ bank → t.bank b = s.bank b) ∧
  (∀ s bank row, ∃ t, exec (.periodicRefresh bank row) s = .next t ∧ (t.bank bank).opened = none ∧
    Sparse.getD (t.bank bank).counters row 0 = 0 ∧
    (∀ r, r ≠ row → Sparse.getD (t.bank bank).counters r 0 = Sparse.getD (s.bank bank).counters r 0) ∧ ∀ b, b ≠ bank → t.bank b = s.bank b) ∧
  (∀ s chan,
    ((s.pchan chan).compute = false → (s.pchan chan).queue ≠ [] → requestsWaiting s chan = false → ∃ t, exec (.phaseSwitch chan) s = .next t ∧
      t.pchan chan = { s.pchan chan with compute := true } ∧ ∀ b, b / 64 = chan → (t.bank b).opened = none) ∧
    ((s.pchan chan).compute = true → (s.pchan chan).queue = [] → ∃ t, exec (.phaseSwitch chan) s = .next (takeUpAll t chan) ∧
      t.pchan chan = { s.pchan chan with compute := false } ∧ ∀ b, b / 64 = chan → (t.bank b).opened = none) ∧
    ((s.pchan chan).compute = true → (s.pchan chan).queue ≠ [] → exec (.phaseSwitch chan) s = .next s) ∧
    ((s.pchan chan).compute = false → ((s.pchan chan).queue = [] ∨ requestsWaiting s chan = true) → exec (.phaseSwitch chan) s = .next s)) ∧
  (∀ s line bad, (s.bank (bankOf line)).serving ≠ none → exec (.hbmPatrol line bad) s = .next s) ∧
  (∀ s line bad, regionOf line = .hbm → line % 128 = 0 → (s.bank (bankOf line)).backoff = false → (s.bank (bankOf line)).serving = none →
    (s.pchan (bankOf line / 64)).compute = false → ∃ t, exec (.hbmPatrol line bad) s = .next (settleTxns t) ∧ t.hbm = s.hbm ∧ t.l2 = s.l2 ∧
      (bad ≤ 1 → t.poisoned = s.poisoned ∧ t.hbmBad = s.hbmBad) ∧ (2 ≤ bad → Sparse.find? s.l2 line = none → line ∈ t.poisoned) ∧
      (∀ x, 2 ≤ bad → Sparse.find? s.l2 line = some x → t.poisoned = s.poisoned ∧ line ∈ t.hbmBad))

/-- R347, R354 to R356, R435, R437, R440: the endurance window, the patrol of the plates, errors in the device's memories and logic, the
watchdog, a mismatch and a thermal trip, and the error log that they enter.
Readings of the model: log entries 48, 49, 50, 83, 138. -/
def Obligations.PlatesAndFailures : Prop :=
  (∀ s, s.window ≠ s.devTime.toNat / 1000000000 → Sparse.wf Plate.fresh s.plates = true → ∃ t,
    exec .enduranceWindow s = .next (settleTxns t) ∧ t.window = s.devTime.toNat / 1000000000 ∧ t.cells = s.cells ∧
    ∀ p, (t.plate p).rows = [] ∧ (t.plate p).cols = [] ∧ (t.plate p).out = (s.plate p).out ∧
      (t.plate p).wear = ((s.plate p).wear + max (mostIn (s.plate p).rows) (mostIn (s.plate p).cols)) % 2 ^ 64) ∧
  (∀ s, s.window = s.devTime.toNat / 1000000000 → exec .enduranceWindow s = .next s) ∧
  (∀ s field row, field < 128 → row < 512 → passUnderWay s field = false → Sparse.wf 0 s.directory = true →
    ((∀ e ∈ s.placed field, e.2.state = 1 → ∀ i, i < e.2.pcnt → rowSound (s.cellRow (plateKey field (e.2.first + i)) row) = true) →
      exec (.platePatrol field row) s = .next (settleTxns s)) ∧
    ∀ e ∈ s.placed field, e.2.state = 1 → (∃ i, i < e.2.pcnt ∧ rowSound (s.cellRow (plateKey field (e.2.first + i)) row) = false) → ∃ t,
      exec (.platePatrol field row) s = .next (settleTxns t) ∧ isDamaged t e.2.seq = true ∧ t.cells = s.cells) ∧
  (∀ s unit bad,
    (bad = 0 → exec (.sramScrub unit bad) s = .next s) ∧
    (bad = 1 → ∃ t, exec (.sramScrub unit bad) s = .next t ∧ t.groups = s.groups ∧ t.stands = s.stands ∧ t.hbm = s.hbm ∧ t.l2 = s.l2) ∧
    (2 ≤ bad → ∃ t, exec (.sramScrub unit bad) s = .next (settleTxns t) ∧
      ∀ n ∈ (SramUnit.of unit).victims s, ∀ st, s.stand? n = some st → ∃ st', t.stand? n = some st' ∧ st'.killed = true ∧
        st'.status = if st.status = 0 then 0x14 else st.status) ∧
    (∀ cl, 2 ≤ bad → SramUnit.of unit = .clusterCopies cl → ∃ t, exec (.sramScrub unit bad) s = .next (settleTxns t) ∧
      (t.cluster cl).tlb = [] ∧ (t.cluster cl).walk = [] ∧ t.groups = s.groups ∧ t.stands = s.stands) ∧
    (∀ w p, 2 ≤ bad → SramUnit.of unit = .worker w → s.part? w = some p → ∃ t, exec (.sramScrub unit bad) s = .next (settleTxns t) ∧
      t.part? w = some { p with stopped := true } ∧ t.groups = s.groups) ∧
    (∀ n h st tile, 2 ≤ bad → SramUnit.of unit = .tile n h → s.stand? n = some st → Sparse.find? st.tiles h = some tile → ∃ t,
      exec (.sramScrub unit bad) s = .next (settleTxns t) ∧
      (t.stand? n).bind (fun x => Sparse.find? x.tiles h) = some { tile with poison := true } ∧
      ∀ id k, s.cmd? id = some k → k.readsTile n h = true → (t.cmd? id).map (·.code) = some 0x0C)) ∧
  (∀ s core, ((∀ e ∈ s.stands, e.2.core ≠ core) → ∃ t, exec (.parityError core) s = .next t ∧ t.stands = s.stands ∧ t.groups = s.groups) ∧
    ((∃ e ∈ s.stands, e.2.core = core) → ∃ t, exec (.parityError core) s = .next t ∧
      ∃ e ∈ s.stands, e.2.core = core ∧ ∃ st, t.stand? e.1 = some st ∧ st.killed = true)) ∧
  (∀ s w p, s.part? w = some p → ∃ t, exec (.workerWatchdog w) s = .next t ∧ t.part? w = some { p with stopped := true } ∧
    t.groups = s.groups ∧ ∀ n, n ≠ w → t.part? n = s.part? n) ∧
  (∀ s, ∃ t, exec .lockstepMismatch s = .next t ∧ t.host.devst = 3 ∧ t.host.cause = 1 ∧ (∀ e ∈ t.parts, e.2.stopped = true) ∧
    (s.host.fatalvec.toNat ≤ 2047 → s.host.fatalvec.toNat ∈ t.irqs)) ∧
  (∀ s, ∃ t, exec .thermalTrip s = .next t ∧ t.host.devst = 3 ∧ t.host.cause = 2 ∧ (∀ e ∈ t.parts, e.2.stopped = true) ∧
    1760 ≤ t.host.temp.toNat ∧ (s.host.fatalvec.toNat ≤ 2047 → s.host.fatalvec.toNat ∈ t.irqs)) ∧
  (∀ s addr src sev part loc, src < 256 → sev < 4 →
    (s.host.elprod - s.host.elcons ≠ 1024 → ∃ e, Sparse.find? (logError s addr src sev part loc).errorLog (s.host.elprod.toNat % 1024) = some e ∧
      (logError s addr src sev part loc).host.elprod = s.host.elprod + 1 ∧ e.tick = s.tick ∧ e.addr.toNat = addr % 2 ^ 52 ∧
      bits e.info.toNat 0 8 = src ∧ bits e.info.toNat 8 2 = sev ∧ bits e.info.toNat 16 16 = loc % 2 ^ 16) ∧
    (s.host.elprod - s.host.elcons = 1024 → (logError s addr src sev part loc).errorLog = s.errorLog ∧
      (logError s addr src sev part loc).host.elprod = s.host.elprod ∧
      (logError s addr src sev part loc).host.ellost.toNat = min (2 ^ 64 - 1) (s.host.ellost.toNat + 1)))

/-! ### The fields -/

/-- R206, R208, R214, R333, R334: a pass goes to the command with the largest effective priority, then the earliest, then that of the lowest
core; an integer XMMA adds to each element of its tile the sum of the products along K; a command's end takes it away, decreases its completion word
and records its code; a streamed command may move to an adjacent field with its tile; and a full table holds an instruction in place.
Readings of the model: log entries 16, 17, 22, 120, 123. -/
def Obligations.FieldSteps : Prop :=
  (∀ s gid, exec (.reservationStall gid) s = .next s) ∧
  (∀ s cl, s.withheld = true → exec (.fieldPassGrant cl) s = .next s) ∧
  (∀ s cl id k st, s.withheld = false → granted s cl = some (id, k) → k.stand.bind s.stand? = some st →
    (∀ j, j < k.span → passUnderWay s (k.cluster / k.span * k.span + j) = false) →
    exec (.fieldPassGrant cl) s = .next (settleTxns (fieldPass s id k st))) ∧
  (∀ s cl id k, granted s cl = some (id, k) → (id, k) ∈ s.cmds ∧ k.ready = true ∧ grantable s cl id k = true ∧
    ∀ e ∈ s.cmds, grantable s cl e.1 e.2 = true → effOf s e.2 ≤ effOf s k ∧ (effOf s e.2 = effOf s k →
      k.since < e.2.since ∨ (k.since = e.2.since ∧ k.core ≤ e.2.core))) ∧
  (∀ k s st t i j, k.kind = .xmma → k.sat = false → t.float = false → classOf (codeOf (k.rec? 0)) = some .int →
    classOf (k.weightCode st) = some .int → i < t.m → j < t.n →
    let a (kk : Nat) : Int := valueOf (fieldWidth (codeOf (k.rec? 0))) k.asgn (k.act i kk).raw
    let w (kk : Nat) : Int := valueOf (fieldWidth (k.weightCode st)) k.wsgn (k.weightOf s st i kk j).raw
    ((Sparse.getD (multiply k s st t).1.elems (i * t.n + j) 0).toNat : Int) =
      ((Sparse.getD t.elems (i * t.n + j) 0).toInt + ((List.range (k.len / 16 * 16)).map fun kk => a kk * w kk).sum) % 2 ^ 32) ∧
  (∀ s id k pa, MayEnd s id k pa →
    (k.kind.isField = true → k.kind ≠ .pour → (∀ st, k.stand.bind s.stand? = some st → k.code = 0 → k.damaged s st = false) → ∃ t,
      exec (.fieldCommandEnd id) s = .next (settleTxns t) ∧ HasEnded s id k pa t) ∧
    (k.kind = .pour → k.pour.told = true → ∃ t, exec (.pourEnd id) s = .next (settleTxns t) ∧ HasEnded s id k pa t) ∧
    (k.kind.isField = false → k.kind ≠ .nmx → ∃ t, exec (.engineComplete id) s = .next (settleTxns t) ∧ HasEnded s id k pa t) ∧
    (k.kind = .nmx → ∃ t, exec (.nmxComplete id) s = .next (settleTxns t) ∧ HasEnded s id k pa t ∧
      (t.core k.core).nmxout = (s.core k.core).nmxout - 1)) ∧
  (∀ s id k n st t cl, s.cmd? id = some k → k.stand = some n → s.stand? n = some st → st.tile? k.hacc = some t →
    k.streamed = true → k.spanc = 0 → t.span = 1 → k.started = false → k.computed = false → k.since + 8192 ≤ s.tick.toNat →
    (∀ e ∈ s.cmds, e.1 ≠ id → e.2.stand = k.stand → e.2.accHandle ≠ some k.hacc) →
    (takesCommand s cl t.units.length = true) →
    ((k.cluster % 32 ≠ 0 ∧ cl + 1 = k.cluster) ∨ (k.cluster % 32 ≠ 31 ∧ cl = k.cluster + 1 ∧
      (k.cluster % 32 ≠ 0 → takesCommand s (k.cluster - 1) t.units.length = false))) →
    ∃ u st', exec (.commandMigration id cl) s = .next u ∧ u.cmd? id = some { k with cluster := cl } ∧ u.stand? n = some st' ∧
      st'.tile? k.hacc = some { t with home := cl, units := takeTileUnits s cl t.units.length } ∧ u.hbm = s.hbm ∧ u.groups = s.groups)

/-- R224 to R227, R231, R232, R348, R354: the prescan refuses a block or an image with its first fault and otherwise finds its pages; each gate
takes one step of the schedule, whose value is a function of its lines; a step that is made has left that value at the positions and nothing
else; a step that the governor refuses writes nothing; and the end of a pour writes RESULT.
Readings of the model: log entries 20, 23, 84, 129. -/
def Obligations.PourSteps : Prop :=
  (∀ s id k st, AtPrescan s id k st → k.passes = 0 → exec (.pourPrescan id) s = .next (ownResult s id k st)) ∧
  (∀ s id k st c, AtPrescan s id k st → k.passes ≠ 0 → k.prepared = false → k.pourCheck st = c → c ≠ 0 →
    exec (.pourPrescan id) s = .next (finishPour s id k c 0xFFFF 0)) ∧
  (∀ s id k st, AtPrescan s id k st → k.passes ≠ 0 → (k.prepared = true ∨ k.pourCheck st = 0) →
    let ws := (takeWords k 65536 k.pour.image).take 65536
    let k' : Cmd := { k with prepared := true, pour := { k.pour with image := ws } }
    let p := poolOf ws
    (∃ w ∈ ws.getLast?, isEnd w = true) →
      (∀ c i, prescan k' ws (some (ws.length - 1)) = some (c, i) → exec (.pourPrescan id) s = .next (finishPour s id k' c i 0)) ∧
      (prescan k' ws (some (ws.length - 1)) = none → exec (.pourPrescan id) s = .next (pourPages s id { k' with
        pour := Pour.advance 64 { k'.pour with axis := p.ax, base := p.base, size := p.size, allow := p.allow } } st))) ∧
  (∀ s id g k st,
    (AtGate s id 1 g k st → exec (.gNot id g) s = .next (settleTxns (pourStep s id k st 1 g))) ∧
    (AtGate s id 2 g k st → exec (.gNor2 id g) s = .next (settleTxns (pourStep s id k st 2 g))) ∧
    (AtGate s id 3 g k st → exec (.gNor3 id g) s = .next (settleTxns (pourStep s id k st 3 g))) ∧
    (AtGate s id 4 g k st → exec (.gOr2 id g) s = .next (settleTxns (pourStep s id k st 4 g))) ∧
    (AtGate s id 5 g k st → exec (.gAnd2 id g) s = .next (settleTxns (pourStep s id k st 5 g))) ∧
    (AtGate s id 6 g k st → exec (.gNand2 id g) s = .next (settleTxns (pourStep s id k st 6 g))) ∧
    (AtGate s id 7 g k st → exec (.gImp id g) s = .next (settleTxns (pourStep s id k st 7 g))) ∧
    (AtGate s id 8 g k st → exec (.gSet0 id g) s = .next (settleTxns (pourStep s id k st 8 g))) ∧
    (AtGate s id 9 g k st → exec (.gSet1 id g) s = .next (settleTxns (pourStep s id k st 9 g))) ∧
    (AtGate s id 10 g k st → exec (.gRead id g) s = .next (settleTxns (pourStep s id k st 10 g))) ∧
    (AtGate s id 11 g k st → exec (.gLoad id g) s = .next (settleTxns (pourStep s id k st 11 g)))) ∧
  (∀ (x y z old : BitVec 512) i, i < 512 →
    let a := x.getLsbD i
    let b := y.getLsbD i
    let c := z.getLsbD i
    (gateValue 1 x y z old).getLsbD i = !a ∧ (gateValue 2 x y z old).getLsbD i = !(a || b) ∧ (gateValue 3 x y z old).getLsbD i = !(a || b || c) ∧
    (gateValue 4 x y z old).getLsbD i = (a || b) ∧ (gateValue 5 x y z old).getLsbD i = (a && b) ∧ (gateValue 6 x y z old).getLsbD i = !(a && b) ∧
    (gateValue 7 x y z old).getLsbD i = (!a || old.getLsbD i) ∧ (gateValue 8 x y z old).getLsbD i = false ∧
    (gateValue 9 x y z old).getLsbD i = true) ∧
  (∀ s ax n lo hi tries imgs r ps t, (imgs.map (·.1)).Nodup → hi < 512 → n < 512 → gateStep s ax n lo hi tries imgs = (.made, r, ps, t) →
    (∀ e ∈ imgs, (∀ i, i < 512 → (t.plateLine e.1 ax n).getLsbD i =
        if lo ≤ i ∧ i ≤ hi then e.2.getLsbD i else (s.plateLine e.1 ax n).getLsbD i) ∧
      ∀ m, m < 512 → m ≠ n → t.plateLine e.1 ax m = s.plateLine e.1 ax m) ∧
    (∀ q l, l < 512 → q ∉ imgs.map (·.1) → t.cellRow q l = s.cellRow q l) ∧ t.hbm = s.hbm ∧ t.groups = s.groups) ∧
  (∀ s ax n lo hi tries imgs, tries < 3 → (∃ e ∈ imgs, (s.plate e.1).allows ax n = false) →
    gateStep s ax n lo hi tries imgs = (.held tries imgs, 0, [], s)) ∧
  (∀ s id k, s.cmd? id = some k → k.kind = .pour → k.computed = true → k.killed = false → k.pour.told = false →
    k.failedEarly = false → writesApplied s id { k with out := k.out.filter fun x => !k.withResult x } = true →
    let told (out : List Store) : Cmd := { k with out := out, pour := { k.pour with told := true } }
    (∀ x, poisonedResult s k = some x → exec (.pourEnd id) s = .next (failCmd s id k 0x0E x.va)) ∧
    (∀ line n ps, poisonedResult s k = none → k.places = (line, n) :: ps →
      exec (.pourEnd id) s = .next (s.putCmd id (told (k.resultStore (line + k.resultAt % 128))))) ∧
    (∀ pa u, poisonedResult s k = none → k.places = [] → k.reach s k.resultAt .wr = (.found pa, u) →
      exec (.pourEnd id) s = .next (u.putCmd id (told (k.resultStore pa))))) ∧
  (∀ s id k, s.cmd? id = some k → k.kind = .pour → k.computed = true → k.killed = false → k.pour.told = false → k.failedEarly = true →
    exec (.pourEnd id) s = .next (finishPour s id k k.endingOf.1 k.endingOf.2.1 k.endingOf.2.2)) ∧
  (∀ k : Cmd, ∀ pa, pa % 8 = 0 → ∃ x, k.resultStore pa = [x] ∧ x.line = .mem (pa / 128 * 128) ∧
    lineBytes x.data (pa % 128) 8 = k.resultWord % 2 ^ 64 ∧ ∀ i, i < 16 → x.mask.getLsbD (2 * (pa % 128) + i) = true)

/-! ### The engines and the debugger -/

/-- R242, R247, R248, R269, R273, R302: an agent owns its destination lines, or waits; it reads a line, and writes a line and lets it go; a
collective takes a member's contribution and fails when they disagree; the walker arms a node and answers; and the head of a phase queue is
performed in one step.
Readings of the model: log entries 24, 117. -/
def Obligations.EngineSteps : Prop :=
  (∀ s id k line, s.cmd? id = some k → k.computed = false → k.toRead = [] → k.toOwn ≠ [] →
    ((∃ pa ∈ k.toOwn, ∃ o, Sparse.find? s.owners pa = some o ∧ o ≠ id) → exec (.engineOwn id line) s = .next s) ∧
    ((∀ pa ∈ k.toOwn, Sparse.find? s.owners pa = none ∧ parkedFor s pa = []) →
      (∀ h, h < 128 → ownedIn s h + (k.toOwn.filter fun pa => regionOf pa == .hbm && sliceOf pa == h).length ≤ 4096) → ∃ t,
      exec (.engineOwn id line) s = .next t ∧ t.cmd? id = some { k with toOwn := [] } ∧ t.hbm = s.hbm ∧ t.l2 = s.l2 ∧
        (∀ pa ∈ k.toOwn, Sparse.find? t.owners pa = some id) ∧
        ∀ pa, pa ∉ k.toOwn → Sparse.find? t.owners pa = Sparse.find? s.owners pa)) ∧
  (∀ s id k line pa, s.cmd? id = some k → k.toOwn = [] → line ∈ k.toRead → k.map.find? (fun e => e.1 == line) = some (line, pa) →
    regionOf pa = .hbm → agentBlocked s id pa = false →
    (pa ∈ s.poisoned → exec (.engineRead id line) s = .next (failCmd s id k 0x0E line)) ∧
    (pa ∉ s.poisoned → ∃ t, exec (.engineRead id line) s = .next t ∧ t.cmd? id = some (k.took line (homeLine s pa)) ∧ t.groups = s.groups ∧
      t.pads = s.pads ∧ (SlicesCoherent s → ∀ n, homeLine t (128 * n) = homeLine s (128 * n)))) ∧
  (∀ s id k line x pa, (s.cmd? id).map Cmd.forWriting = some k → k.computed = true → k.withResult x = false →
    (k.kind = .pour → k.killed = true → k.cut = true) → poisonedImage s k x = false → k.out.find? (fun x => x.line.key == line) = some x → x.line = .mem pa → regionOf pa = .hbm → pa % 128 = 0 →
    (∀ o, Sparse.find? s.owners pa = some o → o = id) → SlicesCoherent s → ∃ t, exec (.engineWrite id line) s = .next (settleTxns t) ∧
      homeLine t pa = mergeLine (homeLine s pa) x.data x.mask ∧ (∀ n, 128 * n ≠ pa → homeLine t (128 * n) = homeLine s (128 * n)) ∧
      t.pads = s.pads ∧ t.cmd? id = some { k with out := k.out.erase x, wrote := k.wrote ++ [x.va / 128 * 128] } ∧
      ((∀ y ∈ k.out.erase x, y.line ≠ x.line) → ∀ e ∈ t.owners, e.1 = pa → e.2 ≠ id)) ∧
  (∀ s id k rank c, s.cmd? id = some k → k.kind = .coll → k.started = true → k.computed = false →
    s.mailbox.find? (fun c => c.tag == k.tag && c.rank == rank && c.members == k.members) = some c →
    (∀ d ∈ k.contributions, d.rank ≠ rank) →
    let k' : Cmd := { k with contributions := k.contributions ++ [c] }
    let s' : State := tell { s with mailbox := s.mailbox.erase c } hubDie (k.cluster / 32)
    ((k'.contributions.length = k.teamSize ∧ ∃ d ∈ k'.contributions, d.descriptor ≠ c.descriptor) →
      exec (.collContributionArrival id rank) s = .next (failCmd s' id k' 0x21 0)) ∧
    (¬ (k'.contributions.length = k.teamSize ∧ ∃ d ∈ k'.contributions, d.descriptor ≠ c.descriptor) →
      exec (.collContributionArrival id rank) s = .next (s'.putCmd id k'))) ∧
  (∀ s id a pa ws u g, s.arming.find? (fun a => a.id == id) = some a → a.loc = some (.mem pa) → regionOf pa = .hbm →
    pa % 64 = 0 → readRecord s (a.gid / 64) (.mem pa) = (.words ws, u) → badNode ws = false → (∀ n ∈ u.nodes, n.part = a.part → n.pa ≠ pa) →
    (u.nodes.filter fun n => n.part == a.part).length < 4096 → homeBusy u (.mem pa) = false → 0 < signedOf 64 (readHome u (.mem pa) 8) →
    Sparse.find? u.groups a.gid = some g → g.retired = false → g.stand = a.stand → ∃ t g',
      exec (.nodeArm id) s = .next (settleTxns t) ∧ t.nodes = u.nodes ++ [⟨pa, a.va, a.part, a.asn, some a.stand, false⟩] ∧
      (∀ x ∈ t.arming, x.id ≠ id) ∧ Sparse.find? t.groups a.gid = some g' ∧
      g'.preg a.d = { val := BitVec.allOnes 256, full := true } ∧ readHome t (.mem (pa + 0x18)) 8 = 1) ∧
  (∀ s id a, s.arming.find? (fun a => a.id == id) = some a → a.loc = none →
    (∀ pa u, clusterAddr s (a.gid / 256) a.part a.asn a.va .rd = (.found pa, u) →
      exec (.nodeArm id) s = .next { u with arming := u.arming.map fun x => if x.id == a.id then { x with loc := some (.mem pa) } else x }) ∧
    (∀ u, clusterAddr s (a.gid / 256) a.part a.asn a.va .rd = (.lost, u) → exec (.nodeArm id) s = .next (failNode u a 0x0B))) ∧
  (∀ s a code g, Sparse.find? s.groups a.gid = some g → g.retired = false → g.stand = a.stand → ∃ g',
    Sparse.find? (failNode s a code).groups a.gid = some g' ∧ g'.preg a.d = { val := 0, full := true } ∧
      ((failNode s a code).stand? a.stand).map (·.engine) = (s.stand? a.stand).map fun st => st.engine.note code 6 a.va) ∧
  (∀ s chan id rest k, (s.pchan chan).queue = id :: rest → (s.pchan chan).compute = true → s.cmd? id = some k →
    let locals := k.map.filterMap fun e => if isRemote (.mem e.2) then none else some e.2
    let ins := linesAt k.rangeElems
    let outs := if k.nmxOut == 0 then [] else linesAt k.outElems
    let elem (i : Nat) : Nat := ((k.rangeElems[i]?).map fun a => f32Fmt.ofValue 0 (valOf k.fmtn (readHome s (.mem a) k.size))).getD 0
    let seed (i : Nat) : Nat := f32Fmt.ofValue 0 (valOf k.fmtn ((seedFor s id k (s.pchan chan)).seed k i))
    (k.passes < ins.length → (s.bank (bankOf (ins.getD k.passes 0))).backoff = true →
      exec (.phaseQueuePerform chan) s = .next (s.putCmd id k)) ∧
    (ins.length ≤ k.passes → (∀ l ∈ ins ++ outs ++ locals, agentBlocked s id l = false) →
      ((∃ l ∈ ins ++ locals, l ∈ s.poisoned) →
        exec (.phaseQueuePerform chan) s = .next (settleTxns (failCmd (leavePhase s chan) id k 0x0E 0))) ∧
      ((∀ l ∈ ins ++ locals, l ∉ s.poisoned) → ins.length + outs.length ≤ k.passes → SlicesCoherent s → ∃ u, u.groups = s.groups ∧ u.pads = s.pads ∧
        (∀ n, homeLine u (128 * n) = homeLine s (128 * n)) ∧ u.cmd? id = some { k with computed := true } ∧ (u.pchan chan).queue = rest ∧
        exec (.phaseQueuePerform chan) s =
          .next (settleTxns ((nmxStores k (nmxValues k elem seed)).foldl (fun s x => applyStore s none x) u)))))

/-- R38, R419 to R421, R425 to R427: the debugger's commands claim, release, stop, resume, step, dump and load a group, or are refused with CAUSE 6;
a breakpoint stops its group; a sample writes a record; the precise stop gates the clocks; and a snapshot latches the counters.
Readings of the model: log entries 12, 44, 54, 114, 149, 173. -/
def Obligations.Debugging : Prop :=
  (∀ s part value g la,
    (Commands s part 1 value g la → g.dbg.claimed = false → claimedCount s part < 16 → ∃ t,
      exec (.dbgClaim part value) s = .next (settleTxns t) ∧
      Sparse.find? t.groups (dbgGroup value) = some { g with dbg := { GroupDebug.none with claimed := true } } ∧
      (t.part? part).map (fun p => bits p.dbg.dbgst.toNat 0 2) = some 1) ∧
    (Commands s part 2 value g la → g.dbg.claimed = true → g.dbg.stopped = false → ∃ t,
      exec (.dbgRelease part value) s = .next (settleTxns t) ∧
      Sparse.find? t.groups (dbgGroup value) = some { g with dbg := { GroupDebug.none with skip := g.dbg.skip } }) ∧
    (Commands s part 3 value g la → g.dbg.claimed = true → g.dbg.stopped = false → ∃ t,
      exec (.dbgStop part value) s = .next (settleTxns t) ∧
      Sparse.find? t.groups (dbgGroup value) = some { g with preempt := true, dbg := { g.dbg with request := true } }) ∧
    (Commands s part 4 value g la → g.dbg.stopped = true → g.dbg.cause ≠ 3 → ∃ t g',
      exec (.dbgResume part value) s = .next (settleTxns t) ∧ Sparse.find? t.groups (dbgGroup value) = some g' ∧ g'.dbg.stopped = false ∧
      g'.dbg.step = none ∧ g'.v = g.v ∧ g'.p = g.p ∧ g'.m = g.m ∧ g'.x = g.x ∧ g'.slotA = g.slotA ∧ g'.slotB = g.slotB) ∧
    (Commands s part 5 value g la → g.dbg.stopped = true → g.dbg.cause ≠ 3 → (g.slot (value.getLsbD 20)).st.live = true →
      (g.returnedRun = true → ∀ r, g.susp = some r → r.slotB = value.getLsbD 20) → ∃ t g',
      exec (.dbgStep part value) s = .next (settleTxns t) ∧ Sparse.find? t.groups (dbgGroup value) = some g' ∧ g'.dbg.stopped = false ∧
      g'.dbg.step = some (value.getLsbD 20) ∧ g'.v = g.v ∧ g'.p = g.p ∧ g'.m = g.m ∧ g'.x = g.x) ∧
    (Commands s part 6 value g la → g.dbg.stopped = true → regionOf (dumpBuffer s part) = .hbm → SlicesCoherent s → ∃ t,
      exec (.dbgDump part value) s = .next (settleTxns t) ∧
      hubRead t (dumpBuffer s part) (g.record la).1 = (g.record la).2 % 2 ^ (8 * (g.record la).1)) ∧
    (Commands s part 7 value g la → g.dbg.stopped = true → ∀ head x u w,
      hubBytes (nameGroup s part (dbgGroup value)) (65 + part) (dumpBuffer s part) 16 = (.ok head, u) →
      hubBytes u (65 + part) (dumpBuffer s part) (min (bits head 0 32 * 16) recordMax) = (.ok x, w) → recBad x la = false → ∃ t,
      exec (.dbgLoad part value) s = .next (settleTxns t) ∧ Sparse.find? t.groups (dbgGroup value) = some (g.reloaded la x))) ∧
  (∀ s part value g la, let refused := endDebug (setDbgst (nameGroup s part (dbgGroup value)) part (dbgGroup value) 6) part value
    (Commands s part 1 value g la → (g.dbg.claimed = true ∨ 16 ≤ claimedCount s part) → exec (.dbgClaim part value) s = .next refused) ∧
    (Commands s part 2 value g la → g.dbg.claimed = false → exec (.dbgRelease part value) s = .next refused) ∧
    (Commands s part 3 value g la → (g.dbg.claimed = false ∨ g.dbg.stopped = true) → exec (.dbgStop part value) s = .next refused) ∧
    (Commands s part 4 value g la → g.dbg.stopped = false → exec (.dbgResume part value) s = .next refused) ∧
    (Commands s part 5 value g la → (g.dbg.stopped = false ∨ (g.slot (value.getLsbD 20)).st.live = false ∨
        (g.returnedRun = true ∧ ∃ r, g.susp = some r ∧ r.slotB ≠ value.getLsbD 20)) →
      exec (.dbgStep part value) s = .next refused) ∧
    (Commands s part 6 value g la → g.dbg.stopped = false → exec (.dbgDump part value) s = .next refused) ∧
    (Commands s part 7 value g la → g.dbg.stopped = false → exec (.dbgLoad part value) s = .next refused)) ∧
  (∀ s part value g la,
    (Commands s part 4 value g la → g.dbg.stopped = true → resumable (nameGroup s part (dbgGroup value)) (dbgGroup value) g = false →
      exec (.dbgResume part value) s = .next (awaitDebug (nameGroup s part (dbgGroup value)) part value)) ∧
    (Commands s part 7 value g la → g.dbg.stopped = true → ∀ u,
      hubBytes (nameGroup s part (dbgGroup value)) (65 + part) (dumpBuffer s part) 16 = (.wait, u) →
      exec (.dbgLoad part value) s = .next (awaitDebug u part value)) ∧
    (∀ p v, s.part? part = some p → p.dbg.pending.head? = some v → v ≠ value → dbgOp value = 1 →
      exec (.dbgClaim part value) s = .next (awaitDebug s part value)) ∧
    (∀ p, s.part? part = some p → ((awaitDebug s part value).part? part).map (·.dbg.pending) =
      some (if p.dbg.pending.head? = some value then p.dbg.pending else p.dbg.pending ++ [value]))) ∧
  (∀ s gid b g st la p, seatOf s gid = some (g, st, la) → s.part? st.part = some p → groupActs s gid = true → g.stands b = true →
    (g.slot b).run.isSome = true → setFull g (g.slot b) = true → g.dbg.claimed = true → breakpointAt p.dbg (g.slot b).st.pc = true →
    (g.slot b).st.pc ∉ g.dbg.skip → (∀ x, g.dbg.step = some x → x = b) → ∃ t g', exec (.hwBreakpoint gid b) s = .next t ∧
      Sparse.find? t.groups gid = some g' ∧ g'.dbg.stopped = true ∧ g'.dbg.cause = 2 ∧ g'.v = g.v ∧ g'.p = g.p ∧ g'.slotA = g.slotA ∧
      g'.slotB = g.slotB) ∧
  (∀ s core sched part p, partOfCore s core = some part → s.part? part = some p → sched < 4 → samplePeriod p.dbg ≠ 0 →
    s.tick.toNat % samplePeriod p.dbg = 0 → Sparse.getD (s.core core).sampled (4 + sched) 0 ≠ s.tick.toNat + 1 →
    (∀ gid, nextSample s core sched (Sparse.getD (s.core core).sampled sched 0) = some gid → seatOf s gid ≠ none) → ∃ u r,
      exec (.pcSample core sched) s = .next (settleTxns (trace u part r)) ∧ u.groups = s.groups ∧ u.hbm = s.hbm ∧ u.parts = s.parts ∧
      r.core = core ∧ Sparse.getD (u.core core).sampled (4 + sched) 0 = s.tick.toNat + 1 ∧
      ((nextSample s core sched (Sparse.getD (s.core core).sampled sched 0) = none → r.kind = 2 ∧ r.sched = sched ∧ r.word = 2 ^ 64 - 1) ∧
       ∀ gid g st la, nextSample s core sched (Sparse.getD (s.core core).sampled sched 0) = some gid → seatOf s gid = some (g, st, la) →
         r = sampleGroup s gid g st la)) ∧
  (∀ s, (s.host.stopArmed = true → s.tick = s.host.stoptick → exec .preciseStop s =
      .next { s with host := { s.host with stopArmed := false, stopped := true } }) ∧
    ((s.host.stopArmed = false ∨ s.tick ≠ s.host.stoptick) → exec .preciseStop s = .next s)) ∧
  (∀ s part p, s.part? part = some p →
    ((p.dbg.pmtick = 0 ∨ p.dbg.pmtick ≠ s.tick) → exec (.pmSnapshot part) s = .next s) ∧
    (p.dbg.pmtick ≠ 0 → p.dbg.pmtick = s.tick →
      let ws := snapshotWords s p
      let at' := bits p.dbg.pmaddr.toNat 12 40 * 4096
      ∃ t, exec (.pmSnapshot part) s = .next (settleTxns t) ∧ (t.part? part).map (·.dbg) = some { p.dbg with pmtick := 0 } ∧
        (regionOf at' = .hbm → SlicesCoherent s → ∀ i, i < ws.length → hubRead t (at' + 8 * i) 8 = ws.getD i 0 % 2 ^ 64)))

/-! ### Reset, decoding and the whole machine -/

/-- R37, R393, R394, R418, R431: what reset leaves in the registers of the host page, the device debug page and the ports, what a launch
leaves in a group, and what the creation of a partition leaves in its port and debug pages; nothing is resident and no partition exists. No
memory lists a byte: that what is not listed reads as zero is the model's choice (log entry 3).
Readings of the model: log entries 3, 4, 5. -/
def Obligations.ResetState : Prop :=
  (let h := State.reset.host
   h.devst = 0 ∧ h.cause = 0 ∧ h.rlsize = 0 ∧ h.nodeid = 0 ∧ h.pwrcap = 1500 ∧ h.elprod = 0 ∧ h.elcons = 0 ∧ h.ellost = 0 ∧ h.attst = 0 ∧
   h.attaddr = 0 ∧ h.herrvec = 0xFFFF ∧ h.fatalvec = 0xFFFF ∧ h.pdaddr = 0 ∧ h.pdst = 0 ∧ h.stoptick = 0 ∧ h.stopped = false) ∧
  Canonical State.reset ∧ State.reset.hbm = [] ∧ State.reset.pads = [] ∧ State.reset.parts = [] ∧ State.reset.groups = [] ∧ State.reset.stands = [] ∧ State.reset.launches = [] ∧
  (∀ off, off < 65536 → readRegister State.reset 0 off = if off = 0x020 then 1500 else if off = 0x098 ∨ off = 0x0A0 then 0xFFFF else 0) ∧
  (∀ la stand sched number wid spawnid entry, let g := newGroup la stand sched number wid spawnid entry
    (∀ n, g.vreg n = { val := 0, tag := .u, full := true }) ∧ (∀ n, g.preg n = { val := 0, full := true }) ∧
    (∀ n, (g.mreg n).rows = 6 ∧ (g.mreg n).cols = 6 ∧ (g.mreg n).full = true ∧ ∀ l i j, l < 32 → i < 6 → j < 6 → ((g.mreg n).lane l).at' i j = 0) ∧
    (∀ n, (g.xreg n).valid = false ∧ (g.xreg n).vbase = 0 ∧ (g.xreg n).pbase = 0 ∧ (g.xreg n).limit = 0) ∧
    g.slotA.st = { pc := entry, mask := BitVec.allOnes 32, live := true } ∧ g.slotB.st.live = false ∧ g.dsp = 0 ∧ g.snap.head = entry ∧
    g.trap = TrapCtx.zero ∧ g.txn = none) ∧
  (∀ s d, let p := newPartition s d
    p.prqc = 0 ∧ p.prqp = 0 ∧ p.sdstat = 0 ∧ p.prqvec = 0xFFFF ∧ p.perrvec = 0xFFFF ∧ p.dbg = DebugPage.reset ∧ p.booted = false)

/-- R76, R98, R258: a step takes the turn that is next. A turn of a scheduler whose group stands in a run at a word that decodes is the meaning
of that instruction with the group named as the issuing one, the instruction then being counted; an event is its meaning with no group
named; and an instruction put in place of a load runs in the very next step. Either way transactions that a write of the step has flagged abort at
its end.
Readings of the model: log entries 1, 15. -/
def Obligations.StepRunsDecodedInstruction : Prop :=
  (∀ (r : Run) w ext i rest, r.words.getD r.pos 0 = w → r.words.getD (r.pos + 1) 0 = ext →
    decode (leBytes 8 w.toNat ++ leBytes 8 ext.toNat) = .ok (i, rest) → r.instr = some i) ∧
  (∀ s core sched rest gid g r i, s.agenda = .issue core sched :: rest →
    let u := ageSlots (cycleWork { s with agenda := rest })
    stopDue u = false → u.host.stopped = false → u.withheld = false → coreStopped u core = false → inIssue u core sched = some (gid, g, r) →
    Sparse.find? u.groups gid = some g → (g.preempt && !r.committed) = false → r.instr = some i →
    step s = settled (match exec i { u with issuer := some gid } with
      | .next t => .next (countIssue i gid u t)
      | o => o)) ∧
  (∀ s i rest, s.agenda = .event i :: rest →
    let u := ageSlots (cycleWork { s with agenda := rest })
    stopDue u = false → u.host.stopped = false → isEvent i = true → step s = settled (exec i { u with issuer := none })) ∧
  (∀ (s : State) nbits w i, decodeTableWord nbits w = some i → s.host.stopped = false → s.host.stopArmed = false →
    (∀ e ∈ s.parts, e.2.dbg.pmtick = 0 ∧ samplePeriod e.2.dbg = 0 ∧ e.2.dbg.pending = [] ∧ e.2.booting = false) → ∃ u c, u.hbm = s.hbm ∧ u.pads = s.pads ∧ running { u with issuer := some 0 } = some c ∧
      c.gid = 0 ∧ c.r.instr = some i ∧ step (s.withFetchWord nbits w) = settled (match exec i { u with issuer := some 0 } with
        | .next t => .next (countIssue i 0 u t)
        | o => o))

/-- R76 to R86: words of several families, written out from the encodings of the spec, decode to the instructions that they stand for. -/
def Obligations.WordsDecode : Prop :=
  let o : Ops := { d := .none, a := .none, b := .none, c := .none, ea := false, eb := false, ec := false, pred := 0, pn := false, fmt := .b64,
                   mod := 0, ext := none }
  let t : Trail := { d := .none, a := .none, ea := false, pub := 0, pred := 0, pn := false, tgt := 0, rcv := 0 }
  decodeTableWord 64 0x1804080503C70000 = some (.lea { o with d := .reg (.v 8), a := .reg (.v 5), b := .reg (.v 3), c := .reg (.imm 0x47) }) ∧
  decodeTableWord 64 0x1C03030102040070 =
    some (.ffma { o with d := .reg (.v 3), a := .reg (.v 1), b := .reg (.v 2), c := .reg (.v 4), fmt := .f32 }) ∧
  decodeTableWord 64 0x3802006108C10000 = some (.st { o with a := .reg (.x 1), b := .reg (.v 8), c := .reg (.imm 0x41) }) ∧
  decodeTableWord 64 0x4000050000000603 = some (.fence { o with d := .scope .dev, pred := 3, mod := 3 }) ∧
  decodeTableWord 64 0x34025B595A000570 =
    some (.msolve { o with d := .reg (.m 3), a := .reg (.m 1), b := .reg (.m 2), pred := 2, pn := true, fmt := .f32 }) ∧
  decodeTableWord 64 0x540200C500000000 = some (.trap { o with a := .reg (.imm 0x45) }) ∧
  decodeTableWord 64 0x0400030000000368 = some (.run { ws := 0x368, livein := 0 }) ∧
  decodeTableWord 64 0x0800000000180000 = some (.endFall { t with pub := 0x18 })

/-- R76 to R91: decoding the bytes of an instruction's words gives the instruction and the bytes after it, for every well-formed instruction
that has words and every operand that its encoding admits.
Readings of the model: log entries 59, 60, 61. -/
def Obligations.DecodeInvertsEncode : Prop :=
  ∀ i : Instr, i.wf = true → encode i ≠ [] → ∀ rest,
    decode ((encode i).flatMap (fun w => leBytes 8 w.toNat) ++ rest) = .ok (i, rest)

/-- Every step keeps the memories in canonical form, so that equal memories are equal data (the form is the model's, log entry 3).
Readings of the model: log entry 3. -/
def Obligations.StepKeepsCanonical : Prop := ∀ s t, Canonical s → step s = .next t → Canonical t
end

