-- ==== Sys2Proof/Laws/Bits.lean ====
section
/-! SUPPORT. Reading back what the packing functions build: elements of lanes, of matrix registers, and predicate bits. -/

namespace Sys2Proof.Machine

theorem packElems_lt (w : Nat) (f : Nat → Nat) : ∀ n, packElems w f n < 2 ^ (w * n)
  | 0 => by simp [packElems]
  | n + 1 => by
    have h := packElems_lt w f n
    have hm : f n % 2 ^ w < 2 ^ w := Nat.mod_lt _ (Nat.two_pow_pos w)
    have e : 2 ^ (w * (n + 1)) = 2 ^ w * 2 ^ (w * n) := by rw [Nat.mul_succ, Nat.pow_add, Nat.mul_comm]
    have : (f n % 2 ^ w + 1) * 2 ^ (w * n) ≤ 2 ^ w * 2 ^ (w * n) := Nat.mul_le_mul_right _ hm
    simp only [packElems]
    rw [e]
    rw [Nat.add_mul] at this
    omega

theorem packElems_elem (w : Nat) (f : Nat → Nat) (n e : Nat) (h : e < n) :
    packElems w f n / 2 ^ (w * e) % 2 ^ w = f e % 2 ^ w := by
  induction n with
  | zero => omega
  | succ n ih =>
    simp only [packElems]
    by_cases he : e = n
    · subst he
      rw [Nat.add_mul_div_right _ _ (Nat.two_pow_pos _), Nat.div_eq_of_lt (packElems_lt w f e), Nat.zero_add, Nat.mod_mod]
    · have hlt : e < n := by omega
      have e1 : w * n = w * e + (w + w * (n - e - 1)) := by
        have : n = e + (1 + (n - e - 1)) := by omega
        rw [this, Nat.mul_add, Nat.mul_add]
        simp
      rw [e1, Nat.pow_add, Nat.pow_add,
        show f n % 2 ^ w * (2 ^ (w * e) * (2 ^ w * 2 ^ (w * (n - e - 1)))) =
          2 ^ w * (2 ^ (w * (n - e - 1)) * (f n % 2 ^ w)) * 2 ^ (w * e) by
            simp only [Nat.mul_comm, Nat.mul_left_comm],
        Nat.add_mul_div_right _ _ (Nat.two_pow_pos _), Nat.add_mul_mod_self_left]
      exact ih hlt

/-- Element `e` of a register built from a function (R40). -/
theorem elem_ofElems (w : Nat) (f : Nat → Nat) (e : Nat) (h : e < elemCount w) : elem (ofElems w f) w e = f e % 2 ^ w := by
  unfold elem ofElems
  rw [BitVec.toNat_ofNat]
  have hb : 2 ^ (w * elemCount w) ≤ 2 ^ 2048 := Nat.pow_le_pow_right (by decide) (Nat.mul_div_le 2048 w)
  rw [Nat.mod_eq_of_lt (Nat.lt_of_lt_of_le (packElems_lt w f _) hb)]
  exact packElems_elem w f _ e h

theorem elem_lt (v : Lanes) (w e : Nat) : elem v w e < 2 ^ w := Nat.mod_lt _ (Nat.two_pow_pos w)

/-- An element that is computed where it is active and kept where it is not (R115). -/
theorem elem_mapActive (g : Guard) (w : Nat) (old : Lanes) (f : Nat → Nat) (e : Nat) (h : e < elemCount w) :
    elem (mapActive g w old f) w e = if g.active w e then f e % 2 ^ w else elem old w e := by
  unfold mapActive
  rw [elem_ofElems w _ e h]
  split
  · rfl
  · exact Nat.mod_eq_of_lt (elem_lt old w e)

theorem packPred_lt (f : Nat → Bool) : ∀ n, packPred f n < 2 ^ n
  | 0 => by simp [packPred]
  | n + 1 => by
    have h := packPred_lt f n
    simp only [packPred]
    rw [Nat.pow_succ]
    split <;> omega

theorem packPred_testBit (f : Nat → Bool) (n i : Nat) (h : i < n) : (packPred f n).testBit i = f i := by
  induction n with
  | zero => omega
  | succ n ih =>
    simp only [packPred]
    by_cases hi : i = n
    · subst hi
      cases hf : f i
      · simpa using Nat.testBit_lt_two_pow (packPred_lt f i)
      · simp only [if_true]
        rw [Nat.add_comm, Nat.testBit_two_pow_add_eq, Nat.testBit_lt_two_pow (packPred_lt f i)]
        rfl
    · have hlt : i < n := by omega
      rw [← ih hlt]
      split
      · rw [Nat.add_comm, Nat.testBit_two_pow_add_gt hlt]
      · simp

/-- Bit `i` of a predicate built from a function (R19). -/
theorem getLsbD_ofPred (f : Nat → Bool) (i : Nat) (h : i < 256) : (ofPred f).getLsbD i = f i := by
  unfold ofPred
  simp only [BitVec.getLsbD, BitVec.toNat_ofNat]
  rw [Nat.mod_eq_of_lt (packPred_lt f 256), packPred_testBit f 256 i h]

/-- A predicate bit that a comparison writes (R121). -/
theorem getLsbD_mapPred (g : Guard) (w : Nat) (old : PredBits) (f : Nat → Bool) (i : Nat) (h : i < 256) :
    (mapPred g w old f).getLsbD i = if g.active w (8 * i / w) then f (8 * i / w) else old.getLsbD i := by
  unfold mapPred
  rw [getLsbD_ofPred _ i h]

theorem packMat_lt (f : Nat → Nat → Nat) : ∀ n, packMat f n < 2 ^ (32 * n)
  | 0 => by simp [packMat]
  | n + 1 => by
    have h := packMat_lt f n
    have hm : f (n / 36) (n % 36) % 2 ^ 32 < 2 ^ 32 := Nat.mod_lt _ (Nat.two_pow_pos 32)
    have : (f (n / 36) (n % 36) % 2 ^ 32 + 1) * 2 ^ (32 * n) ≤ 2 ^ 32 * 2 ^ (32 * n) := Nat.mul_le_mul_right _ hm
    simp only [packMat]
    rw [Nat.mul_succ, Nat.pow_add, Nat.mul_comm (2 ^ (32 * n))]
    rw [Nat.add_mul] at this
    omega

theorem packMat_eq (f : Nat → Nat → Nat) : ∀ n, packMat f n = packElems 32 (fun k => f (k / 36) (k % 36)) n
  | 0 => rfl
  | n + 1 => by simp only [packMat, packElems, packMat_eq f n]

/-- The element at position `q` of lane `l` of a matrix register built from a function (R20). -/
theorem mElem_ofMat (f : Nat → Nat → Nat) (l q : Nat) (hl : l < 32) (hq : q < 36) : mElem (ofMat f) l q = f l q % 2 ^ 32 := by
  unfold mElem ofMat
  rw [BitVec.toNat_ofNat, packMat_eq, Nat.mod_eq_of_lt (packElems_lt 32 _ 1152), packElems_elem 32 _ 1152 (36 * l + q) (by omega)]
  have h1 : (36 * l + q) / 36 = l := by omega
  have h2 : (36 * l + q) % 36 = q := by omega
  simp only [h1, h2]

end Sys2Proof.Machine
end

