-- ==== Sys2Proof/Laws/Sparse.lean ====
section
/-! SUPPORT. Finite maps and memory: a read after a write, what a write leaves alone, and that every memory operation keeps the
canonical form. -/

namespace Sys2Proof.Machine

variable {α : Type}

/-! ### Reading after writing -/

@[simp] theorem find?_insert_self (m : Sparse α) (n : Nat) (x : α) : Sparse.find? (Sparse.insert m n x) n = some x := by
  induction m with
  | nil => simp [Sparse.insert, Sparse.find?]
  | cons e m ih =>
    obtain ⟨k, y⟩ := e
    simp only [Sparse.insert]
    split
    · simp [Sparse.find?]
    · split
      · simp [Sparse.find?]
      · rename_i h _
        have : (k == n) = false := by simp at h ⊢; omega
        simp [Sparse.find?, this, ih]

theorem find?_insert_ne (m : Sparse α) {n k : Nat} (x : α) (h : k ≠ n) :
    Sparse.find? (Sparse.insert m n x) k = Sparse.find? m k := by
  have hn : (n == k) = false := by simp; omega
  induction m with
  | nil => simp [Sparse.insert, Sparse.find?, hn]
  | cons e m ih =>
    obtain ⟨j, y⟩ := e
    simp only [Sparse.insert]
    split
    · rename_i hj
      have : (j == k) = false := by simp at hj ⊢; omega
      simp [Sparse.find?, hn, this]
    · split
      · simp [Sparse.find?, hn]
      · simp only [Sparse.find?, ih]

theorem find?_insert (m : Sparse α) (n k : Nat) (x : α) :
    Sparse.find? (Sparse.insert m n x) k = if k = n then some x else Sparse.find? m k := by
  split
  · subst k; simp
  · exact find?_insert_ne m x ‹_›

theorem find?_erase (m : Sparse α) (n k : Nat) :
    Sparse.find? (Sparse.erase m n) k = if k = n then none else Sparse.find? m k := by
  unfold Sparse.erase
  induction m with
  | nil => simp [Sparse.find?]
  | cons e m ih =>
    obtain ⟨j, y⟩ := e
    by_cases hj : j = n
    · subst hj
      have : ((j != j) = true) = False := by simp
      simp only [List.filter, Sparse.find?, bne_self_eq_false, ih]
      split
      · rfl
      · have : (j == k) = false := by simp; omega
        simp [this]
    · have : (j != n) = true := by simp [hj]
      simp only [List.filter, this, Sparse.find?, ih]
      by_cases hk : j = k
      · subst hk; simp [hj]
      · simp [hk]

theorem find?_modify (m : Sparse α) (n k : Nat) (f : α → α) :
    Sparse.find? (Sparse.modify m n f) k = if k = n then (Sparse.find? m k).map f else Sparse.find? m k := by
  induction m with
  | nil => simp [Sparse.modify, Sparse.find?]
  | cons e m ih =>
    obtain ⟨j, y⟩ := e
    simp only [Sparse.modify, List.map_cons] at ih ⊢
    by_cases hj : j = n
    · subst hj
      simp only [beq_self_eq_true, if_true, Sparse.find?, ih]
      by_cases hk : j = k
      · subst hk; simp
      · have : (j == k) = false := by simp [hk]
        simp [this]
    · have hj' : (j == n) = false := by simp [hj]
      simp only [hj', Sparse.find?, ih, Bool.false_eq_true, if_false]
      by_cases hk : j = k
      · subst hk; simp [hj]
      · have : (j == k) = false := by simp [hk]
        simp [this]

theorem getD_set [DecidableEq α] (m : Sparse α) (n k : Nat) (x d : α) :
    Sparse.getD (Sparse.set m n x d) k d = if k = n then x else Sparse.getD m k d := by
  unfold Sparse.getD Sparse.set
  split
  · rename_i hx
    rw [find?_erase]
    split
    · simp [hx]
    · rfl
  · rw [find?_insert]
    split <;> simp

@[simp] theorem getD_set_self [DecidableEq α] (m : Sparse α) (n : Nat) (x d : α) : Sparse.getD (Sparse.set m n x d) n d = x := by
  simp [getD_set]

theorem getD_set_ne [DecidableEq α] (m : Sparse α) {n k : Nat} (x d : α) (h : k ≠ n) :
    Sparse.getD (Sparse.set m n x d) k d = Sparse.getD m k d := by
  simp [getD_set, h]

/-! ### The canonical form -/

/-- Whether a key lies above a bound. -/
def above (lo : Option Nat) (k : Nat) : Bool := match lo with
  | none => true
  | some l => decide (l < k)

theorem wfAbove_cons [DecidableEq α] (d : α) (lo : Option Nat) (k : Nat) (x : α) (m : Sparse α) :
    Sparse.wfAbove d lo ((k, x) :: m) = (above lo k && decide (x ≠ d) && Sparse.wfAbove d (some k) m) := by
  cases lo <;> rfl

theorem wfAbove_weaken [DecidableEq α] {d : α} {lo lo' : Option Nat} {m : Sparse α}
    (hlo : ∀ k, above lo k = true → above lo' k = true) (h : Sparse.wfAbove d lo m = true) : Sparse.wfAbove d lo' m = true := by
  cases m with
  | nil => rfl
  | cons e m =>
    obtain ⟨k, x⟩ := e
    simp only [wfAbove_cons, Bool.and_eq_true] at h ⊢
    exact ⟨⟨hlo k h.1.1, h.1.2⟩, h.2⟩

theorem wfAbove_insert [DecidableEq α] {d : α} {lo : Option Nat} {m : Sparse α} (n : Nat) (x : α) (hx : x ≠ d) (hn : above lo n = true)
    (h : Sparse.wfAbove d lo m = true) : Sparse.wfAbove d lo (Sparse.insert m n x) = true := by
  induction m generalizing lo with
  | nil => simp [Sparse.insert, wfAbove_cons, hx, hn, Sparse.wfAbove]
  | cons e m ih =>
    obtain ⟨k, y⟩ := e
    simp only [wfAbove_cons, Bool.and_eq_true] at h
    obtain ⟨⟨hk, hy⟩, hm⟩ := h
    simp only [Sparse.insert]
    split
    · rename_i he
      have he : n = k := by simpa using he
      subst he
      simp [wfAbove_cons, hx, hn, hm]
    · split
      · rename_i _ hlt
        simp only [wfAbove_cons, Bool.and_eq_true]
        exact ⟨⟨hn, by simp [hx]⟩, ⟨by simp [above, hlt], hy⟩, hm⟩
      · rename_i he hlt
        have he : n ≠ k := by simpa using he
        simp only [wfAbove_cons, Bool.and_eq_true]
        exact ⟨⟨hk, hy⟩, ih (by simp [above]; omega) hm⟩

theorem wfAbove_filter [DecidableEq α] {d : α} {lo : Option Nat} {m : Sparse α} (q : Nat × α → Bool)
    (h : Sparse.wfAbove d lo m = true) : Sparse.wfAbove d lo (m.filter q) = true := by
  induction m generalizing lo with
  | nil => rfl
  | cons e m ih =>
    obtain ⟨k, y⟩ := e
    simp only [wfAbove_cons, Bool.and_eq_true] at h
    obtain ⟨⟨hk, hy⟩, hm⟩ := h
    simp only [List.filter]
    split
    · simp only [wfAbove_cons, Bool.and_eq_true]
      exact ⟨⟨hk, hy⟩, ih hm⟩
    · refine ih (wfAbove_weaken (fun j hj => ?_) hm)
      cases lo with
      | none => rfl
      | some l =>
        simp only [above, decide_eq_true_eq] at hk hj ⊢
        omega

/-- Putting in a value that is no default keeps the form. -/
theorem wf_insert [DecidableEq α] {d : α} {m : Sparse α} (n : Nat) (x : α) (hx : x ≠ d) (h : Sparse.wf d m = true) :
    Sparse.wf d (Sparse.insert m n x) = true := wfAbove_insert n x hx rfl h

/-- Taking entries out keeps the form. -/
theorem wf_filter [DecidableEq α] {d : α} {m : Sparse α} (q : Nat × α → Bool) (h : Sparse.wf d m = true) :
    Sparse.wf d (m.filter q) = true := wfAbove_filter q h

theorem wf_erase [DecidableEq α] {d : α} {m : Sparse α} (n : Nat) (h : Sparse.wf d m = true) : Sparse.wf d (Sparse.erase m n) = true :=
  wfAbove_filter _ h

/-- Writing under a default keeps the form. -/
theorem wf_set [DecidableEq α] {d : α} {m : Sparse α} (n : Nat) (x : α) (h : Sparse.wf d m = true) :
    Sparse.wf d (Sparse.set m n x d) = true := by
  unfold Sparse.set
  split
  · exact wf_erase n h
  · exact wf_insert n x ‹_› h

/-- Two canonical maps that read alike are equal. -/
theorem wfAbove_ext [DecidableEq α] {d : α} {lo : Option Nat} {m m' : Sparse α} (h : Sparse.wfAbove d lo m = true)
    (h' : Sparse.wfAbove d lo m' = true) (heq : ∀ n, Sparse.getD m n d = Sparse.getD m' n d) : m = m' := by
  have none_below : ∀ (m : Sparse α) (lo : Nat), Sparse.wfAbove d (some lo) m = true → ∀ n, n ≤ lo → Sparse.find? m n = none := by
    intro m
    induction m with
    | nil => intros; rfl
    | cons e m ih =>
      obtain ⟨k, y⟩ := e
      intro lo h n hn
      simp only [wfAbove_cons, Bool.and_eq_true, above, decide_eq_true_eq] at h
      have : (k == n) = false := by simp; omega
      simp only [Sparse.find?, this]
      exact ih k h.2 n (by omega)
  induction m generalizing lo m' with
  | nil =>
    cases m' with
    | nil => rfl
    | cons e m' =>
      obtain ⟨k, y⟩ := e
      simp only [wfAbove_cons, Bool.and_eq_true, decide_eq_true_eq] at h'
      have := heq k
      simp [Sparse.getD, Sparse.find?] at this
      exact absurd this.symm h'.1.2
  | cons e m ih =>
    obtain ⟨k, y⟩ := e
    simp only [wfAbove_cons, Bool.and_eq_true, decide_eq_true_eq] at h
    cases m' with
    | nil =>
      have := heq k
      simp [Sparse.getD, Sparse.find?] at this
      exact absurd this h.1.2
    | cons e' m' =>
      obtain ⟨k', y'⟩ := e'
      simp only [wfAbove_cons, Bool.and_eq_true, decide_eq_true_eq] at h'
      have hk : k = k' := by
        by_cases h1 : k < k'
        · have := heq k
          have hf : (k' == k) = false := by simp; omega
          simp [Sparse.getD, Sparse.find?, hf, none_below m' k' h'.2 k (by omega)] at this
          exact absurd this h.1.2
        · by_cases h2 : k' < k
          · have := heq k'
            have hf : (k == k') = false := by simp; omega
            simp [Sparse.getD, Sparse.find?, hf, none_below m k h.2 k' (by omega)] at this
            exact absurd this.symm h'.1.2
          · omega
      subst hk
      have hy : y = y' := by
        have := heq k
        simpa [Sparse.getD, Sparse.find?] using this
      subst hy
      congr 1
      refine ih h.2 h'.2 fun n => ?_
      by_cases hn : n ≤ k
      · simp [Sparse.getD, none_below m k h.2 n hn, none_below m' k h'.2 n hn]
      · have := heq n
        have hf : (k == n) = false := by simp; omega
        simpa [Sparse.getD, Sparse.find?, hf] using this

/-! ### Memory -/

/-- Every byte after a write of one byte. -/
theorem Memory.read_write (m : Memory) (a b : Nat) (x : Byte) : Memory.read (Memory.write m a x) b = if b = a then x else Memory.read m b :=
  getD_set m a b x Memory.blank

theorem Memory.wf_write {m : Memory} (a : Nat) (x : Byte) (h : Memory.wf m = true) : Memory.wf (Memory.write m a x) = true :=
  wf_set a x h

/-- Every byte after a write of `n` bytes (R3). -/
theorem Memory.read_writeLE (m : Memory) (a n x b : Nat) :
    Memory.read (Memory.writeLE m a n x) b = if a ≤ b ∧ b < a + n then BitVec.ofNat 8 (x / 256 ^ (b - a)) else Memory.read m b := by
  induction n generalizing m a x with
  | zero => simp [Memory.writeLE] <;> omega
  | succ n ih =>
    simp only [Memory.writeLE]
    rw [ih, Memory.read_write]
    by_cases hb : b = a
    · subst hb
      rw [if_neg (by omega), if_pos rfl, if_pos (by omega)]
      simp
    · by_cases hr : a + 1 ≤ b ∧ b < a + 1 + n
      · have hr' : a ≤ b ∧ b < a + (n + 1) := by omega
        rw [if_pos hr, if_pos hr', Nat.div_div_eq_div_mul]
        congr 2
        have : b - a = (b - (a + 1)) + 1 := by omega
        rw [this, Nat.pow_succ, Nat.mul_comm]
      · have hr' : ¬(a ≤ b ∧ b < a + (n + 1)) := by omega
        rw [if_neg hr, if_neg hr', if_neg hb]

theorem Memory.wf_writeLE {m : Memory} (a n x : Nat) (h : Memory.wf m = true) : Memory.wf (Memory.writeLE m a n x) = true := by
  induction n generalizing m a x with
  | zero => exact h
  | succ n ih => exact ih _ _ (Memory.wf_write a _ h)

theorem Memory.wf_filter {m : Memory} (q : Host.Cell → Bool) (h : Memory.wf m = true) : Memory.wf (m.filter q) = true :=
  wfAbove_filter q h

/-- Two memories in canonical form that read alike are equal. -/
theorem Memory.ext_read {m m' : Memory} (h : Memory.wf m = true) (h' : Memory.wf m' = true)
    (heq : ∀ a, Memory.read m a = Memory.read m' a) : m = m' := wfAbove_ext h h' heq

/-- What a read of `n` bytes finds after it has been written. -/
theorem Memory.readLE_congr {m m' : Memory} (a n : Nat) (h : ∀ b, a ≤ b → b < a + n → Memory.read m b = Memory.read m' b) :
    Memory.readLE m a n = Memory.readLE m' a n := by
  induction n generalizing a with
  | zero => rfl
  | succ n ih =>
    simp only [Memory.readLE]
    rw [h a (by omega) (by omega), ih (a + 1) fun b h1 h2 => h b (by omega) (by omega)]

theorem Memory.readLE_writeLE (m : Memory) (a n x : Nat) : Memory.readLE (Memory.writeLE m a n x) a n = x % 256 ^ n := by
  induction n generalizing m a x with
  | zero => simp [Memory.readLE, Nat.mod_one]
  | succ n ih =>
    simp only [Memory.readLE, Memory.writeLE]
    rw [ih, Memory.read_writeLE, if_neg (by omega), Memory.read_write, if_pos rfl, BitVec.toNat_ofNat, Nat.pow_succ (n := 256),
      Nat.mul_comm (256 ^ n) 256, Nat.mod_mul]

/-- A line read back after it has been written (R3). -/
theorem lineAt_writeLE (m : Memory) (a : Nat) (d : LineBits) : lineAt (Memory.writeLE m a 128 d.toNat) a = d := by
  unfold lineAt
  rw [Memory.readLE_writeLE]
  have : (256 : Nat) ^ 128 = 2 ^ 1024 := by decide +kernel
  rw [this, Nat.mod_eq_of_lt d.isLt, BitVec.ofNat_toNat, BitVec.setWidth_eq]

/-- A line that a write of another line leaves alone. -/
theorem lineAt_writeLE_ne (m : Memory) (a b x : Nat) (ha : a % 128 = 0) (hb : b % 128 = 0) (h : a ≠ b) :
    lineAt (Memory.writeLE m a 128 x) b = lineAt m b := by
  unfold lineAt
  rw [Memory.readLE_congr b 128 fun c h1 h2 => ?_]
  rw [Memory.read_writeLE, if_neg (by omega)]

end Sys2Proof.Machine
end

