-- ==== Sys2Proof/Laws/State.lean ====
section
/-! SUPPORT. Each field of a record after each named update of it: the field written, and the others unchanged. -/

namespace Sys2Proof.Machine

@[simp] theorem putGroup_agenda (s : State) (n : Nat) (x : Group) : (s.putGroup n x).agenda = s.agenda := rfl
@[simp] theorem putGroup_turnNo (s : State) (n : Nat) (x : Group) : (s.putGroup n x).turnNo = s.turnNo := rfl
@[simp] theorem putGroup_freeNo (s : State) (n : Nat) (x : Group) : (s.putGroup n x).freeNo = s.freeNo := rfl
@[simp] theorem putGroup_nextId (s : State) (n : Nat) (x : Group) : (s.putGroup n x).nextId = s.nextId := rfl
@[simp] theorem putGroup_issuer (s : State) (n : Nat) (x : Group) : (s.putGroup n x).issuer = s.issuer := rfl
@[simp] theorem putGroup_tick (s : State) (n : Nat) (x : Group) : (s.putGroup n x).tick = s.tick := rfl
@[simp] theorem putGroup_devTime (s : State) (n : Nat) (x : Group) : (s.putGroup n x).devTime = s.devTime := rfl
@[simp] theorem putGroup_devFrac (s : State) (n : Nat) (x : Group) : (s.putGroup n x).devFrac = s.devFrac := rfl
@[simp] theorem putGroup_devRate (s : State) (n : Nat) (x : Group) : (s.putGroup n x).devRate = s.devRate := rfl
@[simp] theorem putGroup_devOffset (s : State) (n : Nat) (x : Group) : (s.putGroup n x).devOffset = s.devOffset := rfl
@[simp] theorem putGroup_hlc (s : State) (n : Nat) (x : Group) : (s.putGroup n x).hlc = s.hlc := rfl
@[simp] theorem putGroup_groups (s : State) (n : Nat) (x : Group) : (s.putGroup n x).groups = Sparse.insert s.groups n x := rfl
@[simp] theorem putGroup_stands (s : State) (n : Nat) (x : Group) : (s.putGroup n x).stands = s.stands := rfl
@[simp] theorem putGroup_launches (s : State) (n : Nat) (x : Group) : (s.putGroup n x).launches = s.launches := rfl
@[simp] theorem putGroup_cores (s : State) (n : Nat) (x : Group) : (s.putGroup n x).cores = s.cores := rfl
@[simp] theorem putGroup_clusters (s : State) (n : Nat) (x : Group) : (s.putGroup n x).clusters = s.clusters := rfl
@[simp] theorem putGroup_hbm (s : State) (n : Nat) (x : Group) : (s.putGroup n x).hbm = s.hbm := rfl
@[simp] theorem putGroup_pads (s : State) (n : Nat) (x : Group) : (s.putGroup n x).pads = s.pads := rfl
@[simp] theorem putGroup_l2 (s : State) (n : Nat) (x : Group) : (s.putGroup n x).l2 = s.l2 := rfl
@[simp] theorem putGroup_uses (s : State) (n : Nat) (x : Group) : (s.putGroup n x).uses = s.uses := rfl
@[simp] theorem putGroup_owners (s : State) (n : Nat) (x : Group) : (s.putGroup n x).owners = s.owners := rfl
@[simp] theorem putGroup_recalls (s : State) (n : Nat) (x : Group) : (s.putGroup n x).recalls = s.recalls := rfl
@[simp] theorem putGroup_heldReads (s : State) (n : Nat) (x : Group) : (s.putGroup n x).heldReads = s.heldReads := rfl
@[simp] theorem putGroup_homeq (s : State) (n : Nat) (x : Group) : (s.putGroup n x).homeq = s.homeq := rfl
@[simp] theorem putGroup_delivery (s : State) (n : Nat) (x : Group) : (s.putGroup n x).delivery = s.delivery := rfl
@[simp] theorem putGroup_outstanding (s : State) (n : Nat) (x : Group) : (s.putGroup n x).outstanding = s.outstanding := rfl
@[simp] theorem putGroup_deposits (s : State) (n : Nat) (x : Group) : (s.putGroup n x).deposits = s.deposits := rfl
@[simp] theorem putGroup_atoms (s : State) (n : Nat) (x : Group) : (s.putGroup n x).atoms = s.atoms := rfl
@[simp] theorem putGroup_scOrder (s : State) (n : Nat) (x : Group) : (s.putGroup n x).scOrder = s.scOrder := rfl
@[simp] theorem putGroup_merge (s : State) (n : Nat) (x : Group) : (s.putGroup n x).merge = s.merge := rfl
@[simp] theorem putGroup_retries (s : State) (n : Nat) (x : Group) : (s.putGroup n x).retries = s.retries := rfl
@[simp] theorem putGroup_shootdowns (s : State) (n : Nat) (x : Group) : (s.putGroup n x).shootdowns = s.shootdowns := rfl
@[simp] theorem putGroup_parts (s : State) (n : Nat) (x : Group) : (s.putGroup n x).parts = s.parts := rfl
@[simp] theorem putGroup_slots (s : State) (n : Nat) (x : Group) : (s.putGroup n x).slots = s.slots := rfl
@[simp] theorem putGroup_idle (s : State) (n : Nat) (x : Group) : (s.putGroup n x).idle = s.idle := rfl
@[simp] theorem putGroup_submitted (s : State) (n : Nat) (x : Group) : (s.putGroup n x).submitted = s.submitted := rfl
@[simp] theorem putGroup_hubReads (s : State) (n : Nat) (x : Group) : (s.putGroup n x).hubReads = s.hubReads := rfl
@[simp] theorem putGroup_loadWindow (s : State) (n : Nat) (x : Group) : (s.putGroup n x).loadWindow = s.loadWindow := rfl
@[simp] theorem putGroup_answer (s : State) (n : Nat) (x : Group) : (s.putGroup n x).answer = s.answer := rfl
@[simp] theorem putGroup_irqs (s : State) (n : Nat) (x : Group) : (s.putGroup n x).irqs = s.irqs := rfl
@[simp] theorem putGroup_banks (s : State) (n : Nat) (x : Group) : (s.putGroup n x).banks = s.banks := rfl
@[simp] theorem putGroup_pchans (s : State) (n : Nat) (x : Group) : (s.putGroup n x).pchans = s.pchans := rfl
@[simp] theorem putGroup_poisoned (s : State) (n : Nat) (x : Group) : (s.putGroup n x).poisoned = s.poisoned := rfl
@[simp] theorem putGroup_hbmBad (s : State) (n : Nat) (x : Group) : (s.putGroup n x).hbmBad = s.hbmBad := rfl
@[simp] theorem putGroup_casts (s : State) (n : Nat) (x : Group) : (s.putGroup n x).casts = s.casts := rfl
@[simp] theorem putGroup_cmos (s : State) (n : Nat) (x : Group) : (s.putGroup n x).cmos = s.cmos := rfl
@[simp] theorem putGroup_cmds (s : State) (n : Nat) (x : Group) : (s.putGroup n x).cmds = s.cmds := rfl
@[simp] theorem putGroup_cells (s : State) (n : Nat) (x : Group) : (s.putGroup n x).cells = s.cells := rfl
@[simp] theorem putGroup_plates (s : State) (n : Nat) (x : Group) : (s.putGroup n x).plates = s.plates := rfl
@[simp] theorem putGroup_directory (s : State) (n : Nat) (x : Group) : (s.putGroup n x).directory = s.directory := rfl
@[simp] theorem putGroup_bitmaps (s : State) (n : Nat) (x : Group) : (s.putGroup n x).bitmaps = s.bitmaps := rfl
@[simp] theorem putGroup_window (s : State) (n : Nat) (x : Group) : (s.putGroup n x).window = s.window := rfl
@[simp] theorem putGroup_seqNo (s : State) (n : Nat) (x : Group) : (s.putGroup n x).seqNo = s.seqNo := rfl
@[simp] theorem putGroup_signatures (s : State) (n : Nat) (x : Group) : (s.putGroup n x).signatures = s.signatures := rfl
@[simp] theorem putGroup_nodes (s : State) (n : Nat) (x : Group) : (s.putGroup n x).nodes = s.nodes := rfl
@[simp] theorem putGroup_arming (s : State) (n : Nat) (x : Group) : (s.putGroup n x).arming = s.arming := rfl
@[simp] theorem putGroup_mailbox (s : State) (n : Nat) (x : Group) : (s.putGroup n x).mailbox = s.mailbox := rfl
@[simp] theorem putGroup_errorLog (s : State) (n : Nat) (x : Group) : (s.putGroup n x).errorLog = s.errorLog := rfl
@[simp] theorem putGroup_host (s : State) (n : Nat) (x : Group) : (s.putGroup n x).host = s.host := rfl
@[simp] theorem putGroup_ports (s : State) (n : Nat) (x : Group) : (s.putGroup n x).ports = s.ports := rfl
@[simp] theorem putGroup_windows (s : State) (n : Nat) (x : Group) : (s.putGroup n x).windows = s.windows := rfl
@[simp] theorem putGroup_routes (s : State) (n : Nat) (x : Group) : (s.putGroup n x).routes = s.routes := rfl
@[simp] theorem putGroup_inbound (s : State) (n : Nat) (x : Group) : (s.putGroup n x).inbound = s.inbound := rfl
@[simp] theorem putGroup_withheld (s : State) (n : Nat) (x : Group) : (s.putGroup n x).withheld = s.withheld := rfl
@[simp] theorem putGroup_slicePm (s : State) (n : Nat) (x : Group) : (s.putGroup n x).slicePm = s.slicePm := rfl

@[simp] theorem modGroup_agenda (s : State) (n : Nat) (f : Group → Group) : (s.modGroup n f).agenda = s.agenda := rfl
@[simp] theorem modGroup_turnNo (s : State) (n : Nat) (f : Group → Group) : (s.modGroup n f).turnNo = s.turnNo := rfl
@[simp] theorem modGroup_freeNo (s : State) (n : Nat) (f : Group → Group) : (s.modGroup n f).freeNo = s.freeNo := rfl
@[simp] theorem modGroup_nextId (s : State) (n : Nat) (f : Group → Group) : (s.modGroup n f).nextId = s.nextId := rfl
@[simp] theorem modGroup_issuer (s : State) (n : Nat) (f : Group → Group) : (s.modGroup n f).issuer = s.issuer := rfl
@[simp] theorem modGroup_tick (s : State) (n : Nat) (f : Group → Group) : (s.modGroup n f).tick = s.tick := rfl
@[simp] theorem modGroup_devTime (s : State) (n : Nat) (f : Group → Group) : (s.modGroup n f).devTime = s.devTime := rfl
@[simp] theorem modGroup_devFrac (s : State) (n : Nat) (f : Group → Group) : (s.modGroup n f).devFrac = s.devFrac := rfl
@[simp] theorem modGroup_devRate (s : State) (n : Nat) (f : Group → Group) : (s.modGroup n f).devRate = s.devRate := rfl
@[simp] theorem modGroup_devOffset (s : State) (n : Nat) (f : Group → Group) : (s.modGroup n f).devOffset = s.devOffset := rfl
@[simp] theorem modGroup_hlc (s : State) (n : Nat) (f : Group → Group) : (s.modGroup n f).hlc = s.hlc := rfl
@[simp] theorem modGroup_groups (s : State) (n : Nat) (f : Group → Group) : (s.modGroup n f).groups = Sparse.modify s.groups n f := rfl
@[simp] theorem modGroup_stands (s : State) (n : Nat) (f : Group → Group) : (s.modGroup n f).stands = s.stands := rfl
@[simp] theorem modGroup_launches (s : State) (n : Nat) (f : Group → Group) : (s.modGroup n f).launches = s.launches := rfl
@[simp] theorem modGroup_cores (s : State) (n : Nat) (f : Group → Group) : (s.modGroup n f).cores = s.cores := rfl
@[simp] theorem modGroup_clusters (s : State) (n : Nat) (f : Group → Group) : (s.modGroup n f).clusters = s.clusters := rfl
@[simp] theorem modGroup_hbm (s : State) (n : Nat) (f : Group → Group) : (s.modGroup n f).hbm = s.hbm := rfl
@[simp] theorem modGroup_pads (s : State) (n : Nat) (f : Group → Group) : (s.modGroup n f).pads = s.pads := rfl
@[simp] theorem modGroup_l2 (s : State) (n : Nat) (f : Group → Group) : (s.modGroup n f).l2 = s.l2 := rfl
@[simp] theorem modGroup_uses (s : State) (n : Nat) (f : Group → Group) : (s.modGroup n f).uses = s.uses := rfl
@[simp] theorem modGroup_owners (s : State) (n : Nat) (f : Group → Group) : (s.modGroup n f).owners = s.owners := rfl
@[simp] theorem modGroup_recalls (s : State) (n : Nat) (f : Group → Group) : (s.modGroup n f).recalls = s.recalls := rfl
@[simp] theorem modGroup_heldReads (s : State) (n : Nat) (f : Group → Group) : (s.modGroup n f).heldReads = s.heldReads := rfl
@[simp] theorem modGroup_homeq (s : State) (n : Nat) (f : Group → Group) : (s.modGroup n f).homeq = s.homeq := rfl
@[simp] theorem modGroup_delivery (s : State) (n : Nat) (f : Group → Group) : (s.modGroup n f).delivery = s.delivery := rfl
@[simp] theorem modGroup_outstanding (s : State) (n : Nat) (f : Group → Group) : (s.modGroup n f).outstanding = s.outstanding := rfl
@[simp] theorem modGroup_deposits (s : State) (n : Nat) (f : Group → Group) : (s.modGroup n f).deposits = s.deposits := rfl
@[simp] theorem modGroup_atoms (s : State) (n : Nat) (f : Group → Group) : (s.modGroup n f).atoms = s.atoms := rfl
@[simp] theorem modGroup_scOrder (s : State) (n : Nat) (f : Group → Group) : (s.modGroup n f).scOrder = s.scOrder := rfl
@[simp] theorem modGroup_merge (s : State) (n : Nat) (f : Group → Group) : (s.modGroup n f).merge = s.merge := rfl
@[simp] theorem modGroup_retries (s : State) (n : Nat) (f : Group → Group) : (s.modGroup n f).retries = s.retries := rfl
@[simp] theorem modGroup_shootdowns (s : State) (n : Nat) (f : Group → Group) : (s.modGroup n f).shootdowns = s.shootdowns := rfl
@[simp] theorem modGroup_parts (s : State) (n : Nat) (f : Group → Group) : (s.modGroup n f).parts = s.parts := rfl
@[simp] theorem modGroup_slots (s : State) (n : Nat) (f : Group → Group) : (s.modGroup n f).slots = s.slots := rfl
@[simp] theorem modGroup_idle (s : State) (n : Nat) (f : Group → Group) : (s.modGroup n f).idle = s.idle := rfl
@[simp] theorem modGroup_submitted (s : State) (n : Nat) (f : Group → Group) : (s.modGroup n f).submitted = s.submitted := rfl
@[simp] theorem modGroup_hubReads (s : State) (n : Nat) (f : Group → Group) : (s.modGroup n f).hubReads = s.hubReads := rfl
@[simp] theorem modGroup_loadWindow (s : State) (n : Nat) (f : Group → Group) : (s.modGroup n f).loadWindow = s.loadWindow := rfl
@[simp] theorem modGroup_answer (s : State) (n : Nat) (f : Group → Group) : (s.modGroup n f).answer = s.answer := rfl
@[simp] theorem modGroup_irqs (s : State) (n : Nat) (f : Group → Group) : (s.modGroup n f).irqs = s.irqs := rfl
@[simp] theorem modGroup_banks (s : State) (n : Nat) (f : Group → Group) : (s.modGroup n f).banks = s.banks := rfl
@[simp] theorem modGroup_pchans (s : State) (n : Nat) (f : Group → Group) : (s.modGroup n f).pchans = s.pchans := rfl
@[simp] theorem modGroup_poisoned (s : State) (n : Nat) (f : Group → Group) : (s.modGroup n f).poisoned = s.poisoned := rfl
@[simp] theorem modGroup_hbmBad (s : State) (n : Nat) (f : Group → Group) : (s.modGroup n f).hbmBad = s.hbmBad := rfl
@[simp] theorem modGroup_casts (s : State) (n : Nat) (f : Group → Group) : (s.modGroup n f).casts = s.casts := rfl
@[simp] theorem modGroup_cmos (s : State) (n : Nat) (f : Group → Group) : (s.modGroup n f).cmos = s.cmos := rfl
@[simp] theorem modGroup_cmds (s : State) (n : Nat) (f : Group → Group) : (s.modGroup n f).cmds = s.cmds := rfl
@[simp] theorem modGroup_cells (s : State) (n : Nat) (f : Group → Group) : (s.modGroup n f).cells = s.cells := rfl
@[simp] theorem modGroup_plates (s : State) (n : Nat) (f : Group → Group) : (s.modGroup n f).plates = s.plates := rfl
@[simp] theorem modGroup_directory (s : State) (n : Nat) (f : Group → Group) : (s.modGroup n f).directory = s.directory := rfl
@[simp] theorem modGroup_bitmaps (s : State) (n : Nat) (f : Group → Group) : (s.modGroup n f).bitmaps = s.bitmaps := rfl
@[simp] theorem modGroup_window (s : State) (n : Nat) (f : Group → Group) : (s.modGroup n f).window = s.window := rfl
@[simp] theorem modGroup_seqNo (s : State) (n : Nat) (f : Group → Group) : (s.modGroup n f).seqNo = s.seqNo := rfl
@[simp] theorem modGroup_signatures (s : State) (n : Nat) (f : Group → Group) : (s.modGroup n f).signatures = s.signatures := rfl
@[simp] theorem modGroup_nodes (s : State) (n : Nat) (f : Group → Group) : (s.modGroup n f).nodes = s.nodes := rfl
@[simp] theorem modGroup_arming (s : State) (n : Nat) (f : Group → Group) : (s.modGroup n f).arming = s.arming := rfl
@[simp] theorem modGroup_mailbox (s : State) (n : Nat) (f : Group → Group) : (s.modGroup n f).mailbox = s.mailbox := rfl
@[simp] theorem modGroup_errorLog (s : State) (n : Nat) (f : Group → Group) : (s.modGroup n f).errorLog = s.errorLog := rfl
@[simp] theorem modGroup_host (s : State) (n : Nat) (f : Group → Group) : (s.modGroup n f).host = s.host := rfl
@[simp] theorem modGroup_ports (s : State) (n : Nat) (f : Group → Group) : (s.modGroup n f).ports = s.ports := rfl
@[simp] theorem modGroup_windows (s : State) (n : Nat) (f : Group → Group) : (s.modGroup n f).windows = s.windows := rfl
@[simp] theorem modGroup_routes (s : State) (n : Nat) (f : Group → Group) : (s.modGroup n f).routes = s.routes := rfl
@[simp] theorem modGroup_inbound (s : State) (n : Nat) (f : Group → Group) : (s.modGroup n f).inbound = s.inbound := rfl
@[simp] theorem modGroup_withheld (s : State) (n : Nat) (f : Group → Group) : (s.modGroup n f).withheld = s.withheld := rfl
@[simp] theorem modGroup_slicePm (s : State) (n : Nat) (f : Group → Group) : (s.modGroup n f).slicePm = s.slicePm := rfl

@[simp] theorem putStand_agenda (s : State) (n : Nat) (x : Stand) : (s.putStand n x).agenda = s.agenda := rfl
@[simp] theorem putStand_turnNo (s : State) (n : Nat) (x : Stand) : (s.putStand n x).turnNo = s.turnNo := rfl
@[simp] theorem putStand_freeNo (s : State) (n : Nat) (x : Stand) : (s.putStand n x).freeNo = s.freeNo := rfl
@[simp] theorem putStand_nextId (s : State) (n : Nat) (x : Stand) : (s.putStand n x).nextId = s.nextId := rfl
@[simp] theorem putStand_issuer (s : State) (n : Nat) (x : Stand) : (s.putStand n x).issuer = s.issuer := rfl
@[simp] theorem putStand_tick (s : State) (n : Nat) (x : Stand) : (s.putStand n x).tick = s.tick := rfl
@[simp] theorem putStand_devTime (s : State) (n : Nat) (x : Stand) : (s.putStand n x).devTime = s.devTime := rfl
@[simp] theorem putStand_devFrac (s : State) (n : Nat) (x : Stand) : (s.putStand n x).devFrac = s.devFrac := rfl
@[simp] theorem putStand_devRate (s : State) (n : Nat) (x : Stand) : (s.putStand n x).devRate = s.devRate := rfl
@[simp] theorem putStand_devOffset (s : State) (n : Nat) (x : Stand) : (s.putStand n x).devOffset = s.devOffset := rfl
@[simp] theorem putStand_hlc (s : State) (n : Nat) (x : Stand) : (s.putStand n x).hlc = s.hlc := rfl
@[simp] theorem putStand_groups (s : State) (n : Nat) (x : Stand) : (s.putStand n x).groups = s.groups := rfl
@[simp] theorem putStand_stands (s : State) (n : Nat) (x : Stand) : (s.putStand n x).stands = Sparse.insert s.stands n x := rfl
@[simp] theorem putStand_launches (s : State) (n : Nat) (x : Stand) : (s.putStand n x).launches = s.launches := rfl
@[simp] theorem putStand_cores (s : State) (n : Nat) (x : Stand) : (s.putStand n x).cores = s.cores := rfl
@[simp] theorem putStand_clusters (s : State) (n : Nat) (x : Stand) : (s.putStand n x).clusters = s.clusters := rfl
@[simp] theorem putStand_hbm (s : State) (n : Nat) (x : Stand) : (s.putStand n x).hbm = s.hbm := rfl
@[simp] theorem putStand_pads (s : State) (n : Nat) (x : Stand) : (s.putStand n x).pads = s.pads := rfl
@[simp] theorem putStand_l2 (s : State) (n : Nat) (x : Stand) : (s.putStand n x).l2 = s.l2 := rfl
@[simp] theorem putStand_uses (s : State) (n : Nat) (x : Stand) : (s.putStand n x).uses = s.uses := rfl
@[simp] theorem putStand_owners (s : State) (n : Nat) (x : Stand) : (s.putStand n x).owners = s.owners := rfl
@[simp] theorem putStand_recalls (s : State) (n : Nat) (x : Stand) : (s.putStand n x).recalls = s.recalls := rfl
@[simp] theorem putStand_heldReads (s : State) (n : Nat) (x : Stand) : (s.putStand n x).heldReads = s.heldReads := rfl
@[simp] theorem putStand_homeq (s : State) (n : Nat) (x : Stand) : (s.putStand n x).homeq = s.homeq := rfl
@[simp] theorem putStand_delivery (s : State) (n : Nat) (x : Stand) : (s.putStand n x).delivery = s.delivery := rfl
@[simp] theorem putStand_outstanding (s : State) (n : Nat) (x : Stand) : (s.putStand n x).outstanding = s.outstanding := rfl
@[simp] theorem putStand_deposits (s : State) (n : Nat) (x : Stand) : (s.putStand n x).deposits = s.deposits := rfl
@[simp] theorem putStand_atoms (s : State) (n : Nat) (x : Stand) : (s.putStand n x).atoms = s.atoms := rfl
@[simp] theorem putStand_scOrder (s : State) (n : Nat) (x : Stand) : (s.putStand n x).scOrder = s.scOrder := rfl
@[simp] theorem putStand_merge (s : State) (n : Nat) (x : Stand) : (s.putStand n x).merge = s.merge := rfl
@[simp] theorem putStand_retries (s : State) (n : Nat) (x : Stand) : (s.putStand n x).retries = s.retries := rfl
@[simp] theorem putStand_shootdowns (s : State) (n : Nat) (x : Stand) : (s.putStand n x).shootdowns = s.shootdowns := rfl
@[simp] theorem putStand_parts (s : State) (n : Nat) (x : Stand) : (s.putStand n x).parts = s.parts := rfl
@[simp] theorem putStand_slots (s : State) (n : Nat) (x : Stand) : (s.putStand n x).slots = s.slots := rfl
@[simp] theorem putStand_idle (s : State) (n : Nat) (x : Stand) : (s.putStand n x).idle = s.idle := rfl
@[simp] theorem putStand_submitted (s : State) (n : Nat) (x : Stand) : (s.putStand n x).submitted = s.submitted := rfl
@[simp] theorem putStand_hubReads (s : State) (n : Nat) (x : Stand) : (s.putStand n x).hubReads = s.hubReads := rfl
@[simp] theorem putStand_loadWindow (s : State) (n : Nat) (x : Stand) : (s.putStand n x).loadWindow = s.loadWindow := rfl
@[simp] theorem putStand_answer (s : State) (n : Nat) (x : Stand) : (s.putStand n x).answer = s.answer := rfl
@[simp] theorem putStand_irqs (s : State) (n : Nat) (x : Stand) : (s.putStand n x).irqs = s.irqs := rfl
@[simp] theorem putStand_banks (s : State) (n : Nat) (x : Stand) : (s.putStand n x).banks = s.banks := rfl
@[simp] theorem putStand_pchans (s : State) (n : Nat) (x : Stand) : (s.putStand n x).pchans = s.pchans := rfl
@[simp] theorem putStand_poisoned (s : State) (n : Nat) (x : Stand) : (s.putStand n x).poisoned = s.poisoned := rfl
@[simp] theorem putStand_hbmBad (s : State) (n : Nat) (x : Stand) : (s.putStand n x).hbmBad = s.hbmBad := rfl
@[simp] theorem putStand_casts (s : State) (n : Nat) (x : Stand) : (s.putStand n x).casts = s.casts := rfl
@[simp] theorem putStand_cmos (s : State) (n : Nat) (x : Stand) : (s.putStand n x).cmos = s.cmos := rfl
@[simp] theorem putStand_cmds (s : State) (n : Nat) (x : Stand) : (s.putStand n x).cmds = s.cmds := rfl
@[simp] theorem putStand_cells (s : State) (n : Nat) (x : Stand) : (s.putStand n x).cells = s.cells := rfl
@[simp] theorem putStand_plates (s : State) (n : Nat) (x : Stand) : (s.putStand n x).plates = s.plates := rfl
@[simp] theorem putStand_directory (s : State) (n : Nat) (x : Stand) : (s.putStand n x).directory = s.directory := rfl
@[simp] theorem putStand_bitmaps (s : State) (n : Nat) (x : Stand) : (s.putStand n x).bitmaps = s.bitmaps := rfl
@[simp] theorem putStand_window (s : State) (n : Nat) (x : Stand) : (s.putStand n x).window = s.window := rfl
@[simp] theorem putStand_seqNo (s : State) (n : Nat) (x : Stand) : (s.putStand n x).seqNo = s.seqNo := rfl
@[simp] theorem putStand_signatures (s : State) (n : Nat) (x : Stand) : (s.putStand n x).signatures = s.signatures := rfl
@[simp] theorem putStand_nodes (s : State) (n : Nat) (x : Stand) : (s.putStand n x).nodes = s.nodes := rfl
@[simp] theorem putStand_arming (s : State) (n : Nat) (x : Stand) : (s.putStand n x).arming = s.arming := rfl
@[simp] theorem putStand_mailbox (s : State) (n : Nat) (x : Stand) : (s.putStand n x).mailbox = s.mailbox := rfl
@[simp] theorem putStand_errorLog (s : State) (n : Nat) (x : Stand) : (s.putStand n x).errorLog = s.errorLog := rfl
@[simp] theorem putStand_host (s : State) (n : Nat) (x : Stand) : (s.putStand n x).host = s.host := rfl
@[simp] theorem putStand_ports (s : State) (n : Nat) (x : Stand) : (s.putStand n x).ports = s.ports := rfl
@[simp] theorem putStand_windows (s : State) (n : Nat) (x : Stand) : (s.putStand n x).windows = s.windows := rfl
@[simp] theorem putStand_routes (s : State) (n : Nat) (x : Stand) : (s.putStand n x).routes = s.routes := rfl
@[simp] theorem putStand_inbound (s : State) (n : Nat) (x : Stand) : (s.putStand n x).inbound = s.inbound := rfl
@[simp] theorem putStand_withheld (s : State) (n : Nat) (x : Stand) : (s.putStand n x).withheld = s.withheld := rfl
@[simp] theorem putStand_slicePm (s : State) (n : Nat) (x : Stand) : (s.putStand n x).slicePm = s.slicePm := rfl

@[simp] theorem modStand_agenda (s : State) (n : Nat) (f : Stand → Stand) : (s.modStand n f).agenda = s.agenda := rfl
@[simp] theorem modStand_turnNo (s : State) (n : Nat) (f : Stand → Stand) : (s.modStand n f).turnNo = s.turnNo := rfl
@[simp] theorem modStand_freeNo (s : State) (n : Nat) (f : Stand → Stand) : (s.modStand n f).freeNo = s.freeNo := rfl
@[simp] theorem modStand_nextId (s : State) (n : Nat) (f : Stand → Stand) : (s.modStand n f).nextId = s.nextId := rfl
@[simp] theorem modStand_issuer (s : State) (n : Nat) (f : Stand → Stand) : (s.modStand n f).issuer = s.issuer := rfl
@[simp] theorem modStand_tick (s : State) (n : Nat) (f : Stand → Stand) : (s.modStand n f).tick = s.tick := rfl
@[simp] theorem modStand_devTime (s : State) (n : Nat) (f : Stand → Stand) : (s.modStand n f).devTime = s.devTime := rfl
@[simp] theorem modStand_devFrac (s : State) (n : Nat) (f : Stand → Stand) : (s.modStand n f).devFrac = s.devFrac := rfl
@[simp] theorem modStand_devRate (s : State) (n : Nat) (f : Stand → Stand) : (s.modStand n f).devRate = s.devRate := rfl
@[simp] theorem modStand_devOffset (s : State) (n : Nat) (f : Stand → Stand) : (s.modStand n f).devOffset = s.devOffset := rfl
@[simp] theorem modStand_hlc (s : State) (n : Nat) (f : Stand → Stand) : (s.modStand n f).hlc = s.hlc := rfl
@[simp] theorem modStand_groups (s : State) (n : Nat) (f : Stand → Stand) : (s.modStand n f).groups = s.groups := rfl
@[simp] theorem modStand_stands (s : State) (n : Nat) (f : Stand → Stand) : (s.modStand n f).stands = Sparse.modify s.stands n f := rfl
@[simp] theorem modStand_launches (s : State) (n : Nat) (f : Stand → Stand) : (s.modStand n f).launches = s.launches := rfl
@[simp] theorem modStand_cores (s : State) (n : Nat) (f : Stand → Stand) : (s.modStand n f).cores = s.cores := rfl
@[simp] theorem modStand_clusters (s : State) (n : Nat) (f : Stand → Stand) : (s.modStand n f).clusters = s.clusters := rfl
@[simp] theorem modStand_hbm (s : State) (n : Nat) (f : Stand → Stand) : (s.modStand n f).hbm = s.hbm := rfl
@[simp] theorem modStand_pads (s : State) (n : Nat) (f : Stand → Stand) : (s.modStand n f).pads = s.pads := rfl
@[simp] theorem modStand_l2 (s : State) (n : Nat) (f : Stand → Stand) : (s.modStand n f).l2 = s.l2 := rfl
@[simp] theorem modStand_uses (s : State) (n : Nat) (f : Stand → Stand) : (s.modStand n f).uses = s.uses := rfl
@[simp] theorem modStand_owners (s : State) (n : Nat) (f : Stand → Stand) : (s.modStand n f).owners = s.owners := rfl
@[simp] theorem modStand_recalls (s : State) (n : Nat) (f : Stand → Stand) : (s.modStand n f).recalls = s.recalls := rfl
@[simp] theorem modStand_heldReads (s : State) (n : Nat) (f : Stand → Stand) : (s.modStand n f).heldReads = s.heldReads := rfl
@[simp] theorem modStand_homeq (s : State) (n : Nat) (f : Stand → Stand) : (s.modStand n f).homeq = s.homeq := rfl
@[simp] theorem modStand_delivery (s : State) (n : Nat) (f : Stand → Stand) : (s.modStand n f).delivery = s.delivery := rfl
@[simp] theorem modStand_outstanding (s : State) (n : Nat) (f : Stand → Stand) : (s.modStand n f).outstanding = s.outstanding := rfl
@[simp] theorem modStand_deposits (s : State) (n : Nat) (f : Stand → Stand) : (s.modStand n f).deposits = s.deposits := rfl
@[simp] theorem modStand_atoms (s : State) (n : Nat) (f : Stand → Stand) : (s.modStand n f).atoms = s.atoms := rfl
@[simp] theorem modStand_scOrder (s : State) (n : Nat) (f : Stand → Stand) : (s.modStand n f).scOrder = s.scOrder := rfl
@[simp] theorem modStand_merge (s : State) (n : Nat) (f : Stand → Stand) : (s.modStand n f).merge = s.merge := rfl
@[simp] theorem modStand_retries (s : State) (n : Nat) (f : Stand → Stand) : (s.modStand n f).retries = s.retries := rfl
@[simp] theorem modStand_shootdowns (s : State) (n : Nat) (f : Stand → Stand) : (s.modStand n f).shootdowns = s.shootdowns := rfl
@[simp] theorem modStand_parts (s : State) (n : Nat) (f : Stand → Stand) : (s.modStand n f).parts = s.parts := rfl
@[simp] theorem modStand_slots (s : State) (n : Nat) (f : Stand → Stand) : (s.modStand n f).slots = s.slots := rfl
@[simp] theorem modStand_idle (s : State) (n : Nat) (f : Stand → Stand) : (s.modStand n f).idle = s.idle := rfl
@[simp] theorem modStand_submitted (s : State) (n : Nat) (f : Stand → Stand) : (s.modStand n f).submitted = s.submitted := rfl
@[simp] theorem modStand_hubReads (s : State) (n : Nat) (f : Stand → Stand) : (s.modStand n f).hubReads = s.hubReads := rfl
@[simp] theorem modStand_loadWindow (s : State) (n : Nat) (f : Stand → Stand) : (s.modStand n f).loadWindow = s.loadWindow := rfl
@[simp] theorem modStand_answer (s : State) (n : Nat) (f : Stand → Stand) : (s.modStand n f).answer = s.answer := rfl
@[simp] theorem modStand_irqs (s : State) (n : Nat) (f : Stand → Stand) : (s.modStand n f).irqs = s.irqs := rfl
@[simp] theorem modStand_banks (s : State) (n : Nat) (f : Stand → Stand) : (s.modStand n f).banks = s.banks := rfl
@[simp] theorem modStand_pchans (s : State) (n : Nat) (f : Stand → Stand) : (s.modStand n f).pchans = s.pchans := rfl
@[simp] theorem modStand_poisoned (s : State) (n : Nat) (f : Stand → Stand) : (s.modStand n f).poisoned = s.poisoned := rfl
@[simp] theorem modStand_hbmBad (s : State) (n : Nat) (f : Stand → Stand) : (s.modStand n f).hbmBad = s.hbmBad := rfl
@[simp] theorem modStand_casts (s : State) (n : Nat) (f : Stand → Stand) : (s.modStand n f).casts = s.casts := rfl
@[simp] theorem modStand_cmos (s : State) (n : Nat) (f : Stand → Stand) : (s.modStand n f).cmos = s.cmos := rfl
@[simp] theorem modStand_cmds (s : State) (n : Nat) (f : Stand → Stand) : (s.modStand n f).cmds = s.cmds := rfl
@[simp] theorem modStand_cells (s : State) (n : Nat) (f : Stand → Stand) : (s.modStand n f).cells = s.cells := rfl
@[simp] theorem modStand_plates (s : State) (n : Nat) (f : Stand → Stand) : (s.modStand n f).plates = s.plates := rfl
@[simp] theorem modStand_directory (s : State) (n : Nat) (f : Stand → Stand) : (s.modStand n f).directory = s.directory := rfl
@[simp] theorem modStand_bitmaps (s : State) (n : Nat) (f : Stand → Stand) : (s.modStand n f).bitmaps = s.bitmaps := rfl
@[simp] theorem modStand_window (s : State) (n : Nat) (f : Stand → Stand) : (s.modStand n f).window = s.window := rfl
@[simp] theorem modStand_seqNo (s : State) (n : Nat) (f : Stand → Stand) : (s.modStand n f).seqNo = s.seqNo := rfl
@[simp] theorem modStand_signatures (s : State) (n : Nat) (f : Stand → Stand) : (s.modStand n f).signatures = s.signatures := rfl
@[simp] theorem modStand_nodes (s : State) (n : Nat) (f : Stand → Stand) : (s.modStand n f).nodes = s.nodes := rfl
@[simp] theorem modStand_arming (s : State) (n : Nat) (f : Stand → Stand) : (s.modStand n f).arming = s.arming := rfl
@[simp] theorem modStand_mailbox (s : State) (n : Nat) (f : Stand → Stand) : (s.modStand n f).mailbox = s.mailbox := rfl
@[simp] theorem modStand_errorLog (s : State) (n : Nat) (f : Stand → Stand) : (s.modStand n f).errorLog = s.errorLog := rfl
@[simp] theorem modStand_host (s : State) (n : Nat) (f : Stand → Stand) : (s.modStand n f).host = s.host := rfl
@[simp] theorem modStand_ports (s : State) (n : Nat) (f : Stand → Stand) : (s.modStand n f).ports = s.ports := rfl
@[simp] theorem modStand_windows (s : State) (n : Nat) (f : Stand → Stand) : (s.modStand n f).windows = s.windows := rfl
@[simp] theorem modStand_routes (s : State) (n : Nat) (f : Stand → Stand) : (s.modStand n f).routes = s.routes := rfl
@[simp] theorem modStand_inbound (s : State) (n : Nat) (f : Stand → Stand) : (s.modStand n f).inbound = s.inbound := rfl
@[simp] theorem modStand_withheld (s : State) (n : Nat) (f : Stand → Stand) : (s.modStand n f).withheld = s.withheld := rfl
@[simp] theorem modStand_slicePm (s : State) (n : Nat) (f : Stand → Stand) : (s.modStand n f).slicePm = s.slicePm := rfl

@[simp] theorem setPart_agenda (s : State) (n : Nat) (x : Partition) : (s.setPart n x).agenda = s.agenda := rfl
@[simp] theorem setPart_turnNo (s : State) (n : Nat) (x : Partition) : (s.setPart n x).turnNo = s.turnNo := rfl
@[simp] theorem setPart_freeNo (s : State) (n : Nat) (x : Partition) : (s.setPart n x).freeNo = s.freeNo := rfl
@[simp] theorem setPart_nextId (s : State) (n : Nat) (x : Partition) : (s.setPart n x).nextId = s.nextId := rfl
@[simp] theorem setPart_issuer (s : State) (n : Nat) (x : Partition) : (s.setPart n x).issuer = s.issuer := rfl
@[simp] theorem setPart_tick (s : State) (n : Nat) (x : Partition) : (s.setPart n x).tick = s.tick := rfl
@[simp] theorem setPart_devTime (s : State) (n : Nat) (x : Partition) : (s.setPart n x).devTime = s.devTime := rfl
@[simp] theorem setPart_devFrac (s : State) (n : Nat) (x : Partition) : (s.setPart n x).devFrac = s.devFrac := rfl
@[simp] theorem setPart_devRate (s : State) (n : Nat) (x : Partition) : (s.setPart n x).devRate = s.devRate := rfl
@[simp] theorem setPart_devOffset (s : State) (n : Nat) (x : Partition) : (s.setPart n x).devOffset = s.devOffset := rfl
@[simp] theorem setPart_hlc (s : State) (n : Nat) (x : Partition) : (s.setPart n x).hlc = s.hlc := rfl
@[simp] theorem setPart_groups (s : State) (n : Nat) (x : Partition) : (s.setPart n x).groups = s.groups := rfl
@[simp] theorem setPart_stands (s : State) (n : Nat) (x : Partition) : (s.setPart n x).stands = s.stands := rfl
@[simp] theorem setPart_launches (s : State) (n : Nat) (x : Partition) : (s.setPart n x).launches = s.launches := rfl
@[simp] theorem setPart_cores (s : State) (n : Nat) (x : Partition) : (s.setPart n x).cores = s.cores := rfl
@[simp] theorem setPart_clusters (s : State) (n : Nat) (x : Partition) : (s.setPart n x).clusters = s.clusters := rfl
@[simp] theorem setPart_hbm (s : State) (n : Nat) (x : Partition) : (s.setPart n x).hbm = s.hbm := rfl
@[simp] theorem setPart_pads (s : State) (n : Nat) (x : Partition) : (s.setPart n x).pads = s.pads := rfl
@[simp] theorem setPart_l2 (s : State) (n : Nat) (x : Partition) : (s.setPart n x).l2 = s.l2 := rfl
@[simp] theorem setPart_uses (s : State) (n : Nat) (x : Partition) : (s.setPart n x).uses = s.uses := rfl
@[simp] theorem setPart_owners (s : State) (n : Nat) (x : Partition) : (s.setPart n x).owners = s.owners := rfl
@[simp] theorem setPart_recalls (s : State) (n : Nat) (x : Partition) : (s.setPart n x).recalls = s.recalls := rfl
@[simp] theorem setPart_heldReads (s : State) (n : Nat) (x : Partition) : (s.setPart n x).heldReads = s.heldReads := rfl
@[simp] theorem setPart_homeq (s : State) (n : Nat) (x : Partition) : (s.setPart n x).homeq = s.homeq := rfl
@[simp] theorem setPart_delivery (s : State) (n : Nat) (x : Partition) : (s.setPart n x).delivery = s.delivery := rfl
@[simp] theorem setPart_outstanding (s : State) (n : Nat) (x : Partition) : (s.setPart n x).outstanding = s.outstanding := rfl
@[simp] theorem setPart_deposits (s : State) (n : Nat) (x : Partition) : (s.setPart n x).deposits = s.deposits := rfl
@[simp] theorem setPart_atoms (s : State) (n : Nat) (x : Partition) : (s.setPart n x).atoms = s.atoms := rfl
@[simp] theorem setPart_scOrder (s : State) (n : Nat) (x : Partition) : (s.setPart n x).scOrder = s.scOrder := rfl
@[simp] theorem setPart_merge (s : State) (n : Nat) (x : Partition) : (s.setPart n x).merge = s.merge := rfl
@[simp] theorem setPart_retries (s : State) (n : Nat) (x : Partition) : (s.setPart n x).retries = s.retries := rfl
@[simp] theorem setPart_shootdowns (s : State) (n : Nat) (x : Partition) : (s.setPart n x).shootdowns = s.shootdowns := rfl
@[simp] theorem setPart_parts (s : State) (n : Nat) (x : Partition) : (s.setPart n x).parts = Sparse.insert s.parts n x := rfl
@[simp] theorem setPart_slots (s : State) (n : Nat) (x : Partition) : (s.setPart n x).slots = s.slots := rfl
@[simp] theorem setPart_idle (s : State) (n : Nat) (x : Partition) : (s.setPart n x).idle = s.idle := rfl
@[simp] theorem setPart_submitted (s : State) (n : Nat) (x : Partition) : (s.setPart n x).submitted = s.submitted := rfl
@[simp] theorem setPart_hubReads (s : State) (n : Nat) (x : Partition) : (s.setPart n x).hubReads = s.hubReads := rfl
@[simp] theorem setPart_loadWindow (s : State) (n : Nat) (x : Partition) : (s.setPart n x).loadWindow = s.loadWindow := rfl
@[simp] theorem setPart_answer (s : State) (n : Nat) (x : Partition) : (s.setPart n x).answer = s.answer := rfl
@[simp] theorem setPart_irqs (s : State) (n : Nat) (x : Partition) : (s.setPart n x).irqs = s.irqs := rfl
@[simp] theorem setPart_banks (s : State) (n : Nat) (x : Partition) : (s.setPart n x).banks = s.banks := rfl
@[simp] theorem setPart_pchans (s : State) (n : Nat) (x : Partition) : (s.setPart n x).pchans = s.pchans := rfl
@[simp] theorem setPart_poisoned (s : State) (n : Nat) (x : Partition) : (s.setPart n x).poisoned = s.poisoned := rfl
@[simp] theorem setPart_hbmBad (s : State) (n : Nat) (x : Partition) : (s.setPart n x).hbmBad = s.hbmBad := rfl
@[simp] theorem setPart_casts (s : State) (n : Nat) (x : Partition) : (s.setPart n x).casts = s.casts := rfl
@[simp] theorem setPart_cmos (s : State) (n : Nat) (x : Partition) : (s.setPart n x).cmos = s.cmos := rfl
@[simp] theorem setPart_cmds (s : State) (n : Nat) (x : Partition) : (s.setPart n x).cmds = s.cmds := rfl
@[simp] theorem setPart_cells (s : State) (n : Nat) (x : Partition) : (s.setPart n x).cells = s.cells := rfl
@[simp] theorem setPart_plates (s : State) (n : Nat) (x : Partition) : (s.setPart n x).plates = s.plates := rfl
@[simp] theorem setPart_directory (s : State) (n : Nat) (x : Partition) : (s.setPart n x).directory = s.directory := rfl
@[simp] theorem setPart_bitmaps (s : State) (n : Nat) (x : Partition) : (s.setPart n x).bitmaps = s.bitmaps := rfl
@[simp] theorem setPart_window (s : State) (n : Nat) (x : Partition) : (s.setPart n x).window = s.window := rfl
@[simp] theorem setPart_seqNo (s : State) (n : Nat) (x : Partition) : (s.setPart n x).seqNo = s.seqNo := rfl
@[simp] theorem setPart_signatures (s : State) (n : Nat) (x : Partition) : (s.setPart n x).signatures = s.signatures := rfl
@[simp] theorem setPart_nodes (s : State) (n : Nat) (x : Partition) : (s.setPart n x).nodes = s.nodes := rfl
@[simp] theorem setPart_arming (s : State) (n : Nat) (x : Partition) : (s.setPart n x).arming = s.arming := rfl
@[simp] theorem setPart_mailbox (s : State) (n : Nat) (x : Partition) : (s.setPart n x).mailbox = s.mailbox := rfl
@[simp] theorem setPart_errorLog (s : State) (n : Nat) (x : Partition) : (s.setPart n x).errorLog = s.errorLog := rfl
@[simp] theorem setPart_host (s : State) (n : Nat) (x : Partition) : (s.setPart n x).host = s.host := rfl
@[simp] theorem setPart_ports (s : State) (n : Nat) (x : Partition) : (s.setPart n x).ports = s.ports := rfl
@[simp] theorem setPart_windows (s : State) (n : Nat) (x : Partition) : (s.setPart n x).windows = s.windows := rfl
@[simp] theorem setPart_routes (s : State) (n : Nat) (x : Partition) : (s.setPart n x).routes = s.routes := rfl
@[simp] theorem setPart_inbound (s : State) (n : Nat) (x : Partition) : (s.setPart n x).inbound = s.inbound := rfl
@[simp] theorem setPart_withheld (s : State) (n : Nat) (x : Partition) : (s.setPart n x).withheld = s.withheld := rfl
@[simp] theorem setPart_slicePm (s : State) (n : Nat) (x : Partition) : (s.setPart n x).slicePm = s.slicePm := rfl

@[simp] theorem putSlot_agenda (s : State) (n : Nat) (x : QueueSlot) : (s.putSlot n x).agenda = s.agenda := rfl
@[simp] theorem putSlot_turnNo (s : State) (n : Nat) (x : QueueSlot) : (s.putSlot n x).turnNo = s.turnNo := rfl
@[simp] theorem putSlot_freeNo (s : State) (n : Nat) (x : QueueSlot) : (s.putSlot n x).freeNo = s.freeNo := rfl
@[simp] theorem putSlot_nextId (s : State) (n : Nat) (x : QueueSlot) : (s.putSlot n x).nextId = s.nextId := rfl
@[simp] theorem putSlot_issuer (s : State) (n : Nat) (x : QueueSlot) : (s.putSlot n x).issuer = s.issuer := rfl
@[simp] theorem putSlot_tick (s : State) (n : Nat) (x : QueueSlot) : (s.putSlot n x).tick = s.tick := rfl
@[simp] theorem putSlot_devTime (s : State) (n : Nat) (x : QueueSlot) : (s.putSlot n x).devTime = s.devTime := rfl
@[simp] theorem putSlot_devFrac (s : State) (n : Nat) (x : QueueSlot) : (s.putSlot n x).devFrac = s.devFrac := rfl
@[simp] theorem putSlot_devRate (s : State) (n : Nat) (x : QueueSlot) : (s.putSlot n x).devRate = s.devRate := rfl
@[simp] theorem putSlot_devOffset (s : State) (n : Nat) (x : QueueSlot) : (s.putSlot n x).devOffset = s.devOffset := rfl
@[simp] theorem putSlot_hlc (s : State) (n : Nat) (x : QueueSlot) : (s.putSlot n x).hlc = s.hlc := rfl
@[simp] theorem putSlot_groups (s : State) (n : Nat) (x : QueueSlot) : (s.putSlot n x).groups = s.groups := rfl
@[simp] theorem putSlot_stands (s : State) (n : Nat) (x : QueueSlot) : (s.putSlot n x).stands = s.stands := rfl
@[simp] theorem putSlot_launches (s : State) (n : Nat) (x : QueueSlot) : (s.putSlot n x).launches = s.launches := rfl
@[simp] theorem putSlot_cores (s : State) (n : Nat) (x : QueueSlot) : (s.putSlot n x).cores = s.cores := rfl
@[simp] theorem putSlot_clusters (s : State) (n : Nat) (x : QueueSlot) : (s.putSlot n x).clusters = s.clusters := rfl
@[simp] theorem putSlot_hbm (s : State) (n : Nat) (x : QueueSlot) : (s.putSlot n x).hbm = s.hbm := rfl
@[simp] theorem putSlot_pads (s : State) (n : Nat) (x : QueueSlot) : (s.putSlot n x).pads = s.pads := rfl
@[simp] theorem putSlot_l2 (s : State) (n : Nat) (x : QueueSlot) : (s.putSlot n x).l2 = s.l2 := rfl
@[simp] theorem putSlot_uses (s : State) (n : Nat) (x : QueueSlot) : (s.putSlot n x).uses = s.uses := rfl
@[simp] theorem putSlot_owners (s : State) (n : Nat) (x : QueueSlot) : (s.putSlot n x).owners = s.owners := rfl
@[simp] theorem putSlot_recalls (s : State) (n : Nat) (x : QueueSlot) : (s.putSlot n x).recalls = s.recalls := rfl
@[simp] theorem putSlot_heldReads (s : State) (n : Nat) (x : QueueSlot) : (s.putSlot n x).heldReads = s.heldReads := rfl
@[simp] theorem putSlot_homeq (s : State) (n : Nat) (x : QueueSlot) : (s.putSlot n x).homeq = s.homeq := rfl
@[simp] theorem putSlot_delivery (s : State) (n : Nat) (x : QueueSlot) : (s.putSlot n x).delivery = s.delivery := rfl
@[simp] theorem putSlot_outstanding (s : State) (n : Nat) (x : QueueSlot) : (s.putSlot n x).outstanding = s.outstanding := rfl
@[simp] theorem putSlot_deposits (s : State) (n : Nat) (x : QueueSlot) : (s.putSlot n x).deposits = s.deposits := rfl
@[simp] theorem putSlot_atoms (s : State) (n : Nat) (x : QueueSlot) : (s.putSlot n x).atoms = s.atoms := rfl
@[simp] theorem putSlot_scOrder (s : State) (n : Nat) (x : QueueSlot) : (s.putSlot n x).scOrder = s.scOrder := rfl
@[simp] theorem putSlot_merge (s : State) (n : Nat) (x : QueueSlot) : (s.putSlot n x).merge = s.merge := rfl
@[simp] theorem putSlot_retries (s : State) (n : Nat) (x : QueueSlot) : (s.putSlot n x).retries = s.retries := rfl
@[simp] theorem putSlot_shootdowns (s : State) (n : Nat) (x : QueueSlot) : (s.putSlot n x).shootdowns = s.shootdowns := rfl
@[simp] theorem putSlot_parts (s : State) (n : Nat) (x : QueueSlot) : (s.putSlot n x).parts = s.parts := rfl
@[simp] theorem putSlot_slots (s : State) (n : Nat) (x : QueueSlot) : (s.putSlot n x).slots = Sparse.insert s.slots n x := rfl
@[simp] theorem putSlot_idle (s : State) (n : Nat) (x : QueueSlot) : (s.putSlot n x).idle = s.idle := rfl
@[simp] theorem putSlot_submitted (s : State) (n : Nat) (x : QueueSlot) : (s.putSlot n x).submitted = s.submitted := rfl
@[simp] theorem putSlot_hubReads (s : State) (n : Nat) (x : QueueSlot) : (s.putSlot n x).hubReads = s.hubReads := rfl
@[simp] theorem putSlot_loadWindow (s : State) (n : Nat) (x : QueueSlot) : (s.putSlot n x).loadWindow = s.loadWindow := rfl
@[simp] theorem putSlot_answer (s : State) (n : Nat) (x : QueueSlot) : (s.putSlot n x).answer = s.answer := rfl
@[simp] theorem putSlot_irqs (s : State) (n : Nat) (x : QueueSlot) : (s.putSlot n x).irqs = s.irqs := rfl
@[simp] theorem putSlot_banks (s : State) (n : Nat) (x : QueueSlot) : (s.putSlot n x).banks = s.banks := rfl
@[simp] theorem putSlot_pchans (s : State) (n : Nat) (x : QueueSlot) : (s.putSlot n x).pchans = s.pchans := rfl
@[simp] theorem putSlot_poisoned (s : State) (n : Nat) (x : QueueSlot) : (s.putSlot n x).poisoned = s.poisoned := rfl
@[simp] theorem putSlot_hbmBad (s : State) (n : Nat) (x : QueueSlot) : (s.putSlot n x).hbmBad = s.hbmBad := rfl
@[simp] theorem putSlot_casts (s : State) (n : Nat) (x : QueueSlot) : (s.putSlot n x).casts = s.casts := rfl
@[simp] theorem putSlot_cmos (s : State) (n : Nat) (x : QueueSlot) : (s.putSlot n x).cmos = s.cmos := rfl
@[simp] theorem putSlot_cmds (s : State) (n : Nat) (x : QueueSlot) : (s.putSlot n x).cmds = s.cmds := rfl
@[simp] theorem putSlot_cells (s : State) (n : Nat) (x : QueueSlot) : (s.putSlot n x).cells = s.cells := rfl
@[simp] theorem putSlot_plates (s : State) (n : Nat) (x : QueueSlot) : (s.putSlot n x).plates = s.plates := rfl
@[simp] theorem putSlot_directory (s : State) (n : Nat) (x : QueueSlot) : (s.putSlot n x).directory = s.directory := rfl
@[simp] theorem putSlot_bitmaps (s : State) (n : Nat) (x : QueueSlot) : (s.putSlot n x).bitmaps = s.bitmaps := rfl
@[simp] theorem putSlot_window (s : State) (n : Nat) (x : QueueSlot) : (s.putSlot n x).window = s.window := rfl
@[simp] theorem putSlot_seqNo (s : State) (n : Nat) (x : QueueSlot) : (s.putSlot n x).seqNo = s.seqNo := rfl
@[simp] theorem putSlot_signatures (s : State) (n : Nat) (x : QueueSlot) : (s.putSlot n x).signatures = s.signatures := rfl
@[simp] theorem putSlot_nodes (s : State) (n : Nat) (x : QueueSlot) : (s.putSlot n x).nodes = s.nodes := rfl
@[simp] theorem putSlot_arming (s : State) (n : Nat) (x : QueueSlot) : (s.putSlot n x).arming = s.arming := rfl
@[simp] theorem putSlot_mailbox (s : State) (n : Nat) (x : QueueSlot) : (s.putSlot n x).mailbox = s.mailbox := rfl
@[simp] theorem putSlot_errorLog (s : State) (n : Nat) (x : QueueSlot) : (s.putSlot n x).errorLog = s.errorLog := rfl
@[simp] theorem putSlot_host (s : State) (n : Nat) (x : QueueSlot) : (s.putSlot n x).host = s.host := rfl
@[simp] theorem putSlot_ports (s : State) (n : Nat) (x : QueueSlot) : (s.putSlot n x).ports = s.ports := rfl
@[simp] theorem putSlot_windows (s : State) (n : Nat) (x : QueueSlot) : (s.putSlot n x).windows = s.windows := rfl
@[simp] theorem putSlot_routes (s : State) (n : Nat) (x : QueueSlot) : (s.putSlot n x).routes = s.routes := rfl
@[simp] theorem putSlot_inbound (s : State) (n : Nat) (x : QueueSlot) : (s.putSlot n x).inbound = s.inbound := rfl
@[simp] theorem putSlot_withheld (s : State) (n : Nat) (x : QueueSlot) : (s.putSlot n x).withheld = s.withheld := rfl
@[simp] theorem putSlot_slicePm (s : State) (n : Nat) (x : QueueSlot) : (s.putSlot n x).slicePm = s.slicePm := rfl

@[simp] theorem putCmd_agenda (s : State) (n : Nat) (x : Cmd) : (s.putCmd n x).agenda = s.agenda := rfl
@[simp] theorem putCmd_turnNo (s : State) (n : Nat) (x : Cmd) : (s.putCmd n x).turnNo = s.turnNo := rfl
@[simp] theorem putCmd_freeNo (s : State) (n : Nat) (x : Cmd) : (s.putCmd n x).freeNo = s.freeNo := rfl
@[simp] theorem putCmd_nextId (s : State) (n : Nat) (x : Cmd) : (s.putCmd n x).nextId = s.nextId := rfl
@[simp] theorem putCmd_issuer (s : State) (n : Nat) (x : Cmd) : (s.putCmd n x).issuer = s.issuer := rfl
@[simp] theorem putCmd_tick (s : State) (n : Nat) (x : Cmd) : (s.putCmd n x).tick = s.tick := rfl
@[simp] theorem putCmd_devTime (s : State) (n : Nat) (x : Cmd) : (s.putCmd n x).devTime = s.devTime := rfl
@[simp] theorem putCmd_devFrac (s : State) (n : Nat) (x : Cmd) : (s.putCmd n x).devFrac = s.devFrac := rfl
@[simp] theorem putCmd_devRate (s : State) (n : Nat) (x : Cmd) : (s.putCmd n x).devRate = s.devRate := rfl
@[simp] theorem putCmd_devOffset (s : State) (n : Nat) (x : Cmd) : (s.putCmd n x).devOffset = s.devOffset := rfl
@[simp] theorem putCmd_hlc (s : State) (n : Nat) (x : Cmd) : (s.putCmd n x).hlc = s.hlc := rfl
@[simp] theorem putCmd_groups (s : State) (n : Nat) (x : Cmd) : (s.putCmd n x).groups = s.groups := rfl
@[simp] theorem putCmd_stands (s : State) (n : Nat) (x : Cmd) : (s.putCmd n x).stands = s.stands := rfl
@[simp] theorem putCmd_launches (s : State) (n : Nat) (x : Cmd) : (s.putCmd n x).launches = s.launches := rfl
@[simp] theorem putCmd_cores (s : State) (n : Nat) (x : Cmd) : (s.putCmd n x).cores = s.cores := rfl
@[simp] theorem putCmd_clusters (s : State) (n : Nat) (x : Cmd) : (s.putCmd n x).clusters = s.clusters := rfl
@[simp] theorem putCmd_hbm (s : State) (n : Nat) (x : Cmd) : (s.putCmd n x).hbm = s.hbm := rfl
@[simp] theorem putCmd_pads (s : State) (n : Nat) (x : Cmd) : (s.putCmd n x).pads = s.pads := rfl
@[simp] theorem putCmd_l2 (s : State) (n : Nat) (x : Cmd) : (s.putCmd n x).l2 = s.l2 := rfl
@[simp] theorem putCmd_uses (s : State) (n : Nat) (x : Cmd) : (s.putCmd n x).uses = s.uses := rfl
@[simp] theorem putCmd_owners (s : State) (n : Nat) (x : Cmd) : (s.putCmd n x).owners = s.owners := rfl
@[simp] theorem putCmd_recalls (s : State) (n : Nat) (x : Cmd) : (s.putCmd n x).recalls = s.recalls := rfl
@[simp] theorem putCmd_heldReads (s : State) (n : Nat) (x : Cmd) : (s.putCmd n x).heldReads = s.heldReads := rfl
@[simp] theorem putCmd_homeq (s : State) (n : Nat) (x : Cmd) : (s.putCmd n x).homeq = s.homeq := rfl
@[simp] theorem putCmd_delivery (s : State) (n : Nat) (x : Cmd) : (s.putCmd n x).delivery = s.delivery := rfl
@[simp] theorem putCmd_outstanding (s : State) (n : Nat) (x : Cmd) : (s.putCmd n x).outstanding = s.outstanding := rfl
@[simp] theorem putCmd_deposits (s : State) (n : Nat) (x : Cmd) : (s.putCmd n x).deposits = s.deposits := rfl
@[simp] theorem putCmd_atoms (s : State) (n : Nat) (x : Cmd) : (s.putCmd n x).atoms = s.atoms := rfl
@[simp] theorem putCmd_scOrder (s : State) (n : Nat) (x : Cmd) : (s.putCmd n x).scOrder = s.scOrder := rfl
@[simp] theorem putCmd_merge (s : State) (n : Nat) (x : Cmd) : (s.putCmd n x).merge = s.merge := rfl
@[simp] theorem putCmd_retries (s : State) (n : Nat) (x : Cmd) : (s.putCmd n x).retries = s.retries := rfl
@[simp] theorem putCmd_shootdowns (s : State) (n : Nat) (x : Cmd) : (s.putCmd n x).shootdowns = s.shootdowns := rfl
@[simp] theorem putCmd_parts (s : State) (n : Nat) (x : Cmd) : (s.putCmd n x).parts = s.parts := rfl
@[simp] theorem putCmd_slots (s : State) (n : Nat) (x : Cmd) : (s.putCmd n x).slots = s.slots := rfl
@[simp] theorem putCmd_idle (s : State) (n : Nat) (x : Cmd) : (s.putCmd n x).idle = s.idle := rfl
@[simp] theorem putCmd_submitted (s : State) (n : Nat) (x : Cmd) : (s.putCmd n x).submitted = s.submitted := rfl
@[simp] theorem putCmd_hubReads (s : State) (n : Nat) (x : Cmd) : (s.putCmd n x).hubReads = s.hubReads := rfl
@[simp] theorem putCmd_loadWindow (s : State) (n : Nat) (x : Cmd) : (s.putCmd n x).loadWindow = s.loadWindow := rfl
@[simp] theorem putCmd_answer (s : State) (n : Nat) (x : Cmd) : (s.putCmd n x).answer = s.answer := rfl
@[simp] theorem putCmd_irqs (s : State) (n : Nat) (x : Cmd) : (s.putCmd n x).irqs = s.irqs := rfl
@[simp] theorem putCmd_banks (s : State) (n : Nat) (x : Cmd) : (s.putCmd n x).banks = s.banks := rfl
@[simp] theorem putCmd_pchans (s : State) (n : Nat) (x : Cmd) : (s.putCmd n x).pchans = s.pchans := rfl
@[simp] theorem putCmd_poisoned (s : State) (n : Nat) (x : Cmd) : (s.putCmd n x).poisoned = s.poisoned := rfl
@[simp] theorem putCmd_hbmBad (s : State) (n : Nat) (x : Cmd) : (s.putCmd n x).hbmBad = s.hbmBad := rfl
@[simp] theorem putCmd_casts (s : State) (n : Nat) (x : Cmd) : (s.putCmd n x).casts = s.casts := rfl
@[simp] theorem putCmd_cmos (s : State) (n : Nat) (x : Cmd) : (s.putCmd n x).cmos = s.cmos := rfl
@[simp] theorem putCmd_cmds (s : State) (n : Nat) (x : Cmd) : (s.putCmd n x).cmds = Sparse.insert s.cmds n x := rfl
@[simp] theorem putCmd_cells (s : State) (n : Nat) (x : Cmd) : (s.putCmd n x).cells = s.cells := rfl
@[simp] theorem putCmd_plates (s : State) (n : Nat) (x : Cmd) : (s.putCmd n x).plates = s.plates := rfl
@[simp] theorem putCmd_directory (s : State) (n : Nat) (x : Cmd) : (s.putCmd n x).directory = s.directory := rfl
@[simp] theorem putCmd_bitmaps (s : State) (n : Nat) (x : Cmd) : (s.putCmd n x).bitmaps = s.bitmaps := rfl
@[simp] theorem putCmd_window (s : State) (n : Nat) (x : Cmd) : (s.putCmd n x).window = s.window := rfl
@[simp] theorem putCmd_seqNo (s : State) (n : Nat) (x : Cmd) : (s.putCmd n x).seqNo = s.seqNo := rfl
@[simp] theorem putCmd_signatures (s : State) (n : Nat) (x : Cmd) : (s.putCmd n x).signatures = s.signatures := rfl
@[simp] theorem putCmd_nodes (s : State) (n : Nat) (x : Cmd) : (s.putCmd n x).nodes = s.nodes := rfl
@[simp] theorem putCmd_arming (s : State) (n : Nat) (x : Cmd) : (s.putCmd n x).arming = s.arming := rfl
@[simp] theorem putCmd_mailbox (s : State) (n : Nat) (x : Cmd) : (s.putCmd n x).mailbox = s.mailbox := rfl
@[simp] theorem putCmd_errorLog (s : State) (n : Nat) (x : Cmd) : (s.putCmd n x).errorLog = s.errorLog := rfl
@[simp] theorem putCmd_host (s : State) (n : Nat) (x : Cmd) : (s.putCmd n x).host = s.host := rfl
@[simp] theorem putCmd_ports (s : State) (n : Nat) (x : Cmd) : (s.putCmd n x).ports = s.ports := rfl
@[simp] theorem putCmd_windows (s : State) (n : Nat) (x : Cmd) : (s.putCmd n x).windows = s.windows := rfl
@[simp] theorem putCmd_routes (s : State) (n : Nat) (x : Cmd) : (s.putCmd n x).routes = s.routes := rfl
@[simp] theorem putCmd_inbound (s : State) (n : Nat) (x : Cmd) : (s.putCmd n x).inbound = s.inbound := rfl
@[simp] theorem putCmd_withheld (s : State) (n : Nat) (x : Cmd) : (s.putCmd n x).withheld = s.withheld := rfl
@[simp] theorem putCmd_slicePm (s : State) (n : Nat) (x : Cmd) : (s.putCmd n x).slicePm = s.slicePm := rfl

@[simp] theorem setCore_agenda (s : State) (n : Nat) (x : Core) : (s.setCore n x).agenda = s.agenda := rfl
@[simp] theorem setCore_turnNo (s : State) (n : Nat) (x : Core) : (s.setCore n x).turnNo = s.turnNo := rfl
@[simp] theorem setCore_freeNo (s : State) (n : Nat) (x : Core) : (s.setCore n x).freeNo = s.freeNo := rfl
@[simp] theorem setCore_nextId (s : State) (n : Nat) (x : Core) : (s.setCore n x).nextId = s.nextId := rfl
@[simp] theorem setCore_issuer (s : State) (n : Nat) (x : Core) : (s.setCore n x).issuer = s.issuer := rfl
@[simp] theorem setCore_tick (s : State) (n : Nat) (x : Core) : (s.setCore n x).tick = s.tick := rfl
@[simp] theorem setCore_devTime (s : State) (n : Nat) (x : Core) : (s.setCore n x).devTime = s.devTime := rfl
@[simp] theorem setCore_devFrac (s : State) (n : Nat) (x : Core) : (s.setCore n x).devFrac = s.devFrac := rfl
@[simp] theorem setCore_devRate (s : State) (n : Nat) (x : Core) : (s.setCore n x).devRate = s.devRate := rfl
@[simp] theorem setCore_devOffset (s : State) (n : Nat) (x : Core) : (s.setCore n x).devOffset = s.devOffset := rfl
@[simp] theorem setCore_hlc (s : State) (n : Nat) (x : Core) : (s.setCore n x).hlc = s.hlc := rfl
@[simp] theorem setCore_groups (s : State) (n : Nat) (x : Core) : (s.setCore n x).groups = s.groups := rfl
@[simp] theorem setCore_stands (s : State) (n : Nat) (x : Core) : (s.setCore n x).stands = s.stands := rfl
@[simp] theorem setCore_launches (s : State) (n : Nat) (x : Core) : (s.setCore n x).launches = s.launches := rfl
@[simp] theorem setCore_cores (s : State) (n : Nat) (x : Core) : (s.setCore n x).cores = Sparse.set s.cores n x .idle := rfl
@[simp] theorem setCore_clusters (s : State) (n : Nat) (x : Core) : (s.setCore n x).clusters = s.clusters := rfl
@[simp] theorem setCore_hbm (s : State) (n : Nat) (x : Core) : (s.setCore n x).hbm = s.hbm := rfl
@[simp] theorem setCore_pads (s : State) (n : Nat) (x : Core) : (s.setCore n x).pads = s.pads := rfl
@[simp] theorem setCore_l2 (s : State) (n : Nat) (x : Core) : (s.setCore n x).l2 = s.l2 := rfl
@[simp] theorem setCore_uses (s : State) (n : Nat) (x : Core) : (s.setCore n x).uses = s.uses := rfl
@[simp] theorem setCore_owners (s : State) (n : Nat) (x : Core) : (s.setCore n x).owners = s.owners := rfl
@[simp] theorem setCore_recalls (s : State) (n : Nat) (x : Core) : (s.setCore n x).recalls = s.recalls := rfl
@[simp] theorem setCore_heldReads (s : State) (n : Nat) (x : Core) : (s.setCore n x).heldReads = s.heldReads := rfl
@[simp] theorem setCore_homeq (s : State) (n : Nat) (x : Core) : (s.setCore n x).homeq = s.homeq := rfl
@[simp] theorem setCore_delivery (s : State) (n : Nat) (x : Core) : (s.setCore n x).delivery = s.delivery := rfl
@[simp] theorem setCore_outstanding (s : State) (n : Nat) (x : Core) : (s.setCore n x).outstanding = s.outstanding := rfl
@[simp] theorem setCore_deposits (s : State) (n : Nat) (x : Core) : (s.setCore n x).deposits = s.deposits := rfl
@[simp] theorem setCore_atoms (s : State) (n : Nat) (x : Core) : (s.setCore n x).atoms = s.atoms := rfl
@[simp] theorem setCore_scOrder (s : State) (n : Nat) (x : Core) : (s.setCore n x).scOrder = s.scOrder := rfl
@[simp] theorem setCore_merge (s : State) (n : Nat) (x : Core) : (s.setCore n x).merge = s.merge := rfl
@[simp] theorem setCore_retries (s : State) (n : Nat) (x : Core) : (s.setCore n x).retries = s.retries := rfl
@[simp] theorem setCore_shootdowns (s : State) (n : Nat) (x : Core) : (s.setCore n x).shootdowns = s.shootdowns := rfl
@[simp] theorem setCore_parts (s : State) (n : Nat) (x : Core) : (s.setCore n x).parts = s.parts := rfl
@[simp] theorem setCore_slots (s : State) (n : Nat) (x : Core) : (s.setCore n x).slots = s.slots := rfl
@[simp] theorem setCore_idle (s : State) (n : Nat) (x : Core) : (s.setCore n x).idle = s.idle := rfl
@[simp] theorem setCore_submitted (s : State) (n : Nat) (x : Core) : (s.setCore n x).submitted = s.submitted := rfl
@[simp] theorem setCore_hubReads (s : State) (n : Nat) (x : Core) : (s.setCore n x).hubReads = s.hubReads := rfl
@[simp] theorem setCore_loadWindow (s : State) (n : Nat) (x : Core) : (s.setCore n x).loadWindow = s.loadWindow := rfl
@[simp] theorem setCore_answer (s : State) (n : Nat) (x : Core) : (s.setCore n x).answer = s.answer := rfl
@[simp] theorem setCore_irqs (s : State) (n : Nat) (x : Core) : (s.setCore n x).irqs = s.irqs := rfl
@[simp] theorem setCore_banks (s : State) (n : Nat) (x : Core) : (s.setCore n x).banks = s.banks := rfl
@[simp] theorem setCore_pchans (s : State) (n : Nat) (x : Core) : (s.setCore n x).pchans = s.pchans := rfl
@[simp] theorem setCore_poisoned (s : State) (n : Nat) (x : Core) : (s.setCore n x).poisoned = s.poisoned := rfl
@[simp] theorem setCore_hbmBad (s : State) (n : Nat) (x : Core) : (s.setCore n x).hbmBad = s.hbmBad := rfl
@[simp] theorem setCore_casts (s : State) (n : Nat) (x : Core) : (s.setCore n x).casts = s.casts := rfl
@[simp] theorem setCore_cmos (s : State) (n : Nat) (x : Core) : (s.setCore n x).cmos = s.cmos := rfl
@[simp] theorem setCore_cmds (s : State) (n : Nat) (x : Core) : (s.setCore n x).cmds = s.cmds := rfl
@[simp] theorem setCore_cells (s : State) (n : Nat) (x : Core) : (s.setCore n x).cells = s.cells := rfl
@[simp] theorem setCore_plates (s : State) (n : Nat) (x : Core) : (s.setCore n x).plates = s.plates := rfl
@[simp] theorem setCore_directory (s : State) (n : Nat) (x : Core) : (s.setCore n x).directory = s.directory := rfl
@[simp] theorem setCore_bitmaps (s : State) (n : Nat) (x : Core) : (s.setCore n x).bitmaps = s.bitmaps := rfl
@[simp] theorem setCore_window (s : State) (n : Nat) (x : Core) : (s.setCore n x).window = s.window := rfl
@[simp] theorem setCore_seqNo (s : State) (n : Nat) (x : Core) : (s.setCore n x).seqNo = s.seqNo := rfl
@[simp] theorem setCore_signatures (s : State) (n : Nat) (x : Core) : (s.setCore n x).signatures = s.signatures := rfl
@[simp] theorem setCore_nodes (s : State) (n : Nat) (x : Core) : (s.setCore n x).nodes = s.nodes := rfl
@[simp] theorem setCore_arming (s : State) (n : Nat) (x : Core) : (s.setCore n x).arming = s.arming := rfl
@[simp] theorem setCore_mailbox (s : State) (n : Nat) (x : Core) : (s.setCore n x).mailbox = s.mailbox := rfl
@[simp] theorem setCore_errorLog (s : State) (n : Nat) (x : Core) : (s.setCore n x).errorLog = s.errorLog := rfl
@[simp] theorem setCore_host (s : State) (n : Nat) (x : Core) : (s.setCore n x).host = s.host := rfl
@[simp] theorem setCore_ports (s : State) (n : Nat) (x : Core) : (s.setCore n x).ports = s.ports := rfl
@[simp] theorem setCore_windows (s : State) (n : Nat) (x : Core) : (s.setCore n x).windows = s.windows := rfl
@[simp] theorem setCore_routes (s : State) (n : Nat) (x : Core) : (s.setCore n x).routes = s.routes := rfl
@[simp] theorem setCore_inbound (s : State) (n : Nat) (x : Core) : (s.setCore n x).inbound = s.inbound := rfl
@[simp] theorem setCore_withheld (s : State) (n : Nat) (x : Core) : (s.setCore n x).withheld = s.withheld := rfl
@[simp] theorem setCore_slicePm (s : State) (n : Nat) (x : Core) : (s.setCore n x).slicePm = s.slicePm := rfl

@[simp] theorem setCluster_agenda (s : State) (n : Nat) (x : Cluster) : (s.setCluster n x).agenda = s.agenda := rfl
@[simp] theorem setCluster_turnNo (s : State) (n : Nat) (x : Cluster) : (s.setCluster n x).turnNo = s.turnNo := rfl
@[simp] theorem setCluster_freeNo (s : State) (n : Nat) (x : Cluster) : (s.setCluster n x).freeNo = s.freeNo := rfl
@[simp] theorem setCluster_nextId (s : State) (n : Nat) (x : Cluster) : (s.setCluster n x).nextId = s.nextId := rfl
@[simp] theorem setCluster_issuer (s : State) (n : Nat) (x : Cluster) : (s.setCluster n x).issuer = s.issuer := rfl
@[simp] theorem setCluster_tick (s : State) (n : Nat) (x : Cluster) : (s.setCluster n x).tick = s.tick := rfl
@[simp] theorem setCluster_devTime (s : State) (n : Nat) (x : Cluster) : (s.setCluster n x).devTime = s.devTime := rfl
@[simp] theorem setCluster_devFrac (s : State) (n : Nat) (x : Cluster) : (s.setCluster n x).devFrac = s.devFrac := rfl
@[simp] theorem setCluster_devRate (s : State) (n : Nat) (x : Cluster) : (s.setCluster n x).devRate = s.devRate := rfl
@[simp] theorem setCluster_devOffset (s : State) (n : Nat) (x : Cluster) : (s.setCluster n x).devOffset = s.devOffset := rfl
@[simp] theorem setCluster_hlc (s : State) (n : Nat) (x : Cluster) : (s.setCluster n x).hlc = s.hlc := rfl
@[simp] theorem setCluster_groups (s : State) (n : Nat) (x : Cluster) : (s.setCluster n x).groups = s.groups := rfl
@[simp] theorem setCluster_stands (s : State) (n : Nat) (x : Cluster) : (s.setCluster n x).stands = s.stands := rfl
@[simp] theorem setCluster_launches (s : State) (n : Nat) (x : Cluster) : (s.setCluster n x).launches = s.launches := rfl
@[simp] theorem setCluster_cores (s : State) (n : Nat) (x : Cluster) : (s.setCluster n x).cores = s.cores := rfl
@[simp] theorem setCluster_clusters (s : State) (n : Nat) (x : Cluster) : (s.setCluster n x).clusters = Sparse.set s.clusters n x .idle := rfl
@[simp] theorem setCluster_hbm (s : State) (n : Nat) (x : Cluster) : (s.setCluster n x).hbm = s.hbm := rfl
@[simp] theorem setCluster_pads (s : State) (n : Nat) (x : Cluster) : (s.setCluster n x).pads = s.pads := rfl
@[simp] theorem setCluster_l2 (s : State) (n : Nat) (x : Cluster) : (s.setCluster n x).l2 = s.l2 := rfl
@[simp] theorem setCluster_uses (s : State) (n : Nat) (x : Cluster) : (s.setCluster n x).uses = s.uses := rfl
@[simp] theorem setCluster_owners (s : State) (n : Nat) (x : Cluster) : (s.setCluster n x).owners = s.owners := rfl
@[simp] theorem setCluster_recalls (s : State) (n : Nat) (x : Cluster) : (s.setCluster n x).recalls = s.recalls := rfl
@[simp] theorem setCluster_heldReads (s : State) (n : Nat) (x : Cluster) : (s.setCluster n x).heldReads = s.heldReads := rfl
@[simp] theorem setCluster_homeq (s : State) (n : Nat) (x : Cluster) : (s.setCluster n x).homeq = s.homeq := rfl
@[simp] theorem setCluster_delivery (s : State) (n : Nat) (x : Cluster) : (s.setCluster n x).delivery = s.delivery := rfl
@[simp] theorem setCluster_outstanding (s : State) (n : Nat) (x : Cluster) : (s.setCluster n x).outstanding = s.outstanding := rfl
@[simp] theorem setCluster_deposits (s : State) (n : Nat) (x : Cluster) : (s.setCluster n x).deposits = s.deposits := rfl
@[simp] theorem setCluster_atoms (s : State) (n : Nat) (x : Cluster) : (s.setCluster n x).atoms = s.atoms := rfl
@[simp] theorem setCluster_scOrder (s : State) (n : Nat) (x : Cluster) : (s.setCluster n x).scOrder = s.scOrder := rfl
@[simp] theorem setCluster_merge (s : State) (n : Nat) (x : Cluster) : (s.setCluster n x).merge = s.merge := rfl
@[simp] theorem setCluster_retries (s : State) (n : Nat) (x : Cluster) : (s.setCluster n x).retries = s.retries := rfl
@[simp] theorem setCluster_shootdowns (s : State) (n : Nat) (x : Cluster) : (s.setCluster n x).shootdowns = s.shootdowns := rfl
@[simp] theorem setCluster_parts (s : State) (n : Nat) (x : Cluster) : (s.setCluster n x).parts = s.parts := rfl
@[simp] theorem setCluster_slots (s : State) (n : Nat) (x : Cluster) : (s.setCluster n x).slots = s.slots := rfl
@[simp] theorem setCluster_idle (s : State) (n : Nat) (x : Cluster) : (s.setCluster n x).idle = s.idle := rfl
@[simp] theorem setCluster_submitted (s : State) (n : Nat) (x : Cluster) : (s.setCluster n x).submitted = s.submitted := rfl
@[simp] theorem setCluster_hubReads (s : State) (n : Nat) (x : Cluster) : (s.setCluster n x).hubReads = s.hubReads := rfl
@[simp] theorem setCluster_loadWindow (s : State) (n : Nat) (x : Cluster) : (s.setCluster n x).loadWindow = s.loadWindow := rfl
@[simp] theorem setCluster_answer (s : State) (n : Nat) (x : Cluster) : (s.setCluster n x).answer = s.answer := rfl
@[simp] theorem setCluster_irqs (s : State) (n : Nat) (x : Cluster) : (s.setCluster n x).irqs = s.irqs := rfl
@[simp] theorem setCluster_banks (s : State) (n : Nat) (x : Cluster) : (s.setCluster n x).banks = s.banks := rfl
@[simp] theorem setCluster_pchans (s : State) (n : Nat) (x : Cluster) : (s.setCluster n x).pchans = s.pchans := rfl
@[simp] theorem setCluster_poisoned (s : State) (n : Nat) (x : Cluster) : (s.setCluster n x).poisoned = s.poisoned := rfl
@[simp] theorem setCluster_hbmBad (s : State) (n : Nat) (x : Cluster) : (s.setCluster n x).hbmBad = s.hbmBad := rfl
@[simp] theorem setCluster_casts (s : State) (n : Nat) (x : Cluster) : (s.setCluster n x).casts = s.casts := rfl
@[simp] theorem setCluster_cmos (s : State) (n : Nat) (x : Cluster) : (s.setCluster n x).cmos = s.cmos := rfl
@[simp] theorem setCluster_cmds (s : State) (n : Nat) (x : Cluster) : (s.setCluster n x).cmds = s.cmds := rfl
@[simp] theorem setCluster_cells (s : State) (n : Nat) (x : Cluster) : (s.setCluster n x).cells = s.cells := rfl
@[simp] theorem setCluster_plates (s : State) (n : Nat) (x : Cluster) : (s.setCluster n x).plates = s.plates := rfl
@[simp] theorem setCluster_directory (s : State) (n : Nat) (x : Cluster) : (s.setCluster n x).directory = s.directory := rfl
@[simp] theorem setCluster_bitmaps (s : State) (n : Nat) (x : Cluster) : (s.setCluster n x).bitmaps = s.bitmaps := rfl
@[simp] theorem setCluster_window (s : State) (n : Nat) (x : Cluster) : (s.setCluster n x).window = s.window := rfl
@[simp] theorem setCluster_seqNo (s : State) (n : Nat) (x : Cluster) : (s.setCluster n x).seqNo = s.seqNo := rfl
@[simp] theorem setCluster_signatures (s : State) (n : Nat) (x : Cluster) : (s.setCluster n x).signatures = s.signatures := rfl
@[simp] theorem setCluster_nodes (s : State) (n : Nat) (x : Cluster) : (s.setCluster n x).nodes = s.nodes := rfl
@[simp] theorem setCluster_arming (s : State) (n : Nat) (x : Cluster) : (s.setCluster n x).arming = s.arming := rfl
@[simp] theorem setCluster_mailbox (s : State) (n : Nat) (x : Cluster) : (s.setCluster n x).mailbox = s.mailbox := rfl
@[simp] theorem setCluster_errorLog (s : State) (n : Nat) (x : Cluster) : (s.setCluster n x).errorLog = s.errorLog := rfl
@[simp] theorem setCluster_host (s : State) (n : Nat) (x : Cluster) : (s.setCluster n x).host = s.host := rfl
@[simp] theorem setCluster_ports (s : State) (n : Nat) (x : Cluster) : (s.setCluster n x).ports = s.ports := rfl
@[simp] theorem setCluster_windows (s : State) (n : Nat) (x : Cluster) : (s.setCluster n x).windows = s.windows := rfl
@[simp] theorem setCluster_routes (s : State) (n : Nat) (x : Cluster) : (s.setCluster n x).routes = s.routes := rfl
@[simp] theorem setCluster_inbound (s : State) (n : Nat) (x : Cluster) : (s.setCluster n x).inbound = s.inbound := rfl
@[simp] theorem setCluster_withheld (s : State) (n : Nat) (x : Cluster) : (s.setCluster n x).withheld = s.withheld := rfl
@[simp] theorem setCluster_slicePm (s : State) (n : Nat) (x : Cluster) : (s.setCluster n x).slicePm = s.slicePm := rfl

@[simp] theorem setBank_agenda (s : State) (n : Nat) (x : Bank) : (s.setBank n x).agenda = s.agenda := rfl
@[simp] theorem setBank_turnNo (s : State) (n : Nat) (x : Bank) : (s.setBank n x).turnNo = s.turnNo := rfl
@[simp] theorem setBank_freeNo (s : State) (n : Nat) (x : Bank) : (s.setBank n x).freeNo = s.freeNo := rfl
@[simp] theorem setBank_nextId (s : State) (n : Nat) (x : Bank) : (s.setBank n x).nextId = s.nextId := rfl
@[simp] theorem setBank_issuer (s : State) (n : Nat) (x : Bank) : (s.setBank n x).issuer = s.issuer := rfl
@[simp] theorem setBank_tick (s : State) (n : Nat) (x : Bank) : (s.setBank n x).tick = s.tick := rfl
@[simp] theorem setBank_devTime (s : State) (n : Nat) (x : Bank) : (s.setBank n x).devTime = s.devTime := rfl
@[simp] theorem setBank_devFrac (s : State) (n : Nat) (x : Bank) : (s.setBank n x).devFrac = s.devFrac := rfl
@[simp] theorem setBank_devRate (s : State) (n : Nat) (x : Bank) : (s.setBank n x).devRate = s.devRate := rfl
@[simp] theorem setBank_devOffset (s : State) (n : Nat) (x : Bank) : (s.setBank n x).devOffset = s.devOffset := rfl
@[simp] theorem setBank_hlc (s : State) (n : Nat) (x : Bank) : (s.setBank n x).hlc = s.hlc := rfl
@[simp] theorem setBank_groups (s : State) (n : Nat) (x : Bank) : (s.setBank n x).groups = s.groups := rfl
@[simp] theorem setBank_stands (s : State) (n : Nat) (x : Bank) : (s.setBank n x).stands = s.stands := rfl
@[simp] theorem setBank_launches (s : State) (n : Nat) (x : Bank) : (s.setBank n x).launches = s.launches := rfl
@[simp] theorem setBank_cores (s : State) (n : Nat) (x : Bank) : (s.setBank n x).cores = s.cores := rfl
@[simp] theorem setBank_clusters (s : State) (n : Nat) (x : Bank) : (s.setBank n x).clusters = s.clusters := rfl
@[simp] theorem setBank_hbm (s : State) (n : Nat) (x : Bank) : (s.setBank n x).hbm = s.hbm := rfl
@[simp] theorem setBank_pads (s : State) (n : Nat) (x : Bank) : (s.setBank n x).pads = s.pads := rfl
@[simp] theorem setBank_l2 (s : State) (n : Nat) (x : Bank) : (s.setBank n x).l2 = s.l2 := rfl
@[simp] theorem setBank_uses (s : State) (n : Nat) (x : Bank) : (s.setBank n x).uses = s.uses := rfl
@[simp] theorem setBank_owners (s : State) (n : Nat) (x : Bank) : (s.setBank n x).owners = s.owners := rfl
@[simp] theorem setBank_recalls (s : State) (n : Nat) (x : Bank) : (s.setBank n x).recalls = s.recalls := rfl
@[simp] theorem setBank_heldReads (s : State) (n : Nat) (x : Bank) : (s.setBank n x).heldReads = s.heldReads := rfl
@[simp] theorem setBank_homeq (s : State) (n : Nat) (x : Bank) : (s.setBank n x).homeq = s.homeq := rfl
@[simp] theorem setBank_delivery (s : State) (n : Nat) (x : Bank) : (s.setBank n x).delivery = s.delivery := rfl
@[simp] theorem setBank_outstanding (s : State) (n : Nat) (x : Bank) : (s.setBank n x).outstanding = s.outstanding := rfl
@[simp] theorem setBank_deposits (s : State) (n : Nat) (x : Bank) : (s.setBank n x).deposits = s.deposits := rfl
@[simp] theorem setBank_atoms (s : State) (n : Nat) (x : Bank) : (s.setBank n x).atoms = s.atoms := rfl
@[simp] theorem setBank_scOrder (s : State) (n : Nat) (x : Bank) : (s.setBank n x).scOrder = s.scOrder := rfl
@[simp] theorem setBank_merge (s : State) (n : Nat) (x : Bank) : (s.setBank n x).merge = s.merge := rfl
@[simp] theorem setBank_retries (s : State) (n : Nat) (x : Bank) : (s.setBank n x).retries = s.retries := rfl
@[simp] theorem setBank_shootdowns (s : State) (n : Nat) (x : Bank) : (s.setBank n x).shootdowns = s.shootdowns := rfl
@[simp] theorem setBank_parts (s : State) (n : Nat) (x : Bank) : (s.setBank n x).parts = s.parts := rfl
@[simp] theorem setBank_slots (s : State) (n : Nat) (x : Bank) : (s.setBank n x).slots = s.slots := rfl
@[simp] theorem setBank_idle (s : State) (n : Nat) (x : Bank) : (s.setBank n x).idle = s.idle := rfl
@[simp] theorem setBank_submitted (s : State) (n : Nat) (x : Bank) : (s.setBank n x).submitted = s.submitted := rfl
@[simp] theorem setBank_hubReads (s : State) (n : Nat) (x : Bank) : (s.setBank n x).hubReads = s.hubReads := rfl
@[simp] theorem setBank_loadWindow (s : State) (n : Nat) (x : Bank) : (s.setBank n x).loadWindow = s.loadWindow := rfl
@[simp] theorem setBank_answer (s : State) (n : Nat) (x : Bank) : (s.setBank n x).answer = s.answer := rfl
@[simp] theorem setBank_irqs (s : State) (n : Nat) (x : Bank) : (s.setBank n x).irqs = s.irqs := rfl
@[simp] theorem setBank_banks (s : State) (n : Nat) (x : Bank) : (s.setBank n x).banks = Sparse.set s.banks n x .idle := rfl
@[simp] theorem setBank_pchans (s : State) (n : Nat) (x : Bank) : (s.setBank n x).pchans = s.pchans := rfl
@[simp] theorem setBank_poisoned (s : State) (n : Nat) (x : Bank) : (s.setBank n x).poisoned = s.poisoned := rfl
@[simp] theorem setBank_hbmBad (s : State) (n : Nat) (x : Bank) : (s.setBank n x).hbmBad = s.hbmBad := rfl
@[simp] theorem setBank_casts (s : State) (n : Nat) (x : Bank) : (s.setBank n x).casts = s.casts := rfl
@[simp] theorem setBank_cmos (s : State) (n : Nat) (x : Bank) : (s.setBank n x).cmos = s.cmos := rfl
@[simp] theorem setBank_cmds (s : State) (n : Nat) (x : Bank) : (s.setBank n x).cmds = s.cmds := rfl
@[simp] theorem setBank_cells (s : State) (n : Nat) (x : Bank) : (s.setBank n x).cells = s.cells := rfl
@[simp] theorem setBank_plates (s : State) (n : Nat) (x : Bank) : (s.setBank n x).plates = s.plates := rfl
@[simp] theorem setBank_directory (s : State) (n : Nat) (x : Bank) : (s.setBank n x).directory = s.directory := rfl
@[simp] theorem setBank_bitmaps (s : State) (n : Nat) (x : Bank) : (s.setBank n x).bitmaps = s.bitmaps := rfl
@[simp] theorem setBank_window (s : State) (n : Nat) (x : Bank) : (s.setBank n x).window = s.window := rfl
@[simp] theorem setBank_seqNo (s : State) (n : Nat) (x : Bank) : (s.setBank n x).seqNo = s.seqNo := rfl
@[simp] theorem setBank_signatures (s : State) (n : Nat) (x : Bank) : (s.setBank n x).signatures = s.signatures := rfl
@[simp] theorem setBank_nodes (s : State) (n : Nat) (x : Bank) : (s.setBank n x).nodes = s.nodes := rfl
@[simp] theorem setBank_arming (s : State) (n : Nat) (x : Bank) : (s.setBank n x).arming = s.arming := rfl
@[simp] theorem setBank_mailbox (s : State) (n : Nat) (x : Bank) : (s.setBank n x).mailbox = s.mailbox := rfl
@[simp] theorem setBank_errorLog (s : State) (n : Nat) (x : Bank) : (s.setBank n x).errorLog = s.errorLog := rfl
@[simp] theorem setBank_host (s : State) (n : Nat) (x : Bank) : (s.setBank n x).host = s.host := rfl
@[simp] theorem setBank_ports (s : State) (n : Nat) (x : Bank) : (s.setBank n x).ports = s.ports := rfl
@[simp] theorem setBank_windows (s : State) (n : Nat) (x : Bank) : (s.setBank n x).windows = s.windows := rfl
@[simp] theorem setBank_routes (s : State) (n : Nat) (x : Bank) : (s.setBank n x).routes = s.routes := rfl
@[simp] theorem setBank_inbound (s : State) (n : Nat) (x : Bank) : (s.setBank n x).inbound = s.inbound := rfl
@[simp] theorem setBank_withheld (s : State) (n : Nat) (x : Bank) : (s.setBank n x).withheld = s.withheld := rfl
@[simp] theorem setBank_slicePm (s : State) (n : Nat) (x : Bank) : (s.setBank n x).slicePm = s.slicePm := rfl

@[simp] theorem setPchan_agenda (s : State) (n : Nat) (x : Pchan) : (s.setPchan n x).agenda = s.agenda := rfl
@[simp] theorem setPchan_turnNo (s : State) (n : Nat) (x : Pchan) : (s.setPchan n x).turnNo = s.turnNo := rfl
@[simp] theorem setPchan_freeNo (s : State) (n : Nat) (x : Pchan) : (s.setPchan n x).freeNo = s.freeNo := rfl
@[simp] theorem setPchan_nextId (s : State) (n : Nat) (x : Pchan) : (s.setPchan n x).nextId = s.nextId := rfl
@[simp] theorem setPchan_issuer (s : State) (n : Nat) (x : Pchan) : (s.setPchan n x).issuer = s.issuer := rfl
@[simp] theorem setPchan_tick (s : State) (n : Nat) (x : Pchan) : (s.setPchan n x).tick = s.tick := rfl
@[simp] theorem setPchan_devTime (s : State) (n : Nat) (x : Pchan) : (s.setPchan n x).devTime = s.devTime := rfl
@[simp] theorem setPchan_devFrac (s : State) (n : Nat) (x : Pchan) : (s.setPchan n x).devFrac = s.devFrac := rfl
@[simp] theorem setPchan_devRate (s : State) (n : Nat) (x : Pchan) : (s.setPchan n x).devRate = s.devRate := rfl
@[simp] theorem setPchan_devOffset (s : State) (n : Nat) (x : Pchan) : (s.setPchan n x).devOffset = s.devOffset := rfl
@[simp] theorem setPchan_hlc (s : State) (n : Nat) (x : Pchan) : (s.setPchan n x).hlc = s.hlc := rfl
@[simp] theorem setPchan_groups (s : State) (n : Nat) (x : Pchan) : (s.setPchan n x).groups = s.groups := rfl
@[simp] theorem setPchan_stands (s : State) (n : Nat) (x : Pchan) : (s.setPchan n x).stands = s.stands := rfl
@[simp] theorem setPchan_launches (s : State) (n : Nat) (x : Pchan) : (s.setPchan n x).launches = s.launches := rfl
@[simp] theorem setPchan_cores (s : State) (n : Nat) (x : Pchan) : (s.setPchan n x).cores = s.cores := rfl
@[simp] theorem setPchan_clusters (s : State) (n : Nat) (x : Pchan) : (s.setPchan n x).clusters = s.clusters := rfl
@[simp] theorem setPchan_hbm (s : State) (n : Nat) (x : Pchan) : (s.setPchan n x).hbm = s.hbm := rfl
@[simp] theorem setPchan_pads (s : State) (n : Nat) (x : Pchan) : (s.setPchan n x).pads = s.pads := rfl
@[simp] theorem setPchan_l2 (s : State) (n : Nat) (x : Pchan) : (s.setPchan n x).l2 = s.l2 := rfl
@[simp] theorem setPchan_uses (s : State) (n : Nat) (x : Pchan) : (s.setPchan n x).uses = s.uses := rfl
@[simp] theorem setPchan_owners (s : State) (n : Nat) (x : Pchan) : (s.setPchan n x).owners = s.owners := rfl
@[simp] theorem setPchan_recalls (s : State) (n : Nat) (x : Pchan) : (s.setPchan n x).recalls = s.recalls := rfl
@[simp] theorem setPchan_heldReads (s : State) (n : Nat) (x : Pchan) : (s.setPchan n x).heldReads = s.heldReads := rfl
@[simp] theorem setPchan_homeq (s : State) (n : Nat) (x : Pchan) : (s.setPchan n x).homeq = s.homeq := rfl
@[simp] theorem setPchan_delivery (s : State) (n : Nat) (x : Pchan) : (s.setPchan n x).delivery = s.delivery := rfl
@[simp] theorem setPchan_outstanding (s : State) (n : Nat) (x : Pchan) : (s.setPchan n x).outstanding = s.outstanding := rfl
@[simp] theorem setPchan_deposits (s : State) (n : Nat) (x : Pchan) : (s.setPchan n x).deposits = s.deposits := rfl
@[simp] theorem setPchan_atoms (s : State) (n : Nat) (x : Pchan) : (s.setPchan n x).atoms = s.atoms := rfl
@[simp] theorem setPchan_scOrder (s : State) (n : Nat) (x : Pchan) : (s.setPchan n x).scOrder = s.scOrder := rfl
@[simp] theorem setPchan_merge (s : State) (n : Nat) (x : Pchan) : (s.setPchan n x).merge = s.merge := rfl
@[simp] theorem setPchan_retries (s : State) (n : Nat) (x : Pchan) : (s.setPchan n x).retries = s.retries := rfl
@[simp] theorem setPchan_shootdowns (s : State) (n : Nat) (x : Pchan) : (s.setPchan n x).shootdowns = s.shootdowns := rfl
@[simp] theorem setPchan_parts (s : State) (n : Nat) (x : Pchan) : (s.setPchan n x).parts = s.parts := rfl
@[simp] theorem setPchan_slots (s : State) (n : Nat) (x : Pchan) : (s.setPchan n x).slots = s.slots := rfl
@[simp] theorem setPchan_idle (s : State) (n : Nat) (x : Pchan) : (s.setPchan n x).idle = s.idle := rfl
@[simp] theorem setPchan_submitted (s : State) (n : Nat) (x : Pchan) : (s.setPchan n x).submitted = s.submitted := rfl
@[simp] theorem setPchan_hubReads (s : State) (n : Nat) (x : Pchan) : (s.setPchan n x).hubReads = s.hubReads := rfl
@[simp] theorem setPchan_loadWindow (s : State) (n : Nat) (x : Pchan) : (s.setPchan n x).loadWindow = s.loadWindow := rfl
@[simp] theorem setPchan_answer (s : State) (n : Nat) (x : Pchan) : (s.setPchan n x).answer = s.answer := rfl
@[simp] theorem setPchan_irqs (s : State) (n : Nat) (x : Pchan) : (s.setPchan n x).irqs = s.irqs := rfl
@[simp] theorem setPchan_banks (s : State) (n : Nat) (x : Pchan) : (s.setPchan n x).banks = s.banks := rfl
@[simp] theorem setPchan_pchans (s : State) (n : Nat) (x : Pchan) : (s.setPchan n x).pchans = Sparse.set s.pchans n x .idle := rfl
@[simp] theorem setPchan_poisoned (s : State) (n : Nat) (x : Pchan) : (s.setPchan n x).poisoned = s.poisoned := rfl
@[simp] theorem setPchan_hbmBad (s : State) (n : Nat) (x : Pchan) : (s.setPchan n x).hbmBad = s.hbmBad := rfl
@[simp] theorem setPchan_casts (s : State) (n : Nat) (x : Pchan) : (s.setPchan n x).casts = s.casts := rfl
@[simp] theorem setPchan_cmos (s : State) (n : Nat) (x : Pchan) : (s.setPchan n x).cmos = s.cmos := rfl
@[simp] theorem setPchan_cmds (s : State) (n : Nat) (x : Pchan) : (s.setPchan n x).cmds = s.cmds := rfl
@[simp] theorem setPchan_cells (s : State) (n : Nat) (x : Pchan) : (s.setPchan n x).cells = s.cells := rfl
@[simp] theorem setPchan_plates (s : State) (n : Nat) (x : Pchan) : (s.setPchan n x).plates = s.plates := rfl
@[simp] theorem setPchan_directory (s : State) (n : Nat) (x : Pchan) : (s.setPchan n x).directory = s.directory := rfl
@[simp] theorem setPchan_bitmaps (s : State) (n : Nat) (x : Pchan) : (s.setPchan n x).bitmaps = s.bitmaps := rfl
@[simp] theorem setPchan_window (s : State) (n : Nat) (x : Pchan) : (s.setPchan n x).window = s.window := rfl
@[simp] theorem setPchan_seqNo (s : State) (n : Nat) (x : Pchan) : (s.setPchan n x).seqNo = s.seqNo := rfl
@[simp] theorem setPchan_signatures (s : State) (n : Nat) (x : Pchan) : (s.setPchan n x).signatures = s.signatures := rfl
@[simp] theorem setPchan_nodes (s : State) (n : Nat) (x : Pchan) : (s.setPchan n x).nodes = s.nodes := rfl
@[simp] theorem setPchan_arming (s : State) (n : Nat) (x : Pchan) : (s.setPchan n x).arming = s.arming := rfl
@[simp] theorem setPchan_mailbox (s : State) (n : Nat) (x : Pchan) : (s.setPchan n x).mailbox = s.mailbox := rfl
@[simp] theorem setPchan_errorLog (s : State) (n : Nat) (x : Pchan) : (s.setPchan n x).errorLog = s.errorLog := rfl
@[simp] theorem setPchan_host (s : State) (n : Nat) (x : Pchan) : (s.setPchan n x).host = s.host := rfl
@[simp] theorem setPchan_ports (s : State) (n : Nat) (x : Pchan) : (s.setPchan n x).ports = s.ports := rfl
@[simp] theorem setPchan_windows (s : State) (n : Nat) (x : Pchan) : (s.setPchan n x).windows = s.windows := rfl
@[simp] theorem setPchan_routes (s : State) (n : Nat) (x : Pchan) : (s.setPchan n x).routes = s.routes := rfl
@[simp] theorem setPchan_inbound (s : State) (n : Nat) (x : Pchan) : (s.setPchan n x).inbound = s.inbound := rfl
@[simp] theorem setPchan_withheld (s : State) (n : Nat) (x : Pchan) : (s.setPchan n x).withheld = s.withheld := rfl
@[simp] theorem setPchan_slicePm (s : State) (n : Nat) (x : Pchan) : (s.setPchan n x).slicePm = s.slicePm := rfl

@[simp] theorem setPort_agenda (s : State) (n : Nat) (x : LinkPort) : (s.setPort n x).agenda = s.agenda := rfl
@[simp] theorem setPort_turnNo (s : State) (n : Nat) (x : LinkPort) : (s.setPort n x).turnNo = s.turnNo := rfl
@[simp] theorem setPort_freeNo (s : State) (n : Nat) (x : LinkPort) : (s.setPort n x).freeNo = s.freeNo := rfl
@[simp] theorem setPort_nextId (s : State) (n : Nat) (x : LinkPort) : (s.setPort n x).nextId = s.nextId := rfl
@[simp] theorem setPort_issuer (s : State) (n : Nat) (x : LinkPort) : (s.setPort n x).issuer = s.issuer := rfl
@[simp] theorem setPort_tick (s : State) (n : Nat) (x : LinkPort) : (s.setPort n x).tick = s.tick := rfl
@[simp] theorem setPort_devTime (s : State) (n : Nat) (x : LinkPort) : (s.setPort n x).devTime = s.devTime := rfl
@[simp] theorem setPort_devFrac (s : State) (n : Nat) (x : LinkPort) : (s.setPort n x).devFrac = s.devFrac := rfl
@[simp] theorem setPort_devRate (s : State) (n : Nat) (x : LinkPort) : (s.setPort n x).devRate = s.devRate := rfl
@[simp] theorem setPort_devOffset (s : State) (n : Nat) (x : LinkPort) : (s.setPort n x).devOffset = s.devOffset := rfl
@[simp] theorem setPort_hlc (s : State) (n : Nat) (x : LinkPort) : (s.setPort n x).hlc = s.hlc := rfl
@[simp] theorem setPort_groups (s : State) (n : Nat) (x : LinkPort) : (s.setPort n x).groups = s.groups := rfl
@[simp] theorem setPort_stands (s : State) (n : Nat) (x : LinkPort) : (s.setPort n x).stands = s.stands := rfl
@[simp] theorem setPort_launches (s : State) (n : Nat) (x : LinkPort) : (s.setPort n x).launches = s.launches := rfl
@[simp] theorem setPort_cores (s : State) (n : Nat) (x : LinkPort) : (s.setPort n x).cores = s.cores := rfl
@[simp] theorem setPort_clusters (s : State) (n : Nat) (x : LinkPort) : (s.setPort n x).clusters = s.clusters := rfl
@[simp] theorem setPort_hbm (s : State) (n : Nat) (x : LinkPort) : (s.setPort n x).hbm = s.hbm := rfl
@[simp] theorem setPort_pads (s : State) (n : Nat) (x : LinkPort) : (s.setPort n x).pads = s.pads := rfl
@[simp] theorem setPort_l2 (s : State) (n : Nat) (x : LinkPort) : (s.setPort n x).l2 = s.l2 := rfl
@[simp] theorem setPort_uses (s : State) (n : Nat) (x : LinkPort) : (s.setPort n x).uses = s.uses := rfl
@[simp] theorem setPort_owners (s : State) (n : Nat) (x : LinkPort) : (s.setPort n x).owners = s.owners := rfl
@[simp] theorem setPort_recalls (s : State) (n : Nat) (x : LinkPort) : (s.setPort n x).recalls = s.recalls := rfl
@[simp] theorem setPort_heldReads (s : State) (n : Nat) (x : LinkPort) : (s.setPort n x).heldReads = s.heldReads := rfl
@[simp] theorem setPort_homeq (s : State) (n : Nat) (x : LinkPort) : (s.setPort n x).homeq = s.homeq := rfl
@[simp] theorem setPort_delivery (s : State) (n : Nat) (x : LinkPort) : (s.setPort n x).delivery = s.delivery := rfl
@[simp] theorem setPort_outstanding (s : State) (n : Nat) (x : LinkPort) : (s.setPort n x).outstanding = s.outstanding := rfl
@[simp] theorem setPort_deposits (s : State) (n : Nat) (x : LinkPort) : (s.setPort n x).deposits = s.deposits := rfl
@[simp] theorem setPort_atoms (s : State) (n : Nat) (x : LinkPort) : (s.setPort n x).atoms = s.atoms := rfl
@[simp] theorem setPort_scOrder (s : State) (n : Nat) (x : LinkPort) : (s.setPort n x).scOrder = s.scOrder := rfl
@[simp] theorem setPort_merge (s : State) (n : Nat) (x : LinkPort) : (s.setPort n x).merge = s.merge := rfl
@[simp] theorem setPort_retries (s : State) (n : Nat) (x : LinkPort) : (s.setPort n x).retries = s.retries := rfl
@[simp] theorem setPort_shootdowns (s : State) (n : Nat) (x : LinkPort) : (s.setPort n x).shootdowns = s.shootdowns := rfl
@[simp] theorem setPort_parts (s : State) (n : Nat) (x : LinkPort) : (s.setPort n x).parts = s.parts := rfl
@[simp] theorem setPort_slots (s : State) (n : Nat) (x : LinkPort) : (s.setPort n x).slots = s.slots := rfl
@[simp] theorem setPort_idle (s : State) (n : Nat) (x : LinkPort) : (s.setPort n x).idle = s.idle := rfl
@[simp] theorem setPort_submitted (s : State) (n : Nat) (x : LinkPort) : (s.setPort n x).submitted = s.submitted := rfl
@[simp] theorem setPort_hubReads (s : State) (n : Nat) (x : LinkPort) : (s.setPort n x).hubReads = s.hubReads := rfl
@[simp] theorem setPort_loadWindow (s : State) (n : Nat) (x : LinkPort) : (s.setPort n x).loadWindow = s.loadWindow := rfl
@[simp] theorem setPort_answer (s : State) (n : Nat) (x : LinkPort) : (s.setPort n x).answer = s.answer := rfl
@[simp] theorem setPort_irqs (s : State) (n : Nat) (x : LinkPort) : (s.setPort n x).irqs = s.irqs := rfl
@[simp] theorem setPort_banks (s : State) (n : Nat) (x : LinkPort) : (s.setPort n x).banks = s.banks := rfl
@[simp] theorem setPort_pchans (s : State) (n : Nat) (x : LinkPort) : (s.setPort n x).pchans = s.pchans := rfl
@[simp] theorem setPort_poisoned (s : State) (n : Nat) (x : LinkPort) : (s.setPort n x).poisoned = s.poisoned := rfl
@[simp] theorem setPort_hbmBad (s : State) (n : Nat) (x : LinkPort) : (s.setPort n x).hbmBad = s.hbmBad := rfl
@[simp] theorem setPort_casts (s : State) (n : Nat) (x : LinkPort) : (s.setPort n x).casts = s.casts := rfl
@[simp] theorem setPort_cmos (s : State) (n : Nat) (x : LinkPort) : (s.setPort n x).cmos = s.cmos := rfl
@[simp] theorem setPort_cmds (s : State) (n : Nat) (x : LinkPort) : (s.setPort n x).cmds = s.cmds := rfl
@[simp] theorem setPort_cells (s : State) (n : Nat) (x : LinkPort) : (s.setPort n x).cells = s.cells := rfl
@[simp] theorem setPort_plates (s : State) (n : Nat) (x : LinkPort) : (s.setPort n x).plates = s.plates := rfl
@[simp] theorem setPort_directory (s : State) (n : Nat) (x : LinkPort) : (s.setPort n x).directory = s.directory := rfl
@[simp] theorem setPort_bitmaps (s : State) (n : Nat) (x : LinkPort) : (s.setPort n x).bitmaps = s.bitmaps := rfl
@[simp] theorem setPort_window (s : State) (n : Nat) (x : LinkPort) : (s.setPort n x).window = s.window := rfl
@[simp] theorem setPort_seqNo (s : State) (n : Nat) (x : LinkPort) : (s.setPort n x).seqNo = s.seqNo := rfl
@[simp] theorem setPort_signatures (s : State) (n : Nat) (x : LinkPort) : (s.setPort n x).signatures = s.signatures := rfl
@[simp] theorem setPort_nodes (s : State) (n : Nat) (x : LinkPort) : (s.setPort n x).nodes = s.nodes := rfl
@[simp] theorem setPort_arming (s : State) (n : Nat) (x : LinkPort) : (s.setPort n x).arming = s.arming := rfl
@[simp] theorem setPort_mailbox (s : State) (n : Nat) (x : LinkPort) : (s.setPort n x).mailbox = s.mailbox := rfl
@[simp] theorem setPort_errorLog (s : State) (n : Nat) (x : LinkPort) : (s.setPort n x).errorLog = s.errorLog := rfl
@[simp] theorem setPort_host (s : State) (n : Nat) (x : LinkPort) : (s.setPort n x).host = s.host := rfl
@[simp] theorem setPort_ports (s : State) (n : Nat) (x : LinkPort) : (s.setPort n x).ports = Sparse.set s.ports n x .idle := rfl
@[simp] theorem setPort_windows (s : State) (n : Nat) (x : LinkPort) : (s.setPort n x).windows = s.windows := rfl
@[simp] theorem setPort_routes (s : State) (n : Nat) (x : LinkPort) : (s.setPort n x).routes = s.routes := rfl
@[simp] theorem setPort_inbound (s : State) (n : Nat) (x : LinkPort) : (s.setPort n x).inbound = s.inbound := rfl
@[simp] theorem setPort_withheld (s : State) (n : Nat) (x : LinkPort) : (s.setPort n x).withheld = s.withheld := rfl
@[simp] theorem setPort_slicePm (s : State) (n : Nat) (x : LinkPort) : (s.setPort n x).slicePm = s.slicePm := rfl

@[simp] theorem setPlate_agenda (s : State) (n : Nat) (x : Plate) : (s.setPlate n x).agenda = s.agenda := rfl
@[simp] theorem setPlate_turnNo (s : State) (n : Nat) (x : Plate) : (s.setPlate n x).turnNo = s.turnNo := rfl
@[simp] theorem setPlate_freeNo (s : State) (n : Nat) (x : Plate) : (s.setPlate n x).freeNo = s.freeNo := rfl
@[simp] theorem setPlate_nextId (s : State) (n : Nat) (x : Plate) : (s.setPlate n x).nextId = s.nextId := rfl
@[simp] theorem setPlate_issuer (s : State) (n : Nat) (x : Plate) : (s.setPlate n x).issuer = s.issuer := rfl
@[simp] theorem setPlate_tick (s : State) (n : Nat) (x : Plate) : (s.setPlate n x).tick = s.tick := rfl
@[simp] theorem setPlate_devTime (s : State) (n : Nat) (x : Plate) : (s.setPlate n x).devTime = s.devTime := rfl
@[simp] theorem setPlate_devFrac (s : State) (n : Nat) (x : Plate) : (s.setPlate n x).devFrac = s.devFrac := rfl
@[simp] theorem setPlate_devRate (s : State) (n : Nat) (x : Plate) : (s.setPlate n x).devRate = s.devRate := rfl
@[simp] theorem setPlate_devOffset (s : State) (n : Nat) (x : Plate) : (s.setPlate n x).devOffset = s.devOffset := rfl
@[simp] theorem setPlate_hlc (s : State) (n : Nat) (x : Plate) : (s.setPlate n x).hlc = s.hlc := rfl
@[simp] theorem setPlate_groups (s : State) (n : Nat) (x : Plate) : (s.setPlate n x).groups = s.groups := rfl
@[simp] theorem setPlate_stands (s : State) (n : Nat) (x : Plate) : (s.setPlate n x).stands = s.stands := rfl
@[simp] theorem setPlate_launches (s : State) (n : Nat) (x : Plate) : (s.setPlate n x).launches = s.launches := rfl
@[simp] theorem setPlate_cores (s : State) (n : Nat) (x : Plate) : (s.setPlate n x).cores = s.cores := rfl
@[simp] theorem setPlate_clusters (s : State) (n : Nat) (x : Plate) : (s.setPlate n x).clusters = s.clusters := rfl
@[simp] theorem setPlate_hbm (s : State) (n : Nat) (x : Plate) : (s.setPlate n x).hbm = s.hbm := rfl
@[simp] theorem setPlate_pads (s : State) (n : Nat) (x : Plate) : (s.setPlate n x).pads = s.pads := rfl
@[simp] theorem setPlate_l2 (s : State) (n : Nat) (x : Plate) : (s.setPlate n x).l2 = s.l2 := rfl
@[simp] theorem setPlate_uses (s : State) (n : Nat) (x : Plate) : (s.setPlate n x).uses = s.uses := rfl
@[simp] theorem setPlate_owners (s : State) (n : Nat) (x : Plate) : (s.setPlate n x).owners = s.owners := rfl
@[simp] theorem setPlate_recalls (s : State) (n : Nat) (x : Plate) : (s.setPlate n x).recalls = s.recalls := rfl
@[simp] theorem setPlate_heldReads (s : State) (n : Nat) (x : Plate) : (s.setPlate n x).heldReads = s.heldReads := rfl
@[simp] theorem setPlate_homeq (s : State) (n : Nat) (x : Plate) : (s.setPlate n x).homeq = s.homeq := rfl
@[simp] theorem setPlate_delivery (s : State) (n : Nat) (x : Plate) : (s.setPlate n x).delivery = s.delivery := rfl
@[simp] theorem setPlate_outstanding (s : State) (n : Nat) (x : Plate) : (s.setPlate n x).outstanding = s.outstanding := rfl
@[simp] theorem setPlate_deposits (s : State) (n : Nat) (x : Plate) : (s.setPlate n x).deposits = s.deposits := rfl
@[simp] theorem setPlate_atoms (s : State) (n : Nat) (x : Plate) : (s.setPlate n x).atoms = s.atoms := rfl
@[simp] theorem setPlate_scOrder (s : State) (n : Nat) (x : Plate) : (s.setPlate n x).scOrder = s.scOrder := rfl
@[simp] theorem setPlate_merge (s : State) (n : Nat) (x : Plate) : (s.setPlate n x).merge = s.merge := rfl
@[simp] theorem setPlate_retries (s : State) (n : Nat) (x : Plate) : (s.setPlate n x).retries = s.retries := rfl
@[simp] theorem setPlate_shootdowns (s : State) (n : Nat) (x : Plate) : (s.setPlate n x).shootdowns = s.shootdowns := rfl
@[simp] theorem setPlate_parts (s : State) (n : Nat) (x : Plate) : (s.setPlate n x).parts = s.parts := rfl
@[simp] theorem setPlate_slots (s : State) (n : Nat) (x : Plate) : (s.setPlate n x).slots = s.slots := rfl
@[simp] theorem setPlate_idle (s : State) (n : Nat) (x : Plate) : (s.setPlate n x).idle = s.idle := rfl
@[simp] theorem setPlate_submitted (s : State) (n : Nat) (x : Plate) : (s.setPlate n x).submitted = s.submitted := rfl
@[simp] theorem setPlate_hubReads (s : State) (n : Nat) (x : Plate) : (s.setPlate n x).hubReads = s.hubReads := rfl
@[simp] theorem setPlate_loadWindow (s : State) (n : Nat) (x : Plate) : (s.setPlate n x).loadWindow = s.loadWindow := rfl
@[simp] theorem setPlate_answer (s : State) (n : Nat) (x : Plate) : (s.setPlate n x).answer = s.answer := rfl
@[simp] theorem setPlate_irqs (s : State) (n : Nat) (x : Plate) : (s.setPlate n x).irqs = s.irqs := rfl
@[simp] theorem setPlate_banks (s : State) (n : Nat) (x : Plate) : (s.setPlate n x).banks = s.banks := rfl
@[simp] theorem setPlate_pchans (s : State) (n : Nat) (x : Plate) : (s.setPlate n x).pchans = s.pchans := rfl
@[simp] theorem setPlate_poisoned (s : State) (n : Nat) (x : Plate) : (s.setPlate n x).poisoned = s.poisoned := rfl
@[simp] theorem setPlate_hbmBad (s : State) (n : Nat) (x : Plate) : (s.setPlate n x).hbmBad = s.hbmBad := rfl
@[simp] theorem setPlate_casts (s : State) (n : Nat) (x : Plate) : (s.setPlate n x).casts = s.casts := rfl
@[simp] theorem setPlate_cmos (s : State) (n : Nat) (x : Plate) : (s.setPlate n x).cmos = s.cmos := rfl
@[simp] theorem setPlate_cmds (s : State) (n : Nat) (x : Plate) : (s.setPlate n x).cmds = s.cmds := rfl
@[simp] theorem setPlate_cells (s : State) (n : Nat) (x : Plate) : (s.setPlate n x).cells = s.cells := rfl
@[simp] theorem setPlate_plates (s : State) (n : Nat) (x : Plate) : (s.setPlate n x).plates = Sparse.set s.plates n x .fresh := rfl
@[simp] theorem setPlate_directory (s : State) (n : Nat) (x : Plate) : (s.setPlate n x).directory = s.directory := rfl
@[simp] theorem setPlate_bitmaps (s : State) (n : Nat) (x : Plate) : (s.setPlate n x).bitmaps = s.bitmaps := rfl
@[simp] theorem setPlate_window (s : State) (n : Nat) (x : Plate) : (s.setPlate n x).window = s.window := rfl
@[simp] theorem setPlate_seqNo (s : State) (n : Nat) (x : Plate) : (s.setPlate n x).seqNo = s.seqNo := rfl
@[simp] theorem setPlate_signatures (s : State) (n : Nat) (x : Plate) : (s.setPlate n x).signatures = s.signatures := rfl
@[simp] theorem setPlate_nodes (s : State) (n : Nat) (x : Plate) : (s.setPlate n x).nodes = s.nodes := rfl
@[simp] theorem setPlate_arming (s : State) (n : Nat) (x : Plate) : (s.setPlate n x).arming = s.arming := rfl
@[simp] theorem setPlate_mailbox (s : State) (n : Nat) (x : Plate) : (s.setPlate n x).mailbox = s.mailbox := rfl
@[simp] theorem setPlate_errorLog (s : State) (n : Nat) (x : Plate) : (s.setPlate n x).errorLog = s.errorLog := rfl
@[simp] theorem setPlate_host (s : State) (n : Nat) (x : Plate) : (s.setPlate n x).host = s.host := rfl
@[simp] theorem setPlate_ports (s : State) (n : Nat) (x : Plate) : (s.setPlate n x).ports = s.ports := rfl
@[simp] theorem setPlate_windows (s : State) (n : Nat) (x : Plate) : (s.setPlate n x).windows = s.windows := rfl
@[simp] theorem setPlate_routes (s : State) (n : Nat) (x : Plate) : (s.setPlate n x).routes = s.routes := rfl
@[simp] theorem setPlate_inbound (s : State) (n : Nat) (x : Plate) : (s.setPlate n x).inbound = s.inbound := rfl
@[simp] theorem setPlate_withheld (s : State) (n : Nat) (x : Plate) : (s.setPlate n x).withheld = s.withheld := rfl
@[simp] theorem setPlate_slicePm (s : State) (n : Nat) (x : Plate) : (s.setPlate n x).slicePm = s.slicePm := rfl

@[simp] theorem setEntry_agenda (s : State) (n : Nat) (x : BitVec 512) : (s.setEntry n x).agenda = s.agenda := rfl
@[simp] theorem setEntry_turnNo (s : State) (n : Nat) (x : BitVec 512) : (s.setEntry n x).turnNo = s.turnNo := rfl
@[simp] theorem setEntry_freeNo (s : State) (n : Nat) (x : BitVec 512) : (s.setEntry n x).freeNo = s.freeNo := rfl
@[simp] theorem setEntry_nextId (s : State) (n : Nat) (x : BitVec 512) : (s.setEntry n x).nextId = s.nextId := rfl
@[simp] theorem setEntry_issuer (s : State) (n : Nat) (x : BitVec 512) : (s.setEntry n x).issuer = s.issuer := rfl
@[simp] theorem setEntry_tick (s : State) (n : Nat) (x : BitVec 512) : (s.setEntry n x).tick = s.tick := rfl
@[simp] theorem setEntry_devTime (s : State) (n : Nat) (x : BitVec 512) : (s.setEntry n x).devTime = s.devTime := rfl
@[simp] theorem setEntry_devFrac (s : State) (n : Nat) (x : BitVec 512) : (s.setEntry n x).devFrac = s.devFrac := rfl
@[simp] theorem setEntry_devRate (s : State) (n : Nat) (x : BitVec 512) : (s.setEntry n x).devRate = s.devRate := rfl
@[simp] theorem setEntry_devOffset (s : State) (n : Nat) (x : BitVec 512) : (s.setEntry n x).devOffset = s.devOffset := rfl
@[simp] theorem setEntry_hlc (s : State) (n : Nat) (x : BitVec 512) : (s.setEntry n x).hlc = s.hlc := rfl
@[simp] theorem setEntry_groups (s : State) (n : Nat) (x : BitVec 512) : (s.setEntry n x).groups = s.groups := rfl
@[simp] theorem setEntry_stands (s : State) (n : Nat) (x : BitVec 512) : (s.setEntry n x).stands = s.stands := rfl
@[simp] theorem setEntry_launches (s : State) (n : Nat) (x : BitVec 512) : (s.setEntry n x).launches = s.launches := rfl
@[simp] theorem setEntry_cores (s : State) (n : Nat) (x : BitVec 512) : (s.setEntry n x).cores = s.cores := rfl
@[simp] theorem setEntry_clusters (s : State) (n : Nat) (x : BitVec 512) : (s.setEntry n x).clusters = s.clusters := rfl
@[simp] theorem setEntry_hbm (s : State) (n : Nat) (x : BitVec 512) : (s.setEntry n x).hbm = s.hbm := rfl
@[simp] theorem setEntry_pads (s : State) (n : Nat) (x : BitVec 512) : (s.setEntry n x).pads = s.pads := rfl
@[simp] theorem setEntry_l2 (s : State) (n : Nat) (x : BitVec 512) : (s.setEntry n x).l2 = s.l2 := rfl
@[simp] theorem setEntry_uses (s : State) (n : Nat) (x : BitVec 512) : (s.setEntry n x).uses = s.uses := rfl
@[simp] theorem setEntry_owners (s : State) (n : Nat) (x : BitVec 512) : (s.setEntry n x).owners = s.owners := rfl
@[simp] theorem setEntry_recalls (s : State) (n : Nat) (x : BitVec 512) : (s.setEntry n x).recalls = s.recalls := rfl
@[simp] theorem setEntry_heldReads (s : State) (n : Nat) (x : BitVec 512) : (s.setEntry n x).heldReads = s.heldReads := rfl
@[simp] theorem setEntry_homeq (s : State) (n : Nat) (x : BitVec 512) : (s.setEntry n x).homeq = s.homeq := rfl
@[simp] theorem setEntry_delivery (s : State) (n : Nat) (x : BitVec 512) : (s.setEntry n x).delivery = s.delivery := rfl
@[simp] theorem setEntry_outstanding (s : State) (n : Nat) (x : BitVec 512) : (s.setEntry n x).outstanding = s.outstanding := rfl
@[simp] theorem setEntry_deposits (s : State) (n : Nat) (x : BitVec 512) : (s.setEntry n x).deposits = s.deposits := rfl
@[simp] theorem setEntry_atoms (s : State) (n : Nat) (x : BitVec 512) : (s.setEntry n x).atoms = s.atoms := rfl
@[simp] theorem setEntry_scOrder (s : State) (n : Nat) (x : BitVec 512) : (s.setEntry n x).scOrder = s.scOrder := rfl
@[simp] theorem setEntry_merge (s : State) (n : Nat) (x : BitVec 512) : (s.setEntry n x).merge = s.merge := rfl
@[simp] theorem setEntry_retries (s : State) (n : Nat) (x : BitVec 512) : (s.setEntry n x).retries = s.retries := rfl
@[simp] theorem setEntry_shootdowns (s : State) (n : Nat) (x : BitVec 512) : (s.setEntry n x).shootdowns = s.shootdowns := rfl
@[simp] theorem setEntry_parts (s : State) (n : Nat) (x : BitVec 512) : (s.setEntry n x).parts = s.parts := rfl
@[simp] theorem setEntry_slots (s : State) (n : Nat) (x : BitVec 512) : (s.setEntry n x).slots = s.slots := rfl
@[simp] theorem setEntry_idle (s : State) (n : Nat) (x : BitVec 512) : (s.setEntry n x).idle = s.idle := rfl
@[simp] theorem setEntry_submitted (s : State) (n : Nat) (x : BitVec 512) : (s.setEntry n x).submitted = s.submitted := rfl
@[simp] theorem setEntry_hubReads (s : State) (n : Nat) (x : BitVec 512) : (s.setEntry n x).hubReads = s.hubReads := rfl
@[simp] theorem setEntry_loadWindow (s : State) (n : Nat) (x : BitVec 512) : (s.setEntry n x).loadWindow = s.loadWindow := rfl
@[simp] theorem setEntry_answer (s : State) (n : Nat) (x : BitVec 512) : (s.setEntry n x).answer = s.answer := rfl
@[simp] theorem setEntry_irqs (s : State) (n : Nat) (x : BitVec 512) : (s.setEntry n x).irqs = s.irqs := rfl
@[simp] theorem setEntry_banks (s : State) (n : Nat) (x : BitVec 512) : (s.setEntry n x).banks = s.banks := rfl
@[simp] theorem setEntry_pchans (s : State) (n : Nat) (x : BitVec 512) : (s.setEntry n x).pchans = s.pchans := rfl
@[simp] theorem setEntry_poisoned (s : State) (n : Nat) (x : BitVec 512) : (s.setEntry n x).poisoned = s.poisoned := rfl
@[simp] theorem setEntry_hbmBad (s : State) (n : Nat) (x : BitVec 512) : (s.setEntry n x).hbmBad = s.hbmBad := rfl
@[simp] theorem setEntry_casts (s : State) (n : Nat) (x : BitVec 512) : (s.setEntry n x).casts = s.casts := rfl
@[simp] theorem setEntry_cmos (s : State) (n : Nat) (x : BitVec 512) : (s.setEntry n x).cmos = s.cmos := rfl
@[simp] theorem setEntry_cmds (s : State) (n : Nat) (x : BitVec 512) : (s.setEntry n x).cmds = s.cmds := rfl
@[simp] theorem setEntry_cells (s : State) (n : Nat) (x : BitVec 512) : (s.setEntry n x).cells = s.cells := rfl
@[simp] theorem setEntry_plates (s : State) (n : Nat) (x : BitVec 512) : (s.setEntry n x).plates = s.plates := rfl
@[simp] theorem setEntry_directory (s : State) (n : Nat) (x : BitVec 512) : (s.setEntry n x).directory = Sparse.set s.directory n x 0 := rfl
@[simp] theorem setEntry_bitmaps (s : State) (n : Nat) (x : BitVec 512) : (s.setEntry n x).bitmaps = s.bitmaps := rfl
@[simp] theorem setEntry_window (s : State) (n : Nat) (x : BitVec 512) : (s.setEntry n x).window = s.window := rfl
@[simp] theorem setEntry_seqNo (s : State) (n : Nat) (x : BitVec 512) : (s.setEntry n x).seqNo = s.seqNo := rfl
@[simp] theorem setEntry_signatures (s : State) (n : Nat) (x : BitVec 512) : (s.setEntry n x).signatures = s.signatures := rfl
@[simp] theorem setEntry_nodes (s : State) (n : Nat) (x : BitVec 512) : (s.setEntry n x).nodes = s.nodes := rfl
@[simp] theorem setEntry_arming (s : State) (n : Nat) (x : BitVec 512) : (s.setEntry n x).arming = s.arming := rfl
@[simp] theorem setEntry_mailbox (s : State) (n : Nat) (x : BitVec 512) : (s.setEntry n x).mailbox = s.mailbox := rfl
@[simp] theorem setEntry_errorLog (s : State) (n : Nat) (x : BitVec 512) : (s.setEntry n x).errorLog = s.errorLog := rfl
@[simp] theorem setEntry_host (s : State) (n : Nat) (x : BitVec 512) : (s.setEntry n x).host = s.host := rfl
@[simp] theorem setEntry_ports (s : State) (n : Nat) (x : BitVec 512) : (s.setEntry n x).ports = s.ports := rfl
@[simp] theorem setEntry_windows (s : State) (n : Nat) (x : BitVec 512) : (s.setEntry n x).windows = s.windows := rfl
@[simp] theorem setEntry_routes (s : State) (n : Nat) (x : BitVec 512) : (s.setEntry n x).routes = s.routes := rfl
@[simp] theorem setEntry_inbound (s : State) (n : Nat) (x : BitVec 512) : (s.setEntry n x).inbound = s.inbound := rfl
@[simp] theorem setEntry_withheld (s : State) (n : Nat) (x : BitVec 512) : (s.setEntry n x).withheld = s.withheld := rfl
@[simp] theorem setEntry_slicePm (s : State) (n : Nat) (x : BitVec 512) : (s.setEntry n x).slicePm = s.slicePm := rfl

@[simp] theorem modHost_agenda (s : State) (f : HostPage → HostPage) : (s.modHost f).agenda = s.agenda := rfl
@[simp] theorem modHost_turnNo (s : State) (f : HostPage → HostPage) : (s.modHost f).turnNo = s.turnNo := rfl
@[simp] theorem modHost_freeNo (s : State) (f : HostPage → HostPage) : (s.modHost f).freeNo = s.freeNo := rfl
@[simp] theorem modHost_nextId (s : State) (f : HostPage → HostPage) : (s.modHost f).nextId = s.nextId := rfl
@[simp] theorem modHost_issuer (s : State) (f : HostPage → HostPage) : (s.modHost f).issuer = s.issuer := rfl
@[simp] theorem modHost_tick (s : State) (f : HostPage → HostPage) : (s.modHost f).tick = s.tick := rfl
@[simp] theorem modHost_devTime (s : State) (f : HostPage → HostPage) : (s.modHost f).devTime = s.devTime := rfl
@[simp] theorem modHost_devFrac (s : State) (f : HostPage → HostPage) : (s.modHost f).devFrac = s.devFrac := rfl
@[simp] theorem modHost_devRate (s : State) (f : HostPage → HostPage) : (s.modHost f).devRate = s.devRate := rfl
@[simp] theorem modHost_devOffset (s : State) (f : HostPage → HostPage) : (s.modHost f).devOffset = s.devOffset := rfl
@[simp] theorem modHost_hlc (s : State) (f : HostPage → HostPage) : (s.modHost f).hlc = s.hlc := rfl
@[simp] theorem modHost_groups (s : State) (f : HostPage → HostPage) : (s.modHost f).groups = s.groups := rfl
@[simp] theorem modHost_stands (s : State) (f : HostPage → HostPage) : (s.modHost f).stands = s.stands := rfl
@[simp] theorem modHost_launches (s : State) (f : HostPage → HostPage) : (s.modHost f).launches = s.launches := rfl
@[simp] theorem modHost_cores (s : State) (f : HostPage → HostPage) : (s.modHost f).cores = s.cores := rfl
@[simp] theorem modHost_clusters (s : State) (f : HostPage → HostPage) : (s.modHost f).clusters = s.clusters := rfl
@[simp] theorem modHost_hbm (s : State) (f : HostPage → HostPage) : (s.modHost f).hbm = s.hbm := rfl
@[simp] theorem modHost_pads (s : State) (f : HostPage → HostPage) : (s.modHost f).pads = s.pads := rfl
@[simp] theorem modHost_l2 (s : State) (f : HostPage → HostPage) : (s.modHost f).l2 = s.l2 := rfl
@[simp] theorem modHost_uses (s : State) (f : HostPage → HostPage) : (s.modHost f).uses = s.uses := rfl
@[simp] theorem modHost_owners (s : State) (f : HostPage → HostPage) : (s.modHost f).owners = s.owners := rfl
@[simp] theorem modHost_recalls (s : State) (f : HostPage → HostPage) : (s.modHost f).recalls = s.recalls := rfl
@[simp] theorem modHost_heldReads (s : State) (f : HostPage → HostPage) : (s.modHost f).heldReads = s.heldReads := rfl
@[simp] theorem modHost_homeq (s : State) (f : HostPage → HostPage) : (s.modHost f).homeq = s.homeq := rfl
@[simp] theorem modHost_delivery (s : State) (f : HostPage → HostPage) : (s.modHost f).delivery = s.delivery := rfl
@[simp] theorem modHost_outstanding (s : State) (f : HostPage → HostPage) : (s.modHost f).outstanding = s.outstanding := rfl
@[simp] theorem modHost_deposits (s : State) (f : HostPage → HostPage) : (s.modHost f).deposits = s.deposits := rfl
@[simp] theorem modHost_atoms (s : State) (f : HostPage → HostPage) : (s.modHost f).atoms = s.atoms := rfl
@[simp] theorem modHost_scOrder (s : State) (f : HostPage → HostPage) : (s.modHost f).scOrder = s.scOrder := rfl
@[simp] theorem modHost_merge (s : State) (f : HostPage → HostPage) : (s.modHost f).merge = s.merge := rfl
@[simp] theorem modHost_retries (s : State) (f : HostPage → HostPage) : (s.modHost f).retries = s.retries := rfl
@[simp] theorem modHost_shootdowns (s : State) (f : HostPage → HostPage) : (s.modHost f).shootdowns = s.shootdowns := rfl
@[simp] theorem modHost_parts (s : State) (f : HostPage → HostPage) : (s.modHost f).parts = s.parts := rfl
@[simp] theorem modHost_slots (s : State) (f : HostPage → HostPage) : (s.modHost f).slots = s.slots := rfl
@[simp] theorem modHost_idle (s : State) (f : HostPage → HostPage) : (s.modHost f).idle = s.idle := rfl
@[simp] theorem modHost_submitted (s : State) (f : HostPage → HostPage) : (s.modHost f).submitted = s.submitted := rfl
@[simp] theorem modHost_hubReads (s : State) (f : HostPage → HostPage) : (s.modHost f).hubReads = s.hubReads := rfl
@[simp] theorem modHost_loadWindow (s : State) (f : HostPage → HostPage) : (s.modHost f).loadWindow = s.loadWindow := rfl
@[simp] theorem modHost_answer (s : State) (f : HostPage → HostPage) : (s.modHost f).answer = s.answer := rfl
@[simp] theorem modHost_irqs (s : State) (f : HostPage → HostPage) : (s.modHost f).irqs = s.irqs := rfl
@[simp] theorem modHost_banks (s : State) (f : HostPage → HostPage) : (s.modHost f).banks = s.banks := rfl
@[simp] theorem modHost_pchans (s : State) (f : HostPage → HostPage) : (s.modHost f).pchans = s.pchans := rfl
@[simp] theorem modHost_poisoned (s : State) (f : HostPage → HostPage) : (s.modHost f).poisoned = s.poisoned := rfl
@[simp] theorem modHost_hbmBad (s : State) (f : HostPage → HostPage) : (s.modHost f).hbmBad = s.hbmBad := rfl
@[simp] theorem modHost_casts (s : State) (f : HostPage → HostPage) : (s.modHost f).casts = s.casts := rfl
@[simp] theorem modHost_cmos (s : State) (f : HostPage → HostPage) : (s.modHost f).cmos = s.cmos := rfl
@[simp] theorem modHost_cmds (s : State) (f : HostPage → HostPage) : (s.modHost f).cmds = s.cmds := rfl
@[simp] theorem modHost_cells (s : State) (f : HostPage → HostPage) : (s.modHost f).cells = s.cells := rfl
@[simp] theorem modHost_plates (s : State) (f : HostPage → HostPage) : (s.modHost f).plates = s.plates := rfl
@[simp] theorem modHost_directory (s : State) (f : HostPage → HostPage) : (s.modHost f).directory = s.directory := rfl
@[simp] theorem modHost_bitmaps (s : State) (f : HostPage → HostPage) : (s.modHost f).bitmaps = s.bitmaps := rfl
@[simp] theorem modHost_window (s : State) (f : HostPage → HostPage) : (s.modHost f).window = s.window := rfl
@[simp] theorem modHost_seqNo (s : State) (f : HostPage → HostPage) : (s.modHost f).seqNo = s.seqNo := rfl
@[simp] theorem modHost_signatures (s : State) (f : HostPage → HostPage) : (s.modHost f).signatures = s.signatures := rfl
@[simp] theorem modHost_nodes (s : State) (f : HostPage → HostPage) : (s.modHost f).nodes = s.nodes := rfl
@[simp] theorem modHost_arming (s : State) (f : HostPage → HostPage) : (s.modHost f).arming = s.arming := rfl
@[simp] theorem modHost_mailbox (s : State) (f : HostPage → HostPage) : (s.modHost f).mailbox = s.mailbox := rfl
@[simp] theorem modHost_errorLog (s : State) (f : HostPage → HostPage) : (s.modHost f).errorLog = s.errorLog := rfl
@[simp] theorem modHost_host (s : State) (f : HostPage → HostPage) : (s.modHost f).host = f s.host := rfl
@[simp] theorem modHost_ports (s : State) (f : HostPage → HostPage) : (s.modHost f).ports = s.ports := rfl
@[simp] theorem modHost_windows (s : State) (f : HostPage → HostPage) : (s.modHost f).windows = s.windows := rfl
@[simp] theorem modHost_routes (s : State) (f : HostPage → HostPage) : (s.modHost f).routes = s.routes := rfl
@[simp] theorem modHost_inbound (s : State) (f : HostPage → HostPage) : (s.modHost f).inbound = s.inbound := rfl
@[simp] theorem modHost_withheld (s : State) (f : HostPage → HostPage) : (s.modHost f).withheld = s.withheld := rfl
@[simp] theorem modHost_slicePm (s : State) (f : HostPage → HostPage) : (s.modHost f).slicePm = s.slicePm := rfl

@[simp] theorem setV_stand (g : Group) (n : Nat) (x : VReg) : (g.setV n x).stand = g.stand := rfl
@[simp] theorem setV_sched (g : Group) (n : Nat) (x : VReg) : (g.setV n x).sched = g.sched := rfl
@[simp] theorem setV_number (g : Group) (n : Nat) (x : VReg) : (g.setV n x).number = g.number := rfl
@[simp] theorem setV_granules (g : Group) (n : Nat) (x : VReg) : (g.setV n x).granules = g.granules := rfl
@[simp] theorem setV_mats (g : Group) (n : Nat) (x : VReg) : (g.setV n x).mats = g.mats := rfl
@[simp] theorem setV_wid (g : Group) (n : Nat) (x : VReg) : (g.setV n x).wid = g.wid := rfl
@[simp] theorem setV_spawnid (g : Group) (n : Nat) (x : VReg) : (g.setV n x).spawnid = g.spawnid := rfl
@[simp] theorem setV_v (g : Group) (n : Nat) (x : VReg) : (g.setV n x).v = Sparse.set g.v n x .launch := rfl
@[simp] theorem setV_p (g : Group) (n : Nat) (x : VReg) : (g.setV n x).p = g.p := rfl
@[simp] theorem setV_m (g : Group) (n : Nat) (x : VReg) : (g.setV n x).m = g.m := rfl
@[simp] theorem setV_x (g : Group) (n : Nat) (x : VReg) : (g.setV n x).x = g.x := rfl
@[simp] theorem setV_slotA (g : Group) (n : Nat) (x : VReg) : (g.setV n x).slotA = g.slotA := rfl
@[simp] theorem setV_slotB (g : Group) (n : Nat) (x : VReg) : (g.setV n x).slotB = g.slotB := rfl
@[simp] theorem setV_rcv (g : Group) (n : Nat) (x : VReg) : (g.setV n x).rcv = g.rcv := rfl
@[simp] theorem setV_dsp (g : Group) (n : Nat) (x : VReg) : (g.setV n x).dsp = g.dsp := rfl
@[simp] theorem setV_snap (g : Group) (n : Nat) (x : VReg) : (g.setV n x).snap = g.snap := rfl
@[simp] theorem setV_trap (g : Group) (n : Nat) (x : VReg) : (g.setV n x).trap = g.trap := rfl
@[simp] theorem setV_casterr (g : Group) (n : Nat) (x : VReg) : (g.setV n x).casterr = g.casterr := rfl
@[simp] theorem setV_arrived (g : Group) (n : Nat) (x : VReg) : (g.setV n x).arrived = g.arrived := rfl
@[simp] theorem setV_fifo (g : Group) (n : Nat) (x : VReg) : (g.setV n x).fifo = g.fifo := rfl
@[simp] theorem setV_saving (g : Group) (n : Nat) (x : VReg) : (g.setV n x).saving = g.saving := rfl
@[simp] theorem setV_accs (g : Group) (n : Nat) (x : VReg) : (g.setV n x).accs = g.accs := rfl
@[simp] theorem setV_txn (g : Group) (n : Nat) (x : VReg) : (g.setV n x).txn = g.txn := rfl
@[simp] theorem setV_run (g : Group) (n : Nat) (x : VReg) : (g.setV n x).run = g.run := rfl
@[simp] theorem setV_susp (g : Group) (n : Nat) (x : VReg) : (g.setV n x).susp = g.susp := rfl
@[simp] theorem setV_suspSnap (g : Group) (n : Nat) (x : VReg) : (g.setV n x).suspSnap = g.suspSnap := rfl
@[simp] theorem setV_exited (g : Group) (n : Nat) (x : VReg) : (g.setV n x).exited = g.exited := rfl
@[simp] theorem setV_held (g : Group) (n : Nat) (x : VReg) : (g.setV n x).held = g.held := rfl
@[simp] theorem setV_parked (g : Group) (n : Nat) (x : VReg) : (g.setV n x).parked = g.parked := rfl
@[simp] theorem setV_missing (g : Group) (n : Nat) (x : VReg) : (g.setV n x).missing = g.missing := rfl
@[simp] theorem setV_preempt (g : Group) (n : Nat) (x : VReg) : (g.setV n x).preempt = g.preempt := rfl
@[simp] theorem setV_retired (g : Group) (n : Nat) (x : VReg) : (g.setV n x).retired = g.retired := rfl
@[simp] theorem setV_unborn (g : Group) (n : Nat) (x : VReg) : (g.setV n x).unborn = g.unborn := rfl
@[simp] theorem setV_lost (g : Group) (n : Nat) (x : VReg) : (g.setV n x).lost = g.lost := rfl
@[simp] theorem setV_entering (g : Group) (n : Nat) (x : VReg) : (g.setV n x).entering = g.entering := rfl
@[simp] theorem setV_tracing (g : Group) (n : Nat) (x : VReg) : (g.setV n x).tracing = g.tracing := rfl
@[simp] theorem setV_sinceSync (g : Group) (n : Nat) (x : VReg) : (g.setV n x).sinceSync = g.sinceSync := rfl
@[simp] theorem setV_dbg (g : Group) (n : Nat) (x : VReg) : (g.setV n x).dbg = g.dbg := rfl

@[simp] theorem setP_stand (g : Group) (n : Nat) (x : PReg) : (g.setP n x).stand = g.stand := rfl
@[simp] theorem setP_sched (g : Group) (n : Nat) (x : PReg) : (g.setP n x).sched = g.sched := rfl
@[simp] theorem setP_number (g : Group) (n : Nat) (x : PReg) : (g.setP n x).number = g.number := rfl
@[simp] theorem setP_granules (g : Group) (n : Nat) (x : PReg) : (g.setP n x).granules = g.granules := rfl
@[simp] theorem setP_mats (g : Group) (n : Nat) (x : PReg) : (g.setP n x).mats = g.mats := rfl
@[simp] theorem setP_wid (g : Group) (n : Nat) (x : PReg) : (g.setP n x).wid = g.wid := rfl
@[simp] theorem setP_spawnid (g : Group) (n : Nat) (x : PReg) : (g.setP n x).spawnid = g.spawnid := rfl
@[simp] theorem setP_v (g : Group) (n : Nat) (x : PReg) : (g.setP n x).v = g.v := rfl
@[simp] theorem setP_p (g : Group) (n : Nat) (x : PReg) : (g.setP n x).p = Sparse.set g.p n x .launch := rfl
@[simp] theorem setP_m (g : Group) (n : Nat) (x : PReg) : (g.setP n x).m = g.m := rfl
@[simp] theorem setP_x (g : Group) (n : Nat) (x : PReg) : (g.setP n x).x = g.x := rfl
@[simp] theorem setP_slotA (g : Group) (n : Nat) (x : PReg) : (g.setP n x).slotA = g.slotA := rfl
@[simp] theorem setP_slotB (g : Group) (n : Nat) (x : PReg) : (g.setP n x).slotB = g.slotB := rfl
@[simp] theorem setP_rcv (g : Group) (n : Nat) (x : PReg) : (g.setP n x).rcv = g.rcv := rfl
@[simp] theorem setP_dsp (g : Group) (n : Nat) (x : PReg) : (g.setP n x).dsp = g.dsp := rfl
@[simp] theorem setP_snap (g : Group) (n : Nat) (x : PReg) : (g.setP n x).snap = g.snap := rfl
@[simp] theorem setP_trap (g : Group) (n : Nat) (x : PReg) : (g.setP n x).trap = g.trap := rfl
@[simp] theorem setP_casterr (g : Group) (n : Nat) (x : PReg) : (g.setP n x).casterr = g.casterr := rfl
@[simp] theorem setP_arrived (g : Group) (n : Nat) (x : PReg) : (g.setP n x).arrived = g.arrived := rfl
@[simp] theorem setP_fifo (g : Group) (n : Nat) (x : PReg) : (g.setP n x).fifo = g.fifo := rfl
@[simp] theorem setP_saving (g : Group) (n : Nat) (x : PReg) : (g.setP n x).saving = g.saving := rfl
@[simp] theorem setP_accs (g : Group) (n : Nat) (x : PReg) : (g.setP n x).accs = g.accs := rfl
@[simp] theorem setP_txn (g : Group) (n : Nat) (x : PReg) : (g.setP n x).txn = g.txn := rfl
@[simp] theorem setP_run (g : Group) (n : Nat) (x : PReg) : (g.setP n x).run = g.run := rfl
@[simp] theorem setP_susp (g : Group) (n : Nat) (x : PReg) : (g.setP n x).susp = g.susp := rfl
@[simp] theorem setP_suspSnap (g : Group) (n : Nat) (x : PReg) : (g.setP n x).suspSnap = g.suspSnap := rfl
@[simp] theorem setP_exited (g : Group) (n : Nat) (x : PReg) : (g.setP n x).exited = g.exited := rfl
@[simp] theorem setP_held (g : Group) (n : Nat) (x : PReg) : (g.setP n x).held = g.held := rfl
@[simp] theorem setP_parked (g : Group) (n : Nat) (x : PReg) : (g.setP n x).parked = g.parked := rfl
@[simp] theorem setP_missing (g : Group) (n : Nat) (x : PReg) : (g.setP n x).missing = g.missing := rfl
@[simp] theorem setP_preempt (g : Group) (n : Nat) (x : PReg) : (g.setP n x).preempt = g.preempt := rfl
@[simp] theorem setP_retired (g : Group) (n : Nat) (x : PReg) : (g.setP n x).retired = g.retired := rfl
@[simp] theorem setP_unborn (g : Group) (n : Nat) (x : PReg) : (g.setP n x).unborn = g.unborn := rfl
@[simp] theorem setP_lost (g : Group) (n : Nat) (x : PReg) : (g.setP n x).lost = g.lost := rfl
@[simp] theorem setP_entering (g : Group) (n : Nat) (x : PReg) : (g.setP n x).entering = g.entering := rfl
@[simp] theorem setP_tracing (g : Group) (n : Nat) (x : PReg) : (g.setP n x).tracing = g.tracing := rfl
@[simp] theorem setP_sinceSync (g : Group) (n : Nat) (x : PReg) : (g.setP n x).sinceSync = g.sinceSync := rfl
@[simp] theorem setP_dbg (g : Group) (n : Nat) (x : PReg) : (g.setP n x).dbg = g.dbg := rfl

@[simp] theorem setM_stand (g : Group) (n : Nat) (x : MReg) : (g.setM n x).stand = g.stand := rfl
@[simp] theorem setM_sched (g : Group) (n : Nat) (x : MReg) : (g.setM n x).sched = g.sched := rfl
@[simp] theorem setM_number (g : Group) (n : Nat) (x : MReg) : (g.setM n x).number = g.number := rfl
@[simp] theorem setM_granules (g : Group) (n : Nat) (x : MReg) : (g.setM n x).granules = g.granules := rfl
@[simp] theorem setM_mats (g : Group) (n : Nat) (x : MReg) : (g.setM n x).mats = g.mats := rfl
@[simp] theorem setM_wid (g : Group) (n : Nat) (x : MReg) : (g.setM n x).wid = g.wid := rfl
@[simp] theorem setM_spawnid (g : Group) (n : Nat) (x : MReg) : (g.setM n x).spawnid = g.spawnid := rfl
@[simp] theorem setM_v (g : Group) (n : Nat) (x : MReg) : (g.setM n x).v = g.v := rfl
@[simp] theorem setM_p (g : Group) (n : Nat) (x : MReg) : (g.setM n x).p = g.p := rfl
@[simp] theorem setM_m (g : Group) (n : Nat) (x : MReg) : (g.setM n x).m = Sparse.set g.m n x .launch := rfl
@[simp] theorem setM_x (g : Group) (n : Nat) (x : MReg) : (g.setM n x).x = g.x := rfl
@[simp] theorem setM_slotA (g : Group) (n : Nat) (x : MReg) : (g.setM n x).slotA = g.slotA := rfl
@[simp] theorem setM_slotB (g : Group) (n : Nat) (x : MReg) : (g.setM n x).slotB = g.slotB := rfl
@[simp] theorem setM_rcv (g : Group) (n : Nat) (x : MReg) : (g.setM n x).rcv = g.rcv := rfl
@[simp] theorem setM_dsp (g : Group) (n : Nat) (x : MReg) : (g.setM n x).dsp = g.dsp := rfl
@[simp] theorem setM_snap (g : Group) (n : Nat) (x : MReg) : (g.setM n x).snap = g.snap := rfl
@[simp] theorem setM_trap (g : Group) (n : Nat) (x : MReg) : (g.setM n x).trap = g.trap := rfl
@[simp] theorem setM_casterr (g : Group) (n : Nat) (x : MReg) : (g.setM n x).casterr = g.casterr := rfl
@[simp] theorem setM_arrived (g : Group) (n : Nat) (x : MReg) : (g.setM n x).arrived = g.arrived := rfl
@[simp] theorem setM_fifo (g : Group) (n : Nat) (x : MReg) : (g.setM n x).fifo = g.fifo := rfl
@[simp] theorem setM_saving (g : Group) (n : Nat) (x : MReg) : (g.setM n x).saving = g.saving := rfl
@[simp] theorem setM_accs (g : Group) (n : Nat) (x : MReg) : (g.setM n x).accs = g.accs := rfl
@[simp] theorem setM_txn (g : Group) (n : Nat) (x : MReg) : (g.setM n x).txn = g.txn := rfl
@[simp] theorem setM_run (g : Group) (n : Nat) (x : MReg) : (g.setM n x).run = g.run := rfl
@[simp] theorem setM_susp (g : Group) (n : Nat) (x : MReg) : (g.setM n x).susp = g.susp := rfl
@[simp] theorem setM_suspSnap (g : Group) (n : Nat) (x : MReg) : (g.setM n x).suspSnap = g.suspSnap := rfl
@[simp] theorem setM_exited (g : Group) (n : Nat) (x : MReg) : (g.setM n x).exited = g.exited := rfl
@[simp] theorem setM_held (g : Group) (n : Nat) (x : MReg) : (g.setM n x).held = g.held := rfl
@[simp] theorem setM_parked (g : Group) (n : Nat) (x : MReg) : (g.setM n x).parked = g.parked := rfl
@[simp] theorem setM_missing (g : Group) (n : Nat) (x : MReg) : (g.setM n x).missing = g.missing := rfl
@[simp] theorem setM_preempt (g : Group) (n : Nat) (x : MReg) : (g.setM n x).preempt = g.preempt := rfl
@[simp] theorem setM_retired (g : Group) (n : Nat) (x : MReg) : (g.setM n x).retired = g.retired := rfl
@[simp] theorem setM_unborn (g : Group) (n : Nat) (x : MReg) : (g.setM n x).unborn = g.unborn := rfl
@[simp] theorem setM_lost (g : Group) (n : Nat) (x : MReg) : (g.setM n x).lost = g.lost := rfl
@[simp] theorem setM_entering (g : Group) (n : Nat) (x : MReg) : (g.setM n x).entering = g.entering := rfl
@[simp] theorem setM_tracing (g : Group) (n : Nat) (x : MReg) : (g.setM n x).tracing = g.tracing := rfl
@[simp] theorem setM_sinceSync (g : Group) (n : Nat) (x : MReg) : (g.setM n x).sinceSync = g.sinceSync := rfl
@[simp] theorem setM_dbg (g : Group) (n : Nat) (x : MReg) : (g.setM n x).dbg = g.dbg := rfl

@[simp] theorem setX_stand (g : Group) (n : Nat) (x : XReg) : (g.setX n x).stand = g.stand := rfl
@[simp] theorem setX_sched (g : Group) (n : Nat) (x : XReg) : (g.setX n x).sched = g.sched := rfl
@[simp] theorem setX_number (g : Group) (n : Nat) (x : XReg) : (g.setX n x).number = g.number := rfl
@[simp] theorem setX_granules (g : Group) (n : Nat) (x : XReg) : (g.setX n x).granules = g.granules := rfl
@[simp] theorem setX_mats (g : Group) (n : Nat) (x : XReg) : (g.setX n x).mats = g.mats := rfl
@[simp] theorem setX_wid (g : Group) (n : Nat) (x : XReg) : (g.setX n x).wid = g.wid := rfl
@[simp] theorem setX_spawnid (g : Group) (n : Nat) (x : XReg) : (g.setX n x).spawnid = g.spawnid := rfl
@[simp] theorem setX_v (g : Group) (n : Nat) (x : XReg) : (g.setX n x).v = g.v := rfl
@[simp] theorem setX_p (g : Group) (n : Nat) (x : XReg) : (g.setX n x).p = g.p := rfl
@[simp] theorem setX_m (g : Group) (n : Nat) (x : XReg) : (g.setX n x).m = g.m := rfl
@[simp] theorem setX_x (g : Group) (n : Nat) (x : XReg) : (g.setX n x).x = Sparse.set g.x n x .launch := rfl
@[simp] theorem setX_slotA (g : Group) (n : Nat) (x : XReg) : (g.setX n x).slotA = g.slotA := rfl
@[simp] theorem setX_slotB (g : Group) (n : Nat) (x : XReg) : (g.setX n x).slotB = g.slotB := rfl
@[simp] theorem setX_rcv (g : Group) (n : Nat) (x : XReg) : (g.setX n x).rcv = g.rcv := rfl
@[simp] theorem setX_dsp (g : Group) (n : Nat) (x : XReg) : (g.setX n x).dsp = g.dsp := rfl
@[simp] theorem setX_snap (g : Group) (n : Nat) (x : XReg) : (g.setX n x).snap = g.snap := rfl
@[simp] theorem setX_trap (g : Group) (n : Nat) (x : XReg) : (g.setX n x).trap = g.trap := rfl
@[simp] theorem setX_casterr (g : Group) (n : Nat) (x : XReg) : (g.setX n x).casterr = g.casterr := rfl
@[simp] theorem setX_arrived (g : Group) (n : Nat) (x : XReg) : (g.setX n x).arrived = g.arrived := rfl
@[simp] theorem setX_fifo (g : Group) (n : Nat) (x : XReg) : (g.setX n x).fifo = g.fifo := rfl
@[simp] theorem setX_saving (g : Group) (n : Nat) (x : XReg) : (g.setX n x).saving = g.saving := rfl
@[simp] theorem setX_accs (g : Group) (n : Nat) (x : XReg) : (g.setX n x).accs = g.accs := rfl
@[simp] theorem setX_txn (g : Group) (n : Nat) (x : XReg) : (g.setX n x).txn = g.txn := rfl
@[simp] theorem setX_run (g : Group) (n : Nat) (x : XReg) : (g.setX n x).run = g.run := rfl
@[simp] theorem setX_susp (g : Group) (n : Nat) (x : XReg) : (g.setX n x).susp = g.susp := rfl
@[simp] theorem setX_suspSnap (g : Group) (n : Nat) (x : XReg) : (g.setX n x).suspSnap = g.suspSnap := rfl
@[simp] theorem setX_exited (g : Group) (n : Nat) (x : XReg) : (g.setX n x).exited = g.exited := rfl
@[simp] theorem setX_held (g : Group) (n : Nat) (x : XReg) : (g.setX n x).held = g.held := rfl
@[simp] theorem setX_parked (g : Group) (n : Nat) (x : XReg) : (g.setX n x).parked = g.parked := rfl
@[simp] theorem setX_missing (g : Group) (n : Nat) (x : XReg) : (g.setX n x).missing = g.missing := rfl
@[simp] theorem setX_preempt (g : Group) (n : Nat) (x : XReg) : (g.setX n x).preempt = g.preempt := rfl
@[simp] theorem setX_retired (g : Group) (n : Nat) (x : XReg) : (g.setX n x).retired = g.retired := rfl
@[simp] theorem setX_unborn (g : Group) (n : Nat) (x : XReg) : (g.setX n x).unborn = g.unborn := rfl
@[simp] theorem setX_lost (g : Group) (n : Nat) (x : XReg) : (g.setX n x).lost = g.lost := rfl
@[simp] theorem setX_entering (g : Group) (n : Nat) (x : XReg) : (g.setX n x).entering = g.entering := rfl
@[simp] theorem setX_tracing (g : Group) (n : Nat) (x : XReg) : (g.setX n x).tracing = g.tracing := rfl
@[simp] theorem setX_sinceSync (g : Group) (n : Nat) (x : XReg) : (g.setX n x).sinceSync = g.sinceSync := rfl
@[simp] theorem setX_dbg (g : Group) (n : Nat) (x : XReg) : (g.setX n x).dbg = g.dbg := rfl

@[simp] theorem setSlot_stand (g : Group) (b : Bool) (x : Slot) : (g.setSlot b x).stand = g.stand := by cases b <;> rfl
@[simp] theorem setSlot_sched (g : Group) (b : Bool) (x : Slot) : (g.setSlot b x).sched = g.sched := by cases b <;> rfl
@[simp] theorem setSlot_number (g : Group) (b : Bool) (x : Slot) : (g.setSlot b x).number = g.number := by cases b <;> rfl
@[simp] theorem setSlot_granules (g : Group) (b : Bool) (x : Slot) : (g.setSlot b x).granules = g.granules := by cases b <;> rfl
@[simp] theorem setSlot_mats (g : Group) (b : Bool) (x : Slot) : (g.setSlot b x).mats = g.mats := by cases b <;> rfl
@[simp] theorem setSlot_wid (g : Group) (b : Bool) (x : Slot) : (g.setSlot b x).wid = g.wid := by cases b <;> rfl
@[simp] theorem setSlot_spawnid (g : Group) (b : Bool) (x : Slot) : (g.setSlot b x).spawnid = g.spawnid := by cases b <;> rfl
@[simp] theorem setSlot_v (g : Group) (b : Bool) (x : Slot) : (g.setSlot b x).v = g.v := by cases b <;> rfl
@[simp] theorem setSlot_p (g : Group) (b : Bool) (x : Slot) : (g.setSlot b x).p = g.p := by cases b <;> rfl
@[simp] theorem setSlot_m (g : Group) (b : Bool) (x : Slot) : (g.setSlot b x).m = g.m := by cases b <;> rfl
@[simp] theorem setSlot_x (g : Group) (b : Bool) (x : Slot) : (g.setSlot b x).x = g.x := by cases b <;> rfl
@[simp] theorem setSlot_rcv (g : Group) (b : Bool) (x : Slot) : (g.setSlot b x).rcv = g.rcv := by cases b <;> rfl
@[simp] theorem setSlot_dsp (g : Group) (b : Bool) (x : Slot) : (g.setSlot b x).dsp = g.dsp := by cases b <;> rfl
@[simp] theorem setSlot_snap (g : Group) (b : Bool) (x : Slot) : (g.setSlot b x).snap = g.snap := by cases b <;> rfl
@[simp] theorem setSlot_trap (g : Group) (b : Bool) (x : Slot) : (g.setSlot b x).trap = g.trap := by cases b <;> rfl
@[simp] theorem setSlot_casterr (g : Group) (b : Bool) (x : Slot) : (g.setSlot b x).casterr = g.casterr := by cases b <;> rfl
@[simp] theorem setSlot_arrived (g : Group) (b : Bool) (x : Slot) : (g.setSlot b x).arrived = g.arrived := by cases b <;> rfl
@[simp] theorem setSlot_fifo (g : Group) (b : Bool) (x : Slot) : (g.setSlot b x).fifo = g.fifo := by cases b <;> rfl
@[simp] theorem setSlot_saving (g : Group) (b : Bool) (x : Slot) : (g.setSlot b x).saving = g.saving := by cases b <;> rfl
@[simp] theorem setSlot_accs (g : Group) (b : Bool) (x : Slot) : (g.setSlot b x).accs = g.accs := by cases b <;> rfl
@[simp] theorem setSlot_txn (g : Group) (b : Bool) (x : Slot) : (g.setSlot b x).txn = g.txn := by cases b <;> rfl
@[simp] theorem setSlot_run (g : Group) (b : Bool) (x : Slot) : (g.setSlot b x).run = g.run := by cases b <;> rfl
@[simp] theorem setSlot_susp (g : Group) (b : Bool) (x : Slot) : (g.setSlot b x).susp = g.susp := by cases b <;> rfl
@[simp] theorem setSlot_suspSnap (g : Group) (b : Bool) (x : Slot) : (g.setSlot b x).suspSnap = g.suspSnap := by cases b <;> rfl
@[simp] theorem setSlot_exited (g : Group) (b : Bool) (x : Slot) : (g.setSlot b x).exited = g.exited := by cases b <;> rfl
@[simp] theorem setSlot_held (g : Group) (b : Bool) (x : Slot) : (g.setSlot b x).held = g.held := by cases b <;> rfl
@[simp] theorem setSlot_parked (g : Group) (b : Bool) (x : Slot) : (g.setSlot b x).parked = g.parked := by cases b <;> rfl
@[simp] theorem setSlot_missing (g : Group) (b : Bool) (x : Slot) : (g.setSlot b x).missing = g.missing := by cases b <;> rfl
@[simp] theorem setSlot_preempt (g : Group) (b : Bool) (x : Slot) : (g.setSlot b x).preempt = g.preempt := by cases b <;> rfl
@[simp] theorem setSlot_retired (g : Group) (b : Bool) (x : Slot) : (g.setSlot b x).retired = g.retired := by cases b <;> rfl
@[simp] theorem setSlot_unborn (g : Group) (b : Bool) (x : Slot) : (g.setSlot b x).unborn = g.unborn := by cases b <;> rfl
@[simp] theorem setSlot_lost (g : Group) (b : Bool) (x : Slot) : (g.setSlot b x).lost = g.lost := by cases b <;> rfl
@[simp] theorem setSlot_entering (g : Group) (b : Bool) (x : Slot) : (g.setSlot b x).entering = g.entering := by cases b <;> rfl
@[simp] theorem setSlot_tracing (g : Group) (b : Bool) (x : Slot) : (g.setSlot b x).tracing = g.tracing := by cases b <;> rfl
@[simp] theorem setSlot_sinceSync (g : Group) (b : Bool) (x : Slot) : (g.setSlot b x).sinceSync = g.sinceSync := by cases b <;> rfl
@[simp] theorem setSlot_dbg (g : Group) (b : Bool) (x : Slot) : (g.setSlot b x).dbg = g.dbg := by cases b <;> rfl
@[simp] theorem setSlot_slot (g : Group) (b : Bool) (x : Slot) : (g.setSlot b x).slot b = x := by cases b <;> rfl
@[simp] theorem setSlot_other (g : Group) (b : Bool) (x : Slot) : (g.setSlot b x).slot (!b) = g.slot (!b) := by cases b <;> rfl

@[simp] theorem after_slotB (r : Run) (n : Nat) : (r.after n).slotB = r.slotB := rfl
@[simp] theorem after_head (r : Run) (n : Nat) : (r.after n).head = r.head := rfl
@[simp] theorem after_words (r : Run) (n : Nat) : (r.after n).words = r.words := rfl
@[simp] theorem after_pos (r : Run) (n : Nat) : (r.after n).pos = r.pos + n := rfl
@[simp] theorem after_ws (r : Run) (n : Nat) : (r.after n).ws = r.ws := rfl
@[simp] theorem after_buf (r : Run) (n : Nat) : (r.after n).buf = r.buf := rfl
@[simp] theorem after_temps (r : Run) (n : Nat) : (r.after n).temps = r.temps := rfl
@[simp] theorem after_withdrawn (r : Run) (n : Nat) : (r.after n).withdrawn = r.withdrawn := rfl
@[simp] theorem after_bank (r : Run) (n : Nat) : (r.after n).bank = r.bank := rfl
@[simp] theorem after_committed (r : Run) (n : Nat) : (r.after n).committed = r.committed := rfl
@[simp] theorem after_arrivals (r : Run) (n : Nat) : (r.after n).arrivals = r.arrivals := rfl
@[simp] theorem after_waits (r : Run) (n : Nat) : (r.after n).waits = r.waits := rfl
@[simp] theorem after_tblsw (r : Run) (n : Nat) : (r.after n).tblsw = r.tblsw := rfl
@[simp] theorem after_returning (r : Run) (n : Nat) : (r.after n).returning = r.returning := rfl
@[simp] theorem after_stores (r : Run) (n : Nat) : (r.after n).stores = r.stores := rfl
@[simp] theorem after_issuedTables (r : Run) (n : Nat) : (r.after n).issuedTables = r.issuedTables := rfl
@[simp] theorem after_stage (r : Run) (n : Nat) : (r.after n).stage = 0 := rfl
@[simp] theorem after_query (r : Run) (n : Nat) : (r.after n).query = r.query := rfl
@[simp] theorem after_raised (r : Run) (n : Nat) : (r.after n).raised = r.raised := rfl

@[simp] theorem await_slotB (r : Run) (q : Nat) : (r.await q).slotB = r.slotB := rfl
@[simp] theorem await_head (r : Run) (q : Nat) : (r.await q).head = r.head := rfl
@[simp] theorem await_words (r : Run) (q : Nat) : (r.await q).words = r.words := rfl
@[simp] theorem await_pos (r : Run) (q : Nat) : (r.await q).pos = r.pos := rfl
@[simp] theorem await_ws (r : Run) (q : Nat) : (r.await q).ws = r.ws := rfl
@[simp] theorem await_buf (r : Run) (q : Nat) : (r.await q).buf = r.buf := rfl
@[simp] theorem await_temps (r : Run) (q : Nat) : (r.await q).temps = r.temps := rfl
@[simp] theorem await_withdrawn (r : Run) (q : Nat) : (r.await q).withdrawn = r.withdrawn := rfl
@[simp] theorem await_bank (r : Run) (q : Nat) : (r.await q).bank = r.bank := rfl
@[simp] theorem await_committed (r : Run) (q : Nat) : (r.await q).committed = r.committed := rfl
@[simp] theorem await_arrivals (r : Run) (q : Nat) : (r.await q).arrivals = r.arrivals := rfl
@[simp] theorem await_waits (r : Run) (q : Nat) : (r.await q).waits = r.waits := rfl
@[simp] theorem await_tblsw (r : Run) (q : Nat) : (r.await q).tblsw = r.tblsw := rfl
@[simp] theorem await_returning (r : Run) (q : Nat) : (r.await q).returning = r.returning := rfl
@[simp] theorem await_stores (r : Run) (q : Nat) : (r.await q).stores = r.stores := rfl
@[simp] theorem await_issuedTables (r : Run) (q : Nat) : (r.await q).issuedTables = r.issuedTables := rfl
@[simp] theorem await_stage (r : Run) (q : Nat) : (r.await q).stage = 3 := rfl
@[simp] theorem await_query (r : Run) (q : Nat) : (r.await q).query = q := rfl
@[simp] theorem await_raised (r : Run) (q : Nat) : (r.await q).raised = r.raised := rfl

/-! ### Reading back -/

@[simp] theorem vreg_setV (g : Group) (n k : Nat) (x : VReg) : (g.setV n x).vreg k = if k = n then x else g.vreg k := getD_set g.v n k x .launch
@[simp] theorem preg_setP (g : Group) (n k : Nat) (x : PReg) : (g.setP n x).preg k = if k = n then x else g.preg k := getD_set g.p n k x .launch
@[simp] theorem mreg_setM (g : Group) (n k : Nat) (x : MReg) : (g.setM n x).mreg k = if k = n then x else g.mreg k := getD_set g.m n k x .launch
@[simp] theorem xreg_setX (g : Group) (n k : Nat) (x : XReg) : (g.setX n x).xreg k = if k = n then x else g.xreg k := getD_set g.x n k x .launch
@[simp] theorem core_setCore (s : State) (n k : Nat) (x : Core) : (s.setCore n x).core k = if k = n then x else s.core k :=
  getD_set s.cores n k x .idle
@[simp] theorem cluster_setCluster (s : State) (n k : Nat) (x : Cluster) : (s.setCluster n x).cluster k = if k = n then x else s.cluster k :=
  getD_set s.clusters n k x .idle
@[simp] theorem bank_setBank (s : State) (n k : Nat) (x : Bank) : (s.setBank n x).bank k = if k = n then x else s.bank k :=
  getD_set s.banks n k x .idle
@[simp] theorem pchan_setPchan (s : State) (n k : Nat) (x : Pchan) : (s.setPchan n x).pchan k = if k = n then x else s.pchan k :=
  getD_set s.pchans n k x .idle
@[simp] theorem plate_setPlate (s : State) (n k : Nat) (x : Plate) : (s.setPlate n x).plate k = if k = n then x else s.plate k :=
  getD_set s.plates n k x .fresh
@[simp] theorem port_setPort (s : State) (n k : Nat) (x : LinkPort) : (s.setPort n x).port k = if k = n then x else s.port k :=
  getD_set s.ports n k x .idle
@[simp] theorem stand?_putStand (s : State) (n k : Nat) (x : Stand) : (s.putStand n x).stand? k = if k = n then some x else s.stand? k :=
  find?_insert s.stands n k x
@[simp] theorem part?_setPart (s : State) (n k : Nat) (x : Partition) : (s.setPart n x).part? k = if k = n then some x else s.part? k :=
  find?_insert s.parts n k x
@[simp] theorem cmd?_putCmd (s : State) (n k : Nat) (x : Cmd) : (s.putCmd n x).cmd? k = if k = n then some x else s.cmd? k :=
  find?_insert s.cmds n k x

end Sys2Proof.Machine
end

