-- ==== Sys2Proof/Laws/Home.lean ====
section
/-! SUPPORT. The homes of memory: what replacement, a read and a write at a home leave of the lines' values, of the slices'
coherence and of the memories' canonical form (R259, R264, R298). -/

namespace Sys2Proof.Machine

/-! ### Entries of a finite map -/

theorem mem_of_find? {α : Type} {m : Sparse α} {n : Nat} {x : α} (h : Sparse.find? m n = some x) : (n, x) ∈ m := by
  induction m with
  | nil => simp [Sparse.find?] at h
  | cons e m ih =>
    obtain ⟨k, y⟩ := e
    simp only [Sparse.find?] at h
    split at h
    · rename_i hk
      simp only [beq_iff_eq] at hk
      cases h
      simp [hk]
    · exact List.mem_cons_of_mem _ (ih h)

theorem mem_erase {α : Type} {m : Sparse α} {n : Nat} {e : Nat × α} (h : e ∈ Sparse.erase m n) : e ∈ m ∧ e.1 ≠ n := by
  simp only [Sparse.erase, List.mem_filter, bne_iff_ne] at h
  exact h

theorem mem_insert {α : Type} {m : Sparse α} {n : Nat} {x : α} {e : Nat × α} (h : e ∈ Sparse.insert m n x) :
    e = (n, x) ∨ e ∈ m := by
  induction m with
  | nil => simpa [Sparse.insert] using h
  | cons f m ih =>
    obtain ⟨k, y⟩ := f
    simp only [Sparse.insert] at h
    split at h
    · rcases List.mem_cons.mp h with h | h
      · exact .inl h
      · exact .inr (List.mem_cons_of_mem _ h)
    · split at h
      · rcases List.mem_cons.mp h with h | h
        · exact .inl h
        · exact .inr h
      · rcases List.mem_cons.mp h with h | h
        · exact .inr (by simp [h])
        · rcases ih h with h | h
          · exact .inl h
          · exact .inr (List.mem_cons_of_mem _ h)

/-! ### What keeps every line's value -/

/-- A change that keeps every line's value at its home, the groups and the scratchpads. -/
structure Kept (s t : State) : Prop where
  groups : t.groups = s.groups
  pads : t.pads = s.pads
  window : t.loadWindow = s.loadWindow
  wf : Memory.wf s.hbm = true → Memory.wf t.hbm = true
  coherent : SlicesCoherent s → SlicesCoherent t
  lines : SlicesCoherent s → ∀ n, homeLine t (128 * n) = homeLine s (128 * n)

theorem Kept.refl (s : State) : Kept s s := ⟨rfl, rfl, rfl, id, id, fun _ _ => rfl⟩

theorem Kept.trans {s t u : State} (h : Kept s t) (k : Kept t u) : Kept s u :=
  ⟨k.groups.trans h.groups, k.pads.trans h.pads, k.window.trans h.window, fun w => k.wf (h.wf w), fun c => k.coherent (h.coherent c),
    fun c n => (k.lines (h.coherent c) n).trans (h.lines c n)⟩

/-- A change of other fields than the memories and the groups. -/
theorem Kept.of_same {s t : State} (hg : t.groups = s.groups) (hp : t.pads = s.pads) (hw : t.loadWindow = s.loadWindow)
    (hh : t.hbm = s.hbm) (hl : t.l2 = s.l2) : Kept s t := by
  refine ⟨hg, hp, hw, fun h => hh ▸ h, fun h => ?_, fun _ n => ?_⟩
  · unfold SlicesCoherent; rw [hl, hh]; exact h
  · unfold homeLine; rw [hl, hh]

/-- What a bank does changes neither the memories, the slices nor the groups. -/
theorem activate_frame (s : State) (bank row : Nat) : (activate s bank row).groups = s.groups ∧ (activate s bank row).pads = s.pads ∧
    (activate s bank row).loadWindow = s.loadWindow ∧ (activate s bank row).hbm = s.hbm ∧ (activate s bank row).l2 = s.l2 := by
  unfold activate
  dsimp only
  split
  · exact ⟨rfl, rfl, rfl, rfl, rfl⟩
  · split <;> exact ⟨rfl, rfl, rfl, rfl, rfl⟩

theorem takeUp_frame (s : State) (bank : Nat) : (takeUp s bank).groups = s.groups ∧ (takeUp s bank).pads = s.pads ∧
    (takeUp s bank).loadWindow = s.loadWindow ∧ (takeUp s bank).hbm = s.hbm ∧ (takeUp s bank).l2 = s.l2 := by
  unfold takeUp openRow
  dsimp only
  split
  · exact ⟨rfl, rfl, rfl, rfl, rfl⟩
  · split
    · exact ⟨rfl, rfl, rfl, rfl, rfl⟩
    · split
      · exact ⟨rfl, rfl, rfl, rfl, rfl⟩
      · exact activate_frame _ _ _

theorem bankRequest_frame (s : State) (line : Nat) : (bankRequest s line).2.groups = s.groups ∧ (bankRequest s line).2.pads = s.pads ∧
    (bankRequest s line).2.loadWindow = s.loadWindow ∧ (bankRequest s line).2.hbm = s.hbm ∧ (bankRequest s line).2.l2 = s.l2 :=
  takeUp_frame _ _

theorem kept_bankRequest (s : State) (line : Nat) : Kept s (bankRequest s line).2 :=
  have ⟨h1, h2, h3, h4, h5⟩ := bankRequest_frame s line
  .of_same h1 h2 h3 h4 h5
theorem kept_free (s : State) : Kept s s.free.2 := .of_same rfl rfl rfl rfl rfl
theorem countSlice_frame (s : State) (line k : Nat) : (countSlice s line k).groups = s.groups ∧ (countSlice s line k).pads = s.pads ∧
    (countSlice s line k).loadWindow = s.loadWindow ∧ (countSlice s line k).hbm = s.hbm ∧ (countSlice s line k).l2 = s.l2 := by
  unfold countSlice countAt
  dsimp only
  split <;> exact ⟨rfl, rfl, rfl, rfl, rfl⟩

theorem kept_countSlice (s : State) (line k : Nat) : Kept s (countSlice s line k) :=
  have ⟨h1, h2, h3, h4, h5⟩ := countSlice_frame s line k
  .of_same h1 h2 h3 h4 h5

/-- Two states of the slices in which every line has the same bytes, and no entry of the later one is new but for its place and its use. -/
structure SameLines (m m' : Sparse L2Line) : Prop where
  entries : ∀ e ∈ m', ∃ y, (e.1, y) ∈ m ∧ y.data = e.2.data ∧ y.dirty = e.2.dirty
  data : ∀ k, (Sparse.find? m' k).map (·.data) = (Sparse.find? m k).map (·.data)

theorem SameLines.refl (m : Sparse L2Line) : SameLines m m := ⟨fun e he => ⟨e.2, he, rfl, rfl⟩, fun _ => rfl⟩

theorem SameLines.trans {m m' m'' : Sparse L2Line} (h : SameLines m m') (k : SameLines m' m'') : SameLines m m'' := by
  refine ⟨fun e he => ?_, fun n => (k.data n).trans (h.data n)⟩
  obtain ⟨y, hy, h1, h2⟩ := k.entries e he
  obtain ⟨z, hz, h3, h4⟩ := h.entries _ hy
  exact ⟨z, hz, h3.trans h1, h4.trans h2⟩

theorem homeLine_eq (s : State) (line : Nat) : homeLine s line = ((Sparse.find? s.l2 line).map (·.data)).getD (lineAt s.hbm line) := by
  unfold homeLine
  cases Sparse.find? s.l2 line <;> rfl

/-- A change of the slices that keeps every line's bytes. -/
theorem Kept.of_lines {s t : State} (hg : t.groups = s.groups) (hp : t.pads = s.pads) (hw : t.loadWindow = s.loadWindow)
    (hh : t.hbm = s.hbm) (hl : SameLines s.l2 t.l2) : Kept s t := by
  refine ⟨hg, hp, hw, fun h => hh ▸ h, fun h e he => ?_, fun _ n => ?_⟩
  · obtain ⟨y, hy, h1, h2⟩ := hl.entries e he
    obtain ⟨h3, h4⟩ := h _ hy
    exact ⟨h3, fun h5 => h1 ▸ hh ▸ h4 (h2.trans h5)⟩
  · rw [homeLine_eq, homeLine_eq, hl.data, hh]

theorem sameLines_modify (m : Sparse L2Line) (n : Nat) (f : L2Line → L2Line) (hf : ∀ x, (f x).data = x.data ∧ (f x).dirty = x.dirty) :
    SameLines m (Sparse.modify m n f) := by
  refine ⟨fun e he => ?_, fun k => ?_⟩
  · obtain ⟨y, hy, h⟩ := List.mem_map.mp he
    split at h
    · subst h
      exact ⟨y.2, hy, (hf y.2).1.symm, (hf y.2).2.symm⟩
    · subst h
      exact ⟨y.2, hy, rfl, rfl⟩
  · rw [find?_modify]
    split
    · cases Sparse.find? m k with
      | none => rfl
      | some x => simp [(hf x).1]
    · rfl

theorem sameLines_insert {m : Sparse L2Line} {n : Nat} {x y : L2Line} (hx : Sparse.find? m n = some x) (h : y.data = x.data)
    (hd : y.dirty = x.dirty) : SameLines m (Sparse.insert m n y) := by
  refine ⟨fun e he => ?_, fun k => ?_⟩
  · rcases mem_insert he with rfl | he
    · exact ⟨x, mem_of_find? hx, h.symm, hd.symm⟩
    · exact ⟨e.2, he, rfl, rfl⟩
  · rw [find?_insert]
    split
    · rename_i hk
      subst hk
      simp [hx, h]
    · rfl

theorem sameLines_setPartner (s : State) (line : Nat) (p : Option Nat) : SameLines s.l2 (setPartner s line p).l2 :=
  sameLines_modify s.l2 line (fun x => { x with partner := p }) fun _ => ⟨rfl, rfl⟩

theorem kept_setPartner (s : State) (line : Nat) (p : Option Nat) : Kept s (setPartner s line p) :=
  .of_lines rfl rfl rfl rfl (sameLines_setPartner s line p)

theorem kept_pair (s : State) (a b : Nat) : Kept s (pair s a b) := (kept_setPartner _ _ _).trans (kept_setPartner _ _ _)

/-- Using a line that its slice holds. -/
theorem kept_useLine (s : State) (line policy : Nat) (x : L2Line) (hx : Sparse.find? s.l2 line = some x) : Kept s (useLine s line policy x) :=
  .of_lines rfl rfl rfl rfl (sameLines_insert hx rfl rfl)

theorem exposeLine_frame (s : State) (line : Nat) : (exposeLine s line).groups = s.groups ∧ (exposeLine s line).pads = s.pads ∧
    (exposeLine s line).loadWindow = s.loadWindow ∧ (exposeLine s line).hbm = s.hbm ∧ (exposeLine s line).l2 = s.l2 := by
  unfold exposeLine
  split <;> exact ⟨rfl, rfl, rfl, rfl, rfl⟩

/-- What taking a line out of its slice leaves: the other lines' bytes. -/
theorem dropLine_frame (s : State) (line : Nat) :
    (dropLine s line).groups = s.groups ∧ (dropLine s line).pads = s.pads ∧ (dropLine s line).loadWindow = s.loadWindow ∧
      (dropLine s line).hbm = s.hbm ∧
      (∀ e ∈ (dropLine s line).l2, ∃ y, (e.1, y) ∈ s.l2 ∧ y.data = e.2.data ∧ y.dirty = e.2.dirty ∧ e.1 ≠ line) ∧
      (∀ k, (Sparse.find? (dropLine s line).l2 k).map (·.data) = if k = line then none else (Sparse.find? s.l2 k).map (·.data)) := by
  unfold dropLine
  cases hx : Sparse.find? s.l2 line with
  | none =>
    refine ⟨rfl, rfl, rfl, rfl, fun e he => ⟨e.2, he, rfl, rfl, fun h => ?_⟩, fun k => ?_⟩
    · have : ∀ l : Sparse L2Line, e ∈ l → Sparse.find? l e.1 ≠ none := by
        intro l
        induction l with
        | nil => simp
        | cons f l ih =>
          intro hm
          simp only [Sparse.find?]
          split
          · simp
          · rename_i hk
            rcases List.mem_cons.mp hm with h | h
            · subst h; simp at hk
            · exact ih h
      exact this _ he (h ▸ hx)
    · by_cases hk : k = line
      · simp [hk, hx]
      · simp only [if_neg hk]
  | some x =>
    simp only
    have key : ∀ t : State, SameLines s.l2 t.l2 →
        (∀ e ∈ Sparse.erase t.l2 line, ∃ y, (e.1, y) ∈ s.l2 ∧ y.data = e.2.data ∧ y.dirty = e.2.dirty ∧ e.1 ≠ line) ∧
        ∀ k, (Sparse.find? (Sparse.erase t.l2 line) k).map (·.data) = if k = line then none else (Sparse.find? s.l2 k).map (·.data) := by
      intro t h
      refine ⟨fun e he => ?_, fun k => ?_⟩
      · obtain ⟨h1, h2⟩ := mem_erase he
        obtain ⟨y, hy, h3, h4⟩ := h.entries e h1
        exact ⟨y, hy, h3, h4, h2⟩
      · rw [find?_erase]
        split
        · rfl
        · exact h.data k
    cases hp : x.partner with
    | none =>
      obtain ⟨h1, h2, h3, h4, h5⟩ := exposeLine_frame { s with l2 := Sparse.erase s.l2 line } line
      simp only
      exact ⟨h1, h2, h3, h4, by rw [h5]; exact (key s (.refl _)).1, by rw [h5]; exact (key s (.refl _)).2⟩
    | some p =>
      obtain ⟨h1, h2, h3, h4, h5⟩ := exposeLine_frame { setPartner s p none with l2 := Sparse.erase (setPartner s p none).l2 line } line
      have hs : SameLines s.l2 (setPartner s p none).l2 := sameLines_setPartner s p none
      simp only
      exact ⟨h1, h2, h3, h4, by rw [h5]; exact (key _ hs).1, by rw [h5]; exact (key _ hs).2⟩

theorem writeBack_frame (s : State) (line : Nat) (d : LineBits) : (writeBack s line d).groups = s.groups ∧ (writeBack s line d).pads = s.pads ∧
    (writeBack s line d).loadWindow = s.loadWindow ∧ (writeBack s line d).hbm = Memory.writeLE s.hbm line 128 d.toNat ∧
    (writeBack s line d).l2 = s.l2 := by
  have ⟨h1, h2, h3, h4, h5⟩ := bankRequest_frame s line
  exact ⟨h1, h2, h3, congrArg (Memory.writeLE · line 128 d.toNat) h4, h5⟩

/-- Evicting a line changes no line's value. -/
theorem kept_evict (s : State) (line : Nat) : Kept s (evict s line) := by
  unfold evict
  cases hx : Sparse.find? s.l2 line with
  | none => exact .refl s
  | some x =>
    have hm := mem_of_find? hx
    simp only
    by_cases hd : x.dirty = true
    · simp only [hd, if_true]
      obtain ⟨h1, h2, h3, h4, h5, h6⟩ := dropLine_frame (writeBack s line x.data) line
      obtain ⟨w1, w2, w3, w4, w5⟩ := writeBack_frame s line x.data
      rw [w1] at h1
      rw [w2] at h2
      rw [w3] at h3
      rw [w4] at h4
      rw [w5] at h5 h6
      refine ⟨h1, h2, h3, fun h => by rw [h4]; exact Memory.wf_writeLE _ _ _ h, fun hc e he => ?_, fun hc n => ?_⟩
      · have ha := (hc _ hm).1
        obtain ⟨y, hy, k1, k2, k3⟩ := h5 e he
        obtain ⟨k4, k5⟩ := hc _ hy
        refine ⟨k4, fun k6 => ?_⟩
        rw [h4, ← k1, k5 (k2.trans k6)]
        exact (lineAt_writeLE_ne _ _ _ _ ha k4 (Ne.symm k3)).symm
      · have ha : line % 128 = 0 := (hc _ hm).1
        rw [homeLine_eq, homeLine_eq, h6, h4]
        by_cases hn : 128 * n = line
        · rw [if_pos hn, hn, hx]
          exact lineAt_writeLE _ _ _
        · rw [if_neg hn]
          exact congrArg _ (lineAt_writeLE_ne _ _ _ _ ha (Nat.mul_mod_right 128 n) (Ne.symm hn))
    · have hd' : x.dirty = false := by simpa using hd
      simp only [hd', Bool.false_eq_true, if_false]
      obtain ⟨h1, h2, h3, h4, h5, h6⟩ := dropLine_frame s line
      refine ⟨h1, h2, h3, fun h => by rw [h4]; exact h, fun hc e he => ?_, fun hc n => ?_⟩
      · obtain ⟨y, hy, k1, k2, k3⟩ := h5 e he
        obtain ⟨k4, k5⟩ := hc _ hy
        exact ⟨k4, fun k6 => by rw [h4, ← k1]; exact k5 (k2.trans k6)⟩
      · rw [homeLine_eq, homeLine_eq, h6, h4]
        by_cases hn : 128 * n = line
        · rw [if_pos hn, hn, hx]
          exact ((hc _ hm).2 hd').symm
        · rw [if_neg hn]

/-- Evicting a line keeps the bytes that the slices hold of every other line. -/
theorem evict_data_ne (s : State) {line k : Nat} (h : k ≠ line) :
    (Sparse.find? (evict s line).l2 k).map (·.data) = (Sparse.find? s.l2 k).map (·.data) := by
  unfold evict
  split
  · rfl
  · rw [(dropLine_frame _ line).2.2.2.2.2 k, if_neg h]
    split
    · rw [(writeBack_frame _ _ _).2.2.2.2]
    · rfl

theorem kept_evictSlot (s : State) (line : Nat) : Kept s (evictSlot s line) := by
  unfold evictSlot
  split
  · exact (kept_evict _ _).trans (kept_evict _ _)
  · exact kept_evict _ _

/-- Replacement changes no line's value. -/
theorem kept_makeRoom (line n : Nat) : ∀ s : State, Kept s (makeRoom s line n) := by
  induction n with
  | zero => exact fun s => .refl s
  | succ n ih =>
    intro s
    simp only [makeRoom]
    split
    · exact .refl s
    · split
      · exact kept_free s
      · exact (kept_free s).trans ((kept_evictSlot _ _).trans (ih _))

theorem kept_rehouse (s : State) (line p : Nat) : Kept s (rehouse s line p) := by
  unfold rehouse
  have h := (kept_setPartner s line none).trans (kept_setPartner (setPartner s line none) p none)
  simp only
  split
  · exact h.trans (kept_pair _ _ _)
  · split
    · exact h
    · exact h.trans (kept_evict _ _)

/-- A state whose slice has a line with new bytes, all else of the memories as before. -/
theorem inserted_lines {s t : State} {line : Nat} {x : L2Line} (hl : t.l2 = Sparse.insert s.l2 line x) (hh : t.hbm = s.hbm)
    (ha : line % 128 = 0) (hx : x.dirty = false → x.data = lineAt s.hbm line) (hc : SlicesCoherent s) :
    SlicesCoherent t ∧ homeLine t line = x.data ∧ ∀ n, 128 * n ≠ line → homeLine t (128 * n) = homeLine s (128 * n) := by
  refine ⟨fun e he => ?_, ?_, fun n hn => ?_⟩
  · rw [hl] at he
    rcases mem_insert he with rfl | he
    · exact ⟨ha, hh ▸ hx⟩
    · exact hh ▸ hc e he
  · rw [homeLine_eq, hl, find?_insert_self]; rfl
  · rw [homeLine_eq, homeLine_eq, hl, find?_insert_ne _ _ hn, hh]

/-- What a change that keeps every line's value leaves of a state described line by line. -/
theorem Kept.after {s t u : State} {line : Nat} {d : LineBits} (h : Kept t u) (ha : line % 128 = 0)
    (k : SlicesCoherent t ∧ homeLine t line = d ∧ ∀ n, 128 * n ≠ line → homeLine t (128 * n) = homeLine s (128 * n)) :
    SlicesCoherent u ∧ homeLine u line = d ∧ ∀ n, 128 * n ≠ line → homeLine u (128 * n) = homeLine s (128 * n) := by
  have hl : 128 * (line / 128) = line := by omega
  refine ⟨h.coherent k.1, ?_, fun n hn => (h.lines k.1 n).trans (k.2.2 n hn)⟩
  have := h.lines k.1 (line / 128)
  rw [hl] at this
  exact this.trans k.2.1

/-- What follows the entry of a line keeps every line's value. -/
theorem kept_settle (s : State) (line : Nat) (p : Option Nat) :
    Kept s (match p with | some q => pair s line q | none => makeRoom s line 33) := by
  cases p with
  | some q => exact kept_pair s line q
  | none => exact kept_makeRoom line 33 s

/-- Putting a line into its slice: that line's value is the one put in, and every other line's stays. -/
theorem allocate_lines (s : State) (line : Nat) (d : LineBits) (dirty early : Bool) (ha : line % 128 = 0)
    (hx : dirty = false → d = lineAt s.hbm line) (hc : SlicesCoherent s) :
    SlicesCoherent (allocate s line d dirty early) ∧ homeLine (allocate s line d dirty early) line = d ∧
      ∀ n, 128 * n ≠ line → homeLine (allocate s line d dirty early) (128 * n) = homeLine s (128 * n) := by
  let x : L2Line := { data := d, dirty := dirty, early := early, partner := none, used := s.useNo.1 }
  let t : State := { s.useNo.2 with l2 := Sparse.insert s.l2 line x }
  have h : SlicesCoherent t ∧ homeLine t line = x.data ∧ ∀ n, 128 * n ≠ line → homeLine t (128 * n) = homeLine s (128 * n) :=
    inserted_lines rfl rfl ha hx hc
  exact (kept_settle t line (if x.half then halfSlot t line else none)).after ha h

theorem allocate_frame (s : State) (line : Nat) (d : LineBits) (dirty early : Bool) :
    (allocate s line d dirty early).groups = s.groups ∧ (allocate s line d dirty early).pads = s.pads ∧
      (allocate s line d dirty early).loadWindow = s.loadWindow ∧
      (Memory.wf s.hbm = true → Memory.wf (allocate s line d dirty early).hbm = true) := by
  let x : L2Line := { data := d, dirty := dirty, early := early, partner := none, used := s.useNo.1 }
  let t : State := { s.useNo.2 with l2 := Sparse.insert s.l2 line x }
  have h := kept_settle t line (if x.half then halfSlot t line else none)
  exact ⟨h.groups, h.pads, h.window, h.wf⟩

/-- New bytes for a line that its slice holds: that line's value is they, and every other line's stays. -/
theorem rewriteLine_lines (s : State) (line policy : Nat) (x : L2Line) (d : LineBits) (ha : line % 128 = 0) (hc : SlicesCoherent s) :
    SlicesCoherent (rewriteLine s line policy x d) ∧ homeLine (rewriteLine s line policy x d) line = d ∧
      ∀ n, 128 * n ≠ line → homeLine (rewriteLine s line policy x d) (128 * n) = homeLine s (128 * n) := by
  have h : SlicesCoherent (useLine s line policy { x with data := d, dirty := true }) ∧
      homeLine (useLine s line policy { x with data := d, dirty := true }) line = d ∧
      ∀ n, 128 * n ≠ line → homeLine (useLine s line policy { x with data := d, dirty := true }) (128 * n) = homeLine s (128 * n) :=
    inserted_lines (x := { x with data := d, dirty := true, used := s.useNo.1, early := x.early && policy == 2 }) rfl rfl ha (by simp) hc
  unfold rewriteLine
  simp only
  split
  · split
    · exact h
    · exact (kept_rehouse _ line _).after ha h
  · exact h

theorem rewriteLine_frame (s : State) (line policy : Nat) (x : L2Line) (d : LineBits) :
    (rewriteLine s line policy x d).groups = s.groups ∧ (rewriteLine s line policy x d).pads = s.pads ∧
      (rewriteLine s line policy x d).loadWindow = s.loadWindow ∧
      (Memory.wf s.hbm = true → Memory.wf (rewriteLine s line policy x d).hbm = true) := by
  unfold rewriteLine
  simp only
  split
  · split
    · exact ⟨rfl, rfl, rfl, id⟩
    · rename_i p _ _
      have h := kept_rehouse (useLine s line policy { x with data := d, dirty := true }) line p
      exact ⟨h.groups, h.pads, h.window, h.wf⟩
  · exact ⟨rfl, rfl, rfl, id⟩

/-! ### Reads and writes at the home -/

/-- A read at the home answers the line's value and changes none. -/
theorem homeRead_kept (s : State) (line policy : Nat) (ha : line % 128 = 0) :
    (homeRead s line policy).1 = homeLine s line ∧ Kept s (homeRead s line policy).2.2 := by
  unfold homeRead homeLine
  cases hx : Sparse.find? s.l2 line with
  | some x => 
    exact ⟨rfl, (kept_countSlice s line 0).trans
      (kept_useLine (countSlice s line 0) line policy x ((countSlice_frame s line 0).2.2.2.2 ▸ hx))⟩
  | none =>
    refine ⟨rfl, ?_⟩
    simp only
    have h0 := (kept_countSlice s line 1).trans (kept_bankRequest (countSlice s line 1) line)
    have hb : (bankRequest (countSlice s line 1) line).2.hbm = s.hbm :=
      (bankRequest_frame _ _).2.2.2.1.trans (countSlice_frame s line 1).2.2.2.1
    have hl2 : (bankRequest (countSlice s line 1) line).2.l2 = s.l2 :=
      (bankRequest_frame _ _).2.2.2.2.trans (countSlice_frame s line 1).2.2.2.2
    split
    · have hf := allocate_frame (bankRequest (countSlice s line 1) line).2 line (lineAt s.hbm line) false (policy == 2)
      have hl := fun hc => allocate_lines (bankRequest (countSlice s line 1) line).2 line (lineAt s.hbm line) false (policy == 2) ha
        (fun _ => by rw [hb]) hc
      refine h0.trans ⟨hf.1, hf.2.1, hf.2.2.1, hf.2.2.2, fun hc => (hl hc).1, fun hc n => ?_⟩
      by_cases hn : 128 * n = line
      · rw [hn, (hl hc).2.1, homeLine_eq, hl2, hb, hx]
        rfl
      · exact (hl hc).2.2 n hn
    · exact h0

/-- What follows the write of a line: casts and transactions are told, and a whole line is no longer poisoned. -/
theorem told_frame (t : State) (w : Option Nat) (line : Nat) (m : BitVec 256) (u : State)
    (h : u = if wholeLine m = true then { flagTxns (markStale t line m) w line 1 2 with
        poisoned := (flagTxns (markStale t line m) w line 1 2).poisoned.filter (· != line) }
      else flagTxns (markStale t line m) w line 1 2) :
    u.l2 = t.l2 ∧ u.hbm = t.hbm ∧ u.pads = t.pads ∧ u.loadWindow = t.loadWindow := by
  subst h
  split <;> exact ⟨rfl, rfl, rfl, rfl⟩

/-- The state between the write of a line and what is told of it. -/
def lineWritten (s : State) (line : Nat) (d : LineBits) (m : BitVec 256) (policy : Nat) : State :=
  match Sparse.find? s.l2 line with
  | some x => rewriteLine s line policy x (mergeLine x.data d m)
  | none =>
    let e := mergeLine (lineAt s.hbm line) d m
    let s := if wholeLine m then s else (bankRequest s line).2
    if allocates policy then allocate s line e true (policy == 2) else writeBack s line e

theorem homeWrite_told (s : State) (w : Option Nat) (line : Nat) (d : LineBits) (m : BitVec 256) (policy : Nat) :
    (homeWrite s w line d m policy).l2 = (lineWritten s line d m policy).l2 ∧ (homeWrite s w line d m policy).hbm = (lineWritten s line d m policy).hbm ∧
      (homeWrite s w line d m policy).pads = (lineWritten s line d m policy).pads ∧
      (homeWrite s w line d m policy).loadWindow = (lineWritten s line d m policy).loadWindow :=
  told_frame (lineWritten s line d m policy) w line m _ rfl

theorem kept_unlessWhole (s : State) (line : Nat) (m : BitVec 256) : Kept s (if wholeLine m = true then s else (bankRequest s line).2) := by
  split
  · exact .refl s
  · exact kept_bankRequest s line

/-- The write itself: the line takes the nibbles of the mask, every other line keeps its value. -/
theorem lineWritten_lines (s : State) (line : Nat) (d : LineBits) (m : BitVec 256) (policy : Nat) (ha : line % 128 = 0) (hc : SlicesCoherent s) :
    SlicesCoherent (lineWritten s line d m policy) ∧ homeLine (lineWritten s line d m policy) line = mergeLine (homeLine s line) d m ∧
      ∀ n, 128 * n ≠ line → homeLine (lineWritten s line d m policy) (128 * n) = homeLine s (128 * n) := by
  unfold lineWritten
  cases hx : Sparse.find? s.l2 line with
  | some x =>
    have hv : homeLine s line = x.data := by unfold homeLine; rw [hx]
    rw [hv]
    exact rewriteLine_lines s line policy x _ ha hc
  | none =>
    have hv : homeLine s line = lineAt s.hbm line := by unfold homeLine; rw [hx]
    have h0 := kept_unlessWhole s line m
    simp only
    rw [hv]
    generalize mergeLine (lineAt s.hbm line) d m = e
    have hl2 : (if wholeLine m = true then s else (bankRequest s line).2).l2 = s.l2 := by
      split
      · rfl
      · exact (bankRequest_frame s line).2.2.2.2
    have hhb : (if wholeLine m = true then s else (bankRequest s line).2).hbm = s.hbm := by
      split
      · rfl
      · exact (bankRequest_frame s line).2.2.2.1
    generalize (if wholeLine m = true then s else (bankRequest s line).2) = t at h0 hl2 hhb
    by_cases hp : allocates policy = true
    · rw [if_pos hp]
      have h := allocate_lines t line e true (policy == 2) ha (by simp) (h0.coherent hc)
      exact ⟨h.1, h.2.1, fun n hn => (h.2.2 n hn).trans (h0.lines hc n)⟩
    · rw [if_neg hp]
      obtain ⟨_, _, _, k1, k2⟩ := writeBack_frame t line e
      have hne : ∀ y ∈ s.l2, y.1 ≠ line := by
        intro y hy h
        have := (dropLine_frame s line).2.2.2.2.1
        unfold dropLine at this
        rw [hx] at this
        obtain ⟨_, _, _, _, h'⟩ := this y hy
        exact h' h
      refine ⟨fun y hy => ?_, ?_, fun n hn => ?_⟩
      · rw [k2, hl2] at hy
        obtain ⟨h3, h4⟩ := hc y hy
        refine ⟨h3, fun h5 => ?_⟩
        rw [h4 h5, k1, hhb, lineAt_writeLE_ne _ _ _ _ ha h3 (Ne.symm (hne y hy))]
      · rw [homeLine_eq, k2, hl2, hx, k1]; exact lineAt_writeLE _ _ _
      · rw [homeLine_eq, homeLine_eq, k2, hl2, k1, hhb]
        rw [lineAt_writeLE_ne _ _ _ _ ha (Nat.mul_mod_right 128 n) (Ne.symm hn)]

/-- A write at the home (R264): the line takes the nibbles of the mask, every other line keeps its value. -/
theorem homeWrite_lines (s : State) (w : Option Nat) (line : Nat) (d : LineBits) (m : BitVec 256) (policy : Nat)
    (ha : line % 128 = 0) (hc : SlicesCoherent s) :
    SlicesCoherent (homeWrite s w line d m policy) ∧ homeLine (homeWrite s w line d m policy) line = mergeLine (homeLine s line) d m ∧
      ∀ n, 128 * n ≠ line → homeLine (homeWrite s w line d m policy) (128 * n) = homeLine s (128 * n) := by
  obtain ⟨h1, h2, _, _⟩ := homeWrite_told s w line d m policy
  have h := lineWritten_lines s line d m policy ha hc
  unfold SlicesCoherent homeLine at h ⊢
  rw [h1, h2]
  exact h

/-- What a write at a home leaves of the rest: the memories stay canonical, and a group changes only by what its transaction notes. -/
theorem homeWrite_frame (s : State) (w : Option Nat) (line : Nat) (d : LineBits) (m : BitVec 256) (policy : Nat) :
    (homeWrite s w line d m policy).pads = s.pads ∧ (homeWrite s w line d m policy).loadWindow = s.loadWindow ∧
      (Memory.wf s.hbm = true → Memory.wf (homeWrite s w line d m policy).hbm = true) := by
  obtain ⟨_, h2, h3, h4⟩ := homeWrite_told s w line d m policy
  rw [h2, h3, h4]
  unfold lineWritten
  split
  · rename_i x _
    have h := rewriteLine_frame s line policy x (mergeLine x.data d m)
    exact ⟨h.2.1, h.2.2.1, h.2.2.2⟩
  · have h0 := kept_unlessWhole s line m
    simp only
    generalize (if wholeLine m = true then s else (bankRequest s line).2) = t at h0
    split
    · have h := allocate_frame t line (mergeLine (lineAt s.hbm line) d m) true (policy == 2)
      exact ⟨h.2.1.trans h0.pads, h.2.2.1.trans h0.window, fun hw => h.2.2.2 (h0.wf hw)⟩
    · obtain ⟨_, w2, w3, w4, _⟩ := writeBack_frame t line (mergeLine (lineAt s.hbm line) d m)
      exact ⟨w2.trans h0.pads, w3.trans h0.window, fun hw => by rw [w4]; exact Memory.wf_writeLE _ _ _ (h0.wf hw)⟩

/-- A store that reaches its home keeps the memories in canonical form. -/
theorem applyStore_canonical (s : State) (w : Option Nat) (x : Store) (h : Canonical s) : Canonical (applyStore s w x) := by
  obtain ⟨h1, h2, h3⟩ := h
  unfold applyStore
  split
  · rename_i pa _
    obtain ⟨k1, k2, k3⟩ := homeWrite_frame s w pa x.data x.mask x.policy
    exact ⟨k3 h1, by rw [k1]; exact h2, by rw [k2]; exact h3⟩
  · exact ⟨h1, Memory.wf_writeLE _ _ _ h2, h3⟩

end Sys2Proof.Machine
end

