-- ==== Sys2Proof/Laws/Issue.lean ====
section
/-! SUPPORT. The shared shape of an instruction of a run: what `running` says, and what `compute`, `vector`, `predicate` and `perform`
answer once the sources are full. -/

namespace Sys2Proof.Machine

/-! ### The issuing group -/

theorem seatOf_some {s : State} {gid : Nat} {g : Group} {st : Stand} {la : Launch} (h : seatOf s gid = some (g, st, la)) :
    Sparse.find? s.groups gid = some g ∧ s.stand? g.stand = some st ∧ s.launch? st.launch = some la := by
  unfold seatOf at h
  split at h
  · cases h
  · split at h
    · cases h
    · rename_i _ hg _ _ hst
      rw [Option.map_eq_some_iff] at h
      obtain ⟨_, hla, h⟩ := h
      simp only [Prod.mk.injEq] at h
      obtain ⟨rfl, rfl, rfl⟩ := h
      exact ⟨hg, hst, hla⟩

/-- The issuing group, its run, its stand and its launch are those that the state holds. -/
theorem running_some {s : State} {c : Ctx} (h : running s = some c) :
    s.issuer = some c.gid ∧ Sparse.find? s.groups c.gid = some c.g ∧ s.stand? c.g.stand = some c.st ∧ s.launch? c.st.launch = some c.la ∧
      c.g.run = some c.r := by
  unfold running at h
  split at h
  · cases h
  · rename_i gid hi
    split at h
    · cases h
    · rename_i g st la hs
      obtain ⟨hg, hst, hla⟩ := seatOf_some hs
      cases hr : g.run with
      | none => rw [hr] at h; cases h
      | some r =>
        rw [hr] at h
        simp only [Option.map_some, Option.some.injEq] at h
        subst h
        exact ⟨hi, hg, hst, hla, hr⟩

/-- The group in issue after its group and run have been replaced. -/
theorem running_put {s : State} {c : Ctx} (h : running s = some c) (g : Group) (r : Run) (hs : g.stand = c.g.stand) :
    running (c.put s g r) = some { c with g := { g with run := some r }, r := r } := by
  obtain ⟨hi, hg, hst, hla, hr⟩ := running_some h
  have hf : Sparse.find? (c.put s g r).groups c.gid = some { g with run := some r } := by simp [Ctx.put]
  have h1 : (c.put s g r).issuer = some c.gid := hi
  have h2 : (c.put s g r).stand? g.stand = some c.st := by rw [hs]; exact hst
  have h3 : (c.put s g r).launch? c.st.launch = some c.la := hla
  simp [running, seatOf, h1, hf, h2, h3]

/-! ### Sources -/

theorem readyOps_full {c : Ctx} {o : Ops} (h : Full c o) : readyOps c.g c.r o = .go := by
  have h0 := h (.reg (.p o.pred)) (by simp)
  have h1 := h o.a (by simp)
  have h2 := h o.b (by simp)
  have h3 := h o.c (by simp)
  simp [readyOps, readyOf, h0, h1, h2, h3]

/-! ### Shapes -/

theorem withRun_next {s : State} {c : Ctx} (h : running s = some c) (f : Ctx → State) : withRun s f = .next (f c) := by
  simp [withRun, h]

theorem compute_next {s : State} {c : Ctx} {o : Ops} (h : Issues s c o) (f : Ctx → Group × Run) :
    compute o s f = .next (c.put s (f c).1 ((f c).2.after (opWords o))) := by
  simp [compute, withRun, h.running, readyOps_full h.full]

theorem perform_next {s : State} {c : Ctx} {o : Ops} (h : Issues s c o) (f : Ctx → State) : perform o s f = done (f c) := by
  simp [perform, h.running, readyOps_full h.full]

theorem vector_next {s : State} {c : Ctx} {o : Ops} (h : Issues s c o) (f : Ctx → Guard → Copy → Copy) :
    vector o s f = .next (wrote s c o (f c (c.guard o) (oldDest c.r o.d))) := compute_next h _

theorem predicate_next {s : State} {c : Ctx} {o : Ops} (h : Issues s c o) (f : Ctx → Guard → PredBits → PredBits) :
    predicate o s f = .next (wrotePred s c o (f c (c.guard o) (readPred c.g o.d))) := compute_next h _

theorem unaryOp_next {s : State} {c : Ctx} {o : Ops} (h : Issues s c o) (op : Nat → Nat) (tag : Bool → Tag → Tag) :
    unaryOp o s op tag = .next (wrote s c o
      { val := mapActive (c.guard o) o.fmt.width (oldDest c.r o.d).val fun e => op (c.el o o.a e),
        tag := tag ((c.guard o).all o.fmt.width) (c.tagA o) }) := vector_next h _

theorem binaryOp_next {s : State} {c : Ctx} {o : Ops} (h : Issues s c o) (op : Nat → Nat → Nat) (tag : Bool → Tag → Tag → Tag) :
    binaryOp o s op tag = .next (wrote s c o
      { val := mapActive (c.guard o) o.fmt.width (oldDest c.r o.d).val fun e => op (c.el o o.a e) (c.el o o.b e),
        tag := tag ((c.guard o).all o.fmt.width) (c.tagA o) (c.tagB o) }) := vector_next h _

theorem ternaryOp_next {s : State} {c : Ctx} {o : Ops} (h : Issues s c o) (op : Nat → Nat → Nat → Nat)
    (tag : Bool → Tag → Tag → Tag → Tag) :
    ternaryOp o s op tag = .next (wrote s c o
      { val := mapActive (c.guard o) o.fmt.width (oldDest c.r o.d).val fun e => op (c.el o o.a e) (c.el o o.b e) (c.el o o.c e),
        tag := tag ((c.guard o).all o.fmt.width) (c.tagA o) (c.tagB o) (c.tagC o) }) := vector_next h _

/-! ### What `wrote` leaves unchanged -/

theorem running_wrote {s : State} {c : Ctx} (h : running s = some c) (o : Ops) (x : Copy) :
    running (wrote s c o x) = some { c with
      g := { c.g with run := some ((writeDest c.r o.d x).after (opWords o)) }, r := (writeDest c.r o.d x).after (opWords o) } :=
  running_put h _ _ rfl

/-- Every other group stays as it was. -/
theorem find?_put_ne (c : Ctx) (s : State) (g : Group) (r : Run) {k : Nat} (h : k ≠ c.gid) :
    Sparse.find? (c.put s g r).groups k = Sparse.find? s.groups k := find?_insert_ne _ _ h

/-- A buffered write reaches the destination's copy and no other copy, and no temporary unless it names one. -/
theorem copy_writeDest (r : Run) (d : Opnd) (x : Copy) (n : Nat) :
    (writeDest r d x).copy n = match d with
      | .reg (.v k) => if n = k.val then x else r.copy n
      | _ => r.copy n := by
  rcases d with _ | q | _ | _
  case reg => cases q <;> first | exact getD_set .. | rfl
  all_goals rfl

theorem temp_writeDest (r : Run) (d : Opnd) (x : Copy) (n : Nat) :
    (writeDest r d x).temp n = match d with
      | .reg (.t k) => if n = k.val then x else r.temp n
      | _ => r.temp n := by
  rcases d with _ | q | _ | _
  case reg => cases q <;> first | exact getD_set .. | rfl
  all_goals rfl

end Sys2Proof.Machine
end

