-- ==== Sys2Proof/Laws/PerInstr.lean ====
section
/-! SUPPORT. The family Words: a well-formed instruction that has words has as many as bit W of its first word says (R76, R77). -/

namespace Sys2Proof.Laws.Words

/-- The words of an instruction are as many as the W bit of the first says. -/
def Statement (i : Instr) : Prop := i.wf = true → ∀ w ws, encode i = w :: ws → ws.length + 1 = wordsOf w

theorem Spec.toByte_lt (r : Spec) : r.toByte < 256 := by
  cases r <;> simp only [Spec.toByte] <;> first | omega | (rename_i n; have := n.isLt; omega)

theorem Opnd.toByte_lt (x : Opnd) : x.toByte < 256 := by
  cases x with
  | none => simp [Opnd.toByte]
  | reg r => exact Spec.toByte_lt r
  | scope c => cases c <;> simp [Opnd.toByte, Scope.code]
  | raw b => exact b.isLt

theorem Fmt.code_lt (f : Fmt) : f.code < 16 := by cases f <;> decide

/-- Bit 57 of a number made of a field above it, itself, and a rest below it. -/
theorem bit57 (m : Nat) (b : Bool) (r : Nat) (hr : r < 2 ^ 57) :
    (BitVec.ofNat 64 (m * 2 ^ 58 + (if b then 2 ^ 57 else 0) + r)).getLsbD 57 = b := by
  rw [BitVec.getLsbD_ofNat, Nat.testBit_eq_decide_div_mod_eq]
  cases b <;> simp <;> omega

theorem encodeStd_wide (major func : Nat) (o : Ops) (hf : func < 512) :
    ∃ w, encodeStd major func o = w :: (match o.ext with | some e => [e] | none => []) ∧ w.getLsbD 57 = o.ext.isSome := by
  refine ⟨_, rfl, ?_⟩
  have hd := Opnd.toByte_lt o.d
  have ha := Opnd.toByte_lt o.a
  have hb := Opnd.toByte_lt o.b
  have hc := Opnd.toByte_lt o.c
  have h1 := o.ea.toNat_lt
  have h2 := o.eb.toNat_lt
  have h3 := o.ec.toNat_lt
  have h4 := o.pn.toNat_lt
  have hp := o.pred.isLt
  have hm := o.mod.isLt
  have hk := Fmt.code_lt o.fmt
  have := bit57 major o.ext.isSome (func * 2 ^ 48 + o.d.toByte * 2 ^ 40 + o.a.toByte * 2 ^ 32 + o.b.toByte * 2 ^ 24 + o.c.toByte * 2 ^ 16 +
    o.ea.toNat * 2 ^ 15 + o.eb.toNat * 2 ^ 14 + o.ec.toNat * 2 ^ 13 + o.pred.val * 2 ^ 9 + o.pn.toNat * 2 ^ 8 + o.fmt.code * 2 ^ 4 +
    o.mod.toNat) (by omega)
  simpa only [Nat.add_assoc] using this

theorem words_of_wide {b : Bool} {w : Word} {ws : List Word} (hw : w.getLsbD 57 = b) (hl : ws.length = if b then 1 else 0) :
    ws.length + 1 = wordsOf w := by cases b <;> simp_all [wordsOf]

/-- A standard-format instruction. -/
theorem standard {i : Instr} {major func : Nat} {f : Form} {o : Ops} (h : i.std? = some (major, func, f, o))
    (he : encode i = encodeStd major func o) (hf : func < 512) : Statement i := by
  intro _ w ws hw
  obtain ⟨v, hv, hb⟩ := encodeStd_wide major func o hf
  rw [he, hv] at hw
  obtain ⟨rfl, rfl⟩ := List.cons.inj hw
  exact words_of_wide hb (by cases o.ext <;> rfl)

/-- A trailer. -/
theorem trailer {i : Instr} {f : TrailForm} {t : Trail} (he : encode i = encodeTrail f t) (hf : f.func < 512) : Statement i := by
  intro _ w ws hw
  rw [he] at hw
  obtain ⟨rfl, rfl⟩ := List.cons.inj hw
  refine words_of_wide (b := f.wide) ?_ (by cases f.wide <;> rfl)
  have hd := Opnd.toByte_lt t.d
  have ha := Opnd.toByte_lt t.a
  have h1 := t.ea.toNat_lt
  have h4 := t.pn.toNat_lt
  have hp := t.pred.isLt
  have hm := t.pub.isLt
  have := bit57 2 f.wide (f.func * 2 ^ 48 + t.d.toByte * 2 ^ 40 + t.a.toByte * 2 ^ 32 + t.pub.toNat * 2 ^ 16 + t.ea.toNat * 2 ^ 15 +
    t.pred.val * 2 ^ 9 + t.pn.toNat * 2 ^ 8) (by omega)
  simpa only [Nat.add_assoc] using this

/-- A step of the machine, which has no word. -/
theorem wordless {i : Instr} (he : encode i = []) : Statement i := by
  intro _ w ws hw
  rw [he] at hw
  cases hw

theorem granule_lt (ws : Word) (g : Nat) : granule ws g < 256 := Nat.mod_lt _ (by decide)

theorem granules_fold (ws : Word) : ∀ gs : List Nat, gs.foldr (fun g acc => granule ws g + 256 * acc) 0 < 256 ^ gs.length
  | [] => by simp
  | g :: gs => by
    have h1 := granule_lt ws g
    have h2 := granules_fold ws gs
    simp only [List.foldr_cons, List.length_cons, Nat.pow_succ]
    omega

theorem gmask_fold : ∀ gs : List Nat, gs.length ≤ 8 → (∀ g ∈ gs, g < 8) →
    gs.foldr (fun g acc => 2 ^ (40 + g) + acc) 0 ≤ gs.length * 2 ^ 47
  | [], _, _ => by decide
  | g :: gs, hl, h => by
    have h1 : 2 ^ (40 + g) ≤ 2 ^ 47 := Nat.pow_le_pow_right (by decide) (by have := h g (by simp); omega)
    have h2 := gmask_fold gs (by simp at hl; omega) (fun x hx => h x (by simp [hx]))
    simp only [List.foldr_cons, List.length_cons]
    omega

/-- The first word of a head. -/
theorem headWord_wide (func : Nat) (h : Head) (hf : func ≤ 1) (ho : h.ok = true) : (headWord func h).getLsbD 57 = (func == 1) := by
  have hlen : (granules h.ws).length ≤ 5 := by
    simp only [Head.ok, Bool.and_eq_true, decide_eq_true_eq] at ho
    exact ho.1
  have h1 := granules_fold h.ws (granules h.ws)
  have h2 := gmask_fold (granules h.ws) (by omega) (fun g hg => by simp [granules] at hg; exact hg.1)
  have h3 : 256 ^ (granules h.ws).length ≤ 256 ^ 5 := Nat.pow_le_pow_right (by decide) hlen
  have := bit57 1 (func == 1) (func * 2 ^ 48 + (granules h.ws).foldr (fun g acc => 2 ^ (40 + g) + acc) 0 +
    (granules h.ws).foldr (fun g acc => granule h.ws g + 256 * acc) 0) (by omega)
  simpa only [headWord, Nat.add_assoc] using this

theorem run (h : Head) : Statement (.run h) := by
  intro hw w ws he
  simp only [Instr.wf, Bool.and_eq_true] at hw
  obtain ⟨rfl, rfl⟩ := List.cons.inj he
  exact words_of_wide (headWord_wide 0 h (by decide) hw.1) rfl

theorem runr (h : Head) : Statement (.runr h) := by
  intro hw w ws he
  obtain ⟨rfl, rfl⟩ := List.cons.inj he
  exact words_of_wide (headWord_wide 1 h (by decide) hw) rfl

theorem xpr (x : XprOps) : Statement (.xpr x) := by
  intro _ w ws he
  obtain ⟨v, hv, hb⟩ := encodeStd_wide 0x0B 0 { x.o with ext := some (BitVec.ofNat 64 (x.e4.toNat * 2 ^ 56 + x.s4.toByte * 2 ^ 48 +
    x.codes.length * 2 ^ 42 + x.codes.foldr (fun k acc => k.toNat + 64 * acc) 0)) } (by decide)
  have he' : encodeXpr x = w :: ws := he
  simp only [encodeXpr, hv] at he'
  obtain ⟨rfl, rfl⟩ := List.cons.inj he'
  exact words_of_wide hb rfl

theorem emulationTrap (word : Word) (ext : Option Word) : Statement (.emulationTrap word ext) := by
  intro hw w ws he
  simp only [Instr.wf, emulatedOk, Bool.and_eq_true, beq_iff_eq] at hw
  obtain ⟨rfl, rfl⟩ := List.cons.inj he
  refine words_of_wide (b := ext.isSome) hw.2.symm (by cases ext <;> rfl)

theorem runFetch (gid : Nat) (slotB : Bool) : Statement (.runFetch gid slotB) := wordless rfl
theorem endFall (t : Trail) : Statement (.endFall t) := trailer rfl (by decide)
theorem endb (t : Trail) : Statement (.endb t) := trailer rfl (by decide)
theorem endc (t : Trail) : Statement (.endc t) := trailer rfl (by decide)
theorem endj (t : Trail) : Statement (.endj t) := trailer rfl (by decide)
theorem endcall (t : Trail) : Statement (.endcall t) := trailer rfl (by decide)
theorem endret (t : Trail) : Statement (.endret t) := trailer rfl (by decide)
theorem endexit (t : Trail) : Statement (.endexit t) := trailer rfl (by decide)
theorem groupResourcesReturn (gid : Nat) : Statement (.groupResourcesReturn gid) := wordless rfl
theorem spawn (o : Ops) : Statement (.spawn o) := standard rfl rfl (by decide)
theorem bar (o : Ops) : Statement (.bar o) := standard rfl rfl (by decide)
theorem bara (o : Ops) : Statement (.bara o) := standard rfl rfl (by decide)
theorem barw (o : Ops) : Statement (.barw o) := standard rfl rfl (by decide)
theorem nop (o : Ops) : Statement (.nop o) := standard rfl rfl (by decide)
theorem add (o : Ops) : Statement (.add o) := standard rfl rfl (by decide)
theorem sub (o : Ops) : Statement (.sub o) := standard rfl rfl (by decide)
theorem adds (o : Ops) : Statement (.adds o) := standard rfl rfl (by decide)
theorem subs (o : Ops) : Statement (.subs o) := standard rfl rfl (by decide)
theorem neg (o : Ops) : Statement (.neg o) := standard rfl rfl (by decide)
theorem abs (o : Ops) : Statement (.abs o) := standard rfl rfl (by decide)
theorem mul (o : Ops) : Statement (.mul o) := standard rfl rfl (by decide)
theorem mulh (o : Ops) : Statement (.mulh o) := standard rfl rfl (by decide)
theorem mad (o : Ops) : Statement (.mad o) := standard rfl rfl (by decide)
theorem madw (o : Ops) : Statement (.madw o) := standard rfl rfl (by decide)
theorem min (o : Ops) : Statement (.min o) := standard rfl rfl (by decide)
theorem max (o : Ops) : Statement (.max o) := standard rfl rfl (by decide)
theorem div (o : Ops) : Statement (.div o) := standard rfl rfl (by decide)
theorem rem (o : Ops) : Statement (.rem o) := standard rfl rfl (by decide)
theorem and (o : Ops) : Statement (.and o) := standard rfl rfl (by decide)
theorem or (o : Ops) : Statement (.or o) := standard rfl rfl (by decide)
theorem xor (o : Ops) : Statement (.xor o) := standard rfl rfl (by decide)
theorem andn (o : Ops) : Statement (.andn o) := standard rfl rfl (by decide)
theorem not (o : Ops) : Statement (.not o) := standard rfl rfl (by decide)
theorem shl (o : Ops) : Statement (.shl o) := standard rfl rfl (by decide)
theorem shr (o : Ops) : Statement (.shr o) := standard rfl rfl (by decide)
theorem rot (o : Ops) : Statement (.rot o) := standard rfl rfl (by decide)
theorem bfe (o : Ops) : Statement (.bfe o) := standard rfl rfl (by decide)
theorem bfi (o : Ops) : Statement (.bfi o) := standard rfl rfl (by decide)
theorem clz (o : Ops) : Statement (.clz o) := standard rfl rfl (by decide)
theorem ctz (o : Ops) : Statement (.ctz o) := standard rfl rfl (by decide)
theorem popc (o : Ops) : Statement (.popc o) := standard rfl rfl (by decide)
theorem brev (o : Ops) : Statement (.brev o) := standard rfl rfl (by decide)
theorem cmp (o : Ops) : Statement (.cmp o) := standard rfl rfl (by decide)
theorem sel (o : Ops) : Statement (.sel o) := standard rfl rfl (by decide)
theorem mov (o : Ops) : Statement (.mov o) := standard rfl rfl (by decide)
theorem movw (o : Ops) : Statement (.movw o) := standard rfl rfl (by decide)
theorem lea (o : Ops) : Statement (.lea o) := standard rfl rfl (by decide)
theorem idx (o : Ops) : Statement (.idx o) := standard rfl rfl (by decide)
theorem cvti (o : Ops) : Statement (.cvti o) := standard rfl rfl (by decide)
theorem pack (o : Ops) : Statement (.pack o) := standard rfl rfl (by decide)
theorem unpk (o : Ops) : Statement (.unpk o) := standard rfl rfl (by decide)
theorem plog (o : Ops) : Statement (.plog o) := standard rfl rfl (by decide)
theorem pmov (o : Ops) : Statement (.pmov o) := standard rfl rfl (by decide)
theorem fadd (o : Ops) : Statement (.fadd o) := standard rfl rfl (by decide)
theorem fsub (o : Ops) : Statement (.fsub o) := standard rfl rfl (by decide)
theorem fmul (o : Ops) : Statement (.fmul o) := standard rfl rfl (by decide)
theorem ffma (o : Ops) : Statement (.ffma o) := standard rfl rfl (by decide)
theorem fmin (o : Ops) : Statement (.fmin o) := standard rfl rfl (by decide)
theorem fmax (o : Ops) : Statement (.fmax o) := standard rfl rfl (by decide)
theorem fabs (o : Ops) : Statement (.fabs o) := standard rfl rfl (by decide)
theorem fneg (o : Ops) : Statement (.fneg o) := standard rfl rfl (by decide)
theorem fcmp (o : Ops) : Statement (.fcmp o) := standard rfl rfl (by decide)
theorem fclass (o : Ops) : Statement (.fclass o) := standard rfl rfl (by decide)
theorem frnd (o : Ops) : Statement (.frnd o) := standard rfl rfl (by decide)
theorem fdiv (o : Ops) : Statement (.fdiv o) := standard rfl rfl (by decide)
theorem frcp (o : Ops) : Statement (.frcp o) := standard rfl rfl (by decide)
theorem frsq (o : Ops) : Statement (.frsq o) := standard rfl rfl (by decide)
theorem fsqrt (o : Ops) : Statement (.fsqrt o) := standard rfl rfl (by decide)
theorem fexp2 (o : Ops) : Statement (.fexp2 o) := standard rfl rfl (by decide)
theorem flog2 (o : Ops) : Statement (.flog2 o) := standard rfl rfl (by decide)
theorem fsin (o : Ops) : Statement (.fsin o) := standard rfl rfl (by decide)
theorem fcos (o : Ops) : Statement (.fcos o) := standard rfl rfl (by decide)
theorem flut (o : Ops) : Statement (.flut o) := standard rfl rfl (by decide)
theorem tblld (o : Ops) : Statement (.tblld o) := standard rfl rfl (by decide)
theorem tblldEntriesWritten (core id : Nat) : Statement (.tblldEntriesWritten core id) := wordless rfl
theorem tblsw (o : Ops) : Statement (.tblsw o) := standard rfl rfl (by decide)
theorem cvt (o : Ops) : Statement (.cvt o) := standard rfl rfl (by decide)
theorem cmul (o : Ops) : Statement (.cmul o) := standard rfl rfl (by decide)
theorem cfma (o : Ops) : Statement (.cfma o) := standard rfl rfl (by decide)
theorem shfl (o : Ops) : Statement (.shfl o) := standard rfl rfl (by decide)
theorem bcst (o : Ops) : Statement (.bcst o) := standard rfl rfl (by decide)
theorem scan (o : Ops) : Statement (.scan o) := standard rfl rfl (by decide)
theorem red (o : Ops) : Statement (.red o) := standard rfl rfl (by decide)
theorem vote (o : Ops) : Statement (.vote o) := standard rfl rfl (by decide)
theorem mld (o : Ops) : Statement (.mld o) := standard rfl rfl (by decide)
theorem mldArrival (gid acc : Nat) : Statement (.mldArrival gid acc) := wordless rfl
theorem mst (o : Ops) : Statement (.mst o) := standard rfl rfl (by decide)
theorem mzero (o : Ops) : Statement (.mzero o) := standard rfl rfl (by decide)
theorem mident (o : Ops) : Statement (.mident o) := standard rfl rfl (by decide)
theorem msete (o : Ops) : Statement (.msete o) := standard rfl rfl (by decide)
theorem mgete (o : Ops) : Statement (.mgete o) := standard rfl rfl (by decide)
theorem mshape (o : Ops) : Statement (.mshape o) := standard rfl rfl (by decide)
theorem madd (o : Ops) : Statement (.madd o) := standard rfl rfl (by decide)
theorem msub (o : Ops) : Statement (.msub o) := standard rfl rfl (by decide)
theorem mscal (o : Ops) : Statement (.mscal o) := standard rfl rfl (by decide)
theorem mmul (o : Ops) : Statement (.mmul o) := standard rfl rfl (by decide)
theorem mfma (o : Ops) : Statement (.mfma o) := standard rfl rfl (by decide)
theorem mtrn (o : Ops) : Statement (.mtrn o) := standard rfl rfl (by decide)
theorem mmv (o : Ops) : Statement (.mmv o) := standard rfl rfl (by decide)
theorem mchol (o : Ops) : Statement (.mchol o) := standard rfl rfl (by decide)
theorem mlup (o : Ops) : Statement (.mlup o) := standard rfl rfl (by decide)
theorem msolve (o : Ops) : Statement (.msolve o) := standard rfl rfl (by decide)
theorem minv (o : Ops) : Statement (.minv o) := standard rfl rfl (by decide)
theorem mdet (o : Ops) : Statement (.mdet o) := standard rfl rfl (by decide)
theorem ld (o : Ops) : Statement (.ld o) := standard rfl rfl (by decide)
theorem lds (o : Ops) : Statement (.lds o) := standard rfl rfl (by decide)
theorem loadDataArrival (gid acc : Nat) : Statement (.loadDataArrival gid acc) := wordless rfl
theorem st (o : Ops) : Statement (.st o) := standard rfl rfl (by decide)
theorem ltr (o : Ops) : Statement (.ltr o) := standard rfl rfl (by decide)
theorem pgreq (o : Ops) : Statement (.pgreq o) := standard rfl rfl (by decide)
theorem pref (o : Ops) : Statement (.pref o) := standard rfl rfl (by decide)
theorem pageRequestRetry (req : Nat) : Statement (.pageRequestRetry req) := wordless rfl
theorem aadd (o : Ops) : Statement (.aadd o) := standard rfl rfl (by decide)
theorem amin (o : Ops) : Statement (.amin o) := standard rfl rfl (by decide)
theorem amax (o : Ops) : Statement (.amax o) := standard rfl rfl (by decide)
theorem aand (o : Ops) : Statement (.aand o) := standard rfl rfl (by decide)
theorem aor (o : Ops) : Statement (.aor o) := standard rfl rfl (by decide)
theorem axor (o : Ops) : Statement (.axor o) := standard rfl rfl (by decide)
theorem axch (o : Ops) : Statement (.axch o) := standard rfl rfl (by decide)
theorem acas (o : Ops) : Statement (.acas o) := standard rfl rfl (by decide)
theorem afadd (o : Ops) : Statement (.afadd o) := standard rfl rfl (by decide)
theorem scadd (o : Ops) : Statement (.scadd o) := standard rfl rfl (by decide)
theorem atomicPerform (id : Nat) : Statement (.atomicPerform id) := wordless rfl
theorem atomicReturn (gid acc : Nat) : Statement (.atomicReturn gid acc) := wordless rfl
theorem fence (o : Ops) : Statement (.fence o) := standard rfl rfl (by decide)
theorem rfence (o : Ops) : Statement (.rfence o) := standard rfl rfl (by decide)
theorem rwr (o : Ops) : Statement (.rwr o) := standard rfl rfl (by decide)
theorem rwrDelivery (id : Nat) : Statement (.rwrDelivery id) := wordless rfl
theorem waitc (o : Ops) : Statement (.waitc o) := standard rfl rfl (by decide)
theorem waitcRead (gid : Nat) (slotB : Bool) : Statement (.waitcRead gid slotB) := wordless rfl
theorem cntadd (o : Ops) : Statement (.cntadd o) := standard rfl rfl (by decide)
theorem txb (o : Ops) : Statement (.txb o) := standard rfl rfl (by decide)
theorem txc (o : Ops) : Statement (.txc o) := standard rfl rfl (by decide)
theorem txa (o : Ops) : Statement (.txa o) := standard rfl rfl (by decide)
theorem castreg (o : Ops) : Statement (.castreg o) := standard rfl rfl (by decide)
theorem castdrop (o : Ops) : Statement (.castdrop o) := standard rfl rfl (by decide)
theorem castq (o : Ops) : Statement (.castq o) := standard rfl rfl (by decide)
theorem cmocln (o : Ops) : Statement (.cmocln o) := standard rfl rfl (by decide)
theorem cmoinv (o : Ops) : Statement (.cmoinv o) := standard rfl rfl (by decide)
theorem cmofl (o : Ops) : Statement (.cmofl o) := standard rfl rfl (by decide)
theorem recast (rule tile : Nat) : Statement (.recast rule tile) := wordless rfl
theorem xplacePut (o : Ops) : Statement (.xplacePut o) := standard rfl rfl (by decide)
theorem xplaceBind (o : Ops) : Statement (.xplaceBind o) := standard rfl rfl (by decide)
theorem xevictKeep (o : Ops) : Statement (.xevictKeep o) := standard rfl rfl (by decide)
theorem xevictScrub (o : Ops) : Statement (.xevictScrub o) := standard rfl rfl (by decide)
theorem xaccZero (o : Ops) : Statement (.xaccZero o) := standard rfl rfl (by decide)
theorem xaccLoad (o : Ops) : Statement (.xaccLoad o) := standard rfl rfl (by decide)
theorem xaccFree (o : Ops) : Statement (.xaccFree o) := standard rfl rfl (by decide)
theorem xmma (o : Ops) : Statement (.xmma o) := standard rfl rfl (by decide)
theorem xmmac (o : Ops) : Statement (.xmmac o) := standard rfl rfl (by decide)
theorem xdrain (o : Ops) : Statement (.xdrain o) := standard rfl rfl (by decide)
theorem xdrainRegister (o : Ops) : Statement (.xdrainRegister o) := standard rfl rfl (by decide)
theorem xstat (o : Ops) : Statement (.xstat o) := standard rfl rfl (by decide)
theorem pour (o : Ops) : Statement (.pour o) := standard rfl rfl (by decide)
theorem reservationStall (gid : Nat) : Statement (.reservationStall gid) := wordless rfl
theorem fieldPassGrant (cluster : Nat) : Statement (.fieldPassGrant cluster) := wordless rfl
theorem fieldCommandEnd (cmd : Nat) : Statement (.fieldCommandEnd cmd) := wordless rfl
theorem commandMigration (cmd cluster : Nat) : Statement (.commandMigration cmd cluster) := wordless rfl
theorem pourPrescan (cmd : Nat) : Statement (.pourPrescan cmd) := wordless rfl
theorem gNot (cmd : Nat) (g : Gate) : Statement (.gNot cmd g) := wordless rfl
theorem gNor2 (cmd : Nat) (g : Gate) : Statement (.gNor2 cmd g) := wordless rfl
theorem gNor3 (cmd : Nat) (g : Gate) : Statement (.gNor3 cmd g) := wordless rfl
theorem gOr2 (cmd : Nat) (g : Gate) : Statement (.gOr2 cmd g) := wordless rfl
theorem gAnd2 (cmd : Nat) (g : Gate) : Statement (.gAnd2 cmd g) := wordless rfl
theorem gNand2 (cmd : Nat) (g : Gate) : Statement (.gNand2 cmd g) := wordless rfl
theorem gImp (cmd : Nat) (g : Gate) : Statement (.gImp cmd g) := wordless rfl
theorem gSet0 (cmd : Nat) (g : Gate) : Statement (.gSet0 cmd g) := wordless rfl
theorem gSet1 (cmd : Nat) (g : Gate) : Statement (.gSet1 cmd g) := wordless rfl
theorem gRead (cmd : Nat) (g : Gate) : Statement (.gRead cmd g) := wordless rfl
theorem gLoad (cmd : Nat) (g : Gate) : Statement (.gLoad cmd g) := wordless rfl
theorem pourEnd (cmd : Nat) : Statement (.pourEnd cmd) := wordless rfl
theorem enduranceWindow : Statement .enduranceWindow := wordless rfl
theorem platePatrol (field row : Nat) : Statement (.platePatrol field row) := wordless rfl
theorem cpy (o : Ops) : Statement (.cpy o) := standard rfl rfl (by decide)
theorem gath (o : Ops) : Statement (.gath o) := standard rfl rfl (by decide)
theorem scat (o : Ops) : Statement (.scat o) := standard rfl rfl (by decide)
theorem coll (o : Ops) : Statement (.coll o) := standard rfl rfl (by decide)
theorem collContributionArrival (cmd member : Nat) : Statement (.collContributionArrival cmd member) := wordless rfl
theorem nmx (o : Ops) : Statement (.nmx o) := standard rfl rfl (by decide)
theorem nmfence (o : Ops) : Statement (.nmfence o) := standard rfl rfl (by decide)
theorem node (o : Ops) : Statement (.node o) := standard rfl rfl (by decide)
theorem nodeArm (id : Nat) : Statement (.nodeArm id) := wordless rfl
theorem engineOwn (cmd line : Nat) : Statement (.engineOwn cmd line) := wordless rfl
theorem engineRead (cmd line : Nat) : Statement (.engineRead cmd line) := wordless rfl
theorem engineWrite (cmd line : Nat) : Statement (.engineWrite cmd line) := wordless rfl
theorem engineComplete (cmd : Nat) : Statement (.engineComplete cmd) := wordless rfl
theorem phaseQueuePerform (chan : Nat) : Statement (.phaseQueuePerform chan) := wordless rfl
theorem nmxComplete (cmd : Nat) : Statement (.nmxComplete cmd) := wordless rfl
theorem phaseSwitch (chan : Nat) : Statement (.phaseSwitch chan) := wordless rfl
theorem sysrd (o : Ops) : Statement (.sysrd o) := standard rfl rfl (by decide)
theorem syswr (o : Ops) : Statement (.syswr o) := standard rfl rfl (by decide)
theorem engstat (o : Ops) : Statement (.engstat o) := standard rfl rfl (by decide)
theorem rmsel (o : Ops) : Statement (.rmsel o) := standard rfl rfl (by decide)
theorem rmpart (o : Ops) : Statement (.rmpart o) := standard rfl rfl (by decide)
theorem trap (o : Ops) : Statement (.trap o) := standard rfl rfl (by decide)
theorem bkpt (o : Ops) : Statement (.bkpt o) := standard rfl rfl (by decide)
theorem eret (o : Ops) : Statement (.eret o) := standard rfl rfl (by decide)
theorem time (o : Ops) : Statement (.time o) := standard rfl rfl (by decide)
theorem trace (o : Ops) : Statement (.trace o) := standard rfl rfl (by decide)
theorem storeEnter (gid : Nat) : Statement (.storeEnter gid) := wordless rfl
theorem storeDrain (gid : Nat) : Statement (.storeDrain gid) := wordless rfl
theorem storePropagate (core line : Nat) : Statement (.storePropagate core line) := wordless rfl
theorem storeApply (home : Nat) : Statement (.storeApply home) := wordless rfl
theorem loadLine (gid acc line : Nat) : Statement (.loadLine gid acc line) := wordless rfl
theorem l1Refresh (core line : Nat) (drop : Bool) : Statement (.l1Refresh core line drop) := wordless rfl
theorem l1Fill (core line : Nat) : Statement (.l1Fill core line) := wordless rfl
theorem l1AgeDrop (core line : Nat) : Statement (.l1AgeDrop core line) := wordless rfl
theorem recordCacheFill (core addr : Nat) : Statement (.recordCacheFill core addr) := wordless rfl
theorem recordCacheDrop (core addr : Nat) : Statement (.recordCacheDrop core addr) := wordless rfl
theorem delivery (queue : Nat) : Statement (.delivery queue) := wordless rfl
theorem pageWalk (core asn : Nat) (vpage : Nat) : Statement (.pageWalk core asn vpage) := wordless rfl
theorem arrival (part : Nat) (notice : BitVec 128) : Statement (.arrival part notice) := wordless rfl
theorem shootdown (part : Nat) (desc : BitVec 128) : Statement (.shootdown part desc) := wordless rfl
theorem shootdownComplete (id : Nat) : Statement (.shootdownComplete id) := wordless rfl
theorem doorbell (part : Nat) (value : BitVec 128) : Statement (.doorbell part value) := wordless rfl
theorem dispatch (slot : Nat) : Statement (.dispatch slot) := wordless rfl
theorem indirect (slot : Nat) : Statement (.indirect slot) := wordless rfl
theorem copy (slot : Nat) : Statement (.copy slot) := wordless rfl
theorem graph (slot : Nat) : Statement (.graph slot) := wordless rfl
theorem cmo (slot : Nat) : Statement (.cmo slot) := wordless rfl
theorem waitmem (slot : Nat) : Statement (.waitmem slot) := wordless rfl
theorem signal (slot : Nat) : Statement (.signal slot) := wordless rfl
theorem standPlace (launch core : Nat) : Statement (.standPlace launch core) := wordless rfl
theorem standHandover (stand : Nat) : Statement (.standHandover stand) := wordless rfl
theorem standResourceRelease (stand : Nat) : Statement (.standResourceRelease stand) := wordless rfl
theorem launchEnd (launch : Nat) : Statement (.launchEnd launch) := wordless rfl
theorem quantumBoundary (part : Nat) : Statement (.quantumBoundary part) := wordless rfl
theorem preemptionDiscard (gid : Nat) : Statement (.preemptionDiscard gid) := wordless rfl
theorem partitionClear (part : Nat) : Statement (.partitionClear part) := wordless rfl
theorem partitionRestore (part : Nat) : Statement (.partitionRestore part) := wordless rfl
theorem standKill (stand : Nat) : Statement (.standKill stand) := wordless rfl
theorem partitionCreate (value : Word) : Statement (.partitionCreate value) := wordless rfl
theorem partitionUpdate (value : Word) : Statement (.partitionUpdate value) := wordless rfl
theorem partitionRemove (value : Word) : Statement (.partitionRemove value) := wordless rfl
theorem hbmRequest (bank index : Nat) : Statement (.hbmRequest bank index) := wordless rfl
theorem backoffEnd (bank : Nat) : Statement (.backoffEnd bank) := wordless rfl
theorem rowIdleClose (bank : Nat) : Statement (.rowIdleClose bank) := wordless rfl
theorem periodicRefresh (bank row : Nat) : Statement (.periodicRefresh bank row) := wordless rfl
theorem hbmPatrol (line : Nat) (bad : Nat) : Statement (.hbmPatrol line bad) := wordless rfl
theorem sramScrub (unit : Nat) (bad : Nat) : Statement (.sramScrub unit bad) := wordless rfl
theorem parityError (core : Nat) : Statement (.parityError core) := wordless rfl
theorem workerWatchdog (worker : Nat) : Statement (.workerWatchdog worker) := wordless rfl
theorem lockstepMismatch : Statement .lockstepMismatch := wordless rfl
theorem thermalTrip : Statement .thermalTrip := wordless rfl
theorem linkFlitReceive (port : Nat) (seq ack : BitVec 12) (errors : Nat) (src dest : Nat) (hlc : Word) (msg : LinkMsg) : Statement (.linkFlitReceive port seq ack errors src dest hlc msg) := wordless rfl
theorem linkReplay (port : Nat) (expected : Nat) : Statement (.linkReplay port expected) := wordless rfl
theorem linkRetrain (port : Nat) (ok : Bool) : Statement (.linkRetrain port ok) := wordless rfl
theorem hostRequestCompletion (id : Nat) (ok : Bool) (data : List Byte) : Statement (.hostRequestCompletion id ok data) := wordless rfl
theorem hostBarAccess (control : Bool) (op : BarOp) (addr size : Nat) (data : List Byte) : Statement (.hostBarAccess control op addr size data) := wordless rfl
theorem deviceReset (flash : List Byte) : Statement (.deviceReset flash) := wordless rfl
theorem rlgo (value : Word) : Statement (.rlgo value) := wordless rfl
theorem attgo (value : Word) : Statement (.attgo value) := wordless rfl
theorem powerLoss : Statement .powerLoss := wordless rfl
theorem ptpCorrection (offset rate : Int) : Statement (.ptpCorrection offset rate) := wordless rfl
theorem dbgClaim (part : Nat) (value : Word) : Statement (.dbgClaim part value) := wordless rfl
theorem dbgRelease (part : Nat) (value : Word) : Statement (.dbgRelease part value) := wordless rfl
theorem dbgStop (part : Nat) (value : Word) : Statement (.dbgStop part value) := wordless rfl
theorem dbgResume (part : Nat) (value : Word) : Statement (.dbgResume part value) := wordless rfl
theorem dbgStep (part : Nat) (value : Word) : Statement (.dbgStep part value) := wordless rfl
theorem dbgDump (part : Nat) (value : Word) : Statement (.dbgDump part value) := wordless rfl
theorem dbgLoad (part : Nat) (value : Word) : Statement (.dbgLoad part value) := wordless rfl
theorem hwBreakpoint (gid : Nat) (slotB : Bool) : Statement (.hwBreakpoint gid slotB) := wordless rfl
theorem pcSample (core sched : Nat) : Statement (.pcSample core sched) := wordless rfl
theorem preciseStop : Statement .preciseStop := wordless rfl
theorem pmSnapshot (part : Nat) : Statement (.pmSnapshot part) := wordless rfl
theorem registerWrite (page offset : Nat) (value : BitVec 128) : Statement (.registerWrite page offset value) := wordless rfl
theorem waitmemRead (slot : Nat) : Statement (.waitmemRead slot) := wordless rfl
theorem answerArrival (gid : Nat) : Statement (.answerArrival gid) := wordless rfl
theorem cmoLinesDone (gid : Nat) (slotB : Bool) : Statement (.cmoLinesDone gid slotB) := wordless rfl
theorem withholding (start : Bool) : Statement (.withholding start) := wordless rfl

end Sys2Proof.Laws.Words
end

