-- ==== Sys2Proof/Tests/Slice0.lean ====
section
/-! SUPPORT. Tests: words written out from the encodings of the spec, a term that each check of `Instr.wf` refuses, single instructions
against values worked out by hand from the rules, and for every statement states and operands that meet its hypotheses. -/

namespace Sys2Proof.Tests

open Sys2Proof Sys2Proof.Machine

set_option Elab.async false

/-! ### Operands -/

abbrev v (n : Fin 64) : Opnd := .reg (.v n)
abbrev t (n : Fin 8) : Opnd := .reg (.t n)
abbrev p (n : Fin 16) : Opnd := .reg (.p n)
abbrev m (n : Fin 8) : Opnd := .reg (.m n)
abbrev x (n : Fin 8) : Opnd := .reg (.x n)
abbrev vz : Opnd := .reg .vz
abbrev vlane : Opnd := .reg .vlane

/-- An inline constant by its code: its value is the code less 64. -/
abbrev imm (k : BitVec 7) : Opnd := .reg (.imm k)

/-- The operands of a standard-format word without an extension. -/
def ops (d a b c : Opnd) (fmt : Fmt := .b64) (mod : BitVec 4 := 0) (pred : Fin 16 := 0) (pn : Bool := false) : Ops :=
  { d := d, a := a, b := b, c := c, ea := false, eb := false, ec := false, pred := pred, pn := pn, fmt := fmt, mod := mod, ext := none }

/-- The fields of a trailer; those not given are zero. -/
def trail (d a : Opnd) (pub : BitVec 16) (pred : Fin 16 := 0) (tgt : BitVec 32 := 0) (rcv : BitVec 32 := 0) : Trail :=
  { d := d, a := a, ea := false, pub := pub, pred := pred, pn := false, tgt := tgt, rcv := rcv }

/-! ### Decoding

Words made field by field from the formats of R76, R84, R85, R86 and R94, the codes of R79 to R83 and the specifiers of R9. -/

/-- Every word decodes to the instruction beside it, and that instruction is well formed and has this word. -/
def reads (ws : List (Nat × Instr)) : Bool :=
  ws.all fun e => decodeTableWord 64 e.1 == some e.2 && e.2.wf && encode e.2 == [BitVec.ofNat 64 e.1]

/-- As `reads`, for a word and its extension word. -/
def readsWide (ws : List (Nat × Nat × Instr)) : Bool :=
  ws.all fun e => decodeTableWord 128 (e.1 + e.2.1 * 2 ^ 64) == some e.2.2 && e.2.2.wf &&
    encode e.2.2 == [BitVec.ofNat 64 e.1, BitVec.ofNat 64 e.2.1]

theorem test_decode_control : reads [
    (0x0C00490606000200, .spawn (ops (p 1) (v 6) (v 6) .none .b64 0 1 false)),
    (0x0C01000000000004, .bar (ops .none .none .none .none .b64 4)),
    (0x0C02000000000004, .bara (ops .none .none .none .none .b64 4)),
    (0x0C03000000000904, .barw (ops .none .none .none .none .b64 4 4 true)),
    (0x0C04000000000000, .nop (ops .none .none .none .none .b64 0))] = true := by decide +kernel

theorem test_decode_integer : reads [
    (0x1000030102000040, .add (ops (v 3) (v 1) (v 2) .none .ui16 0)),
    (0x1001030102000E50, .sub (ops (v 3) (v 1) (v 2) .none .i8 0 7 false)),
    (0x1002030102000000, .adds (ops (v 3) (v 1) (v 2) .none .b64 0)),
    (0x1003030102000010, .subs (ops (v 3) (v 1) (v 2) .none .i32 0)),
    (0x1004030100001540, .neg (ops (v 3) (v 1) .none .none .ui16 0 10 true)),
    (0x1005030100000030, .abs (ops (v 3) (v 1) .none .none .i16 0)),
    (0x1006030102000000, .mul (ops (v 3) (v 1) (v 2) .none .b64 0)),
    (0x1007030102001A10, .mulh (ops (v 3) (v 1) (v 2) .none .i32 0 13 false)),
    (0x1008030102BD0040, .mad (ops (v 3) (v 1) (v 2) (imm 0x3D) .ui16 0)),
    (0x1009030102BD0060, .madw (ops (v 3) (v 1) (v 2) (imm 0x3D) .ui8 0)),
    (0x100A030102000300, .min (ops (v 3) (v 1) (v 2) .none .b64 0 1 true)),
    (0x100B030102000010, .max (ops (v 3) (v 1) (v 2) .none .i32 0)),
    (0xC000030102000040, .div (ops (v 3) (v 1) (v 2) .none .ui16 0)),
    (0xC001030102000850, .rem (ops (v 3) (v 1) (v 2) .none .i8 0 4 false)),
    (0x1400030102000000, .and (ops (v 3) (v 1) (v 2) .none .b64 0)),
    (0x1401030102000010, .or (ops (v 3) (v 1) (v 2) .none .i32 0)),
    (0x1402030102000F40, .xor (ops (v 3) (v 1) (v 2) .none .ui16 0 7 true)),
    (0x1403030102000050, .andn (ops (v 3) (v 1) (v 2) .none .i8 0)),
    (0x1404030100000000, .not (ops (v 3) (v 1) .none .none .b64 0)),
    (0x1405030102001410, .shl (ops (v 3) (v 1) (v 2) .none .i32 0 10 false)),
    (0x1406030102000040, .shr (ops (v 3) (v 1) (v 2) .none .ui16 0)),
    (0x1407030102000050, .rot (ops (v 3) (v 1) (v 2) .none .i8 0)),
    (0x1408030102BD1B00, .bfe (ops (v 3) (v 1) (v 2) (imm 0x3D) .b64 0 13 true)),
    (0x1409030102BD0010, .bfi (ops (v 3) (v 1) (v 2) (imm 0x3D) .i32 0)),
    (0x140A030100000040, .clz (ops (v 3) (v 1) .none .none .ui16 0)),
    (0x140B030100000250, .ctz (ops (v 3) (v 1) .none .none .i8 0 1 false)),
    (0x140C030100000000, .popc (ops (v 3) (v 1) .none .none .b64 0)),
    (0x140D030100000010, .brev (ops (v 3) (v 1) .none .none .i32 0)),
    (0x1800490102000912, .cmp (ops (p 1) (v 1) (v 2) .none .i32 2 4 true)),
    (0x18010301024A0050, .sel (ops (v 3) (v 1) (v 2) (p 2) .i8 0)),
    (0x1802030100000000, .mov (ops (v 3) (v 1) .none .none .b64 0)),
    (0x180303C300000E00, .movw (ops (v 3) (imm 0x43) .none .none .b64 0 7 false)),
    (0x1804030102BD0000, .lea (ops (v 3) (v 1) (v 2) (imm 0x3D) .b64 0)),
    (0x1805030102000050, .idx (ops (v 3) (v 1) (v 2) .none .i8 0)),
    (0x1806030105010031, .cvti (ops (v 3) (v 1) (.raw 0x05) (.raw 0x01) .i16 1)),
    (0x1807030102000060, .pack (ops (v 3) (v 1) (v 2) .none .ui8 0)),
    (0x1808030100000060, .unpk (ops (v 3) (v 1) .none .none .ui8 0)),
    (0x1809494A4A001A06, .plog (ops (p 1) (p 2) (p 2) .none .b64 6 13 false)),
    (0x180A490100000000, .pmov (ops (p 1) (v 1) .none .none .b64 0)),
    (0xC002030102000083, .fdiv (ops (v 3) (v 1) (v 2) .none .f16 3))] = true := by decide +kernel

theorem test_decode_float : reads [
    (0x1C00030102000090, .fadd (ops (v 3) (v 1) (v 2) .none .bf16 0)),
    (0x1C01030102000371, .fsub (ops (v 3) (v 1) (v 2) .none .f32 1 1 true)),
    (0x1C02030102000082, .fmul (ops (v 3) (v 1) (v 2) .none .f16 2)),
    (0x1C03030102BD0093, .ffma (ops (v 3) (v 1) (v 2) (imm 0x3D) .bf16 3)),
    (0x1C04030102000870, .fmin (ops (v 3) (v 1) (v 2) .none .f32 0 4 false)),
    (0x1C05030102000080, .fmax (ops (v 3) (v 1) (v 2) .none .f16 0)),
    (0x1C06030100000090, .fabs (ops (v 3) (v 1) .none .none .bf16 0)),
    (0x1C07030100000F70, .fneg (ops (v 3) (v 1) .none .none .f32 0 7 true)),
    (0x1C08490102000080, .fcmp (ops (p 1) (v 1) (v 2) .none .f16 0)),
    (0x1C09030100000090, .fclass (ops (v 3) (v 1) .none .none .bf16 0)),
    (0x1C0A030100001472, .frnd (ops (v 3) (v 1) .none .none .f32 2 10 false)),
    (0x2000030100000090, .frcp (ops (v 3) (v 1) .none .none .bf16 0)),
    (0x2001030100001B70, .frsq (ops (v 3) (v 1) .none .none .f32 0 13 true)),
    (0x2002030100000082, .fsqrt (ops (v 3) (v 1) .none .none .f16 2)),
    (0x2003030100000090, .fexp2 (ops (v 3) (v 1) .none .none .bf16 0)),
    (0x2004030100000270, .flog2 (ops (v 3) (v 1) .none .none .f32 0 1 false)),
    (0x2005030100000080, .fsin (ops (v 3) (v 1) .none .none .f16 0)),
    (0x2006030100000090, .fcos (ops (v 3) (v 1) .none .none .bf16 0)),
    (0x2007030102BD0973, .flut (ops (v 3) (v 1) (v 2) (imm 0x3D) .f32 3 4 true)),
    (0x2008006101020070, .tblld (ops .none (x 1) (v 1) (v 2) .f32 0)),
    (0x2009000100000070, .tblsw (ops .none (v 1) .none .none .f32 0)),
    (0x24000301C7000080, .cvt (ops (v 3) (v 1) (imm 0x47) .none .f16 0)),
    (0x2401030102000083, .cmul (ops (v 3) (v 1) (v 2) .none .f16 3)),
    (0x2402030102BD0090, .cfma (ops (v 3) (v 1) (v 2) (imm 0x3D) .bf16 0))] = true := by decide +kernel

theorem test_decode_lanes : reads [
    (0x28000301020015C2, .shfl (ops (v 3) (v 1) (v 2) .none .i4 2 10 true)),
    (0x28010301020000A0, .bcst (ops (v 3) (v 1) (v 2) .none .e4m3 0)),
    (0x2802030100000010, .scan (ops (v 3) (v 1) .none .none .i32 0)),
    (0x2803030100001A10, .red (ops (v 3) (v 1) .none .none .i32 0 13 false)),
    (0x2804034A00000003, .vote (ops (v 3) (p 2) .none .none .b64 3))] = true := by decide +kernel

theorem test_decode_matrix : reads [
    (0x3000596101020090, .mld (ops (m 1) (x 1) (v 1) (v 2) .bf16 0)),
    (0x3001615A01020373, .mst (ops (x 1) (m 2) (v 1) (v 2) .f32 3 1 true)),
    (0x3002590000000070, .mzero (ops (m 1) .none .none .none .f32 0)),
    (0x3003590000000070, .mident (ops (m 1) .none .none .none .f32 0)),
    (0x3004590102000870, .msete (ops (m 1) (v 1) (v 2) .none .f32 0 4 false)),
    (0x3005035A01000070, .mgete (ops (v 3) (m 2) (v 1) .none .f32 0)),
    (0x3006590102000070, .mshape (ops (m 1) (v 1) (v 2) .none .f32 0)),
    (0x3007595A5B000F70, .madd (ops (m 1) (m 2) (m 3) .none .f32 0 7 true)),
    (0x3008595A5B000070, .msub (ops (m 1) (m 2) (m 3) .none .f32 0)),
    (0x3009595A01000070, .mscal (ops (m 1) (m 2) (v 1) .none .f32 0)),
    (0x300A595A5B001470, .mmul (ops (m 1) (m 2) (m 3) .none .f32 0 10 false)),
    (0x300B595A5B5C0070, .mfma (ops (m 1) (m 2) (m 3) (m 4) .f32 0)),
    (0x300C595A00000070, .mtrn (ops (m 1) (m 2) .none .none .f32 0)),
    (0x300D595A00001B70, .mmv (ops (m 1) (m 2) .none .none .f32 0 13 true)),
    (0x3400595A01030070, .mchol (ops (m 1) (m 2) (v 1) (v 3) .f32 0)),
    (0x3401595A01030070, .mlup (ops (m 1) (m 2) (v 1) (v 3) .f32 0)),
    (0x34025B595A000070, .msolve (ops (m 3) (m 1) (m 2) .none .f32 0)),
    (0x3403595A01030070, .minv (ops (m 1) (m 2) (v 1) (v 3) .f32 0)),
    (0x3404035A00000070, .mdet (ops (v 3) (m 2) .none .none .f32 0))] = true := by decide +kernel

theorem test_decode_memory : reads [
    (0x38000A61014909C2, .ld (ops (v 10) (x 1) (v 1) (p 1) .i4 2 4 true)),
    (0x38010A61010000A0, .lds (ops (v 10) (x 1) (v 1) .none .e4m3 0)),
    (0x3802006101020000, .st (ops .none (x 1) (v 1) (v 2) .b64 0)),
    (0x3803620100000E00, .ltr (ops (x 2) (v 1) .none .none .b64 0 7 false)),
    (0x38040061014C00A0, .pgreq (ops .none (x 1) (v 1) (p 4) .e4m3 0)),
    (0x3805006101000002, .pref (ops .none (x 1) (v 1) .none .b64 2))] = true := by decide +kernel

theorem test_decode_atomic : reads [
    (0x3C000A6101021520, .aadd (ops (v 10) (x 1) (v 1) (v 2) .ui32 0 10 true)),
    (0x3C010A6101020020, .amin (ops (v 10) (x 1) (v 1) (v 2) .ui32 0)),
    (0x3C020A6101020020, .amax (ops (v 10) (x 1) (v 1) (v 2) .ui32 0)),
    (0x3C030A6101021A20, .aand (ops (v 10) (x 1) (v 1) (v 2) .ui32 0 13 false)),
    (0x3C040A6101020020, .aor (ops (v 10) (x 1) (v 1) (v 2) .ui32 0)),
    (0x3C050A6101020020, .axor (ops (v 10) (x 1) (v 1) (v 2) .ui32 0)),
    (0x3C060A6101020320, .axch (ops (v 10) (x 1) (v 1) (v 2) .ui32 0 1 true)),
    (0x3C070A6101020020, .acas (ops (v 10) (x 1) (v 1) (v 2) .ui32 0)),
    (0x3C080A6101020090, .afadd (ops (v 10) (x 1) (v 1) (v 2) .bf16 0)),
    (0x3C09006101020820, .scadd (ops .none (x 1) (v 1) (v 2) .ui32 0 4 false))] = true := by decide +kernel

theorem test_decode_order : reads [
    (0x4000050000000002, .fence (ops (.scope .dev) .none .none .none .b64 2)),
    (0x4001050000000000, .rfence (ops (.scope .dev) .none .none .none .b64 0)),
    (0x4002080406000002, .rwr (ops (.raw 0x08) (v 4) (v 6) .none .b64 2)),
    (0x4003006101020000, .waitc (ops .none (x 1) (v 1) (v 2) .b64 0)),
    (0x4004006101020000, .cntadd (ops .none (x 1) (v 1) (v 2) .b64 0)),
    (0x4400490000000000, .txb (ops (p 1) .none .none .none)),
    (0x4401000000000000, .txc (ops .none .none .none .none .b64 0)),
    (0x4402000100000000, .txa (ops .none (v 1) .none .none .b64 0))] = true := by decide +kernel

theorem test_decode_cast : reads [
    (0x4800496101001B00, .castreg (ops (p 1) (x 1) (v 1) .none .b64 0 13 true)),
    (0x4801496101000000, .castdrop (ops (p 1) (x 1) (v 1) .none .b64 0)),
    (0x4802036101000000, .castq (ops (v 3) (x 1) (v 1) .none .b64 0)),
    (0x4803056101020200, .cmocln (ops (.scope .dev) (x 1) (v 1) (v 2) .b64 0 1 false)),
    (0x4804056101020000, .cmoinv (ops (.scope .dev) (x 1) (v 1) (v 2) .b64 0)),
    (0x4805056101020000, .cmofl (ops (.scope .dev) (x 1) (v 1) (v 2) .b64 0))] = true := by decide +kernel

theorem test_decode_field : reads [
    (0x4C00006101000900, .xplacePut (ops .none (x 1) (v 1) .none .b64 0 4 true)),
    (0x4C00006101000001, .xplaceBind (ops .none (x 1) (v 1) .none .b64 1)),
    (0x4C01006101000000, .xevictKeep (ops .none (x 1) (v 1) .none .b64 0)),
    (0x4C01006101000E01, .xevictScrub (ops .none (x 1) (v 1) .none .b64 1 7 false)),
    (0x4C02006101000070, .xaccZero (ops .none (x 1) (v 1) .none .f32 0)),
    (0x4C02006101000071, .xaccLoad (ops .none (x 1) (v 1) .none .f32 1)),
    (0x4C02006101001502, .xaccFree (ops .none (x 1) (v 1) .none .b64 2 10 true)),
    (0x4C03006101000002, .xmma (ops .none (x 1) (v 1) .none .b64 2)),
    (0x4C04006101000000, .xmmac (ops .none (x 1) (v 1) .none .b64 0)),
    (0x4C05006101001A00, .xdrain (ops .none (x 1) (v 1) .none .b64 0 13 false)),
    (0x4C050A6101000083, .xdrainRegister (ops (v 10) (x 1) (v 1) .none .f16 3)),
    (0x4C06030100000000, .xstat (ops (v 3) (v 1) .none .none .b64 0)),
    (0x4C07006101000300, .pour (ops .none (x 1) (v 1) .none .b64 0 1 true))] = true := by decide +kernel

theorem test_decode_engine : reads [
    (0x5000006101000000, .cpy (ops .none (x 1) (v 1) .none .b64 0)),
    (0x5001006101000000, .gath (ops .none (x 1) (v 1) .none .b64 0)),
    (0x5002006101000800, .scat (ops .none (x 1) (v 1) .none .b64 0 4 false)),
    (0x5003006101000000, .coll (ops .none (x 1) (v 1) .none .b64 0)),
    (0x5004006101000000, .nmx (ops .none (x 1) (v 1) .none .b64 0)),
    (0x5005000000000000, .nmfence (ops .none .none .none .none)),
    (0x5006496101000000, .node (ops (p 1) (x 1) (v 1) .none .b64 0))] = true := by decide +kernel

theorem test_decode_system : reads [
    (0x5400030C00000000, .sysrd (ops (v 3) (.raw 0x0C) .none .none .b64 0)),
    (0x5401160100000000, .syswr (ops (.raw 0x16) (v 1) .none .none .b64 0)),
    (0x5401190100000000, .engstat (ops (.raw 0x19) (v 1) .none .none .b64 0)),
    (0x5401C10100000000, .rmsel (ops (.raw 0xC1) (v 1) .none .none .b64 0)),
    (0x5401C60100000000, .rmpart (ops (.raw 0xC6) (v 1) .none .none .b64 0)),
    (0x5402000100000000, .trap (ops .none (v 1) .none .none .b64 0)),
    (0x5403000000000000, .eret (ops .none .none .none .none .b64 0)),
    (0x5404000100000200, .bkpt (ops .none (v 1) .none .none .b64 0 1 false)),
    (0x5405030000000002, .time (ops (v 3) .none .none .none .b64 2)),
    (0x5406000100000009, .trace (ops .none (v 1) .none .none .b64 9))] = true := by decide +kernel

/-- R84, R98, R99: heads. R85, R100: trailers. -/
theorem test_decode_heads_trailers : reads [
    (0x0400010000000006, .run { ws := 0x6, livein := 0 }),
    (0x0400030000000206, .run { ws := 0x206, livein := 0 }),
    (0x0806000000030000, .endexit (trail .none .none 3)),
    (0x0800000000180000, .endFall (trail .none .none 0x18)),
    (0x0803000300010000, .endj (trail .none (v 3) 1)),
    (0x0805004600010000, .endret (trail .none (t 6) 1))] = true ∧ readsWide [
    (0x0601810000000201, 0x00000000000000FF, .runr { ws := 0x0200000000000001, livein := 0xFF }),
    (0x0A01000000010200, 0x0000000000000006, .endb (trail .none .none 1 1 6)),
    (0x0A02000000010200, 0x0000001400000006, .endc (trail .none .none 1 1 6 0x14)),
    (0x0A04060000000000, 0x00000000FFFFFFF0, .endcall (trail (v 6) .none 0 0 0xFFFFFFF0))] = true := by decide +kernel

/-- R86: XPR; R77: an extension word in the place of A; R91: a word of an extension space. -/
theorem test_decode_wide : readsWide [
    (0x2E00050102030070, 0x00001400184C3081, .xpr { o := ops (v 5) (v 1) (v 2) (v 3) .f32, s4 := .none, e4 := false, codes := [1, 2, 3, 0x13, 0x18] }),
    (0x3A03607E00000000, 0x0000000012345678, .ltr { ops (x 0) (.reg .ext) .none .none with ext := some 0x12345678 }),
    (0xC600000000000000, 0x0000000000000007, .emulationTrap 0xC600000000000000 (some 7))] = true := by decide +kernel

/-- R94, R95: gate words. A line field with bit 9 set names a scratch line. -/
theorem test_decode_gates :
    let g : Gate := { col := false, out := ⟨false, 5⟩, in1 := ⟨true, 3⟩, in2 := ⟨false, 0⟩, in3 := ⟨false, 0⟩, ops := 0 }
    let ax : Gate := { g with col := true, in2 := ⟨false, 9⟩ }
    let z : GLine := ⟨false, 0⟩
    (∀ e ∈ [(0x100B018000000000, Instr.gNot 0 g), (0x280B018120000000, .gNor2 0 ax), (0x380B018120080000, .gNor3 0 { ax with in3 := ⟨false, 1⟩ }),
        (0x480B018120000000, .gOr2 0 ax), (0x580B018120000000, .gAnd2 0 ax), (0x680B018120000000, .gNand2 0 ax), (0x700B018000000000, .gImp 0 g),
        (0x800A000000000000, .gSet0 0 { g with in1 := z }), (0x900A000000000000, .gSet1 0 { g with in1 := z }),
        (0xA001018000000000, .gRead 0 { g with out := z }), (0xB00A000000000002, .gLoad 0 { g with in1 := z, ops := 2 })],
      (match decodeGate (BitVec.ofNat 64 e.1) with | .gate mk => decide (mk 0 = e.2) && (mk 0).wf | _ => false) = true ∧
        encodeGate e.2 = some (BitVec.ofNat 64 e.1)) ∧
    (match decodeGate 0 with | .gend => true | _ => false) = true ∧
    (match decodeGate 0xC000000000000803 with | .rep 2 3 => true | _ => false) = true ∧
    (match decodeGate 0xD180000000001840 with | .pool 192 3 8 => true | _ => false) = true ∧
    (match decodeGate 0xE000000000000000 with | .fault => true | _ => false) = true := by decide +kernel

/-- Words that the spec writes out: those of R96 and of the sample programs. -/
theorem test_decode_samples : reads [
    (0x1006016EC3000000, .mul (ops (v 1) vlane (imm 0x43) .none)),
    (0x10000101C5000000, .add (ops (v 1) (v 1) (imm 0x45) .none)),
    (0x1405026EC3000000, .shl (ops (v 2) vlane (imm 0x43) .none)),
    (0x1804080503C70000, .lea (ops (v 8) (v 5) (v 3) (imm 0x47))),
    (0x3802006108C10000, .st (ops .none (x 1) (v 8) (imm 0x41))),
    (0x38010A6109000000, .lds (ops (v 10) (x 1) (v 9) .none)),
    (0x4002080406000002, .rwr (ops (.raw 8) (v 4) (v 6) .none .b64 2)),
    (0x3000586002D80070, .mld (ops (m 0) (x 0) (v 2) (imm 0x58) .f32)),
    (0x34025B595A000570, .msolve (ops (m 3) (m 1) (m 2) .none .f32 0 2 true)),
    (0x3400595870090070, .mchol (ops (m 1) (m 0) vz (v 9) .f32)),
    (0x3006_59C6_C600_0070, .mshape (ops (m 1) (imm 0x46) (imm 0x46) .none .f32))] = true := by decide +kernel

/-- R79, R87: words that are no instruction, with the subcause and the field of the first check that fails; the first seven are the samples
of R87. -/
theorem test_decode_refused :
    (∀ e ∈ [(0x0000000000000000, 1, 0), (0x5800000000000000, 2, 0), (0xFC00000000000000, 2, 0), (0x100C000000000000, 3, 0),
        (0x1200000000000000, 4, 0), (0x10000000000000E0, 5, 0), (0x1000000000000100, 13, 0), (0x1C000301020000A0, 5, 0),
        (0x1000030102000001, 6, 0), (0x1000037102000000, 7, 1), (0x100003017E000000, 8, 2), (0x10006E0102000000, 9, 0),
        (0x1000490102000000, 11, 0), (0x1000030102010000, 12, 3)],
      (match decode (leBytes 16 e.1) with | .error i => i.sub == e.2.1 && i.field == e.2.2 | .ok _ => false) = true) := by decide +kernel

/-! ### Ill-formed terms

Each check of `Instr.wf` refuses a term, which differs by one field from one that it accepts. -/

/-- Whether the first term is well formed and none of the others is. -/
def refusesAll (good : Instr) (bad : List Instr) : Bool := good.wf && bad.all fun i => !i.wf

/-- A standard word: format, format of a conversion, modifier, each operand, a check of the description, E bits, predicate and extension
(R79). -/
theorem test_wf_standard :
    let o := ops (v 3) (v 1) (v 2) .none .i32
    refusesAll (.add o) [.add { o with fmt := .f32 }, .add { o with mod := 1 }, .add { o with d := vz }, .add { o with d := p 1 }, .add { o with a := p 1 },
      .add { o with b := .none }, .add { o with c := v 4 }, .add { o with ec := true }, .add { o with pn := true }, .add { o with ext := some 5 },
      .add { o with a := .reg .ext }] = true ∧
    refusesAll (.cvt (ops (v 3) (v 1) (imm 0x47) .none .f16)) [.cvt (ops (v 3) (v 1) (imm 0x48) .none .f16), .cvt (ops (v 3) (v 1) (v 2) .none .f16)] = true ∧
    refusesAll (.cmp (ops (p 1) (v 1) (v 2) .none)) [.cmp (ops (p 0) (v 1) (v 2) .none), .cmp (ops (p 1) (v 1) (v 2) .none .b64 6)] = true ∧
    refusesAll (.pgreq (ops .none (x 1) (v 2) (p 1))) [.pgreq (ops .none (x 1) (v 2) (p 0)), .pgreq (ops .none (v 1) (v 2) (p 1))] = true ∧
    refusesAll (.nmfence (ops .none .none .none .none .b64 0 3)) [.nmfence (ops .none .none .none .none .f32)] = true ∧
    refusesAll (.eret (ops .none .none .none .none)) [.eret (ops .none .none .none .none .b64 0 3)] = true ∧
    refusesAll (.ltr (ops (x 1) (v 2) .none .none)) [.ltr (ops (v 1) (v 2) .none .none)] = true ∧
    refusesAll (.mmul (ops (m 1) (m 2) (m 3) .none .f32)) [.mmul (ops (m 1) (m 2) (m 3) .none), .mmul (ops (v 1) (m 2) (m 3) .none .f32)] = true ∧
    refusesAll (.rwr (ops (.raw 63) (v 1) (v 2) .none)) [.rwr (ops (.raw 64) (v 1) (v 2) .none)] = true ∧
    refusesAll (.fence (ops (.scope .dev) .none .none .none)) [.fence (ops (.raw 5) .none .none .none)] = true ∧
    refusesAll (.sysrd (ops (v 3) (.raw 3) .none .none)) [.sysrd (ops (v 3) (.raw 4) .none .none)] = true ∧
    refusesAll (.nop (ops .none .none .none .none)) [.nop (ops .none .none .none .none .b64 0 1), .nop (ops (v 1) .none .none .none)] = true := by decide +kernel

/-- A head: granules, registers and the live-in of RUN (R84); a trailer: each field that it leaves unused (R100). -/
theorem test_wf_heads_trailers :
    refusesAll (.run { ws := 0x0000000101010101, livein := 0 }) [.run { ws := 0x0000010101010101, livein := 0 }, .run { ws := 0x1FFFF, livein := 0 }, .run { ws := 6, livein := 1 }] = true ∧
    refusesAll (.runr { ws := 6, livein := 1 }) [.runr { ws := 0x1FFFF, livein := 1 }] = true ∧
    refusesAll (.endFall (trail .none .none 1)) [.endFall (trail (v 1) .none 1), .endFall (trail .none (v 1) 1), .endFall (trail .none .none 1 2),
      .endFall (trail .none .none 1 0 8), .endFall (trail .none .none 1 0 0 8)] = true ∧
    refusesAll (.endc (trail .none .none 1 2 8 8)) [.endc { trail .none .none 1 0 8 8 with pn := true }] = true ∧
    refusesAll (.endj (trail .none (v 1) 1)) [.endj (trail .none (p 1) 1)] = true ∧ refusesAll (.endcall (trail (v 1) .none 1 0 8)) [.endcall (trail (t 1) .none 1 0 8)] = true := by
  decide +kernel

/-- XPR: format, modifier, operands, extension, predicate, S4 and the codes (R86, R149, R150). -/
theorem test_wf_xpr :
    let y : XprOps := { o := ops (v 5) (v 1) (v 2) (v 3) .f32, s4 := .none, e4 := false, codes := [1, 2, 0x10] }
    refusesAll (.xpr y) [.xpr { y with o := { y.o with fmt := .e4m3 } }, .xpr { y with o := { y.o with mod := 5 } }, .xpr { y with o := { y.o with d := p 1 } },
      .xpr { y with o := { y.o with a := p 1 } }, .xpr { y with o := { y.o with b := p 1 } }, .xpr { y with o := { y.o with c := p 1 } },
      .xpr { y with o := { y.o with a := .reg .ext } }, .xpr { y with o := { y.o with ext := some 1 } }, .xpr { y with o := { y.o with pn := true } },
      .xpr { y with s4 := v 4 }, .xpr { y with e4 := true }, .xpr { y with codes := [] }, .xpr { y with codes := [1, 1, 1, 1, 1, 1, 1, 1] },
      .xpr { y with codes := [0x30] }, .xpr { y with codes := [4] }] = true ∧
    refusesAll (.xpr { y with codes := [4], s4 := v 4 }) [.xpr { y with codes := [4], s4 := .reg .ext }] = true := by decide +kernel

/-- A gate word: lines in range, and zero where unused (R95, R96); a word of an extension space: its major and its length (R91). -/
theorem test_wf_others :
    let z : GLine := ⟨false, 0⟩
    let g : Gate := { col := false, out := ⟨true, 63⟩, in1 := ⟨false, 511⟩, in2 := z, in3 := z, ops := 0 }
    refusesAll (.gNot 0 g) [.gNot 0 { g with out := ⟨true, 64⟩ }, .gNot 0 { g with in1 := ⟨true, 64⟩ }, .gNot 0 { g with in2 := ⟨false, 1⟩ },
      .gNot 0 { g with in3 := ⟨true, 0⟩ }, .gNot 0 { g with ops := 1 }] = true ∧
    refusesAll (.gRead 0 { g with out := z }) [.gRead 0 g] = true ∧
    refusesAll (.emulationTrap 0xC600000000000000 (some 7)) [.emulationTrap 0xC600000000000000 none, .emulationTrap 0xC000000000000000 none] = true := by
  decide +kernel

/-! ### Instructions -/

/-- A page of 1 GiB at 0, as the core's TLB holds it. -/
def page : TlbEntry :=
  { part := 0, asn := 0, vpage := 0, size := 2, frame := 0, perms := { rd := true, wr := true, atomic := true, ex := true } }

/-- A translation register for addresses below 1 MiB. -/
def window : XReg :=
  { vbase := 0, pbase := 0, valid := true, rd := true, wr := true, atomic := true, limit := 0x100000 }

/-- Group 0 in issue at the first of some words, with a handler at 0x2000, the copies of its working set v0 to v15, and x1 set. -/
def machine (words : List Nat) (buf : List (Nat × Lanes)) : State :=
  let s := State.reset.withFetchWord 64 0
  { s with
    issuer := some 0
    cores := [(0, { Core.idle with tlb := [page] })]
    launches := Sparse.modify s.launches 0 fun la => { la with traph := 0x2000 }
    groups := Sparse.modify s.groups 0 fun g =>
      { g with x := [(1, window)], run := g.run.map fun r =>
        { r with words := words.map (BitVec.ofNat 64), buf := buf.map fun e => (e.1, { val := e.2, tag := .u }) } } }

/-- What holds of the state after a step. -/
def after (s : State) (f : State → Bool) : Bool := match step s with
  | .next u => f u
  | _ => false

/-- The issuing group, and its run, of a state. -/
def group (s : State) : Group := (Sparse.find? s.groups 0).getD (placedGroup [])
def inRun (s : State) (f : Run → Bool) : Bool := match (group s).run with
  | some r => f r
  | none => false

/-- Words with v1, v2, v4 and the old v3 in every lane, and what the step leaves in lane 0 of v3: by hand from the rules. -/
def computes (rows : List (Nat × Nat × Nat × Nat × Nat × Nat)) : Bool := rows.all fun (w, a, b, c, old, new) =>
  after (machine [w] [(1, splat a), (2, splat b), (3, splat old), (4, splat c)]) fun u =>
    inRun u fun r => lane (r.copy 3).val 0 == new && r.pos == 1

theorem test_computes : computes [
    -- ADD: R116 wraps at the element
    (0x1000030102000060, 0xFFFFFFFFFFFFFFFF, 0x202020202020202, 0x0, 0x0, 0x101010101010101),
    -- SUB: R116
    (0x1001030102000030, 0x0, 0x1000100010001, 0x0, 0x0, 0xFFFFFFFFFFFFFFFF),
    -- ADDS: R116 clamps at the largest
    (0x1002030102000050, 0x7070707070707070, 0x2020202020202020, 0x0, 0x0, 0x7F7F7F7F7F7F7F7F),
    -- SUBS: R116 unsigned clamps at 0
    (0x1003030102000020, 0x100000001, 0x200000002, 0x0, 0x0, 0x0),
    -- NEG: R116
    (0x1004030100000010, 0x500000005, 0x0, 0x0, 0x0, 0xFFFFFFFBFFFFFFFB),
    -- ABS: R116 the minimum stays
    (0x1005030100000050, 0x8080808080808080, 0x0, 0x0, 0x0, 0x8080808080808080),
    -- MUL: R116 low bits
    (0x1006030102000060, 0x1212121212121212, 0x3434343434343434, 0x0, 0x0, 0xA8A8A8A8A8A8A8A8),
    -- MULH: R116 high half, signed by MOD[3]
    (0x1007030102000008, 0xFFFFFFFFFFFFFFFF, 0xFFFFFFFFFFFFFFFF, 0x0, 0x0, 0x0),
    -- MAD: R116
    (0x1008030102040000, 0x7, 0x6, 0xFFFFFFFFFFFFFFFF, 0x0, 0x29),
    -- MADW: R117 even elements, signed
    (0x1009030102040050, 0x55FE55FE55FE55FE, 0x5503550355035503, 0x1000100010001, 0x0, 0xFFFBFFFBFFFBFFFB),
    -- MIN: R116 signed
    (0x100A030102000030, 0x8000800080008000, 0x1000100010001, 0x0, 0x0, 0x8000800080008000),
    -- MAX: R116 unsigned
    (0x100B030102000040, 0x8000800080008000, 0x1000100010001, 0x0, 0x0, 0x8000800080008000),
    -- DIV: R118 truncates toward zero
    (0xC000030102000010, 0xFFFFFFF9FFFFFFF9, 0x200000002, 0x0, 0x0, 0xFFFFFFFDFFFFFFFD),
    -- REM: R118 of 0 leaves a
    (0xC001030102000010, 0xFFFFFFF9FFFFFFF9, 0x0, 0x0, 0x0, 0xFFFFFFF9FFFFFFF9),
    -- AND: R119
    (0x1400030102000000, 0xF0F0, 0xFF00, 0x0, 0x0, 0xF000),
    -- OR: R119
    (0x1401030102000000, 0xF0F0, 0xFF00, 0x0, 0x0, 0xFFF0),
    -- XOR: R119
    (0x1402030102000000, 0xF0F0, 0xFF00, 0x0, 0x0, 0xFF0),
    -- ANDN: R119 a and not b
    (0x1403030102000000, 0xF0F0, 0xFF00, 0x0, 0x0, 0xF0),
    -- NOT: R119
    (0x1404030100000040, 0xFF00FF00FF00FF, 0x0, 0x0, 0x0, 0xFF00FF00FF00FF00),
    -- SHL: R119 by the width gives 0
    (0x1405030102000040, 0xFFFFFFFFFFFFFFFF, 0x10001000100010, 0x0, 0x0, 0x0),
    -- SHR: R119 by more than the width gives the sign
    (0x1406030102000030, 0x8000800080008000, 0x28002800280028, 0x0, 0x0, 0xFFFFFFFFFFFFFFFF),
    -- ROT: R119 modulo the width
    (0x1407030102000060, 0x8181818181818181, 0x909090909090909, 0x0, 0x0, 0x303030303030303),
    -- BFE: R120 sign of the field
    (0x1408030102040010, 0xF0000000F0, 0x400000004, 0x400000004, 0x0, 0xFFFFFFFFFFFFFFFF),
    -- BFI: R120
    (0x1409030102040020, 0xF0000000F, 0x800000008, 0x400000004, 0x111100001111, 0x1F1100001F11),
    -- CLZ: R119 of 0 is the width
    (0x140A030100000020, 0x100000000, 0x0, 0x0, 0x0, 0x1F00000020),
    -- CTZ: R119
    (0x140B030100000020, 0x800000000, 0x0, 0x0, 0x0, 0x300000020),
    -- POPC: R119
    (0x140C030100000040, 0xF00FF00FF00FF00F, 0x0, 0x0, 0x0, 0x8000800080008),
    -- BREV: R119
    (0x140D030100000060, 0x1313131313131313, 0x0, 0x0, 0x0, 0xC8C8C8C8C8C8C8C8),
    -- LEA: R124 scaled index
    (0x1804030102C70000, 0x1000, 0x3, 0x0, 0x0, 0x1180),
    -- CVTI: R125 from i32, part 0, clamped
    (0x1806030101000031, 0x1234567812345678, 0x0, 0x0, 0x0, 0x7FFF7FFF),
    -- PACK: R126 clamped
    (0x1807030102000061, 0x102010201020102, 0x3000300030003, 0x0, 0x0, 0x3030303FFFFFFFF),
    -- UNPK: R126 low half, signed
    (0x1808030100000050, 0x11223344FF808001, 0x0, 0x0, 0x0, 0xFFFFFF80FF800001),
    -- FADD: R131 ties to even
    (0x1C00030102000070, 0x3F8000003F800000, 0x3380000033800000, 0x0, 0x0, 0x3F8000003F800000),
    -- FADD: R131 toward above
    (0x1C00030102000073, 0x3F8000003F800000, 0x3380000033800000, 0x0, 0x0, 0x3F8000013F800001),
    -- FSUB: R131
    (0x1C01030102000080, 0x4000400040004000, 0x3C003C003C003C00, 0x0, 0x0, 0x3C003C003C003C00),
    -- FMUL: R131 overflows to infinity
    (0x1C02030102000070, 0x7F0000007F000000, 0x7F0000007F000000, 0x0, 0x0, 0x7F8000007F800000),
    -- FFMA: R131 one rounding
    (0x1C03030102040070, 0x3F8000013F800001, 0x3F8000013F800001, 0xBF800002BF800002, 0x0, 0x2880000028800000),
    -- FMIN: R131 NaN wins
    (0x1C04030102000070, 0x7FC000017FC00001, 0x3F8000003F800000, 0x0, 0x0, 0x7FC000007FC00000),
    -- FMAX: R131
    (0x1C05030102000090, 0x3F803F803F803F80, 0xC000C000C000C000, 0x0, 0x0, 0x3F803F803F803F80),
    -- FABS: R131
    (0x1C06030100000080, 0xBC00BC00BC00BC00, 0x0, 0x0, 0x0, 0x3C003C003C003C00),
    -- FNEG: R131
    (0x1C07030100000080, 0x3C003C003C003C00, 0x0, 0x0, 0x0, 0xBC00BC00BC00BC00),
    -- FCLASS: R133 a negative subnormal
    (0x1C09030100000070, 0x8000000180000001, 0x0, 0x0, 0x0, 0x400000004),
    -- FRND: R131 2.5 to the even 2
    (0x1C0A030100000070, 0x4020000040200000, 0x0, 0x0, 0x0, 0x4000000040000000),
    -- FDIV: R134 1 over 3
    (0xC002030102000070, 0x3F8000003F800000, 0x4040000040400000, 0x0, 0x0, 0x3EAAAAAB3EAAAAAB),
    -- FRCP: R135 of -0
    (0x2000030100000070, 0x8000000080000000, 0x0, 0x0, 0x0, 0xFF800000FF800000),
    -- FRSQ: R135
    (0x2001030100000070, 0x4080000040800000, 0x0, 0x0, 0x0, 0x3F0000003F000000),
    -- FSQRT: R135 of a negative
    (0x2002030100000070, 0xBF800000BF800000, 0x0, 0x0, 0x0, 0x7FC000007FC00000),
    -- FEXP2: R135 of 3
    (0x2003030100000070, 0x4040000040400000, 0x0, 0x0, 0x0, 0x4100000041000000),
    -- FLOG2: R135 of 8
    (0x2004030100000070, 0x4100000041000000, 0x0, 0x0, 0x0, 0x4040000040400000),
    -- FSIN: R135 of 0
    (0x2005030100000070, 0x0, 0x0, 0x0, 0x0, 0x0),
    -- FCOS: R135 of 0
    (0x2006030100000070, 0x0, 0x0, 0x0, 0x0, 0x3F8000003F800000),
    -- CMUL: R145 (1+2i)(3+4i) = -5+10i
    (0x2401030102000070, 0x400000003F800000, 0x4080000040400000, 0x0, 0x0, 0x41200000C0A00000),
    -- CFMA: R145
    (0x2402030102040070, 0x400000003F800000, 0x4080000040400000, 0x3F80000040A00000, 0x0, 0x4130000000000000),
    -- CVT: R142 f32 to f16, part 0
    (0x24000301C7000080, 0xC00000003F800000, 0x0, 0x0, 0x1111111111111111, 0x11111111C0003C00)] = true := by decide +kernel

/-- R121, R122: CMP.i64.lt p1, v1, 0 sets the eight bits of a lane below 0; SEL.i64 v2, vz, v1, p1 then replaces it by 0. R19: an
instruction under !p1 leaves the others. -/
theorem test_compare_select :
    after (machine [0x18004901C000000A] [(1, ofElems 64 fun l => if l == 3 then 2 ^ 64 - 5 else l)]) (fun u =>
      ((group u).preg 1).val == BitVec.ofNat 256 0xFF000000) = true ∧
    after ((machine [0x1801027001490000] [(1, ofElems 64 fun l => 0x100 + l), (2, 0)]).modGroup 0 fun g => g.setP 1 { val := 0xFF000000, full := true }) (fun u =>
      inRun u fun r => lane (r.copy 2).val 3 == 0 && lane (r.copy 2).val 4 == 0x104) = true := by decide +kernel

/-- R127, R128, R132, R148: PLOG with MOD 6 is the exclusive or; PMOV makes bytes of bits; an unordered FCMP.ne is 1; VOTE.ballot gathers byte
0 of each lane. -/
theorem test_predicates :
    let s (w : Nat) : State := (machine [w] [(1, splat 0x7FC00000)]).modGroup 0 fun g =>
      (g.setP 2 { val := 0xFF00FF, full := true }).setP 4 { val := 0x0000FF, full := true }
    after (s 0x1809494A4C000006) (fun u => ((group u).preg 1).val == 0xFF0000) = true ∧
    after (s 0x180A034A00000001) (fun u => inRun u fun r => lane (r.copy 3).val 0 == 2 ^ 64 - 1 && lane (r.copy 3).val 1 == 0) = true ∧
    after (s 0x1C08490101000071) (fun u => ((group u).preg 1).val.getLsbD 0) = true ∧
    after (s 0x2804034A00000003) (fun u => inRun u fun r => lane (r.copy 3).val 7 == 5) = true := by decide +kernel

/-- R146, R147: SHFL with MOD 3 reads lane e xor 1; BCST gives one element to all; SCAN sums from below and RED all 32. -/
theorem test_cross_lane :
    let s (w : Nat) : State := machine [w] [(1, ofElems 64 fun l => l), (2, splat 1)]
    let at' (w l : Nat) (x : Nat) : Bool := after (s w) fun u => inRun u fun r => lane (r.copy 3).val l == x
    at' 0x2800030102000003 6 7 = true ∧ at' 0x28010301C5000000 9 5 = true ∧ at' 0x2802030100000000 4 10 = true ∧
      at' 0x2803030100000000 0 496 = true := by decide +kernel

/-- R123, R124: MOV keeps a U copy U; MOVW splats its constant; IDX.i64 v1, -3, 2 counts up in steps of 2. -/
theorem test_moves :
    after (machine [0x1802030100000000] [(1, splat 9)]) (fun u => inRun u fun r => r.copy 3 == { val := splat 9, tag := .u }) = true ∧
    after (machine [0x180303BD00000000] []) (fun u => inRun u fun r => lane (r.copy 3).val 31 == 2 ^ 64 - 3) = true ∧
    after (machine [0x180501BDC2000000] []) (fun u => inRun u fun r => lane (r.copy 1).val 5 == 7 && (r.copy 1).tag == .a) = true := by
  decide +kernel

/-- R138 with its example: a table of squares, 4 intervals a unit, 8 of them; elements 0 to 3 are 1.375, 3.0, -1.0 and a NaN. -/
theorem test_flut :
    let sq : List Nat := [0, 0x3F800000, 0x40800000, 0x41100000, 0x41800000, 0x41C80000, 0x42100000, 0x42440000, 0x42800000]
    let s : State := machine [0x220702017E700070, 0x0000200040800000] [(1, 0x7FC00001BF800000404000003FB00000), (2, 0)]
    let s : State := s.setCore 0 { s.core 0 with bank0 := (List.range 9).map fun i => (i, BitVec.ofNat 32 (sq.getD i 0)) }
    after s (fun u => inRun u fun r => (r.copy 2).val.setWidth 128 == 0x7FC00000000000004280000041F40000 && r.pos == 2) = true := by
  decide +kernel

/-- R149 to R151: the expression of R149, a × b + c and the larger of it and 0. -/
theorem test_xpr :
    after (machine [0x2E00050102030070, 0x00001400184C3081]
        [(1, ofElems 32 fun e => if e == 0 then 0x40000000 else 0xC0000000), (2, ofElems 32 fun _ => 0x40400000), (3, ofElems 32 fun _ => 0x3F800000)])
      (fun u => inRun u fun r => elem (r.copy 5).val 32 0 == 0x40E00000 && elem (r.copy 5).val 32 1 == 0 && r.pos == 2) = true := by decide +kernel

/-- R160, R164: in the one lane of the mask MCHOL m1, m0, vz, v9 of 4 2 / 2 5 gives 2 0 / 1 2 and a status that is not flagged, and MDET of
2 0 / 1 2 gives 4. -/
theorem test_matrices :
    let m2 (x : BitVec 36864) : MReg := { rows := 2, cols := 2, elems := x, full := true }
    let s (w : Nat) (n : Nat) (a : MReg) : State := (machine [w] []).modGroup 0 fun g =>
      { g.setM n a with slotA := { g.slotA with st := { g.slotA.st with mask := 1 } } }
    after (s 0x3400595870090070 0 (m2 0x40A0000040000000000000000000000000000000000000004000000040800000)) (fun u =>
      ((group u).mreg 1).elems == 0x400000003F800000000000000000000000000000000000000000000040000000 &&
        inRun u fun r => lane (r.copy 9).val 0 == 0x2C688) = true ∧
    after (s 0x3404035900000070 1 (m2 0x400000003F800000000000000000000000000000000000000000000040000000)) (fun u =>
      inRun u fun r => lane (r.copy 3).val 0 == 0x40800000) = true := by decide +kernel

/-- R172 to R174, R261: a load empties its destination and waits for its lines; a store enters the FIFO. R170: an address that is not aligned
traps with code 7 before anything is written. -/
theorem test_memory :
    after (machine [0x38010A6101000000] [(1, ofElems 64 fun l => 8 * l)]) (fun u =>
      !((group u).vreg 10).full && (group u).accs.length == 1 && inRun u fun r => r.pos == 1) = true ∧
    after (machine [0x3802006108C10000] [(8, splat 0x40)]) (fun u =>
      (group u).fifo.map (fun x => (x.line, lineBytes x.data 0x40 8)) == [(.mem 0, 1)]) = true ∧
    after (machine [0x38010A6101000000] [(1, splat 4)]) (fun u =>
      (group u).trap.code == 7 && (group u).trap.addr == 4 && (group u).run.isNone && ((group u).slotA.st.pc == 0x2000)) = true := by decide +kernel

/-- R178, R187, R190: an atomic, a deposit and a counted addition leave for their homes and commit. -/
theorem test_atomics :
    after (machine [0x3C000A6101020000] [(1, splat 0x40), (2, splat 7)]) (fun u =>
      u.atoms.length == 32 && !((group u).vreg 10).full && inRun u (·.committed)) = true ∧
    after (machine [0x4002080406000000] [(4, splat 9), (6, splat 0)]) (fun u => u.deposits.map (fun d => (d.reg, d.mask)) == [(8, 0xFFFFFFFF)]) = true ∧
    after (machine [0x4004006101020000] [(1, splat 0x40), (2, splat 7)]) (fun u => u.atoms.map (·.operand) == [7]) = true := by decide +kernel

/-- R98, R101, R104: a head copies its working set; END publishes v3; ENDEXIT under p1 takes a lane away. -/
theorem test_heads_trailers :
    after ((machine [0x0400010000000006] []).modGroup 0 fun g => g.setV 1 { val := splat 5, tag := .u, full := true }) (fun u =>
      inRun u fun r => lane (r.copy 1).val 2 == 5 && r.pos == 1) = true ∧
    after (machine [0x0800000000080000] [(3, splat 6)]) (fun u =>
      lane ((group u).vreg 3).val 1 == 6 && (group u).run.isNone && (group u).slotA.st.pc == 0x1008) = true ∧
    after ((machine [0x0806000000000200] []).modGroup 0 fun g => g.setP 1 { val := 0xFF, full := true }) (fun u =>
      (group u).slotA.st.mask == 0xFFFFFFFE && (group u).exited == 1) = true := by decide +kernel

/-- R252 to R254: BKPT 7 enters the handler and keeps its run; TRAP 5 is raised by its trailer; ERET without a trap in force is illegal with
subcause 12. -/
theorem test_traps :
    after (machine [0x540400C700000000] []) (fun u =>
      (group u).trap.code == 0x0C && bits (group u).trap.cause.toNat 32 32 == 7 && (group u).susp.isSome && (group u).slotA.st.pc == 0x2000) = true ∧
    after (machine [0x540200C500000000] []) (fun u => inRun u fun r => r.raised.map (·.1) == some 5) = true ∧
    after (machine [0x5403000000000000] []) (fun u => (group u).trap.code == 1 && bits (group u).trap.cause.toNat 32 32 == 12) = true := by
  decide +kernel

/-- R250, R257: SYSRD of register 0 and TIME with MOD 0 at tick 7. -/
theorem test_system :
    after (machine [0x5400030000000000] []) (fun u => inRun u fun r => lane (r.copy 3).val 31 == 0x10001) = true ∧
    after { machine [0x5405040000000000] [] with tick := 7 } (fun u => inRun u fun r => lane (r.copy 4).val 0 == 7) = true := by decide +kernel

/-- The example of FIPS 180-4: the digest of the three bytes "abc". -/
theorem test_sha256 : (sha256 [0x61, 0x62, 0x63]).take 8 = [0xBA, 0x78, 0x16, 0xBF, 0x8F, 0x01, 0xCF, 0xEA] := by decide +kernel

/-- R227: NOR of 1 1 0 0 and 1 0 1 0 is 0 0 0 1. -/
theorem test_gate_value : gateValue 2 0b1100 0b1010 0 0 = ~~~(0b1110 : BitVec 512) := by decide +kernel

/-! ### States that meet the hypotheses of the statements

Each theorem names its statement. The machine of a witness is that of `machine`, changed only where a hypothesis asks for it. -/

/-- A property of the issuing group, its run, stand and launch. -/
def meets (s : State) (f : Ctx → Bool) : Bool := (running s).any f

def full (c : Ctx) (xs : List Opnd) : Bool := xs.all fun x => !isEmpty c.g c.r x
def fullOps (c : Ctx) (o : Ops) : Bool := full c [.reg (.p o.pred), o.a, o.b, o.c]
def fullAddr (c : Ctx) (o : Ops) : Bool := full c (addressOperands o)
def fullAddrC (c : Ctx) (o : Ops) : Bool := full c (addressOperands o ++ [o.c])
def fullPred (c : Ctx) (o : Ops) : Bool := full c [.reg (.p o.pred)]

/-- What a verdict says: every element found; an absent page; a misaligned element; a refused one. -/
def found : Verdict → Bool
  | .go _ [] => true
  | _ => false
def missing : Verdict → Bool
  | .go _ (_ :: _) => true
  | _ => false
def crooked : Verdict → Bool
  | .misaligned _ => true
  | _ => false
def refused : Verdict → Bool
  | .access _ _ => true
  | _ => false

/-- `meets` with the sources full is the hypothesis `Issues` of the statements, or `IssuesFrom`. -/
theorem issues_of_meets {s : State} {o : Ops} (h : meets s (fullOps · o) = true) : ∃ c, Issues s c o := by
  unfold meets at h
  cases hc : running s with
  | none => rw [hc] at h; cases h
  | some c =>
    rw [hc] at h
    refine ⟨c, hc, fun x hx => ?_⟩
    have := List.all_eq_true.mp h x hx
    simpa using this

theorem issuesFrom_of_meets {s : State} {xs : List Opnd} (h : meets s (full · xs) = true) : ∃ c, IssuesFrom s c xs := by
  unfold meets at h
  cases hc : running s with
  | none => rw [hc] at h; cases h
  | some c =>
    rw [hc] at h
    refine ⟨c, hc, fun x hx => ?_⟩
    have := List.all_eq_true.mp h x hx
    simpa using this

/-- Lane l holds 8 l. -/
def steps : Lanes := 0xF800000000000000F000000000000000E800000000000000E000000000000000D800000000000000D000000000000000C800000000000000C000000000000000B800000000000000B000000000000000A800000000000000A000000000000000980000000000000090000000000000008800000000000000800000000000000078000000000000007000000000000000680000000000000060000000000000005800000000000000500000000000000048000000000000004000000000000000380000000000000030000000000000002800000000000000200000000000000018000000000000001000000000000000080000000000000000

/-- The machine with v1 holding aligned addresses, v2 one that is not, v5 one on a page that is absent, and v6 one that is refused; its tables
say that the page at 0x80000000 is absent. -/
def ready : State :=
  let s := machine [0x0C04000000000000, 0x0800000000000000]
    [(1, steps), (2, splat 4), (3, splat 7), (4, splat 1), (5, splat 0x80000000), (6, splat 0x10000000000), (7, 0)]
  { s with
    hbm := [(0x10000, 0xFC)]
    clusters := [(0, { Cluster.idle with walk := [⟨0, 0, 1, levelKey 1 0x80000000, 0x10000⟩] })] }

/-- The statements ArithmeticWraps, ArithmeticExact, LogicAndShifts, BitFields, CompareAndSelect, IntegerConversions, FloatArithmetic,
SpecialFunctions, CrossLane, Factorisations (MDET) and FunctionTable ask for an instruction in issue with its sources full: an
integer and a float one, with an inverted predicate, PMOV of each kind, VOTE with a predicate and with a vector destination. -/
theorem witness_issues :
    (∃ c, Issues ready c (ops (v 3) (v 1) (v 2) (v 4) .i32 0 1 true)) ∧ (∃ c, Issues ready c (ops (v 3) (v 1) (imm 0x7F) .none .f32)) ∧
    (∃ c, Issues ready c (ops (p 1) (v 1) .none .none)) ∧ (∃ c, Issues ready c (ops (v 3) (p 1) .none .none .b64 1)) ∧
    (∃ c, Issues ready c (ops (p 1) (p 2) .none .none .b64 2)) ∧ (∃ c, Issues ready c (ops (v 3) (p 2) .none .none .b64 3)) ∧
    floatFmt .f32 = some f32Fmt := by
  refine ⟨issues_of_meets ?_, issues_of_meets ?_, issues_of_meets ?_, issues_of_meets ?_, issues_of_meets ?_, issues_of_meets ?_, rfl⟩ <;>
    decide +kernel

/-- FloatValuesExact: finite values, values that are no NaN, and codes that are finite in f32 and f16. -/
theorem witness_FloatValuesExact :
    (Val.fin false 3 0).real = some 3 ∧ (Val.fin true 1 0).real = some (-1) ∧ Val.one ≠ .nan ∧ Val.inf true ≠ .nan ∧
    floatFmt .f16 = some ⟨16, 10, 15, 0x7BFF, some 0x7C00, 0x7E00, false⟩ ∧ f32Fmt.val (f32Fmt.ofValue 0 (.fin false 1 0)) = .fin false 0x800000 (-23) ∧
    f32Fmt.val 0 = .fin false 0 (-149) := by
  refine ⟨?_, ?_, by decide, by decide, rfl, by decide +kernel, by decide +kernel⟩ <;> simp [Val.real]

/-- SpecialFunctions: a NaN, an infinity, a zero, a negative value and a power of two in f32. -/
theorem witness_SpecialFunctions :
    f32Fmt.val 0x7FC00000 = .nan ∧ f32Fmt.val 0xFF800000 = .inf true ∧ f32Fmt.val 0x80000000 = .fin true 0 (-149) ∧
    f32Fmt.val 0xBF800000 = .fin true (2 ^ 23) (-23) ∧ f32Fmt.val 0x41000000 = .fin false (2 ^ 23) (-20) := by decide +kernel

/-- FloatConversions: a conversion between formats, one from blocks and one into blocks. -/
theorem witness_FloatConversions :
    meets ready (fun c => fullOps c (ops (v 3) (v 1) (imm 0x47) .none .f16)) = true ∧ isBlockCode (cvtDesc (ops (v 3) (v 1) (imm 0x47) .none .f16) % 32) = false ∧
    meets ready (fun c => fullOps c (ops (v 3) (v 1) (imm 0x50) (v 4) .f32)) = true ∧
      isBlockCode (cvtDesc (ops (v 3) (v 1) (imm 0x50) (v 4) .f32) % 32) = true ∧ SFmt.ofCode 16 = some (.bfp 2) ∧
    meets ready (fun c => fullOps c (ops (v 3) (v 1) (imm 0x58) (v 4) .f32 8)) = true ∧ SFmt.ofCode 24 = some .lns ∧ (8 : BitVec 4).getLsbD 3 = true := by
  decide +kernel

/-- Expressions: codes that pop an empty stack, and codes that fit, whose sources are full. -/
theorem witness_Expressions :
    let y : XprOps := { o := ops (v 3) (v 1) (v 2) (v 4) .f32, s4 := .none, e4 := false, codes := [1, 2, 0x10] }
    xprDepth ([0x10, 1].map (BitVec.toNat (w := 6))) 0 0 = some (0, 1) ∧ xprDepth (y.codes.map (·.toNat)) 0 0 = none ∧
    meets ready (fun c => ((Opnd.reg (.p y.o.pred), false) :: xprSources y).all (fun e => !isEmpty c.g c.r e.1) && !tablePending ready c) = true := by
  decide +kernel

/-- MatrixElements and Factorisations: full m operands, equal and unequal shapes, no lane and a first lane elected, positions inside and outside,
counts 0, 1, 6 and 7. -/
theorem witness_MatrixElements :
    let s : State := ready.modGroup 0 fun g => (g.setM 2 { MReg.launch with rows := 3, cols := 2 }).setM 3 { MReg.launch with rows := 2, cols := 2 }
    let mat (c : Ctx) (o : Ops) : Bool := fullOps c o && !isEmpty c.g c.r o.d
    meets s (fun c =>
      let o := ops (m 1) (m 2) (m 2) .none .f32
      let q := ops (m 1) (m 2) (m 3) .none .f32
      mat c o && decide (sameShape c o = none) && mat c q && decide (sameShape c q = some (1, 2)) && (c.mat q.a).cols == (c.mat q.b).rows &&
      (c.mat o.a).cols != (c.mat o.b).rows && (c.mat o.a).rows != (c.mat o.a).cols && (c.mat q.b).rows == (c.mat q.b).cols) = true ∧
    meets s (fun c =>
      let set := ops (m 2) (v 3) (imm 0x47) .none .f32
      let out := ops (m 2) (v 3) (imm 0x43) .none .f32
      let shape (r k : BitVec 7) := ops (m 1) (imm r) (imm k) .none .f32
      mat c set && (c.guard set).elected == some 0 && c.scalar set set.b == 7 && c.scalar out out.b == 3 &&
      (c.scalar (shape 0x40 0x41) (imm 0x40) == 0) && (c.scalar (shape 0x41 0x46) (imm 0x46) == 6) && (c.scalar (shape 0x46 0x47) (imm 0x47) == 7) &&
      mat c (shape 0x41 0x46)) = true ∧
    meets s (fun c => mat c (ops (m 2) (v 3) (imm 0x47) .none .f32 0 1) && (c.guard (ops (m 2) (v 3) (imm 0x47) .none .f32 0 1)).elected == none) = true := by
  decide +kernel

/-- FactorsExact: a matrix of 36 elements whose LU factorisation has no failing pivot, and one whose Cholesky factorisation fails. -/
theorem witness_FactorsExact :
    let a : Mat := Mat.build fun i j => if i = j then 0x40000000 else 0
    a.length = 36 ∧ (lup a 2 0).2.2 = none ∧ (chol a 2 0).2 = none ∧ (chol Mat.zero 2 0).2 = some 0 := by decide +kernel

/-- LoadsIssue and AccessTraps: elements found, an element on an absent page (LD alone goes on), a misaligned one, a refused one, and a
stride that is no multiple of the element. -/
theorem witness_LoadsIssue :
    let ld (b : Fin 64) : Ops := ops (v 10) (x 1) (v b) (p 1)
    let away : Ops := ops (v 10) vz (v 5) (p 1)
    let mld (k : BitVec 7) : Ops := ops (m 1) (x 1) (v 1) (imm k) .f32
    meets ready (fun c => fullAddr c (ld 1) && found (c.checks ready (x 1) .rd 8 (c.elems (ld 1))).1 && c.g.txn.isNone && c.r.stage == 0 &&
      loadsPerformed c.g && found (c.checks ready (x 1) .wr 8 (c.elems (ld 1))).1 && crooked (c.checks ready (x 1) .rd 8 (c.elems (ld 2))).1 &&
      refused (c.checks ready (x 1) .rd 8 (c.elems (ld 6))).1) = true ∧
    meets ready (fun c => fullAddr c away && missing (c.checks ready vz .rd 8 (c.elems away)).1 && missing (c.checks ready vz .wr 8 (c.elems away)).1) = true ∧
    meets ready (fun c => full c (addressOperands (mld 0x48) ++ [(mld 0x48).c, (mld 0x48).d]) && (c.guard (mld 0x48)).elected == some 0 &&
      c.scalar (mld 0x48) (imm 0x48) % 4 == 0 && c.scalar (mld 0x42) (imm 0x42) % 4 != 0) = true := by decide +kernel

/-- LoadsIssue and AccessTraps, MLD and MST: with one lane in the mask the elements of the register are found, or misaligned, refused, or
absent. -/
theorem witness_LoadsIssue_matrix :
    let s : State := ready.modGroup 0 fun g => { g.setM 1 { MReg.launch with rows := 1, cols := 2 } with slotA := { g.slotA with st := { g.slotA.st with mask := 1 } } }
    let mld (a : Opnd) (b : Fin 64) : Ops := ops (m 1) a (v b) (imm 0x48) .f32
    let look (c : Ctx) (n : Need) (a : Opnd) (b : Fin 64) : Verdict := (c.checks s a n 4 (c.matElems (mld a b) a (c.mat (m 1)) 8 4)).1
    meets s (fun c => found (look c .rd (x 1) 1) && found (look c .wr (x 1) 1) && refused (look c .rd (x 1) 6) && refused (look c .wr (x 1) 6) &&
      missing (look c .rd vz 5) && missing (look c .wr vz 5) && crooked (c.checks s (x 1) .rd 4 (c.matElems (mld (x 1) 3) (x 1) (c.mat (m 1)) 8 4)).1) = true := by
  decide +kernel

/-- An access whose lines have all been read. -/
def read (u : Use) (vals : List (Nat × Nat)) (absent : List Nat) : Access :=
  { id := 5, use := u, todo := [], vals := vals, absent := absent, unread := [], begun := false, policy := 0, reqs := [], cancelled := false,
    origin := ⟨false, 0, 0, 0⟩, poison := none, detail := 6, vas := [] }

/-- LoadsArrive and AtomicsPerform (the return): an access of each kind whose arrival is ready, at the least and the greatest width. -/
theorem witness_LoadsArrive :
    (∀ u ∈ [Use.ld 10 (some 1) 4, .ld 10 none 64, .mld 1 .f32, .atomic 10 32, .atomic 10 64],
      let a := read u [(0, 7)] [1]
      let s := ready.modGroup 0 fun g => { g with accs := [a] }
      decide (arrivalReady s (group s) 5 = some a) = true ∧ (group s).retired = false ∧ a.poison = none ∧ a.cancelled = false ∧
        stillPending { group s with accs := (group s).accs.filter fun b => b.id != 5 } a = false) := by decide +kernel

/-- StoresIssue: room for the stores of ST and MST, a transaction with room, and pieces of a line that do not overlap. -/
theorem witness_StoresIssue :
    let st : Ops := ops .none (x 1) (v 1) (v 3)
    let s : State := ready.modGroup 0 fun g => { g with slotA := { g.slotA with st := { g.slotA.st with mask := 1 } } }
    let open' : State := s.modGroup 0 fun g => { g with txn := some ⟨[], [], none⟩ }
    let piece (o : Nat) : Piece := { loc := .mem o, size := 8, nib := none, val := 1, ea := o }
    meets s (fun c => fullAddrC c st && c.r.stage == 0 && loadsPerformed c.g && c.g.txn.isNone && c.g.fifo.length + (storesOf 0 (c.pieces st [(0, 0, .mem 0)])).length ≤ 16 &&
      queueEntries s 0 + 1 ≤ 256) = true ∧
    meets open' (fun c => c.g.txn.isSome && (storesOf 0 (c.pieces st [(0, 0, .mem 0)])).all (fun x => !isPad x.line && !isRemote x.line) &&
      (mergeWrites [] (storesOf 0 (c.pieces st [(0, 0, .mem 0)]))).length ≤ 32) = true ∧
    ((piece 0x78).loc.place + 8 ≤ 128) ∧ ((piece 0x70).mask &&& (piece 0x78).mask = 0) ∧ ((piece 0x70).mask &&& byteMask 0x78 8 = 0) := by decide +kernel

/-- TranslationAndPages: LTR of a resident address, of ones that cannot be translated, are not resident, or whose walk waits, and with no
lane; PGREQ with its predicate; PREF of lines and of one whose walk waits; and a page request that waits to be raised again. -/
theorem witness_TranslationAndPages :
    let q : PageRequest := ⟨0, 0, 5, 0, 1, false⟩
    let ltr (a : Word) : Ops := { ops (x 2) (.reg .ext) .none .none with ext := some a }
    let away : Ops := ops .none vz (v 5) .none
    let held : State := { ready with owners := [(0x10000, 9)] }
    meets ready (fun c => [0x1000000000000000, BitVec.ofNat 64 padWindow, 0x80000000].all (fun a => fullAddr c (ltr a) && (c.guard (ltr a)).elected == some 0 &&
      c.scalar (ltr a) (.reg .ext) == a.toNat) && inPadWindow padWindow && !inPadWindow 0x80000000 &&
      (match (translate ready 0 0 0 0x80000000).1 with | .resident _ _ _ => false | .held => false | _ => true) &&
      decide ((translate held 0 0 0 0x80000000).1 = .held) && (c.guard (ops (x 2) (imm 0x7F) .none .none .b64 0 0 true)).elected.isNone &&
      fullAddr c away && decide ((prefLines ready c away).1 = some []) && decide ((prefLines held c away).1 = none)) = true ∧
    meets ready (fun c =>
      let o := ops (x 2) (imm 0x7F) .none .none
      fullAddr c o && (c.guard o).elected == some 0 && decide (c.scalar o o.a < 2 ^ 56) && !inPadWindow (c.scalar o o.a) &&
        (match (translate ready 0 0 0 (c.scalar o o.a)).1 with | .resident _ _ _ => true | _ => false)) = true ∧
    meets ready (fun c =>
      let o := ops .none vz (v 5) (p 1)
      fullAddrC c o && loadsPerformed c.g && c.g.txn.isNone && missing (c.checks ready vz .rd 8 ((c.elems o).filter fun e =>
        !(readPred c.g o.c).getLsbD (predIndex 64 e.idx))).1) = true ∧
    ({ ready with retries := [q] }.retries[0]? = some q) ∧ ready.merge.length < 4096 := by decide +kernel

/-- FunctionTable: FLUT and TBLSW with no load of the table pending; TBLLD with the other bank in use by another run and free; a table load whose
words have come. -/
theorem witness_FunctionTable :
    let o : Ops := ops .none (x 1) (v 7) (imm 0x7F) .f32
    let desc : Ops := { o with c := .reg .ext, ext := some (1024 * 1024) }
    let other : State := ready.putGroup 1 { group ready with run := (group ready).run.map fun r => { r with bank := true } }
    let load : TableLoad := ⟨5, 0, true, 0, 1024, 1024⟩
    let s : State := (ready.modGroup 0 fun g => { g with accs := [read (.table 5) [(0, 7)] []] }).setCore 0 { ready.core 0 with tables := [load] }
    meets ready (fun c => fullAddrC c o && (c.guard o).elected == some 0 && !tablePending ready c && !bankInUse ready 0 0 true &&
      min (bits (c.scalar desc desc.c) 10 11) 1024 == 1024 && found (c.checks ready (x 1) .rd 4 (c.tableElems o 2)).1) = true ∧
    bankInUse other 0 0 true = true ∧
    ((s.core 0).tables.find? (fun x => x.id == 5) = some load ∧ decide (arrivalReady s (group s) 5 = some (read (.table 5) [(0, 7)] [])) = true ∧
      load.limit ≤ 1024) := by decide +kernel

/-- AtomicsIssue and AccessTraps: operands found, misaligned, refused and absent; D full for ACAS; a release that is complete; a transaction. -/
theorem witness_AtomicsIssue :
    let o (b : Fin 64) : Ops := ops (v 10) (x 1) (v b) (v 3) .b64 6
    let far : Ops := ops (v 10) vz (v 5) (v 3)
    meets ready (fun c => fullAddrC c (o 1) && loadsPerformed c.g && c.g.txn.isNone && found (c.atomicChecks ready (o 1) true).1 &&
      found (c.atomicChecks ready (o 1) false).1 && (c.g.vreg 10).full && releases (o 1).mod && releaseDone ready 0 (modScope (o 1).mod) && c.g.lost.isEmpty &&
      [false, true].all (fun h => crooked (c.atomicChecks ready (o 2) h).1 && refused (c.atomicChecks ready (o 6) h).1 && missing (c.atomicChecks ready far h).1)) = true ∧
    meets (ready.modGroup 0 fun g => { g with txn := some ⟨[], [], none⟩ }) (fun c => fullAddrC c (o 1) && c.g.txn.isSome) = true ∧
    (resolve ready ⟨0, 0, 0, 0, []⟩ (some window) 8 8 .atomic).1 = .ok (.mem 8) ∧ hostRefuses false (.mem (2 ^ 48)) = true := by decide +kernel

/-- AtomicsPerform: an atomic first in its group's order, at a line of HBM that nothing holds. -/
theorem witness_AtomicsPerform :
    let a : Atom := ⟨7, 0, some 0, 5, 0, .mem 0x78, 64, .add, 3, 0, 0, 0, 0, false⟩
    let s : State := { (ready.modGroup 0 fun g => { g with accs := [read (.atomic 10 64) [] []] }) with atoms := [a] }
    s.atoms.find? (fun b => b.id == 7) = some a ∧ (s.atoms.find? fun b => b.gid == some 0) = some a ∧ atomBlocked s a = false ∧ regionOf 0x78 = .hbm ∧
      homePoisoned s a.loc = false ∧ a.node ≠ 1 ∧ s.l2 = [] ∧ 0x78 % 128 + 64 / 8 ≤ 128 := by decide +kernel

/-- Fences and RemoteWrites: a fence with no lane and with an elected lane, before and after the loads; inside a transaction; a release that
is not complete; and one that is. RWR, a deposit that finds its group and one that does not. -/
theorem witness_Fences :
    let o (mod : BitVec 4) : Ops := ops (.scope .dev) .none .none .none .b64 mod
    let none' : Ops := ops (.scope .dev) .none .none .none .b64 0 1
    let busy : State := ready.modGroup 0 fun g => { g with accs := [{ read (.ld 10 none 64) [] [] with todo := [⟨0, .mem 0, 8, none⟩] }] }
    let held : State := ready.modGroup 0 fun g => { g with fifo := [⟨.mem 0, 0, 0, 1, 0⟩] }
    let open' : State := ready.modGroup 0 fun g => { g with txn := some ⟨[], [], none⟩ }
    meets ready (fun c => fullPred c (o 1) && (c.guard (o 1)).elected == some 0 && loadsPerformed c.g && c.g.txn.isNone && releaseDone ready 0 .dev &&
      c.g.lost.isEmpty && Scope.wide .dev && (c.guard none').elected == none && fullPred c none') = true ∧
    meets busy (fun c => !loadsPerformed c.g) = true ∧ releaseDone held 0 .dev = false ∧ meets open' (fun c => c.g.txn.isSome && loadsPerformed c.g) = true := by
  decide +kernel

theorem witness_RemoteWrites :
    let o : Ops := ops (.raw 8) (v 4) (v 7) .none
    let d (tag : BitVec 24) : Deposit := ⟨9, 0, 0, some (0, tag), 8, 0xFFFFFFFF, 1, .u⟩
    let s (tag : BitVec 24) : State := { ready with deposits := [d tag] }
    meets ready (fun c => fullAddr c o && loadsPerformed c.g && c.g.txn.isNone && (c.guard o).elected == some 0 && releaseDone ready 0 .clus) = true ∧
    depositTarget { s (ready.stand? 0 |>.map (·.tag) |>.getD 0) with deposits := [] } (d (ready.stand? 0 |>.map (·.tag) |>.getD 0)) = some 0 ∧
    depositTarget { s 0xFFFFFF with deposits := [] } (d 0xFFFFFF) = none := by decide +kernel

/-- WordsComplete: WAITC and CNTADD of a word that is found, the release of the latter complete; a slot that waits for a word of this
device, with the comparison true and false, and for one of the host. -/
theorem witness_WordsComplete :
    let o : Ops := ops .none (x 1) (v 7) (v 3)
    let w (l : Loc) (k : Word) : Wait := .word (some l) 0 k .dev 8 ⟨false, 0, 0, 0⟩ none
    let s (l : Loc) (k : Word) : State := ready.modGroup 0 fun g => { g with slotA := { g.slotA with waits := [w l k] } }
    let host : Loc := .mem (2 ^ 48)
    meets ready (fun c => fullAddrC c o && loadsPerformed c.g && c.g.txn.isNone && (c.guard o).elected == some 0 &&
      decide ((c.wordChecks ready o .rd).1 = .go [(0, 0, .mem 0)] []) && decide ((c.wordChecks ready o .atomic).1 = .go [(0, 0, .mem 0)] []) &&
      releases 2 && releaseDone ready 0 (modScope 2) && c.g.lost.isEmpty) = true ∧
    ((group (s (.mem 8) 0)).slot false).wordWait = some (w (.mem 8) 0) ∧ isRemote (.mem 8) = false ∧ homeBusy (s (.mem 8) 0) (.mem 8) = false ∧
      homePoisoned (s (.mem 8) 0) (.mem 8) = false ∧ waitHolds 0 (readHome (s (.mem 8) 0) (.mem 8) 8) 0 = true ∧
      waitHolds 0 (readHome (s (.mem 8) 0) (.mem 8) 8) 1 = false ∧
    ((group (s host 0)).slot false).wordWait = some (w host 0) ∧ isRemote host = true ∧ portOf (s host 0) (2 ^ 48) = some 16 := by decide +kernel

/-- CompletionWords: no lane elected; a transaction; a word that is misaligned, refused, or on an absent page. -/
theorem witness_CompletionWords :
    let o (a : Opnd) (b : Fin 64) : Ops := ops .none a (v b) (v 3)
    let idle : Ops := ops .none (x 1) (v 7) (v 3) .b64 0 0 true
    meets ready (fun c => fullPred c idle && (c.guard idle).elected.isNone && fullAddrC c (o (x 1) 2) && fullAddrC c (o vz 5) && loadsPerformed c.g && c.g.txn.isNone &&
      (c.guard (o vz 5)).elected == some 0 && [Need.rd, .atomic].all (fun n => crooked (c.wordChecks ready (o (x 1) 2) n).1 &&
        refused (c.wordChecks ready (o (x 1) 6) n).1 && missing (c.wordChecks ready (o vz 5) n).1)) = true ∧
    meets (ready.modGroup 0 fun g => { g with txn := some ⟨[], [], none⟩ }) (fun c => fullAddrC c (o (x 1) 7) && loadsPerformed c.g && c.g.txn.isSome) = true := by
  decide +kernel

/-- Transactions: TXB as the first instruction of the region head and elsewhere; TXC and TXA with and without an open transaction whose
lines no agent owns. -/
theorem witness_Transactions :
    let o : Ops := ops (p 1) .none .none .none
    let head : State := ready.modGroup 0 fun g => { g with snap := { g.snap with head := 0x1000 }, run := g.run.map fun r =>
      { r with words := [0x0400000000000000, 0x0C04000000000000], pos := 1 } }
    let open' : State := ready.modGroup 0 fun g => { g with txn := some ⟨[], [⟨.mem 0, 0, 0, 1, 1⟩], none⟩ }
    meets head (fun c => fullPred c o && (c.guard o).elected == some 0 && c.g.txn.isNone && c.r.pos == headWords c.r && c.g.snap.head == c.r.head) = true ∧
    meets ready (fun c => c.r.pos != headWords c.r && loadsPerformed c.g && releaseDone ready 0 .dev && full c [.reg (.p 0), imm 0x47]) = true ∧
    meets open' (fun c => c.g.txn.isSome && (match c.g.txn with | some t => t.writes.all (fun w => !heldBack open' w.line) | none => false) &&
      loadsPerformed c.g && releaseDone open' 0 .dev) = true := by decide +kernel

/-- A state as `ready`, its group standing with slot A at 0x1000 where code lies: a head with the set v1, a NOP, END, and the next head; the
page is in the core's TLB. -/
def standing (code : List Nat) : State :=
  let s := ready.modGroup 0 fun g => { g with run := none }
  { s with hbm := Memory.writeLE [] 0x1000 (8 * code.length) (packElems 64 (fun i => code.getD i 0) code.length), issuer := none }

def header : Fetcher := ⟨false, 0, 0, 0, 0x1000, ⟨64, 8, 2⟩⟩

/-- RunHeads: a head with an empty register in its set and with a full one. -/
theorem witness_RunHeads :
    let s : State := ready.modGroup 0 fun g => g.emptyV 3
    meets s (fun c => (setOrder 0x8).contains 3 && !(c.g.vreg 3).full && (setOrder 0x6).all fun n => (c.g.vreg n).full) = true := by decide +kernel

/-- RunFetch: a run that is done, one whose page is absent, one that is refused, and one with a trap. -/
theorem witness_RunFetch :
    let good : State := standing [0x0400010000000002, 0x0C04000000000000, 0x0800000000000000, 0x0400010000000002]
    let at' (pc : BitVec 56) : State := good.modGroup 0 fun g => { g with slotA := { g.slotA with st := { g.slotA.st with pc := pc } } }
    groupActs good 0 = true ∧ (seatOf (wake good 0) 0).isSome = true ∧ (group (wake good 0)).stands false = true ∧ (group good).slotA.run = none ∧
      (group good).slotA.st.pc.toNat % 8 = 0 ∧
    (match (header.run (wake good 0)).1 with | .done ws => ws.length == 3 | _ => false) = true ∧
    (match ({ header with head := 0x80000000 }.run { wake (at' 0x80000000) 0 with hbm := [(0x10000, 0xFC)] }).1 with
      | .stopped (.absent _ _) => true | _ => false) = true ∧
    (match ({ header with head := 0x10000000000 }.run (wake (at' 0x10000000000) 0)).1 with | .stopped (.access 1) => true | _ => false) = true ∧
    (match (header.run (wake (standing [0x0400010000000002, 0x0800000000000000]) 0)).1 with | .trap 0x0A 1 1 _ _ => true | _ => false) = true := by
  decide +kernel

/-- A trailer in issue at the end of a run, predicate 1 set in the first lane, the issuing slot with a mask. -/
def ending (mask : BitVec 32) (f : Group → Group := id) : State :=
  (ready.modGroup 0 fun g => { g with run := g.run.map fun r => { r with pos := 1 } }).modGroup 0 fun g =>
    f { g.setP 1 { val := 0xFF, full := true } with slotA := { g.slotA with st := { g.slotA.st with mask := mask } } }

/-- The other slot live, away from the reconvergence PC. -/
def besides (g : Group) : Group := { g with slotB := { Slot.dead with st := ⟨0x3000, 1, true⟩ } }

/-- What `TrailerIssues` asks for. -/
def trails (s : State) (c : Ctx) (t : Trail) : Bool :=
  full c [.reg (.p t.pred), t.a] && (c.r.tblsw.isNone || (s.core c.core).tables.isEmpty) && !c.r.returning && c.r.raised.isNone && c.g.dbg.step.isNone &&
    !c.regionWrite t && (c.g.slot c.r.slotB).st.live && (!(c.g.slot (!c.r.slotB)).st.live || (c.g.slot (!c.r.slotB)).st.pc != c.g.rcv)

/-- TrailersComplete: no lane, some and all lanes taken, the other slot live or not; a value that an indirect trailer may go to; room for a
push; lanes that leave a slot with lanes, and the last that leave. -/
theorem witness_TrailersComplete :
    let t : Trail := trail .none .none 2 1 2 3
    let u : Trail := trail .none (v 7) 0
    let part (c : Ctx) : Bool := c.taken t != 0 && c.taken t != (c.g.slot c.r.slotB).st.mask && c.r.fall != c.beyond t.rcv
    let open' : State := ending 3 fun g => { besides g with txn := some ⟨[], [], none⟩ }
    meets (ending 2) (fun c => trails (ending 2) c t && c.taken t == 0 && trails (ending 2) c u && c.landing u % 8 == 0 && decide (c.landing u < 2 ^ 56)) = true ∧
    meets (ending 1) (fun c => trails (ending 1) c t && c.taken t == 1 && c.taken t == (c.g.slot c.r.slotB).st.mask &&
      (c.g.slot c.r.slotB).st.mask &&& ~~~c.taken t == 0 && c.g.dsp == 0 && !(c.g.slot true).st.live) = true ∧
    meets (ending 3) (fun c => trails (ending 3) c t && part c && !(c.g.slot true).st.live && (c.g.slot c.r.slotB).st.mask &&& ~~~c.taken t != 0) = true ∧
    meets (ending 3 besides) (fun c => trails (ending 3 besides) c t && part c && (c.g.slot true).st.live && decide (c.g.dsp.toNat < c.la.divstack) &&
      loadsPerformed c.g && decide (c.g.fifo.length < 16) && (match areaLoc (ending 3 besides) c.gid c.st c.la.asn (32 * c.g.dsp.toNat) with
        | (.ok _, w) => decide (queueEntries w c.core < 256)
        | _ => false)) = true ∧
    meets open' (fun c => trails open' c t && part c && (c.g.slot true).st.live && decide (c.g.dsp.toNat < c.la.divstack) && loadsPerformed c.g &&
      (match areaLoc open' c.gid c.st c.la.asn (32 * c.g.dsp.toNat) with
        | (.ok l, w) =>
          let push := linesOf l (areaAddress w c.gid c.st (32 * c.g.dsp.toNat)) 32 (c.g.entry (!c.r.slotB)) 0
          push.all (fun y => !isPad y.line && !isRemote y.line) && decide ((mergeWrites [] push).length ≤ 32)
        | _ => false)) = true ∧
    meets (ending 1 besides) (fun c => trails (ending 1 besides) c t && (c.g.slot c.r.slotB).st.mask &&& ~~~c.taken t == 0 && c.g.dsp == 0 && (c.g.slot true).st.live) = true := by
  decide +kernel

/-- TrapInstructions: a trailer in issue with its sources full, its group's other slot not live. -/
theorem witness_Ends :
    let t : Trail := trail .none .none 2 1 2 3
    meets (ending 1 fun g => { g with run := g.run.map fun r => { r with committed := true, raised := some (5, ⟨false, 0, 0, 0⟩) } }) (fun c =>
      full c [.reg (.p t.pred), t.a] && (c.g.slot c.r.slotB).st.live && !(c.g.slot (!c.r.slotB)).st.live &&
      (c.g.slot (!c.r.slotB)).waits.isEmpty && c.r.tblsw.isNone && !c.r.returning && c.r.committed && c.r.arrivals.isEmpty && c.r.waits.isEmpty &&
      c.r.raised.isSome && !c.regionWrite t && c.g.dbg.step.isNone && !c.g.retired && c.g.dsp == 0) = true := by decide +kernel

/-- Trailers: a split while the other slot is live and the divergence stack is full; a trailer that publishes a live-in register; two slots
that meet; entries of which some and no lanes are left. -/
theorem witness_Trailers :
    let s : State := ready.modGroup 0 fun g => { g.setP 1 { val := 0xFF, full := true } with
      slotB := { g.slotA with st := { g.slotA.st with mask := 1 } }, dsp := 64 }
    let meet : Group := { group s with run := none, rcv := 0x1000 }
    let live (g : Group) : Group := { g with snap := { g.snap with livein := 2 }, run := g.run.map fun r => { r with ws := 6 } }
    let t : Trail := trail .none .none 0 1 2 3
    let pub : Trail := trail .none (v 7) 1
    let split : Trail := trail .none .none 1 1 2 3
    let both : State := ending 3 (live ∘ besides)
    meets s (fun c => full c [.reg (.p t.pred), t.a] && c.r.tblsw.isNone && c.taken t != 0 && c.taken t != (c.g.slot c.r.slotB).st.mask &&
      (c.g.slot (!c.r.slotB)).st.live && decide (c.la.divstack ≤ c.g.dsp.toNat)) = true ∧ meet.meets = true ∧
    meets (ending 3 live) (fun c => full c [.reg (.p pub.pred), pub.a] && c.r.tblsw.isNone && !c.r.returning && (c.g.slot c.r.slotB).st.live &&
      !(c.g.slot (!c.r.slotB)).st.live && c.regionWrite pub && c.landing pub % 8 == 0 && decide (c.landing pub < 2 ^ 56) && c.taken pub == 3 && c.g.dsp == 0 &&
      c.taken split == 1 && (c.g.slot c.r.slotB).st.mask == 3 && c.r.fall != c.beyond split.rcv) = true ∧
    meets both (fun c => full c [.reg (.p split.pred), split.a] && c.regionWrite split && (c.g.slot true).st.live && (c.g.slot true).st.pc != c.g.rcv &&
      c.taken split == 1 && (c.g.slot c.r.slotB).st.mask == 3 && decide (c.g.dsp.toNat < c.la.divstack) && c.g.fifo.isEmpty &&
      (match areaLoc both c.gid c.st c.la.asn (32 * c.g.dsp.toNat) with
        | (.ok _, w) => decide (queueEntries w c.core < 256)
        | _ => false)) = true ∧
    (let mask (g : Group) : BitVec 32 := BitVec.ofNat 32 (bits (2 ^ 97 + 2 ^ 64) 64 32) &&& ~~~g.exited
     bits (2 ^ 97 + 2 ^ 64) 97 1 = 1 ∧ mask meet ≠ 0 ∧ mask { meet with exited := 1 } = 0) := by decide +kernel

/-- BarriersAndGroups: a barrier instruction with and without an elected lane; SPAWN that fits and one that does not; a retired group with
nothing left. -/
theorem witness_BarriersAndGroups :
    let o : Ops := ops .none .none .none .none .b64 2
    let q (n : BitVec 7) : Ops := ops (p 1) (imm n) (imm 0x40) .none
    let gone : Group := (group ready).retire
    meets ready (fun c => fullOps c o && (c.guard o).elected == some 0 && (c.guard (ops .none .none .none .none .b64 2 0 true)).elected.isNone &&
      fullAddr c (q 0x41) && loadsPerformed c.g && c.g.txn.isNone && c.scalar (q 0x41) (imm 0x41) == 1 && decide (c.scalar (q 0x41) (imm 0x40) < c.la.entries.length) &&
      groupsFit ready 0 1 c.la.vregs c.la.mregs && c.scalar (q 0x40) (imm 0x40) == 0) = true ∧
    (ready.groups.map (·.1)) = [0] ∧ gone.retired = true ∧ resultsDue (ready.putGroup 0 gone) 0 gone = false := by decide +kernel

/-- The words of a derived record at 0x1040 that converts the four i32 elements at 0x2000 of the record at 0x1080 to f32 at 0x3000. -/
def derived : List Word := [0x2700000000003000, 0, 0x100000004, 0x100000001, 1, 0, 0x200000000, 0x1082]
def base : List Word := [0x2100000000002000, 0, 0x100000004, 0x100000001, 1, 0, 0x200000000, 0]

def recording : State :=
  let word (ws : List Word) : LineBits := BitVec.ofNat 1024 (packElems 64 (fun i => (ws.getD i 0).toNat) 8)
  let s : State := ready.setCore 0 { ready.core 0 with records := [(0x1040, word derived), (0x1080, word base)] }
  { s with clusters := [(0, { Cluster.idle with tlb := [page] })] }

/-- CastTensors: no lane elected; a chain that registers, one that is there already, and one that overlaps its base; CASTDROP of a rule that
is there, alone or with a rule upon it, and of none; a stale tile for which a read is held and that is ready. -/
theorem witness_CastTensors :
    let o : Ops := ops (p 1) (x 1) (imm 0x7F) .none
    let reg : Ops := { o with b := .reg .ext, ext := some 0x1040 }
    let rs : List (Nat × List Word) := [(0x1040, derived), (0x1080, base)]
    meets recording (fun c => fullAddr c o && loadsPerformed c.g && c.g.txn.isNone && (c.guard o).elected == some 0 && c.r.stage != 3 &&
      found (check recording c.seat (c.base reg.a) .rd 64 (fun _ => false) [c.address reg]).1 &&
      (match (followChain c (c.base reg.a) (c.address reg).off 0x1040 [] 4096 recording).1 with | .ok x => x == rs | _ => false) &&
      (match register recording c rs with
        | (.done 0, u) => (match u.casts with
          | [k] => k.stale == [0] && tileReady u k 0 && u.casts.all (fun y => y.base != 0x1040) && k.addr == 0x1040 && k.part == c.st.part && k.asn == c.la.asn &&
            decide ((register u c rs).1 = .done 2) && wanted (holdRead u (.load 0 5) 0x3000) (k.rule, 0) &&
            tileReady (holdRead u (.load 0 5) 0x3000) k 0
          | _ => false)
        | _ => false) &&
      decide ((register recording c [(0x1040, derived), (0x1060, base)]).1 = .cyclic)) = true ∧
    meets recording (fun c => (c.guard (ops (p 1) (x 1) (imm 0x7F) .none .b64 0 0 true)).elected.isNone) = true := by decide +kernel

/-- CacheMaintenance: a range of no bytes, one with its lines, one that is refused; and a CMO whose lines no agent owns. -/
theorem witness_CacheMaintenance :
    let o (b k : BitVec 7) : Ops := ops (.scope .dev) (x 1) (imm b) (imm k)
    let far : Ops := { o 0x40 0x7F with a := vz, b := .reg .ext, ext := some (2 ^ 40) }
    let w : CmoOp := ⟨3, 0, 0, 0, 0, 192, false, 1, true, [0, 128], [0]⟩
    meets ready (fun c => fullAddrC c (o 0x40 0x40) && (c.guard (o 0x40 0x40)).elected == some 0 && c.scalar (o 0x40 0x40) (imm 0x40) == 0 &&
      c.scalar (o 0x40 0x7F) (imm 0x7F) == 63 && loadsPerformed c.g && c.g.txn.isNone && releaseDone ready 0 .dev && c.g.lost.isEmpty &&
      (match (rangeLines c (c.base (x 1)) 0 63 1 0 [] ready).1 with | .lines ls => ls == [(0, false)] | _ => false) &&
      (match (rangeLines c none (2 ^ 40) (2 ^ 40 + 63) 1 (2 ^ 40) [] ready).1 with | .fails 1 _ => true | _ => false) &&
      (c.address far).ea == 2 ^ 40) = true ∧
    { ready with cmos := [w] }.cmos.find? (fun w => w.gid == 0 && w.slotB == false) = some w ∧ (∀ l ∈ w.left, heldBack ready (.mem l) = false ∧ l % 128 = 0) ∧
      ready.l2 = [] := by decide +kernel

/-- CommandsIssue: a block that reads, its completion word aligned, misaligned and zero; room in the queue and none; a transaction. -/
theorem witness_CommandsIssue :
    let o : Ops := ops .none (x 1) (v 7) .none
    let block (cplt : Nat) : State := { ready with hbm := Memory.writeLE [] 0 8 cplt }
    let reads (c : Ctx) (s : State) (cplt : Nat) : Bool := fullAddr c o && loadsBefore c.g && c.g.txn.isNone && (c.guard o).elected == some 0 &&
      found (check s c.seat (c.base o.a) .rd 64 (fun _ => false) [c.address o]).1 &&
      (match (c.readBlock (check s c.seat (c.base o.a) .rd 64 (fun _ => false) [c.address o]).2 (.mem 0) 0).1 with
        | .words ws => blk ws 0 0 56 == cplt && queueRoom s (enterCluster c.st .cpy ws (clusterOf c.core)) .cpy && queueRoom s (enterCluster c.st .xmma ws (clusterOf c.core)) .xmma
        | _ => false)
    (∀ k ∈ [0x400, 0x401, 0], meets (block k) (fun c => reads c (block k) k) = true) ∧
    meets ready (fun c => (c.guard (ops .none (x 1) (v 7) .none .b64 0 0 true)).elected.isNone) = true ∧
    (∀ k ∈ [CmdKind.cpy, .coll, .nmx, .xmma], queueRoom { ready with cmds := (List.range k.queue.2).map fun i => (i, newCmd k (some 0) (some 0) 0 0 0 [] 0) } 0 k = false) := by
  decide +kernel

/-- CommandStatus: XSTAT with and without a lane; NMFENCE with commands out and with none; NODE with its record aligned and not. -/
theorem witness_CommandStatus :
    let o : Ops := ops (p 1) (x 1) (v 7) .none
    let out : State := ready.setCore 0 { ready.core 0 with nmxout := 1 }
    meets ready (fun c => fullOps c (ops (v 3) (v 7) .none .none) && c.r.stage != 3 && (c.guard o).elected == some 0 && (ready.core 0).nmxout == 0 &&
      loadsPerformed c.g && fullAddr c o && c.g.txn.isNone && (c.address o).ea % 64 == 0 && (c.address { o with b := v 2 }).ea % 64 != 0 &&
      (c.guard (ops (v 3) (v 7) .none .none .b64 0 0 true)).elected.isNone) = true ∧ (out.core 0).nmxout ≠ 0 := by decide +kernel

/-- SystemRegisters: SYSRD of a register that is here, and of one of a stack with RMSEL naming no row, a row of the partition and a row of
none; RMSEL at an address that is found and one that is refused; answers that come. -/
theorem witness_SystemRegisters :
    let o (n : BitVec 8) : Ops := ops (v 3) (.raw n) .none .none
    let sel (k : Word) : State := ready.setCore 0 { ready.core 0 with rmsel := k }
    let mine : State := { sel (BitVec.ofNat 64 (rmselOf 0x1000)) with parts := Sparse.modify ready.parts 0 fun p => { p with ranges := [(0, 2 ^ 30)] } }
    let waits (w : Nat) : State := ready.modGroup 0 fun g => { g with run := g.run.map fun r =>
      { r with words := [BitVec.ofNat 64 w], stage := 3, query := rmselOf 0x1000 } }
    meets ready (fun c => fullOps c (o 0) && c.r.stage != 3 && !stackReg 0 && stackReg 0xC2 && (selected (ready.core 0).rmsel.toNat).isNone &&
      full c [.reg (.p 0), imm 0x47] && (c.guard (o 0)).elected == some 0 &&
      (match (resolve ready c.seat none 0 0x1000 .rd).1 with | .ok (.mem pa) => regionOf pa == .hbm | _ => false) &&
      (match (resolve ready c.seat none 0 (2 ^ 40) .rd).1 with | .access _ => true | _ => false)) = true ∧
    (match selected (mine.core 0).rmsel.toNat with | some (b, r) => decide (partOfPa mine (paOfRow b r) = some 0 ∧ partOfPa ready (paOfRow b r) ≠ some 0) | none => false) = true ∧
    (∀ w ∈ [0x540003C200000000, 0x4802036101000000, 0x4C06030100000000], (match ctxOf (waits w) 0 with
      | some c => c.r.stage == 3 && (readWord (c.r.words.getD c.r.pos 0) (c.r.words.getD (c.r.pos + 1) 0)).isSome && (selected c.r.query).isSome
      | none => false) = true) := by decide +kernel

/-- TakingExceptions: a group in a handler, one without a handler, and one that can enter it; TrapInstructions: TRAP, BKPT and ERET, and the
trailer after a TRAP. -/
theorem witness_TakingExceptions :
    let s : State := ready
    let within : State := s.modGroup 0 fun g => { g with trap := { g.trap with cause := 7 } }
    let bare : State := { s with launches := Sparse.modify s.launches 0 fun la => { la with traph := 0 } }
    (match seatOf within 0 with | some (g, _, _) => g.trap.code != 0 | none => false) = true ∧
    (match seatOf bare 0 with | some (g, _, la) => g.trap.code == 0 && la.traph == 0 | none => false) = true ∧
    (match seatOf s 0 with
      | some (g, st, la) => g.trap.code == 0 && la.traph != 0 && g.dbg.step.isNone && !g.retired && !g.dbg.claimed &&
        (match g.run with | some r => !r.committed | none => true) &&
        (match (areaLoc (discardGroup (s.putGroup 0 g) 0 1) 0 st la.asn 8192).1 with | .ok _ => true | _ => false) &&
        (match (areaLoc s 0 st la.asn 8192).1 with | .ok _ => true | _ => false)
      | none => false) = true := by decide +kernel

theorem witness_TrapInstructions :
    let o : Ops := ops .none (imm 0x45) .none .none
    let t : Trail := trail .none .none 0
    let raised : State := ready.modGroup 0 fun g => { g with run := g.run.map fun r => { r with committed := true, raised := some (5, ⟨false, 0x1000, 0, 0⟩) } }
    let back : State := ready.modGroup 0 fun g => { g with trap := { g.trap with cause := 7 }, run := g.run.map fun r => { r with returning := true } }
    meets ready (fun c => full c [.reg (.p o.pred), o.a] && loadsPerformed c.g && c.g.txn.isNone && (c.guard o).elected == some 0 && c.g.trap.code == 0) = true ∧
    meets raised (fun c => full c [.reg (.p t.pred), t.a] && c.r.committed && c.r.raised.isSome && c.r.tblsw.isNone && !c.r.returning && c.r.arrivals.isEmpty &&
      c.r.waits.isEmpty && !(c.g.slot true).st.live && !c.regionWrite t) = true ∧
    meets back (fun c => c.g.trap.code != 0 && full c [.reg (.p t.pred), t.a] && c.r.tblsw.isNone && c.r.returning && !c.regionWrite t && returnReady back 0) = true := by
  decide +kernel

/-- A run that stands at its head. -/
def freshRun : Run :=
  { slotB := false, head := 0x1000, words := [], pos := 0, ws := 6, buf := [(1, ⟨splat 5, .u⟩), (2, ⟨steps, .a⟩)], temps := [], withdrawn := 0,
    bank := false, committed := false, arrivals := [], waits := [], tblsw := none, returning := false, stores := [], issuedTables := [], stage := 0,
    query := 0, raised := none }

/-- ExceptionReturn: areas that hold the slot block of a group without and with a suspended run, and copies of each shape. -/
theorem witness_ExceptionReturn :
    let g : Group := { group ready with susp := (group ready).run, trap := { TrapCtx.zero with cause := 0x20C } }
    let r : Run := freshRun
    let area : Nat := (copyBlock r fun _ => 0).foldl (fun n x => n + x.2.2 * 2 ^ (8 * x.1)) 0
    slotBlock g none % 2 ^ 512 = slotBlock g none ∧ slotBlock g (some false) % 2 ^ 512 = slotBlock g (some false) ∧ g.trap.susp = true ∧ g.susp.isSome = true ∧
    (g.slot false).st.live = true ∧ (setOrder r.ws).length ≤ 16 ∧ ((copyBlock r fun _ => 0).all fun x => bits area (8 * x.1) (8 * x.2.1) == x.2.2) = true ∧
    ((List.range 32).all fun l => lane (r.copy 2).val l == (lane (r.copy 2).val 0 + l * affineStride (r.copy 2).val) % 2 ^ 64) = true := by decide +kernel

/-- A store of 8 bytes of a line, with a value. -/
def storeAt (l : Loc) (off val : Nat) : Store :=
  { line := l, data := BitVec.ofNat 1024 (val * 2 ^ (8 * off)), mask := byteMask off 8, policy := 0, va := 0 }

/-- StoresReachHomes: stores that wait to enter; a FIFO with an entry whose line the CVP holds unsent, or does not, and of whose line the
core has a copy; a CVP entry of a scratchpad, one of HBM, one of the host and one to which no route leads; a home queue whose line nobody
owns, and one whose line is owned. -/
theorem witness_StoresReachHomes :
    let x := storeAt (.mem 128) 0 7
    let h : Loc := .mem (2 ^ 48)
    let core (es : List CvpEntry) : State := ready.setCore 0 { ready.core 0 with cvp := es, l1 := [(128, .valid 0 0 false 0)] }
    let unlinked : Loc := .mem (2 ^ 51)
    let s : State := (core [⟨storeAt (.mem 128) 8 1, [1], [(0, 0)], false⟩]).modGroup 0 fun g => { g with fifo := [x] }
    let q : State := { ready with homeq := [(sliceOf 128, [⟨some 0, x, none⟩])] }
    let held : State := { q with owners := [(128, 9)] }
    let full : State := held.setRecall (sliceOf 128) (List.replicate 64 (.load 0 0 128))
    let parked : State := ready.setRecall (sliceOf 128) [.store ⟨some 0, x, none⟩]
    meets (ready.modGroup 0 fun g => { g with run := g.run.map fun r => { r with stage := 1, stores := [x] } }) (fun c => c.r.stage == 1 && c.r.stores == [x] && c.g.saving.isEmpty && c.g.entering.isNone) = true ∧
    (group s).fifo = [x] ∧ (mergeCvp (s.core 0).cvp x 0 s.nextId).length ≤ 128 ∧ (mergeCvp (ready.core 0).cvp x 0 s.nextId).length ≤ 128 ∧ (ready.core 0).cvp = [] ∧
      (s.core 0).cvp.map (fun e => (e.store.line == x.line, e.sent)) = [(true, false)] ∧ Sparse.find? (s.core 0).l1 128 = some (.valid 0 0 false 0) ∧
      Sparse.getD (s.core 0).orphans 0 [] = [] ∧
    (∀ l ∈ [Loc.pad 0 128, .mem 128, h, unlinked], ((core [⟨storeAt l 0 7, [0], [(0, 0)], false⟩]).core 0).cvp.find? (fun e => e.store.line.key == l.key) =
      some ⟨storeAt l 0 7, [0], [(0, 0)], false⟩) ∧ isRemote unlinked = true ∧ portOf ready (2 ^ 51) = none ∧ isRemote (.mem 128) = false ∧ isRemote h = true ∧ portOf ready (2 ^ 48) = some 16 ∧ ownerOf ready h = none ∧
    Sparse.getD q.homeq (sliceOf 128) [] = [⟨some 0, x, none⟩] ∧ nextParked q (sliceOf 128) = none ∧ heldBack q (.mem 128) = false ∧ q.l2 = [] ∧
    (∀ s ∈ [held, full], Sparse.getD s.homeq (sliceOf 128) [] = [⟨some 0, x, none⟩] ∧ nextParked s (sliceOf 128) = none ∧
      heldBack s (.mem 128) = true ∧ Parked.store ⟨some 0, x, none⟩ ∉ s.recall (sliceOf 128)) ∧
    (held.recall (sliceOf 128)).length < 64 ∧ 64 ≤ (full.recall (sliceOf 128)).length ∧
    nextParked parked (sliceOf 128) = some ⟨some 0, x, none⟩ := by decide +kernel

/-- An access of which one line is still to be read. -/
def reading (l : Loc) : Access := { read (.ld 10 none 64) [] [] with todo := [⟨0, l, 8, none⟩] }

/-- LoadsAndCopies: a load whose line is a scratchpad's, the home's, one of the host, one of a stale tile, and one that a rebuild lets be
made; one inside a transaction with 64 lines; a copy young and old, and one of the host; a fill that is served; a record that may be cached.
-/
theorem witness_LoadsAndCopies :
    let s (l : Loc) : State := ready.modGroup 0 fun g => { g with accs := [reading l] }
    let l1 (x : L1Copy) (t : Word) : State := { ready.setCore 0 { ready.core 0 with l1 := [(128, x)] } with tick := t }
    let home (l : Loc) : Bool := readsHome (s l) 0 0 l (itemsMask ((reading l).here l))
    let stale : Cast := { rule := 3, part := 0, asn := 0, cluster := 0, addr := 0x1040, base := 0x1080, words := [], baseWords := [], depth := 1, tiles := 1, edges := [], lines := [(128, 0, 1)], slices := [], homes := [], stale := [0] }
    let copied : State := ready.setCore 0 { ready.core 0 with l1 := [(2 ^ 48, .valid 0 0 false 0)] }
    let o : State := (s (.mem 128)).modGroup 0 fun g => { g with txn := some ⟨(List.range 64).map fun i => 256 + 128 * i, [], none⟩ }
    (∀ l ∈ [Loc.pad 0 128, .mem 128, .mem (2 ^ 48)], (group (s l)).accs.find? Access.pending = some (reading l) ∧ (reading l).line = some l) ∧
    home (.pad 0 128) = false ∧ home (.mem 128) = true ∧ homeBusy (s (.mem 128)) (.mem 128) = false ∧ homePoisoned (s (.mem 128)) (.mem 128) = false ∧
      ownerOf (s (.mem 128)) (.mem 128) = none ∧ staleLine (s (.mem 128)) 128 = false ∧
      staleLine { s (.mem 128) with casts := [stale] } 128 = true ∧ heldServed { s (.mem 128) with casts := [stale] } (.load 0 5) 128 = false ∧
      heldServed { s (.mem 128) with heldReads := [⟨3, 0, .load 0 5, 128, true⟩] } (.load 0 5) 128 = true ∧ (group (s (.mem 128))).txn = none ∧ home (.mem (2 ^ 48)) = true ∧ isRemote (.mem (2 ^ 48)) = true ∧ asked (s (.mem (2 ^ 48))) (reading (.mem (2 ^ 48))) (2 ^ 48) = false ∧
      portOf ready (2 ^ 48) = some 16 ∧ portPending (s (.mem (2 ^ 48))) 0 16 = false ∧
      ownerOf (s (.mem (2 ^ 48))) (.mem (2 ^ 48)) = none ∧
    (match (group o).txn with | some x => decide (128 ∉ x.reads) && decide (64 ≤ x.reads.length) | none => false) = true ∧
      readsHome o 0 0 (.mem 128) (itemsMask ((reading (.mem 128)).here (.mem 128))) = true ∧
    Sparse.find? ((l1 (.valid 0 0 false 0) 0).core 0).l1 128 = some (.valid 0 0 false 0) ∧ (l1 (.valid 0 0 false 0) 0).tick.toNat < 0 + 1048576 ∧
      0 + 1048576 ≤ (l1 (.valid 0 0 false 0) 1048576).tick.toNat ∧ 128 ∉ ready.poisoned ∧
    Sparse.find? ((l1 (.fill false false none) 0).core 0).l1 128 = some (.fill false false none) ∧
      Sparse.find? ((l1 (.fill true false none) 0).core 0).l1 128 = some (.fill true false none) ∧ served ready (none : Option Nat).toList = true ∧
    Sparse.find? (copied.core 0).l1 (2 ^ 48) = some (.valid 0 0 false 0) ∧ portOf copied (2 ^ 48) = some 16 ∧ (copied.core 0).refreshes = [] ∧
    regionOf 0x1040 = .hbm ∧ (ready.core 0).recordCopy 0x1040 = none ∧ homeBusy ready (.mem 0x1040) = false ∧ homePoisoned ready (.mem 0x1040) = false := by
  decide +kernel

/-- RemoteDelivery: a queue to the host and one to a port that is up or down; a flit for this device, with the number that is expected, one
accepted already and another, served at once or not; one for a device beyond, with a route and with none; a line that an entry of the
inbound table grants; a flit to replay; a port with 16 replays; an answer that is awaited. -/
theorem witness_RemoteDelivery :
    let r : Remote := .read 5 (2 ^ 48)
    let port (x : LinkPort) : State := ready.setPort 3 x
    let grant : BitVec 128 := BitVec.ofNat 128 (2 ^ 80 * 16 + 2 ^ 63 + 2 ^ 62 + 2 ^ 40 * 9)
    let s : State := { ready with inbound := [(0, grant)], routes := [(7, 0x83)] }
    let a := reading (.mem (2 ^ 48))
    let f : Flit := ⟨5, 0, 0, 9, 0, .load 1 0⟩
    let busy : State := { s with owners := [(0, 7)] }
    let waits : State := { (ready.modGroup 0 fun g => { g with accs := [{ a with reqs := [5] }] }) with outstanding := [⟨5, 16, r⟩] }
    ({ ready with delivery := [(16, [r])] }.queueOf 16 = [r]) ∧ ({ ready with delivery := [(3, [r])] }.queueOf 3 = [r]) ∧ (ready.port 3).down = false ∧
      (ready.port 3).retry.length < 512 ∧ ((port { LinkPort.idle with down := true }).port 3).down = true ∧
    (takeAck ready 3 0).port 3 = LinkPort.idle ∧ ready.host.nodeid.toNat = 0 ∧ (serveRequest ready 9 (.load 1 0)).isSome = true ∧ (serveRequest busy 9 (.load 1 0)).isNone = true ∧
      routePort s 7 = some 3 ∧ routePort s 8 = none ∧ LinkPort.idle.expected = 0 ∧ LinkPort.idle.hasAccepted 4095 = true ∧ LinkPort.idle.hasAccepted 1 = false ∧
    inboundCheck s 9 0 62 = 0 ∧ inboundCheck s 9 0x100000 62 = 2 ∧ inboundCheck s 9 0x6000000000 62 = 1 ∧ inboundPending s 9 = false ∧
      homeBusy s (.mem 0) = false ∧ homePoisoned s (.mem 0) = false ∧
    ((port { LinkPort.idle with retry := [f] }).port 3).retry.findIdx? (fun x => x.seq == BitVec.ofNat 12 5) = some 0 ∧
    16 ≤ ((port { LinkPort.idle with replays := 16 }).port 3).replays ∧
    waits.outstanding.find? (fun o => o.id == 5 && o.port == 16) = some ⟨5, 16, r⟩ ∧ (group waits).accs = [{ a with reqs := [5] }] ∧ a.use.loads = true := by
  decide +kernel

/-- HostAndReset: a device in service, one whose reset is under way; signatures below and at the limit; a correction of each size; a port
page. -/
theorem witness_HostAndReset :
    let up : State := { ready with host := { ready.host with devst := 1 } }
    let fresh : State := { ready with host := { ready.host with devst := 2 } }
    up.host.stopped = false ∧ up.host.devst ≠ 2 ∧ fresh.host.devst = 2 ∧ up.host.devst = 1 ∧ (∀ l ∈ linesTouched 0x0 8, l ∉ up.poisoned ∧ l ∉ up.hbmBad) ∧ 0x0 % 8 = 0 ∧ up.signatures < 2 ^ 20 ∧
    2 ^ 20 ≤ { up with signatures := 2 ^ 20 }.signatures ∧ { up with signatures := 2 ^ 20 }.host.devst = 1 ∧ (1000000 : Int) < 1000001 ∧ (up.part? 0).isSome = true ∧ 0x5FFFFFFFF8 + 8 ≤ 0x6000000000 ∧
    (2 : Nat) ^ 32 < 2 ^ 32 - 4 + 8 ∧ 2 ^ 32 - 8 + 8 ≤ (2 : Nat) ^ 32 := by decide +kernel

/-- PagesAndShootdowns: a walk that finds a page; an arrival and a shootdown for a partition that is there; a shootdown that waits for a
command, a CMO, the lines of a packet or a record that is being armed, and one that waits for nothing. -/
theorem witness_PagesAndShootdowns :
    let x : Shootdown := ⟨0, 0, 0, 0, 1, 0, false, [4], [], []⟩
    let waits : State := { ready with shootdowns := [x], cmds := [(4, newCmd .cpy none none 0 0 0 [] 0)] }
    let s : State := { ready with shootdowns := [{ x with cmds := [] }] }
    partOfCluster ready 0 = some 0 ∧ (match (translate ready 0 0 0 0).1 with | .resident _ _ _ => true | _ => false) = true ∧ (ready.part? 0).isSome = true ∧
    waits.shootdowns[0]? = some x ∧ (Sparse.find? waits.cmds 4).isSome = true ∧
    allCmds waits 0 = waits.cmds ∧ (∀ w ∈ [(⟨3, 0, 0, 0, 0, 64, false, 0, true, [0], []⟩ : CmoOp)], w.id ∈ { x with cmos := [3] }.cmos) ∧
    x.frame = 0 ∧ x.touches 0 64 = true ∧ (⟨3, 0, 1, some (.mem 0), 0, 0, 0, 0⟩ : Arming).loc.isSome = true ∧
    s.shootdowns[0]? = some { x with cmds := [] } ∧ allCmds s 0 = [] ∧ s.cmos = [] ∧ s.slots = [] ∧ (∀ p, s.part? 0 = some p → rangeStores s p x = false) ∧ s.arming = [] ∧ x.accs = [] := by decide +kernel

/-! #### Queues, launches and partitions -/

/-- Words of HBM, 8 bytes each, from an address. -/
def store64 (mem : List Host.Cell) (a : Nat) (ws : List Nat) : List Host.Cell :=
  Memory.writeLE mem a (8 * ws.length) (packElems 64 (fun i => ws.getD i 0) ws.length)

/-- A queue whose ring lies at 0x4000, at the packet written there. -/
def slot : QueueSlot :=
  { part := 0, qcb := 0x8000, rbase := 0x4000, rsize := 12, rptr := 0, wptr := 0x100, qid := 3, asn := 0, bprio := 0, maxp := 3, qstate := 1, qerr := 0,
    qerrd := 0, errptr := 0, errw := 0, errvec := 0, age := 0, mapped := 0, latest := false, leaving := none, injected := [], taking := false,
    waiting := false, stage := 0, lines := [], prologue := none, made := 0, current := false, releasing := false }

/-- The machine with that queue in slot 0, its packet given by its words; at 0x4800 a list with the record at 0x6000, whose count is 2. -/
def queued (packet : List Nat) (q : QueueSlot := slot) : State :=
  { ready with
    hbm := store64 (store64 (store64 [] 0x4000 packet) 0x4800 [0x6000]) 0x6000 [2]
    clusters := [(0, { Cluster.idle with tlb := [page] })]
    slots := [(0, q)] }

/-- `AtPacket` with a further condition. -/
def packet (s : State) (type : Nat) (f : QueueSlot → List Word → State → Bool) : Bool := match Sparse.find? s.slots 0 with
  | some q => ((s.part? q.part).map q.served).getD false && q.qstate != 2 && match nextPacket s 0 q with
    | (inj, .ready t _ ws, u) =>
      let q' : QueueSlot := { q with taking := inj, current := true }
      t == type && f q' ws (u.putSlot 0 q')
    | _ => false
  | none => false

def ok : HubBytes × State → Bool
  | (.ok _, _) => true
  | _ => false

/-- The count of a record that has just been armed. -/
def armedCount (s : State) (m : Node) (pa : Nat) : Int :=
  signedOf 64 (readHome (setNodeState (tell { s with nodes := s.nodes ++ [m] } hubDie (homeDie pa)) m 1) (.mem pa) 8)

/-- CommandQueues: a packet of each type with what its clauses ask for. -/
theorem witness_CommandQueues_packets :
    packet (queued (0x0501 :: List.replicate 9 0)) 1 (fun q ws u => match handOver u 0 q ⟨ws.drop 1⟩ with | (.ok, _) => true | _ => false) = true ∧
    packet (queued [0x0603, 0, 0x200, 0, 0x100]) 3 (fun q ws u => blk ws 1 0 2 != 3 && blk ws 1 2 62 == 0 && blk ws 2 56 8 == 0 && blk ws 2 0 56 % 8 == 0 &&
      blk ws 3 0 64 == 0 && blk ((ws.drop 4).take 8) 0 0 56 == 0x100 && ok (optionalAddr u 0 0 (blk ws 2 0 56) .wr) &&
      (let w := (optionalAddr u q.part q.asn (blk ws 2 0 56) .wr).2
       queueRoom w (((w.part? q.part).map lowestCluster).getD 0) (kindOfFunc (blk ws 1 0 2)))) = true ∧
    packet (queued [0x0204, 0x4800, 1, 0]) 4 (fun q ws u => q.leaving.isNone && blk ws 1 56 8 == 0 && blk ws 2 0 13 == 1 && blk ws 2 13 51 == 0 &&
      blk ws 3 0 64 == 0 && match hubVirtual u 0 0 0 0x4800 8 with
        | (.ok va, s1) => va == 0x6000 && match hubAddr s1 0 0 va .wr with
          | (.ok pa, s2) => regionOf pa == .hbm && match hubBytes s2 0 pa 64 with
            | (.ok x, s3) => !badNode (wordsFrom x 8) && s3.nodes.isEmpty && !homeBusy s3 (.mem pa) &&
              armedCount s3 ⟨pa, va, 0, 0, none, false⟩ pa == 2
            | _ => false
          | _ => false
        | _ => false) = true ∧
    (∀ size ∈ [0, 256], ∀ scope ∈ [5, 6], ∀ q ∈ [slot, { slot with stage := 1, lines := [(0x4000, true)] }],
      packet (queued [0x0305, 2 + 16 * scope, 0x4000, size, 0, 0] q) 5 (fun q' ws u =>
      blk ws 1 0 2 == 2 && blk ws 1 4 3 == scope && blk ws 1 7 57 == 0 && blk ws 3 0 48 == size && (u.part? 0).isSome && (q.lines.all fun e => !heldBack u (.mem e.1)) &&
      packetsReleased u q' (scope == 6) &&
      !packetsReleased { u with launches := [(5, { placedLaunch with queue := some 3 })] } q' (scope == 6) &&
      (size == 0 || match rangePages u 0 0 0x4000 (0x4000 + size) (pagePieces 0x4000 size) [] with | (.lines _, _) => true | _ => false)) = true) ∧
    packet (queued [0x0206, 0x01 * 2 ^ 56 + 0x4800, 0x6000, 0]) 6 (fun q ws u => !q.waiting && q.leaving.isNone && !badWaitmem ws && ok (hubAddr u 0 0 0x4800 .rd)) = true ∧
    (∀ v ∈ [0x6000, 0x7000], packet (queued [0x0206, 0x4800, v, 0] { slot with waiting := true }) 6 (fun q ws u => q.waiting &&
      match hubVirtual u 0 0 0 (blk ws 1 0 56) 8 with | (.ok x, _) => x == 0x6000 && waitHolds 0 x (blk ws 2 0 64) == (v == 0x6000) | _ => false) = true) ∧
    (∀ add ∈ [0, 1], packet (queued [0x0307, add * 2 ^ 56 + 0x6000, 5, 0, 0, 0]) 7 (fun q ws u => blk ws 1 58 6 == 0 && blk ws 3 16 48 == 0 &&
      (match hubAddr u 0 0 0x6000 (if add == 1 then .atomic else .wr) with
        | (.ok pa, w) => packetsReleased w q true && !packetsReleased { w with launches := [(5, { placedLaunch with queue := some 3 })] } q true && !homePoisoned w (.mem pa) && (signalWrite w 0 0 pa 5 (add == 1)).isSome
        | _ => false)) = true) ∧
    packet (queued [0x0307, 0x6000, 5, 0, 0, 0] { slot with stage := 1 }) 7 (fun q _ u => q.stage != 0 && !remotePending u 0 hubTag && !hubAtomPending u) = true := by
  decide +kernel

/-- The unit of a prologue in a run, at a word. -/
def inUnit (words : List Nat) : Prologue :=
  { unit := { newUnit 0 0x1000 0 [] with run := some { freshRun with words := words.map (BitVec.ofNat 64), buf := [] } }, runs := 1 }

/-- The same at its end, with a verdict in v0. -/
def verdict (k : Nat) : Prologue :=
  let p := inUnit [0x0806000000000000]
  { p with unit := p.unit.setV 0 { val := splat k, tag := .u, full := true } }

/-- CommandQueues: INDIRECT before its prologue, at an ADD, and past the limit of runs. -/
theorem witness_CommandQueues_indirect :
    let at' (p : Option Prologue) (f : Prologue → State → QueueSlot → Bool) : Bool := packet (queued (0x0602 :: List.replicate 9 0 ++ [0x1000, 2]) { slot with prologue := p }) 2
      fun q ws u => blk ws 10 56 8 == 0 && blk ws 11 16 48 == 0 && blk ws 11 0 16 == 2 && f (q.prologue.getD (inUnit [])) u q
    at' none (fun _ _ q => q.prologue.isNone) = true ∧
    at' (some (inUnit [0x1000030102000040, 0x0806000000000000])) (fun p u _ => match unitTurn u 0 0 0 p with | (.go _, _) => true | _ => false) = true ∧
    at' (some ⟨newUnit 0 0x1000 0 [], 4096⟩) (fun p u _ => match unitTurn u 0 0 0 p with | (.error 0xF0, _) => true | _ => false) = true := by decide +kernel

/-- CommandQueues: INDIRECT at the end of its prologue with each verdict, one launch of two having been made or none. -/
theorem witness_CommandQueues_verdicts :
    let at' (k : Nat) (f : Prologue → State → QueueSlot → Bool) : Bool :=
      packet (queued (0x0602 :: List.replicate 9 0 ++ [0x1000, 2]) { slot with prologue := some (verdict k) }) 2
        fun q ws u => blk ws 10 56 8 == 0 && blk ws 11 16 48 == 0 && blk ws 11 0 16 == 2 && q.leaving.isNone && f (q.prologue.getD (inUnit [])) u q
    let made (g : Group) : Body := ⟨(List.range 9).map fun i => BitVec.ofNat 64 (lane (g.vreg (i + 1)).val 0)⟩
    (∀ k ∈ [0, 2], at' k (fun p u q => match unitTurn u 0 0 0 p with
      | (.done g, w) => lane (g.vreg 0).val 0 == k && (match handOver w 0 q (made g) with | (.ok, _) => true | _ => false) && decide (q.made + 1 < 2) &&
        decide (2 ≤ { q with made := 1 }.made + 1)
      | _ => false) = true) ∧
    at' 1 (fun p u _ => match unitTurn u 0 0 0 p with
      | (.done g, w) => lane (g.vreg 0).val 0 == 1 && (match optionalAddr w 0 0 ((made g).f 5 0 56) .wr with
        | (.ok _, w) => (match optionalAddr w 0 0 ((made g).f 6 0 56) .wr with
          | (.ok stat, w) => (decrementDone (if (made g).f 6 0 56 = 0 then w else hubWrite w stat 8 0x13) none 0 0).isSome
          | _ => false)
        | _ => false)
      | _ => false) = true := by decide +kernel

/-- CommandQueues: doorbells of a queue in a slot, of one with no slot left or a slot free, and of one that has stopped; a launch that is
over, and one that is not; a word of HBM that DONE names; a packet of the ring. -/
theorem witness_CommandQueues :
    let s : State := (queued []).setPart 0 { placedPart with qtab := 0x7000, quota := 1 }
    let t : State := { s with hbm := store64 s.hbm 0x7018 [0x8000, 0x9000], launches := [(5, { placedLaunch with ended := 1 }), (6, placedLaunch)] }
    let stopped : State := { t with hbm := store64 t.hbm 0x8020 [2] }
    let roomy : State := t.setPart 0 { placedPart with qtab := 0x7000, quota := 2 }
    (∃ p, t.part? 0 = some p ∧ qcbOf t p 3 = 0x8000 ∧ qcbOf t p 4 = 0x9000 ∧ bits (qcbWord t 0x8000 0x20) 0 2 ≠ 2 ∧ bits (qcbWord t 0x9000 0x20) 0 2 ≠ 2 ∧
      qcbOf stopped p 3 = 0x8000 ∧ bits (qcbWord stopped 0x8000 0x20) 0 2 = 2 ∧ p.clearing = false ∧ p.serves = true) ∧
    (slotsOfPart t 0).find? (fun e => e.2.qid == 3) = some (0, slot) ∧ (slotsOfPart t 0).find? (fun e => e.2.qid == 4) = none ∧ freeSlot t 0 = none ∧
      freeSlot roomy 0 = some 1 ∧ (slotsOfPart roomy 0).find? (fun e => e.2.qid == 4) = none ∧ awaited t 0 4 = false ∧ awaited roomy 0 4 = false ∧
      regionOf 0x9000 = .hbm ∧ 0x9000 % 128 = 0 ∧ t.l2 = [] ∧
    ((t.launch? 5).map fun l => (l.ended, l.total, l.unsettled, l.stat, l.done)) = some (1, 1, [], 0, 0) ∧
      ((t.launch? 6).map fun l => (l.ended, l.total)) = some (0, 1) ∧ (endWord t placedLaunch placedLaunch.stat).1 = some none ∧
      (decrementDone t none 0 0).isSome = true ∧ regionOf 0x6000 = .hbm ∧ homeBusy t (.mem 0x6000) = false ∧ homePoisoned t (.mem 0x6000) = false ∧
      readHome t (.mem 0x6000) 8 = 2 ∧ slot.taking = false ∧ slot.leaving = none := by
  exact ⟨⟨_, rfl, by decide +kernel⟩, by decide +kernel⟩

/-- A partition descriptor for the clusters of a mask, with a quota of 1 and no range. -/
def described (mask part : Nat) (good : Bool := true) : State :=
  { ready with
    hbm := store64 [] 0x5000 [mask + 2 ^ 32, 64 * 2 ^ 16, 0, 0, 0, 0, if good then 8 else 7]
    host := { ready.host with devst := 1, pdaddr := 0x5000 }
    parts := [(0, { placedPart with quota := part })] }

/-- StandsAndPartitions: a stand that fits; one handed over before and after START; one that has ended; a group to be discarded; a partition
that is cleared, restored and removed; descriptors that create, update and are refused, and an image that is read; a quantum that has passed
and one that has not; a queue that waits, of a higher and of the same priority as the one in the slot, which is busy or not. -/
theorem witness_StandsAndPartitions :
    let l : Launch := { placedLaunch with placed := 0, scratch := 2, lease := 1, seq := 5 }
    let s : State := { ready with launches := [(0, placedLaunch), (5, l)] }
    let st : Stand := (ready.stand? 0).getD placedStand
    let early : State := { ready.putStand 0 { st with handed := false } with launches := [(0, { placedLaunch with start := 7 })] }
    let ended : State := { ready.putStand 0 { st with ended := true } with groups := [] }
    let x : Context := ⟨[], ready.groups, ready.stands, [], [], [], []⟩
    let booting : State := ready.setPart 0 { placedPart with booting := true, imgaddr := 0x5000, imgsize := 8 }
    let idle (bprio : Nat) : State := { queued [] with
      hbm := store64 (store64 (store64 [] 0x7018 [0x8000, 0x9000]) 0x8018 [0]) 0x9018 [bprio * 2 ^ 28], idle := [⟨0, 4, 0⟩] }
    let tabled : Partition := { placedPart with qtab := 0x7000 }
    let saved : State := ready.setPart 0 { placedPart with context := some x }
    let late : State := { ready with devTime := 200000 }
    (s.launch? 5 = some l ∧ placedPart.issues = true ∧ (match s.part? 0 with
      | some p => decide (nextLaunch s 0 p = some 5) && (match chosenCore s p l with
        | some c => decide (takeUnits s c l.scratch = some [0, 1]) && (grantLease s p l c).isSome
        | none => false)
      | none => false) = true) ∧
    (early.devTime < (7 : Word) ∧ ({ early with devTime := 7 }.launch? 0).map Launch.start = some 7 ∧ (early.stand? 0).map (·.handed) = some false) ∧
    (standIdle ended 0 = true ∧ unitStores ended { st with ended := true } = false ∧ st.killed = false ∧ (st.lease.map (·.count)) = some 0) ∧
    (∀ r, (group ready).run = some r → r.committed = false) ∧ (group ready).dbg.request = false ∧ (group ready).retired = false ∧ (seatOf ready 0).isSome = true ∧
    ((ready.part? 0).map fun p => (p.context, p.stopped)) = some (none, false) ∧
    ((saved.part? 0).map fun p => (p.context, p.stopped, p.cgmask)) = some (some x, false, 1) ∧ clustersTaken saved 0 1 = false ∧ saved.nodes = [] ∧
      (x.groups.Pairwise fun a b => a.1 < b.1) ∧
    (∀ e ∈ [(described 2 1, 0x11), (described 1 1, 0x02), (described 2 1 false, 0x11)], pdMay e.1 (BitVec.ofNat 64 e.2) = true) ∧
    (match hubBytes (described 2 1) controlWho 0x5000 256 with
      | (.ok y, u) => !(⟨wordsFrom y 32⟩ : Descriptor).bad && !(⟨wordsFrom y 32⟩ : Descriptor).clashes (dropHubReads u controlWho) 1 &&
        !(⟨wordsFrom y 32⟩ : Descriptor).overQuota (dropHubReads u controlWho) 1 && (u.part? 1).isNone
      | _ => false) = true ∧
    (match hubBytes (described 1 1) controlWho 0x5000 256 with
      | (.ok y, u) => !(⟨wordsFrom y 32⟩ : Descriptor).bad && !(⟨wordsFrom y 32⟩ : Descriptor).clashes (dropHubReads u controlWho) 0 &&
        decide ((⟨wordsFrom y 32⟩ : Descriptor).mask = placedPart.cgmask) && decide ((⟨wordsFrom y 32⟩ : Descriptor).ranges = placedPart.ranges) &&
        (⟨wordsFrom y 32⟩ : Descriptor).f 0x10 0 56 == placedPart.sysarea && !(⟨wordsFrom y 32⟩ : Descriptor).overQuota (dropHubReads u controlWho) 0
      | _ => false) = true ∧
    (match hubBytes (described 2 1 false) controlWho 0x5000 256 with
      | (.ok y, _) => (⟨wordsFrom y 32⟩ : Descriptor).bad
      | _ => false) = true ∧
    pdOp 0x11 = 1 ∧ pdPart 0x11 = 1 ∧ pdOp 0x02 = 2 ∧ pdMay { saved with host := { saved.host with devst := 1 } } 0x03 = true ∧ pdOp 0x03 = 3 ∧
    (described 2 1).part? 1 = none ∧ (match hubBytes booting (imageWho 0) 0x5000 8 with | (.ok _, _) => true | _ => false) = true ∧
    ((idle 3).slots.Pairwise fun a b => a.1 < b.1) ∧ Sparse.find? (idle 3).slots 0 = some slot ∧ slotsOfPart { idle 3 with slots := [] } 0 = [] ∧
      (idle 3).idle.filter (fun e => e.part == 0) = [⟨0, 4, 0⟩] ∧ qcbOf (idle 3) tabled 4 = 0x9000 ∧ (idle 3).l2 = [] ∧
      bestIdle (idle 3) 0 tabled = some ⟨0, 4, 0⟩ ∧ worstMapped (idle 3) 0 = some (0, slot) ∧ slot.busy = false ∧
      queueEff slot.bprio slot.age < idleEff (idle 3) tabled ⟨0, 4, 0⟩ ∧ idleEff (idle 0) tabled ⟨0, 4, 0⟩ ≤ queueEff slot.bprio slot.age ∧
      { slot with current := true }.busy = true ∧
    placedPart.quantum < late.devTime.toNat / 100000 ∧ placedPart.serves = true ∧ (slotsOfPart late 0).length ≤ placedPart.quota ∧
    ready.devTime.toNat / 100000 ≤ placedPart.quantum := by decide +kernel

/-- BanksAndPhases: a bank whose third request is due because its row is open, one whose row is shut below and at the threshold, one that
backs off, one that serves a request, and an idle one; a pseudo-channel that may change its phase either way, and one that may not. -/
theorem witness_BanksAndPhases :
    let q (row : Nat) : BankReq := ⟨row, 0, row⟩
    let s (b : Bank) : State := ready.setBank 0 b
    let opened : Bank := { Bank.idle with opened := some 3, queue := [q 1, q 2, q 3], passed := 5 }
    let shut : Bank := { Bank.idle with queue := [q 3] }
    let full' : Bank := { shut with counters := [(3, thresholdOf (s shut) 0 3 - 1)] }
    let chan (x : Pchan) : State := { ready with pchans := [(0, x)] }
    opened.pick = (2, 6) ∧ opened.queue[2]? = some (q 3) ∧ { opened with passed := 16 }.pick = (0, 0) ∧ shut.pick = (0, 0) ∧
    (∀ b ∈ [opened, shut, full'], ((s b).bank 0).backoff = false ∧ ((s b).bank 0).serving = none ∧ ((s b).pchan 0).compute = false ∧
      ((s b).bank 0).queue[((s b).bank 0).pick.1]? = some (q 3)) ∧ ((s opened).bank 0).opened = some 3 ∧ 1 < thresholdOf (s shut) 0 3 ∧
      thresholdOf (s full') 0 3 ≤ Sparse.getD ((s full').bank 0).counters 3 0 + 1 ∧
    ((s { shut with backoff := true }).bank 0).backoff = true ∧ ((s { shut with serving := some 3 }).bank 0).serving = some (q 3).id ∧
      ((s { shut with serving := some 4 }).bank 0).serving ≠ some (q 3).id ∧
    ((chan { Pchan.idle with queue := [4] }).pchan 0).queue ≠ [] ∧ requestsWaiting (chan { Pchan.idle with queue := [4] }) 0 = false ∧
    ((chan { Pchan.idle with compute := true }).pchan 0).compute = true ∧ ((chan { Pchan.idle with compute := true }).pchan 0).queue = [] ∧
    requestsWaiting ready 0 = false ∧ requestsWaiting (s shut) 0 = true ∧
    (ready.pchan 0).queue = [] ∧ regionOf 0 = .hbm ∧ (ready.bank (bankOf 0)).queue = [] ∧ (ready.bank (bankOf 0)).backoff = false ∧
      (ready.bank (bankOf 0)).serving = none ∧ (ready.pchan (bankOf 0 / 64)).compute = false ∧ Sparse.find? ready.l2 0 = none := by decide +kernel

def integerTile : Tile := { float := false, m := 2, n := 2, span := 1, home := 0, units := [(0, 0)], elems := [], poison := false }

/-- PlatesAndFailures: a window that has passed; a placement whose row is sound, and one whose row is not; the copies of a cluster, a
worker, and a tile that a command reads; a core with a stand and one with none; a log with room and one that is full; and the vector of a
fatal error. -/
theorem witness_PlatesAndFailures :
    let e : PlateEntry := { PlateEntry.parse 0 with state := 1, first := 3, pcnt := 1, seq := 9 }
    let s : State := (ready.setEntry 0 e.words)
    let bad : State := s.setCellRow (plateKey 0 3) 0 1
    let reader : Cmd := { newCmd .xdrain (some 0) (some 0) 0 0 0 [0, 0x1000000000000000] 0 with started := true }
    let tiled : State := { ready.modStand 0 fun st => { st with tiles := [(1, integerTile)] } with cmds := [(4, reader)] }
    let fullLog : State := { ready with host := { ready.host with elprod := 1024 } }
    { ready with devTime := 1000000000 }.window ≠ { ready with devTime := 1000000000 }.devTime.toNat / 1000000000 ∧ ready.window = ready.devTime.toNat / 1000000000 ∧
    Sparse.wf Plate.fresh ready.plates = true ∧ passUnderWay s 0 = false ∧ Sparse.wf 0 s.directory = true ∧ (s.placed 0).map (fun e => (e.2.state, e.2.first, e.2.pcnt)) = [(1, 3, 1)] ∧
      rowSound (s.cellRow (plateKey 0 3) 0) = true ∧ rowSound (bad.cellRow (plateKey 0 3) 0) = false ∧ (bad.placed 0).length = 1 ∧
    SramUnit.of 7 = .clusterCopies 0 ∧ SramUnit.of 8 = .worker 0 ∧ SramUnit.of 16 = .tile 0 1 ∧ (tiled.stand? 0).isSome = true ∧
      ((tiled.stand? 0).bind fun st => Sparse.find? st.tiles 1) = some integerTile ∧
      ((tiled.cmd? 4).map fun k => k.readsTile 0 1) = some true ∧ (SramUnit.of 16).victims tiled = [] ∧ (SramUnit.of 0).victims tiled = [0] ∧
    (∀ x ∈ ready.stands, x.2.core ≠ 5) ∧ (∃ x ∈ ready.stands, x.2.core = 0) ∧ (ready.part? 0).isSome = true ∧ ready.host.elprod - ready.host.elcons ≠ 1024 ∧
    fullLog.host.elprod - fullLog.host.elcons = 1024 ∧ { ready.host with fatalvec := 7 }.fatalvec.toNat ≤ 2047 := by decide +kernel

/-! #### Fields, engines, the debugger and the whole machine -/

/-- A command of the group in core 0 with a block, read and prepared. -/
def command (kind : CmdKind) (block : List Nat) : Cmd :=
  { newCmd kind (some 0) (some 0) 0 0 0 (block.map (BitVec.ofNat 64)) 0 with prepared := true }

def commanded (ks : List (Nat × Cmd)) : State := { ready with cmds := ks, clusters := [(0, { Cluster.idle with tlb := [page] })] }

/-- A tensor record of a code. -/
def recordOf (code : Nat) : List Word := [BitVec.ofNat 64 (0x2000 + 2 ^ 56 * (32 + code)), 0, 0, 0, 0, 0, 0, 0]

/-- FieldSteps: two commands of which one is granted, with no pass under way; a streamed product of integers; commands of each kind that
have done their work; a command that may move to the one adjacent field, or to the second where the first does not take it. -/
theorem witness_FieldSteps :
    let mul : Cmd := { command .xmma [0x400, 2 ^ 60] with recs := [recordOf 5, recordOf 5], total := 1 }
    let s : State := commanded [(4, { mul with block := [], core := 1, since := 3 }), (5, { mul with since := 2 })]
    let st : Stand := { (ready.stand? 0).getD placedStand with tiles := [(1, integerTile)] }
    let fin (kind : CmdKind) (told : Bool) : Cmd := { command kind [0x400] with computed := true, cplt := some (.mem 0x400), pour := { Pour.start with told := told } }
    let old (cl : Nat) (others : List (Nat × Cmd)) : State := { (commanded ((4, { mul with cluster := cl }) :: others)).putStand 0
      { st with tiles := [(1, { integerTile with home := cl })] } with tick := 8192 }
    let full' : List (Nat × Cmd) := [(5, { command .pour [] with cluster := 3, pour := { Pour.start with left := 1 } })]
    s.withheld = false ∧ granted s 0 = some (5, { mul with since := 2 }) ∧ ({ mul with since := 2 } : Cmd).ready = true ∧ mul.stand.bind s.stand? ≠ none ∧ (List.range mul.span).all (fun j => !passUnderWay s j) = true ∧
    mul.sat = false ∧ classOf (codeOf (mul.rec? 0)) = some .int ∧ classOf (mul.weightCode st) = some .int ∧
    (∀ e ∈ [(CmdKind.xmma, false), (.pour, true), (.cpy, false), (.nmx, false)],
      let k := fin e.1 e.2
      let u := commanded [(4, k)]
      (u.cmd? 4).isSome = true ∧ k.killed = false ∧ writesApplied u 4 k = true ∧ regionOf 0x400 = .hbm ∧ readHome u (.mem 0x400) 8 ≠ 1 ∧
        k.damaged u st = false ∧ agentOwned u 4 0x400 = false ∧ staleLine u 0x400 = false ∧ homePoisoned u (.mem 0x400) = false ∧
        traceOn u 0 0 0 2 = false) ∧
    (∀ e ∈ ([(0, 1, []), (1, 0, []), (4, 5, full')] : List (Nat × Nat × List (Nat × Cmd))),
      let k : Cmd := { mul with cluster := e.1 }
      let u : State := old e.1 e.2.2
      u.cmd? 4 = some k ∧ k.streamed = true ∧ k.spanc = 0 ∧ k.started = false ∧ k.since + 8192 ≤ u.tick.toNat ∧ k.computed = false ∧
        (u.stand? 0).bind (·.tile? k.hacc) = some { integerTile with home := e.1 } ∧ (∀ x ∈ e.2.2, x.2.accHandle ≠ some k.hacc) ∧
        takesCommand u e.2.1 integerTile.units.length = true) ∧
    takesCommand (old 4 full') 3 integerTile.units.length = false := by decide +kernel

/-- An image: a pool, G.SET0 of row 5, and G.END; and one whose first word is a gate. -/
def image : List Nat := [0xD180000000001840, 0x800A000000000000, 0]

/-- A pour of plate 0 of a lease of one plate, its image read. -/
def pouring (words : List Nat) : Cmd :=
  let d : LineBits := BitVec.ofNat 1024 (packElems 64 (fun i => words.getD i 0) 16)
  { command .pour [0x400, 0x2000, 0, 0, 0, 2 ^ 16, 511 * 2 ^ 16 + 2 ^ 48 * 100] with lines := [(0x2000, d)], prepared := false }

def pourStand : Stand := { (ready.stand? 0).getD placedStand with lease := some ⟨0, 1, 1, 0⟩ }

/-- PourSteps, the prescan: a block that fails its check, an image with a fault and one without. -/
theorem witness_PourSteps_prescan :
    let bad : Cmd := { pouring image with block := [0x400, 0x2001].map (BitVec.ofNat 64) }
    let s (k : Cmd) : State := (commanded [(4, k)]).putStand 0 pourStand
    bad.pourCheck pourStand = 0x01 ∧ (pouring image).pourCheck pourStand = 0 ∧
    (∀ k ∈ [bad, pouring image, pouring [0x100B018000000000, 0]], (s k).cmd? 4 = some k ∧ eligible (s k) 4 k = true ∧ k.stand.bind (s k).stand? = some pourStand ∧
      k.computed = false ∧ k.killed = false ∧ k.pour.scanned = false ∧ k.toOwn = [] ∧ k.toRead = [] ∧ k.passes = 0 ∧ k.prepared = false) ∧
    (s { bad with passes := 1 }).cmd? 4 = some { bad with passes := 1 } ∧ eligible (s { bad with passes := 1 }) 4 { bad with passes := 1 } = true ∧
    ({ bad with passes := 1 } : Cmd).pourCheck pourStand = 0x01 ∧ ({ pouring image with passes := 1 } : Cmd).pourCheck pourStand = 0 ∧
    (takeWords (pouring image) 4 []).length = 3 ∧ (takeWords (pouring image) 4 []).getLast?.any isEnd = true ∧
    prescan (pouring image) (takeWords (pouring image) 4 []) (some 2) = none ∧
    prescan (pouring [0x100B018000000000, 0]) (takeWords (pouring [0x100B018000000000, 0]) 4 []) (some 1) = some (0x10, 0) := by decide +kernel

/-- PourSteps: a pour at a gate step of each kind; a step that is made and one that the governor refuses; a pour that has only RESULT to
write, one the image of which failed, and one with a read image for the poisoned line of RESULT. -/
theorem witness_PourSteps :
    let at' (w : Nat) : Cmd := { pouring [] with pour := { Pour.start with image := [BitVec.ofNat 64 w], left := 1, scanned := true } }
    let s (k : Cmd) : State := (commanded [(4, k)]).putStand 0 pourStand
    let ended : Cmd := { pouring image with computed := true, addr := 0x3000 }
    let early : Cmd := { ended with code := 0x0E }
    let spoilt : Cmd := { ended with out := [storeAt (.mem 0x3000) 0 7], places := [(0x3000, 1)], addr := 0x3000 }
    let busy : State := ready.setPlate 7 { Plate.fresh with rows := [(5, writeLimit)] }
    (∀ w ∈ ([0x100B018000000000, 0x280B018120000000, 0x380B018120080000, 0x480B018120000000, 0x580B018120000000, 0x680B018120000000, 0x700B018000000000,
      0x800A000000000000, 0x900A000000000000, 0xA001018000000000, 0xB00A000000000002] : List Nat),
      (s (at' w)).cmd? 4 = some (at' w) ∧ (at' w).stand.bind (s (at' w)).stand? = some pourStand ∧ (at' w).killed = false ∧ (at' w).pour.left ≠ 0 ∧
        Word.field ((at' w).pour.image.getD 0 0) 60 4 = w / 2 ^ 60) ∧
    (match gateStep ready false 5 0 511 0 [] with | (.made, _, _) => true | _ => false) = true ∧ (busy.plate 7).allows false 5 = false ∧
    (∀ ps ∈ ([[], [(0x3000, 1)]] : List (List (Nat × Nat))), let k : Cmd := { ended with places := ps }
      (s k).cmd? 4 = some k ∧ writesApplied (s k) 4 { k with out := k.out.filter fun x => !k.withResult x } = true ∧ k.killed = false ∧
        k.pour.told = false ∧ k.failedEarly = false ∧ poisonedResult (s k) k = none) ∧ early.failedEarly = true ∧ early.computed = true ∧
      (poisonedResult { s spoilt with poisoned := [0x3000] } spoilt).isSome = true ∧ spoilt.failedEarly = false ∧
      writesApplied { s spoilt with poisoned := [0x3000] } 4 { spoilt with out := spoilt.out.filter fun x => !spoilt.withResult x } = true ∧ ended.places = [] ∧ (ended.reach (s ended) ended.resultAt .wr).1 = .found 0x3038 := by decide +kernel

/-- EngineSteps: lines free and lines owned; a line to read, sound and poisoned; a line to write; a contribution that agrees and one that
does not; a record to arm; and an NMX at the head of its phase queue. -/
theorem witness_EngineSteps :
    let own : Cmd := { command .cpy [] with toOwn := [0x400], toRead := [] }
    let rd : Cmd := { command .cpy [] with toRead := [0x800], map := [(0x800, 0x800)] }
    let wr : Cmd := { command .cpy [] with computed := true, out := [storeAt (.mem 0x400) 0 7] }
    let team : LineBits := BitVec.ofNat 1024 (2 + 5 * 2 ^ 64 + 6 * 2 ^ 128)
    let c (d : Word) : Contribution := ⟨0, 1, d, [5, 6], []⟩
    let coll : Cmd := { command .coll [0x400, 0, 0, 0x2000] with started := true, lines := [(0x2000, team)], contributions := [{ c 9 with rank := 0 }] }
    let a : Arming := ⟨3, 0, 1, some (.mem 0x6000), 0x6000, 0, 0, 0⟩
    let before (va : Nat) : Arming := { a with loc := none, va := va }
    let arm : State := { commanded [] with arming := [a], hbm := store64 [] 0x6000 [2] }
    let nmx : Cmd := { command .nmx [0, 0, 0, 0, 1, 0x700] with places := [(0x10000, 0x20000)] }
    let q : State := { commanded [(4, nmx)] with pchans := [(0, { Pchan.idle with queue := [4], compute := true })] }
    (regionOf 0x400 = .hbm ∧ Sparse.find? { commanded [(4, own)] with owners := [(0x400, 9)] }.owners 0x400 = some 9 ∧ (commanded [(4, own)]).owners = [] ∧ parkedFor (commanded [(4, own)]) 0x400 = [] ∧
      (List.range 128).all (fun h => decide (ownedIn (commanded [(4, own)]) h + (own.toOwn.filter fun pa => regionOf pa == .hbm && sliceOf pa == h).length ≤ 4096)) = true) ∧
    (rd.map.find? (fun e => e.1 == 0x800) = some (0x800, 0x800) ∧ agentBlocked (commanded [(4, rd)]) 4 0x800 = false ∧ 0x800 ∉ (commanded [(4, rd)]).poisoned ∧
      0x800 ∈ { commanded [(4, rd)] with poisoned := [0x800] }.poisoned) ∧
    (((commanded [(4, wr)]).cmd? 4).map Cmd.forWriting = some wr ∧ wr.withResult (storeAt (.mem 0x400) 0 7) = false ∧
      poisonedImage (commanded [(4, wr)]) wr (storeAt (.mem 0x400) 0 7) = false ∧ wr.out.find? (fun x => x.line.key == (Loc.mem 0x400).key) = some (storeAt (.mem 0x400) 0 7)) ∧
    (coll.teamSize = 2 ∧ coll.tag = 0 ∧ coll.members = [5, 6] ∧ (∀ d ∈ coll.contributions, d.rank ≠ 1) ∧ [c 9].find? (fun c => c.tag == 0 && c.rank == 1 && c.members == [5, 6]) = some (c 9) ∧
      [c 8].find? (fun c => c.tag == 0 && c.rank == 1 && c.members == [5, 6]) = some (c 8) ∧
      (coll.contributions ++ [c 9]).length = coll.teamSize) ∧
    (arm.arming.find? (fun a => a.id == 3) = some a ∧ (match readRecord arm 0 (.mem 0x6000) with
        | (.words ws, u) => !badNode ws && u.nodes.isEmpty && !homeBusy u (.mem 0x6000) && decide (0 < signedOf 64 (readHome u (.mem 0x6000) 8)) &&
          ((Sparse.find? u.groups 0).map fun g => !g.retired && g.stand == a.stand).getD false
        | _ => false) = true) ∧
    ((group ready).retired = false ∧ (group ready).stand = a.stand) ∧
    ((clusterAddr { arm with arming := [before 0x6000] } 0 0 0 0x6000 .rd).1 = .found 0x6000 ∧
      (clusterAddr { arm with arming := [before (2 ^ 40)] } 0 0 0 (2 ^ 40) .rd).1 = .lost) ∧
    ((q.pchan 0).queue = [4] ∧ (q.pchan 0).compute = true ∧ q.cmd? 4 = some nmx ∧ q.owners = [] ∧ q.casts = [] ∧ q.poisoned = [] ∧
      linesAt nmx.rangeElems = [0x10000] ∧ nmx.nmxOut = 0 ∧ nmx.map = [] ∧ nmx.passes = 0 ∧ q.heldReads = [] ∧ q.recalls = [] ∧ q.l2 = [] ∧
      ((q.setBank (bankOf 0x10000) { Bank.idle with backoff := true }).bank (bankOf 0x10000)).backoff = true ∧
      agentBlocked q 4 0x10000 = false) := by decide +kernel

/-- A value of DBGCTL for group 0. -/
def dbg (op : Nat) : Word := BitVec.ofNat 64 (op * 2 ^ 16)

/-- Debugging: each command for a group that is claimed or not, stopped or not; a breakpoint at a run that is fetched; a sample due of a
group and of none; a tick at which the clocks stop; a snapshot that is due; a command that waits for another, for a save area or for a
buffer of the host. -/
theorem witness_Debugging :
    let s (f : GroupDebug → GroupDebug) : State := ready.modGroup 0 fun g => { g with dbg := f g.dbg }
    let claimed := s fun d => { d with claimed := true }
    let stopped := s fun d => { d with claimed := true, stopped := true, cause := 1 }
    let load (u : State) : State := { u.setPart 0 { placedPart with dbg := { DebugPage.reset with dumpaddr := 0x9000 } } with
      hbm := store64 [] 0x9000 [(0x340 + 8 * 64) / 16 + 64 * 2 ^ 32]
      launches := Sparse.modify u.launches 0 fun l => { l with mregs := 0 } }
    let bp : State := ((standing [0x0400010000000002, 0x0C04000000000000, 0x0800000000000000]).modGroup 0 fun g =>
      { g with dbg := { g.dbg with claimed := true }, slotA := { g.slotA with run := some ⟨0x1000, [0x0400010000000002, 0x0C04000000000000, 0x0800000000000000].map (BitVec.ofNat 64)⟩ } }).setPart 0
        { placedPart with dbg := { DebugPage.reset with bps := [0x1001, 0, 0, 0] } }
    let sampled : State := (ready.setPart 0 { placedPart with dbg := { DebugPage.reset with sampctl := 1 } })
    let waiting : State := ready.setPart 0 { placedPart with dbg := { DebugPage.reset with pending := [dbg 4] } }
    let halted : State := (s fun d => { d with claimed := true, stopped := true, cause := 3 }).modGroup 0 fun g => { g with susp := g.run, accs := [reading (.mem 128)] }
    let away : State := stopped.setPart 0 { placedPart with dbg := { DebugPage.reset with dumpaddr := 2 ^ 48 } }
    let due : State := { ready.setPart 0 { placedPart with dbg := { DebugPage.reset with pmtick := 7 } } with tick := 7 }
    (∀ op ∈ ([1, 2, 3, 4, 5, 6, 7] : List Nat), dbgOp (dbg op) = op ∧ dbgGroup (dbg op) = 0 ∧ (dbgFind ready 0 0).isSome = true ∧ (dbgFind stopped 0 0).isSome = true) ∧
    claimedCount ready 0 < 16 ∧ (group ready).dbg.claimed = false ∧ (group claimed).dbg.claimed = true ∧ (group claimed).dbg.stopped = false ∧
    (group stopped).dbg.cause ≠ 3 ∧ ((group stopped).slot ((dbg 5).getLsbD 20)).st.live = true ∧ (group stopped).returnedRun = false ∧ regionOf (dumpBuffer stopped 0) = .hbm ∧ stopped.l2 = [] ∧
    (match hubBytes (nameGroup (load stopped) 0 0) 65 0x9000 16 with
      | (.ok head, u) => (match hubBytes u 65 0x9000 (min (bits head 0 32 * 16) recordMax) with | (.ok x, _) => (dbgFind (load stopped) 0 0).any fun e => !recBad x e.2.2 | _ => false)
      | _ => false) = true ∧
    (match seatOf bp 0 with
      | some (g, st, _) => groupActs bp 0 && g.stands false && (g.slot false).run.isSome && setFull g (g.slot false) && g.dbg.skip.isEmpty && g.dbg.step.isNone &&
        ((bp.part? st.part).map fun p => breakpointAt p.dbg (g.slot false).st.pc).getD false
      | none => false) = true ∧
    partOfCore sampled 0 = some 0 ∧ samplePeriod { DebugPage.reset with sampctl := 1 } ≠ 0 ∧ Sparse.getD (sampled.core 0).sampled 4 0 ≠ sampled.tick.toNat + 1 ∧
      nextSample sampled 0 0 0 = some 0 ∧ nextSample sampled 0 1 0 = none ∧ (seatOf sampled 0).isSome = true ∧
    { ready with host := { ready.host with stopArmed := true } }.tick = { ready with host := { ready.host with stopArmed := true } }.host.stoptick ∧
    ((due.part? 0).map fun p => (p.dbg.pmtick, due.tick)) = some (7, 7) ∧
    (ready.part? 0).map (·.dbg.pending) = some [] ∧ (waiting.part? 0).map (·.dbg.pending.head?) = some (some (dbg 4)) ∧ dbg 4 ≠ dbg 1 ∧
    (group halted).dbg.stopped = true ∧ resumable (nameGroup halted 0 0) 0 (group halted) = false ∧
    (hubBytes (nameGroup away 0 0) 65 (dumpBuffer away 0) 16).1 = .wait := by decide +kernel

/-- In the reset state no turn that the machine owes changes anything. -/
theorem reset_owes_nothing (t : Turn) (h : owed t = true) : turn t State.reset = .next State.reset := by
  cases t with
  | issue => rfl
  | event i =>
    cases i
    case hbmRequest bank index => cases index <;> rfl
    all_goals first | rfl | simp [owed] at h

/-- FairRunsProgress: a fair run, which stays in the reset state. -/
theorem witness_FairRunsProgress :
    (State.reset.agenda = [] ∧ State.reset.host.stopped = false) ∧
    ∃ c r, FairRun c r ∧ ∀ m, ∀ e ∈ (c.before m (r m)).groups, e.2.txn.bind (·.flagged) = none :=
  have still : ageSlots (passTime State.reset 0) = State.reset := by decide +kernel
  have before : ∀ n, (⟨fun _ => .issue 0 0, fun _ => 0⟩ : Schedule).before n State.reset = State.reset := fun _ => still
  ⟨⟨rfl, rfl⟩, ⟨fun _ => .issue 0 0, fun _ => 0⟩, fun _ => State.reset,
    ⟨fun n => by rw [before n]; exact reset_owes_nothing (.issue 0 0) rfl,
      fun t h n e => absurd (reset_owes_nothing t h) (by simpa only [before n] using (e n (Nat.le_refl n)).2.2)⟩,
    fun m e h => by rw [before m] at h; exact nomatch h⟩

/-- StepRunsDecodedInstruction: a turn of scheduler 0 with a group in issue, an event, and a word in place of a load; DecodeInvertsEncode:
an instruction that has a word; StepKeepsCanonical: a canonical state from which a step is made. -/
theorem witness_Steps :
    let s : State := { machine [0x1000030102000040] [(1, splat 1), (2, splat 2), (3, 0)] with agenda := [.issue 0 0] }
    let u := ageSlots (cycleWork { s with agenda := [] })
    (stopDue u = false ∧ u.host.stopped = false ∧ u.withheld = false ∧ coreStopped u 0 = false ∧ (match inIssue u 0 0 with
      | some (gid, g, r) => gid == 0 && decide (Sparse.find? u.groups gid = some g) && !(g.preempt && !r.committed) && r.instr.isSome
      | none => false) = true) ∧
    isEvent .powerLoss = true ∧ stopDue (ageSlots (cycleWork { ready with agenda := [] })) = false ∧ (decodeTableWord 64 0x1000030102000040).isSome = true ∧
    State.reset.host.stopped = false ∧ State.reset.host.stopArmed = false ∧ State.reset.parts = [] ∧
    (Instr.add (ops (v 3) (v 1) (v 2) .none .ui16 0)).wf = true ∧ encode (.add (ops (v 3) (v 1) (v 2) .none .ui16 0)) ≠ [] ∧
    (match step s with | .next _ => Memory.wf s.hbm && Memory.wf s.pads && Memory.wf s.loadWindow | _ => false) = true := by decide +kernel

end Sys2Proof.Tests
end

section
/-! SUPPORT. The codes of the float formats: what a rounded result is, a code of its format's width (R43, R49), so that writing it to an
element loses nothing; and what a float instruction of one operand does to its destination (R115, R135). -/

namespace Sys2Proof.Machine

/-! ### Every float result is a code of its format -/

/-- The codes that a format names, its greatest finite value, its infinity and its NaN, fit its width. -/
structure FloatFmt.Fits (f : FloatFmt) : Prop where
  width_pos : 0 < f.width
  maxFinite_lt : f.maxFinite < 2 ^ (f.width - 1)
  inf_lt : ∀ i, f.inf = some i → i < 2 ^ (f.width - 1)
  nan_lt : f.nan < 2 ^ f.width

theorem fits_of_floatFmt {fmt : Fmt} {f : FloatFmt} (h : floatFmt fmt = some f) : f.Fits := by
  cases fmt <;> cases h <;> exact ⟨by decide, by decide, by decide, by decide⟩

/-- The float format of a code has the width of its elements (R43). -/
theorem width_of_floatFmt {fmt : Fmt} {f : FloatFmt} (h : floatFmt fmt = some f) : f.width = fmt.width := by
  cases fmt <;> cases h <;> rfl

theorem opFloat_of_floatFmt {o : Ops} {f : FloatFmt} (h : floatFmt o.fmt = some f) : opFloat o = f := by
  simp [opFloat, h]

namespace FloatFmt.Fits

variable {f : FloatFmt} (hf : f.Fits)
include hf

theorem two_pow_width : 2 ^ f.width = 2 ^ (f.width - 1) + 2 ^ (f.width - 1) := by
  rw [← Nat.two_mul, ← Nat.pow_succ', Nat.succ_eq_add_one, Nat.sub_add_cancel hf.width_pos]

theorem signed_lt {m : Nat} (n : Bool) (hm : m < 2 ^ (f.width - 1)) : f.signed n m < 2 ^ f.width := by
  rw [hf.two_pow_width]
  unfold FloatFmt.signed
  split <;> omega

theorem signed_zero_lt (n : Bool) : f.signed n 0 < 2 ^ f.width := hf.signed_lt n (Nat.two_pow_pos _)

theorem overflow_lt (ov : Overflow) (rm : Nat) (n : Bool) : f.overflow ov rm n < 2 ^ f.width := by
  have hmax := hf.signed_lt n hf.maxFinite_lt
  have hnan := hf.nan_lt
  unfold FloatFmt.overflow
  extract_lets max toInf
  split
  · exact hmax
  · exact hnan
  · next i _ hi =>
    split
    · exact hf.signed_lt n (hf.inf_lt i hi)
    · exact hmax

theorem round_lt (ov : Overflow) (rm : Nat) (n : Bool) (m : Nat) (e : Int) : f.round ov rm n m e < 2 ^ f.width := by
  have hzero := hf.signed_zero_lt n
  have hmax := hf.maxFinite_lt
  unfold FloatFmt.round
  split
  · exact hzero
  · extract_lets top emin q r code
    split
    · exact hzero
    · split
      · exact hzero
      · split
        · exact hf.overflow_lt ov rm n
        · exact hf.signed_lt n (by omega)

theorem ofVal_lt (ov : Overflow) (rm : Nat) (v : Val) : f.ofVal ov rm v < 2 ^ f.width := by
  cases v with
  | nan => exact hf.nan_lt
  | fin n m e => exact hf.round_lt ov rm n m e
  | inf n =>
    simp only [FloatFmt.ofVal]
    split
    · exact hf.signed_lt n hf.maxFinite_lt
    · exact hf.nan_lt
    · next i _ hi => exact hf.signed_lt n (hf.inf_lt i hi)

theorem ofValue_lt (rm : Nat) (v : Val) : f.ofValue rm v < 2 ^ f.width := hf.ofVal_lt .ieee rm v

theorem ffma_lt (rm x y z : Nat) : ffma f rm x y z < 2 ^ f.width := hf.ofValue_lt rm _

theorem roundBy_lt (g : Nat → Enclosure) : ∀ Ps, roundBy f g Ps < 2 ^ f.width
  | [] => Nat.two_pow_pos _
  | [_] => hf.round_lt ..
  | P :: Q :: Ps => by
    simp only [roundBy]
    split
    · exact hf.round_lt ..
    · exact roundBy_lt g (Q :: Ps)

theorem fexp2_lt (x : Nat) : fexp2 f x < 2 ^ f.width := by
  unfold fexp2
  split
  · exact hf.nan_lt
  · split
    · exact hf.signed_zero_lt false
    · exact hf.ofValue_lt ..
  · split
    · exact hf.ofValue_lt ..
    · split
      · exact hf.round_lt ..
      · dsimp only
        split
        · exact hf.round_lt ..
        · exact hf.roundBy_lt ..

theorem flog2_lt (x : Nat) : flog2 f x < 2 ^ f.width := by
  unfold flog2
  split
  · exact hf.nan_lt
  · split
    · exact hf.nan_lt
    · exact hf.ofValue_lt ..
  · split
    · exact hf.ofValue_lt ..
    · split
      · exact hf.nan_lt
      · split
        · exact hf.ofValue_lt ..
        · exact hf.roundBy_lt ..

theorem fsin_lt (x : Nat) : fsin f x < 2 ^ f.width := by
  have hsign : 2 ^ (f.width - 1) < 2 ^ f.width := Nat.pow_lt_pow_right (by decide) (Nat.sub_lt hf.width_pos (by decide))
  unfold fsin
  split
  · split
    · exact hf.ofValue_lt ..
    · dsimp only
      split
      · exact Nat.xor_lt_two_pow (hf.roundBy_lt ..) hsign
      · exact hf.roundBy_lt ..
  · exact hf.nan_lt

theorem fcos_lt (x : Nat) : fcos f x < 2 ^ f.width := by
  unfold fcos
  split
  · split
    · exact hf.ofValue_lt ..
    · exact hf.roundBy_lt ..
  · exact hf.nan_lt

/-- Both parts of a complex product or multiply-accumulate are codes. -/
theorem complexMac_lt (rm : Nat) (acc : Option (Nat × Nat)) (ar ai br bi : Nat) :
    (complexMac f rm acc ar ai br bi).1 < 2 ^ f.width ∧ (complexMac f rm acc ar ai br bi).2 < 2 ^ f.width := by
  cases acc <;> exact ⟨hf.ffma_lt .., hf.ffma_lt ..⟩

end FloatFmt.Fits

/-! ### A float instruction of one operand -/

/-- An instruction that computes a code of its format from each element of A writes that code to the active elements. -/
theorem floatElementwise_of_unaryOp {i : Ops → Instr} {op : Ops → FloatFmt → Nat → Nat}
    (hi : ∀ o s, exec (i o) s = unaryOp o s (op o (opFloat o)) tag1) (hop : ∀ o f, f.Fits → ∀ x, op o f x < 2 ^ f.width) :
    FloatElementwise i (fun c o f e => op o f (c.el o o.a e)) tagsA := by
  intro s c o h
  refine ⟨_, (hi o s).trans (unaryOp_next h _ _), rfl, fun e he => ?_⟩
  dsimp only [Ops.w] at he ⊢
  rw [elem_mapActive _ _ _ _ e he]
  split
  · intro f hf
    rw [opFloat_of_floatFmt hf, ← width_of_floatFmt hf]
    exact Nat.mod_eq_of_lt (hop o f (fits_of_floatFmt hf) _)
  · rfl

end Sys2Proof.Machine
end

section
/-! PROOF. The special functions and complex arithmetic (R61, R135, R136, R145). -/

namespace Sys2Proof.Machine

/-! ### The special cases of R136 -/

section SpecialCases

variable {f : FloatFmt} {x : Nat}

theorem div_nan (a : Val) : Val.div a .nan = .nan := by cases a <;> rfl

theorem ofValue_nan (rm : Nat) : f.ofValue rm .nan = f.nan := rfl

theorem ofValue_inf {i : Nat} (hi : f.inf = some i) (rm : Nat) (n : Bool) : f.ofValue rm (.inf n) = f.signed n i := by
  simp [FloatFmt.ofValue, FloatFmt.ofVal, hi]

theorem ofValue_zero (rm : Nat) (n : Bool) (e : Int) : f.ofValue rm (.fin n 0 e) = f.signed n 0 := rfl

/-- A NaN operand gives the canonical NaN in every special function. -/
theorem special_of_nan (h : f.val x = .nan) (rm : Nat) :
    frcp f x = f.nan ∧ frsq f x = f.nan ∧ fsqrt f rm x = f.nan ∧ fexp2 f x = f.nan ∧ flog2 f x = f.nan ∧ fsin f x = f.nan ∧
      fcos f x = f.nan := by
  simp [frcp, frsq, fsqrt, fexp2, flog2, fsin, fcos, opVal, h, div_nan, Val.rsqrt, Val.sqrt, ofValue_nan]

/-- The special functions of an infinity. -/
theorem special_of_inf {i : Nat} {n : Bool} (hi : f.inf = some i) (h : f.val x = .inf n) (rm : Nat) :
    frcp f x = f.signed n 0 ∧ frsq f x = (if n then f.nan else f.signed false 0) ∧
      fsqrt f rm x = (if n then f.nan else f.signed false i) ∧
      fexp2 f x = (if n then f.signed false 0 else f.signed false i) ∧ flog2 f x = (if n then f.nan else f.signed false i) ∧
      fsin f x = f.nan ∧ fcos f x = f.nan := by
  cases n <;>
    simp [frcp, frsq, fsqrt, fexp2, flog2, fsin, fcos, opVal, h, Val.one, Val.div, Val.rsqrt, Val.sqrt, ofValue_inf hi, ofValue_zero,
      ofValue_nan]

/-- The special functions of a zero. -/
theorem special_of_zero {i : Nat} {n : Bool} {e : Int} (hi : f.inf = some i) (h : f.val x = .fin n 0 e) (rm : Nat) :
    frcp f x = f.signed n i ∧ frsq f x = f.signed n i ∧ fsqrt f rm x = f.signed n 0 ∧ fexp2 f x = f.ofValue 0 Val.one ∧
      flog2 f x = f.signed true i ∧ fsin f x = f.signed n 0 ∧ fcos f x = f.ofValue 0 Val.one := by
  simp [frcp, frsq, fsqrt, fexp2, flog2, fsin, fcos, opVal, h, Val.one, Val.div, Val.rsqrt, Val.sqrt, ofValue_inf hi, ofValue_zero]

/-- The roots and the logarithm of a value below zero. -/
theorem special_of_negative {m : Nat} {e : Int} (h : f.val x = .fin true m e) (hm : m ≠ 0) (rm : Nat) :
    frsq f x = f.nan ∧ fsqrt f rm x = f.nan ∧ flog2 f x = f.nan := by
  simp [frsq, fsqrt, flog2, opVal, h, hm, Val.rsqrt, Val.sqrt, ofValue_nan]

/-- The logarithm of a power of two is its exponent. -/
theorem flog2_of_two_pow {k : Nat} {e : Int} (h : f.val x = .fin false (2 ^ k) e) : flog2 f x = f.ofValue 0 (Val.ofInt (k + e)) := by
  simp [flog2, h, Nat.log2_two_pow]

end SpecialCases

/-! ### Complex arithmetic -/

/-- The accumulators from which a complex operation starts at a position: CFMA's are the pair in C, CMUL's are nothing (R61). -/
def complexStart (acc : Bool) (c : Ctx) (o : Ops) (p : Nat) : Option (Nat × Nat) :=
  if acc then some (c.el o o.c (2 * p), c.el o o.c (2 * p + 1)) else none

/-- Both elements of a position, which is active with its even element, after a complex operation (R145). -/
theorem complexOp_next {s : State} {c : Ctx} {o : Ops} {f : FloatFmt} (h : Issues s c o) (hf : floatFmt o.fmt = some f) (acc : Bool) :
    ∃ x, complexOp o s acc = .next (wrote s c o x) ∧
      x.tag = tagOf ((List.range (elemCount o.fmt.width / 2)).all fun p => (c.guard o).active o.fmt.width (2 * p))
        (if acc then [c.tagA o, c.tagB o, c.tagC o] else [c.tagA o, c.tagB o]) ∧
      ∀ p, p < elemCount o.fmt.width / 2 → (elem x.val o.fmt.width (2 * p), elem x.val o.fmt.width (2 * p + 1)) =
        if (c.guard o).active o.fmt.width (2 * p) then
          complexMac f (opRound o) (complexStart acc c o p) (c.el o o.a (2 * p)) (c.el o o.a (2 * p + 1)) (c.el o o.b (2 * p))
            (c.el o o.b (2 * p + 1))
        else (elem (oldDest c.r o.d).val o.fmt.width (2 * p), elem (oldDest c.r o.d).val o.fmt.width (2 * p + 1)) := by
  refine ⟨_, vector_next h _, rfl, fun p hp => ?_⟩
  have lt := (fits_of_floatFmt hf).complexMac_lt
  rw [width_of_floatFmt hf] at lt
  have even : 2 * p / 2 = p := by omega
  have odd : (2 * p + 1) / 2 = p := by omega
  have odd' : (2 * p + 1) % 2 = 1 := by omega
  rw [elem_ofElems _ _ (2 * p) (by omega), elem_ofElems _ _ (2 * p + 1) (by omega)]
  simp only [even, odd, odd', opFloat_of_floatFmt hf, Nat.mul_mod_right, beq_self_eq_true, if_true, Nat.succ_ne_self, beq_iff_eq, if_false]
  by_cases active : (c.guard o).active o.fmt.width (2 * p) = true
  · rw [if_pos active, if_pos active, if_pos active, Nat.mod_eq_of_lt (lt ..).1, Nat.mod_eq_of_lt (lt ..).2]
    rfl
  · rw [if_neg active, if_neg active, if_neg active, Nat.mod_eq_of_lt (elem_lt ..), Nat.mod_eq_of_lt (elem_lt ..)]

/-- Settles O9: each special function computes a code from each element of A; the table of R136, class of value by class of value; and
the complex operations, a position at a time. -/
theorem specialFunctions : Obligations.SpecialFunctions := by
  unfold Obligations.SpecialFunctions
  refine ⟨floatElementwise_of_unaryOp (op := fun _ => frcp) (fun _ _ => rfl) fun _ _ hf _ => hf.ofValue_lt ..,
    floatElementwise_of_unaryOp (op := fun _ => frsq) (fun _ _ => rfl) fun _ _ hf _ => hf.ofValue_lt ..,
    floatElementwise_of_unaryOp (op := fun o f => fsqrt f (opRound o)) (fun _ _ => rfl) fun _ _ hf _ => hf.ofValue_lt ..,
    floatElementwise_of_unaryOp (op := fun _ => fexp2) (fun _ _ => rfl) fun _ _ hf => hf.fexp2_lt,
    floatElementwise_of_unaryOp (op := fun _ => flog2) (fun _ _ => rfl) fun _ _ hf => hf.flog2_lt,
    floatElementwise_of_unaryOp (op := fun _ => fsin) (fun _ _ => rfl) fun _ _ hf => hf.fsin_lt,
    floatElementwise_of_unaryOp (op := fun _ => fcos) (fun _ _ => rfl) fun _ _ hf => hf.fcos_lt, ?_,
    fun _ _ _ _ h hf => complexOp_next h hf false, fun _ _ _ _ h hf => complexOp_next h hf true⟩
  intro fmt f hfmt hf x rm
  obtain ⟨i, hi⟩ : ∃ i, f.inf = some i := by obtain rfl | rfl | rfl := hfmt <;> cases hf <;> exact ⟨_, rfl⟩
  simp only [hi, Option.getD_some]
  split
  · next h => exact special_of_nan h rm
  · next h => exact special_of_inf hi h rm
  · next h =>
    refine ⟨?_, ?_, ?_⟩
    · rintro rfl
      exact special_of_zero hi h rm
    · rintro hm rfl
      exact special_of_negative h hm rm
    · rintro k rfl rfl
      exact flog2_of_two_pow h

end Sys2Proof.Machine
end

section
/-! SUPPORT. Exact values as rational numbers: what `Val.real` makes of sums, products and comparisons (R44, R131). -/

namespace Sys2Proof.Machine

/-! ### Powers of two -/

theorem two_zpow_pos (k : Int) : (0 : Rat) < 2 ^ k := Rat.zpow_pos (by decide)

theorem two_zpow_add (a b : Int) : (2 : Rat) ^ (a + b) = 2 ^ a * 2 ^ b := Rat.zpow_add (by decide) a b

theorem two_zpow_natCast (k : Nat) : (2 : Rat) ^ (k : Int) = (2 ^ k : Nat) := by
  rw [Rat.zpow_natCast, Rat.natCast_pow, Rat.natCast_ofNat]

theorem two_zpow_toNat {k : Int} (h : 0 ≤ k) : (2 : Rat) ^ k = (2 ^ k.toNat : Nat) := by
  rw [← two_zpow_natCast, Int.toNat_of_nonneg h]

theorem two_zpow_le {a b : Int} (h : a ≤ b) : (2 : Rat) ^ a ≤ 2 ^ b := by
  have hone : (1 : Rat) ≤ (2 ^ (b - a).toNat : Nat) := Rat.natCast_le_natCast.mpr Nat.one_le_two_pow
  have hmul := Rat.mul_le_mul_of_nonneg_left hone (Rat.le_of_lt (two_zpow_pos a))
  rwa [Rat.mul_one, ← two_zpow_toNat (Int.sub_nonneg.mpr h), ← two_zpow_add, show a + (b - a) = b by omega] at hmul

/-! ### Signs -/

/-- A magnitude with a sign. -/
def withSign (n : Bool) (x : Rat) : Rat := if n then -x else x

theorem withSign_false (x : Rat) : withSign false x = x := rfl

theorem withSign_true (x : Rat) : withSign true x = -x := rfl

theorem withSign_zero (n : Bool) : withSign n 0 = 0 := by cases n <;> rfl

theorem withSign_not (n : Bool) (x : Rat) : withSign (!n) x = -withSign n x := by
  cases n
  · rfl
  · exact (Rat.neg_neg x).symm

theorem withSign_mul (n : Bool) (x y : Rat) : withSign n (x * y) = withSign n x * y := by
  cases n
  · rfl
  · exact (Rat.neg_mul x y).symm

/-- The sign of a product. -/
theorem withSign_bne (n k : Bool) (x y : Rat) : withSign (n != k) (x * y) = withSign n x * withSign k y := by
  cases k
  · rw [Bool.bne_false, withSign_mul, withSign_false]
  · rw [Bool.bne_true, withSign_not, withSign_mul, withSign_true, Rat.mul_neg]

theorem withSign_natAbs (s : Int) : withSign (decide (s < 0)) s.natAbs = s := by
  rw [← Rat.intCast_natCast]
  by_cases h : s < 0
  · rw [decide_eq_true h, withSign_true, ← Rat.intCast_neg]
    congr 1
    omega
  · rw [decide_eq_false h, withSign_false]
    congr 1
    omega

/-! ### Finite values -/

theorem real_fin (n : Bool) (m : Nat) (e : Int) : (Val.fin n m e).real = some (withSign n (m * 2 ^ e)) := by
  rw [withSign_mul]
  rfl

/-- The values that have a real number are the finite ones. -/
theorem fin_of_real {v : Val} {x : Rat} (h : v.real = some x) : ∃ n m e, v = .fin n m e ∧ x = withSign n (m * 2 ^ e) := by
  cases v with
  | fin n m e => exact ⟨n, m, e, rfl, Option.some.inj (h.symm.trans (real_fin n m e))⟩
  | nan => cases h
  | inf n => cases h

theorem scaled_cast (n : Bool) (m : Nat) (e q : Int) : (scaled n m e q : Rat) = withSign n (m * (2 ^ (e - q).toNat : Nat)) := by
  cases n
  · exact (Rat.intCast_natCast _).trans (Rat.natCast_mul ..)
  · exact (Rat.intCast_neg _).trans (congrArg (- ·) ((Rat.intCast_natCast _).trans (Rat.natCast_mul ..)))

/-- The integer of a finite value at a scale 2^q at most its own. -/
theorem scaled_mul_zpow (n : Bool) (m : Nat) {e q : Int} (h : q ≤ e) : (scaled n m e q : Rat) * 2 ^ q = withSign n (m * 2 ^ e) := by
  rw [scaled_cast, ← withSign_mul, ← two_zpow_toNat (Int.sub_nonneg.mpr h), Rat.mul_assoc, ← two_zpow_add, Int.sub_add_cancel]

theorem real_add {a b : Val} {x y : Rat} (rm : Nat) (ha : a.real = some x) (hb : b.real = some y) :
    (Val.add rm a b).real = some (x + y) := by
  obtain ⟨na, ma, ea, rfl, rfl⟩ := fin_of_real ha
  obtain ⟨nb, mb, eb, rfl, rfl⟩ := fin_of_real hb
  rw [← scaled_mul_zpow na ma (Int.min_le_left ea eb), ← scaled_mul_zpow nb mb (Int.min_le_right ea eb), ← Rat.add_mul,
    ← Rat.intCast_add]
  simp only [Val.add]
  generalize scaled na ma ea (min ea eb) + scaled nb mb eb (min ea eb) = s
  by_cases hs : s = 0
  · have hzero (n : Bool) : (Val.fin n 0 (min ea eb)).real = some (((0 : Int) : Rat) * 2 ^ min ea eb) := by
      rw [real_fin, Rat.intCast_zero, Rat.zero_mul]
      exact congrArg some ((congrArg _ (Rat.zero_mul _)).trans (withSign_zero n))
    subst hs
    split
    · split
      · exact hzero _
      · exact hzero _
    · next h => exact absurd rfl h
  · rw [if_neg (by rwa [beq_iff_eq]), real_fin, withSign_mul, withSign_natAbs]

theorem real_mul {a b : Val} {x y : Rat} (ha : a.real = some x) (hb : b.real = some y) : (Val.mul a b).real = some (x * y) := by
  obtain ⟨na, ma, ea, rfl, rfl⟩ := fin_of_real ha
  obtain ⟨nb, mb, eb, rfl, rfl⟩ := fin_of_real hb
  rw [← withSign_bne, Val.mul, real_fin, two_zpow_add, Rat.natCast_mul]
  congr 2
  grind

theorem real_neg {a : Val} {x : Rat} (ha : a.real = some x) : a.neg.real = some (-x) := by
  obtain ⟨n, m, e, rfl, rfl⟩ := fin_of_real ha
  rw [Val.neg, real_fin, withSign_not]

/-- The order of two finite values is that of the real numbers that they are. -/
theorem val_cmp_of_real {a b : Val} {x y : Rat} (ha : a.real = some x) (hb : b.real = some y) :
    (a.cmp b = .lt ↔ x < y) ∧ (a.cmp b = .eq ↔ x = y) ∧ (a.cmp b = .gt ↔ y < x) := by
  obtain ⟨na, ma, ea, rfl, rfl⟩ := fin_of_real ha
  obtain ⟨nb, mb, eb, rfl, rfl⟩ := fin_of_real hb
  have hlt (s t : Int) (h : s < t) : (s : Rat) * 2 ^ min ea eb < t * 2 ^ min ea eb :=
    Rat.mul_lt_mul_of_pos_right (Rat.intCast_lt_intCast.mpr h) (two_zpow_pos _)
  rw [← scaled_mul_zpow na ma (Int.min_le_left ea eb), ← scaled_mul_zpow nb mb (Int.min_le_right ea eb)]
  simp only [Val.cmp]
  generalize scaled na ma ea (min ea eb) = s
  generalize scaled nb mb eb (min ea eb) = t
  rcases Int.lt_trichotomy s t with h | rfl | h
  · have := hlt s t h
    rw [if_pos h]
    grind
  · rw [if_neg (Int.lt_irrefl s), if_pos (beq_self_eq_true s)]
    grind
  · have := hlt t s h
    rw [if_neg (by omega), if_neg (by rw [beq_iff_eq]; omega)]
    grind

theorem val_cmp_swap {a b : Val} (ha : a ≠ .nan) (hb : b ≠ .nan) : (a.cmp b).swap = b.cmp a := by
  cases a with
  | nan => exact absurd rfl ha
  | inf n =>
    cases b with
    | nan => exact absurd rfl hb
    | inf k => cases n <;> cases k <;> rfl
    | fin k m e => cases n <;> rfl
  | fin n m e =>
    cases b with
    | nan => exact absurd rfl hb
    | inf k => cases k <;> rfl
    | fin k m' e' =>
      obtain ⟨hlt, heq, hgt⟩ := val_cmp_of_real (real_fin n m e) (real_fin k m' e')
      obtain ⟨hlt', heq', hgt'⟩ := val_cmp_of_real (real_fin k m' e') (real_fin n m e)
      cases h : (Val.fin n m e).cmp (.fin k m' e') with
      | lt => exact (hgt'.mpr (hlt.mp h)).symm
      | eq => exact (heq'.mpr (heq.mp h).symm).symm
      | gt => exact (hlt'.mpr (hgt.mp h)).symm

theorem isNaN_eq_false {a : Val} (h : a ≠ .nan) : a.isNaN = false := by
  cases a with
  | nan => exact absurd rfl h
  | inf | fin => rfl

/-- The smaller and the larger of two values are one each of the two, in order. -/
theorem val_min_max {a b : Val} (ha : a ≠ .nan) (hb : b ≠ .nan) :
    (Val.min a b = a ∨ Val.min a b = b) ∧ (Val.max a b = a ∨ Val.max a b = b) ∧ (Val.min a b).cmp (Val.max a b) ≠ .gt := by
  have hswap := val_cmp_swap ha hb
  simp only [Val.min, Val.max, isNaN_eq_false ha, isNaN_eq_false hb, Bool.or_self, Bool.false_eq_true, if_false]
  cases h : a.cmp b with
  | lt => exact ⟨.inl rfl, .inr rfl, by rw [h]; decide⟩
  | gt => exact ⟨.inr rfl, .inl rfl, by rw [← hswap, h]; decide⟩
  | eq =>
    have hab : a.cmp b ≠ .gt := by rw [h]; decide
    have hba : b.cmp a ≠ .gt := by rw [← hswap, h]; decide
    cases a.negative with
    | false => exact ⟨.inr rfl, .inl rfl, hba⟩
    | true => exact ⟨.inl rfl, .inr rfl, hab⟩

/-! ### NaN -/

theorem val_add_nan (rm : Nat) (a : Val) : Val.add rm a .nan = .nan := by cases a <;> rfl
theorem val_mul_nan (a : Val) : Val.mul a .nan = .nan := by cases a <;> rfl
theorem val_min_nan (a : Val) : Val.min a .nan = .nan := by cases a <;> rfl
theorem val_max_nan (a : Val) : Val.max a .nan = .nan := by cases a <;> rfl

/-- Infinities of opposite signs have no sum; those of one sign have. -/
theorem val_add_inf (rm : Nat) (n : Bool) : Val.add rm (.inf n) (.inf !n) = .nan ∧ Val.add rm (.inf n) (.inf n) = .inf n := by
  cases n <;> exact ⟨rfl, rfl⟩

end Sys2Proof.Machine
end

section
/-! SUPPORT. The values of the magnitude codes of a format with subnormals, in ascending order (R43, R45), and what rounding to one of
them means (R48). -/

namespace Sys2Proof.Machine

/-! ### Values of magnitude codes -/

/-- The value of a magnitude code, by R43's two cases; codes past the greatest finite one go on as if the exponent range were unbounded
above (R49). -/
def FloatFmt.magReal (f : FloatFmt) (c : Nat) : Rat :=
  if c / 2 ^ f.frac = 0 then (c % 2 ^ f.frac : Nat) * 2 ^ (1 - f.bias - f.frac)
  else (2 ^ f.frac + c % 2 ^ f.frac : Nat) * 2 ^ ((c / 2 ^ f.frac : Nat) - f.bias - f.frac)

/-- The codes of one exponent, the first code of the next one included, are the multiples of one power of two. -/
theorem magReal_binade (f : FloatFmt) {j n : Nat} (hn : n ≤ 2 * 2 ^ f.frac) (h : j = 0 ∨ 2 ^ f.frac ≤ n) :
    f.magReal (j * 2 ^ f.frac + n) = n * 2 ^ ((j : Int) + 1 - f.bias - f.frac) := by
  have hB : 0 < 2 ^ f.frac := Nat.two_pow_pos _
  unfold FloatFmt.magReal
  generalize 2 ^ f.frac = B at *
  rcases Nat.lt_or_ge n B with hlt | hge
  · obtain rfl : j = 0 := h.resolve_right (by omega)
    rw [Nat.zero_mul, Nat.zero_add, if_pos (Nat.div_eq_of_lt hlt), Nat.mod_eq_of_lt hlt]
    rfl
  rcases Nat.lt_or_ge n (2 * B) with hlt | hge'
  · have hc : j * B + n = n - B + (j + 1) * B := by rw [Nat.add_mul]; omega
    rw [hc, Nat.add_mul_div_right _ _ hB, Nat.add_mul_mod_self_right, Nat.div_eq_of_lt (by omega), Nat.mod_eq_of_lt (by omega),
      if_neg (by omega), Nat.add_sub_cancel' hge, Nat.zero_add, Int.natCast_add, Int.natCast_one]
  · obtain rfl : n = 2 * B := by omega
    rw [← Nat.add_mul, Nat.mul_div_cancel _ hB, Nat.mul_mod_left, if_neg (by omega), Nat.add_zero, Rat.natCast_mul, Rat.natCast_ofNat,
      show (((j + 2 : Nat) : Int) - f.bias - f.frac) = (j + 1 - f.bias - f.frac) + 1 by omega, Rat.zpow_add_one (by decide),
      Rat.mul_comm _ 2, ← Rat.mul_assoc, Rat.mul_comm 2]

/-- Every code stands in the range of an exponent. -/
theorem exists_binade (f : FloatFmt) (c : Nat) :
    ∃ j n, c = j * 2 ^ f.frac + n ∧ n < 2 * 2 ^ f.frac ∧ (j = 0 ∨ 2 ^ f.frac ≤ n) := by
  have hdiv := Nat.div_add_mod' c (2 ^ f.frac)
  have hmod := Nat.mod_lt c (Nat.two_pow_pos f.frac)
  cases h : c / 2 ^ f.frac with
  | zero =>
    rw [h] at hdiv
    exact ⟨0, c, by omega, by omega, .inl rfl⟩
  | succ j =>
    rw [h, Nat.add_mul] at hdiv
    exact ⟨j, 2 ^ f.frac + c % 2 ^ f.frac, by omega, by omega, .inr (Nat.le_add_right _ _)⟩

theorem magReal_lt_succ (f : FloatFmt) (c : Nat) : f.magReal c < f.magReal (c + 1) := by
  obtain ⟨j, n, rfl, hn, h⟩ := exists_binade f c
  rw [Nat.add_assoc, magReal_binade f (Nat.le_of_lt hn) h, magReal_binade f (Nat.succ_le_of_lt hn) (h.imp_right Nat.le_succ_of_le)]
  exact Rat.mul_lt_mul_of_pos_right (Rat.natCast_lt_natCast.mpr (Nat.lt_succ_self n)) (two_zpow_pos _)

theorem magReal_mono (f : FloatFmt) {c d : Nat} (h : c ≤ d) : f.magReal c ≤ f.magReal d := by
  induction h with
  | refl => exact Rat.le_refl
  | step _ ih => exact Rat.le_trans ih (Rat.le_of_lt (magReal_lt_succ f _))

theorem magReal_zero (f : FloatFmt) : f.magReal 0 = 0 := by
  rw [FloatFmt.magReal, if_pos (Nat.zero_div _), Nat.zero_mod]
  exact Rat.zero_mul _

theorem magReal_nonneg (f : FloatFmt) (c : Nat) : 0 ≤ f.magReal c := magReal_zero f ▸ magReal_mono f (Nat.zero_le c)

/-- A format that keeps subnormals and whose infinity is the code after the greatest finite one (R44, R45). -/
structure FloatFmt.Gradual (f : FloatFmt) : Prop where
  flush : f.flush = false
  inf : f.inf = some (f.maxFinite + 1)
  inf_lt : f.maxFinite + 1 < 2 ^ (f.width - 1)
  frac_le : f.frac ≤ f.width - 1

theorem gradual_of_floatFmt {fmt : Fmt} {f : FloatFmt} (h : fmt = .f32 ∨ fmt = .f16) (hf : floatFmt fmt = some f) : f.Gradual := by
  obtain rfl | rfl := h <;> cases hf <;> exact ⟨rfl, rfl, by decide, by decide⟩

theorem mag_signed (f : FloatFmt) (n : Bool) {c : Nat} (h : c < 2 ^ (f.width - 1)) : f.mag (f.signed n c) = c := by
  cases n
  · exact Nat.mod_eq_of_lt h
  · exact (Nat.add_mod_right _ _).trans (Nat.mod_eq_of_lt h)

theorem neg_signed (f : FloatFmt) (n : Bool) {c : Nat} (h : c < 2 ^ (f.width - 1)) : f.neg (f.signed n c) = n := by
  have hbit := Nat.testBit_lt_two_pow h
  cases n
  · exact hbit
  · calc (c + 2 ^ (f.width - 1)).testBit (f.width - 1) = !c.testBit (f.width - 1) := by
          rw [Nat.add_comm, Nat.testBit_two_pow_add_eq]
      _ = true := by rw [hbit, Bool.not_false]

namespace FloatFmt.Gradual

variable {f : FloatFmt} (hf : f.Gradual)
include hf

/-- A code is finite when its magnitude is at most the greatest finite one, and then has the value of that magnitude. -/
theorem real_val (x : Nat) :
    (f.val x).real = if f.mag x ≤ f.maxFinite then some (withSign (f.neg x) (f.magReal (f.mag x))) else none := by
  have hfrac : x % 2 ^ f.frac = f.mag x % 2 ^ f.frac := (Nat.mod_mod_of_dvd x (Nat.pow_dvd_pow 2 hf.frac_le)).symm
  have hnan : f.isNaN x = decide (f.maxFinite + 1 < f.mag x) := by simp only [FloatFmt.isNaN, hf.inf]
  have hinf : f.isInf x = decide (f.maxFinite + 1 = f.mag x) := (congrArg (· == some (f.mag x)) hf.inf).trans rfl
  unfold FloatFmt.val
  rcases Nat.lt_trichotomy (f.mag x) (f.maxFinite + 1) with h | h | h
  · rw [hnan, hinf, decide_eq_false (by omega), decide_eq_false (by omega), if_pos (show f.mag x ≤ f.maxFinite by omega)]
    simp only [Bool.false_eq_true, if_false, hf.flush, hfrac, FloatFmt.magReal, FloatFmt.expField, beq_iff_eq]
    split
    · exact real_fin ..
    · exact real_fin ..
  · rw [hnan, hinf, decide_eq_false (by omega), decide_eq_true h.symm, if_neg (show ¬f.mag x ≤ f.maxFinite by omega)]
    rfl
  · rw [hnan, decide_eq_true h, if_neg (show ¬f.mag x ≤ f.maxFinite by omega)]
    rfl

theorem real_val_signed (n : Bool) {c : Nat} (h : c ≤ f.maxFinite) : (f.val (f.signed n c)).real = some (withSign n (f.magReal c)) := by
  have hlt : c < 2 ^ (f.width - 1) := by have := hf.inf_lt; omega
  rw [hf.real_val, mag_signed f n hlt, neg_signed f n hlt, if_pos h]

theorem real_val_inf (n : Bool) : (f.val (f.signed n (f.maxFinite + 1))).real = none := by
  rw [hf.real_val, mag_signed f n hf.inf_lt, if_neg (by omega)]

end FloatFmt.Gradual

/-! ### What rounding means (R48) -/

/-- The modes that take a magnitude down, to a value not above it, for a sign. -/
def towardZero (rm : Nat) (n : Bool) : Prop := rm = 1 ∨ (rm = 2 ∧ n = false) ∨ (rm = 3 ∧ n = true)

/-- The modes that take a magnitude up, to a value not below it, for a sign. -/
def awayFromZero (rm : Nat) (n : Bool) : Prop := (rm = 2 ∧ n = true) ∨ (rm = 3 ∧ n = false)

/-- The distance of two values, as the statement writes it. -/
def gap (x y : Rat) : Rat := if y ≤ x then x - y else y - x

theorem gap_of_le {x y : Rat} (h : y ≤ x) : gap x y = x - y := if_pos h

theorem gap_of_ge {x y : Rat} (h : x ≤ y) : gap x y = y - x := by
  unfold gap
  grind

/-- The magnitude `x` stands between the neighbours `V c` and `V (c + 1)`, and `V r` is the one of them that the mode chooses. -/
structure RoundsTo (V : Nat → Rat) (rm : Nat) (n : Bool) (x : Rat) (c r : Nat) : Prop where
  low : V c ≤ x
  high : x < V (c + 1)
  near : r = c ∨ r = c + 1
  toward : towardZero rm n → r = c
  away : awayFromZero rm n → (r = c ↔ V c = x)
  nearest : rm = 0 → gap x (V r) ≤ gap x (V c) ∧ gap x (V r) ≤ gap x (V (c + 1))

namespace RoundsTo

variable {V : Nat → Rat} {rm : Nat} {n : Bool} {x : Rat} {c r : Nat}

/-- A value that is there is rounded to itself. -/
theorem exact (h : V c < V (c + 1)) (hx : x = V c) : RoundsTo V rm n x c c := by
  subst hx
  refine ⟨Rat.le_refl, h, .inl rfl, fun _ => rfl, fun _ => iff_of_true rfl rfl, fun _ => ⟨Rat.le_refl, ?_⟩⟩
  rw [gap_of_le Rat.le_refl, gap_of_ge (Rat.le_of_lt h)]
  grind

theorem gap_mul {g : Rat} (hg : 0 < g) (x y : Rat) : gap (x * g) (y * g) = gap x y * g := by
  rcases Rat.le_total (a := x) (b := y) with h | h
  · rw [gap_of_ge h, gap_of_ge (Rat.mul_le_mul_of_nonneg_right h (Rat.le_of_lt hg))]
    grind
  · rw [gap_of_le h, gap_of_le (Rat.mul_le_mul_of_nonneg_right h (Rat.le_of_lt hg))]
    grind

/-- Rounding to an integer at a scale is rounding to the values that are those integers at that scale. -/
theorem scale {g : Rat} {k : Nat} (h : RoundsTo (fun i => (i : Rat)) rm n x c r) (hg : 0 < g)
    (hV : ∀ i, i = c ∨ i = c + 1 → V (k + i) = i * g) : RoundsTo V rm n (x * g) (k + c) (k + r) := by
  have hc := hV c (.inl rfl)
  have hc' := hV (c + 1) (.inr rfl)
  have hr := hV r h.near
  have hg' := Rat.le_of_lt hg
  refine ⟨?_, ?_, ?_, fun ht => ?_, fun ha => ?_, fun hrm => ?_⟩
  · rw [hc]
    exact Rat.mul_le_mul_of_nonneg_right h.low hg'
  · rw [Nat.add_assoc, hc']
    exact Rat.mul_lt_mul_of_pos_right h.high hg
  · exact h.near.imp (congrArg (k + ·)) (congrArg (k + ·))
  · rw [h.toward ht]
  · rw [hc, Nat.add_left_cancel_iff, h.away ha]
    refine ⟨fun h => congrArg (· * g) h, fun h => Rat.le_antisymm ?_ ?_⟩
    · exact Rat.le_of_mul_le_mul_right (h ▸ Rat.le_refl) hg
    · exact Rat.le_of_mul_le_mul_right (h ▸ Rat.le_refl) hg
  · obtain ⟨h1, h2⟩ := h.nearest hrm
    rw [Nat.add_assoc, hc, hc', hr, gap_mul hg, gap_mul hg, gap_mul hg]
    exact ⟨Rat.mul_le_mul_of_nonneg_right h1 hg', Rat.mul_le_mul_of_nonneg_right h2 hg'⟩

theorem le_of_away (h : RoundsTo V rm n x c r) (ha : awayFromZero rm n) : x ≤ V r := by
  rcases h.near with rfl | rfl
  · exact (h.away ha).mp rfl ▸ Rat.le_refl
  · exact Rat.le_of_lt h.high

section Codes

variable {f : FloatFmt}

/-- No code lies between two neighbours, so none lies between the exact magnitude and them. -/
theorem outside (c k : Nat) : f.magReal k ≤ f.magReal c ∨ f.magReal (c + 1) ≤ f.magReal k :=
  (Nat.lt_or_ge c k).symm.imp (magReal_mono f) (magReal_mono f)

variable (h : RoundsTo f.magReal rm n x c r)
include h

theorem greatest_below (k : Nat) (hk : f.magReal k ≤ x) : f.magReal k ≤ f.magReal c :=
  (outside c k).resolve_right (Rat.not_le.mpr (by have := h.high; grind))

theorem least_above (ha : awayFromZero rm n) (k : Nat) (hk : x ≤ f.magReal k) : f.magReal r ≤ f.magReal k := by
  rcases h.near with rfl | rfl
  · exact Rat.le_trans h.low hk
  · refine (outside _ k).resolve_left fun hle => ?_
    have := (h.away ha).mpr (Rat.le_antisymm h.low (Rat.le_trans hk hle))
    omega

theorem closest (hrm : rm = 0) (k : Nat) : gap x (f.magReal r) ≤ gap x (f.magReal k) := by
  obtain ⟨hlow, hhigh⟩ := h.nearest hrm
  have hc := h.low
  have hc' := Rat.le_of_lt h.high
  rcases outside c k with hk | hk
  · rw [gap_of_le hc] at hlow
    rw [gap_of_le (Rat.le_trans hk hc)]
    grind
  · rw [gap_of_ge hc'] at hhigh
    rw [gap_of_ge (Rat.le_trans hc' hk)]
    grind

end Codes

end RoundsTo

end Sys2Proof.Machine
end

section
/-! PROOF. The exact values and their nearest codes (R44, R45, R48, R131, R132): rounding to a multiple of a power of two keeps to the mode,
the multiples that rounding uses are the codes of one exponent, and so the code chosen is the one that the mode asks for among all. -/

namespace Sys2Proof.Machine

theorem not_toward_of_away {rm : Nat} {n : Bool} (h : awayFromZero rm n) : ¬towardZero rm n := by
  obtain ⟨rfl, rfl⟩ | ⟨rfl, rfl⟩ := h <;> unfold towardZero <;> decide

/-! ### Rounding to a multiple of a power of two -/

theorem roundsUp_of_toward {rm : Nat} {n : Bool} (h : towardZero rm n) (a r half : Nat) : roundsUp rm n a r half = false := by
  obtain rfl | ⟨rfl, rfl⟩ | ⟨rfl, rfl⟩ := h <;> rfl

theorem roundsUp_of_away {rm : Nat} {n : Bool} (h : awayFromZero rm n) (a r half : Nat) : roundsUp rm n a r half = (r != 0) := by
  obtain ⟨rfl, rfl⟩ | ⟨rfl, rfl⟩ := h <;> rfl

theorem half_le_of_roundsUp {n : Bool} {a r half : Nat} (h : roundsUp 0 n a r half = true) : half ≤ r := by
  simp only [roundsUp, Bool.or_eq_true, decide_eq_true_eq, Bool.and_eq_true, beq_iff_eq] at h
  omega

theorem le_half_of_not_roundsUp {n : Bool} {a r half : Nat} (h : roundsUp 0 n a r half = false) : r ≤ half := by
  simp only [roundsUp, Bool.or_eq_false_iff, decide_eq_false_iff_not] at h
  omega

/-- The choice of `roundsUp` between an integer and its successor, for a value that exceeds the integer by `r / (2 half)`. -/
theorem roundsTo_of_roundsUp (rm : Nat) (n : Bool) {a r half : Nat} {x : Rat} (hr : r < 2 * half) (hx : (x - a) * (2 * half) = r) :
    RoundsTo (fun i => (i : Rat)) rm n x a (if roundsUp rm n a r half then a + 1 else a) := by
  have hpos : (0 : Rat) < 2 * half := by
    have := Rat.natCast_pos.mpr (Nat.zero_lt_of_lt hr)
    rwa [Rat.natCast_mul] at this
  have hr' : (r : Rat) < 2 * half := by
    have := Rat.natCast_lt_natCast.mpr hr
    rwa [Rat.natCast_mul] at this
  have hnn : 0 ≤ x - a := Rat.le_of_mul_le_mul_right (by rw [Rat.zero_mul, hx]; exact Rat.natCast_nonneg) hpos
  have hlt : x - a < 1 := Rat.lt_of_mul_lt_mul_right (by rwa [Rat.one_mul, hx]) (Rat.le_of_lt hpos)
  have hzero : r = 0 ↔ (a : Rat) = x := by
    rw [← Rat.natCast_eq_zero_iff, ← hx, Rat.mul_eq_zero]
    grind
  have hsucc : ((a + 1 : Nat) : Rat) = a + 1 := Rat.natCast_add a 1
  refine ⟨by grind, by rw [hsucc]; grind, ?_, fun ht => ?_, fun ha => ?_, ?_⟩
  · split
    · exact .inr rfl
    · exact .inl rfl
  · rw [roundsUp_of_toward ht]
    rfl
  · rw [roundsUp_of_away ha, ← hzero]
    by_cases h0 : r = 0
    · rw [h0]
      exact iff_of_true rfl rfl
    · rw [if_pos (bne_iff_ne.mpr h0)]
      exact iff_of_false (Nat.succ_ne_self a) h0
  · rintro rfl
    have low : gap x a = x - a := gap_of_le (by grind)
    have high : gap x (a + 1 : Nat) = a + 1 - x := by rw [hsucc, gap_of_ge (by grind)]
    -- The distances to the two neighbours add up to 1, and `half` is the middle.
    cases hup : roundsUp 0 n a r half with
    | true =>
      have hhalf : (half : Rat) ≤ r := Rat.natCast_le_natCast.mpr (half_le_of_roundsUp hup)
      have hmid : 1 ≤ 2 * (x - a) := Rat.le_of_mul_le_mul_right (c := 2 * half) (by grind) hpos
      simp only [if_true, low, high]
      grind
    | false =>
      have hhalf : (r : Rat) ≤ half := Rat.natCast_le_natCast.mpr (le_half_of_not_roundsUp hup)
      have hmid : 2 * (x - a) ≤ 1 := Rat.le_of_mul_le_mul_right (c := 2 * half) (by grind) hpos
      simp only [Bool.false_eq_true, if_false, low, high]
      grind

/-- `roundQ` rounds to the integers, at its scale. -/
theorem roundQ_roundsTo (rm : Nat) (n : Bool) (m : Nat) (e q : Int) :
    ∃ a, RoundsTo (fun i => (i : Rat)) rm n (m * 2 ^ (e - q)) a (roundQ rm n m e q) := by
  unfold roundQ
  split
  · next h =>
    refine ⟨_, RoundsTo.exact (Rat.natCast_lt_natCast.mpr (Nat.lt_succ_self _)) ?_⟩
    rw [Rat.natCast_mul, two_zpow_toNat (Int.sub_nonneg.mpr h)]
  · next h =>
    extract_lets s a r
    have h2 : 2 * 2 ^ (s - 1) = 2 ^ s := by rw [← Nat.pow_succ', Nat.succ_eq_add_one, Nat.sub_add_cancel (by omega)]
    refine ⟨a, roundsTo_of_roundsUp rm n (h2 ▸ Nat.mod_lt _ (Nat.two_pow_pos s)) ?_⟩
    have hscale : (2 : Rat) ^ (e - q) * (2 ^ s : Nat) = 1 := by
      rw [← two_zpow_natCast, ← two_zpow_add, show e - q + (s : Int) = 0 by omega]
      rfl
    have hdiv : ((2 ^ s : Nat) : Rat) * a + r = m := by
      rw [← Rat.natCast_mul, ← Rat.natCast_add, Nat.div_add_mod]
    have htwo : (2 : Rat) * (2 ^ (s - 1) : Nat) = (2 ^ s : Nat) := by rw [← h2, Rat.natCast_mul, Rat.natCast_ofNat]
    rw [htwo]
    grind

/-! ### Rounding to a code -/

/-- The leading bit of a magnitude. -/
theorem two_zpow_le_of_log2 {m : Nat} (hm : m ≠ 0) (e : Int) :
    (2 : Rat) ^ (Nat.log2 m + e) ≤ m * 2 ^ e ∧ (m : Rat) * 2 ^ e < 2 ^ (((Nat.log2 m + 1 : Nat) : Int) + e) := by
  rw [two_zpow_add, two_zpow_add, two_zpow_natCast, two_zpow_natCast]
  constructor
  · exact Rat.mul_le_mul_of_nonneg_right (Rat.natCast_le_natCast.mpr (Nat.log2_self_le hm)) (Rat.le_of_lt (two_zpow_pos e))
  · exact Rat.mul_lt_mul_of_pos_right (Rat.natCast_lt_natCast.mpr Nat.lt_log2_self) (two_zpow_pos e)

/-- A magnitude scaled so that its leading bit has at most the weight 2^F is below 2 × 2^F. -/
theorem lt_of_le_scaled {m F a : Nat} {e : Int} (hm : m ≠ 0) (hF : Nat.log2 m + e ≤ F) (ha : (a : Rat) ≤ m * 2 ^ e) :
    a < 2 * 2 ^ F := by
  have hlead := (two_zpow_le_of_log2 hm e).2
  have htop : (2 : Rat) ^ (((Nat.log2 m + 1 : Nat) : Int) + e) ≤ 2 ^ ((F + 1 : Nat) : Int) := two_zpow_le (by omega)
  rw [two_zpow_natCast, Nat.pow_succ'] at htop
  exact Rat.natCast_lt_natCast.mp (by grind)

/-- A magnitude scaled so that its leading bit has the weight 2^F is at least 2^F. -/
theorem le_of_scaled_lt {m F a : Nat} {e : Int} (hm : m ≠ 0) (hF : Nat.log2 m + e = F) (ha : (m : Rat) * 2 ^ e < (a + 1 : Nat)) :
    2 ^ F ≤ a := by
  have hlead := (two_zpow_le_of_log2 hm e).1
  rw [hF, two_zpow_natCast] at hlead
  exact Nat.lt_succ_iff.mp (Rat.natCast_lt_natCast.mp (by grind))

namespace FloatFmt.Gradual

variable {f : FloatFmt} (hf : f.Gradual)
include hf

/-- Rounding chooses between two neighbouring codes as the mode says, and answers the code or, past the greatest finite one, what R49
says. -/
theorem round_roundsTo (rm : Nat) (n : Bool) (m : Nat) (e : Int) : ∃ c r, RoundsTo f.magReal rm n (m * 2 ^ e) c r ∧
    f.round .ieee rm n m e = if f.maxFinite < r then f.overflow .ieee rm n else f.signed n r := by
  by_cases hm : m = 0
  · subst hm
    exact ⟨0, 0, .exact (magReal_lt_succ f 0) ((Rat.zero_mul _).trans (magReal_zero f).symm), rfl⟩
  -- The scale 2^q to which the magnitude is rounded is that of the codes of one exponent, `j + 1`.
  obtain ⟨j, q, hmax, hq, htop, hj⟩ : ∃ (j : Nat) (q : Int), max (Nat.log2 m + e - f.frac) (1 - f.bias - f.frac) = q ∧
      q = j + 1 - f.bias - f.frac ∧ Nat.log2 m + (e - q) ≤ f.frac ∧ (j = 0 ∨ Nat.log2 m + (e - q) = f.frac) :=
    ⟨(max (Nat.log2 m + e - f.frac) (1 - f.bias - f.frac) - (1 - f.bias - f.frac)).toNat, _, rfl, by omega, by omega, by omega⟩
  obtain ⟨a, ha⟩ := roundQ_roundsTo rm n m e q
  have hlt : a < 2 * 2 ^ f.frac := lt_of_le_scaled hm htop ha.low
  have hge : j = 0 ∨ 2 ^ f.frac ≤ a := hj.imp_right fun h => le_of_scaled_lt hm h ha.high
  have hx : (m : Rat) * 2 ^ e = m * 2 ^ (e - q) * 2 ^ q := by
    rw [Rat.mul_assoc, ← two_zpow_add, Int.sub_add_cancel]
  have hV (i : Nat) (hi : i = a ∨ i = a + 1) : f.magReal (j * 2 ^ f.frac + i) = i * 2 ^ q := by
    rw [hq]
    exact magReal_binade f (by omega) (hge.imp_right fun h => by omega)
  refine ⟨_, _, hx ▸ ha.scale (two_zpow_pos q) hV, ?_⟩
  simp only [FloatFmt.round, hf.flush, beq_iff_eq, hm, if_false, Bool.false_eq_true, Bool.false_and, hmax]
  have hcode : (q + f.frac + f.bias - 1) * ((2 ^ f.frac : Nat) : Int) + roundQ rm n m e q = (j * 2 ^ f.frac + roundQ rm n m e q : Nat) := by
    have hfield : q + f.frac + f.bias - 1 = j := by omega
    rw [hfield, Int.natCast_add, Int.natCast_mul]
  simp only [hcode, Int.toNat_natCast, Int.ofNat_lt]
  split
  · next h0 =>
    have hB := Nat.two_pow_pos f.frac
    have hr := ha.near
    have hj0 : j = 0 := hge.resolve_right (by omega)
    rw [h0, hj0, Nat.zero_mul, if_neg (by omega)]
  · rfl

/-- An overflow gives an infinity, or the greatest finite magnitude in a mode that takes magnitudes down (R49). -/
theorem overflow_eq (rm : Nat) (n : Bool) : f.overflow .ieee rm n = f.signed n (f.maxFinite + 1) ∨
    towardZero rm n ∧ f.overflow .ieee rm n = f.signed n f.maxFinite := by
  simp only [FloatFmt.overflow, hf.inf]
  match rm, n with
  | 1, _ => exact .inr ⟨.inl rfl, rfl⟩
  | 2, false => exact .inr ⟨.inr (.inl ⟨rfl, rfl⟩), rfl⟩
  | 3, true => exact .inr ⟨.inr (.inr ⟨rfl, rfl⟩), rfl⟩
  | 2, true | 3, false | 0, _ | _ + 4, _ => exact .inl rfl

/-- A finite result has the sign of the exact value and the magnitude of a finite code, which is the one that the mode asks for. -/
theorem real_round {rm : Nat} {n : Bool} {m : Nat} {e : Int} {y : Rat} (hy : (f.val (f.round .ieee rm n m e)).real = some y) :
    ∃ r, y = withSign n (f.magReal r) ∧
      (towardZero rm n → f.magReal r ≤ m * 2 ^ e ∧ ∀ k ≤ f.maxFinite, f.magReal k ≤ m * 2 ^ e → f.magReal k ≤ f.magReal r) ∧
      (awayFromZero rm n → m * 2 ^ e ≤ f.magReal r ∧ ∀ k, m * 2 ^ e ≤ f.magReal k → f.magReal r ≤ f.magReal k) ∧
      (rm = 0 → ∀ k, gap (m * 2 ^ e) (f.magReal r) ≤ gap (m * 2 ^ e) (f.magReal k)) := by
  obtain ⟨c, r, h, hround⟩ := hf.round_roundsTo rm n m e
  rw [hround] at hy
  rcases Nat.lt_or_ge f.maxFinite r with hr | hr
  · rw [if_pos hr] at hy
    obtain hinf | ⟨ht, hmax⟩ := hf.overflow_eq rm n
    · rw [hinf, hf.real_val_inf] at hy
      cases hy
    · rw [hmax, hf.real_val_signed n (Nat.le_refl _)] at hy
      refine ⟨f.maxFinite, (Option.some.inj hy).symm, fun _ => ⟨?_, fun k hk _ => magReal_mono f hk⟩, fun ha => ?_, fun hrm => ?_⟩
      · exact Rat.le_trans (magReal_mono f (h.toward ht ▸ Nat.le_of_lt hr)) h.low
      · exact absurd ht (not_toward_of_away ha)
      · exact absurd ht (by unfold towardZero; omega)
  · rw [if_neg (Nat.not_lt.mpr hr), hf.real_val_signed n hr] at hy
    refine ⟨r, (Option.some.inj hy).symm, fun ht => ?_, fun ha => ?_, h.closest⟩
    · rw [h.toward ht]
      exact ⟨h.low, fun k _ => h.greatest_below k⟩
    · exact ⟨h.le_of_away ha, h.least_above ha⟩

end FloatFmt.Gradual

/-! ### The statement -/

theorem gap_withSign (n : Bool) (x r : Rat) : gap (withSign n x) (withSign n r) = gap x r := by
  cases n with
  | false => rfl
  | true =>
    unfold gap
    simp only [withSign_true]
    grind

section Signs

variable {n k : Bool} {x r z : Rat} (hx : 0 ≤ x) (hr : 0 ≤ r) (hz : 0 ≤ z)
include hx hz

/-- Values of opposite signs are as far apart as their magnitudes together, so at least as far as their magnitudes are. -/
theorem gap_le_gap_withSign : gap x z ≤ gap (withSign n x) (withSign k z) := by
  cases n <;> cases k <;> simp only [withSign_false, withSign_true, gap] <;> grind

/-- A magnitude that is as near as another gives a value of the same sign that is as near as the other with any sign. -/
theorem nearest_withSign (h : gap x r ≤ gap x z) : gap (withSign n x) (withSign n r) ≤ gap (withSign n x) (withSign k z) :=
  gap_withSign n x r ▸ Rat.le_trans h (gap_le_gap_withSign hx hz)

include hr

/-- The greatest value not above: the magnitude goes down under a positive sign and up under a negative one. -/
theorem below_withSign (down : n = false → r ≤ x ∧ (z ≤ x → z ≤ r)) (up : n = true → x ≤ r ∧ (x ≤ z → r ≤ z)) :
    withSign n r ≤ withSign n x ∧ (withSign k z ≤ withSign n x → withSign k z ≤ withSign n r) := by
  cases n with
  | false =>
    obtain ⟨hle, hmax⟩ := down rfl
    cases k with
    | false => exact ⟨hle, hmax⟩
    | true => exact ⟨hle, fun _ => Rat.le_trans (Rat.neg_le_iff.mp (Rat.le_trans (by decide) hz)) hr⟩
  | true =>
    obtain ⟨hle, hmin⟩ := up rfl
    refine ⟨Rat.neg_le_neg hle, fun h => ?_⟩
    cases k with
    | true => exact Rat.neg_le_neg (hmin (Rat.neg_le_neg_iff.mp h))
    | false =>
      simp only [withSign_false, withSign_true] at h ⊢
      grind

/-- The least value not below is the greatest not above with the signs turned. -/
theorem above_withSign (up : n = false → x ≤ r ∧ (x ≤ z → r ≤ z)) (down : n = true → r ≤ x ∧ (z ≤ x → z ≤ r)) :
    withSign n x ≤ withSign n r ∧ (withSign n x ≤ withSign k z → withSign n r ≤ withSign k z) := by
  have h := below_withSign (n := !n) (k := !k) hx hr hz (fun hn => down (Bool.not_inj (y := true) hn))
    fun hn => up (Bool.not_inj (y := false) hn)
  rwa [withSign_not, withSign_not, withSign_not, Rat.neg_le_neg_iff, Rat.neg_le_neg_iff, Rat.neg_le_neg_iff] at h

/-- Toward zero is downward for a value that is not negative, and upward for one that is not positive; a zero is both. -/
theorem toward_withSign (down : r ≤ x ∧ (z ≤ x → z ≤ r)) :
    (0 ≤ withSign n x → withSign n r ≤ withSign n x ∧ (withSign k z ≤ withSign n x → withSign k z ≤ withSign n r)) ∧
    (withSign n x ≤ 0 → withSign n x ≤ withSign n r ∧ (withSign n x ≤ withSign k z → withSign n r ≤ withSign k z)) := by
  have zero (h : x ≤ 0) : x ≤ r ∧ (x ≤ z → r ≤ z) :=
    ⟨Rat.le_trans h hr, fun _ => Rat.le_trans down.1 (Rat.le_trans h hz)⟩
  constructor
  · refine fun h => below_withSign hx hr hz (fun _ => down) fun hn => zero ?_
    rw [hn, withSign_true] at h
    grind
  · refine fun h => above_withSign hx hr hz (fun hn => zero ?_) fun _ => down
    rwa [hn, withSign_false] at h

end Signs

/-- A finite result and a finite code: the four modes of R48. -/
theorem nearest_of_real {f : FloatFmt} (hf : f.Gradual) {rm : Nat} {v : Val} {x y z : Rat} {d : Nat} (hx : v.real = some x)
    (hy : (f.val (f.ofValue rm v)).real = some y) (hz : (f.val d).real = some z) :
    (rm = 0 → gap x y ≤ gap x z) ∧
    (rm = 1 → (0 ≤ x → y ≤ x ∧ (z ≤ x → z ≤ y)) ∧ (x ≤ 0 → x ≤ y ∧ (x ≤ z → y ≤ z))) ∧
    (rm = 2 → y ≤ x ∧ (z ≤ x → z ≤ y)) ∧
    (rm = 3 → x ≤ y ∧ (x ≤ z → y ≤ z)) := by
  obtain ⟨n, m, e, rfl, rfl⟩ := fin_of_real hx
  obtain ⟨r, rfl, toward, away, nearest⟩ := hf.real_round hy
  rw [hf.real_val] at hz
  split at hz
  · next hd =>
    obtain rfl := Option.some.inj hz
    have hm : (0 : Rat) ≤ m * 2 ^ e := Rat.mul_nonneg Rat.natCast_nonneg (Rat.le_of_lt (two_zpow_pos e))
    have hr := magReal_nonneg f r
    have hk := magReal_nonneg f (f.mag d)
    have down (h : towardZero rm n) := (toward h).imp_right fun all => all (f.mag d) hd
    have up (h : awayFromZero rm n) := (away h).imp_right fun all => all (f.mag d)
    exact ⟨fun hrm => nearest_withSign hm hk (nearest hrm (f.mag d)),
      fun hrm => toward_withSign hm hr hk (down (.inl hrm)),
      fun hrm => below_withSign hm hr hk (fun hn => down (.inr (.inl ⟨hrm, hn⟩))) fun hn => up (.inl ⟨hrm, hn⟩),
      fun hrm => above_withSign hm hr hk (fun hn => up (.inr ⟨hrm, hn⟩)) fun hn => down (.inr (.inr ⟨hrm, hn⟩))⟩
  · cases hz

/-- Settles O8: the operations on exact values are those on the rational numbers that they are, and a rounded result is the code that the
mode asks for, because rounding chooses between two codes that are neighbours. -/
theorem floatValuesExact : Obligations.FloatValuesExact := by
  unfold Obligations.FloatValuesExact
  refine ⟨fun rm a b x y ha hb => ?_, fun rm a => ⟨rfl, val_add_nan rm a, rfl, val_mul_nan a, rfl, val_min_nan a, rfl, val_max_nan a⟩,
    val_add_inf, fun _ _ _ => ⟨rfl, rfl⟩, fun _ _ => val_min_max, fun fmt f hfmt hf rm v x hx y hy d z _ hz => ?_⟩
  · exact ⟨real_add rm ha hb, real_mul ha hb, real_neg ha, val_cmp_of_real ha hb⟩
  · exact nearest_of_real (gradual_of_floatFmt hfmt hf) hx hy hz

end Sys2Proof.Machine
end

section
/-! SUPPORT. What the writes of the hub and the records of a trace leave of the groups: an abort flagged in an open transaction, and nothing
else (R192, R264, R422, R424). -/

namespace Sys2Proof.Machine

/-! ### Groups kept but for their transactions -/

/-- A change that keeps every group but for what its open transaction notes (R192). -/
structure KeepsGroups (s t : State) : Prop where
  find? : ∀ gid, ∃ f : Txn → Txn, Sparse.find? t.groups gid = (Sparse.find? s.groups gid).map fun g => { g with txn := g.txn.map f }

namespace KeepsGroups

theorem of_eq {s t : State} (h : t.groups = s.groups) : KeepsGroups s t := ⟨fun _ => ⟨id, by simp [h]⟩⟩

theorem refl (s : State) : KeepsGroups s s := .of_eq rfl

theorem trans {s t u : State} (h : KeepsGroups s t) (k : KeepsGroups t u) : KeepsGroups s u := by
  constructor
  intro gid
  obtain ⟨f, hf⟩ := h.find? gid
  obtain ⟨f', hf'⟩ := k.find? gid
  exact ⟨f' ∘ f, by simp [hf', hf, Function.comp_def]⟩

theorem ite {s t u : State} {p : Prop} [Decidable p] (h : KeepsGroups s t) (k : KeepsGroups s u) : KeepsGroups s (if p then t else u) := by
  split
  · exact h
  · exact k

theorem foldl {α : Type} {f : State → α → State} (h : ∀ s x, KeepsGroups s (f s x)) (xs : List α) (s : State) :
    KeepsGroups s (xs.foldl f s) := by
  induction xs generalizing s with
  | nil => exact .refl s
  | cons x xs ih => exact (h s x).trans (ih _)

/-- The group that was listed is still listed, its transaction apart. -/
theorem find?_some {s t : State} (h : KeepsGroups s t) {gid : Nat} {g : Group} (hg : Sparse.find? s.groups gid = some g) :
    ∃ x, Sparse.find? t.groups gid = some { g with txn := x } := by
  obtain ⟨f, hf⟩ := h.find? gid
  exact ⟨g.txn.map f, by rw [hf, hg, Option.map_some]⟩

end KeepsGroups

/-- Reading a finite map of which each entry has been replaced under its own key. -/
theorem find?_map_keyed {α β : Type} {f : Nat × α → Nat × β} (hf : ∀ e, (f e).1 = e.1) (m : Sparse α) (n : Nat) :
    Sparse.find? (m.map f) n = (Sparse.find? m n).map fun x => (f (n, x)).2 := by
  induction m with
  | nil => rfl
  | cons e m ih =>
    obtain ⟨k, x⟩ := e
    have hcons : f (k, x) = (k, (f (k, x)).2) := Prod.ext (hf _) rfl
    rw [List.map_cons, hcons]
    simp only [Sparse.find?, ih]
    split
    · next h => rw [eq_of_beq h, Option.map_some]
    · rfl

theorem keepsGroups_flagTxns (s : State) (w : Option Nat) (line : Nat) (rd wr : BitVec 8) : KeepsGroups s (flagTxns s w line rd wr) := by
  constructor
  intro gid
  unfold flagTxns
  rw [find?_map_keyed fun e => by dsimp only; split <;> rfl]
  by_cases h : (some gid == w) = true
  · exact ⟨id, by simp [h]⟩
  · exact ⟨fun t => t.conflict line rd wr, by simp [h]⟩

/-! ### Writes at the home -/

theorem lineWritten_groups (s : State) (line : Nat) (d : LineBits) (m : BitVec 256) (policy : Nat) :
    (lineWritten s line d m policy).groups = s.groups := by
  unfold lineWritten
  split
  · exact (rewriteLine_frame _ _ _ _ _).1
  · have h := (kept_unlessWhole s line m).groups
    dsimp only
    split
    · exact (allocate_frame _ _ _ _ _).1.trans h
    · exact (writeBack_frame _ _ _).1.trans h

theorem keepsGroups_homeWrite (s : State) (w : Option Nat) (line : Nat) (d : LineBits) (m : BitVec 256) (policy : Nat) :
    KeepsGroups s (homeWrite s w line d m policy) :=
  have written : KeepsGroups s (markStale (lineWritten s line d m policy) line m) := .of_eq (lineWritten_groups s line d m policy)
  have told := written.trans (keepsGroups_flagTxns _ w line 1 2)
  .ite (p := wholeLine m = true) (told.trans (.of_eq rfl)) told

theorem keepsGroups_applyStore (s : State) (w : Option Nat) (x : Store) : KeepsGroups s (applyStore s w x) := by
  unfold applyStore
  split
  · exact keepsGroups_homeWrite ..
  · exact .of_eq rfl

/-! ### Writes of the hub -/

theorem tell_groups (s : State) (a b : Nat) : (tell s a b).groups = s.groups := by
  unfold tell receiveStamp
  split
  · rfl
  · dsimp only
    split <;> rfl

theorem keepsGroups_hubWrite (s : State) (pa n x : Nat) : KeepsGroups s (hubWrite s pa n x) := by
  unfold hubWrite
  have home (s : State) (x : Store) : KeepsGroups s (applyStore (tell s hubDie (homeDie x.line.key)) none x) :=
    (KeepsGroups.of_eq (tell_groups ..)).trans (keepsGroups_applyStore ..)
  have port (p : Nat) := KeepsGroups.foldl (f := fun s x => enqueue s p (.store 0 hubTag x)) fun _ _ => .of_eq rfl
  split
  · exact .foldl home ..
  · split
    · exact port ..
    · exact .refl s
  · split
    · exact port ..
    · exact .refl s
  · exact .refl s

/-! ### Records of a trace -/

theorem keepsGroups_putRecord (s : State) (part : Nat) (words : List Nat) : KeepsGroups s (putRecord s part words) := by
  unfold putRecord
  split
  · exact .refl s
  · split
    · exact .refl s
    · dsimp only
      refine .trans (.trans ?_ (.foldl (fun _ _ => keepsGroups_hubWrite ..) ..)) (.of_eq (setPart_groups ..))
      exact .ite (keepsGroups_hubWrite ..) (.refl s)

theorem keepsGroups_stampRecord (s : State) (part : Nat) (r : Record) : KeepsGroups s (stampRecord s part r) :=
  (KeepsGroups.of_eq (s := s) (t := (newStamp s (dieOf r.core)).2) rfl).trans (keepsGroups_putRecord ..)

theorem keepsGroups_trace (s : State) (part : Nat) (r : Record) : KeepsGroups s (trace s part r) := by
  unfold trace
  split
  · exact .refl s
  · dsimp only
    split
    · exact .refl s
    · split
      · exact .refl s
      · split
        · exact .of_eq rfl
        · exact (KeepsGroups.ite (.refl s) (keepsGroups_stampRecord ..)).trans (keepsGroups_stampRecord ..)

theorem keepsGroups_traceRun (s : State) (part gid : Nat) (g : Group) (slotB : Bool) (head : Nat) :
    KeepsGroups s (traceRun s part gid g slotB head).1 := by
  unfold traceRun
  rw [apply_ite Prod.fst]
  dsimp only
  rw [apply_ite Prod.fst]
  have sync {due : Bool} {r : Record} : KeepsGroups s (if due = true then trace s part r else s) := .ite (keepsGroups_trace ..) (.refl s)
  exact .ite (.refl s) (.ite (sync.trans (.of_eq rfl)) (sync.trans (keepsGroups_trace ..)))

end Sys2Proof.Machine
end

section
/-! PROOF. The run heads (R97 to R99): what the issue of a run leaves in its group. -/

namespace Sys2Proof.Machine

/-- Writing a value for each key of a list. -/
theorem getD_foldl_set {α : Type} [DecidableEq α] (f : Nat → α) (d : α) (ns : List Nat) (m : Sparse α) (k : Nat) :
    Sparse.getD (ns.foldl (fun m n => Sparse.set m n (f n) d) m) k d = if k ∈ ns then f k else Sparse.getD m k d := by
  induction ns generalizing m with
  | nil => rfl
  | cons n ns ih =>
    rw [List.foldl_cons, ih, getD_set]
    by_cases hk : k = n <;> simp [hk]

/-- The run that a head issues (R27, R98): the working set as the main file has it, no temporaries, the bank that is current. -/
def Ctx.headRun (c : Ctx) (s : State) (h : Head) : Run :=
  { c.r with
    pos := headWords c.r
    ws := h.ws
    buf := (setOrder h.ws).foldl (fun m n => Sparse.set m n { val := (c.g.vreg n).val, tag := (c.g.vreg n).tag } .zero) []
    temps := []
    withdrawn := 0
    bank := (s.core c.core).cur }

/-- The snapshot that RUNR takes (R30, R99). -/
def Ctx.headSnap (c : Ctx) (h : Head) : Snapshot :=
  ⟨c.r.head, c.g.slotA.st, c.g.slotB.st, c.g.rcv, c.g.dsp, h.livein, c.g.exited, c.g.slotA.waits, c.g.slotB.waits, c.g.held⟩

theorem copy_headRun (c : Ctx) (s : State) (h : Head) {n : Nat} (hn : n ∈ setOrder h.ws) :
    (c.headRun s h).copy n = { val := (c.g.vreg n).val, tag := (c.g.vreg n).tag } :=
  (getD_foldl_set (fun n => (⟨(c.g.vreg n).val, (c.g.vreg n).tag⟩ : Copy)) ..).trans (if_pos hn)

section
variable {s : State} {c : Ctx} {h : Head} (hc : running s = some c) (region : Bool)
include hc

/-- A head waits for its working set (R98). -/
theorem runHead_waits {n : Nat} (hn : n ∈ setOrder h.ws) (hempty : (c.g.vreg n).full = false) : runHead h region s = .next s := by
  have hwait : ((setOrder h.ws).any fun n => !(c.g.vreg n).full) = true := List.any_eq_true.mpr ⟨n, hn, by rw [hempty]; rfl⟩
  unfold runHead
  rw [withRun_next hc]
  exact congrArg _ (if_pos hwait)

/-- A head whose working set is full issues its run; of the rest of the group, only RUNR changes the snapshot, a trace its count, and a
trace's writes what an open transaction notes. -/
theorem runHead_issues (hfull : ∀ n ∈ setOrder h.ws, (c.g.vreg n).full = true) :
    ∃ t x tracing since, runHead h region s = .next t ∧ Sparse.find? t.groups c.gid = some { c.g with
      txn := x, tracing := tracing, sinceSync := since, run := some (c.headRun s h), snap := if region then c.headSnap h else c.g.snap } := by
  have hgo : ¬ ((setOrder h.ws).any fun n => !(c.g.vreg n).full) = true := by
    rw [List.any_eq_true]
    rintro ⟨n, hn, hempty⟩
    rw [hfull n hn] at hempty
    cases hempty
  have kept := keepsGroups_traceRun s c.st.part c.gid c.g c.r.slotB c.r.head.toNat
  obtain ⟨x, hx⟩ := kept.find?_some (running_some hc).2.1
  unfold runHead
  rw [withRun_next hc]
  dsimp only
  rw [if_neg hgo]
  generalize traceRun s c.st.part c.gid c.g c.r.slotB c.r.head.toNat = traced at hx ⊢
  obtain ⟨u, tracing, since⟩ := traced
  refine ⟨_, x, tracing, since, rfl, ?_⟩
  rw [modGroup_groups, find?_modify, if_pos rfl, hx]
  rfl

end

/-- Settles O29: a head either waits or issues its run, and the trace's own writes reach no more of the group than its transaction. -/
theorem runHeads : Obligations.RunHeads := by
  unfold Obligations.RunHeads
  constructor
  · intro i hi s c h n hc hn hempty
    obtain rfl | rfl : i = Instr.run ∨ i = .runr := by simpa using hi
    · exact runHead_waits hc false hn hempty
    · exact runHead_waits hc true hn hempty
  · intro i hi s c h hc hfull
    have hexec : exec (i.1 h) s = runHead h i.2 s := by
      obtain rfl | rfl : i = (Instr.run, false) ∨ i = (.runr, true) := by simpa using hi
      · rfl
      · rfl
    obtain ⟨t, x, tracing, since, ht, hg⟩ := runHead_issues hc i.2 hfull
    exact ⟨t, _, c.headRun s h, hexec.trans ht, hg, rfl, rfl, rfl, rfl, rfl, rfl, rfl, rfl, fun n hn => copy_headRun c s h hn,
      fun _ => rfl, rfl, rfl, rfl, rfl, rfl, rfl, rfl⟩

end Sys2Proof.Machine
end

section
/-! SUPPORT. Integers held in `w` bits: wrapping, clamping and reading a value back (R42, R116); and what an instruction that computes a
value for each active element does to its destination (R115). -/

namespace Sys2Proof.Machine

/-! ### Values of `w` bits -/

theorem cast_two_pow (w : Nat) : ((2 ^ w : Nat) : Int) = 2 ^ w := Int.natCast_pow 2 w

/-- Wrapping is the conversion of an integer to a bit vector. -/
theorem wrapTo_eq_toNat (w : Nat) (x : Int) : wrapTo w x = (BitVec.ofInt w x).toNat := (BitVec.toNat_ofInt x).symm

/-- The signed value is that of a bit vector. -/
theorem valueOf_true (w x : Nat) : valueOf w true x = (BitVec.ofNat w x).toInt := by
  rw [BitVec.toInt_eq_toNat_cond, BitVec.toNat_ofNat]
  rfl

theorem valueOf_false (w x : Nat) : valueOf w false x = (x % 2 ^ w : Nat) := rfl

theorem wrapTo_lt (w : Nat) (x : Int) : wrapTo w x < 2 ^ w := wrapTo_eq_toNat w x ▸ BitVec.isLt _

theorem wrapTo_mod (w : Nat) (x : Int) : wrapTo w x % 2 ^ w = wrapTo w x := Nat.mod_eq_of_lt (wrapTo_lt w x)

theorem cast_wrapTo (w : Nat) (x : Int) : (wrapTo w x : Int) = x % 2 ^ w := by
  have := Nat.two_pow_pos w
  rw [← cast_two_pow]
  exact Int.toNat_of_nonneg (Int.emod_nonneg _ (by omega))

/-- Wrapping a number that is not negative keeps its low bits. -/
theorem wrapTo_natCast (w x : Nat) : wrapTo w (x : Int) = x % 2 ^ w := rfl

/-- A value depends on the low bits alone. -/
theorem valueOf_mod (w : Nat) (sg : Bool) (x : Nat) : valueOf w sg (x % 2 ^ w) = valueOf w sg x := by
  simp only [valueOf, signedOf, Nat.mod_mod]

/-- Wrapping a value gives back the bits that it was read from. -/
theorem wrapTo_valueOf (w : Nat) (sg : Bool) (x : Nat) : wrapTo w (valueOf w sg x) = x % 2 ^ w := by
  cases sg with
  | false => rw [valueOf_false, wrapTo_natCast, Nat.mod_mod]
  | true => rw [valueOf_true, wrapTo_eq_toNat, BitVec.ofInt_toInt, BitVec.toNat_ofNat]

theorem minOf_true (w : Nat) : minOf w true = -((2 ^ (w - 1) : Nat) : Int) := rfl

theorem minOf_false (w : Nat) : minOf w false = 0 := rfl

theorem maxOf_true (w : Nat) : maxOf w true = ((2 ^ (w - 1) : Nat) : Int) - 1 := rfl

theorem maxOf_false (w : Nat) : maxOf w false = ((2 ^ w : Nat) : Int) - 1 := rfl

theorem minOf_le_zero (w : Nat) (sg : Bool) : minOf w sg ≤ 0 := by
  cases sg with
  | false => exact Int.le_refl 0
  | true =>
    have := Nat.two_pow_pos (w - 1)
    rw [minOf_true]
    omega

theorem zero_le_maxOf (w : Nat) (sg : Bool) : 0 ≤ maxOf w sg := by
  cases sg with
  | false =>
    have := Nat.two_pow_pos w
    rw [maxOf_false]
    omega
  | true =>
    have := Nat.two_pow_pos (w - 1)
    rw [maxOf_true]
    omega

/-- Every value lies in the range of its width (R42). -/
theorem valueOf_mem_range (w : Nat) (sg : Bool) (x : Nat) : minOf w sg ≤ valueOf w sg x ∧ valueOf w sg x ≤ maxOf w sg := by
  cases sg with
  | false =>
    have := Nat.mod_lt x (Nat.two_pow_pos w)
    rw [minOf_false, maxOf_false, valueOf_false]
    omega
  | true =>
    have low := BitVec.le_toInt (BitVec.ofNat w x)
    have high := BitVec.toInt_lt (x := BitVec.ofNat w x)
    rw [minOf_true, maxOf_true, valueOf_true, cast_two_pow]
    exact ⟨low, Int.le_sub_one_of_lt high⟩

/-- No value is 2^w away from 0, whether it is read signed or unsigned. -/
theorem valueOf_size (w : Nat) (sg : Bool) (x : Nat) : -((2 ^ w : Nat) : Int) ≤ valueOf w sg x ∧ valueOf w sg x < (2 ^ w : Nat) := by
  have half := Nat.pow_le_pow_right Nat.two_pos (Nat.sub_le w 1)
  have range := valueOf_mem_range w sg x
  cases sg with
  | false =>
    rw [minOf_false, maxOf_false] at range
    omega
  | true =>
    rw [minOf_true, maxOf_true] at range
    omega

/-- A value of the range of `w` bits survives being wrapped. -/
theorem valueOf_wrapTo {w : Nat} (hw : 0 < w) {sg : Bool} {x : Int} (hmin : minOf w sg ≤ x) (hmax : x ≤ maxOf w sg) :
    valueOf w sg (wrapTo w x) = x := by
  cases sg with
  | false =>
    rw [minOf_false] at hmin
    rw [maxOf_false] at hmax
    rw [valueOf_false, wrapTo_mod, cast_wrapTo, ← cast_two_pow]
    exact Int.emod_eq_of_lt hmin (by omega)
  | true =>
    rw [minOf_true, cast_two_pow] at hmin
    rw [maxOf_true, cast_two_pow] at hmax
    rw [valueOf_true, wrapTo_eq_toNat, BitVec.ofNat_toNat, BitVec.setWidth_eq]
    exact BitVec.toInt_ofInt_eq_self hw hmin (Int.lt_of_le_sub_one hmax)

/-- Clamping, with the library's least and greatest. -/
theorem satTo_eq (w : Nat) (sg : Bool) (x : Int) : satTo w sg x = max (minOf w sg) (min (maxOf w sg) x) := by
  have := minOf_le_zero w sg
  have := zero_le_maxOf w sg
  unfold satTo
  split
  · omega
  · split <;> omega

/-- A clamped value is read back as it is. -/
theorem valueOf_wrapTo_satTo {w : Nat} (hw : 0 < w) (sg : Bool) (x : Int) :
    valueOf w sg (wrapTo w (satTo w sg x)) = max (minOf w sg) (min (maxOf w sg) x) := by
  have := minOf_le_zero w sg
  have := zero_le_maxOf w sg
  rw [satTo_eq]
  exact valueOf_wrapTo hw (by omega) (by omega)

/-- A value between 0 and one of the range lies in the range. -/
theorem valueOf_wrapTo_of_between {w : Nat} (hw : 0 < w) {sg : Bool} {x : Int} (y : Nat)
    (h : (0 ≤ x ∧ x ≤ valueOf w sg y) ∨ (valueOf w sg y ≤ x ∧ x ≤ 0)) : valueOf w sg (wrapTo w x) = x := by
  have := minOf_le_zero w sg
  have := zero_le_maxOf w sg
  have := valueOf_mem_range w sg y
  exact valueOf_wrapTo hw (by omega) (by omega)

/-! ### Instructions that compute a value for each active element -/

theorem width_pos (o : Ops) : 0 < o.w := by
  unfold Ops.w
  cases o.fmt <;> decide

/-- Element `e` of a source that is read in twice the width of the format (R117, R126). -/
def Ctx.wide (c : Ctx) (o : Ops) (x : Opnd) (e : Nat) : Nat := elem (c.read o (some (fmtOfWidth (2 * o.w))) x).val (2 * o.w) e

theorem Ctx.el_lt (c : Ctx) (o : Ops) (x : Opnd) (e : Nat) : c.el o x e < 2 ^ o.w := elem_lt ..

section Shapes

variable {i : Ops → Instr} {w : Ops → Nat} {is : Ctx → Ops → Nat → Nat → Prop} {tag : Ctx → Ops → Lanes → Tag}

/-- An instruction that writes a computed value to each active element of its destination and keeps the others; `arm` is what
`exec` does for it. -/
theorem elementwise_of_mapActive (arm : Ops → State → Host.Outcome State Fault Refusal) (harm : ∀ o s, exec (i o) s = arm o s)
    (value : Ctx → Ops → Nat → Nat)
    (hnext : ∀ {s c o}, Issues s c o → arm o s = .next (wrote s c o
      { val := mapActive (c.guard o) (w o) (oldDest c.r o.d).val (value c o)
        tag := tag c o (mapActive (c.guard o) (w o) (oldDest c.r o.d).val (value c o)) }))
    (his : ∀ c o e, is c o e (value c o e % 2 ^ w o)) : Elementwise i w is tag := by
  intro s c o h
  refine ⟨_, (harm o s).trans (hnext h), rfl, fun e he => ?_⟩
  rw [elem_mapActive _ _ _ _ e he]
  split
  · exact his c o e
  · rfl

/-- The same tag said in another way. -/
theorem Elementwise.congr_tag {tag' : Ctx → Ops → Lanes → Tag} (h : Elementwise i w is tag') (htag : ∀ c o x, tag' c o x = tag c o x) :
    Elementwise i w is tag := by
  rwa [← show tag' = tag from funext fun c => funext fun o => funext (htag c o)]

theorem elementwise_of_unaryOp (op : Ops → Nat → Nat) (t : Ops → Bool → Tag → Tag) (harm : ∀ o s, exec (i o) s = unaryOp o s (op o) (t o))
    (his : ∀ c o e, is c o e (op o (c.el o o.a e) % 2 ^ o.w)) :
    Elementwise i Ops.w is fun c o _ => t o (c.whole o o.w) (c.tagA o) :=
  elementwise_of_mapActive _ harm _ (fun h => unaryOp_next h _ _) his

theorem elementwise_of_binaryOp (op : Ops → Nat → Nat → Nat) (t : Ops → Bool → Tag → Tag → Tag)
    (harm : ∀ o s, exec (i o) s = binaryOp o s (op o) (t o)) (his : ∀ c o e, is c o e (op o (c.el o o.a e) (c.el o o.b e) % 2 ^ o.w)) :
    Elementwise i Ops.w is fun c o _ => t o (c.whole o o.w) (c.tagA o) (c.tagB o) :=
  elementwise_of_mapActive _ harm _ (fun h => binaryOp_next h _ _) his

theorem elementwise_of_ternaryOp (op : Ops → Nat → Nat → Nat → Nat) (t : Ops → Bool → Tag → Tag → Tag → Tag)
    (harm : ∀ o s, exec (i o) s = ternaryOp o s (op o) (t o))
    (his : ∀ c o e, is c o e (op o (c.el o o.a e) (c.el o o.b e) (c.el o o.c e) % 2 ^ o.w)) :
    Elementwise i Ops.w is fun c o _ => t o (c.whole o o.w) (c.tagA o) (c.tagB o) (c.tagC o) :=
  elementwise_of_mapActive _ harm _ (fun h => ternaryOp_next h _ _) his

/-- An instruction that writes a computed bit to each active bit of its predicate and keeps the others. -/
theorem bitwise_of_ofPred {active val : Ctx → Ops → Nat → Bool} (arm : Ops → State → Host.Outcome State Fault Refusal)
    (harm : ∀ o s, exec (i o) s = arm o s) (value : Ctx → Ops → Nat → Bool)
    (hnext : ∀ {s c o}, Issues s c o → arm o s =
      .next (wrotePred s c o (ofPred fun b => if active c o b then value c o b else (readPred c.g o.d).getLsbD b)))
    (hval : ∀ c o b, value c o b = val c o b) : Bitwise i active val := by
  intro s c o h
  refine ⟨_, (harm o s).trans (hnext h), fun b hb => ?_⟩
  rw [getLsbD_ofPred _ b hb, hval]

end Shapes

end Sys2Proof.Machine
end

section
/-! PROOF. Integer arithmetic (R116 to R118): the low bits of an exact result, and the exact results that a width narrows. -/

namespace Sys2Proof.Machine

/-! ### The value of one element -/

theorem addElem_mod (w a b : Nat) : addElem w a b % 2 ^ w = addElem w a b := Nat.mod_mod ..

theorem cast_addElem (w a b : Nat) : (addElem w a b : Int) = ((a : Int) + b) % 2 ^ w := by
  rw [← cast_two_pow]
  rfl

theorem subElem_mod (w a b : Nat) : subElem w a b % 2 ^ w = subElem w a b := Nat.mod_mod ..

theorem cast_subElem {w b : Nat} (a : Nat) (hb : b < 2 ^ w) : (subElem w a b : Int) = ((a : Int) - b) % 2 ^ w := by
  have apart : ((a + 2 ^ w - b : Nat) : Int) = ((a : Int) - b) + (2 ^ w : Nat) := by omega
  rw [subElem, Int.natCast_emod, apart, Int.add_emod_right, cast_two_pow]

theorem cast_negElem {w b : Nat} (hb : b < 2 ^ w) : (subElem w 0 b : Int) = -(b : Int) % 2 ^ w := by
  rw [cast_subElem 0 hb, Int.natCast_zero, Int.zero_sub]

theorem mulElem_mod (w a b : Nat) : mulElem w a b % 2 ^ w = mulElem w a b := Nat.mod_mod ..

theorem cast_mulElem (w a b : Nat) : (mulElem w a b : Int) = ((a : Int) * b) % 2 ^ w := by
  rw [← cast_two_pow]
  rfl

theorem cast_madElem (w a b x : Nat) : (((a * b + x) % 2 ^ w : Nat) : Int) = ((a : Int) * b + x) % 2 ^ w := by
  rw [← cast_two_pow]
  rfl

theorem valueOf_satElem {w : Nat} (hw : 0 < w) (sg : Bool) (f : Int → Int → Int) (a b : Nat) :
    valueOf w sg (satElem w sg f a b) = max (minOf w sg) (min (maxOf w sg) (f (valueOf w sg a) (valueOf w sg b))) :=
  valueOf_wrapTo_satTo hw sg _

/-- Reducing modulo m² and dividing by m takes the same digit as dividing by m and reducing modulo m. -/
theorem emod_mul_self_ediv (x : Int) {m : Int} (hm : 0 < m) : x % (m * m) / m = x / m % m := by
  rw [Int.emod_def, Int.emod_def, Int.mul_assoc, Int.sub_eq_add_neg, ← Int.mul_neg, Int.add_mul_ediv_left _ _ (Int.ne_of_gt hm),
    Int.ediv_ediv_of_nonneg (Int.le_of_lt hm), ← Int.sub_eq_add_neg]

theorem cast_mulhElem (w : Nat) (sg : Bool) (a b : Nat) :
    (mulhElem w sg a b : Int) = (valueOf w sg a * valueOf w sg b) % 2 ^ (2 * w) / 2 ^ w := by
  have pos : (0 : Int) < (2 ^ w : Nat) := by
    have := Nat.two_pow_pos w
    omega
  have square : ((2 ^ (2 * w) : Nat) : Int) = (2 ^ w : Nat) * (2 ^ w : Nat) := by
    rw [Nat.two_mul, Nat.pow_add, Int.natCast_mul]
  rw [mulhElem, cast_wrapTo, ← cast_two_pow (2 * w), ← cast_two_pow w, square, emod_mul_self_ediv _ pos]

theorem valueOf_minElem (w : Nat) (sg : Bool) (a b : Nat) : valueOf w sg (minElem w sg a b) = min (valueOf w sg a) (valueOf w sg b) := by
  unfold minElem
  split <;> omega

theorem valueOf_maxElem (w : Nat) (sg : Bool) (a b : Nat) : valueOf w sg (maxElem w sg a b) = max (valueOf w sg a) (valueOf w sg b) := by
  unfold maxElem
  split <;> omega

/-- The exact result of MADW for one element: the product of the elements of the parity MOD[0], and C's element (R117). -/
def Ctx.exactMadw (c : Ctx) (o : Ops) (e : Nat) : Int :=
  let h := if o.mod.getLsbD 0 then 1 else 0
  valueOf o.w o.fmt.signed (c.el o o.a (2 * e + h)) * valueOf o.w o.fmt.signed (c.el o o.b (2 * e + h)) + c.wide o o.c e

/-! ### Division -/

theorem divElem_zero (w : Nat) (sg : Bool) (a : Nat) : divElem w sg a 0 = 2 ^ w - 1 := rfl

theorem divElem_of_ne {w b : Nat} (sg : Bool) (a : Nat) (hb : b ≠ 0) :
    divElem w sg a b = wrapTo w (Int.tdiv (valueOf w sg a) (valueOf w sg b)) :=
  if_neg (by rwa [beq_iff_eq])

theorem remElem_zero (w : Nat) (sg : Bool) (a : Nat) : remElem w sg a 0 = a := rfl

theorem remElem_of_ne {w b : Nat} (sg : Bool) (a : Nat) (hb : b ≠ 0) :
    remElem w sg a b = wrapTo w (Int.tmod (valueOf w sg a) (valueOf w sg b)) :=
  if_neg (by rwa [beq_iff_eq])

/-- A truncated quotient that reaches the size of its dividend has a divisor of size 1. -/
theorem natAbs_eq_one_of_natAbs_tdiv_eq {x y : Int} (hx : x ≠ 0) (h : (x.tdiv y).natAbs = x.natAbs) : y.natAbs = 1 := by
  rw [Int.natAbs_tdiv] at h
  exact (Nat.div_eq_self.mp h).resolve_left (Int.natAbs_ne_zero.mpr hx)

/-- Only the minimum divided by −1 has a quotient outside the range. -/
theorem tdiv_mem_range (w : Nat) (sg : Bool) (a b : Nat)
    (h : ¬ (sg = true ∧ valueOf w sg a = minOf w true ∧ valueOf w sg b = -1)) :
    minOf w sg ≤ Int.tdiv (valueOf w sg a) (valueOf w sg b) ∧ Int.tdiv (valueOf w sg a) (valueOf w sg b) ≤ maxOf w sg := by
  have ha := valueOf_mem_range w sg a
  have hb := valueOf_mem_range w sg b
  generalize valueOf w sg a = x at ha h ⊢
  generalize valueOf w sg b = y at hb h ⊢
  cases sg with
  | false =>
    have hx : 0 ≤ x := ha.1
    exact ⟨Int.tdiv_nonneg hx hb.1, Int.le_trans (Int.tdiv_le_self y hx) ha.2⟩
  | true =>
    have pos := Nat.two_pow_pos (w - 1)
    have size := Int.natAbs_tdiv_le_natAbs x y
    rw [minOf_true] at ha h ⊢
    rw [maxOf_true] at ha ⊢
    have inner : x.tdiv y ≠ (2 ^ (w - 1) : Nat) := by
      intro outer
      have hx : x = -((2 ^ (w - 1) : Nat) : Int) := by omega
      have hy := natAbs_eq_one_of_natAbs_tdiv_eq (y := y) (by omega : x ≠ 0) (by rw [outer, hx, Int.natAbs_neg])
      obtain rfl | rfl : y = 1 ∨ y = -1 := by omega
      · rw [Int.tdiv_one] at outer
        omega
      · exact h ⟨rfl, hx, rfl⟩
    omega

/-- The minimum and its negation have the same low bits. -/
theorem wrapTo_neg_minOf {w : Nat} (hw : 0 < w) : wrapTo w (-minOf w true) = wrapTo w (minOf w true) := by
  have apart : -minOf w true = minOf w true + (2 ^ w : Nat) := by
    have := Nat.two_pow_pred_add_two_pow_pred hw
    rw [minOf_true]
    omega
  rw [apart, wrapTo, Int.add_emod_right, wrapTo]

/-- DIV of one element: the quotient, with the cases of R118. -/
theorem divElem_spec {w : Nat} (hw : 0 < w) (sg : Bool) {a : Nat} (b : Nat) (ha : a < 2 ^ w) :
    if b = 0 then divElem w sg a b % 2 ^ w = 2 ^ w - 1
    else if sg = true ∧ valueOf w sg a = minOf w true ∧ valueOf w sg b = -1 then divElem w sg a b % 2 ^ w = a
    else valueOf w sg (divElem w sg a b % 2 ^ w) = Int.tdiv (valueOf w sg a) (valueOf w sg b) := by
  split
  · next hb => rw [hb, divElem_zero, Nat.mod_eq_of_lt (Nat.sub_lt (Nat.two_pow_pos w) Nat.one_pos)]
  · next hb =>
    rw [divElem_of_ne sg a hb, wrapTo_mod]
    split
    · next h =>
      obtain ⟨rfl, hmin, hminus⟩ := h
      rw [hminus, Int.tdiv_neg, Int.tdiv_one, hmin, wrapTo_neg_minOf hw, ← hmin, wrapTo_valueOf, Nat.mod_eq_of_lt ha]
    · next h => exact valueOf_wrapTo hw (tdiv_mem_range w sg a b h).1 (tdiv_mem_range w sg a b h).2

/-- A truncated remainder lies between 0 and its dividend. -/
theorem tmod_between (x y : Int) : (0 ≤ x.tmod y ∧ x.tmod y ≤ x) ∨ (x ≤ x.tmod y ∧ x.tmod y ≤ 0) := by
  have size : (x.tmod y).natAbs ≤ x.natAbs := Int.natAbs_tmod x y ▸ Nat.mod_le _ _
  rcases Int.le_total 0 x with hx | hx
  · have := Int.tmod_nonneg y hx
    omega
  · have := Int.tmod_nonneg y (Int.neg_nonneg_of_nonpos hx)
    rw [Int.neg_tmod] at this
    omega

/-- REM of one element (R118). -/
theorem remElem_spec {w : Nat} (hw : 0 < w) (sg : Bool) {a : Nat} (b : Nat) (ha : a < 2 ^ w) :
    if b = 0 then remElem w sg a b % 2 ^ w = a
    else valueOf w sg (remElem w sg a b % 2 ^ w) = valueOf w sg a - Int.tdiv (valueOf w sg a) (valueOf w sg b) * valueOf w sg b := by
  split
  · next hb => rw [hb, remElem_zero, Nat.mod_eq_of_lt ha]
  · next hb =>
    rw [remElem_of_ne sg a hb, wrapTo_mod, valueOf_wrapTo_of_between hw a (tmod_between _ _), Int.tmod_def, Int.mul_comm]

/-- Settles O1: each instruction wraps the exact result of each active element. -/
theorem arithmeticWraps : Obligations.ArithmeticWraps := by
  unfold Obligations.ArithmeticWraps
  refine ⟨elementwise_of_binaryOp (fun o => addElem o.w) (fun o w => tagAdd w (o.fmt == .b64)) (fun _ _ => rfl) fun c o e => ?_,
    elementwise_of_binaryOp (fun o => subElem o.w) (fun o w => tagSub w (o.fmt == .b64)) (fun _ _ => rfl) fun c o e => ?_,
    elementwise_of_unaryOp (fun o => subElem o.w 0) (fun _ => tag1) (fun _ _ => rfl) fun c o e => ?_,
    elementwise_of_unaryOp (fun o => absElem o.w) (fun _ => tag1) (fun _ _ => rfl) fun c o e => ?_,
    elementwise_of_binaryOp (fun o => mulElem o.w) (fun o w => tagMul w (o.fmt == .b64)) (fun _ _ => rfl) fun c o e => ?_,
    elementwise_of_ternaryOp (fun o a b x => (a * b + x) % 2 ^ o.w) (fun _ => tag3) (fun _ _ => rfl) fun c o e => ?_⟩
  · rw [addElem_mod, cast_addElem]
  · rw [subElem_mod, cast_subElem _ (c.el_lt ..)]
  · rw [subElem_mod, cast_negElem (c.el_lt ..)]
  · rw [absElem, wrapTo_mod, cast_wrapTo]
  · rw [mulElem_mod, cast_mulElem]
  · rw [Nat.mod_mod, cast_madElem]

/-- Settles O2: each instruction narrows the exact result of each active element. -/
theorem arithmeticExact : Obligations.ArithmeticExact := by
  unfold Obligations.ArithmeticExact
  refine ⟨⟨elementwise_of_binaryOp (fun o => satElem o.w (opSigned o) (· + ·)) (fun _ => tag2) (fun _ _ => rfl) fun c o e => ?_,
      elementwise_of_binaryOp (fun o => satElem o.w (opSigned o) (· - ·)) (fun _ => tag2) (fun _ _ => rfl) fun c o e => ?_,
      elementwise_of_binaryOp (fun o => mulhElem o.w (opSigned o)) (fun _ => tag2) (fun _ _ => rfl) fun c o e => ?_,
      elementwise_of_binaryOp (fun o => minElem o.w (opSigned o)) (fun _ => tag2) (fun _ _ => rfl) fun c o e => ?_,
      elementwise_of_binaryOp (fun o => maxElem o.w (opSigned o)) (fun _ => tag2) (fun _ _ => rfl) fun c o e => ?_,
      elementwise_of_mapActive execMadw (fun _ _ => rfl) (fun c o e => wrapTo (2 * o.w) (c.exactMadw o e))
        (fun h => vector_next h _) fun c o e => ?_⟩,
    elementwise_of_binaryOp (fun o => divElem o.w (opSigned o)) (fun _ => tag2) (fun _ _ => rfl) fun c o e =>
      divElem_spec (width_pos o) (opSigned o) _ (c.el_lt o o.a e),
    elementwise_of_binaryOp (fun o => remElem o.w (opSigned o)) (fun _ => tag2) (fun _ _ => rfl) fun c o e =>
      remElem_spec (width_pos o) (opSigned o) _ (c.el_lt o o.a e)⟩
  · exact (valueOf_mod ..).trans (valueOf_satElem (width_pos o) ..)
  · exact (valueOf_mod ..).trans (valueOf_satElem (width_pos o) ..)
  · exact (congrArg _ (wrapTo_mod ..)).trans (cast_mulhElem ..)
  · exact (valueOf_mod ..).trans (valueOf_minElem ..)
  · exact (valueOf_mod ..).trans (valueOf_maxElem ..)
  · rw [wrapTo_mod, cast_wrapTo]
    rfl

end Sys2Proof.Machine
end

section
/-! PROOF. Logic, shifts and bit fields (R119, R120): the bits of one element, and the counts of them. -/

namespace Sys2Proof.Machine

/-! ### Bits of a result -/

/-- The bits below the width are those of the number reduced. -/
theorem testBit_mod_of_lt (x : Nat) {w i : Nat} (hi : i < w) : (x % 2 ^ w).testBit i = x.testBit i := by
  rw [Nat.testBit_mod_two_pow, decide_eq_true hi, Bool.true_and]

theorem testBit_notElem' (a : Nat) {w i : Nat} (hi : i < w) : (notElem' w a).testBit i = !a.testBit i := by
  rw [notElem', Nat.sub_sub, Nat.add_comm, Nat.testBit_two_pow_sub_succ (Nat.mod_lt _ (Nat.two_pow_pos w)), testBit_mod_of_lt _ hi,
    decide_eq_true hi, Bool.true_and]

theorem testBit_shlElem (a k : Nat) {w i : Nat} (hi : i < w) : (shlElem w a k).testBit i = (decide (k ≤ i) && a.testBit (i - k)) := by
  unfold shlElem
  split
  · have above : ¬ k ≤ i := by omega
    rw [Nat.zero_testBit, decide_eq_false above, Bool.false_and]
  · rw [testBit_mod_of_lt _ hi, Nat.testBit_mul_two_pow]

/-- A rotation moves bit `i` to position `i + k`, modulo the width. -/
theorem testBit_rotElem {w a i : Nat} (k : Nat) (ha : a < 2 ^ w) (hi : i < w) :
    (rotElem w a k).testBit ((i + k) % w) = a.testBit i := by
  have hs : k % w < w := Nat.mod_lt _ (by omega)
  have hj : (i + k) % w < w := Nat.mod_lt _ (by omega)
  have low : a / 2 ^ (w - k % w) < 2 ^ (k % w) := by
    rw [Nat.div_lt_iff_lt_mul (Nat.two_pow_pos _), ← Nat.pow_add, Nat.add_sub_cancel' (Nat.le_of_lt hs)]
    exact ha
  rw [rotElem, testBit_mod_of_lt _ hj, Nat.mul_comm, Nat.testBit_two_pow_mul_add _ low,
    Nat.testBit_div_two_pow]
  have place : (i + k) % w = if i + k % w < w then i + k % w else i + k % w - w := by
    rw [Nat.add_mod, Nat.mod_eq_of_lt hi]
    split
    · next h => exact Nat.mod_eq_of_lt h
    · next h => rw [Nat.mod_eq_sub_mod (by omega), Nat.mod_eq_of_lt (by omega)]
  rw [place]
  split
  · rw [if_neg (by omega), Nat.add_sub_cancel]
  · rw [if_pos (by omega)]
    congr 1
    omega

/-- The reversal is built as a predicate is. -/
theorem ofBits_eq_packPred (f : Nat → Bool) : ∀ n, brevElem.ofBits n f = packPred f n
  | 0 => rfl
  | n + 1 => by rw [brevElem.ofBits, ofBits_eq_packPred f n, packPred]

theorem testBit_brevElem (a : Nat) {w i : Nat} (hi : i < w) : (brevElem w a).testBit i = a.testBit (w - 1 - i) := by
  rw [brevElem, ofBits_eq_packPred, packPred_testBit _ _ _ hi]

/-! ### Shifting right -/

/-- Shifting a value of `w` bits right by more than `w` gives what shifting by `w` gives: nothing but its sign. -/
theorem valueOf_ediv_min (w : Nat) (sg : Bool) (a k : Nat) :
    valueOf w sg a / (2 ^ min k w : Nat) = valueOf w sg a / (2 ^ k : Nat) := by
  rcases Nat.le_total k w with h | h
  · rw [Nat.min_eq_left h]
  · rw [Nat.min_eq_right h]
    obtain ⟨low, high⟩ := valueOf_size w sg a
    have grow : ((2 ^ w : Nat) : Int) ≤ (2 ^ k : Nat) := Int.ofNat_le.mpr (Nat.pow_le_pow_right Nat.two_pos h)
    rcases Int.lt_or_le (valueOf w sg a) 0 with neg | nonneg
    · rw [Int.ediv_eq_neg_one_of_neg_of_le neg (by omega), Int.ediv_eq_neg_one_of_neg_of_le neg (by omega)]
    · rw [Int.ediv_eq_zero_of_lt nonneg high, Int.ediv_eq_zero_of_lt nonneg (by omega)]

theorem valueOf_shrElem {w : Nat} (hw : 0 < w) (sg : Bool) (a k : Nat) : valueOf w sg (shrElem w sg a k) = valueOf w sg a / 2 ^ k := by
  rw [shrElem, valueOf_ediv_min, ← cast_two_pow]
  have pos : (0 : Int) < (2 ^ k : Nat) := Int.ofNat_lt.mpr (Nat.two_pow_pos k)
  have size := Int.natAbs_ediv_le_natAbs (valueOf w sg a) (2 ^ k : Nat)
  refine valueOf_wrapTo_of_between hw a ?_
  rcases Int.le_total 0 (valueOf w sg a) with h | h
  · have := Int.ediv_nonneg h (Int.le_of_lt pos)
    omega
  · have := Int.ediv_nonpos_of_nonpos_of_neg h pos
    omega

/-! ### Bit fields -/

theorem testBit_bits (x lo n i : Nat) : (bits x lo n).testBit i = (decide (i < n) && x.testBit (lo + i)) := by
  rw [bits, Nat.testBit_mod_two_pow, Nat.testBit_div_two_pow, Nat.add_comm]

/-- Replacing a field leaves every other bit. -/
theorem testBit_setBits (x lo n y i : Nat) :
    (setBits x lo n y).testBit i = if lo ≤ i ∧ i < lo + n then y.testBit (i - lo) else x.testBit i := by
  have pieces : setBits x lo n y = 2 ^ lo * (2 ^ n * (x / 2 ^ lo / 2 ^ n) + y % 2 ^ n) + x % 2 ^ lo := by
    have hx := Nat.div_add_mod x (2 ^ lo)
    have hq := Nat.div_add_mod (x / 2 ^ lo) (2 ^ n)
    have : x = 2 ^ lo * (2 ^ n * (x / 2 ^ lo / 2 ^ n)) + bits x lo n * 2 ^ lo + x % 2 ^ lo := by
      rw [bits, Nat.mul_comm _ (2 ^ lo), ← Nat.mul_add, hq, hx]
    rw [setBits, Nat.mul_add, Nat.mul_comm (y % 2 ^ n)]
    omega
  rw [pieces, Nat.testBit_two_pow_mul_add _ (Nat.mod_lt _ (Nat.two_pow_pos lo))]
  by_cases below : i < lo
  · rw [if_pos below, if_neg (by omega), testBit_mod_of_lt _ below]
  · rw [if_neg below, Nat.testBit_two_pow_mul_add _ (Nat.mod_lt _ (Nat.two_pow_pos n))]
    by_cases inside : i < lo + n
    · have hi : i - lo < n := by omega
      rw [if_pos hi, if_pos (by omega), testBit_mod_of_lt _ hi]
    · have place : i - lo - n + n + lo = i := by omega
      rw [if_neg (by omega), if_neg (by omega), Nat.testBit_div_two_pow, Nat.testBit_div_two_pow, place]

/-- The value of `n` bits, written to more bits or fewer: the bits above are copies of the last where it is signed, and 0 where it is not. -/
theorem testBit_wrapTo_valueOf {n : Nat} (hn : 0 < n) (sg : Bool) (y : Nat) {w i : Nat} (hi : i < w) :
    (wrapTo w (valueOf n sg y)).testBit i = if i < n then y.testBit i else sg && y.testBit (n - 1) := by
  cases sg
  · rw [valueOf_false, wrapTo_natCast, testBit_mod_of_lt _ hi, Bool.false_and]
    by_cases h : i < n
    · rw [if_pos h, testBit_mod_of_lt _ h]
    · rw [if_neg h, Nat.testBit_mod_two_pow, decide_eq_false h, Bool.false_and]
  · have value : wrapTo w (valueOf n true y) = ((BitVec.ofNat n y).signExtend w).toNat := by
      rw [valueOf_true, wrapTo_eq_toNat, BitVec.signExtend]
    have last : (BitVec.ofNat n y).msb = y.testBit (n - 1) := by
      rw [BitVec.msb_eq_getLsbD_last, BitVec.getLsbD_ofNat, decide_eq_true (by omega), Bool.true_and]
    rw [value, BitVec.testBit_toNat, BitVec.getLsbD_signExtend, last, BitVec.getLsbD_ofNat, decide_eq_true hi, Bool.true_and, Bool.true_and]
    by_cases h : i < n
    · rw [if_pos h, if_pos h, decide_eq_true h, Bool.true_and]
    · rw [if_neg h, if_neg h]

/-- The length of a field, 0 where it is empty. -/
theorem fieldLen_eq (w pos len : Nat) : fieldLen w pos len = min len (w - pos) := by
  unfold fieldLen
  split <;> omega

theorem bfeElem_of_empty {w pos len : Nat} (sg : Bool) (a : Nat) (h : min len (w - pos) = 0) : bfeElem w sg a pos len = 0 := by
  rw [bfeElem, fieldLen_eq, h]
  rfl

theorem testBit_bfeElem {w pos len : Nat} (sg : Bool) (a : Nat) {i : Nat} (h : min len (w - pos) ≠ 0) (hi : i < w) :
    (bfeElem w sg a pos len).testBit i = if i < min len (w - pos) then a.testBit (pos + i) else sg && a.testBit (pos + min len (w - pos) - 1) := by
  have some_bit := Nat.pos_of_ne_zero h
  have value : bfeElem w sg a pos len = wrapTo w (valueOf (min len (w - pos)) sg (bits a pos (min len (w - pos)))) := by
    simp only [bfeElem, fieldLen_eq, beq_eq_false_iff_ne.mpr h, Bool.false_eq_true, if_false]
  rw [value, testBit_wrapTo_valueOf some_bit sg _ hi, testBit_bits, testBit_bits, decide_eq_true (Nat.sub_lt some_bit Nat.one_pos),
    Nat.add_sub_assoc some_bit]
  split
  · next inside => rw [decide_eq_true inside, Bool.true_and]
  · rfl

theorem testBit_bfiElem (w old a pos len i : Nat) :
    (bfiElem w old a pos len).testBit i =
      if pos ≤ i ∧ i < pos + min len (w - pos) then a.testBit (i - pos) else old.testBit i := by
  unfold bfiElem
  rw [fieldLen_eq]
  by_cases h : min len (w - pos) = 0
  · rw [if_pos (beq_iff_eq.mpr h), if_neg (by omega)]
  · rw [if_neg (by rwa [beq_iff_eq]), testBit_setBits]

/-! ### Counting bits -/

theorem clzElem_le (a : Nat) : ∀ n, clzElem a n ≤ n
  | 0 => Nat.le_refl 0
  | n + 1 => by
    have := clzElem_le a n
    unfold clzElem
    split <;> omega

/-- The leading bits that are counted are 0, and the one below them is 1. -/
theorem testBit_clzElem (a : Nat) : ∀ n, (∀ i, n ≤ i + clzElem a n → i < n → a.testBit i = false) ∧
    (clzElem a n < n → a.testBit (n - 1 - clzElem a n) = true)
  | 0 => ⟨fun _ _ h => absurd h (Nat.not_lt_zero _), fun h => absurd h (Nat.not_lt_zero _)⟩
  | n + 1 => by
    obtain ⟨zeros, one⟩ := testBit_clzElem a n
    unfold clzElem
    split
    · next top => exact ⟨fun i h hi => by omega, fun _ => top⟩
    · next top =>
      refine ⟨fun i h hi => ?_, fun h => ?_⟩
      · rcases Nat.lt_succ_iff_lt_or_eq.mp hi with below | rfl
        · exact zeros i (by omega) below
        · exact Bool.eq_false_iff.mpr top
      · have := one (by omega)
        rwa [show n + 1 - 1 - (1 + clzElem a n) = n - 1 - clzElem a n by omega]

theorem ctzElem_le (a n : Nat) : ctzElem a n ≤ n := by
  induction n generalizing a with
  | zero => exact Nat.le_refl 0
  | succ n ih =>
    have := ih (a / 2)
    unfold ctzElem
    split <;> omega

/-- The trailing bits that are counted are 0, and the one above them is 1. -/
theorem testBit_ctzElem (a n : Nat) : (∀ i, i < ctzElem a n → a.testBit i = false) ∧ (ctzElem a n < n → a.testBit (ctzElem a n) = true) := by
  induction n generalizing a with
  | zero => exact ⟨fun _ h => absurd h (Nat.not_lt_zero _), fun h => absurd h (Nat.not_lt_zero _)⟩
  | succ n ih =>
    obtain ⟨zeros, one⟩ := ih (a / 2)
    unfold ctzElem
    split
    · next odd =>
      refine ⟨fun _ h => absurd h (Nat.not_lt_zero _), fun _ => ?_⟩
      simpa only [Nat.testBit_zero, decide_eq_true_eq, beq_iff_eq] using odd
    · next even =>
      refine ⟨fun i h => ?_, fun h => ?_⟩
      · cases i with
        | zero => simpa only [Nat.testBit_zero, decide_eq_false_iff_not, beq_iff_eq] using even
        | succ i => exact (Nat.testBit_succ a i).trans (zeros i (by omega))
      · rw [Nat.add_comm, Nat.testBit_succ]
        exact one (by omega)

theorem popcElem_eq (a : Nat) : ∀ n, popcElem a n = ((List.range n).filter a.testBit).length
  | 0 => rfl
  | n + 1 => by
    rw [popcElem, popcElem_eq a n, List.range_succ, List.filter_append, List.length_append, Nat.add_comm]
    cases h : a.testBit n
    · rw [List.filter_cons_of_neg (by rw [h]; decide)]
      rfl
    · rw [List.filter_cons_of_pos h]
      rfl

theorem popcElem_le (a n : Nat) : popcElem a n ≤ n := by
  rw [popcElem_eq]
  exact Nat.le_trans (List.length_filter_le ..) (Nat.le_of_eq List.length_range)

/-- A count of at most `w` fits in `w` bits. -/
theorem mod_two_pow_of_le {w r : Nat} (h : r ≤ w) : r % 2 ^ w = r := Nat.mod_eq_of_lt (Nat.lt_of_le_of_lt h Nat.lt_two_pow_self)

/-- The amount in lane 0, which decides SHL's tag in the 64-bit formats alone, is there that of element 0. -/
theorem tagShl_lane (whole : Bool) (f : Fmt) (x y : Tag) (v : Lanes) :
    tagShl whole (f == .b64) x y (lane v 0) = tagShl whole (f == .b64) x y (elem v f.width 0) := by
  by_cases h : f = .b64
  · rw [h]
    rfl
  · simp only [tagShl, beq_eq_false_iff_ne.mpr h, Bool.and_false, Bool.false_and, Bool.false_eq_true, if_false]

/-- Settles O3: each instruction, bit by bit; SHR by the value that its bits hold. -/
theorem logicAndShifts : Obligations.LogicAndShifts := by
  unfold Obligations.LogicAndShifts
  refine ⟨elementwise_of_binaryOp (fun _ a b => a &&& b) (fun _ => tag2) (fun _ _ => rfl) fun c o e i hi => ?_,
    elementwise_of_binaryOp (fun _ a b => a ||| b) (fun _ => tag2) (fun _ _ => rfl) fun c o e i hi => ?_,
    elementwise_of_binaryOp (fun _ a b => a ^^^ b) (fun _ => tag2) (fun _ _ => rfl) fun c o e i hi => ?_,
    elementwise_of_binaryOp (fun o a b => a &&& notElem' o.w b) (fun _ => tag2) (fun _ _ => rfl) fun c o e i hi => ?_,
    elementwise_of_unaryOp (fun o => notElem' o.w) (fun _ => tag1) (fun _ _ => rfl) fun c o e i hi => ?_,
    Elementwise.congr_tag
      (tag' := fun c o _ => tagShl (c.whole o o.w) (o.fmt == .b64) (c.tagA o) (c.tagB o) (lane (c.read o (some o.fmt) o.b).val 0))
      (elementwise_of_mapActive execShl (fun _ _ => rfl) (fun c o e => shlElem o.w (c.el o o.a e) (c.el o o.b e))
        (fun h => vector_next h _) fun c o e i hi => ?_) fun _ _ _ => tagShl_lane ..,
    elementwise_of_binaryOp (fun o => shrElem o.w (opSigned o)) (fun _ => tag2) (fun _ _ => rfl) fun c o e => ?_,
    elementwise_of_binaryOp (fun o => rotElem o.w) (fun _ => tag2) (fun _ _ => rfl) fun c o e i hi => ?_⟩
  · rw [testBit_mod_of_lt _ hi, Nat.testBit_and]
  · rw [testBit_mod_of_lt _ hi, Nat.testBit_or]
  · rw [testBit_mod_of_lt _ hi, Nat.testBit_xor]
  · rw [testBit_mod_of_lt _ hi, Nat.testBit_and, testBit_notElem' _ hi]
  · rw [testBit_mod_of_lt _ hi, testBit_notElem' _ hi]
  · rw [testBit_mod_of_lt _ hi, testBit_shlElem _ _ hi]
  · exact (valueOf_mod ..).trans (valueOf_shrElem (width_pos o) ..)
  · have hj := Nat.mod_lt (i + c.el o o.b e) (width_pos o)
    rw [testBit_mod_of_lt _ hj, testBit_rotElem _ (c.el_lt ..) hi]

/-- Settles O4: the counts by induction on the bits counted, the fields bit by bit. -/
theorem bitFields : Obligations.BitFields := by
  unfold Obligations.BitFields
  refine ⟨elementwise_of_unaryOp (fun o a => clzElem a o.w) (fun _ => tag1) (fun _ _ => rfl) fun c o e => ?_,
    elementwise_of_unaryOp (fun o a => ctzElem a o.w) (fun _ => tag1) (fun _ _ => rfl) fun c o e => ?_,
    elementwise_of_unaryOp (fun o a => popcElem a o.w) (fun _ => tag1) (fun _ _ => rfl) fun c o e => ?_,
    elementwise_of_unaryOp (fun o => brevElem o.w) (fun _ => tag1) (fun _ _ => rfl) fun c o e i hi => ?_,
    elementwise_of_ternaryOp (fun o => bfeElem o.w (opSigned o)) (fun _ => tag3) (fun _ _ => rfl) fun c o e => ?_,
    elementwise_of_mapActive execBfi (fun _ _ => rfl)
      (fun c o e => bfiElem o.w (elem (oldDest c.r o.d).val o.w e) (c.el o o.a e) (c.el o o.b e) (c.el o o.c e))
      (fun h => vector_next h _) fun c o e i hi => ?_⟩
  · rw [mod_two_pow_of_le (clzElem_le ..)]
    exact ⟨clzElem_le .., testBit_clzElem ..⟩
  · rw [mod_two_pow_of_le (ctzElem_le ..)]
    exact ⟨ctzElem_le .., testBit_ctzElem ..⟩
  · rw [mod_two_pow_of_le (popcElem_le ..), popcElem_eq]
  · rw [testBit_mod_of_lt _ hi, testBit_brevElem _ hi]
  · dsimp only
    split
    · next empty => rw [bfeElem_of_empty _ _ empty, Nat.zero_mod]
    · next field =>
      intro i hi
      rw [testBit_mod_of_lt _ hi, testBit_bfeElem _ _ field hi]
  · rw [testBit_mod_of_lt _ hi, testBit_bfiElem]

end Sys2Proof.Machine
end

section
/-! PROOF. Comparison, selection, moves, addresses and predicate logic (R121 to R124, R127, R128). -/

namespace Sys2Proof.Machine

/-- The predicate bit of an element is the one of the byte at which it starts (R19). -/
theorem predIndex_width (o : Ops) (e : Nat) : predIndex o.w e = o.w * e / 8 := by
  unfold predIndex laneOf byteOff Ops.w
  cases o.fmt <;> simp only [Fmt.width] <;> omega

/-- The value of SEL for one element (R122). -/
def Ctx.selected (c : Ctx) (o : Ops) (e : Nat) : Nat :=
  if (readPred c.g o.c).getLsbD (predIndex o.w e) then c.el o o.a e else c.el o o.b e

/-- Selecting by p0 is a move of A (R122). -/
theorem tag_selected (whole always : Bool) (x : Tag) :
    (if always = true then tagMov whole x else .g) = if (whole && always) = true then x else .g := by
  cases whole <;> cases always <;> rfl

/-- The place in PLOG's truth table of two bits (R127). -/
theorem plog_index (x y : Bool) : (if x then 2 else 0) + (if y then 1 else 0) = 2 * x.toNat + y.toNat := by
  cases x <;> cases y <;> rfl

/-- PMOV from a vector: a bit tells whether its byte is other than 0 (R128). -/
theorem pmov_toPred {s : State} {c : Ctx} {o : Ops} (h : Issues s c o) (hmod : o.mod.getLsbD 0 = false) :
    ∃ x, exec (.pmov o) s = .next (wrotePred s c o x) ∧ ∀ b, b < 256 → x.getLsbD b =
      if (c.guard o).bit b then elem (c.read o none o.a).val 8 b != 0 else (readPred c.g o.d).getLsbD b := by
  have arm : exec (.pmov o) s = predicate o s fun c g old =>
      ofPred fun b => if g.bit b then elem (c.read o none o.a).val 8 b != 0 else old.getLsbD b :=
    if_neg (Bool.eq_false_iff.mp hmod)
  exact ⟨_, arm.trans (predicate_next h _), fun b hb => getLsbD_ofPred _ b hb⟩

/-- PMOV from a predicate: a byte is all ones or 0, as its bit tells (R128). -/
theorem pmov_toVector {s : State} {c : Ctx} {o : Ops} (h : Issues s c o) (hmod : o.mod.getLsbD 0 = true) :
    ∃ x, exec (.pmov o) s = .next (wrote s c o x) ∧ x.tag = .g ∧ ∀ b, b < 256 → elem x.val 8 b =
      if (c.guard o).bit b then (if (readPred c.g o.a).getLsbD b then 0xFF else 0) else elem (oldDest c.r o.d).val 8 b := by
  have arm : exec (.pmov o) s = vector o s fun c g old =>
      { val := ofElems 8 fun b => if g.bit b then (if (readPred c.g o.a).getLsbD b then 0xFF else 0) else elem old.val 8 b, tag := .g } :=
    if_pos hmod
  refine ⟨_, arm.trans (vector_next h _), rfl, fun b hb => ?_⟩
  rw [elem_ofElems 8 _ b hb]
  refine Nat.mod_eq_of_lt ?_
  split
  · split <;> decide
  · exact elem_lt ..

/-- Settles O5: the vector instructions by the value of each active element, the predicate ones by that of each active bit. -/
theorem compareAndSelect : Obligations.CompareAndSelect := by
  unfold Obligations.CompareAndSelect
  refine ⟨⟨bitwise_of_ofPred execCmp (fun _ _ => rfl)
        (fun c o b => intCmp (o.mod.toNat % 8) (c.int o o.a (8 * b / o.w)) (c.int o o.b (8 * b / o.w)))
        (fun h => predicate_next h _) fun _ _ _ => rfl,
      Elementwise.congr_tag (tag' := fun c o _ => if Opnd.num o.c == 0 then tagMov (c.whole o o.w) (c.tagA o) else .g)
        (elementwise_of_mapActive execSel (fun _ _ => rfl) Ctx.selected (fun h => vector_next h _) fun c o e => ?_)
        fun _ _ _ => tag_selected ..,
      elementwise_of_unaryOp (fun _ a => a) (fun _ => tagMov) (fun _ _ => rfl) fun c o e => ?_,
      elementwise_of_mapActive execMovw (fun _ _ => rfl) (fun c o e => lane (c.read o none o.a).val e) (fun h => vector_next h _)
        fun c o e => ?_,
      elementwise_of_mapActive execLea (fun _ _ => rfl) _
        (fun h => vector_next h _) fun c o e => ?_,
      elementwise_of_mapActive execIdx (fun _ _ => rfl) (fun c o e => (c.el o o.a e + e * c.el o o.b e) % 2 ^ o.w)
        (fun h => vector_next h _) fun c o e => ?_⟩,
    bitwise_of_ofPred execPlog (fun _ _ => rfl) _ (fun h => predicate_next h _) fun c o b => congrArg o.mod.getLsbD (plog_index ..),
    fun _ _ _ => pmov_toPred, fun _ _ _ => pmov_toVector⟩
  · rw [Ctx.selected, predIndex_width]
    split
    · exact Nat.mod_eq_of_lt (c.el_lt ..)
    · exact Nat.mod_eq_of_lt (c.el_lt ..)
  · exact Nat.mod_eq_of_lt (c.el_lt ..)
  · exact Nat.mod_eq_of_lt (elem_lt ..)
  · exact Nat.mod_mod ..
  · exact Nat.mod_mod ..

end Sys2Proof.Machine
end

section
/-! PROOF. Conversion between integer widths (R125, R126): CVTI, PACK and UNPK. -/

namespace Sys2Proof.Machine

/-- A converted element holds the number narrowed to its width (R125). -/
theorem narrowed_convInt {wd : Nat} (hw : 0 < wd) (ws : Nat) (ssg dsg sat : Bool) (x : Nat) :
    Narrowed wd dsg sat (valueOf ws ssg x) (convInt ws ssg wd dsg sat x % 2 ^ wd) := by
  rw [convInt, wrapTo_mod]
  cases sat with
  | false => exact cast_wrapTo ..
  | true => exact valueOf_wrapTo_satTo hw dsg _

/-- The source format of CVTI (R125). -/
def cvtiFrom (o : Ops) : Fmt := (Fmt.ofCode (Opnd.num o.b)).getD .b64

/-- An element of CVTI's source, converted. -/
def Ctx.cvtiElem (c : Ctx) (o : Ops) (k : Nat) : Nat :=
  convInt (cvtiFrom o).width (signed64 (cvtiFrom o)) o.w (signed64 o.fmt) (o.mod.getLsbD 0)
    (elem (c.read o (some (cvtiFrom o)) o.a).val (cvtiFrom o).width k)

/-- The value of CVTI for one element of the destination: wider elements are filled from one part of each source lane; narrower ones fill one
part of each destination lane and keep the others. -/
def Ctx.cvtiValue (c : Ctx) (o : Ops) (e : Nat) : Nat :=
  let nd := 64 / o.w
  let ns := 64 / (cvtiFrom o).width
  let part := Opnd.num o.c
  if (cvtiFrom o).width ≤ o.w then c.cvtiElem o (e / nd * ns + part * nd + e % nd)
  else if decide (part * ns ≤ e % nd) && decide (e % nd < part * ns + ns) then c.cvtiElem o (e / nd * ns + (e % nd - part * ns))
  else elem (oldDest c.r o.d).val o.w e

/-- What CVTI writes, and its tag: D is a source where elements of it are kept (R15, R125). -/
theorem cvti_next {s : State} {c : Ctx} {o : Ops} (h : Issues s c o) : execCvti o s = .next (wrote s c o
    { val := mapActive (c.guard o) o.w (oldDest c.r o.d).val (c.cvtiValue o)
      tag := tagOf (c.whole o o.w) (if (cvtiFrom o).width ≤ o.w then [(c.read o (some (cvtiFrom o)) o.a).tag]
        else [(c.read o (some (cvtiFrom o)) o.a).tag, (oldDest c.r o.d).tag]) }) := by
  refine (vector_next h _).trans (congrArg (fun x => Host.Outcome.next (wrote s c o x)) ?_)
  unfold Ctx.cvtiValue
  by_cases widens : (cvtiFrom o).width ≤ o.w
  · simp only [if_pos widens]
    exact if_pos widens
  · simp only [if_neg widens]
    exact if_neg widens

/-- The value of PACK for one element: the lower half of a lane is A's elements narrowed, the upper half B's (R126). -/
def Ctx.packValue (c : Ctx) (o : Ops) (e : Nat) : Nat :=
  let n := 64 / o.w
  let conv := convInt (2 * o.w) o.fmt.signed o.w o.fmt.signed (o.mod.getLsbD 0)
  if e % n < n / 2 then conv (c.wide o o.a (e / n * (n / 2) + e % n)) else conv (c.wide o o.b (e / n * (n / 2) + e % n - n / 2))

/-- The value of UNPK for one element: an element of one half of a lane, extended (R126). -/
def Ctx.unpkValue (c : Ctx) (o : Ops) (e : Nat) : Int :=
  let n := 64 / o.w
  valueOf o.w o.fmt.signed (c.el o o.a (e / (n / 2) * n + e % (n / 2) + (if o.mod.getLsbD 0 then n / 2 else 0)))

/-- Settles O6: each element converted is the number narrowed, whether its place is one of A, of B, or of one part of a lane. -/
theorem integerConversions : Obligations.IntegerConversions := by
  unfold Obligations.IntegerConversions
  refine ⟨elementwise_of_mapActive execCvti (fun _ _ => rfl) Ctx.cvtiValue cvti_next fun c o e => ?_,
    elementwise_of_mapActive execPack (fun _ _ => rfl) Ctx.packValue (fun h => vector_next h _) fun c o e => ?_,
    elementwise_of_mapActive execUnpk (fun _ _ => rfl) (fun c o e => wrapTo (2 * o.w) (c.unpkValue o e)) (fun h => vector_next h _)
      fun c o e => ?_⟩
  · unfold Ctx.cvtiValue Ctx.cvtiElem cvtiFrom
    simp only [Bool.and_eq_true, decide_eq_true_eq]
    split
    · exact narrowed_convInt (width_pos o) ..
    · split
      · exact narrowed_convInt (width_pos o) ..
      · exact Nat.mod_eq_of_lt (elem_lt ..)
  · unfold Ctx.packValue
    dsimp only
    split
    · exact narrowed_convInt (width_pos o) ..
    · exact narrowed_convInt (width_pos o) ..
  · rw [wrapTo_mod, cast_wrapTo]
    rfl

end Sys2Proof.Machine
end

section
/-! SUPPORT. The shared shape of a memory instruction: what `performFrom`, `electing`, `closing` and the course of an atomic answer once the
sources are full (R16, R18, R181, R192, R260). -/

namespace Sys2Proof.Machine

theorem readyOf_go {g : Group} {r : Run} {srcs : List (Opnd × Bool)} (h : ∀ x ∈ srcs.map Prod.fst, isEmpty g r x = false) :
    readyOf g r srcs = .go := by
  induction srcs with
  | nil => rfl
  | cons x srcs ih =>
    obtain ⟨hx, hsrcs⟩ := List.forall_mem_cons.mp h
    rw [readyOf, hx]
    exact ih hsrcs

section
variable {s s' : State} {c : Ctx} {o : Ops} {srcs : List (Opnd × Bool)}

theorem performFrom_next (h : IssuesFrom s c (srcs.map Prod.fst)) (f : Ctx → State) :
    performFrom srcs s f = .next (settleTxns (f c)) := by
  unfold performFrom
  rw [h.running]
  dsimp only
  rw [readyOf_go h.full]
  rfl

/-- With no elected lane an instruction goes on with no effect (R16). -/
theorem electing_none (hc : running s = some c) (hp : isEmpty c.g c.r (.reg (.p o.pred)) = false) (he : (c.guard o).elected = none)
    (idle : Ctx → State) (k : Host.Outcome State Fault Refusal) : electing o s idle k = .next (settleTxns (idle c)) := by
  unfold electing
  rw [hc]
  dsimp only
  rw [hp, he]
  rfl

theorem electing_some {l : Nat} (hc : running s = some c) (hp : isEmpty c.g c.r (.reg (.p o.pred)) = false)
    (he : (c.guard o).elected = some l) (idle : Ctx → State) (k : Host.Outcome State Fault Refusal) : electing o s idle k = k := by
  unfold electing
  rw [hc]
  dsimp only
  rw [hp, he]
  rfl

/-- An instruction of memory that reads U operands, a lane being elected. -/
theorem electing_performFrom {l : Nat} (h : IssuesFrom s c (srcs.map Prod.fst)) (hp : .reg (.p o.pred) ∈ srcs.map Prod.fst)
    (he : (c.guard o).elected = some l) (idle f : Ctx → State) : electing o s idle (performFrom srcs s f) = .next (settleTxns (f c)) :=
  (electing_some h.running (h.full _ hp) he ..).trans (performFrom_next h f)

/-- A closing instruction whose group has performed its loads and has no transaction open. -/
theorem closing_next (h : IssuesFrom s c (srcs.map Prod.fst)) (hl : loadsPerformed c.g = true) (ht : c.g.txn = none) (f : Ctx → State) :
    closing o srcs s f = .next (settleTxns (f c)) := by
  unfold closing
  rw [performFrom_next h, hl, ht]
  rfl

/-- A release that is complete lets its instruction go on (R267, R434). -/
theorem release_next {sc : Scope} (h : mayRelease s c sc) (k : State → State) : c.release s sc k = k s := by
  obtain ⟨complete, lost⟩ := h
  unfold Ctx.release
  rw [complete]
  cases sc
  case sys =>
    rw [lost rfl]
    rfl
  all_goals rfl

/-- An atomic that passes its checks, its release complete, does what it does (R181). -/
theorem atomicOp_next {hostOk : Bool} {locs : List (Nat × Nat × Loc)} (h : IssuesFrom s c (addressOperands o ++ [o.c]))
    (hl : loadsPerformed c.g = true) (ht : c.g.txn = none) (hv : c.atomicChecks s o hostOk = (.go locs [], s'))
    (hr : releases o.mod = true → mayRelease s' c (modScope o.mod)) (f : Ctx → State → List (Nat × Nat × Loc) → State) :
    atomicOp o hostOk s f = .next (settleTxns (f c s' locs)) := by
  have hv : check s c.seat (c.base o.a) .atomic (o.fmt.width / 8) (hostRefuses hostOk) (c.elems o) = (.go locs [], s') := hv
  refine (closing_next (srcs := addressSources o ++ [(o.c, o.ec)]) h hl ht _).trans ?_
  dsimp only
  rw [hv]
  cases hm : releases o.mod
  · rfl
  · exact congrArg (fun t => Host.Outcome.next (settleTxns t)) (release_next (hr hm) fun t => f c t locs)

end

end Sys2Proof.Machine
end

section
/-! PROOF. The issue of the atomics (R178 to R182): one lemma for those that return a value, and SCADD. -/

namespace Sys2Proof.Machine

theorem withdraw_waits (r : Run) (n : Nat) : (r.withdraw n).waits = r.waits := by
  unfold Run.withdraw
  split <;> rfl

theorem isAccess_newAccess (c : Ctx) (s : State) (use : Use) (todo : List Item) (absent : List Nat) (policy : Nat) (vas : List (Nat × Word)) :
    IsAccess (newAccess c s.nextId use todo absent policy vas) s use todo absent policy := ⟨rfl, rfl, rfl, rfl, rfl, rfl, rfl, rfl⟩

/-- What the issue of an atomic that returns a value does, `may` being what it asks for beyond the common course (R178 to R180). -/
def AtomicReturns (i : Ops → Instr) (hostOk : Bool) (op : Ops → AtomOp) (may : Ctx → Ops → Prop) : Prop :=
  ∀ s s' c o locs, IssuesFrom s c (addressOperands o ++ [o.c]) → loadsPerformed c.g = true → c.g.txn = none → may c o →
    c.atomicChecks s o hostOk = (.go locs [], s') → (releases o.mod = true → mayRelease s' c (modScope o.mod)) → ∃ a,
      IsAccess a s' (.atomic (Opnd.num o.d) o.w) (locs.map fun (e, _, l) => { idx := e, loc := l, size := o.w / 8, nib := none }) [] 1 ∧
      exec (i o) s = .next (settleTxns (c.put
        (queueAtoms s'.fresh.2 (locs.map fun (e, _, l) n =>
          atomOf c n s'.nextId e l o.w (op o) (c.el o o.c e) (elem (c.g.vreg (Opnd.num o.d)).val o.w e)))
        ((c.g.emptyV (Opnd.num o.d)).with a)
        { (c.r.withdraw (Opnd.num o.d)).committedAfter (opWords o) with
          waits := if acquires o.mod then c.r.waits ++ [.returns s'.nextId (some (modScope o.mod))] else c.r.waits }))

/-- An instruction that takes the common course of the returning atomics. -/
theorem atomicReturns_of_exec {i : Ops → Instr} {hostOk : Bool} {op : Ops → AtomOp} {may : Ctx → Ops → Prop}
    (hexec : ∀ s c o, running s = some c → may c o → exec (i o) s = returningAtomic o hostOk (op o) s) :
    AtomicReturns i hostOk op may := by
  intro s s' c o locs h hl ht hmay hv hr
  refine ⟨_, isAccess_newAccess c s' _ _ _ _ (locs.map fun (e, ea, _) => (e, BitVec.ofNat 64 ea)),
    (hexec s c o h.running hmay).trans ((atomicOp_next h hl ht hv hr _).trans ?_)⟩
  rw [← withdraw_waits c.r (Opnd.num o.d)]
  cases acquires o.mod <;> rfl

/-- ACAS takes that course once its compare values are there (R179). -/
theorem execAcas_full {s : State} {c : Ctx} {o : Ops} (hc : running s = some c) (hfull : (c.g.vreg (Opnd.num o.d)).full = true) :
    execAcas o s = returningAtomic o true .cas s := by
  unfold execAcas
  rw [hc]
  exact if_pos hfull

/-- Settles O22: each atomic with a return takes their common course, ACAS once its D is full; SCADD queues its sums. -/
theorem atomicsIssue : Obligations.AtomicsIssue := by
  unfold Obligations.AtomicsIssue
  have plain {i : Ops → Instr} {hostOk : Bool} {op : Ops → AtomOp} (hexec : ∀ s o, exec (i o) s = returningAtomic o hostOk (op o) s) :
      AtomicReturns i hostOk op fun _ _ => True := atomicReturns_of_exec fun s _ o _ _ => hexec s o
  exact ⟨plain fun _ _ => rfl, plain fun _ _ => rfl, atomicReturns_of_exec fun _ _ _ hc hfull => execAcas_full hc hfull,
    plain fun _ _ => rfl, plain fun _ _ => rfl, plain fun _ _ => rfl, plain fun _ _ => rfl, plain fun _ _ => rfl, plain fun _ _ => rfl,
    fun s s' c o locs h hl ht hv hr => ⟨_, isAccess_newAccess c s' _ _ _ _ _, atomicOp_next h hl ht hv hr _⟩⟩

end Sys2Proof.Machine
end

section
/-! SUPPORT. Translation and prefetch change no line's value, no scratchpad and no group (R171, R177, R313 to R316). -/

namespace Sys2Proof.Machine

/-! ### Cores, clusters and messages -/

theorem kept_setCore (s : State) (n : Nat) (x : Core) : Kept s (s.setCore n x) := .of_same rfl rfl rfl rfl rfl

theorem kept_fresh (s : State) : Kept s s.fresh.2 := .of_same rfl rfl rfl rfl rfl

theorem kept_setCluster (s : State) (n : Nat) (x : Cluster) : Kept s (s.setCluster n x) := .of_same rfl rfl rfl rfl rfl

theorem Kept.ite {s t u : State} {p : Prop} [Decidable p] (h : Kept s t) (k : Kept s u) : Kept s (if p then t else u) := by
  split
  · exact h
  · exact k

theorem Kept.foldl {α : Type} {f : State → α → State} {xs : List α} (h : ∀ s, ∀ x ∈ xs, Kept s (f s x)) (s : State) :
    Kept s (xs.foldl f s) := by
  induction xs generalizing s with
  | nil => exact .refl s
  | cons x xs ih => exact (h s x (List.mem_cons_self ..)).trans (ih (fun s y hy => h s y (List.mem_cons_of_mem _ hy)) _)

theorem kept_tell (s : State) (a b : Nat) : Kept s (tell s a b) :=
  .ite (.refl s) (.ite (.of_same rfl rfl rfl rfl rfl) (.refl s))

theorem kept_exchange (s : State) (a b : Nat) : Kept s (exchange s a b) := (kept_tell ..).trans (kept_tell ..)

theorem kept_send (s : State) (core port : Nat) (r : Remote) : Kept s (send s core port r) :=
  (kept_tell s _ _).trans (.of_same rfl rfl rfl rfl rfl)

theorem kept_holdRead (s : State) (who : Reader) (line : Nat) : Kept s (holdRead s who line) := by
  unfold holdRead
  split
  · exact .ite (.refl s) (.of_same rfl rfl rfl rfl rfl)
  · exact .refl s

theorem kept_countCore (s : State) (core part event : Nat) : Kept s (countCore s core part event) := by
  unfold countCore countCoreBy
  split
  · exact .refl s
  · exact kept_setCore ..

/-! ### Walks -/

theorem kept_cacheTable (s : State) (cl part asn level va table : Nat) : Kept s (cacheTable s cl part asn level va table) :=
  (kept_free s).trans (kept_setCluster ..)

theorem kept_homeRead (s : State) (a policy : Nat) : Kept s (homeRead s (a / 128 * 128) policy).2.2 :=
  (homeRead_kept s _ policy (Nat.mul_mod_left ..)).2

theorem kept_readPte (s : State) (level va table : Nat) : Kept s (readPte s level va table).2 := by
  unfold readPte
  dsimp only
  split
  · exact .refl s
  · split
    · exact kept_holdRead ..
    · exact kept_homeRead ..

theorem kept_rootTable (s : State) (part asn : Nat) : Kept s (rootTable s part asn).2 := by
  unfold rootTable
  dsimp only
  split
  · exact .refl s
  · split
    · exact kept_holdRead ..
    · exact kept_homeRead ..

theorem kept_walkFrom (cl part asn va : Nat) : ∀ (level table : Nat) (s : State), Kept s (walkFrom cl part asn va level table s).2
  | 0, table, s => by
    have read := kept_readPte s 0 va table
    unfold walkFrom
    generalize readPte s 0 va table = r at read ⊢
    obtain ⟨e, t⟩ := r
    cases e <;> exact read
  | l + 1, table, s => by
    have read := kept_readPte s (l + 1) va table
    unfold walkFrom
    generalize readPte s (l + 1) va table = r at read ⊢
    obtain ⟨e, t⟩ := r
    cases e with
    | table pa => exact (Kept.trans read (kept_cacheTable ..)).trans (kept_walkFrom cl part asn va l pa _)
    | _ => exact read

theorem kept_walk (s : State) (cl part asn va : Nat) : Kept s (walk s cl part asn va).2 := by
  have root := kept_rootTable s part asn
  unfold walk
  split
  · exact kept_walkFrom ..
  · generalize rootTable s part asn = r at root ⊢
    obtain ⟨e, t⟩ := r
    cases e with
    | table pa => exact Kept.trans root (kept_walkFrom ..)
    | _ => exact root

theorem kept_noteWalk (s : State) (cl : Nat) (m : Miss) : Kept s (s.noteWalk cl m) := .ite (.refl s) (kept_setCluster ..)

theorem kept_translateCluster (s : State) (cl part asn va : Nat) : Kept s (translateCluster s cl part asn va).2 := by
  have walked := kept_walk s cl part asn va
  unfold translateCluster
  split
  · exact .refl s
  · split
    · exact .refl s
    · dsimp only
      split
      · exact kept_noteWalk ..
      · generalize walk s cl part asn va = r at walked ⊢
        obtain ⟨e, t⟩ := r
        cases e with
        | resident f z p => exact ((Kept.trans walked (kept_setCluster ..)).trans (kept_free _)).trans (kept_setCluster ..)
        | held => exact Kept.trans walked (kept_noteWalk ..)
        | _ => exact Kept.trans walked (kept_setCluster ..)

theorem kept_countMiss (s : State) (core part : Nat) (m : Miss) : Kept s (countMiss s core part m) :=
  .ite (.refl s) ((kept_countCore ..).trans (kept_setCore ..))

/-- The TLB path of a core (R314, R315). -/
theorem kept_translate (s : State) (core part asn va : Nat) : Kept s (translate s core part asn va).2 := by
  have path := (kept_countMiss s core part (missAt part asn va)).trans (kept_translateCluster _ (core / 4) part asn va)
  unfold translate
  split
  · exact .refl s
  · dsimp only
    generalize translateCluster (countMiss s core part (missAt part asn va)) (core / 4) part asn va = r at path ⊢
    obtain ⟨e, t⟩ := r
    cases e with
    | resident f z p => exact ((Kept.trans path (kept_setCore ..)).trans (kept_free _)).trans (kept_setCore ..)
    | held => exact path
    | _ => exact Kept.trans path (kept_setCore ..)

/-! ### The elements of an instruction -/

theorem kept_lookUp (s : State) (u : Nat × Nat × Nat) (seen : Seen) (ea : Nat) : Kept s (lookUp s u seen ea).2.2 := by
  unfold lookUp
  split
  · exact .refl s
  · exact kept_translate ..

theorem kept_resolveSeen (s : State) (u : Seat) (x : Option XReg) (off ea : Nat) (need : Need) (seen : Seen) :
    Kept s (resolveSeen s u x off ea need seen).2.2 := by
  unfold resolveSeen
  split
  · exact .refl s
  · split
    · exact .refl s
    · rw [apply_ite (f := fun r : Res × Seen × State => r.2.2)]
      exact .ite (kept_countCore ..) (kept_lookUp ..)

theorem kept_resolveFrom (u : Seat) (x : Option XReg) (need : Need) : ∀ (es : List Elem) (s : State) (seen : Seen),
    Kept s (resolveFrom s u x need seen es).2
  | [], s, _ => .refl s
  | e :: es, s, seen => (kept_resolveSeen s u x e.off e.ea need seen).trans (kept_resolveFrom u x need es _ _)

/-! ### Prefetch -/

theorem kept_updateCopy (s : State) (core pa : Nat) (d : LineBits) : Kept s (updateCopy s core pa d) := by
  unfold updateCopy
  dsimp only
  split
  · exact .ite (kept_setCore ..) (kept_setCore ..)
  · exact .refl s

theorem kept_homeReadL1 (s : State) (core a policy : Nat) (install : Bool) :
    Kept s (homeReadL1 s core (a / 128 * 128) policy install).2.2 :=
  have read := (kept_exchange s ..).trans (kept_homeRead _ a policy)
  (read.trans (.ite (kept_setCore ..) (.refl _))).trans (kept_updateCopy ..)

/-- One line of a prefetch (R177). -/
theorem kept_prefLine (s : State) (core policy a : Nat) : Kept s (prefLine s core policy (a / 128 * 128)) := by
  unfold prefLine
  dsimp only
  split
  · split
    · exact ((kept_fresh s).trans (kept_setCore ..)).trans (kept_send ..)
    · exact .refl s
  · split
    · have read := (kept_exchange s (dieOf core) (homeDie (a / 128 * 128))).trans (kept_homeRead _ a policy)
      exact .ite (read.trans (kept_setCore ..)) read
    · exact kept_homeReadL1 ..

theorem kept_prefLines (s : State) (c : Ctx) (o : Ops) : Kept s (prefLines s c o).2 := kept_resolveFrom ..

/-- A prefetch names lines by their first bytes. -/
theorem aligned_of_prefLines {s s' : State} {c : Ctx} {o : Ops} {lines : List Nat} (h : prefLines s c o = (some lines, s')) :
    ∀ pa ∈ lines, ∃ a, pa = a / 128 * 128 := by
  unfold prefLines at h
  dsimp only at h
  obtain ⟨h, -⟩ := Prod.mk.inj h
  split at h
  · cases h
  · cases h
    intro pa hpa
    obtain ⟨⟨e, r⟩, -, hr⟩ := List.mem_filterMap.mp (List.mem_eraseDups.mp hpa)
    dsimp only at hr
    split at hr
    · exact ⟨_, (Option.some.inj hr).symm⟩
    · cases hr

end Sys2Proof.Machine
end

section
/-! PROOF. LTR, PGREQ, PREF and the retry of a page request (R175 to R177, R315, R317). -/

namespace Sys2Proof.Machine

/-! ### LTR -/

/-- LTR of an address that has no translation to cache: the register is invalid, its VBASE the address (R175). -/
def Ctx.ltrInvalid (c : Ctx) (o : Ops) (s : State) : State :=
  c.put s (c.g.setX (Opnd.num o.d) { XReg.launch with vbase := BitVec.ofNat 64 (c.scalar o o.a) }) (c.r.after (opWords o))

/-- LTR after the answer of the TLB path (R175, R315). -/
def Ctx.ltrAnswered (c : Ctx) (o : Ops) (s : State) : Walk → State
  | .resident f z p =>
    let base := c.scalar o o.a
    c.put s (c.g.setX (Opnd.num o.d)
      { vbase := BitVec.ofNat 64 base, pbase := BitVec.ofNat 52 (f + base % pageBytes z), valid := true, rd := p.rd, wr := p.wr,
        atomic := p.atomic, limit := BitVec.ofNat 32 (pageBytes z - base % pageBytes z) }) (c.r.after (opWords o))
  | .held => s
  | _ => c.ltrInvalid o s

section
variable {s s' : State} {c : Ctx} {o : Ops}

theorem ltr_none (h : IssuesFrom s c [.reg (.p o.pred)]) (he : (c.guard o).elected = none) :
    exec (.ltr o) s = .next (settleTxns (passed s c o)) :=
  electing_none h.running (h.full _ (List.mem_cons_self ..)) he _ _

variable {l : Nat} (h : IssuesFrom s c (addressOperands o)) (he : (c.guard o).elected = some l)
include h he

/-- An address beyond the virtual ones or in the scratchpad window is not looked up (R168, R323). -/
theorem ltr_untranslated (hbase : 2 ^ 56 ≤ c.scalar o o.a ∨ inPadWindow (c.scalar o o.a) = true) :
    exec (.ltr o) s = .next (settleTxns (c.ltrInvalid o s)) := by
  refine (electing_performFrom (srcs := addressSources o) h (List.mem_cons_self ..) he _ _).trans ?_
  exact congrArg (fun t => Host.Outcome.next (settleTxns t)) (if_pos hbase)

theorem ltr_translated {r : Walk} (hbase : c.scalar o o.a < 2 ^ 56) (hpad : inPadWindow (c.scalar o o.a) = false)
    (ht : translate s c.core c.st.part c.la.asn (c.scalar o o.a) = (r, s')) :
    exec (.ltr o) s = .next (settleTxns (c.ltrAnswered o s' r)) := by
  have mapped : ¬(2 ^ 56 ≤ c.scalar o o.a ∨ inPadWindow (c.scalar o o.a) = true) := by
    rw [hpad]
    simpa using hbase
  refine (electing_performFrom (srcs := addressSources o) h (List.mem_cons_self ..) he _ _).trans ?_
  dsimp only
  rw [if_neg mapped, ht]
  cases r <;> rfl

end

/-! ### PGREQ and PREF -/

section
variable {s s' : State} {c : Ctx} {o : Ops}

/-- PGREQ whose elements pass the checks asks for the pages that it counts and waits for its own (R176, R319). -/
theorem pgreq_next {locs : List (Nat × Nat × Loc)} {absent : List (Nat × Nat × Nat × Nat)} (h : IssuesFrom s c (addressOperands o ++ [o.c]))
    (hl : loadsPerformed c.g = true) (ht : c.g.txn = none)
    (hv : c.checks s o.a .rd (elemBytes o.w) ((c.elems o).filter fun e => !(readPred c.g o.c).getLsbD (predIndex o.w e.idx)) =
      (.go locs absent, s')) :
    let ps := distinctPages (pagesOf absent)
    let t := waitOnPages s' c.seat ps
    exec (.pgreq o) s = .next (settleTxns ((requestPages t c.seat .rd (ps.filter (pageCounted t c.seat))).modGroup c.gid fun g =>
      { g with run := some { c.r.after (opWords o) with
        committed := true, waits := if g.missing ≤ c.g.missing then c.r.waits else c.r.waits ++ [.pages] } })) := by
  intro ps t
  refine (closing_next (o := o) (srcs := addressSources o ++ [(o.c, o.ec)]) h hl ht _).trans ?_
  unfold Ctx.checks Ops.w at hv
  dsimp only
  rw [hv]

/-- PREF whose walks do not wait brings in its lines, whose values stay (R177). -/
theorem pref_next {lines : List Nat} (h : IssuesFrom s c (addressOperands o)) (hp : prefLines s c o = (some lines, s')) :
    ∃ t, exec (.pref o) s = .next (settleTxns (c.put t c.g (c.r.after (opWords o)))) ∧ Kept s t := by
  have fetched (t : State) : Kept t (lines.foldl (fun s pa => prefLine s c.core (o.mod.toNat % 4) pa) t) :=
    .foldl (fun t pa hpa => by
      obtain ⟨a, rfl⟩ := aligned_of_prefLines hp pa hpa
      exact kept_prefLine ..) t
  have resolved := kept_prefLines s c o
  rw [hp] at resolved
  refine ⟨_, (performFrom_next (srcs := addressSources o) h _).trans ?_, resolved.trans (fetched s')⟩
  rw [hp]
  rfl

/-- PREF stands in place while a walk waits (R315). -/
theorem pref_held (h : IssuesFrom s c (addressOperands o)) (hp : prefLines s c o = (none, s')) : exec (.pref o) s = .next (settleTxns s') := by
  refine (performFrom_next (srcs := addressSources o) h _).trans ?_
  rw [hp]

end

/-- A request kept for a retry is raised once the merge table has room (R317). -/
theorem pageRequestRetry_next {s : State} {k : Nat} {q : PageRequest} (hq : s.retries[k]? = some q) (room : s.merge.length < 4096) :
    exec (.pageRequestRetry k) s = .next (requestPage { s with retries := s.retries.eraseIdx k } q) := by
  change execPageRequestRetry k s = _
  unfold execPageRequestRetry
  rw [hq]
  exact if_pos (by rw [decide_eq_true room, Bool.or_true])

/-- Settles O20: LTR by the answer of the TLB path; PGREQ and PREF by what their checks and walks find. -/
theorem translationAndPages : Obligations.TranslationAndPages := by
  unfold Obligations.TranslationAndPages
  refine ⟨fun s s' c o l f z p h he hbase hpad ht => ltr_translated h he hbase hpad ht,
    fun s c o l h he => ⟨ltr_untranslated h he, fun hbase hpad r s' ht => ⟨?held, ?other⟩⟩,
    fun s c o => ltr_none, fun s s' c o locs absent => pgreq_next, fun s s' c o lines h hp => ⟨?waits, ?fetches⟩,
    fun s k q => pageRequestRetry_next⟩
  case held =>
    rintro rfl
    exact ltr_translated h he hbase hpad ht
  case other =>
    intro hheld hresident
    refine (ltr_translated h he hbase hpad ht).trans ?_
    cases r with
    | resident f z p => exact absurd rfl (hresident f z p)
    | held => exact absurd rfl hheld
    | _ => rfl
  case waits =>
    rintro rfl
    exact pref_held h hp
  case fetches =>
    intro hlines
    obtain ⟨lines, rfl⟩ := Option.ne_none_iff_exists'.mp hlines
    obtain ⟨t, ht, kept⟩ := pref_next h hp
    exact ⟨t, ht, kept.groups, kept.pads, kept.lines⟩

end Sys2Proof.Machine
end

section
/-! SUPPORT. The bytes of a line: what a masked write of a line leaves of each byte (R259, R264). -/

namespace Sys2Proof.Machine

theorem spreadFrom_lt (m : Nat) : ∀ n, spreadFrom m n < 2 ^ (4 * n)
  | 0 => Nat.one_pos
  | n + 1 => by
    have below := spreadFrom_lt m n
    have next : 2 ^ (4 * (n + 1)) = 16 * 2 ^ (4 * n) := by rw [Nat.mul_succ, Nat.pow_add, Nat.mul_comm]
    have pow : 16 ^ n = 2 ^ (4 * n) := (Nat.pow_mul 2 4 n).symm
    rw [spreadFrom]
    split <;> omega

/-- A bit of the bit mask is that of the nibble in which it lies. -/
theorem testBit_spreadFrom (m i : Nat) : ∀ n, (spreadFrom m n).testBit i = (decide (i < 4 * n) && m.testBit (i / 4))
  | 0 => by simp [spreadFrom]
  | n + 1 => by
    have split_top : spreadFrom m (n + 1) = 2 ^ (4 * n) * (if m.testBit n then 2 ^ 4 - 1 else 0) + spreadFrom m n := by
      have pow : 16 ^ n = 2 ^ (4 * n) := (Nat.pow_mul 2 4 n).symm
      rw [spreadFrom]
      split <;> omega
    rw [split_top, Nat.testBit_two_pow_mul_add _ (spreadFrom_lt m n)]
    split
    · next low => rw [testBit_spreadFrom m i n, decide_eq_true low, decide_eq_true (show i < 4 * (n + 1) by omega)]
    · next high =>
      by_cases top : i < 4 * (n + 1)
      · have nibble : i / 4 = n := by omega
        rw [nibble, decide_eq_true top, Bool.true_and]
        split
        · next set => rw [set, Nat.testBit_two_pow_sub_one, decide_eq_true (by omega)]
        · next clear => rw [Nat.zero_testBit, Bool.eq_false_iff.mpr clear]
      · rw [decide_eq_false top, Bool.false_and]
        split
        · rw [Nat.testBit_two_pow_sub_one, decide_eq_false (by omega)]
        · exact Nat.zero_testBit _

theorem getLsbD_spread (m : BitVec 256) (i : Nat) : (spread m).getLsbD i = (decide (i < 1024) && m.getLsbD (i / 4)) := by
  unfold spread
  rw [BitVec.getLsbD_ofNat, testBit_spreadFrom, ← Bool.and_assoc, Bool.and_self]
  rfl

/-- A line with the nibbles of a mask replaced, bit by bit. -/
theorem getLsbD_mergeLine (old new : LineBits) (m : BitVec 256) (i : Nat) :
    (mergeLine old new m).getLsbD i = if m.getLsbD (i / 4) then new.getLsbD i else old.getLsbD i := by
  unfold mergeLine
  rw [BitVec.getLsbD_or, BitVec.getLsbD_and, BitVec.getLsbD_and, BitVec.getLsbD_not, getLsbD_spread]
  by_cases hi : i < 1024
  · cases m.getLsbD (i / 4) <;> simp [hi]
  · simp [BitVec.getLsbD_of_ge _ i (Nat.le_of_not_lt hi)]

theorem getLsbD_byteMask {o n : Nat} (fits : o + n ≤ 128) (j : Nat) : (byteMask o n).getLsbD j = decide (2 * o ≤ j ∧ j < 2 * (o + n)) := by
  unfold byteMask
  rw [BitVec.getLsbD_ofNat, Nat.testBit_mul_two_pow, Nat.testBit_two_pow_sub_one, Bool.eq_iff_iff]
  simp only [Bool.and_eq_true, decide_eq_true_eq]
  omega

theorem testBit_lineBytes (d : LineBits) (k n i : Nat) : (lineBytes d k n).testBit i = (decide (i < 8 * n) && d.getLsbD (8 * k + i)) :=
  testBit_bits ..

/-- The bytes that a write covers hold its value. -/
theorem lineBytes_mergeLine_written (d : LineBits) {o n y : Nat} (fits : o + n ≤ 128) (hy : y < 2 ^ (8 * n)) :
    lineBytes (mergeLine d (BitVec.ofNat 1024 (y * 2 ^ (8 * o))) (byteMask o n)) o n = y := by
  refine Nat.eq_of_testBit_eq fun i => ?_
  rw [testBit_lineBytes]
  by_cases hi : i < 8 * n
  · rw [getLsbD_mergeLine, getLsbD_byteMask fits, decide_eq_true hi, if_pos (decide_eq_true (by omega)), BitVec.getLsbD_ofNat,
      Nat.testBit_mul_two_pow, decide_eq_true (show 8 * o + i < 1024 by omega), decide_eq_true (show 8 * o + i ≥ 8 * o by omega),
      Nat.add_sub_cancel_left]
    simp
  · rw [decide_eq_false hi, Bool.false_and]
    exact (Nat.testBit_lt_two_pow (Nat.lt_of_lt_of_le hy (Nat.pow_le_pow_right Nat.two_pos (Nat.le_of_not_lt hi)))).symm

/-- The bytes that a write does not cover stay. -/
theorem lineBytes_mergeLine_apart (d x : LineBits) {o n k j : Nat} (fits : o + n ≤ 128) (apart : k + j ≤ o ∨ o + n ≤ k) :
    lineBytes (mergeLine d x (byteMask o n)) k j = lineBytes d k j := by
  refine Nat.eq_of_testBit_eq fun i => ?_
  rw [testBit_lineBytes, testBit_lineBytes]
  by_cases hi : i < 8 * j
  · rw [getLsbD_mergeLine, getLsbD_byteMask fits, if_neg (by rw [decide_eq_true_eq]; omega)]
  · rw [decide_eq_false hi, Bool.false_and, Bool.false_and]

end Sys2Proof.Machine
end

section
/-! SUPPORT. Accesses at the homes queue no atomic and take none away; and what the write of some bytes at a home leaves (R259, R264). -/

namespace Sys2Proof.Machine

/-! ### The atomics that wait -/

theorem tell_atoms (s : State) (a b : Nat) : (tell s a b).atoms = s.atoms := by
  unfold tell receiveStamp
  split
  · rfl
  · dsimp only
    split <;> rfl

theorem exchange_atoms (s : State) (a b : Nat) : (exchange s a b).atoms = s.atoms := (tell_atoms ..).trans (tell_atoms ..)

theorem activate_atoms (s : State) (bank row : Nat) : (activate s bank row).atoms = s.atoms := by
  unfold activate
  dsimp only
  split
  · rfl
  · split <;> rfl

theorem takeUp_atoms (s : State) (bank : Nat) : (takeUp s bank).atoms = s.atoms := by
  unfold takeUp openRow
  dsimp only
  split
  · rfl
  · split
    · rfl
    · split
      · rfl
      · exact activate_atoms ..

theorem bankRequest_atoms (s : State) (line : Nat) : (bankRequest s line).2.atoms = s.atoms := takeUp_atoms ..

theorem countSlice_atoms (s : State) (line k : Nat) : (countSlice s line k).atoms = s.atoms := by
  unfold countSlice countAt
  dsimp only
  split <;> rfl

theorem dropLine_atoms (s : State) (line : Nat) : (dropLine s line).atoms = s.atoms := by
  unfold dropLine exposeLine
  split
  · rfl
  · dsimp only
    split <;> split <;> rfl

theorem writeBack_atoms (s : State) (line : Nat) (d : LineBits) : (writeBack s line d).atoms = s.atoms := bankRequest_atoms ..

theorem evict_atoms (s : State) (line : Nat) : (evict s line).atoms = s.atoms := by
  unfold evict
  split
  · rfl
  · rw [dropLine_atoms]
    split
    · exact writeBack_atoms ..
    · rfl

theorem evictSlot_atoms (s : State) (line : Nat) : (evictSlot s line).atoms = s.atoms := by
  unfold evictSlot
  split
  · exact (evict_atoms ..).trans (evict_atoms ..)
  · exact evict_atoms ..

theorem makeRoom_atoms (line n : Nat) : ∀ s : State, (makeRoom s line n).atoms = s.atoms := by
  induction n with
  | zero => exact fun _ => rfl
  | succ n ih =>
    intro s
    rw [makeRoom]
    dsimp only
    split
    · rfl
    · split
      · rfl
      · exact (ih _).trans (evictSlot_atoms ..)

theorem allocate_atoms (s : State) (line : Nat) (d : LineBits) (dirty early : Bool) : (allocate s line d dirty early).atoms = s.atoms := by
  unfold allocate
  dsimp only
  split
  · rfl
  · exact makeRoom_atoms ..

theorem rehouse_atoms (s : State) (line p : Nat) : (rehouse s line p).atoms = s.atoms := by
  unfold rehouse
  dsimp only
  split
  · rfl
  · split
    · rfl
    · exact evict_atoms (setPartner (setPartner s line none) p none) p

theorem rewriteLine_atoms (s : State) (line policy : Nat) (x : L2Line) (d : LineBits) : (rewriteLine s line policy x d).atoms = s.atoms := by
  unfold rewriteLine
  dsimp only
  split
  · split
    · rfl
    · exact rehouse_atoms (useLine s line policy _) line _
  · rfl

theorem homeRead_atoms (s : State) (line policy : Nat) : (homeRead s line policy).2.2.atoms = s.atoms := by
  unfold homeRead
  split
  · exact countSlice_atoms ..
  · have asked := (bankRequest_atoms (countSlice s line 1) line).trans (countSlice_atoms ..)
    dsimp only
    split
    · exact (allocate_atoms ..).trans asked
    · exact asked

theorem lineWritten_atoms (s : State) (line : Nat) (d : LineBits) (m : BitVec 256) (policy : Nat) :
    (lineWritten s line d m policy).atoms = s.atoms := by
  unfold lineWritten
  split
  · exact rewriteLine_atoms ..
  · have asked : (if wholeLine m = true then s else (bankRequest s line).2).atoms = s.atoms := by
      split
      · rfl
      · exact bankRequest_atoms ..
    dsimp only
    split
    · exact (allocate_atoms ..).trans asked
    · exact (writeBack_atoms ..).trans asked

theorem told_atoms (t : State) (w : Option Nat) (line : Nat) (m : BitVec 256) :
    (if wholeLine m = true then { flagTxns (markStale t line m) w line 1 2 with
        poisoned := (flagTxns (markStale t line m) w line 1 2).poisoned.filter (· != line) }
      else flagTxns (markStale t line m) w line 1 2).atoms = t.atoms := by
  split <;> rfl

theorem homeWrite_atoms (s : State) (w : Option Nat) (line : Nat) (d : LineBits) (m : BitVec 256) (policy : Nat) :
    (homeWrite s w line d m policy).atoms = s.atoms :=
  (told_atoms (lineWritten s line d m policy) w line m).trans (lineWritten_atoms ..)

/-! ### Bytes written at a home -/

/-- What a write of `n` bytes at a home leaves: the bytes hold the value, every other byte of the line and every other line stay, and so do
the scratchpads. -/
structure BytesWritten (s t : State) (pa n x : Nat) : Prop where
  value : readHome t (.mem pa) n = x % 2 ^ (8 * n)
  bytes : ∀ k, k < 128 → k < pa % 128 ∨ pa % 128 + n ≤ k → lineBytes (lineOf t (.mem pa)) k 1 = lineBytes (lineOf s (.mem pa)) k 1
  lines : ∀ l, l ≠ pa / 128 → homeLine t (128 * l) = homeLine s (128 * l)
  pads : t.pads = s.pads

theorem homeLine_congr {s t : State} (hl : t.l2 = s.l2) (hh : t.hbm = s.hbm) : homeLine t = homeLine s := by
  funext line
  rw [homeLine_eq, homeLine_eq, hl, hh]

/-- What follows a write and leaves memory as it is. -/
theorem BytesWritten.then_same {s t u : State} {pa n x : Nat} (h : BytesWritten s t pa n x) (hl : u.l2 = t.l2) (hh : u.hbm = t.hbm)
    (hp : u.pads = t.pads) : BytesWritten s u pa n x := by
  have lines := homeLine_congr hl hh
  obtain ⟨value, bytes, others, pads⟩ := h
  unfold readHome lineOf at value
  unfold lineOf at bytes
  constructor
  · unfold readHome lineOf
    rw [lines]
    exact value
  · unfold lineOf
    rw [lines]
    exact bytes
  · rw [lines]
    exact others
  · exact hp.trans pads

theorem lineOf_kept {s t : State} (h : Kept s t) (hc : SlicesCoherent s) (pa : Nat) : lineOf t (.mem pa) = lineOf s (.mem pa) := by
  change homeLine t (pa / 128 * 128) = homeLine s (pa / 128 * 128)
  rw [Nat.mul_comm]
  exact h.lines hc _

theorem readHome_kept {s t : State} (h : Kept s t) (hc : SlicesCoherent s) (pa n : Nat) : readHome t (.mem pa) n = readHome s (.mem pa) n := by
  unfold readHome
  rw [lineOf_kept h hc]

/-- A write that follows a change of no line's value. -/
theorem BytesWritten.after_kept {s t u : State} {pa n x : Nat} (h : Kept s t) (hc : SlicesCoherent s) (hw : BytesWritten t u pa n x) :
    BytesWritten s u pa n x :=
  ⟨hw.value, fun k hk hapart => (hw.bytes k hk hapart).trans (by rw [lineOf_kept h hc]),
    fun l hl => (hw.lines l hl).trans (h.lines hc l), hw.pads.trans h.pads⟩

/-- A write of bytes of one line at its home (R264). -/
theorem bytesWritten_writeHome (s : State) (w : Option Nat) {pa n : Nat} (x : Nat) (hc : SlicesCoherent s) (fits : pa % 128 + n ≤ 128) :
    BytesWritten s (writeHome s w (.mem pa) n x) pa n x := by
  obtain ⟨-, line, others⟩ := homeWrite_lines s w (pa / 128 * 128) (BitVec.ofNat 1024 (x % 2 ^ (8 * n) * 2 ^ (8 * (pa % 128))))
    (byteMask (pa % 128) n) 1 (Nat.mul_mod_left ..) hc
  have written : lineOf (writeHome s w (.mem pa) n x) (.mem pa) = mergeLine (lineOf s (.mem pa)) _ (byteMask (pa % 128) n) := line
  refine ⟨?_, fun k _ hapart => ?_, fun l hl => others l (by omega), (homeWrite_frame ..).1⟩
  · unfold readHome
    rw [written]
    exact lineBytes_mergeLine_written _ fits (Nat.mod_lt _ (Nat.two_pow_pos _))
  · rw [written]
    exact lineBytes_mergeLine_apart _ _ fits (by omega)

theorem writeHome_atoms (s : State) (w : Option Nat) (pa n x : Nat) : (writeHome s w (.mem pa) n x).atoms = s.atoms := homeWrite_atoms ..

end Sys2Proof.Machine
end

section
/-! PROOF. Atomics at their homes and the return of their values (R178, R179, R268). -/

namespace Sys2Proof.Machine

/-! ### One atomic at its home -/

/-- A core's copy that takes the home's value changes no home and no queue. -/
theorem refreshCopy_frame (s : State) (core pa : Nat) : (refreshCopy s core pa).l2 = s.l2 ∧ (refreshCopy s core pa).hbm = s.hbm ∧
    (refreshCopy s core pa).pads = s.pads ∧ (refreshCopy s core pa).atoms = s.atoms := by
  unfold refreshCopy updateCopy
  dsimp only
  split
  · exact ⟨rfl, rfl, rfl, rfl⟩
  · split
    · split <;> exact ⟨rfl, rfl, rfl, rfl⟩
    · exact ⟨rfl, rfl, rfl, rfl⟩

/-- The new value that an atomic gives its place. -/
def Atom.result (a : Atom) (s : State) : Nat := a.op.new a.width (readHome s a.loc (a.width / 8)) a.operand a.compare

/-- The state in which an atomic has read its line at the home. -/
def Atom.afterRead (a : Atom) (s : State) (line : Nat) : State := (homeRead (exchange s (dieOf a.core) (homeDie line)) line 1).2.2

theorem kept_afterRead (a : Atom) (s : State) (pa : Nat) : Kept s (a.afterRead s (pa / 128 * 128)) :=
  (kept_exchange ..).trans (kept_homeRead ..)

theorem afterRead_atoms (a : Atom) (s : State) (line : Nat) : (a.afterRead s line).atoms = s.atoms :=
  (homeRead_atoms ..).trans (exchange_atoms ..)

theorem atomHome_mem (s : State) {a : Atom} {pa : Nat} (hloc : a.loc = .mem pa) :
    let line := pa / 128 * 128
    let t := a.afterRead s line
    (atomHome s a).1 = readHome t a.loc (a.width / 8) ∧
      (atomHome s a).2.2 = refreshCopy (writeHome t a.gid (.mem pa) (a.width / 8) (a.result t)) a.core line := by
  unfold atomHome Atom.result
  rw [hloc]
  exact ⟨rfl, rfl⟩

/-- The read and the write of an atomic (R268): the old value is that of the home, the new one follows from it. -/
theorem atomHome_written {s : State} {a : Atom} {pa : Nat} (hloc : a.loc = .mem pa) (hc : SlicesCoherent s)
    (fits : pa % 128 + a.width / 8 ≤ 128) : (atomHome s a).1 = readHome s a.loc (a.width / 8) ∧ (atomHome s a).2.2.atoms = s.atoms ∧
      BytesWritten s (atomHome s a).2.2 pa (a.width / 8) (a.result s) := by
  have read := kept_afterRead a s pa
  have old : readHome (a.afterRead s (pa / 128 * 128)) a.loc (a.width / 8) = readHome s a.loc (a.width / 8) :=
    hloc ▸ readHome_kept read hc pa _
  have result : a.result (a.afterRead s (pa / 128 * 128)) = a.result s := by rw [Atom.result, old, ← Atom.result]
  obtain ⟨hold, hstate⟩ := atomHome_mem s hloc
  rw [result] at hstate
  obtain ⟨hl2, hhbm, hpads, hatoms⟩ := refreshCopy_frame
    (writeHome (a.afterRead s (pa / 128 * 128)) a.gid (.mem pa) (a.width / 8) (a.result s)) a.core (pa / 128 * 128)
  rw [hstate]
  exact ⟨hold.trans old, hatoms.trans ((writeHome_atoms ..).trans (afterRead_atoms ..)),
    .then_same (.after_kept read hc (bytesWritten_writeHome _ a.gid _ (read.coherent hc) fits)) hl2 hhbm hpads⟩

/-- What goes to the access of an atomic changes no memory. -/
theorem settle_frame (a : Atom) (s : State) (old : Option Nat) (reqs : List Nat) (bad : Option Nat) :
    (a.settle s old reqs bad).l2 = s.l2 ∧ (a.settle s old reqs bad).hbm = s.hbm ∧ (a.settle s old reqs bad).pads = s.pads ∧
      (a.settle s old reqs bad).atoms = s.atoms := by
  unfold Atom.settle
  split <;> exact ⟨rfl, rfl, rfl, rfl⟩

/-- The old value of an atomic goes to its access. -/
theorem mem_vals_settle {a : Atom} {s : State} {old : Nat} {reqs : List Nat} {gid : Nat} {g : Group} {x : Access} (hgid : a.gid = some gid)
    (hg : Sparse.find? (a.settle s (some old) reqs none).groups gid = some g) (hx : x ∈ g.accs) (hid : x.id = a.acc) :
    (a.elem, old) ∈ x.vals := by
  unfold Atom.settle settleAccess at hg
  rw [hgid] at hg
  dsimp only at hg
  rw [modGroup_groups, find?_modify, if_pos rfl] at hg
  obtain ⟨g0, -, rfl⟩ := Option.map_eq_some_iff.mp hg
  obtain ⟨y, -, rfl⟩ := List.mem_map.mp hx
  by_cases hy : y.id = a.acc
  · simp [hy]
  · simp [hy] at hid

/-- An atomic performed at a home of this device, its line not poisoned, that arms no node (R268). -/
theorem here_written {s : State} {a : Atom} {pa : Nat} (hloc : a.loc = .mem pa) (hclean : homePoisoned s a.loc = false) (hnode : a.node ≠ 1)
    (hc : SlicesCoherent s) (fits : pa % 128 + a.width / 8 ≤ 128) : (a.here s).atoms = s.atoms ∧
      BytesWritten s (a.here s) pa (a.width / 8) (a.result s) ∧
      ∀ gid g, a.gid = some gid → Sparse.find? (a.here s).groups gid = some g → ∀ x ∈ g.accs, x.id = a.acc →
        (a.elem, readHome s a.loc (a.width / 8)) ∈ x.vals := by
  obtain ⟨old, atoms, written⟩ := atomHome_written hloc hc fits
  have performed : a.here s = a.settle (atomHome s a).2.2 (some (atomHome s a).1) (atomHome s a).2.1 none := by
    unfold Atom.here
    rw [hclean, beq_false_of_ne hnode]
    rfl
  obtain ⟨hl2, hhbm, hpads, hatoms⟩ := settle_frame a (atomHome s a).2.2 (some (atomHome s a).1) (atomHome s a).2.1 none
  rw [performed, ← old]
  exact ⟨hatoms.trans atoms, written.then_same hl2 hhbm hpads, fun gid g hgid hg x => mem_vals_settle hgid hg⟩

theorem isRemote_of_hbm {pa : Nat} (h : regionOf pa = .hbm) : isRemote (.mem pa) = false := by
  change (regionOf pa == .host || regionOf pa == .linked) = false
  rw [h]
  rfl

/-- An atomic whose turn it is and that nothing blocks is taken from the queue and performed at its home. -/
theorem atomicPerform_next {s : State} {id pa : Nat} {a : Atom} (hfind : s.atoms.find? (fun b => b.id == id) = some a)
    (hfirst : ∀ g, a.gid = some g → (s.atoms.find? fun b => b.gid == some g) = some a) (hgo : atomBlocked s a = false)
    (hloc : a.loc = .mem pa) (hhbm : regionOf pa = .hbm) :
    exec (.atomicPerform id) s = .next (settleTxns (a.here { s with atoms := s.atoms.filter fun b => b.id != id })) := by
  change execAtomicPerform id s = _
  unfold execAtomicPerform
  rw [hfind]
  refine (if_neg ?first).trans ((if_neg (Bool.eq_false_iff.mp hgo)).trans ?_)
  case first =>
    split
    · next g hg =>
      rw [hfirst g hg, Option.any_some, List.find?_some hfind]
      decide
    · decide
  dsimp only
  rw [hloc, isRemote_of_hbm hhbm]
  rfl

/-! ### The return -/

/-- The values that an atomic returns reach the elements of D that it was made for (R179). -/
theorem atomicReturn_next {s : State} {gid acc d w : Nat} {g : Group} {a : Access} (hg : Sparse.find? s.groups gid = some g)
    (ha : arrivalReady s g acc = some a) (huse : a.use = .atomic d w) (hlive : g.retired = false) (hpoison : a.poison = none) :
    exec (.atomicReturn gid acc) s = .next (s.putGroup gid
      ({ g with accs := g.accs.filter fun b => b.id != acc }.arriveAtomic a d w)) := by
  change execAtomicReturn gid acc s = _
  unfold execAtomicReturn
  rw [hg]
  dsimp only
  rw [ha]
  dsimp only
  rw [huse]
  dsimp only
  rw [hlive, hpoison]
  rfl

/-- What an atomic that is not cancelled, the last that names D, leaves of its group. -/
theorem arriveAtomic_written {g : Group} {a : Access} {d w : Nat} (hlive : a.cancelled = false) (hlast : stillPending g a = false) :
    g.arriveAtomic a d w =
      g.setV d { val := ofElems w fun e => (a.value e).getD (elem (g.vreg d).val w e), tag := .g, full := true } := by
  unfold Group.arriveAtomic
  rw [hlive, hlast]
  rfl

/-! ### The operations -/

/-- The new value of each operation on integers (R178). -/
theorem atomOp_new {w old x : Nat} (cmp : Nat) :
    AtomOp.new .add w old x cmp = (old + x) % 2 ^ w ∧ AtomOp.new .xch w old x cmp = x ∧
    AtomOp.new .cas w old x cmp = (if old = cmp then x else old) ∧
    (∀ sg, valueOf w sg (AtomOp.new (.min sg) w old x cmp) = min (valueOf w sg old) (valueOf w sg x) ∧
      valueOf w sg (AtomOp.new (.max sg) w old x cmp) = max (valueOf w sg old) (valueOf w sg x)) ∧
    (∀ i, (AtomOp.new .and w old x cmp).testBit i = (old.testBit i && x.testBit i) ∧
      (AtomOp.new .or w old x cmp).testBit i = (old.testBit i || x.testBit i) ∧
      (AtomOp.new .xor w old x cmp).testBit i = (old.testBit i != x.testBit i)) := by
  refine ⟨rfl, rfl, ?_, fun sg => ⟨valueOf_minElem .., valueOf_maxElem ..⟩,
    fun i => ⟨Nat.testBit_and .., Nat.testBit_or .., Nat.testBit_xor ..⟩⟩
  simp only [AtomOp.new, beq_iff_eq]

/-- Settles O23: an atomic at its home is the write of its result over a read that keeps every line; its return fills D. -/
theorem atomicsPerform : Obligations.AtomicsPerform := by
  unfold Obligations.AtomicsPerform
  refine ⟨fun s id a pa hfind hfirst hgo hloc hhbm hclean hnode hc fits => ?performs, fun w old x cmp _ _ _ => atomOp_new cmp,
    fun s gid g acc a d w hg ha huse hlive hpoison hkept hlast hw => ?returns⟩
  case performs =>
    obtain ⟨atoms, written, returned⟩ := here_written (s := { s with atoms := s.atoms.filter fun b => b.id != id }) hloc hclean hnode hc fits
    obtain ⟨value, bytes, lines, pads⟩ := written
    rw [← hloc] at value bytes
    exact ⟨_, atomicPerform_next hfind hfirst hgo hloc hhbm, atoms, pads, value, lines, bytes, returned⟩
  case returns =>
    refine ⟨_, (atomicReturn_next hg ha huse hlive hpoison).trans
      (congrArg (fun x => Host.Outcome.next (s.putGroup gid x)) (arriveAtomic_written hkept hlast)), rfl, ?_, ?_, ?_, ?_, rfl, rfl, rfl, rfl⟩
    · rw [vreg_setV, if_pos rfl]
    · rw [vreg_setV, if_pos rfl]
    · intro e he
      rw [vreg_setV, if_pos rfl, elem_ofElems w _ e he]
      cases a.value e with
      | some x => rfl
      | none => exact Nat.mod_eq_of_lt (elem_lt ..)
    · intro n hn
      rw [vreg_setV, if_neg hn]
      rfl

end Sys2Proof.Machine
end
